-- ==== Sys2Proof/Word.lean ====
section
/-! DEFINITION. The word types of the machine and the plain-data map used for sparse state. -/
namespace Sys2Proof

/-- A scalar register, an address or a CSR: 64 bits (R86). -/
abbrev Word := BitVec 64
/-- The smallest addressable unit (R2). -/
abbrev Byte := BitVec 8
/-- A vector register: 256 bytes, byte 0 in the low bits (R86, R127). -/
abbrev VReg := BitVec 2048
/-- A predicate register: one bit per byte of a vector (R91). -/
abbrev PReg := BitVec 256
/-- A sparse collection: pairs of key and value, keys strictly rising. -/
abbrev SMap (α : Type) := List (Nat × α)

end Sys2Proof
end

