-- ==== Sys2Proof/Config.lean ====
section
/-! DEFINITION. What an implementation fixes, and the free values: constants without a body, so that no proof can
rest on a value of theirs. -/
namespace Sys2Proof

/-- The figures of manufacture from which the local budgets come: of core c, of array a, of die d, in mW (R15; log entry 3). -/
opaque Config.coreFigure : Nat → BitVec 16
opaque Config.arrayFigure : Nat → Nat
opaque Config.dieFigure : Nat → Nat

/-- Figures cut so that their sum stays within a maximum. -/
def capSum : Nat → List Nat → List Nat
  | _, [] => []
  | cap, x :: xs => Nat.min x cap :: capSum (cap - x) xs

/-- The local budgets of the cores and the arrays of compute stack d, whose sum stays within the 160 W of Table 1-5. -/
def Config.stack (d : Nat) : List Nat :=
  capSum 160000 ((List.range 64).map (fun j => (Config.coreFigure (64 * d + j)).toNat) ++
    (List.range 16).map (fun j => Config.arrayFigure (16 * d + j)))

/-- BUDGET of core c in mW, set at manufacture (R15, R16; log entry 3). -/
def Config.budget (c : Nat) : BitVec 16 := BitVec.ofNat 16 ((Config.stack (c / 64)).getD (c % 64) 0)

/-- The local budgets of array a and of die d, in mW, set at manufacture: a memory die's within 48 W, an I/O die's within 45 W
(R15, Table 1-5; log entry 3). -/
def Config.arrayBudget (a : Nat) : Nat := (Config.stack (a / 16)).getD (64 + a % 16) 0
def Config.dieBudget (d : Nat) : Nat := Nat.min (Config.dieFigure d) (if d < 16 then 48000 else 45000)

/-- A free value of 64 bits, applied to the counter of the state (`State.fresh`; log entry 3). -/
opaque Config.freeWord : Nat → BitVec 64

/-- The choice of a FREE scope number (R57), applied to the counter of the state (log entry 3). -/
opaque Config.scopeHint : Nat → BitVec 16

/-- The choice of a free queue number (R281), applied to the counter of the state (log entry 3). -/
opaque Config.queueHint : Nat → BitVec 16

/-- The choice of a FID that is not open (R226), applied to the counter of the state (log entry 3). -/
opaque Config.fidHint : Nat → BitVec 32

/-- Pages of HBM that the driver grants the Weir, all shards together (R238; log entry 3). -/
opaque Config.hbmGrant : Nat

/-- Pages of the second tier that the driver grants the Weir, all shards together (R238), given which expanders are lost
(R285; log entry 3). -/
opaque Config.t2Grant : Bool → Bool → Nat

/-- The number of a Flume engine, or of a sequencer, in a fault record (Table 9-7; log entry 3). -/
opaque Config.unitNumber : Nat → BitVec 16

/-- The lowest operating point of a memory or I/O die's loop, in MHz (R21; log entry 3). -/
opaque Config.lowClock : Nat → Nat

/-- The sign of the one step of GTIME at a die's first lock (R69): whether the estimate is subtracted (log entry 19). -/
opaque Config.lockSubtracts : Bool

/-- The bits of HARVEST that the tests of start-up leave set (R300; log entry 9). -/
opaque Config.harvest : BitVec 8

/-- The signature of a CHALLENGE_AUTH over a nonce (R303; log entry 28). -/
opaque Config.challengeSig : BitVec 64 → BitVec 64

/-- The measurement of the boot ROM, of an image of a version, and of HARVEST with the fused configuration (R303; log entry 28). -/
opaque Config.measureRom : BitVec 64
opaque Config.measureImage : BitVec 32 → BitVec 64
opaque Config.measureFuses : BitVec 8 → BitVec 64

/-- TVEC's address of firmware's handler (R290, R291). DESIGN CHOICE: a value the model names (log entry 7). -/
def Config.fwEntry : BitVec 57 := 0

/-- log2 of the capacity of a nest queue (R47): DESIGN CHOICE: the spec gives none (log entry 8). -/
def Config.nestLogCap : Nat := 4

end Sys2Proof
end

