-- ==== Sys2Proof/Syntax.lean ====
section
/-! DEFINITION. The syntax of every step of the part: one constructor of `Instr` per row of
spec/opcode_table.json (05_encoding.md for the encoded rows, 95_what_each_step_holds.md for the events). -/
namespace Sys2Proof

/-- Three scalar registers (SR and XR formats, R101). -/
structure R3 where
  rd : BitVec 5
  ra : BitVec 5
  rb : BitVec 5
  deriving DecidableEq, Repr

/-- A destination and one source register. -/
structure R2 where
  rd : BitVec 5
  ra : BitVec 5
  deriving DecidableEq, Repr

/-- SI format: destination (or data register of a store), base or source, signed 13-bit immediate. -/
structure RI where
  rd : BitVec 5
  ra : BitVec 5
  imm : BitVec 13
  deriving DecidableEq, Repr

/-- SB format: two compared registers and a signed offset in parcels. -/
structure RB where
  ra : BitVec 5
  rb : BitVec 5
  off : BitVec 13
  deriving DecidableEq, Repr

/-- V3 format (R101): token bits, three fields, PS, and the literal word (0 where there is none, R100). -/
structure V3 where
  tok : BitVec 4
  a : BitVec 6
  b : BitVec 6
  c : BitVec 6
  ps : BitVec 2
  lit : BitVec 32
  deriving DecidableEq, Repr

/-- The fields of an OPR record (Table 2-3). -/
structure OprRec where
  prio : BitVec 5
  tclass : BitVec 4
  rect : BitVec 15
  scope : BitVec 16
  opbi : BitVec 16
  in0 : BitVec 32
  in1 : BitVec 32
  in2 : BitVec 32
  in3 : BitVec 32
  out0 : BitVec 32
  out1 : BitVec 32
  deriving DecidableEq, Repr

/-- The fields of a matrix command record (Table 5-9), the opcode apart. -/
structure MCmd where
  koff : BitVec 16
  stb : BitVec 4
  sta : BitVec 4
  acc : BitVec 3
  raise : BitVec 5
  await : BitVec 5
  pl : BitVec 3
  pt : BitVec 3
  dw : BitVec 2
  dh : BitVec 2
  sw : BitVec 2
  sh : BitVec 2
  row0 : BitVec 12
  k : BitVec 13
  nm1 : BitVec 7
  mm1 : BitVec 7
  deriving DecidableEq, Repr

/-- The fields of a Flume packet (Table 5-11), the kind apart. -/
structure FPkt where
  dc : Bool
  lp : Bool
  dh : Bool
  sh : Bool
  scope : BitVec 16
  prio : BitVec 5
  src : Word
  dst : Word
  len : Word
  stamp : Word
  nbt : Word
  aux : Word
  tag : Word
  deriving DecidableEq, Repr

/-- The four I/O ports (R8); A and B are the host ports. -/
inductive Port where
  | a | b | c | d
  deriving DecidableEq, Repr

/-- Whose request a completion of the host answers (R273): a strand's own, that of a strand's queue (1 VL, 2 VA, 3 VS), of the
fill of a load-block, of the command that a core's ring has begun, or of the packet in execution in a Flume queue. -/
inductive HostReq where
  | strand (core : Nat)
  | queue (core : Nat) (q : BitVec 2)
  | block (core i : Nat)
  | ring (core : Nat)
  | packet (q : Nat)
  deriving DecidableEq, Repr

/-- The frequency that a clock loop sets, in MHz, and the average draw of its block over the last 10 µs, in mW (R14, R15). -/
structure ClockSet where
  mhz : Nat
  draw : Nat
  deriving DecidableEq, Repr

/-- A block with a clock loop of its own (R12). -/
inductive Block where
  | core (c : Nat)
  | array (die n : Nat)
  | mem (i : Nat)
  | io (i : Nat)
  deriving DecidableEq, Repr

/-- What verification of a firmware image finds (R302): its version, whether its signature is valid under
the fused key, and whether it could be read. -/
structure FwImage where
  version : BitVec 32
  sigOk : Bool
  deriving DecidableEq, Repr

/-- What a port's link partner advertises (R274): its highest rate in GT/s, 256-byte flits, whether it
advertises 128 GT/s and completes alternate protocol negotiation, and its width. -/
structure Partner where
  rate : Nat
  flit256 : Bool
  adv128 : Bool
  altProto : Bool
  width : Nat
  capacity : Nat
  deriving DecidableEq, Repr

/-- A host-visible register without a row of its own (R280, R281). -/
inductive HostReg where
  | ptmctl | timerec
  | ptroot (ctx : Nat) | fqbase (ctx : Nat) | fqrd (ctx : Nat) | eqbase (ctx : Nat) | eqrd (ctx : Nat)
  | crbase (ctx : Nat) | qbase (ctx : Nat) | weir (ctx : Nat) (i : Fin 6) | other (off : BitVec 24)
  deriving DecidableEq, Repr

/-- Every step of the part. -/
inductive Instr where
  /-- ADD (R308). Adds two scalar registers, wrapping to 64 bits. -/
  | add (f : R3)
  /-- SUB (R308). Subtracts one scalar register from another, wrapping to 64 bits. -/
  | sub (f : R3)
  /-- AND (R308). Bitwise AND of two scalar registers. -/
  | and (f : R3)
  /-- OR (R308). Bitwise OR of two scalar registers. -/
  | or (f : R3)
  /-- XOR (R308). Bitwise XOR of two scalar registers. -/
  | xor (f : R3)
  /-- SLL (R308). Shifts a scalar left by the low six bits of another. -/
  | sll (f : R3)
  /-- SRL (R308). Shifts a scalar right logically by the low six bits of another. -/
  | srl (f : R3)
  /-- SRA (R308). Shifts a scalar right arithmetically by the low six bits of another. -/
  | sra (f : R3)
  /-- SLT (R308). Writes 1 when the first scalar is below the second, signed. -/
  | slt (f : R3)
  /-- SLTU (R308). Writes 1 when the first scalar is below the second, unsigned. -/
  | sltu (f : R3)
  /-- MIN (R308). Signed minimum of two scalars. -/
  | min (f : R3)
  /-- MAX (R308). Signed maximum of two scalars. -/
  | max (f : R3)
  /-- MINU (R308). Unsigned minimum of two scalars. -/
  | minu (f : R3)
  /-- MAXU (R308). Unsigned maximum of two scalars. -/
  | maxu (f : R3)
  /-- MUL (R308). Low 64 bits of the product of two scalars. -/
  | mul (f : R3)
  /-- MULH (R308). High 64 bits of the signed 128-bit product. -/
  | mulh (f : R3)
  /-- MULHU (R308). High 64 bits of the unsigned 128-bit product. -/
  | mulhu (f : R3)
  /-- DIV (R139). Signed division rounded towards zero, never trapping. -/
  | div (f : R3)
  /-- DIVU (R139). Unsigned division, never trapping. -/
  | divu (f : R3)
  /-- REM (R139). Signed remainder with the sign of the dividend. -/
  | rem (f : R3)
  /-- REMU (R139). Unsigned remainder. -/
  | remu (f : R3)
  /-- CLZ (R308). Counts leading zeros of a scalar, 64 for zero. -/
  | clz (f : R2)
  /-- CTZ (R308). Counts trailing zeros of a scalar, 64 for zero. -/
  | ctz (f : R2)
  /-- POPC (R308). Counts the set bits of a scalar. -/
  | popc (f : R2)
  /-- FSHR (R308). Funnel-shifts the concatenation of two scalars right by an immediate. -/
  | fshr (f : R3) (n : BitVec 6)
  /-- ADDI (R309). Adds a sign-extended immediate to a scalar. -/
  | addi (f : RI)
  /-- ANDI (R309). ANDs a scalar with a sign-extended immediate. -/
  | andi (f : RI)
  /-- ORI (R309). ORs a scalar with a sign-extended immediate. -/
  | ori (f : RI)
  /-- XORI (R309). XORs a scalar with a sign-extended immediate. -/
  | xori (f : RI)
  /-- SLLI (R309). Shifts a scalar left by an immediate of 0 to 63. -/
  | slli (f : R2) (n : BitVec 6)
  /-- SRLI (R309). Shifts a scalar right logically by an immediate of 0 to 63. -/
  | srli (f : R2) (n : BitVec 6)
  /-- SRAI (R309). Shifts a scalar right arithmetically by an immediate of 0 to 63. -/
  | srai (f : R2) (n : BitVec 6)
  /-- SLTI (R309). Writes 1 when a scalar is below a sign-extended immediate, signed. -/
  | slti (f : RI)
  /-- SLTIU (R309). Writes 1 when a scalar is below a sign-extended immediate, unsigned. -/
  | sltiu (f : RI)
  /-- FADD (R314). FP32 addition rounded under the instruction's mode. -/
  | fadd (f : R3) (rm : BitVec 2)
  /-- FSUB (R314). FP32 subtraction rounded under the instruction's mode. -/
  | fsub (f : R3) (rm : BitVec 2)
  /-- FMUL (R314). FP32 multiplication rounded under the instruction's mode. -/
  | fmul (f : R3) (rm : BitVec 2)
  /-- FDIV (R314). FP32 division rounded under the instruction's mode. -/
  | fdiv (f : R3) (rm : BitVec 2)
  /-- FSQRT (R314). FP32 square root rounded under the instruction's mode. -/
  | fsqrt (f : R2) (rm : BitVec 2)
  /-- FMIN (R314). FP32 minimum with the NaN and signed-zero rules of R132. -/
  | fmin (f : R3)
  /-- FMAX (R314). FP32 maximum with the NaN and signed-zero rules of R132. -/
  | fmax (f : R3)
  /-- FEQ (R314). FP32 equality test writing 0 or 1. -/
  | feq (f : R3)
  /-- FLT (R314). FP32 less-than test writing 0 or 1, NV on NaN. -/
  | flt (f : R3)
  /-- FLE (R314). FP32 less-or-equal test writing 0 or 1, NV on NaN. -/
  | fle (f : R3)
  /-- FCVTWS (R314). Converts FP32 to I32, sign-extended to 64 bits. -/
  | fcvtws (f : R2) (rm : BitVec 2)
  /-- FCVTUS (R314). Converts FP32 to U32, zero-extended to 64 bits. -/
  | fcvtus (f : R2) (rm : BitVec 2)
  /-- FCVTSW (R314). Converts I32 to FP32 under the rounding mode. -/
  | fcvtsw (f : R2) (rm : BitVec 2)
  /-- FCVTSU (R314). Converts U32 to FP32 under the rounding mode. -/
  | fcvtsu (f : R2) (rm : BitVec 2)
  /-- FABS (R314). Clears the sign bit of an FP32 value. -/
  | fabs (f : R2)
  /-- FNEG (R314). Inverts the sign bit of an FP32 value. -/
  | fneg (f : R2)
  /-- FMA (R316). Scalar FP32 fused multiply-add into rd, rounded once. -/
  | fma (f : R3) (rm : BitVec 2)
  /-- CSRR (R313). Reads a CSR into rd. -/
  | csrr (rd : BitVec 5) (csr : BitVec 11)
  /-- CSRW (R313). Writes a scalar to a CSR and returns its old value. -/
  | csrw (f : R2) (csr : BitVec 11)
  /-- CSRS (R313). Sets CSR bits from a scalar and returns the old value. -/
  | csrs (f : R2) (csr : BitVec 11)
  /-- CSRC (R313). Clears CSR bits from a scalar and returns the old value. -/
  | csrc (f : R2) (csr : BitVec 11)
  /-- VMODE (R97). Copies the masked VMODE fields from a scalar and returns the old VMODE. -/
  | vmode (f : R2) (mask : BitVec 5)
  /-- LDB (R322). Loads a sign-extended byte. -/
  | ldb (f : RI)
  /-- LDBU (R322). Loads a zero-extended byte. -/
  | ldbu (f : RI)
  /-- LDH (R322). Loads a sign-extended halfword. -/
  | ldh (f : RI)
  /-- LDHU (R322). Loads a zero-extended halfword. -/
  | ldhu (f : RI)
  /-- LDW (R322). Loads a sign-extended word. -/
  | ldw (f : RI)
  /-- LDWU (R322). Loads a zero-extended word. -/
  | ldwu (f : RI)
  /-- LDD (R322). Loads a doubleword. -/
  | ldd (f : RI)
  /-- LDS (R322). Speculative doubleword load that sets D instead of faulting. -/
  | lds (f : RI)
  /-- STB (R332). Stores a byte. -/
  | stb (f : RI)
  /-- STH (R332). Stores a halfword. -/
  | sth (f : RI)
  /-- STW (R332). Stores a word. -/
  | stw (f : RI)
  /-- STD (R332). Stores a doubleword. -/
  | std (f : RI)
  /-- AADD (R307). Atomic add at the target, returning the old value. -/
  | aadd (f : R3) (order : BitVec 2) (dbl : Bool)
  /-- ASWP (R307). Atomic swap at the target, returning the old value. -/
  | aswp (f : R3) (order : BitVec 2) (dbl : Bool)
  /-- ACAS (R307). Atomic compare-and-swap against the comparand in rd. -/
  | acas (f : R3) (order : BitVec 2) (dbl : Bool)
  /-- AAND (R307). Atomic bitwise AND at the target. -/
  | aand (f : R3) (order : BitVec 2) (dbl : Bool)
  /-- AOR (R307). Atomic bitwise OR at the target. -/
  | aor (f : R3) (order : BitVec 2) (dbl : Bool)
  /-- AXOR (R307). Atomic bitwise XOR at the target. -/
  | axor (f : R3) (order : BitVec 2) (dbl : Bool)
  /-- AMIN (R307). Atomic signed minimum at the target. -/
  | amin (f : R3) (order : BitVec 2) (dbl : Bool)
  /-- AMAX (R307). Atomic signed maximum at the target. -/
  | amax (f : R3) (order : BitVec 2) (dbl : Bool)
  /-- AMINU (R307). Atomic unsigned minimum at the target. -/
  | aminu (f : R3) (order : BitVec 2) (dbl : Bool)
  /-- AMAXU (R307). Atomic unsigned maximum at the target. -/
  | amaxu (f : R3) (order : BitVec 2) (dbl : Bool)
  /-- AFADD (R307). Atomic FP32 add rounded to nearest even, word size only. -/
  | afadd (f : R3) (order : BitVec 2)
  /-- LDAQ (R321). Acquire load of a word or doubleword. -/
  | ldaq (f : R2) (dbl : Bool)
  /-- STRL (R321). Release store of a word or doubleword. -/
  | strl (ra rb : BitVec 5) (dbl : Bool)
  /-- BEQ (R310). Branches to a block header when two scalars are equal. -/
  | beq (f : RB)
  /-- BNE (R310). Branches to a block header when two scalars differ. -/
  | bne (f : RB)
  /-- BLT (R310). Branches when the first scalar is below the second, signed. -/
  | blt (f : RB)
  /-- BGE (R310). Branches when the first scalar is at least the second, signed. -/
  | bge (f : RB)
  /-- BLTU (R310). Branches when the first scalar is below the second, unsigned. -/
  | bltu (f : RB)
  /-- BGEU (R310). Branches when the first scalar is at least the second, unsigned. -/
  | bgeu (f : RB)
  /-- JAL (R318). Jumps to a block header, optionally writing the return address to s31. -/
  | jal (link : Bool) (off : BitVec 20)
  /-- JALR (R319). Jumps through a register plus offset and writes the return address. -/
  | jalr (f : RI)
  /-- LOOPR (R90). Closes a rotating loop: counts down TRIPS or DRAIN, rotates and sets p8, branches. -/
  | loopr (off : BitVec 13)
  /-- BP (R311). Branches on an any, none or all test of a predicate. -/
  | bp (p : BitVec 5) (test : BitVec 2) (off : BitVec 13)
  /-- CHKD (R93). Branches when the named register's D bit is set. -/
  | chkd (cls : BitVec 2) (n : BitVec 6) (off : BitVec 13)
  /-- LIU (R323). Loads a sign-extended upper immediate shifted by 13. -/
  | liu (rd : BitVec 5) (imm : BitVec 20)
  /-- FLI (R103). Loads an FP32 value from 20 immediate bits. -/
  | fli (rd : BitVec 5) (imm : BitVec 20)
  /-- C_MV (R102). Short form of add sa, s0, sb. -/
  | cMv (ra rb : BitVec 5)
  /-- C_LI (R102). Short form of addi sa, s0, #i. -/
  | cLi (ra : BitVec 5) (imm : BitVec 7)
  /-- C_ADDI (R102). Short form of addi sa, sa, #i; c.addi s0, #0 is NOP. -/
  | cAddi (ra : BitVec 5) (imm : BitVec 7)
  /-- C_ADD (R102). Short form of add sa, sa, sb. -/
  | cAdd (ra rb : BitVec 5)
  /-- C_SUB (R102). Short form of sub sa, sa, sb. -/
  | cSub (ra rb : BitVec 5)
  /-- C_SLLI (R102). Short form of slli sa, sa, #n. -/
  | cSlli (ra : BitVec 5) (n : BitVec 6)
  /-- C_LDD (R102). Short form of ldd sa, [sb + 8j]. -/
  | cLdd (ra rb : BitVec 5) (j : BitVec 2)
  /-- C_STD (R102). Short form of std sa, [sb + 8j]. -/
  | cStd (ra rb : BitVec 5) (j : BitVec 2)
  /-- VADD (R335). Element-wise add under the carried element type. -/
  | vadd (f : V3)
  /-- VSUB (R335). Element-wise subtract. -/
  | vsub (f : V3)
  /-- VMUL (R335). Element-wise multiply. -/
  | vmul (f : V3)
  /-- VMAD (R342). A := A x B + C, rounded or reduced once. -/
  | vmad (f : V3)
  /-- VFMA (R342). A := B x C + A, rounded or reduced once. -/
  | vfma (f : V3)
  /-- VMADK (R342). A := A x B + constant-bank entry read at routing. -/
  | vmadk (f : V3)
  /-- VMADS (R342). A := A x B + broadcast scalar. -/
  | vmads (f : V3)
  /-- VADDS (R335). Adds a broadcast scalar to each element. -/
  | vadds (f : V3)
  /-- VMULS (R335). Multiplies each element by a broadcast scalar. -/
  | vmuls (f : V3)
  /-- VMIN (R335). Element-wise minimum. -/
  | vmin (f : V3)
  /-- VMAX (R335). Element-wise maximum. -/
  | vmax (f : V3)
  /-- VAND (R335). Element-wise bitwise AND. -/
  | vand (f : V3)
  /-- VOR (R335). Element-wise bitwise OR. -/
  | vor (f : V3)
  /-- VXOR (R335). Element-wise bitwise XOR. -/
  | vxor (f : V3)
  /-- VSHL (R335). Element-wise left shift by per-element counts. -/
  | vshl (f : V3)
  /-- VSHR (R335). Element-wise right shift by per-element counts. -/
  | vshr (f : V3)
  /-- VFSH (R155). Element-wise funnel shift of A and B by counts in C. -/
  | vfsh (f : V3)
  /-- VCEQ (R338). Element equality written to a predicate. -/
  | vceq (f : V3)
  /-- VCLT (R338). Element less-than written to a predicate. -/
  | vclt (f : V3)
  /-- VCLE (R338). Element less-or-equal written to a predicate. -/
  | vcle (f : V3)
  /-- VSEL (R350). Selects B where active and C elsewhere. -/
  | vsel (f : V3)
  /-- VCVT (R339). Converts elements to another type, one part of a widening or narrowing. -/
  | vcvt (f : V3)
  /-- VRED (R156). Reduces aligned groups of elements in a fixed pairwise tree. -/
  | vred (f : V3)
  /-- VSCAN (R156). Inclusive prefix within aligned segments. -/
  | vscan (f : V3)
  /-- VPERM (R154). Selects each element of B by index. -/
  | vperm (f : V3)
  /-- VSLIDE (R153). Moves elements by a signed slide, filling with zeros. -/
  | vslide (f : V3)
  /-- VSFU (R141). Reciprocal, reciprocal square root, exp2 or log2, correctly rounded. -/
  | vsfu (f : V3)
  /-- VBITS (R157). CLZ, CTZ, POPC or BREV within each element. -/
  | vbits (f : V3)
  /-- VCBX (R337). Expands GQ4 codes to codebook values in the element type. -/
  | vcbx (f : V3)
  /-- VQNT (R348). Quantises one FP32 block to GQ4: AMAX, SCALE or CODES plane. -/
  | vqnt (f : V3)
  /-- VMOV (R347). Copies a vector's bits unchanged. -/
  | vmov (f : V3)
  /-- VUN (R352). Element-wise ABS, NEG or NOT. -/
  | vun (f : V3)
  /-- VLD (R344). Loads 256 aligned bytes into a vector. -/
  | vld (f : V3)
  /-- VST (R344). Stores a vector to 256 aligned bytes. -/
  | vst (f : V3)
  /-- VLDS (R175). Speculative vector load setting D instead of faulting. -/
  | vlds (f : V3)
  /-- VSTM (R351). Stores the mask-selected bytes of a vector at any byte address. -/
  | vstm (f : V3)
  /-- VLDX (R346). Gathers elements by index vector. -/
  | vldx (f : V3)
  /-- VSTX (R346). Scatters elements by index vector. -/
  | vstx (f : V3)
  /-- VLDC (R166). Waits for filled slots and loads a circular-buffer slot. -/
  | vldc (f : V3)
  /-- VSTC (R166). Waits for free slots and stores to a circular-buffer slot. -/
  | vstc (f : V3)
  /-- CBADV_RPTR (R167). Advances a circular buffer's read pointer in VL after waiting for filled slots. -/
  | cbadvRptr (f : V3)
  /-- CBADV_WPTR (R167). Advances a circular buffer's write pointer in VS after waiting for free slots. -/
  | cbadvWptr (f : V3)
  /-- SPUSH (R159). Appends the active elements of a vector to a conditional stream. -/
  | spush (f : V3)
  /-- SPOP (R160). Takes up to one full vector from a conditional stream with a valid-lane predicate. -/
  | spop (f : V3)
  /-- SBAL (R162). Waits for the quad's matching SBALs and rebalances their conditional streams. -/
  | sbal (f : V3)
  /-- PSET (R330). Sets a predicate from an element count. -/
  | pset (f : V3)
  /-- PAND (R328). Bitwise AND of two predicates. -/
  | pand (f : V3)
  /-- POR (R328). Bitwise OR of two predicates. -/
  | por (f : V3)
  /-- PXOR (R328). Bitwise XOR of two predicates. -/
  | pxor (f : V3)
  /-- PNOT (R328). Bitwise complement of a predicate. -/
  | pnot (f : V3)
  /-- PCNT (R329). Counts a predicate's set bits into a scalar. -/
  | pcnt (f : V3)
  /-- VBCAST (R336). Broadcasts a scalar to the active elements. -/
  | vbcast (f : V3)
  /-- VEXTR (R341). Extracts one element into a scalar. -/
  | vextr (f : V3)
  /-- VINS (R343). Inserts a scalar into one element. -/
  | vins (f : V3)
  /-- VPARK (R95). Pushes a vector onto the park stack in lent tile rows. -/
  | vpark (f : V3)
  /-- VUNPARK (R95). Pops a vector from the park stack. -/
  | vunpark (f : V3)
  /-- VLDB (R209). Declares a load-block that fills behind it and raises a semaphore when full. -/
  | vldb (f : V3)
  /-- VLDST (R173). Loads the next vector of a stream, converting formats, and advances its position. -/
  | vldst (f : V3)
  /-- VSTST (R174). Stores a vector to the next position of a stream, converting formats. -/
  | vstst (f : V3)
  /-- NOP (R326). Changes nothing. -/
  | nop
  /-- SEMW (R180). Waits until a semaphore is positive, then decrements it. -/
  | semw (f : R2)
  /-- SEMS (R181). Raises an own or peer semaphore by a count without waiting. -/
  | sems (f : R3)
  /-- BARI (R259). Adds an entry to a barrier. -/
  | bari (f : R3)
  /-- BARI_CLR (R259). Removes every entry of a barrier and clears REDUCED. -/
  | bariClr (f : R2)
  /-- BAR (R260). Releases, arrives at a barrier, waits for its phase and acquires. -/
  | bar (f : R2)
  /-- MCMD (R184). Appends a matrix command record to the core's ring without waiting. -/
  | mcmd (f : R3)
  /-- MRING_CFG (R183). Waits for the ring to drain and configures its base and size. -/
  | mringCfg (f : R2)
  /-- MRING_POST (R183). Releases ring bytes stored by ordinary stores and advances WR. -/
  | mringPost (f : R2)
  /-- MRING_STAT (R183). Returns a snapshot of the ring's RD and WR. -/
  | mringStat (rd : BitVec 5)
  /-- KLD (R320). Fills the constant bank from 256 aligned bytes. -/
  | kld (f : R2)
  /-- CPYQ (R212). Claims a Flume queue slot, writes a packet and its tag with a release. -/
  | cpyq (f : R3)
  /-- OWNF (R207). Changes the owner of scratchpad tiles, waiting for the old owner's work. -/
  | ownf (f : R3) (owner : BitVec 2)
  /-- OWNF_AUTO (R207). Gives tiles to Flume and marks them to return to the thread with the next packet's stamp; any
  other owner is a malformed operand. -/
  | ownfAuto (f : R3) (owner : BitVec 2)
  /-- STCFG (R171). Waits for users of a stream register and installs a stream descriptor. -/
  | stcfg (f : R2) (n : BitVec 4)
  /-- CBCFG (R165). Waits for users of a circular buffer and installs its descriptor. -/
  | cbcfg (f : R2) (n : BitVec 4)
  /-- MWAIT (R228). Waits until a word differs from a value, then acquires at system scope. -/
  | mwait (f : R3)
  /-- FENCE (R255). Waits for the queues, then releases and acquires at a scope. -/
  | fence (scope : BitVec 3)
  /-- LFENCE (R256). Orders accesses of the before-set domains before those of the after-set. -/
  | lfence (before after : BitVec 4)
  /-- ISYNC (R125). Discards fetched-ahead parcels and loop buffers. -/
  | isync
  /-- TOKSEND (R67). Releases and sends a token to a channel of a virtual die. -/
  | toksend (f : R3)
  /-- TOKWAIT (R68). Waits for and takes the oldest token of an own-die channel, merging its stamp and acquiring. -/
  | tokwait (f : R2)
  /-- TIMER (R74). Reads the die's GTIME. -/
  | timer (rd : BitVec 5)
  /-- TIMEWAIT (R75). Waits until the die's GTIME reaches a value. -/
  | timewait (f : R2)
  /-- VDIE (R267). Returns the physical die bound to a virtual die. -/
  | vdie (f : R2)
  /-- HOPS (R268). Returns the Bamril link count between two virtual dies. -/
  | hops (f : R3)
  /-- HOPS_MD (R268). Returns the link count from a virtual die to a memory die. -/
  | hopsMd (f : R3)
  /-- LAUNCH (R46). Claims a launch queue slot or nest slot and places a child packet. -/
  | launch (f : R3)
  /-- CWAIT (R49). Waits for a child's stamp, lending the child its cores if parked. -/
  | cwait (f : R2)
  /-- TASKEND (R41). Waits for the step's queues, commands and packets, releases and reports the step complete. -/
  | taskend
  /-- YIELD (R43). Kill point and full safe point where pending pre-emption takes effect. -/
  | yield
  /-- SCOPENEW (R57). Creates a child scope at the tree's home. -/
  | scopenew (f : R2)
  /-- CANCEL (R58). Releases and asks the home to cancel a scope's subtree, returning a ticket. -/
  | cancel (f : R2)
  /-- SCOPEWAIT (R63). Waits until a ticket's cancellation is DONE, then acquires. -/
  | scopewait (f : R2)
  /-- SAFEPT (R296). Safe point that saves the strand when pre-emption or lending is pending. -/
  | safept (n : BitVec 8)
  /-- TRAP (R293). Enters the handler with cause TRAP and a code in TVAL. -/
  | trap (n : BitVec 8)
  /-- TRET (R294). Returns from a handler, applying QFSTAT.ACT and the resume rules. -/
  | tret
  /-- BANKSYNC (R203). Applies the pending bank roles. -/
  | banksync (rd : BitVec 5)
  /-- TQRY (R200). Translates an address without access and returns the page description. -/
  | tqry (f : R2)
  /-- BLK (R85). Block header starting a block of RPT + 1 passes, each at a kill point. -/
  | blk (len : BitVec 10) (rpt : BitVec 11)
  /-- OPR (R34). Sequencer record that enters an operator into the scoreboard. -/
  | opr (r : OprRec)
  /-- XFER (R233). Sequencer record that asks the Weir to place a tensor in a tier. -/
  | xfer (prio : BitVec 5) (tier : BitVec 3) (scope : BitVec 16) (h : BitVec 32)
  /-- IFC (R34). Sequencer record that waits on KEEP, reads a condition word and branches. -/
  | ifc (off : BitVec 32) (cwi : BitVec 16) (keep : BitVec 8)
  /-- WHL (R353). Sequencer record that waits, reads a condition word and updates the while stack. -/
  | whl (off : BitVec 32) (cwi : BitVec 16) (keep : BitVec 8) (bound : BitVec 32)
  /-- JMP (R34). Sequencer record that continues the walk at an offset. -/
  | jmp (off : BitVec 32)
  /-- SYNC (R34). Sequencer record that waits as KEEP states. -/
  | sync (keep : BitVec 8)
  /-- TNEW (R232). Sequencer record that creates a tensor record from a descriptor at the home shard. -/
  | tnew (h : BitVec 32) (desc : Word)
  /-- TDEL (R232). Sequencer record that deletes a tensor record once unused. -/
  | tdel (h : BitVec 32)
  /-- TPIN (R232). Sequencer record that sets or clears a tensor's pin bit. -/
  | tpin (h : BitVec 32) (pin : Bool)
  /-- SIGH (R34). Sequencer record that waits and posts a value to the context's event queue. -/
  | sigh (keep : BitVec 8) (value : Word)
  /-- CNCL (R312). Sequencer record that cancels a scope, optionally waiting for DONE. -/
  | cncl (scope : BitVec 16) (wait : Bool)
  /-- END (R34). Sequencer record that stops the walk. -/
  | seqEnd
  /-- MZERO (R192). Matrix command clearing an accumulator tile. -/
  | mzero (m : MCmd)
  /-- MMA (R191). Matrix command accumulating A x B into a tile in fixed chunk order. -/
  | mma (m : MCmd)
  /-- MCONV (R193). Matrix command accumulating an unfolded convolution into a tile. -/
  | mconv (m : MCmd)
  /-- MOUT (R192). Matrix command writing a tile to a stream, converted. -/
  | mout (m : MCmd)
  /-- MACC (R192). Matrix command loading a tile from a stream, widened. -/
  | macc (m : MCmd)
  /-- FLCOPY (R215). Flume packet taken by an engine that copies source to destination. -/
  | flcopy (p : FPkt)
  /-- FLFILL (R215). Flume packet that fills the destination with a pattern. -/
  | flfill (p : FPkt)
  /-- FLRED (R215). Flume packet that combines source elements into the destination. -/
  | flred (p : FPkt)
  /-- FLSTMP (R116). Flume packet that stamps after every earlier packet of its queue. -/
  | flstmp (p : FPkt)
  /-- FLCOLL (R216). Flume packet that joins a collective operation. -/
  | flcoll (p : FPkt)
  /-- PACKET_UNIT_DONE (R214). A packet finishes a 4 KiB unit and tests its kill point. -/
  | packetUnitDone (q : Nat)
  /-- PACKET_COMPLETE (R214). Engine writes the byte count and the stamp after all writes of a packet. -/
  | packetComplete (q : Nat)
  /-- NOT_BEFORE_EXPIRY (R76). A packet held by its not-before time starts when GTIME reaches it. -/
  | notBeforeExpiry (q : Nat)
  /-- CB_SLOT_DELIVER (R168). A DC packet writes one circular-buffer slot once FREE is at least 1. -/
  | cbSlotDeliver (q : Nat)
  /-- COLLECTIVE_FORM (R217). When every matched FLCOLL is taken, the engines form and write the result. -/
  | collectiveForm (q : Nat)
  /-- LAUNCH_PACKET_TAKE (R28). Sequencer takes a launch packet from a queue head and checks it. -/
  | launchPacketTake (q : Nat)
  /-- GANG_BIND (R30). A die binds its whole share of a launch's rectangle once all its cores are unbound. -/
  | gangBind (l die : Nat)
  /-- KEEP_WAIT_END (R357). A walker KEEP wait ends when the covered operators complete. -/
  | keepWaitEnd (l : Nat)
  /-- OPERATOR_ISSUE (R34). A scoreboard operator issues when its inputs and dependencies allow. -/
  | operatorIssue (op : Nat)
  /-- OPERATOR_COMPLETE (R34). An operator completes when all its steps have completed. -/
  | operatorComplete (op : Nat)
  /-- XFER_COMPLETE (R233). An XFER completes when its tensor is in the named tier. -/
  | xferComplete (op : Nat)
  /-- LAUNCH_COMPLETE (R34). After END and the last operator, cores are unbound and the stamp written. -/
  | launchComplete (l : Nat)
  /-- STEP_DISPATCH (R44). A die's sequencer dispatches the best ready step to a free core. -/
  | stepDispatch (core : Nat)
  /-- FIT_TIMEOUT (R44). A step ready for 256 µs counts as fitting its core. -/
  | fitTimeout (op n : Nat)
  /-- PASSOVER_RAISE (R44). Every 64 pass-overs raise a step's effective priority by one. -/
  | passoverRaise (op n : Nat)
  /-- PREEMPT_REQUEST (R45). A blocked higher-priority head launch makes the sequencer pre-empt lower launches. -/
  | preemptRequest (q : Nat)
  /-- PREEMPT_FALLBACK (R299). After 256 µs without stopping, pre-emption falls back to the tile-step boundary. -/
  | preemptFallback (core : Nat)
  /-- LEND_RETURN (R49). When a lent child completes, the parent's suspended steps resume. -/
  | lendReturn (l : Nat)
  /-- CANCEL_MARK (R58). The home marks a scope and its live subtree CANCELLING and returns a ticket. -/
  | cancelMark (home : Nat)
  /-- CANCEL_TOKEN (R59). A die receives a cancel token and applies the fates to its work. -/
  | cancelToken (die : Nat) (ticket : Word)
  /-- CANCEL_ACK (R59). A die acknowledges once no work of the subtree remains on it. -/
  | cancelAck (die : Nat) (ticket : Word)
  /-- CANCEL_DONE (R62). The last acknowledgement moves the scopes to DONE and writes the cancellation record. -/
  | cancelDone (ticket : Word)
  /-- TOKEN_DELIVER (R66). A token arrives in a channel's FIFO, waking a waiting TOKWAIT. -/
  | tokenDeliver (i : Nat)
  /-- TIMEWAIT_EXPIRY (R75). A waiting TIMEWAIT ends when GTIME reaches its time. -/
  | timewaitExpiry (core : Nat)
  /-- MWAIT_POLL (R325). A HOST-U monitored word is re-read every 1 µs of GTIME. -/
  | mwaitPoll (core : Nat)
  /-- MWAIT_WAKE (R325). A write performed at a monitored word re-reads it and may end MWAIT. -/
  | mwaitWake (core : Nat)
  /-- GTIME_EXCHANGE (R69). Every 1 ms a die exchanges timestamps with the grandmaster and slews its rate. -/
  | gtimeExchange (die : Nat) (est : Int)
  /-- SYNC_ERR_TICK (R72). Each ms without a good exchange adds 1 ns to ERR. -/
  | syncErrTick (die : Nat)
  /-- TIME_RECORD_WRITE (R73). Every 1 ms the management core writes the GTIME and PTM time record. -/
  | timeRecordWrite (port : Port) (ptm : Word)
  /-- HEADROOM_REFRESH (R16). Every 10 µs a core's HEADROOM snapshot is refreshed. -/
  | headroomRefresh (core draw fmax : Nat)
  /-- SENSOR_SAMPLE (R19). Every 1 ms the management logic samples each temperature sensor and tests failure. -/
  | sensorSample (die : Nat) (temps : List Int) (powers : List Nat)
  /-- CLOCK_CHANGE (R14). A block's loop starts changing its clock without stopping it. -/
  | clockChange (b : Block) (x : ClockSet)
  /-- CLOCK_CHANGE_DONE (R14). A clock change completes within 2 µs. -/
  | clockChangeDone (b : Block)
  /-- LEASE_GRANT (R188). With no lease held, the array grants the eligible core with the lowest charge. -/
  | leaseGrant (die arr : Nat)
  /-- LEASE_CHARGE_HALVE (R187). At each multiple of 16,000 ns every lease charge is shifted right by one. -/
  | leaseChargeHalve (die arr : Nat)
  /-- MATRIX_COMMAND_COMPLETE (R189). A matrix command finishes writing and raises its semaphore. -/
  | matrixCommandComplete (die arr : Nat)
  /-- LOADBLOCK_FILL_DONE (R209). A load-block's lines are all in place and its semaphore is raised. -/
  | loadblockFillDone (core i : Nat)
  /-- FAULT_RECORD_POST (R282). A die posts a replayable-fault record once the fault queue has room. -/
  | faultRecordPost (die : Nat)
  /-- VERDICT_RETRY (R283). Host verdict that makes the parked agent translate again. -/
  | verdictRetry (port : Port) (ctx : Nat) (fid : BitVec 32)
  /-- VERDICT_UNRESOLVABLE (R283). Host verdict that turns the fault into a protection fault. -/
  | verdictUnresolvable (port : Port) (ctx : Nat) (fid : BitVec 32)
  /-- INVAL (R227). Host write requesting invalidation of a translation on the dies that hold it. -/
  | inval (ctx : Nat) (val : Word)
  /-- INVALIDATION_ACK (R227). When all dies have dropped the entry and old accesses performed, INVDONE advances. -/
  | invalidationAck (ctx : Nat)
  /-- RECIPE_FRAME_PUSH (R241). The shard allocates storage, creates a recipe scope and pushes a frame when one is free. -/
  | recipeFramePush (r : Nat)
  /-- FRAME_COMPLETE (R241). When a frame's operators complete, the tensor takes its state and the frame pops. -/
  | frameComplete (f : Nat)
  /-- REQUESTER_RELEASE (R241). A service token releases each waiting requester of a rebuilt tensor. -/
  | requesterRelease (r : Nat)
  /-- VICTIM_MOVE_COMPLETE (R234). A data-carrying state move completes and the record shows the new state. -/
  | victimMoveComplete (t : Nat)
  /-- TENSOR_PROBE (R358). Once its writers complete, the shard probes a tensor and sets CR. -/
  | tensorProbe (t : Nat)
  /-- MGMT_SEM_ACQUIRE (R279). A HOLD write of 1 acquires the management semaphore if free. -/
  | mgmtSemAcquire (port : Port)
  /-- MGMT_SEM_RELEASE (R279). A HOLD write of 0 by the owner releases the semaphore. -/
  | mgmtSemRelease (port : Port)
  /-- CTXCMD_CREATE (R280). Creates a context with a VDMAP and home port. -/
  | ctxcmdCreate (port : Port) (ctx : Nat) (home : Port) (vdmap : BitVec 32)
  /-- CTXCMD_DESTROY (R280). Destroys a context by cancelling its roots, waiting and freeing its resources. -/
  | ctxcmdDestroy (port : Port) (ctx : Nat)
  /-- CTXCMD_SET_VDMAP (R280). Sets a context's virtual-die table, refused while busy. -/
  | ctxcmdSetVdmap (port : Port) (ctx : Nat) (vdmap : BitVec 32)
  /-- CONTEXT_DESTROY_DONE (R280). After its cancellations reach DONE, a context's resources are freed and CTXSTAT cleared. -/
  | contextDestroyDone (ctx : Nat)
  /-- ASSIGN_BARRIER (R280). Assigns a barrier unit to a context. -/
  | assignBarrier (port : Port) (die unit ctx : Nat)
  /-- ASSIGN_TOKEN_CHANNEL (R280). Assigns a token channel to a context. -/
  | assignTokenChannel (port : Port) (die unit ctx : Nat)
  /-- ASSIGN_RELEASE (R280). Releases an assigned barrier or token channel. -/
  | assignRelease (port : Port) (die unit ctx : Nat)
  /-- FWCMD_STAGE (R301). Reads, verifies and writes a firmware image to the idle slot. -/
  | fwcmdStage (port : Port) (img : FwImage)
  /-- FWCMD_ACTIVATE (R301). Marks the staged slot to boot at the next reset. -/
  | fwcmdActivate (port : Port)
  /-- FWCMD_ENTER_MAINT (R301). Enters maintenance state when no context exists. -/
  | fwcmdEnterMaint (port : Port)
  /-- FWCMD_LEAVE_MAINT (R301). Returns the package to READY when no context exists. -/
  | fwcmdLeaveMaint (port : Port)
  /-- SCOPECMD_CREATE_ROOT (R52). Driver creates a root scope homed on a named die. -/
  | scopecmdCreateRoot (ctx home : Nat)
  /-- SCOPECMD_CREATE_CHILD (R52). Driver creates a child of a scope of the context. -/
  | scopecmdCreateChild (ctx : Nat) (parent : BitVec 16)
  /-- SCOPECMD_FREE (R53). Driver frees a scope it created, deferred while CANCELLING. -/
  | scopecmdFree (ctx : Nat) (scope : BitVec 16)
  /-- QCMD_DESTROY (R281). Destroys a launch or Flume queue. -/
  | qcmdDestroy (ctx q : Nat)
  /-- QCMD_CREATE_LAUNCH_QUEUE (R281). Creates a launch queue with a lead die. -/
  | qcmdCreateLaunchQueue (ctx logcap die : Nat)
  /-- QCMD_CREATE_FLUME_QUEUE (R211). Creates a Flume queue with an engine die and retags its slots. -/
  | qcmdCreateFlumeQueue (ctx logcap die : Nat)
  /-- QCMD_RESET (R211). Resets a queue, retagging slots and clearing its indices and state. -/
  | qcmdReset (ctx q : Nat)
  /-- TRH (R281). Host writes a handle so that TRDATA shows its tensor record. -/
  | trh (ctx : Nat) (h : BitVec 32)
  /-- HOST_REGISTER_WRITE (R281). Write to a host-visible register that has no row of its own. -/
  | hostRegisterWrite (port : Port) (reg : HostReg) (val : Word)
  /-- HOST_CXL_MEM_REQUEST (R276). A host request on an HDM-DB line recalls device owners and grants the line. -/
  | hostCxlMemRequest (pa : Nat)
  /-- HOST_ATOMICOP_IO (R277). A host AtomicOp over CXL.io is completed with Unsupported Request. -/
  | hostAtomicopIo (port : Port)
  /-- GET_VERSION (R303). SPDM request answered over DOE. -/
  | getVersion (port : Port)
  /-- GET_CAPABILITIES (R303). SPDM request answered over DOE. -/
  | getCapabilities (port : Port)
  /-- NEGOTIATE_ALGORITHMS (R303). SPDM request answered with ECDSA P-521 and SHA-512. -/
  | negotiateAlgorithms (port : Port) (p521 sha512 : Bool)
  /-- GET_DIGESTS (R303). SPDM request answered over DOE. -/
  | getDigests (port : Port)
  /-- GET_CERTIFICATE (R303). SPDM request answered over DOE. -/
  | getCertificate (port : Port)
  /-- CHALLENGE (R303). SPDM challenge answered over DOE. -/
  | challenge (port : Port) (nonce : Word)
  /-- GET_MEASUREMENTS (R303). SPDM request returning boot ROM, firmware and configuration measurements. -/
  | getMeasurements (port : Port) (index : Nat)
  /-- PACKAGE_RESET (R300). Release of package reset starts the device epoch and start-up. -/
  | packageReset
  /-- PORT_LINK_DOWN (R279). A port losing its link or reset releases the management semaphore. -/
  | portLinkDown (port : Port)
  /-- PORT_TRAIN (R274). A host port trains its CXL link to the highest common rate. -/
  | portTrain (port : Port) (partner : Partner)
  /-- EXPANDER_REMOVAL (R285). A removed or failed expander makes accesses to its range fault. -/
  | expanderRemoval (port : Port)
  /-- ECC_CORRECTED (R304). A corrected error is written back and counted. -/
  | eccCorrected (die : Nat)
  /-- ECC_UNCORRECTABLE (R304). An uncorrectable error poisons the data and is counted. -/
  | eccUncorrectable (die key : Nat)
  /-- HBM_SCRUB (R304). Memory dies scrub their HBM once per 24 h of GTIME. -/
  | hbmScrub (die : Nat)
  /-- START_UP_READY (R300). Once the links are trained, every die has locked GTIME and ports A and B are up, every die leaves maintenance state and DEVSTAT becomes READY; the rollback counter is raised for a first boot of an activated image. -/
  | startUpReady
  /-- CXL_IO_COMPLETION (R273). A completion from the host returns for an outstanding HOST-U read or AMO, or the host refuses a HOST-U write, performing the access or giving PAGEFAULT. -/
  | cxlIoCompletion (port : Port) (who : HostReq) (ok : Bool)
  /-- BIRSP (R276). The host answers a BISnp and returns a line held in H with any dirty data, so that the line becomes D and the waiting device access proceeds. -/
  | birsp (line : Nat) (dirty : Option (List (BitVec 8)))
  /-- CXL_CACHE_SNOOP (R325). The host snoops or takes a HOST-C line from a die's cache over CXL.cache, which re-reads a monitored word and may end an MWAIT. -/
  | cxlCacheSnoop (core line : Nat)
  deriving DecidableEq, Repr

end Sys2Proof
end

