-- ==== Sys2Proof/Machine/Roles.lean ====
section
/-! DEFINITION. The roles of the V3 fields, the queue and the predication of every vector instruction
(Tables 5-6 and 5-7, R108-R110), and the checks of the encoding alone. -/
namespace Sys2Proof.Machine
open Sys2Proof

/-- The three vector queues of a core (R78). -/
inductive VQ where
  | vl | va | vs
  deriving DecidableEq, Repr

/-- The roles of R108; `num lo hi`, `cvt`, `red`, `qnt` are the N roles with their assigned sets. -/
inductive Role where
  | v | vw | vrw | p | pw | s | sw | k | num (lo hi : Nat) | cvt | red | qnt | zero
  deriving DecidableEq, Repr

/-- One row of Table 5-6 or 5-7. -/
structure VSpec where
  queue : VQ
  a : Role
  b : Role
  c : Role
  ps : Bool
  deriving DecidableEq, Repr

/-- The values a role accepts (R108, Table 4-4; VCVT R339, VRED and VSCAN R156, VQNT R348). -/
def Role.ok (q : VQ) (r : Role) (x : BitVec 6) : Bool :=
  let n := x.toNat
  match r with
  | .v => decide (n ≤ 55) || (decide (n = 56) && decide (q = .va)) || decide (n = 57) || decide (n = 58)
  | .vw => decide (n ≤ 57)
  | .vrw => decide (n ≤ 55) || (decide (n = 56) && decide (q = .va)) || decide (n = 57)
  | .p | .pw => decide (n ≤ 23)
  | .s | .sw => decide (n ≤ 31)
  | .k => true
  | .num lo hi => decide (lo ≤ n) && decide (n ≤ hi)
  | .cvt => decide (n % 16 ≤ 9) && decide (n / 16 ≤ 3)
  | .red => decide (n / 8 ≤ 5)
  | .qnt => decide (n / 16 ≤ 2) && (decide (n / 16 ≠ 0) || decide (n % 16 = 0))
  | .zero => decide (n = 0)

/-- Token bits on an edge that does not exist are refused (R82). -/
def tokOk (q : VQ) (tok : BitVec 4) : Bool :=
  match q with
  | .vl => !tok.getLsbD 2 && !tok.getLsbD 0
  | .va => true
  | .vs => !tok.getLsbD 3 && !tok.getLsbD 1

/-- Whether a field is a vector source holding 58 (R100): the instruction then has a literal word. -/
def Role.lit (r : Role) (x : BitVec 6) : Bool := decide (r = .v) && decide (x = 58#6)

def VSpec.needsLit (t : VSpec) (f : V3) : Bool := t.a.lit f.a || t.b.lit f.b || t.c.lit f.c

/-- The encoding checks of a V3 instruction (R82, R108); without a literal the literal word is 0. -/
def VSpec.ok (t : VSpec) (f : V3) : Bool :=
  t.a.ok t.queue f.a && t.b.ok t.queue f.b && t.c.ok t.queue f.c && tokOk t.queue f.tok &&
    (t.ps || decide (f.ps = 0#2)) && (t.needsLit f || decide (f.lit = 0#32))

def specVadd : VSpec := { queue := .va, a := .vw, b := .v, c := .v, ps := true }
def specVsub : VSpec := { queue := .va, a := .vw, b := .v, c := .v, ps := true }
def specVmul : VSpec := { queue := .va, a := .vw, b := .v, c := .v, ps := true }
def specVmad : VSpec := { queue := .va, a := .vrw, b := .v, c := .v, ps := true }
def specVfma : VSpec := { queue := .va, a := .vrw, b := .v, c := .v, ps := true }
def specVmadk : VSpec := { queue := .va, a := .vrw, b := .v, c := .k, ps := true }
def specVmads : VSpec := { queue := .va, a := .vrw, b := .v, c := .s, ps := true }
def specVadds : VSpec := { queue := .va, a := .vw, b := .v, c := .s, ps := true }
def specVmuls : VSpec := { queue := .va, a := .vw, b := .v, c := .s, ps := true }
def specVmin : VSpec := { queue := .va, a := .vw, b := .v, c := .v, ps := true }
def specVmax : VSpec := { queue := .va, a := .vw, b := .v, c := .v, ps := true }
def specVand : VSpec := { queue := .va, a := .vw, b := .v, c := .v, ps := true }
def specVor : VSpec := { queue := .va, a := .vw, b := .v, c := .v, ps := true }
def specVxor : VSpec := { queue := .va, a := .vw, b := .v, c := .v, ps := true }
def specVshl : VSpec := { queue := .va, a := .vw, b := .v, c := .v, ps := true }
def specVshr : VSpec := { queue := .va, a := .vw, b := .v, c := .v, ps := true }
def specVfsh : VSpec := { queue := .va, a := .vrw, b := .v, c := .v, ps := true }
def specVceq : VSpec := { queue := .va, a := .pw, b := .v, c := .v, ps := true }
def specVclt : VSpec := { queue := .va, a := .pw, b := .v, c := .v, ps := true }
def specVcle : VSpec := { queue := .va, a := .pw, b := .v, c := .v, ps := true }
def specVsel : VSpec := { queue := .va, a := .vw, b := .v, c := .v, ps := true }
def specVcvt : VSpec := { queue := .va, a := .vw, b := .v, c := .cvt, ps := true }
def specVred : VSpec := { queue := .va, a := .vw, b := .v, c := .red, ps := true }
def specVscan : VSpec := { queue := .va, a := .vw, b := .v, c := .red, ps := true }
def specVperm : VSpec := { queue := .va, a := .vw, b := .v, c := .v, ps := true }
def specVslide : VSpec := { queue := .va, a := .vw, b := .v, c := .num 0 63, ps := true }
def specVsfu : VSpec := { queue := .va, a := .vw, b := .v, c := .num 0 3, ps := true }
def specVbits : VSpec := { queue := .va, a := .vw, b := .v, c := .num 0 3, ps := true }
def specVcbx : VSpec := { queue := .va, a := .vw, b := .v, c := .num 0 1, ps := true }
def specVqnt : VSpec := { queue := .va, a := .vw, b := .v, c := .qnt, ps := true }
def specVmov : VSpec := { queue := .va, a := .vw, b := .v, c := .zero, ps := true }
def specVun : VSpec := { queue := .va, a := .vw, b := .v, c := .num 0 2, ps := true }
def specVld : VSpec := { queue := .vl, a := .vw, b := .s, c := .num 0 63, ps := true }
def specVst : VSpec := { queue := .vs, a := .v, b := .s, c := .num 0 63, ps := true }
def specVlds : VSpec := { queue := .vl, a := .vw, b := .s, c := .num 0 63, ps := true }
def specVstm : VSpec := { queue := .vs, a := .v, b := .s, c := .p, ps := false }
def specVldx : VSpec := { queue := .vl, a := .vw, b := .s, c := .v, ps := true }
def specVstx : VSpec := { queue := .vs, a := .v, b := .s, c := .v, ps := true }
def specVldc : VSpec := { queue := .vl, a := .vw, b := .num 0 15, c := .num 1 63, ps := true }
def specVstc : VSpec := { queue := .vs, a := .v, b := .num 0 15, c := .num 1 63, ps := true }
def specCbadvRptr : VSpec := { queue := .vl, a := .num 0 15, b := .num 1 63, c := .num 0 0, ps := false }
def specCbadvWptr : VSpec := { queue := .vs, a := .num 0 15, b := .num 1 63, c := .num 1 1, ps := false }
def specSpush : VSpec := { queue := .vs, a := .num 0 7, b := .v, c := .zero, ps := true }
def specSpop : VSpec := { queue := .vl, a := .vw, b := .num 0 7, c := .pw, ps := false }
def specSbal : VSpec := { queue := .va, a := .num 0 7, b := .zero, c := .zero, ps := false }
def specPset : VSpec := { queue := .va, a := .pw, b := .num 0 2, c := .s, ps := false }
def specPand : VSpec := { queue := .va, a := .pw, b := .p, c := .p, ps := false }
def specPor : VSpec := { queue := .va, a := .pw, b := .p, c := .p, ps := false }
def specPxor : VSpec := { queue := .va, a := .pw, b := .p, c := .p, ps := false }
def specPnot : VSpec := { queue := .va, a := .pw, b := .p, c := .zero, ps := false }
def specPcnt : VSpec := { queue := .va, a := .sw, b := .p, c := .zero, ps := false }
def specVbcast : VSpec := { queue := .va, a := .vw, b := .s, c := .zero, ps := true }
def specVextr : VSpec := { queue := .va, a := .sw, b := .v, c := .s, ps := false }
def specVins : VSpec := { queue := .va, a := .vrw, b := .s, c := .s, ps := false }
def specVpark : VSpec := { queue := .va, a := .zero, b := .v, c := .zero, ps := false }
def specVunpark : VSpec := { queue := .va, a := .vw, b := .zero, c := .zero, ps := false }
def specVldb : VSpec := { queue := .vl, a := .num 0 31, b := .s, c := .num 0 63, ps := false }
def specVldst : VSpec := { queue := .vl, a := .vw, b := .num 0 15, c := .zero, ps := true }
def specVstst : VSpec := { queue := .vs, a := .v, b := .num 0 15, c := .zero, ps := true }

/-- The fields and the row of a vector instruction. -/
def vspec : Instr → Option (VSpec × V3)
  | .vadd f => some (specVadd, f)
  | .vsub f => some (specVsub, f)
  | .vmul f => some (specVmul, f)
  | .vmad f => some (specVmad, f)
  | .vfma f => some (specVfma, f)
  | .vmadk f => some (specVmadk, f)
  | .vmads f => some (specVmads, f)
  | .vadds f => some (specVadds, f)
  | .vmuls f => some (specVmuls, f)
  | .vmin f => some (specVmin, f)
  | .vmax f => some (specVmax, f)
  | .vand f => some (specVand, f)
  | .vor f => some (specVor, f)
  | .vxor f => some (specVxor, f)
  | .vshl f => some (specVshl, f)
  | .vshr f => some (specVshr, f)
  | .vfsh f => some (specVfsh, f)
  | .vceq f => some (specVceq, f)
  | .vclt f => some (specVclt, f)
  | .vcle f => some (specVcle, f)
  | .vsel f => some (specVsel, f)
  | .vcvt f => some (specVcvt, f)
  | .vred f => some (specVred, f)
  | .vscan f => some (specVscan, f)
  | .vperm f => some (specVperm, f)
  | .vslide f => some (specVslide, f)
  | .vsfu f => some (specVsfu, f)
  | .vbits f => some (specVbits, f)
  | .vcbx f => some (specVcbx, f)
  | .vqnt f => some (specVqnt, f)
  | .vmov f => some (specVmov, f)
  | .vun f => some (specVun, f)
  | .vld f => some (specVld, f)
  | .vst f => some (specVst, f)
  | .vlds f => some (specVlds, f)
  | .vstm f => some (specVstm, f)
  | .vldx f => some (specVldx, f)
  | .vstx f => some (specVstx, f)
  | .vldc f => some (specVldc, f)
  | .vstc f => some (specVstc, f)
  | .cbadvRptr f => some (specCbadvRptr, f)
  | .cbadvWptr f => some (specCbadvWptr, f)
  | .spush f => some (specSpush, f)
  | .spop f => some (specSpop, f)
  | .sbal f => some (specSbal, f)
  | .pset f => some (specPset, f)
  | .pand f => some (specPand, f)
  | .por f => some (specPor, f)
  | .pxor f => some (specPxor, f)
  | .pnot f => some (specPnot, f)
  | .pcnt f => some (specPcnt, f)
  | .vbcast f => some (specVbcast, f)
  | .vextr f => some (specVextr, f)
  | .vins f => some (specVins, f)
  | .vpark f => some (specVpark, f)
  | .vunpark f => some (specVunpark, f)
  | .vldb f => some (specVldb, f)
  | .vldst f => some (specVldst, f)
  | .vstst f => some (specVstst, f)
  | _ => none

end Sys2Proof.Machine
end

