-- ==== Sys2Proof/WellFormed.lean ====
section
/-! DEFINITION. When an instruction is one the encoding tables assign: every value that raises ILLEGAL from the
encoding alone (05_encoding.md) is refused here. -/
namespace Sys2Proof

/-- The fields a matrix command does not use are zero, and K is not zero where it is used (R114). -/
def MCmd.convZero (m : MCmd) : Bool :=
  decide (m.koff = 0) && decide (m.pl = 0) && decide (m.pt = 0) && decide (m.dw = 0) && decide (m.dh = 0) &&
    decide (m.sw = 0) && decide (m.sh = 0) && decide (m.row0 = 0)

def MCmd.kOk (m : MCmd) : Bool := decide (m.k ≠ 0) && decide (m.k.toNat ≤ 4096)

/-- An FLRED or FLCOLL element type: not reserved, not GQ4 (R116). -/
def packetEtOk (x : Nat) : Bool := decide (x ≤ 9)

/-- Field rules of a packet that do not depend on the state (R116, R216). -/
def FPkt.lenOk (p : FPkt) : Bool :=
  if p.lp then decide (p.len.toNat % 64 = 0) else decide (1 ≤ p.len.toNat) && decide (p.len.toNat ≤ 2 ^ 40)

def FPkt.handleOk (p : FPkt) : Bool :=
  (!p.sh || (p.lp && decide (p.src.toNat < 2 ^ 32))) && (!p.dh || (p.lp && decide (p.dst.toNat < 2 ^ 32)))

def FPkt.auxDc (p : FPkt) : Bool := if p.dc then decide (p.aux.toNat < 16) else decide (p.aux = 0)

/-- The element width of a packet's element type. -/
def packetWidth (x : Nat) : Nat :=
  if x = 0 ∨ x = 1 ∨ x = 6 then 1 else if x = 4 ∨ x = 5 ∨ x = 9 then 4 else 2

def FPkt.collOk (p : FPkt) : Bool :=
  let a := p.aux.toNat
  let op := a % 16
  let et := (a / 16) % 16
  let n := (a / 2 ^ 16) % 1024
  let root := (a / 2 ^ 26) % 512
  decide (a < 2 ^ 35) && !p.sh && !p.dh && !p.dc && !p.lp && decide (op ≤ 7) &&
    (if op ≤ 5 then packetEtOk et else decide (et = 0)) && decide (1 ≤ n) && decide (n ≤ 512) &&
    (if op = 7 then decide (root < n) else decide (root = 0)) &&
    decide (1 ≤ p.len.toNat) && decide (p.len.toNat ≤ 2 ^ 21) &&
    (decide (5 < op) || decide (p.len.toNat % packetWidth et = 0))

/-- The encoding checks, instruction by instruction. FLFILL and FLRED may have DC set: Table 5-12 marks DC 0 for FLSTMP and FLCOLL only
(R168; DEDUCED, log entry 67). -/
def Instr.wf : Instr → Bool
  | .bp p t _ => decide (p.toNat ≤ 23) && decide (t.toNat ≤ 2)
  | .chkd cls n _ =>
    (decide (cls = 0) && decide (n.toNat ≤ 31)) || (decide (cls = 1) && decide (n.toNat ≤ 56)) ||
      (decide (cls = 2) && decide (n.toNat ≤ 23))
  | .fence sc => decide (sc.toNat ≤ 4)
  | .blk len _ => decide (2 ≤ len.toNat)
  | .lfence b a => decide (b ≠ 0) && decide (a ≠ 0)
  | .mzero m =>
    m.convZero && decide (m.sta = 0) && decide (m.stb = 0) && decide (m.k = 0) && decide (m.nm1 = 0) &&
      decide (m.mm1 = 0)
  | .mma m => m.convZero && m.kOk
  | .mconv m => m.kOk
  | .mout m => m.convZero && decide (m.stb = 0) && decide (m.k = 0)
  | .macc m => m.convZero && decide (m.stb = 0) && decide (m.k = 0)
  | .flcopy p => p.lenOk && p.handleOk && p.auxDc
  | .flfill p => p.lenOk && p.handleOk && !p.sh && decide (p.src = 0)
  | .flred p =>
    p.lenOk && p.handleOk && decide (p.aux.toNat < 256) && decide (p.aux.toNat % 16 ≤ 5) &&
      packetEtOk (p.aux.toNat / 16)
  | .flstmp p =>
    !p.dc && !p.lp && !p.dh && !p.sh && decide (p.src = 0) && decide (p.dst = 0) && decide (p.len = 0) &&
      decide (p.aux = 0)
  | .flcoll p => p.collOk
  | i =>
    match Machine.vspec i with
    | some (t, f) => t.ok f
    | none => true

/-- An instruction the encoding tables assign. -/
def Instr.WellFormed (i : Instr) : Prop := i.wf = true

end Sys2Proof
end

