-- ==== Sys2Proof/Decode.lean ====
section
/-! DEFINITION. Decoding and encoding (05_encoding.md, Tables 5-1 to 5-12, Table 2-3): Tollum words with their
literal word, sequencer records, matrix command records and Flume packets. -/
namespace Sys2Proof
open Sys2Proof.Machine

/-- Bits hi..lo of a word, by position and length. -/
def fld {w : Nat} (x : BitVec w) (lo n : Nat) : BitVec n := x.extractLsb' lo n

def wR3 (w : BitVec 32) : R3 := { rd := fld w 19 5, ra := fld w 14 5, rb := fld w 9 5 }
def wR2 (w : BitVec 32) : R2 := { rd := fld w 19 5, ra := fld w 14 5 }
def wRI (w : BitVec 32) : RI := { rd := fld w 19 5, ra := fld w 14 5, imm := fld w 1 13 }
def wRB (w : BitVec 32) : RB := { ra := fld w 19 5, rb := fld w 14 5, off := fld w 1 13 }

/-- The V3 fields (Table 5-1), with a given literal word. -/
def wV3 (w lit : BitVec 32) : V3 :=
  { tok := fld w 21 4, a := fld w 15 6, b := fld w 9 6, c := fld w 3 6, ps := fld w 1 2, lit := lit }

/-- Formats of Table 5-1, as the encoder writes them. -/
def encSR (op : BitVec 6) (rd ra rb : BitVec 5) (fn : BitVec 8) : BitVec 32 :=
  0#2 ++ op ++ rd ++ ra ++ rb ++ fn ++ 1#1
def encXR (op : BitVec 6) (rd ra rb : BitVec 5) (fn : BitVec 8) : BitVec 32 :=
  3#2 ++ op ++ rd ++ ra ++ rb ++ fn ++ 1#1
def encSI (op : BitVec 6) (rd ra : BitVec 5) (imm : BitVec 13) : BitVec 32 :=
  0#2 ++ op ++ rd ++ ra ++ imm ++ 1#1
def encSU (op : BitVec 4) (rd : BitVec 5) (imm : BitVec 20) : BitVec 32 :=
  0#2 ++ op ++ rd ++ imm ++ 1#1
def encSJ (link : BitVec 1) (off : BitVec 20) : BitVec 32 := 0#2 ++ 0x26#6 ++ link ++ 0#2 ++ off ++ 1#1
def encV3 (cls : BitVec 2) (op : BitVec 5) (f : V3) : BitVec 32 :=
  cls ++ op ++ f.tok ++ f.a ++ f.b ++ f.c ++ f.ps ++ 1#1
def encXB (len : BitVec 10) (rpt : BitVec 11) : BitVec 32 := 3#2 ++ 0x3F#6 ++ 0#2 ++ len ++ rpt ++ 1#1
def encS16 (b : BitVec 7) (a : BitVec 5) (op : BitVec 3) : BitVec 32 := 0#16 ++ b ++ a ++ op ++ 0#1

/-- Short forms (Table 5-2); the instruction is the low parcel. -/
def decodeShort (w : BitVec 32) : Option Instr :=
  let a := fld w 4 5
  let b5 := fld w 9 5
  let b7 := fld w 9 7
  let top := fld w 14 2
  match (fld w 1 3).toNat with
  | 0 => if top = 0#2 then some (.cMv a b5) else none
  | 1 => some (.cLi a b7)
  | 2 => some (.cAddi a b7)
  | 3 => if top = 0#2 then some (.cAdd a b5) else none
  | 4 => if top = 0#2 then some (.cSub a b5) else none
  | 5 => if fld w 15 1 = 0#1 then some (.cSlli a (fld w 9 6)) else none
  | 6 => some (.cLdd a b5 top)
  | _ => some (.cStd a b5 top)

/-- The ALU group (Table 5-4). -/
def decodeAlu (w : BitVec 32) : Option Instr :=
  let f := wR3 w
  if fld w 7 2 = 1#2 then some (.fshr f (fld w 1 6))
  else match (fld w 1 8).toNat with
  | 0 => some (.add f)
  | 1 => some (.sub f)
  | 2 => some (.and f)
  | 3 => some (.or f)
  | 4 => some (.xor f)
  | 5 => some (.sll f)
  | 6 => some (.srl f)
  | 7 => some (.sra f)
  | 8 => some (.slt f)
  | 9 => some (.sltu f)
  | 10 => some (.min f)
  | 11 => some (.max f)
  | 12 => some (.minu f)
  | 13 => some (.maxu f)
  | 16 => some (.mul f)
  | 17 => some (.mulh f)
  | 18 => some (.mulhu f)
  | 20 => some (.div f)
  | 21 => some (.divu f)
  | 22 => some (.rem f)
  | 23 => some (.remu f)
  | 32 => if f.rb = 0#5 then some (.clz (wR2 w)) else none
  | 33 => if f.rb = 0#5 then some (.ctz (wR2 w)) else none
  | 34 => if f.rb = 0#5 then some (.popc (wR2 w)) else none
  | _ => none

/-- The FPU group (Table 5-5). -/
def decodeFpu (w : BitVec 32) : Option Instr :=
  let f := wR3 w
  let rm := fld w 7 2
  match (fld w 1 6).toNat with
  | 0 => some (.fadd f rm)
  | 1 => some (.fsub f rm)
  | 2 => some (.fmul f rm)
  | 3 => some (.fdiv f rm)
  | 4 => if f.rb = 0#5 then some (.fsqrt (wR2 w) rm) else none
  | 10 => if f.rb = 0#5 then some (.fcvtws (wR2 w) rm) else none
  | 11 => if f.rb = 0#5 then some (.fcvtus (wR2 w) rm) else none
  | 12 => if f.rb = 0#5 then some (.fcvtsw (wR2 w) rm) else none
  | 13 => if f.rb = 0#5 then some (.fcvtsu (wR2 w) rm) else none
  | 5 => if rm = 0#2 then some (.fmin f) else none
  | 6 => if rm = 0#2 then some (.fmax f) else none
  | 7 => if rm = 0#2 then some (.feq f) else none
  | 8 => if rm = 0#2 then some (.flt f) else none
  | 9 => if rm = 0#2 then some (.fle f) else none
  | 14 => if f.rb = 0#5 ∧ rm = 0#2 then some (.fabs (wR2 w)) else none
  | 15 => if f.rb = 0#5 ∧ rm = 0#2 then some (.fneg (wR2 w)) else none
  | _ => none

/-- The CSR group (R107). -/
def decodeCsr (w : BitVec 32) : Option Instr :=
  let csr := fld w 1 11
  match (fld w 12 2).toNat with
  | 0 => if fld w 14 5 = 0#5 then some (.csrr (fld w 19 5) csr) else none
  | 1 => some (.csrw (wR2 w) csr)
  | 2 => some (.csrs (wR2 w) csr)
  | _ => some (.csrc (wR2 w) csr)

/-- The AMO group (R106). -/
def decodeAmo (w : BitVec 32) : Option Instr :=
  let f := wR3 w
  let order := fld w 7 2
  let dbl := fld w 6 1 = 1#1
  match (fld w 1 5).toNat with
  | 0 => some (.aadd f order dbl)
  | 1 => some (.aswp f order dbl)
  | 2 => some (.acas f order dbl)
  | 3 => some (.aand f order dbl)
  | 4 => some (.aor f order dbl)
  | 5 => some (.axor f order dbl)
  | 6 => some (.amin f order dbl)
  | 7 => some (.amax f order dbl)
  | 8 => some (.aminu f order dbl)
  | 9 => some (.amaxu f order dbl)
  | 10 => if dbl then none else some (.afadd f order)
  | 11 => if f.rb = 0#5 ∧ order = 1#2 then some (.ldaq (wR2 w) dbl) else none
  | 12 => if f.rd = 0#5 ∧ order = 2#2 then some (.strl f.ra f.rb dbl) else none
  | _ => none

/-- Class S (Table 5-3). -/
def decodeS (w : BitVec 32) : Option Instr :=
  match (fld w 24 6).toNat with
  | 0 => decodeAlu w
  | 1 => some (.addi (wRI w))
  | 2 => some (.andi (wRI w))
  | 3 => some (.ori (wRI w))
  | 4 => some (.xori (wRI w))
  | 8 => some (.slti (wRI w))
  | 9 => some (.sltiu (wRI w))
  | 16 => some (.ldb (wRI w))
  | 17 => some (.ldbu (wRI w))
  | 18 => some (.ldh (wRI w))
  | 19 => some (.ldhu (wRI w))
  | 20 => some (.ldw (wRI w))
  | 21 => some (.ldwu (wRI w))
  | 22 => some (.ldd (wRI w))
  | 23 => some (.lds (wRI w))
  | 24 => some (.stb (wRI w))
  | 25 => some (.sth (wRI w))
  | 26 => some (.stw (wRI w))
  | 27 => some (.std (wRI w))
  | 39 => some (.jalr (wRI w))
  | 5 => if fld w 7 7 = 0#7 then some (.slli (wR2 w) (fld w 1 6)) else none
  | 6 => if fld w 7 7 = 0#7 then some (.srli (wR2 w) (fld w 1 6)) else none
  | 7 => if fld w 7 7 = 0#7 then some (.srai (wR2 w) (fld w 1 6)) else none
  | 0x0A => decodeFpu w
  | 0x0B => if fld w 1 6 = 0#6 then some (.fma (wR3 w) (fld w 7 2)) else none
  | 0x0C => decodeCsr w
  | 0x0D => if fld w 6 8 = 0#8 then some (.vmode (wR2 w) (fld w 1 5)) else none
  | 0x1C => decodeAmo w
  | 32 => some (.beq (wRB w))
  | 33 => some (.bne (wRB w))
  | 34 => some (.blt (wRB w))
  | 35 => some (.bge (wRB w))
  | 36 => some (.bltu (wRB w))
  | 37 => some (.bgeu (wRB w))
  | 0x26 => if fld w 21 2 = 0#2 then some (.jal (fld w 23 1 = 1#1) (fld w 1 20)) else none
  | 0x28 => if fld w 14 10 = 0#10 then some (.loopr (fld w 1 13)) else none
  | 0x29 => if fld w 16 3 = 0#3 then some (.bp (fld w 19 5) (fld w 14 2) (fld w 1 13)) else none
  | 0x2A =>
    if fld w 17 2 = 0#2 then some (.chkd (fld w 15 2) (fld w 14 1 ++ fld w 19 5) (fld w 1 13)) else none
  | 56 => some (.liu (fld w 21 5) (fld w 1 20))
  | 57 => some (.liu (fld w 21 5) (fld w 1 20))
  | 58 => some (.liu (fld w 21 5) (fld w 1 20))
  | 59 => some (.liu (fld w 21 5) (fld w 1 20))
  | 60 => some (.fli (fld w 21 5) (fld w 1 20))
  | 61 => some (.fli (fld w 21 5) (fld w 1 20))
  | 62 => some (.fli (fld w 21 5) (fld w 1 20))
  | 63 => some (.fli (fld w 21 5) (fld w 1 20))
  | _ => none

/-- Class VA (Table 5-6): the instruction, given its literal word. -/
def decodeVA (w lit : BitVec 32) : Instr :=
  let f := wV3 w lit
  match (fld w 25 5).toNat with
  | 0 => .vadd f
  | 1 => .vsub f
  | 2 => .vmul f
  | 3 => .vmad f
  | 4 => .vfma f
  | 5 => .vmadk f
  | 6 => .vmads f
  | 7 => .vadds f
  | 8 => .vmuls f
  | 9 => .vmin f
  | 10 => .vmax f
  | 11 => .vand f
  | 12 => .vor f
  | 13 => .vxor f
  | 14 => .vshl f
  | 15 => .vshr f
  | 16 => .vfsh f
  | 17 => .vceq f
  | 18 => .vclt f
  | 19 => .vcle f
  | 20 => .vsel f
  | 21 => .vcvt f
  | 22 => .vred f
  | 23 => .vscan f
  | 24 => .vperm f
  | 25 => .vslide f
  | 26 => .vsfu f
  | 27 => .vbits f
  | 28 => .vcbx f
  | 29 => .vqnt f
  | 30 => .vmov f
  | _ => .vun f

/-- Class VM (Table 5-7). -/
def decodeVM (w lit : BitVec 32) : Option Instr :=
  let f := wV3 w lit
  match (fld w 25 5).toNat with
  | 0 => some (.vld f)
  | 1 => some (.vst f)
  | 2 => some (.vlds f)
  | 3 => some (.vstm f)
  | 4 => some (.vldx f)
  | 5 => some (.vstx f)
  | 6 => some (.vldc f)
  | 7 => some (.vstc f)
  | 8 => if f.c = 0#6 then some (.cbadvRptr f) else some (.cbadvWptr f)
  | 9 => some (.spush f)
  | 10 => some (.spop f)
  | 11 => some (.sbal f)
  | 12 => some (.pset f)
  | 13 => some (.pand f)
  | 14 => some (.por f)
  | 15 => some (.pxor f)
  | 16 => some (.pnot f)
  | 17 => some (.pcnt f)
  | 18 => some (.vbcast f)
  | 19 => some (.vextr f)
  | 20 => some (.vins f)
  | 21 => some (.vpark f)
  | 22 => some (.vunpark f)
  | 23 => some (.vldb f)
  | 24 => some (.vldst f)
  | 25 => some (.vstst f)
  | _ => none

/-- Class X (Table 5-8, and the field rules of the reference entries). -/
def decodeX (w : BitVec 32) : Option Instr :=
  let f := wR3 w
  let g := wR2 w
  let fn := (fld w 1 8).toNat
  match (fld w 24 6).toNat with
  | 0 => if fld w 1 23 = 0#23 then some .nop else none
  | 1 => if fn = 0 ∧ f.rb = 0#5 then some (.semw g) else none
  | 2 => if fn = 0 then some (.sems f) else none
  | 3 => if fn = 0 then some (.bari f) else if fn = 1 ∧ f.rb = 0#5 then some (.bariClr g) else none
  | 4 => if fn = 0 ∧ f.rb = 0#5 then some (.bar g) else none
  | 5 => if fn = 0 then some (.mcmd f) else none
  | 6 => if fn = 0 ∧ f.rb = 0#5 then some (.mringCfg g) else if fn = 1 ∧ f.rb = 0#5 then some (.mringPost g) else if fn = 2 ∧ fld w 9 10 = 0#10 then some (.mringStat f.rd) else none
  | 7 => if fn = 0 ∧ f.rb = 0#5 then some (.kld g) else none
  | 8 => if fn = 0 then some (.cpyq f) else none
  | 12 => if fn = 0 then some (.mwait f) else none
  | 15 => if fld w 1 23 = 0#23 then some .isync else none
  | 16 => if fn = 0 then some (.toksend f) else none
  | 17 => if fn = 0 ∧ f.rb = 0#5 then some (.tokwait g) else none
  | 18 => if fn = 0 ∧ fld w 9 10 = 0#10 then some (.timer f.rd) else none
  | 19 => if fn = 0 ∧ f.rb = 0#5 then some (.timewait g) else none
  | 20 => if fn = 0 ∧ f.rb = 0#5 then some (.vdie g) else none
  | 21 => if fn = 0 then some (.hops f) else if fn = 1 then some (.hopsMd f) else none
  | 22 => if fn = 0 then some (.launch f) else none
  | 23 => if fn = 0 ∧ f.rb = 0#5 then some (.cwait g) else none
  | 24 => if fld w 1 23 = 0#23 then some .taskend else none
  | 25 => if fld w 1 23 = 0#23 then some .yield else none
  | 26 => if fn = 0 ∧ f.rb = 0#5 then some (.scopenew g) else none
  | 27 => if fn = 0 ∧ f.rb = 0#5 then some (.cancel g) else none
  | 28 => if fn = 0 ∧ f.rb = 0#5 then some (.scopewait g) else none
  | 31 => if fld w 1 23 = 0#23 then some .tret else none
  | 32 => if fn = 0 ∧ fld w 9 10 = 0#10 then some (.banksync f.rd) else none
  | 33 => if fn = 0 ∧ f.rb = 0#5 then some (.tqry g) else none
  | 9 =>
    if fld w 3 6 = 0#6 then some (.ownf f (fld w 1 2)) else if fld w 4 5 = 0#5 then some (.ownfAuto f (fld w 1 2)) else none
  | 10 => if f.rb = 0#5 ∧ fld w 5 4 = 0#4 then some (.stcfg g (fld w 1 4)) else none
  | 11 => if f.rb = 0#5 ∧ fld w 5 4 = 0#4 then some (.cbcfg g (fld w 1 4)) else none
  | 13 => if fld w 4 20 = 0#20 then some (.fence (fld w 1 3)) else none
  | 14 => if fld w 9 15 = 0#15 then some (.lfence (fld w 1 4) (fld w 5 4)) else none
  | 29 => if fld w 9 15 = 0#15 then some (.safept (fld w 1 8)) else none
  | 30 => if fld w 9 15 = 0#15 then some (.trap (fld w 1 8)) else none
  | 63 => if fld w 22 2 = 0#2 then some (.blk (fld w 12 10) (fld w 1 11)) else none
  | _ => none

/-- Keeps an instruction the tables assign (R108, R114, R116). -/
def keepWf (i : Instr) : Option Instr := if i.wf then some i else none

/-- A long word and the word after it; the literal is read only where a vector source holds 58 (R100). -/
def decodeLong (w next : BitVec 32) : Option Instr :=
  match (fld w 30 2).toNat with
  | 0 => decodeS w
  | 1 =>
    match vspec (decodeVA w 0#32) with
    | some (t, f) => if t.needsLit f then some (decodeVA w next) else some (decodeVA w 0#32)
    | none => none
  | 2 =>
    match decodeVM w 0#32 with
    | none => none
    | some i =>
      match vspec i with
      | some (t, f) => if t.needsLit f then decodeVM w next else some i
      | none => none
  | _ => decodeX w

/-- A Tollum instruction from its first word and the word after it (R100). -/
def decodeTollum (w next : BitVec 32) : Option Instr :=
  let i? := if fld w 0 1 = 0#1 then decodeShort w else decodeLong w next
  match i? with
  | some i => keepWf i
  | none => none

/-- The length of an instruction in parcels (R100). -/
def Instr.parcels (i : Instr) : Nat :=
  match i with
  | .cMv .. | .cLi .. | .cAddi .. | .cAdd .. | .cSub .. | .cSlli .. | .cLdd .. | .cStd .. => 1
  | _ =>
    match vspec i with
    | some (t, f) => if t.needsLit f then 4 else 2
    | none => 2

/-- The literal word of an instruction, 0 where it has none. -/
def Instr.literal (i : Instr) : BitVec 32 :=
  match vspec i with
  | some (_, f) => f.lit
  | none => 0#32

/-- The length in parcels of the encoding at a word, decodable or not (R100): a V3 word with a vector source
of 58 has its literal. -/
def wordParcels (w : BitVec 32) : Nat :=
  if fld w 0 1 = 0#1 then 1
  else
    let v := match (fld w 30 2).toNat with
      | 1 => vspec (decodeVA w 0#32)
      | 2 => match decodeVM w 0#32 with
        | some i => vspec i
        | none => none
      | _ => none
    match v with
    | some (t, f) => if t.needsLit f then 4 else 2
    | none => 2

/-- The first word of an instruction (Table 5-1); a short form occupies the low half. -/
def encodeTollum : Instr → Option (BitVec 32)
  | .add f => some (encSR 0 f.rd f.ra f.rb 0)
  | .sub f => some (encSR 0 f.rd f.ra f.rb 1)
  | .and f => some (encSR 0 f.rd f.ra f.rb 2)
  | .or f => some (encSR 0 f.rd f.ra f.rb 3)
  | .xor f => some (encSR 0 f.rd f.ra f.rb 4)
  | .sll f => some (encSR 0 f.rd f.ra f.rb 5)
  | .srl f => some (encSR 0 f.rd f.ra f.rb 6)
  | .sra f => some (encSR 0 f.rd f.ra f.rb 7)
  | .slt f => some (encSR 0 f.rd f.ra f.rb 8)
  | .sltu f => some (encSR 0 f.rd f.ra f.rb 9)
  | .min f => some (encSR 0 f.rd f.ra f.rb 10)
  | .max f => some (encSR 0 f.rd f.ra f.rb 11)
  | .minu f => some (encSR 0 f.rd f.ra f.rb 12)
  | .maxu f => some (encSR 0 f.rd f.ra f.rb 13)
  | .mul f => some (encSR 0 f.rd f.ra f.rb 16)
  | .mulh f => some (encSR 0 f.rd f.ra f.rb 17)
  | .mulhu f => some (encSR 0 f.rd f.ra f.rb 18)
  | .div f => some (encSR 0 f.rd f.ra f.rb 20)
  | .divu f => some (encSR 0 f.rd f.ra f.rb 21)
  | .rem f => some (encSR 0 f.rd f.ra f.rb 22)
  | .remu f => some (encSR 0 f.rd f.ra f.rb 23)
  | .clz f => some (encSR 0 f.rd f.ra 0 32)
  | .ctz f => some (encSR 0 f.rd f.ra 0 33)
  | .popc f => some (encSR 0 f.rd f.ra 0 34)
  | .fshr f n => some (encSR 0 f.rd f.ra f.rb (1#2 ++ n))
  | .addi f => some (encSI 1 f.rd f.ra f.imm)
  | .andi f => some (encSI 2 f.rd f.ra f.imm)
  | .ori f => some (encSI 3 f.rd f.ra f.imm)
  | .xori f => some (encSI 4 f.rd f.ra f.imm)
  | .slti f => some (encSI 8 f.rd f.ra f.imm)
  | .sltiu f => some (encSI 9 f.rd f.ra f.imm)
  | .ldb f => some (encSI 16 f.rd f.ra f.imm)
  | .ldbu f => some (encSI 17 f.rd f.ra f.imm)
  | .ldh f => some (encSI 18 f.rd f.ra f.imm)
  | .ldhu f => some (encSI 19 f.rd f.ra f.imm)
  | .ldw f => some (encSI 20 f.rd f.ra f.imm)
  | .ldwu f => some (encSI 21 f.rd f.ra f.imm)
  | .ldd f => some (encSI 22 f.rd f.ra f.imm)
  | .lds f => some (encSI 23 f.rd f.ra f.imm)
  | .stb f => some (encSI 24 f.rd f.ra f.imm)
  | .sth f => some (encSI 25 f.rd f.ra f.imm)
  | .stw f => some (encSI 26 f.rd f.ra f.imm)
  | .std f => some (encSI 27 f.rd f.ra f.imm)
  | .jalr f => some (encSI 39 f.rd f.ra f.imm)
  | .slli f n => some (encSI 5 f.rd f.ra (0#7 ++ n))
  | .srli f n => some (encSI 6 f.rd f.ra (0#7 ++ n))
  | .srai f n => some (encSI 7 f.rd f.ra (0#7 ++ n))
  | .fadd f rm => some (encSR 0x0A f.rd f.ra f.rb (rm ++ 0#6))
  | .fsub f rm => some (encSR 0x0A f.rd f.ra f.rb (rm ++ 1#6))
  | .fmul f rm => some (encSR 0x0A f.rd f.ra f.rb (rm ++ 2#6))
  | .fdiv f rm => some (encSR 0x0A f.rd f.ra f.rb (rm ++ 3#6))
  | .fsqrt f rm => some (encSR 0x0A f.rd f.ra 0 (rm ++ 4#6))
  | .fcvtws f rm => some (encSR 0x0A f.rd f.ra 0 (rm ++ 10#6))
  | .fcvtus f rm => some (encSR 0x0A f.rd f.ra 0 (rm ++ 11#6))
  | .fcvtsw f rm => some (encSR 0x0A f.rd f.ra 0 (rm ++ 12#6))
  | .fcvtsu f rm => some (encSR 0x0A f.rd f.ra 0 (rm ++ 13#6))
  | .fmin f => some (encSR 0x0A f.rd f.ra f.rb 5)
  | .fmax f => some (encSR 0x0A f.rd f.ra f.rb 6)
  | .feq f => some (encSR 0x0A f.rd f.ra f.rb 7)
  | .flt f => some (encSR 0x0A f.rd f.ra f.rb 8)
  | .fle f => some (encSR 0x0A f.rd f.ra f.rb 9)
  | .fabs f => some (encSR 0x0A f.rd f.ra 0 14)
  | .fneg f => some (encSR 0x0A f.rd f.ra 0 15)
  | .fma f rm => some (encSR 0x0B f.rd f.ra f.rb (rm ++ 0#6))
  | .csrr rd csr => some (encSI 0x0C rd 0 (0#2 ++ csr))
  | .csrw f csr => some (encSI 0x0C f.rd f.ra (1#2 ++ csr))
  | .csrs f csr => some (encSI 0x0C f.rd f.ra (2#2 ++ csr))
  | .csrc f csr => some (encSI 0x0C f.rd f.ra (3#2 ++ csr))
  | .vmode f m => some (encSI 0x0D f.rd f.ra (0#8 ++ m))
  | .aadd f o d => some (encSR 0x1C f.rd f.ra f.rb (o ++ BitVec.ofBool d ++ 0#5))
  | .aswp f o d => some (encSR 0x1C f.rd f.ra f.rb (o ++ BitVec.ofBool d ++ 1#5))
  | .acas f o d => some (encSR 0x1C f.rd f.ra f.rb (o ++ BitVec.ofBool d ++ 2#5))
  | .aand f o d => some (encSR 0x1C f.rd f.ra f.rb (o ++ BitVec.ofBool d ++ 3#5))
  | .aor f o d => some (encSR 0x1C f.rd f.ra f.rb (o ++ BitVec.ofBool d ++ 4#5))
  | .axor f o d => some (encSR 0x1C f.rd f.ra f.rb (o ++ BitVec.ofBool d ++ 5#5))
  | .amin f o d => some (encSR 0x1C f.rd f.ra f.rb (o ++ BitVec.ofBool d ++ 6#5))
  | .amax f o d => some (encSR 0x1C f.rd f.ra f.rb (o ++ BitVec.ofBool d ++ 7#5))
  | .aminu f o d => some (encSR 0x1C f.rd f.ra f.rb (o ++ BitVec.ofBool d ++ 8#5))
  | .amaxu f o d => some (encSR 0x1C f.rd f.ra f.rb (o ++ BitVec.ofBool d ++ 9#5))
  | .afadd f o => some (encSR 0x1C f.rd f.ra f.rb (o ++ 0#1 ++ 10#5))
  | .ldaq f d => some (encSR 0x1C f.rd f.ra 0 (1#2 ++ BitVec.ofBool d ++ 11#5))
  | .strl ra rb d => some (encSR 0x1C 0 ra rb (2#2 ++ BitVec.ofBool d ++ 12#5))
  | .beq f => some (encSI 32 f.ra f.rb f.off)
  | .bne f => some (encSI 33 f.ra f.rb f.off)
  | .blt f => some (encSI 34 f.ra f.rb f.off)
  | .bge f => some (encSI 35 f.ra f.rb f.off)
  | .bltu f => some (encSI 36 f.ra f.rb f.off)
  | .bgeu f => some (encSI 37 f.ra f.rb f.off)
  | .jal l off => some (encSJ (BitVec.ofBool l) off)
  | .loopr off => some (encSI 0x28 0 0 off)
  | .bp p t off => some (encSI 0x29 p (0#3 ++ t) off)
  | .chkd cls n off => some (encSI 0x2A (fld n 0 5) (0#2 ++ cls ++ fld n 5 1) off)
  | .liu rd i => some (encSU 14 rd i)
  | .fli rd i => some (encSU 15 rd i)
  | .cMv a b => some (encS16 (0#2 ++ b) a 0)
  | .cLi a i => some (encS16 i a 1)
  | .cAddi a i => some (encS16 i a 2)
  | .cAdd a b => some (encS16 (0#2 ++ b) a 3)
  | .cSub a b => some (encS16 (0#2 ++ b) a 4)
  | .cSlli a n => some (encS16 (0#1 ++ n) a 5)
  | .cLdd a b j => some (encS16 (j ++ b) a 6)
  | .cStd a b j => some (encS16 (j ++ b) a 7)
  | .vadd f => some (encV3 1 0 f)
  | .vsub f => some (encV3 1 1 f)
  | .vmul f => some (encV3 1 2 f)
  | .vmad f => some (encV3 1 3 f)
  | .vfma f => some (encV3 1 4 f)
  | .vmadk f => some (encV3 1 5 f)
  | .vmads f => some (encV3 1 6 f)
  | .vadds f => some (encV3 1 7 f)
  | .vmuls f => some (encV3 1 8 f)
  | .vmin f => some (encV3 1 9 f)
  | .vmax f => some (encV3 1 10 f)
  | .vand f => some (encV3 1 11 f)
  | .vor f => some (encV3 1 12 f)
  | .vxor f => some (encV3 1 13 f)
  | .vshl f => some (encV3 1 14 f)
  | .vshr f => some (encV3 1 15 f)
  | .vfsh f => some (encV3 1 16 f)
  | .vceq f => some (encV3 1 17 f)
  | .vclt f => some (encV3 1 18 f)
  | .vcle f => some (encV3 1 19 f)
  | .vsel f => some (encV3 1 20 f)
  | .vcvt f => some (encV3 1 21 f)
  | .vred f => some (encV3 1 22 f)
  | .vscan f => some (encV3 1 23 f)
  | .vperm f => some (encV3 1 24 f)
  | .vslide f => some (encV3 1 25 f)
  | .vsfu f => some (encV3 1 26 f)
  | .vbits f => some (encV3 1 27 f)
  | .vcbx f => some (encV3 1 28 f)
  | .vqnt f => some (encV3 1 29 f)
  | .vmov f => some (encV3 1 30 f)
  | .vun f => some (encV3 1 31 f)
  | .vld f => some (encV3 2 0 f)
  | .vst f => some (encV3 2 1 f)
  | .vlds f => some (encV3 2 2 f)
  | .vstm f => some (encV3 2 3 f)
  | .vldx f => some (encV3 2 4 f)
  | .vstx f => some (encV3 2 5 f)
  | .vldc f => some (encV3 2 6 f)
  | .vstc f => some (encV3 2 7 f)
  | .cbadvRptr f => some (encV3 2 8 f)
  | .cbadvWptr f => some (encV3 2 8 f)
  | .spush f => some (encV3 2 9 f)
  | .spop f => some (encV3 2 10 f)
  | .sbal f => some (encV3 2 11 f)
  | .pset f => some (encV3 2 12 f)
  | .pand f => some (encV3 2 13 f)
  | .por f => some (encV3 2 14 f)
  | .pxor f => some (encV3 2 15 f)
  | .pnot f => some (encV3 2 16 f)
  | .pcnt f => some (encV3 2 17 f)
  | .vbcast f => some (encV3 2 18 f)
  | .vextr f => some (encV3 2 19 f)
  | .vins f => some (encV3 2 20 f)
  | .vpark f => some (encV3 2 21 f)
  | .vunpark f => some (encV3 2 22 f)
  | .vldb f => some (encV3 2 23 f)
  | .vldst f => some (encV3 2 24 f)
  | .vstst f => some (encV3 2 25 f)
  | .sems f => some (encXR 2 f.rd f.ra f.rb 0)
  | .bari f => some (encXR 3 f.rd f.ra f.rb 0)
  | .mcmd f => some (encXR 5 f.rd f.ra f.rb 0)
  | .cpyq f => some (encXR 8 f.rd f.ra f.rb 0)
  | .mwait f => some (encXR 12 f.rd f.ra f.rb 0)
  | .toksend f => some (encXR 16 f.rd f.ra f.rb 0)
  | .hops f => some (encXR 21 f.rd f.ra f.rb 0)
  | .hopsMd f => some (encXR 21 f.rd f.ra f.rb 1)
  | .launch f => some (encXR 22 f.rd f.ra f.rb 0)
  | .semw f => some (encXR 1 f.rd f.ra 0 0)
  | .bariClr f => some (encXR 3 f.rd f.ra 0 1)
  | .bar f => some (encXR 4 f.rd f.ra 0 0)
  | .mringCfg f => some (encXR 6 f.rd f.ra 0 0)
  | .mringPost f => some (encXR 6 f.rd f.ra 0 1)
  | .kld f => some (encXR 7 f.rd f.ra 0 0)
  | .tokwait f => some (encXR 17 f.rd f.ra 0 0)
  | .timewait f => some (encXR 19 f.rd f.ra 0 0)
  | .vdie f => some (encXR 20 f.rd f.ra 0 0)
  | .cwait f => some (encXR 23 f.rd f.ra 0 0)
  | .scopenew f => some (encXR 26 f.rd f.ra 0 0)
  | .cancel f => some (encXR 27 f.rd f.ra 0 0)
  | .scopewait f => some (encXR 28 f.rd f.ra 0 0)
  | .tqry f => some (encXR 33 f.rd f.ra 0 0)
  | .mringStat rd => some (encXR 6 rd 0 0 2)
  | .timer rd => some (encXR 18 rd 0 0 0)
  | .banksync rd => some (encXR 32 rd 0 0 0)
  | .nop => some (encXR 0 0 0 0 0)
  | .isync => some (encXR 15 0 0 0 0)
  | .taskend => some (encXR 24 0 0 0 0)
  | .yield => some (encXR 25 0 0 0 0)
  | .tret => some (encXR 31 0 0 0 0)
  | .ownf f w => some (encXR 9 f.rd f.ra f.rb (0#6 ++ w))
  | .ownfAuto f w => some (encXR 9 f.rd f.ra f.rb (1#6 ++ w))
  | .stcfg f n => some (encXR 10 f.rd f.ra 0 (0#4 ++ n))
  | .cbcfg f n => some (encXR 11 f.rd f.ra 0 (0#4 ++ n))
  | .fence s => some (encXR 13 0 0 0 (0#5 ++ s))
  | .lfence b a => some (encXR 14 0 0 0 (a ++ b))
  | .safept n => some (encXR 29 0 0 0 n)
  | .trap n => some (encXR 30 0 0 0 n)
  | .blk len rpt => some (encXB len rpt)
  | _ => none

/-- Sequencer records (Table 2-3, R33): byte 0 is the opcode; a bit the table does not name is zero. -/
def decodeRecord (r : BitVec 256) : Option Instr :=
  let z := fun (lo n : Nat) => decide (fld r lo n = 0)
  let h := fld r 64 32
  match (fld r 0 8).toNat with
  | 1 =>
    some (.opr { prio := fld r 8 5, tclass := fld r 13 4, rect := fld r 17 15, scope := fld r 32 16,
                 opbi := fld r 48 16, in0 := h, in1 := fld r 96 32, in2 := fld r 128 32, in3 := fld r 160 32,
                 out0 := fld r 192 32, out1 := fld r 224 32 })
  | 2 =>
    if z 16 16 && z 48 16 && z 96 160 then some (.xfer (fld r 8 5) (fld r 13 3) (fld r 32 16) h) else none
  | 3 => if z 64 192 then some (.ifc (fld r 32 32) (fld r 16 16) (fld r 8 8)) else none
  | 4 => if z 96 160 then some (.whl (fld r 32 32) (fld r 16 16) (fld r 8 8) h) else none
  | 5 => if z 8 24 && z 64 192 then some (.jmp (fld r 32 32)) else none
  | 6 => if z 16 240 then some (.sync (fld r 8 8)) else none
  | 7 => if z 8 56 && z 96 32 && z 192 64 then some (.tnew h (fld r 128 64)) else none
  | 8 => if z 8 56 && z 96 160 then some (.tdel h) else none
  | 9 => if z 9 55 && z 96 160 then some (.tpin h (fld r 8 1 = 1#1)) else none
  | 10 => if z 16 48 && z 128 128 then some (.sigh (fld r 8 8) (fld r 64 64)) else none
  | 11 => if z 9 23 && z 48 208 then some (.cncl (fld r 32 16) (fld r 8 1 = 1#1)) else none
  | 12 => if z 8 248 then some .seqEnd else none
  | _ => none

def encodeRecord : Instr → Option (BitVec 256)
  | .opr r =>
    some (r.out1 ++ r.out0 ++ r.in3 ++ r.in2 ++ r.in1 ++ r.in0 ++ r.opbi ++ r.scope ++ r.rect ++ r.tclass ++
      r.prio ++ 1#8)
  | .xfer prio tier scope h => some (0#160 ++ h ++ 0#16 ++ scope ++ 0#16 ++ tier ++ prio ++ 2#8)
  | .ifc off cwi keep => some (0#192 ++ off ++ cwi ++ keep ++ 3#8)
  | .whl off cwi keep bound => some (0#160 ++ bound ++ off ++ cwi ++ keep ++ 4#8)
  | .jmp off => some (0#192 ++ off ++ 0#24 ++ 5#8)
  | .sync keep => some (0#240 ++ keep ++ 6#8)
  | .tnew h desc => some (0#64 ++ desc ++ 0#32 ++ h ++ 0#56 ++ 7#8)
  | .tdel h => some (0#160 ++ h ++ 0#56 ++ 8#8)
  | .tpin h pin => some (0#160 ++ h ++ 0#55 ++ BitVec.ofBool pin ++ 9#8)
  | .sigh keep value => some (0#128 ++ value ++ 0#48 ++ keep ++ 10#8)
  | .cncl scope wait => some (0#208 ++ scope ++ 0#23 ++ BitVec.ofBool wait ++ 11#8)
  | .seqEnd => some (0#248 ++ 12#8)
  | _ => none

/-- The fields of a matrix command record (Table 5-9): W0 in the low half, W1 in the high half. -/
def wMCmd (r : BitVec 128) : MCmd :=
  { koff := fld r 48 16, stb := fld r 28 4, sta := fld r 24 4, acc := fld r 18 3, raise := fld r 13 5,
    await := fld r 8 5, pl := fld r 119 3, pt := fld r 116 3, dw := fld r 114 2, dh := fld r 112 2,
    sw := fld r 110 2, sh := fld r 108 2, row0 := fld r 96 12, k := fld r 78 13, nm1 := fld r 71 7,
    mm1 := fld r 64 7 }

def encMCmd (op : BitVec 8) (m : MCmd) : BitVec 128 :=
  0#6 ++ m.pl ++ m.pt ++ m.dw ++ m.dh ++ m.sw ++ m.sh ++ m.row0 ++ 0#5 ++ m.k ++ m.nm1 ++ m.mm1 ++
    m.koff ++ 0#16 ++ m.stb ++ m.sta ++ 0#3 ++ m.acc ++ m.raise ++ m.await ++ op

/-- A matrix command; none where the record is malformed (R114). -/
def decodeCommand (r : BitVec 128) : Option Instr :=
  let m := wMCmd r
  if fld r 122 6 = 0#6 ∧ fld r 91 5 = 0#5 ∧ fld r 32 16 = 0#16 ∧ fld r 21 3 = 0#3 then
    match (fld r 0 8).toNat with
    | 1 => keepWf (.mzero m)
    | 2 => keepWf (.mma m)
    | 3 => keepWf (.mconv m)
    | 4 => keepWf (.mout m)
    | 5 => keepWf (.macc m)
    | _ => none
  else none

def encodeCommand : Instr → Option (BitVec 128)
  | .mzero m => some (encMCmd 1 m)
  | .mma m => some (encMCmd 2 m)
  | .mconv m => some (encMCmd 3 m)
  | .mout m => some (encMCmd 4 m)
  | .macc m => some (encMCmd 5 m)
  | _ => none

/-- The fields of a Flume packet (Table 5-11), word 0 lowest. -/
def wFPkt (r : BitVec 512) : FPkt :=
  { dc := fld r 35 1 = 1#1, lp := fld r 34 1 = 1#1, dh := fld r 33 1 = 1#1, sh := fld r 32 1 = 1#1,
    scope := fld r 16 16, prio := fld r 8 5, src := fld r 64 64, dst := fld r 128 64, len := fld r 192 64,
    stamp := fld r 256 64, nbt := fld r 320 64, aux := fld r 384 64, tag := fld r 448 64 }

def encFPkt (kind : BitVec 8) (p : FPkt) : BitVec 512 :=
  p.tag ++ p.aux ++ p.nbt ++ p.stamp ++ p.len ++ p.dst ++ p.src ++ 0#28 ++ BitVec.ofBool p.dc ++
    BitVec.ofBool p.lp ++ BitVec.ofBool p.dh ++ BitVec.ofBool p.sh ++ p.scope ++ 0#3 ++ p.prio ++ kind

/-- A Flume packet; none where a bit marked 0 is set or the form is malformed (R116). -/
def decodePacket (r : BitVec 512) : Option Instr :=
  let p := wFPkt r
  if fld r 36 28 = 0#28 ∧ fld r 13 3 = 0#3 then
    match (fld r 0 8).toNat with
    | 1 => keepWf (.flcopy p)
    | 2 => keepWf (.flfill p)
    | 3 => keepWf (.flred p)
    | 4 => keepWf (.flstmp p)
    | 5 => keepWf (.flcoll p)
    | _ => none
  else none

def encodePacket : Instr → Option (BitVec 512)
  | .flcopy p => some (encFPkt 1 p)
  | .flfill p => some (encFPkt 2 p)
  | .flred p => some (encFPkt 3 p)
  | .flstmp p => some (encFPkt 4 p)
  | .flcoll p => some (encFPkt 5 p)
  | _ => none

/-- The n bytes of a number, least significant first (R2). -/
def leBytes : Nat → Nat → List Byte
  | 0, _ => []
  | n + 1, x => BitVec.ofNat 8 x :: leBytes n (x / 256)

/-- The number whose bytes these are, least significant first (R2). -/
def leNat : List Byte → Nat
  | [] => 0
  | b :: bs => b.toNat + 256 * leNat bs

/-- The bytes of an instruction as memory holds them; none for an event, which has no encoding. -/
def encode (i : Instr) : Option (List Byte) :=
  match encodeTollum i with
  | some w =>
    match i.parcels with
    | 1 => some (leBytes 2 w.toNat)
    | 4 => some (leBytes 4 w.toNat ++ leBytes 4 i.literal.toNat)
    | _ => some (leBytes 4 w.toNat)
  | none =>
    match encodeRecord i, encodeCommand i, encodePacket i with
    | some r, _, _ => some (leBytes 32 r.toNat)
    | none, some r, _ => some (leBytes 16 r.toNat)
    | none, none, some r => some (leBytes 64 r.toNat)
    | none, none, none => none

/-- A Tollum instruction at the head of a list of bytes, with the bytes after it. -/
def decode (bs : List Byte) : Option (Instr × List Byte) :=
  let w := BitVec.ofNat 32 (leNat (bs.take 4))
  let next := BitVec.ofNat 32 (leNat ((bs.drop 4).take 4))
  if 2 * wordParcels w ≤ bs.length then
    match decodeTollum w next with
    | some i => some (i, bs.drop (2 * i.parcels))
    | none => none
  else none

/-- The instruction of nbits bits w, bit 0 the lowest bit of the first byte (spec/opcode_table.json): Tollum words,
matrix command records (128 bits), sequencer records (256 bits) and Flume packets (512 bits), told apart by
their length; every bit above nbits is 0. -/
def decodeTableWord (nbits w : Nat) : Option Instr :=
  if nbits ≤ 64 then decodeTollum (BitVec.ofNat 32 w) (BitVec.ofNat 32 (w / 2 ^ 32))
  else if nbits ≤ 128 then decodeCommand (BitVec.ofNat 128 w)
  else if nbits ≤ 256 then decodeRecord (BitVec.ofNat 256 w)
  else decodePacket (BitVec.ofNat 512 w)

end Sys2Proof
end

