-- ==== Sys2Proof/Machine/Num.lean ====
section
/-! DEFINITION. Number formats and exact arithmetic (06_numbers.md, R126-R149): values are computed exactly
and rounded once. -/
namespace Sys2Proof.Machine
open Sys2Proof

/-- Rounding modes (R129, Table 4-7 RM). -/
inductive Rm where
  | rne | rz | rdn | rup
  deriving DecidableEq, Repr

def Rm.ofBits (b : BitVec 2) : Rm :=
  match b.toNat with
  | 0 => .rne
  | 1 => .rz
  | 2 => .rdn
  | _ => .rup

/-- The flags of FSTAT (Table 6-4). -/
structure Flags where
  nv : Bool := false
  dz : Bool := false
  of : Bool := false
  uf : Bool := false
  nx : Bool := false
  deriving DecidableEq, Repr

def Flags.or (a b : Flags) : Flags :=
  { nv := a.nv || b.nv, dz := a.dz || b.dz, of := a.of || b.of, uf := a.uf || b.uf, nx := a.nx || b.nx }

/-- The sticky bits of FSTAT [4:0] (Table 6-4). -/
def Flags.toBits (a : Flags) : BitVec 5 :=
  BitVec.ofBool a.nv ++ BitVec.ofBool a.dz ++ BitVec.ofBool a.of ++ BitVec.ofBool a.uf ++ BitVec.ofBool a.nx

/-- Element types (Table 6-1). -/
inductive Et where
  | i8 | u8 | i16 | u16 | i32 | u32 | f8 | bf16 | fp16 | fp32 | gq4
  deriving DecidableEq, Repr

/-- ET codes 11 to 15 are reserved (R126). -/
def Et.ofCode : Nat → Option Et
  | 0 => some .i8
  | 1 => some .u8
  | 2 => some .i16
  | 3 => some .u16
  | 4 => some .i32
  | 5 => some .u32
  | 6 => some .f8
  | 7 => some .bf16
  | 8 => some .fp16
  | 9 => some .fp32
  | 10 => some .gq4
  | _ => none

/-- Width in bytes; GQ4 is handled byte by byte (R91, R138). -/
def Et.width : Et → Nat
  | .i8 | .u8 | .f8 | .gq4 => 1
  | .i16 | .u16 | .bf16 | .fp16 => 2
  | .i32 | .u32 | .fp32 => 4

def Et.isFloat : Et → Bool
  | .f8 | .bf16 | .fp16 | .fp32 => true
  | _ => false

def Et.isSigned : Et → Bool
  | .i8 | .i16 | .i32 => true
  | _ => false

def Et.isInt : Et → Bool
  | .i8 | .u8 | .i16 | .u16 | .i32 | .u32 => true
  | _ => false

/-- A floating-point format (Table 6-2). -/
structure Fmt where
  ebits : Nat
  mbits : Nat
  bias : Nat
  hasInf : Bool
  deriving DecidableEq, Repr

def fmtFP32 : Fmt := { ebits := 8, mbits := 23, bias := 127, hasInf := true }
def fmtBF16 : Fmt := { ebits := 8, mbits := 7, bias := 127, hasInf := true }
def fmtFP16 : Fmt := { ebits := 5, mbits := 10, bias := 15, hasInf := true }
def fmtF8 : Fmt := { ebits := 4, mbits := 3, bias := 7, hasInf := false }

def Et.fmt : Et → Fmt
  | .f8 => fmtF8
  | .bf16 => fmtBF16
  | .fp16 => fmtFP16
  | _ => fmtFP32

def Fmt.bitsWidth (f : Fmt) : Nat := f.ebits + f.mbits + 1

/-- The canonical NaN (Table 6-2). -/
def Fmt.nanBits (f : Fmt) : Nat :=
  if f.hasInf then (2 ^ f.ebits - 1) * 2 ^ f.mbits + 2 ^ (f.mbits - 1) else 2 ^ (f.ebits + f.mbits) - 1

def Fmt.signBit (f : Fmt) (neg : Bool) : Nat := if neg then 2 ^ (f.ebits + f.mbits) else 0

/-- The magnitude bits of infinity (formats that have it). -/
def Fmt.infMag (f : Fmt) : Nat := (2 ^ f.ebits - 1) * 2 ^ f.mbits

/-- The magnitude bits of the largest finite value (Table 6-2). -/
def Fmt.maxMag (f : Fmt) : Nat := if f.hasInf then f.infMag - 1 else f.nanBits - 1

/-- A decoded floating-point value: (-1)^neg m 2^e. -/
inductive FVal where
  | nan
  | inf (neg : Bool)
  | fin (neg : Bool) (m : Nat) (e : Int)
  deriving DecidableEq, Repr

/-- The value of an encoding (R128, R137). -/
def Fmt.decode (f : Fmt) (x : Nat) : FVal :=
  let neg := (x >>> (f.ebits + f.mbits)) % 2 = 1
  let ex := (x >>> f.mbits) % 2 ^ f.ebits
  let fr := x % 2 ^ f.mbits
  let mag := x % 2 ^ (f.ebits + f.mbits)
  if f.hasInf && ex == 2 ^ f.ebits - 1 then
    if fr = 0 then .inf neg else .nan
  else if !f.hasInf && mag == f.nanBits then .nan
  else if ex = 0 then .fin neg fr (1 - (f.bias : Int) - f.mbits)
  else .fin neg (2 ^ f.mbits + fr) ((ex : Int) - f.bias - f.mbits)

/-- An exact result before rounding: `num neg n d e` is (-1)^neg (n/d) 2^e; n = 0 is a signed zero. -/
inductive Exact where
  | nan (nv : Bool)
  | inf (neg dz : Bool)
  | num (neg : Bool) (n d : Nat) (e : Int)
  deriving DecidableEq, Repr

def FVal.exact : FVal → Exact
  | .nan => .nan false
  | .inf s => .inf s false
  | .fin s m e => .num s m 1 e

/-- A delivered result: the encoding, its flags, whether it was tiny (R134), and its sign. -/
structure FRes where
  bits : Nat
  flags : Flags := {}
  tiny : Bool := false
  deriving DecidableEq, Repr

/-- x 2^k for a signed k, as a numerator or denominator factor. -/
def scaleNum (n : Nat) (k : Int) : Nat := if k < 0 then n else n * 2 ^ k.toNat
def scaleDen (d : Nat) (k : Int) : Nat := if k < 0 then d * 2 ^ (-k).toNat else d

/-- floor(log2 (n/d)) for positive n and d. -/
def ratLog2 (n d : Nat) : Int :=
  let k : Int := (n.log2 : Int) - (d.log2 : Int)
  if scaleNum n (-k) < scaleDen d (-k) then k - 1 else k

/-- Rounds n/d 2^e to a multiple of 2^q under the mode: the multiple, and whether it is inexact. -/
def roundQuantum (rm : Rm) (neg : Bool) (n d : Nat) (e q : Int) : Nat × Bool :=
  let num := scaleNum n (e - q)
  let den := scaleDen d (e - q)
  let t := num / den
  let r := num % den
  let up := match rm with
    | .rne => decide (2 * r > den) || (decide (2 * r = den) && decide (t % 2 = 1))
    | .rz => false
    | .rdn => neg && decide (r ≠ 0)
    | .rup => !neg && decide (r ≠ 0)
  (if up then t + 1 else t, decide (r ≠ 0))

/-- The result of an overflow in a format with infinities (Table 6-3). -/
def Fmt.overflow (f : Fmt) (rm : Rm) (neg : Bool) : Nat :=
  let toInf := match rm with
    | .rne => true
    | .rz => false
    | .rdn => neg
    | .rup => !neg
  f.signBit neg + (if toInf then f.infMag else f.maxMag)

/-- The F8 result of an overflow or of an infinity (R137). -/
def f8Overflow (sat neg : Bool) : Nat := if sat then fmtF8.signBit neg + fmtF8.maxMag else fmtF8.nanBits

/-- Rounds an exact result once to the format, with gradual underflow (R129, R130, R134, R137). -/
def Fmt.round (f : Fmt) (rm0 : Rm) (sat : Bool) : Exact → FRes
  | .nan nv => { bits := f.nanBits, flags := { nv := nv } }
  | .inf neg dz =>
    if f.hasInf then { bits := f.signBit neg + f.infMag, flags := { dz := dz } }
    else { bits := f8Overflow sat neg, flags := { dz := dz, of := !dz, nx := !dz } }
  | .num neg n d e =>
    let rm := if f.hasInf then rm0 else .rne
    if n = 0 then { bits := f.signBit neg }
    else
      let emin : Int := 1 - (f.bias : Int)
      let ex := ratLog2 n d + e
      let free := roundQuantum rm neg n d e (ex - f.mbits)
      let tiny := decide (ex < emin) &&
        !(decide (ex = emin - 1) && decide (free.1 = 2 ^ (f.mbits + 1)))
      let base := if ex < emin then emin else ex
      let r := roundQuantum rm neg n d e (base - f.mbits)
      let mag := ((base - emin).toNat) * 2 ^ f.mbits + r.1
      if mag > f.maxMag then
        { bits := if f.hasInf then f.overflow rm neg else f8Overflow sat neg,
          flags := { of := true, nx := true } }
      else
        { bits := f.signBit neg + mag, flags := { nx := r.2, uf := tiny && r.2 }, tiny := tiny }

/-- A tiny FP32 result flushed under FTZ or in H mode (R135): a zero with the sign of the exact value. -/
def FRes.flush (f : Fmt) (r : FRes) : FRes :=
  { bits := r.bits - r.bits % 2 ^ (f.ebits + f.mbits), flags := { uf := true, nx := true } }

/-- The exact sum of two signed magnitudes, its zero signed by R130. -/
def addFin (rm : Rm) (s1 : Bool) (m1 : Nat) (e1 : Int) (s2 : Bool) (m2 : Nat) (e2 : Int) : Exact :=
  let e := if e1 ≤ e2 then e1 else e2
  let a : Nat := m1 * 2 ^ (e1 - e).toNat
  let b : Nat := m2 * 2 ^ (e2 - e).toNat
  let x : Int := if s1 then -(a : Int) else a
  let y : Int := if s2 then -(b : Int) else b
  let t := x + y
  if t = 0 then
    if m1 = 0 && m2 = 0 && s1 && s2 then .num true 0 1 0 else .num (rm == .rdn) 0 1 0
  else .num (decide (t < 0)) t.natAbs 1 e

/-- b + c (R130, R131). -/
def FVal.add (rm : Rm) : FVal → FVal → Exact
  | .nan, _ => .nan false
  | _, .nan => .nan false
  | .inf s, .inf t => if s = t then .inf s false else .nan true
  | .inf s, .fin .. => .inf s false
  | .fin .., .inf t => .inf t false
  | .fin s1 m1 e1, .fin s2 m2 e2 => addFin rm s1 m1 e1 s2 m2 e2

def FVal.neg : FVal → FVal
  | .nan => .nan
  | .inf s => .inf (!s)
  | .fin s m e => .fin (!s) m e

/-- The exact product, if it is a number; otherwise what it is. -/
def FVal.mulV : FVal → FVal → FVal × Bool
  | .nan, _ => (.nan, false)
  | _, .nan => (.nan, false)
  | .inf s, .inf t => (.inf (s != t), false)
  | .inf s, .fin t m _ => if m = 0 then (.nan, true) else (.inf (s != t), false)
  | .fin s m _, .inf t => if m = 0 then (.nan, true) else (.inf (s != t), false)
  | .fin s m e, .fin t k g => (.fin (s != t) (m * k) (e + g), false)

/-- b x c (R131). -/
def FVal.mul (a b : FVal) : Exact :=
  match FVal.mulV a b with
  | (.nan, nv) => .nan nv
  | (v, _) => v.exact

/-- a x b + c, exact (R131, R342). -/
def FVal.fma (rm : Rm) (a b c : FVal) : Exact :=
  match FVal.mulV a b with
  | (.nan, true) => .nan true
  | (p, _) => FVal.add rm p c

/-- a / b (R131). -/
def FVal.div : FVal → FVal → Exact
  | .nan, _ => .nan false
  | _, .nan => .nan false
  | .inf _, .inf _ => .nan true
  | .inf s, .fin t _ _ => .inf (s != t) false
  | .fin s _ _, .inf t => .num (s != t) 0 1 0
  | .fin s m e, .fin t k g =>
    if k = 0 then (if m = 0 then .nan true else .inf (s != t) true)
    else .num (s != t) m k (e - g)

/-- The integer square root of n < 4^k, from its top bit down. -/
def isqrt (n : Nat) : Nat → Nat → Nat
  | 0, acc => acc
  | k + 1, acc =>
    let t := acc + 2 ^ k
    if t * t ≤ n then isqrt n k t else isqrt n k acc

/-- A root r of n with a sticky bit: 2 r, plus 1 where r r < n. -/
def stickyRoot (n : Nat) : Nat :=
  let r := isqrt n (n.log2 / 2 + 1) 0
  if r * r = n then 2 * r else 2 * r + 1

/-- The square root (R131): NV below -0. -/
def FVal.sqrt : FVal → Exact
  | .nan => .nan false
  | .inf s => if s then .nan true else .inf false false
  | .fin s m e =>
    if m = 0 then .num s 0 1 0
    else if s then .nan true
    else
      let m' := if e % 2 = 0 then m else 2 * m
      let e' := if e % 2 = 0 then e else e - 1
      .num false (stickyRoot (m' * 2 ^ 128)) 1 (e' / 2 - 65)

/-- The reciprocal (Table 6-7). -/
def FVal.recip : FVal → Exact
  | .nan => .nan false
  | .inf s => .num s 0 1 0
  | .fin s m e => if m = 0 then .inf s true else .num s 1 m (-e)

/-- The reciprocal square root (Table 6-7): correctly rounded from a root of 2^k/m with a sticky bit. -/
def FVal.rsqrt : FVal → Exact
  | .nan => .nan false
  | .inf s => if s then .nan true else .num false 0 1 0
  | .fin s m e =>
    if m = 0 then .inf s true
    else if s then .nan true
    else
      let m' := if e % 2 = 0 then m else 2 * m
      let e' := if e % 2 = 0 then e else e - 1
      let q := 2 ^ 256 / m'
      let r := isqrt q (q.log2 / 2 + 1) 0
      let n := if r * r * m' = 2 ^ 256 then 2 * r else 2 * r + 1
      .num false n 1 (-(e' / 2) - 129)

/-- floor(ln 2 x 2^320). -/
def lnTwo : Nat :=
  0xb17217f7d1cf79abc9e3b39803f2f6af40f343267298b62d8a0d175b8baafa2be7b876206debac98

/-- The Taylor sum of e^y - 1 in units of 2^-320: term k is y^k/k!. -/
def expSum (y : Nat) : Nat → Nat → Nat → Nat
  | 0, _, _ => 0
  | n + 1, k, t =>
    let t' := (t * y) / 2 ^ 320 / k
    t' + expSum y n (k + 1) t'

/-- 2^f - 1 for f in [0, 1), both in units of 2^-320. -/
def expFrac (f : Nat) : Nat := expSum (f * lnTwo / 2 ^ 320) 80 1 (2 ^ 320)

/-- exp2 (Table 6-7): exact at integers, else a 320-bit fraction with a sticky bit. -/
def FVal.exp2 : FVal → Exact
  | .nan => .nan false
  | .inf s => if s then .num false 0 1 0 else .inf false false
  | .fin s m e =>
    if m = 0 then .num false 1 1 0
    else if 16 ≤ (m.log2 : Int) + e then
      if s then .num false 1 1 (-70000) else .num false 1 1 70000
    else
      let x : Int := (m * 2 ^ (e + 320).toNat : Nat)
      let y : Int := if s then -x else x
      let k := y / 2 ^ 320
      let f := (y % 2 ^ 320).toNat
      if f = 0 then .num false 1 1 k
      else .num false (2 * (2 ^ 320 + expFrac f) + 1) 1 (k - 321)

/-- The series of atanh z = z + z^3/3 + ... in units of 2^-320. -/
def atanhSum (z2 : Nat) : Nat → Nat → Nat → Nat
  | 0, _, _ => 0
  | n + 1, k, t => t / k + atanhSum z2 n (k + 2) (t * z2 / 2 ^ 320)

/-- log2 of n/d in units of 2^-320, for n/d in [1, 2): 2 atanh((n-d)/(n+d)) / ln 2. -/
def logFrac (n d : Nat) : Nat :=
  let z := (n - d) * 2 ^ 320 / (n + d)
  2 * atanhSum (z * z / 2 ^ 320) 110 1 z * 2 ^ 320 / lnTwo

/-- log2 (Table 6-7): exact at powers of two, else a 320-bit value with a sticky bit. -/
def FVal.log2 : FVal → Exact
  | .nan => .nan false
  | .inf s => if s then .nan true else .inf false false
  | .fin s m e =>
    if m = 0 then .inf true true
    else if s then .nan true
    else
      let l := m.log2
      let k : Int := (l : Int) + e
      if m = 2 ^ l then
        .num (decide (k < 0)) k.natAbs 1 0
      else if 0 ≤ k then
        .num false (2 * (k.toNat * 2 ^ 320 + logFrac m (2 ^ l)) + 1) 1 (-321)
      else
        -- |log2 x| = (-k - 1) + log2 (2^(l+1)/m)
        .num true (2 * ((-k - 1).toNat * 2 ^ 320 + logFrac (2 ^ (l + 1)) m) + 1) 1 (-321)

/-- Comparison key of finite values, aligned: a < b. -/
def FVal.ltFin (s1 : Bool) (m1 : Nat) (e1 : Int) (s2 : Bool) (m2 : Nat) (e2 : Int) : Bool :=
  let e := if e1 ≤ e2 then e1 else e2
  let a : Nat := m1 * 2 ^ (e1 - e).toNat
  let b : Nat := m2 * 2 ^ (e2 - e).toNat
  let x : Int := if s1 then -(a : Int) else a
  let y : Int := if s2 then -(b : Int) else b
  decide (x < y)

/-- a < b as numbers; false with a NaN; -0 equals +0 (R132). -/
def FVal.lt : FVal → FVal → Bool
  | .nan, _ => false
  | _, .nan => false
  | .inf s, .inf t => s && !t
  | .inf s, .fin .. => s
  | .fin .., .inf t => !t
  | .fin s1 m1 e1, .fin s2 m2 e2 => FVal.ltFin s1 m1 e1 s2 m2 e2

def FVal.isNan : FVal → Bool
  | .nan => true
  | _ => false

def FVal.isFin : FVal → Bool
  | .fin .. => true
  | _ => false

def FVal.signOf : FVal → Bool
  | .nan => false
  | .inf s => s
  | .fin s _ _ => s

/-- a = b as numbers (R132). -/
def FVal.eq (a b : FVal) : Bool :=
  !a.isNan && !b.isNan && !a.lt b && !b.lt a

/-- Minimum or maximum (R132): the other operand where one is NaN; -0 below +0. -/
def Fmt.minmax (f : Fmt) (isMax : Bool) (x y : Nat) : Nat :=
  let a := f.decode x
  let b := f.decode y
  if a.isNan && b.isNan then f.nanBits
  else if a.isNan then y
  else if b.isNan then x
  else
    let below := a.lt b || (a.eq b && a.signOf && !b.signOf)
    if below != isMax then x else y

/-- wrap(x, w bits) as an unsigned encoding (R138). -/
def wrapInt (bits : Nat) (x : Int) : Nat := (x % (2 ^ bits : Nat)).toNat

/-- The bounds of an integer type. -/
def intMin (signed : Bool) (bits : Nat) : Int := if signed then -((2 ^ (bits - 1) : Nat) : Int) else 0
def intMax (signed : Bool) (bits : Nat) : Int :=
  if signed then ((2 ^ (bits - 1) : Nat) : Int) - 1 else ((2 ^ bits : Nat) : Int) - 1

/-- An encoding read as an integer of the type. -/
def toIntOf (signed : Bool) (bits : Nat) (x : Nat) : Int :=
  if signed && decide (2 ^ (bits - 1) ≤ x) then (x : Int) - (2 ^ bits : Nat) else x

/-- Reduces an exact integer once (R138): wraps, or saturates and sets OF where the value changed. -/
def redInt (sat signed : Bool) (bits : Nat) (x : Int) : FRes :=
  if sat then
    let lo := intMin signed bits
    let hi := intMax signed bits
    if x < lo then { bits := wrapInt bits lo, flags := { of := true } }
    else if hi < x then { bits := wrapInt bits hi, flags := { of := true } }
    else { bits := wrapInt bits x }
  else { bits := wrapInt bits x }

/-- Floating to integer (Table 6-6): rounded, bounded with NV, NaN gives 0 and NV. -/
def FVal.toInteger (rm : Rm) (signed : Bool) (bits : Nat) : FVal → FRes
  | .nan => { bits := 0, flags := { nv := true } }
  | .inf s =>
    { bits := wrapInt bits (if s then intMin signed bits else intMax signed bits), flags := { nv := true } }
  | .fin s m e =>
    let r := roundQuantum rm s m 1 e 0
    let x : Int := if s then -(r.1 : Int) else r.1
    if x < intMin signed bits then { bits := wrapInt bits (intMin signed bits), flags := { nv := true } }
    else if intMax signed bits < x then { bits := wrapInt bits (intMax signed bits), flags := { nv := true } }
    else { bits := wrapInt bits x, flags := { nx := r.2 } }

/-- Integer to floating (Table 6-6). -/
def Fmt.ofInt (f : Fmt) (rm : Rm) (sat : Bool) (x : Int) : FRes :=
  f.round rm sat (.num (decide (x < 0)) x.natAbs 1 0)

/-- The conversion of one element (R140, Table 6-6), by gradual underflow. -/
def convertEl (src dst : Et) (rm : Rm) (sat : Bool) (x : Nat) : FRes :=
  if src.isFloat then
    let v := src.fmt.decode x
    if dst.isFloat then dst.fmt.round rm sat v.exact
    else v.toInteger rm dst.isSigned (8 * dst.width)
  else
    let i := toIntOf src.isSigned (8 * src.width) x
    if dst.isFloat then dst.fmt.ofInt rm sat i
    else redInt sat dst.isSigned (8 * dst.width) i

/-- The GQ4 codebook in units of 1/64 (Table 6-8). -/
def codebook : List Int := [-64, -44, -32, -24, -18, -12, -6, 0, 5, 10, 16, 22, 28, 36, 48, 64]

/-- CB[k] in units of 1/64. -/
def cbEntry (k : Nat) : Int := codebook.getD (k % 16) 0

/-- CB[k] as a value (R142). -/
def cbVal (k : Nat) : FVal :=
  let x := cbEntry k
  .fin (decide (x < 0)) x.natAbs (-6)

/-- rne32 with gradual underflow. -/
def rne32 (x : Exact) : Nat := (fmtFP32.round .rne false x).bits

/-- The block scale bs = rne32(S x (c + 1) x 2^-8) (R143). -/
def blockScale (s c : Nat) : Nat :=
  match fmtFP32.decode s with
  | .fin g m e => rne32 (.num g (m * (c + 1)) 1 (e - 8))
  | v => rne32 v.exact

/-- The exact value of a GQ4 element (R143); under a block scale that is infinite or NaN the product follows the rules of FP32 and
raises no flag (DESIGN CHOICE, log entry 71). -/
def gqVal (code bs : Nat) : FVal := (FVal.mulV (cbVal code) (fmtFP32.decode bs)).1

end Sys2Proof.Machine
end

