-- ==== Sys2Proof/Machine/Elem.lean ====
section
/-! DEFINITION. What the vector instructions compute, as functions of their operand values (06_numbers.md,
07_vector.md, 16_reference_u_to_z.md). -/
namespace Sys2Proof.Machine
open Sys2Proof

/-- Element i of width w bytes (R127). -/
def elemOf (v : Nat) (w i : Nat) : Nat := (v >>> (8 * w * i)) % 2 ^ (8 * w)

/-- The number of elements of width w (R150). -/
def elemCount (w : Nat) : Nat := 256 / w

/-- A result vector under construction: its value, merged flags, and the lowest tiny element. -/
structure VAcc where
  val : Nat := 0
  flags : Flags := {}
  tiny : Option Nat := none
  deriving DecidableEq, Repr

/-- What one element contributes: `none` keeps the old bits. -/
def VAcc.push (w i old : Nat) (acc : VAcc) : Option FRes → VAcc
  | none => { acc with val := acc.val + old <<< (8 * w * i) }
  | some r =>
    { val := acc.val + r.bits <<< (8 * w * i), flags := acc.flags.or r.flags,
      tiny := acc.tiny.or (if r.tiny then some i else none) }

/-- Builds a vector of n elements from element i on. -/
def buildEl (w old : Nat) (g : Nat → Option FRes) : Nat → Nat → VAcc → VAcc
  | 0, _, acc => acc
  | n + 1, i, acc => buildEl w old g n (i + 1) (acc.push w i (elemOf old w i) (g i))

/-- Element-wise: active elements take `f i`, the others keep `old` (R91). -/
def mapEl (w old : Nat) (act : Nat → Bool) (f : Nat → FRes) : VAcc :=
  buildEl w old (fun i => if act i then some (f i) else none) (elemCount w) 0 {}

/-- FP32 tininess under the carried FTZ (R135): flushed, or left to the SUBN assist; other formats are native. -/
def settle (et : Et) (ftz : Bool) (r : FRes) : FRes :=
  if et = .fp32 then (if ftz && r.tiny then r.flush fmtFP32 else r) else { r with tiny := false }

/-- The mode an element operation runs under. -/
structure ElMode where
  et : Et
  rm : Rm
  sat : Bool
  ftz : Bool
  deriving DecidableEq, Repr

/-- The rounding mode of a result: RNE for F8, whatever VMODE.RM (R129); it decides the sign of a zero sum (R130). -/
def ElMode.dir (m : ElMode) : Rm := if m.et = .f8 then .rne else m.rm
def ElMode.rnd (m : ElMode) (x : Exact) : FRes := settle m.et m.ftz (m.et.fmt.round m.rm m.sat x)
def ElMode.red (m : ElMode) (x : Int) : FRes := redInt m.sat m.et.isSigned (8 * m.et.width) x
def ElMode.int (m : ElMode) (x : Nat) : Int := toIntOf m.et.isSigned (8 * m.et.width) x
def ElMode.flt (m : ElMode) (x : Nat) : FVal := m.et.fmt.decode x

/-- The operations of Table 16-1 and Table 7-1. -/
inductive ElOp where
  | add | sub | mul | min | max | and | or | xor | shl | shr
  deriving DecidableEq, Repr

/-- Table 16-1. -/
def elBin (op : ElOp) (m : ElMode) (b c : Nat) : FRes :=
  let bw := 8 * m.et.width
  match op with
  | .add => if m.et.isFloat then m.rnd ((m.flt b).add m.dir (m.flt c)) else m.red (m.int b + m.int c)
  | .sub => if m.et.isFloat then m.rnd ((m.flt b).add m.dir (m.flt c).neg) else m.red (m.int b - m.int c)
  | .mul => if m.et.isFloat then m.rnd ((m.flt b).mul (m.flt c)) else m.red (m.int b * m.int c)
  | .min =>
    if m.et.isFloat then { bits := m.et.fmt.minmax false b c }
    else { bits := if m.int b ≤ m.int c then b else c }
  | .max =>
    if m.et.isFloat then { bits := m.et.fmt.minmax true b c }
    else { bits := if m.int b ≤ m.int c then c else b }
  | .and => { bits := b &&& c }
  | .or => { bits := b ||| c }
  | .xor => { bits := b ^^^ c }
  | .shl => { bits := (b <<< (c % bw)) % 2 ^ bw }
  | .shr =>
    if m.et.isSigned then { bits := wrapInt bw (m.int b / (2 ^ (c % bw) : Nat)) }
    else { bits := b >>> (c % bw) }

/-- x * y + z reduced once (R342). -/
def elFma (m : ElMode) (x y z : Nat) : FRes :=
  if m.et.isFloat then m.rnd (FVal.fma m.dir (m.flt x) (m.flt y) (m.flt z))
  else m.red (m.int x * m.int y + m.int z)

/-- VFSH (R155). -/
def elFsh (m : ElMode) (a b c : Nat) : FRes :=
  let bw := 8 * m.et.width
  { bits := ((a * 2 ^ bw + b) >>> (c % (2 * bw))) % 2 ^ bw }

/-- The comparisons of VCEQ, VCLT, VCLE (R338): the answer and whether NV is set. -/
inductive ElCmp where
  | eq | lt | le
  deriving DecidableEq, Repr

def cmpFloat (op : ElCmp) (a b : FVal) : Bool × Bool :=
  match op with
  | .eq => (a.eq b, false)
  | .lt => (a.lt b, a.isNan || b.isNan)
  | .le => (a.lt b || a.eq b, a.isNan || b.isNan)

def elCmp (op : ElCmp) (m : ElMode) (b c : Nat) : Bool × Bool :=
  if m.et.isFloat then cmpFloat op (m.flt b) (m.flt c)
  else match op with
    | .eq => (m.int b == m.int c, false)
    | .lt => (decide (m.int b < m.int c), false)
    | .le => (decide (m.int b ≤ m.int c), false)

/-- The predicate bits of the bytes of element i (R91, R151). -/
def elemBits (w i : Nat) : Nat := (2 ^ w - 1) <<< (w * i)

/-- Builds a predicate: active elements write all their bits, the others keep the old ones (R151). -/
def buildPred (w old : Nat) (act : Nat → Bool) (f : Nat → Bool × Bool) : Nat → Nat → Nat × Bool → Nat × Bool
  | 0, _, acc => acc
  | n + 1, i, acc =>
    let keep := old &&& elemBits w i
    let acc' := if act i then
        let r := f i
        (acc.1 + (if r.1 then elemBits w i else 0), acc.2 || r.2)
      else (acc.1 + keep, acc.2)
    buildPred w old act f n (i + 1) acc'

/-- VBITS (R157). -/
def clzN (bw x : Nat) : Nat := if x = 0 then bw else bw - 1 - x.log2

def ctzN : Nat → Nat → Nat
  | 0, _ => 0
  | n + 1, x => if x % 2 = 1 then 0 else 1 + ctzN n (x / 2)

def popN : Nat → Nat → Nat
  | 0, _ => 0
  | n + 1, x => x % 2 + popN n (x / 2)

def revN : Nat → Nat → Nat → Nat
  | 0, _, acc => acc
  | n + 1, x, acc => revN n (x / 2) (2 * acc + x % 2)

def elBits (f bw x : Nat) : FRes :=
  match f with
  | 0 => { bits := clzN bw x }
  | 1 => { bits := ctzN bw x }
  | 2 => { bits := popN bw x }
  | _ => { bits := revN bw x 0 }

/-- VUN (R352). -/
def elUn (f : Nat) (m : ElMode) (b : Nat) : FRes :=
  let bw := 8 * m.et.width
  match f with
  | 0 =>
    if m.et.isFloat then
      { bits := if (m.flt b).isNan then m.et.fmt.nanBits else b % 2 ^ (bw - 1) }
    else m.red (m.int b).natAbs
  | 1 =>
    if m.et.isFloat then
      { bits := if (m.flt b).isNan then m.et.fmt.nanBits else b ^^^ 2 ^ (bw - 1) }
    else m.red (-(m.int b))
  | _ => { bits := 2 ^ bw - 1 - b }

/-- VSFU (R141, Table 6-7). F8, which has no infinity, takes for the reciprocal square root and log2 of ±0 what Table 6-7 gives for
its reciprocal, with DZ alone (DESIGN CHOICE, log entry 71). -/
def elSfu (f : Nat) (m : ElMode) (b : Nat) : FRes :=
  let v := m.flt b
  m.rnd (match f with
    | 0 => v.recip
    | 1 => v.rsqrt
    | 2 => v.exp2
    | _ => v.log2)

/-- A member of a reduction: its value and the lowest element that entered it (R149). -/
structure RedItem where
  val : Nat
  low : Nat
  deriving DecidableEq, Repr

/-- What a reduction carries beside its items. -/
structure RedAcc where
  flags : Flags := {}
  tiny : Option Nat := none
  deriving DecidableEq, Repr

def optMin (a b : Option Nat) : Option Nat :=
  match a, b with
  | some x, some y => some (Nat.min x y)
  | some x, none => some x
  | none, y => y

/-- One combination of the tree (R149): an absent member passes the other upwards (R156). -/
def redPair (op : ElOp) (m : ElMode) (a b : Option RedItem) (acc : RedAcc) : Option RedItem × RedAcc :=
  match a, b with
  | none, y => (y, acc)
  | some x, none => (some x, acc)
  | some x, some y =>
    let r := elBin op m x.val y.val
    let low := Nat.min x.low y.low
    (some { val := r.bits, low := low },
     { flags := acc.flags.or r.flags, tiny := optMin acc.tiny (if r.tiny then some low else none) })

/-- One level of the tree. -/
def redLevel (op : ElOp) (m : ElMode) : List (Option RedItem) → RedAcc → List (Option RedItem) × RedAcc
  | a :: b :: rest, acc =>
    let p := redPair op m a b acc
    let q := redLevel op m rest p.2
    (p.1 :: q.1, q.2)
  | xs, acc => (xs, acc)

/-- g levels of the tree. -/
def redTree (op : ElOp) (m : ElMode) : Nat → List (Option RedItem) → RedAcc → List (Option RedItem) × RedAcc
  | 0, xs, acc => (xs, acc)
  | g + 1, xs, acc =>
    let p := redLevel op m xs acc
    redTree op m g p.1 p.2

/-- The active elements from i on, as reduction items. -/
def redItems (w b : Nat) (act : Nat → Bool) : Nat → Nat → List (Option RedItem)
  | 0, _ => []
  | n + 1, i =>
    (if act i then some { val := elemOf b w i, low := i } else none) :: redItems w b act n (i + 1)

/-- The exact integer sum of the active elements of a group (R149). -/
def sumGroup (m : ElMode) (b : Nat) (act : Nat → Bool) : Nat → Nat → Int
  | 0, _ => 0
  | n + 1, i =>
    (if act i then m.int (elemOf b m.et.width i) else 0) + sumGroup m b act n (i + 1)

/-- The result of each group of 2^g elements. -/
def groupSums (m : ElMode) (b : Nat) (act : Nat → Bool) (size : Nat) : Nat → Nat → List FRes
  | 0, _ => []
  | n + 1, i => m.red (sumGroup m b act size i) :: groupSums m b act size n (i + size)

def orFlags : List FRes → Flags
  | [] => {}
  | r :: rs => r.flags.or (orFlags rs)

/-- The operation code C[5:3] of VRED and VSCAN (Table 7-1). -/
def redOp : Nat → ElOp
  | 0 => .add
  | 1 => .min
  | 2 => .max
  | 3 => .and
  | 4 => .or
  | _ => .xor

/-- Whether any element of a group is active. -/
def anyAct (act : Nat → Bool) : Nat → Nat → Bool
  | 0, _ => false
  | n + 1, i => act i || anyAct act n (i + 1)

/-- The flags of the groups that have an active element. -/
def groupFlags (act : Nat → Bool) (size : Nat) : List FRes → Nat → Flags
  | [], _ => {}
  | r :: rs, i =>
    let rest := groupFlags act size rs (i + size)
    if anyAct act size i then r.flags.or rest else rest

/-- VRED (R149, R156). -/
def vredVal (code : Nat) (m : ElMode) (old b : Nat) (act : Nat → Bool) : VAcc :=
  let w := m.et.width
  let n := elemCount w
  let g := code % 8
  let size := 2 ^ g
  let op := redOp (code / 8)
  if op = .add && !m.et.isFloat then
    let rs := groupSums m b act size (n / size) 0
    let out := mapEl w old act (fun i => { bits := (rs.getD (i / size) { bits := 0 }).bits })
    { out with flags := groupFlags act size rs 0 }
  else
    let t := redTree op m g (redItems w b act n 0) {}
    let out := mapEl w old act (fun i =>
      { bits := match t.1.getD (i / size) none with | some x => x.val | none => elemOf old w i })
    { out with flags := t.2.flags, tiny := t.2.tiny }

/-- VSCAN under a floating-point ET, or MIN, MAX and the bitwise operations (R149, R156). -/
def scanStep (op : ElOp) (m : ElMode) (old b : Nat) (act : Nat → Bool) (size : Nat) :
    Nat → Nat → Option Nat → VAcc → VAcc
  | 0, _, _, acc => acc
  | n + 1, i, prev0, acc =>
    let w := m.et.width
    let prev := if i % size = 0 then none else prev0
    if act i then
      let x := elemOf b w i
      let r := match prev with
        | none => { bits := x }
        | some p => elBin op m p x
      scanStep op m old b act size n (i + 1) (some r.bits) (acc.push w i 0 (some r))
    else scanStep op m old b act size n (i + 1) prev (acc.push w i (elemOf old w i) none)

/-- VSCAN ADD under an integer ET: each prefix exact, reduced once (R149). -/
def scanInt (m : ElMode) (old b : Nat) (act : Nat → Bool) (size : Nat) :
    Nat → Nat → Int → VAcc → VAcc
  | 0, _, _, acc => acc
  | n + 1, i, prev0, acc =>
    let w := m.et.width
    let prev := if i % size = 0 then 0 else prev0
    if act i then
      let x := prev + m.int (elemOf b w i)
      scanInt m old b act size n (i + 1) x (acc.push w i 0 (some (m.red x)))
    else scanInt m old b act size n (i + 1) prev (acc.push w i (elemOf old w i) none)

def vscanVal (code : Nat) (m : ElMode) (old b : Nat) (act : Nat → Bool) : VAcc :=
  let n := elemCount m.et.width
  let size := 2 ^ (code % 8)
  let op := redOp (code / 8)
  if op = .add && !m.et.isFloat then scanInt m old b act size n 0 0 {}
  else scanStep op m old b act size n 0 none {}

/-- VSLIDE (R153). -/
def vslideVal (s : Int) (w old b : Nat) (act : Nat → Bool) : VAcc :=
  mapEl w old act (fun i =>
    let j : Int := (i : Int) - s
    { bits := if 0 ≤ j && j < (elemCount w : Int) then elemOf b w j.toNat else 0 })

/-- VPERM (R154). -/
def vpermVal (w old b c : Nat) (act : Nat → Bool) : VAcc :=
  mapEl w old act (fun i =>
    let j := elemOf c w i
    { bits := if j < elemCount w then elemOf b w j else 0 })

/-- Code n of a GQ4 vector (R127). -/
def gqCode (b n : Nat) : Nat := (b >>> (4 * n)) % 16

/-- VCBX (R337). -/
def vcbxVal (h : Nat) (m : ElMode) (old b : Nat) (act : Nat → Bool) : VAcc :=
  mapEl m.et.width old act (fun i =>
    { bits := (m.et.fmt.round .rne false (cbVal (gqCode b (256 * h + i))).exact).bits })

/-- VCVT (R339, R340); `act` is read at the destination width. -/
def vcvtVal (q : Nat) (dst : Et) (m : ElMode) (old b : Nat) (act : Nat → Bool) : VAcc :=
  let ws := m.et.width
  let wd := dst.width
  let conv := fun i => { convertEl m.et dst m.rm m.sat (elemOf b ws i) with tiny := false }
  if wd ≤ ws then
    let es := elemCount ws
    buildEl wd old (fun j =>
      if q * es ≤ j && j < q * es + es && act j then some (conv (j - q * es)) else none) (elemCount wd) 0 {}
  else
    let ed := elemCount wd
    mapEl wd old act (fun i => conv (q * ed + i))

/-- The finite magnitude of an FP32 encoding, 0 for NaN and infinity (R349). -/
def finMag (x : Nat) : Nat := if (fmtFP32.decode x).isFin then x % 2 ^ 31 else 0

/-- amax of a block, as FP32 bits (R349). -/
def qntAmax (b : Nat) (act : Nat → Bool) : Nat → Nat → Nat
  | 0, _ => 0
  | n + 1, i => Nat.max (if act i then finMag (elemOf b 4 i) else 0) (qntAmax b act n (i + 1))

/-- The scale code min(255, max(0, ceil(256 amax / s) - 1)) (R145). -/
def qntScale (amax s : Nat) : Nat :=
  match fmtFP32.decode amax, fmtFP32.decode s with
  | .fin _ m e, .fin _ k g =>
    if k = 0 then 0
    else
      let num := scaleNum (256 * m) (e - g)
      let den := scaleDen k (e - g)
      Nat.min 255 ((num + den - 1) / den - 1)
  | _, _ => 0

/-- The best code from k on: least distance, then smaller |CB|, then lower k (R145). -/
def qntBest (x : Int) (u : Int) : Nat → Nat → Nat → Nat
  | 0, _, best => best
  | n + 1, k, best =>
    let d := (cbEntry k * u - x).natAbs
    let db := (cbEntry best * u - x).natAbs
    let better := d < db || (d == db && decide ((cbEntry k).natAbs < (cbEntry best).natAbs))
    qntBest x u n (k + 1) (if better then k else best)

/-- The code of one input under a block scale (R145): the code, and whether NV is set. -/
def qntCode (bs x : Nat) : Nat × Bool :=
  match fmtFP32.decode x with
  | .nan => (7, true)
  | .inf s => (if s then 0 else 15, true)
  | .fin s m e =>
    match fmtFP32.decode bs with
    | .fin _ k g =>
      let lo := if e ≤ g - 6 then e else g - 6
      let xi : Nat := m * 2 ^ (e - lo).toNat
      let u : Nat := k * 2 ^ (g - 6 - lo).toNat
      (qntBest (if s then -(xi : Int) else xi) u 15 1 0, false)
    | _ => (7, false)

/-- The packed codes of VQNT CODES (R349). -/
def qntCodes (bad : Bool) (bs b : Nat) (act : Nat → Bool) : Nat → Nat → Nat × Bool → Nat × Bool
  | 0, _, acc => acc
  | n + 1, i, acc =>
    let r := if !act i then (7, false) else if bad then (7, true) else qntCode bs (elemOf b 4 i)
    qntCodes bad bs b act n (i + 1) (acc.1 + r.1 <<< (4 * i), acc.2 || r.2)

/-- VQNT (R348, R349). -/
def vqntVal (plane s c b : Nat) (act : Nat → Bool) : VAcc :=
  let amax := qntAmax b act 64 0
  let s' := s % 2 ^ 31
  let bad := !(fmtFP32.decode s').isFin
  let spread := fun x => mapEl 4 0 (fun _ => true) (fun _ => { bits := x })
  match plane with
  | 0 => spread amax
  | 1 => spread (if bad then 0 else qntScale amax s')
  | _ =>
    let r := qntCodes bad (blockScale s' (c % 256)) b act 64 0 (0, bad)
    { val := r.1, flags := { nv := r.2 } }

end Sys2Proof.Machine
end

