-- ==== Sys2Proof/Machine/SMap.lean ====
section
/-! DEFINITION. Operations over sparse maps (`SMap`): reading with a default, storing, storing in canonical
form, deleting. Keys stay strictly rising. -/
namespace Sys2Proof.Machine
open Sys2Proof

/-- The value at key `k`, or `dflt` where the map lists none. -/
def smGet {α : Type} (dflt : α) (k : Nat) : SMap α → α
  | [] => dflt
  | (j, x) :: m => if j = k then x else smGet dflt k m

/-- The value at key `k`, if listed. -/
def smFind {α : Type} (k : Nat) : SMap α → Option α
  | [] => none
  | (j, x) :: m => if j = k then some x else smFind k m

/-- Lists `x` at key `k`, in place of what the map lists there. -/
def smPut {α : Type} (k : Nat) (x : α) : SMap α → SMap α
  | [] => [(k, x)]
  | (j, y) :: m => if j = k then (k, x) :: m else if k < j then (k, x) :: (j, y) :: m else (j, y) :: smPut k x m

/-- Removes key `k`. -/
def smDel {α : Type} (k : Nat) : SMap α → SMap α
  | [] => []
  | (j, y) :: m => if j = k then smDel k m else (j, y) :: smDel k m

/-- Canonical store: a value equal to the default is not listed. -/
def smSet {α : Type} [DecidableEq α] (dflt : α) (k : Nat) (x : α) (m : SMap α) : SMap α :=
  if x = dflt then smDel k m else smPut k x m

/-- Applies `f` to the value at `k` (the default where unlisted). -/
def smUpd {α : Type} (dflt : α) (k : Nat) (f : α → α) (m : SMap α) : SMap α :=
  smPut k (f (smGet dflt k m)) m

/-- The first key of `0 .. n-1`, from `k`, that the map does not list. -/
def smFree {α : Type} (m : SMap α) : Nat → Nat → Option Nat
  | _, 0 => none
  | k, n + 1 => match smFind k m with
    | none => some k
    | some _ => smFree m (k + 1) n

/-- Keys strictly rise, each above `lo` (none: no bound). -/
def smSorted {α : Type} : Option Nat → SMap α → Bool
  | _, [] => true
  | none, (j, _) :: m => smSorted (some j) m
  | some lo, (j, _) :: m => decide (lo < j) && smSorted (some j) m

/-- No entry holds the default. -/
def smNoDefault {α : Type} [DecidableEq α] (dflt : α) : SMap α → Bool
  | [] => true
  | (_, x) :: m => decide (x ≠ dflt) && smNoDefault dflt m

end Sys2Proof.Machine
end

