-- ==== Sys2Proof/Machine/CoreState.lean ====
section
/-! DEFINITION. The state of one core: its strand, its vector queues, its command ring, its banks and its
power readings. -/
namespace Sys2Proof.Machine
open Sys2Proof

/-- A scalar register with its D bit (R86, R92); `ecc`: an uncorrectable error lies in it (R304). -/
structure SReg where
  val : Word := 0
  d : Bool := false
  ecc : Bool := false
  deriving DecidableEq, Repr

/-- A vector register with its D bit. -/
structure VCell where
  val : VReg := 0
  d : Bool := false
  ecc : Bool := false
  deriving DecidableEq, Repr

/-- A predicate register with its D bit. -/
structure PCell where
  val : PReg := 0
  d : Bool := false
  ecc : Bool := false
  deriving DecidableEq, Repr

/-- The register classes of Table 4-3; s0 and p0 are hard-wired in the operations that read and write them. -/
structure Regs where
  s : Vector SReg 32 := Vector.replicate 32 {}
  v : Vector VCell 48 := Vector.replicate 48 {}
  o : Vector VCell 8 := Vector.replicate 8 {}
  lr : VCell := {}
  p : Vector PCell 24 := Vector.replicate 24 {}
  k : Vector (BitVec 32) 64 := Vector.replicate 64 0
  deriving DecidableEq, Repr

/-- A stream register (Table 7-3). -/
structure Stream where
  base : BitVec 57 := 0
  ext3 : BitVec 16 := 0
  ext2 : BitVec 16 := 0
  kind : BitVec 3 := 0
  baxis : Bool := false
  fmt : BitVec 4 := 0
  ext0 : BitVec 32 := 0
  ext1 : BitVec 32 := 0
  rstr : Word := 0
  sbase : Word := 0
  sstr : BitVec 32 := 0
  ssstr : BitVec 32 := 0
  ssbase : Word := 0
  posc : BitVec 32 := 0
  posr : BitVec 32 := 0
  deriving DecidableEq, Repr

/-- A circular buffer (Table 7-2). `inst` numbers its installation, no two of the package alike, so that a packet still writing
finds a new one (R165). -/
structure CBuf where
  base : BitVec 21 := 0
  mode : Bool := false
  ssz : BitVec 4 := 0
  count : BitVec 9 := 0
  free : BitVec 16 := 0
  filled : BitVec 16 := 0
  rd : BitVec 16 := 0
  wr : BitVec 16 := 0
  inst : Nat := 0
  deriving DecidableEq, Repr

/-- Streams, circular buffers, conditional streams and semaphores (R158, R164, R170, R179). -/
structure Streams where
  st : Vector Stream 16 := Vector.replicate 16 {}
  cb : Vector CBuf 16 := Vector.replicate 16 {}
  cq : Vector (List Byte) 8 := Vector.replicate 8 []
  /-- SBALs completed on each buffer in this step (R162) -/
  sbals : Vector Nat 8 := Vector.replicate 8 0
  sem : Vector (BitVec 16) 32 := Vector.replicate 32 0
  deriving DecidableEq, Repr

/-- The control registers a strand changes (Table 4-8). -/
structure Csrs where
  vmode : Word := 9
  vb : BitVec 5 := 0
  pb : BitVec 4 := 0
  trips : Word := 0
  drain : Word := 0
  assistCnt : BitVec 32 := 0
  ftz : Bool := false
  fstat : BitVec 5 := 0
  slipL : BitVec 4 := 15
  slipA : BitVec 4 := 15
  slipS : BitVec 4 := 15
  deriving DecidableEq, Repr

/-- The wait of a routed VEXTR or PCNT (R110): its VA index, its destination, its value once it has arrived. -/
structure VWait where
  idx : BitVec 32
  rd : BitVec 5
  value : Option SReg
  deriving DecidableEq, Repr

/-- TCAUSE, TPC, TVAL and TSTAT (Table 13-2), QFSTAT.ACT, the LEN of the block TPC lies in, and whether a pass
begins at TPC; the routed VEXTR or PCNT whose wait the trap interrupted (TSTAT.ROUTED); the queue or ring whose recorded fault, or
SUBN, the trap was taken for, 0 none, 7 the SUBN of a scalar instruction, which no queue stands for (R135, R295). -/
structure TrapRegs where
  cause : BitVec 8 := 0
  tpc : BitVec 57 := 0
  tval : Word := 0
  rptl : BitVec 11 := 0
  moved : Bool := false
  kind : BitVec 2 := 0
  routed : Bool := false
  boff : BitVec 10 := 0
  act : BitVec 2 := 0
  tlen : BitVec 10 := 0
  tpass : Bool := false
  vw : Option VWait := none
  q : BitVec 3 := 0
  deriving DecidableEq, Repr

/-- K: the kernel mode; H: the handler mode (R290). -/
inductive Mode where
  | k | h
  deriving DecidableEq, Repr

/-- Where the control core stands: the program counter, the block it lies in, whether a block header must stand
at the program counter, whether a repeat pass begins there, and whether firmware's handler holds the strand. -/
structure Pos where
  mode : Mode := .k
  pc : Word := 0
  hdr : Word := 0
  len : BitVec 10 := 0
  rpt : BitVec 11 := 0
  atHdr : Bool := true
  passStart : Bool := false
  fw : Bool := false
  deriving DecidableEq, Repr

/-- A wait at a replayable fault (R226): none, waiting for the verdict on a FID, or turned into a protection
fault at an address. -/
inductive ParkSt where
  | run
  | wait (fid : Nat)
  | bad (va : Word)
  deriving DecidableEq, Repr

/-- An outstanding CXL.io request (R273): none, sent, or answered; `n` requests of the same instruction were completed
before it. -/
inductive HostSt where
  | idle
  | sent (va : Word) (n : Nat)
  | answered (va : Word) (n : Nat) (ok : Bool)
  deriving DecidableEq, Repr

/-- The sources an instruction read when it began (R135): vectors, its governing predicate, and the predicate in its C field. -/
structure Srcs where
  a : VCell := {}
  b : VCell := {}
  c : VCell := {}
  g : PCell := {}
  m : PCell := {}
  deriving DecidableEq, Repr

/-- An instruction held by a vector queue with what routing attached (R78): physical codes of its fields, its
governing predicate, its scalars, its constant-bank entries, VMODE and FTZ; its program-order number and its index
in the queue; whether its pops are taken; the sources kept for the assist; its park slot; whether an
uncorrectable error lies in it (R304). -/
structure QEntry where
  ins : Instr
  f : V3
  seq : Nat
  idx : BitVec 32
  vmode : Word
  ftz : Bool
  hmode : Bool
  pa : BitVec 6
  pb : BitVec 6
  pc : BitVec 6
  gov : BitVec 5
  sb : SReg
  sc : SReg
  k0 : BitVec 32
  k1 : BitVec 32
  slot : Nat
  popped : Bool
  done : Bool
  kept : Option Srcs
  ecc : Bool := false
  deriving DecidableEq, Repr

/-- A vector queue: the instructions it holds, oldest first; the count routed since dispatch; whether it is
halted; where it parks. -/
structure VQueue where
  held : List QEntry := []
  routed : BitVec 32 := 0
  halted : Bool := false
  park : ParkSt := .run
  host : HostSt := .idle
  deriving DecidableEq, Repr

/-- A recorded queue fault or ring fault (Table 13-3): Q is 1 VL, 2 VA, 3 VS, 4 ring. -/
structure QFault where
  q : BitVec 3
  cause : BitVec 8
  index : BitVec 32
  addr : Word
  deriving DecidableEq, Repr

/-- The queues of a strand, its token counts (R82), its recorded faults, and the program-order counter. -/
structure Queues where
  vl : VQueue := {}
  va : VQueue := {}
  vs : VQueue := {}
  la : BitVec 4 := 0
  al : BitVec 4 := 0
  ts : BitVec 4 := 0
  sa : BitVec 4 := 0
  faults : List QFault := []
  seq : Nat := 0
  deriving DecidableEq, Repr

/-- What a re-read of a monitored word has found (R325): nothing new, a word that differs, or an error. -/
inductive Reread where
  | none
  | value (v : Word)
  | bad (cause : BitVec 8)
  deriving DecidableEq, Repr

/-- What a strand's instruction is waiting in, where the wait needs memory of its own. -/
inductive WaitSt where
  | none
  /-- VEXTR or PCNT (R110) -/
  | vwait (w : VWait)
  /-- BAR: the barrier's key, the entry's scope (R260) -/
  | bar (key : Nat) (scope : BitVec 16)
  /-- BAR released: the word it returns -/
  | barDone (v : Word)
  /-- CANCEL: request sent to the home, by its number (R58) -/
  | cancel (req : Nat)
  | cancelDone (v : Word)
  /-- MWAIT armed (R228, R325): the address and the key of its word, the value waited against, whether the word is HOST-U,
  the die GTIME of the last poll, and what a re-read has found -/
  | mwait (va : Word) (key : Nat) (ref : Word) (hostU : Bool) (last : Word) (hit : Reread)
  /-- TIMEWAIT begun (R75): its time, and the GTIME at which it ended -/
  | timewait (until_ : Word) (got : Option Word)
  deriving DecidableEq, Repr

/-- Whether the core's strand runs: no step, running, at a safe point waiting for its array (R296), or stopped there by a pre-emption
whose other strands have not all stopped (R45). -/
inductive RunSt where
  | idle | run | stopping | stopped
  deriving DecidableEq, Repr

/-- What the choice among ready steps knows of a step (R44): its ready time by the GTIME of its die, its pass-over count, the
levels raised, and whether it counts as fitting. -/
structure Rank where
  since : Word := 0
  passes : Nat := 0
  raised : Nat := 0
  fits : Bool := false
  deriving DecidableEq, Repr

/-- The step a strand runs (R25, R40-R42, R54): its operator and step index, its launch, its scopes, its
rectangle, STEP0-STEP5, the restart bit, what it waits in, where it parks, its CXL.io request, its rank at its dispatch,
which it keeps where it is aborted (R42), and its request for a line of code (R273). -/
structure Job where
  run : RunSt := .idle
  launch : Nat := 0
  op : Nat := 0
  n : Nat := 0
  lsc : BitVec 16 := 0
  osc : BitVec 16 := 0
  rect : BitVec 15 := 0
  step : Vector Word 6 := Vector.replicate 6 0
  restart : Bool := false
  wait : WaitSt := .none
  park : ParkSt := .run
  host : HostSt := .idle
  rank : Rank := {}
  code : HostSt := .idle
  deriving DecidableEq, Repr

/-- The address of an outstanding request. -/
def HostSt.asks : HostSt → List Word
  | .idle => []
  | .sent va _ | .answered va _ _ => [va]

/-- A strand stopped by a pre-emption (R299): its core, its step, and what the save frame has no room for: the D bits
of its parked vectors and the LEN of its block. -/
structure SavedStrand where
  core : Nat
  job : Job
  parkD : BitVec 512
  len : BitVec 10
  deriving DecidableEq, Repr

/-- Everything of a strand that a lend frame keeps (R49). `marks`: uncorrectable errors in registers other than s, v, o, lr and
p (R304), as class and number: 3 constant bank, 4 conditional stream, 5 stream, 6 circular buffer, 7 semaphore. -/
structure Thread where
  regs : Regs := {}
  strm : Streams := {}
  csr : Csrs := {}
  trap : TrapRegs := {}
  pos : Pos := {}
  q : Queues := {}
  job : Job := {}
  marks : List (Nat × Nat) := []
  deriving DecidableEq, Repr

/-- A posting by MCMD whose command has not begun (R184): the record's index, the place of the posting in the strand's program
order, and the record itself where its write follows an earlier access that a queue still holds
(R251). -/
structure Posting where
  idx : Nat
  seq : Nat
  late : Option (BitVec 128)
  deriving DecidableEq, Repr

/-- The command ring (R182). `holds`: the postings of MCMD; a command begins only after the accesses before its posting
(R257). `begun`: the record at RD whose AWAIT is consumed and whose operands or destinations in HOST-U pages are asked of the host, by
the request `host` (R190, R273). -/
structure Ring where
  cfg : Bool := false
  base : BitVec 21 := 0
  logn : BitVec 4 := 0
  rd : Word := 0
  wr : Word := 0
  park : ParkSt := .run
  holds : List Posting := []
  begun : Option (BitVec 128) := none
  host : HostSt := .idle
  deriving DecidableEq, Repr

/-- A fault found in a load-block's fill (R209): it halts VL at the first instruction routed after it. -/
structure FillFault where
  cause : BitVec 8
  va : Word
  seq : Nat
  deriving DecidableEq, Repr

/-- A load-block (R209): its virtual address, lines and semaphore; its bytes once full; whether the semaphore has been
raised; where its fill parks; the request for a HOST-U line of it (R273), whose number is the line's; a fault found in its
fill; whether an uncorrectable error lies in it (R304). -/
structure LoadBlock where
  va : Word
  lines : Nat
  sem : BitVec 5
  full : Bool := false
  raised : Bool := false
  data : List Byte := []
  park : ParkSt := .run
  host : HostSt := .idle
  bad : Option FillFault := none
  ecc : Bool := false
  deriving DecidableEq, Repr

/-- Banks, owner tiles, load-blocks, the dirty-line FIFO and parking (R94, R201, R206-R209, R248). -/
structure Banks where
  roleP : BitVec 64 := 0
  roleF : BitVec 64 := 0
  owners : BitVec 1024 := 0
  auto : Option (Nat × Nat) := none
  blocks : List LoadBlock := []
  fifo : List Nat := []
  ptiles : BitVec 2 := 0
  depth : BitVec 10 := 0
  parkD : BitVec 512 := 0
  deriving DecidableEq, Repr

/-- LEASECFG, the lease charge, TOGGLE.LAST and the consecutive pass-overs (R185-R188). -/
structure Lease where
  mpad : BitVec 32 := 0
  run : BitVec 7 := 16
  charge : BitVec 32 := 0
  last : BitVec 32 := 0
  passes : Nat := 0
  deriving DecidableEq, Repr

/-- HEADROOM (Table 1-6; BUDGET is `Config.budget`), the fast-layer clock in MHz, a change of clock in progress,
LCYC, and the local time of the last refresh (R13, R14, R16). -/
structure Power where
  cls : BitVec 4 := 0
  fmax : BitVec 12 := 600
  head : BitVec 16 := 0
  mhz : Nat := 600
  change : Option Nat := none
  lcyc : Word := 0
  headAt : Word := 0
  deriving DecidableEq, Repr

/-- A lend frame (R49): the strand suspended for a child launch, with its ring, LEASECFG, bank roles, owners, pending
mark, park stack, and the pre-emption that waits for the child's end (R305). -/
structure LendFrame where
  child : Nat
  th : Thread
  ring : Ring
  mpad : BitVec 32
  leaseRun : BitVec 7
  roleP : BitVec 64
  roleF : BitVec 64
  owners : BitVec 1024
  auto : Option (Nat × Nat)
  ptiles : BitVec 2
  park : List VCell
  preempt : Option Word
  fallback : Bool
  deriving DecidableEq, Repr

/-- The binding of a core (R30, R31, R45, R49): the launch it is bound to, the context of its last binding, GEN, a
pre-emption pending against the strand since a GTIME (R299), whether it has fallen back to the tile-step boundary, the
child launch to which a pending lending lends the core, and the lend frames, latest first. -/
structure Bind where
  bound : Option Nat := none
  ctx : Option Nat := none
  gen : Word := 0
  preempt : Option Word := none
  fallback : Bool := false
  lendTo : Option Nat := none
  frames : List LendFrame := []
  deriving DecidableEq, Repr

/-- A 128-byte instruction line that the core has fetched (R123-R125): its line number, its bytes or the cause that its fetch
met, and whether ISYNC has left it for the rest of the current pass only. -/
structure FetchLine where
  line : Nat
  data : List Byte
  bad : Option (BitVec 8)
  last : Bool
  deriving DecidableEq, Repr

/-- An instruction in a loop buffer (R85): its place in the block, in parcels from the header, its parcels as one number, and whose
share it is: the queue's to which it is routed, or the control core's. -/
structure LoopRec where
  at_ : Nat
  w : Nat
  share : Option VQ
  deriving DecidableEq, Repr

/-- The loop buffers of the control core and of its three queues (R85): the header of the block they hold, the instructions recorded,
the shares that did not fit, and whether ISYNC has left them for the rest of the current pass only (R125). -/
structure LoopBuf where
  hdr : Word
  recs : List LoopRec := []
  missed : List (Option VQ) := []
  last : Bool := false
  deriving DecidableEq, Repr

/-- One core. -/
structure Core where
  th : Thread := {}
  ring : Ring := {}
  banks : Banks := {}
  lease : Lease := {}
  power : Power := {}
  bind : Bind := {}
  tvec : BitVec 57 := 0
  ahead : List FetchLine := []
  loop : Option LoopBuf := none
  deriving DecidableEq, Repr

end Sys2Proof.Machine
end

