-- ==== Sys2Proof/Machine/PkgState.lean ====
section
/-! DEFINITION. The state of the dies, the matrix arrays, barriers, token channels, contexts, scopes and queues. -/
namespace Sys2Proof.Machine
open Sys2Proof

/-- A fault record not yet posted (Table 9-7): its agent, and where the agent stands. -/
structure FaultRec where
  fid : Nat
  ctx : Nat
  va : Word
  agent : BitVec 8
  access : BitVec 8
  die : Nat
  unit : BitVec 16
  /-- the agent that parks: core and queue, array, queue number, launch or frame -/
  who : Nat
  sub : Nat
  deriving DecidableEq, Repr

/-- A column's temperature sensor (R18-R21): its failure cause, whether the failure's effects are in force, and the
samples of its window, latest first, temperatures in hundredths of a degree. -/
structure Sensor where
  failed : Option Nat := none
  inForce : Bool := false
  temps : List Int := []
  powers : List Nat := []
  deriving DecidableEq, Repr

/-- SYNCST.STATE (Table 3-9). -/
inductive SyncSt where
  | free | locked | lost
  deriving DecidableEq, Repr

/-- GTIME and SYNCST of a die (R69-R72): the GTIME of the last exchange and of the last growth of ERR; whether the
one step of the first lock is still to come; LOCKED needs 20 good exchanges. -/
structure DieTime where
  gtime : Word := 0
  losses : BitVec 16 := 0
  good : BitVec 8 := 0
  st : SyncSt := .free
  err : BitVec 16 := 0xFFFF
  exchAt : Word := 0
  errAt : Word := 0
  deriving DecidableEq, Repr

/-- A die (R6): dies 0-7 are CD0-CD7, 8-15 MD0-MD7, 16-17 XD0-XD1. -/
structure Die where
  time : DieTime := {}
  /-- the causal stamp: 18 counters of 48 bits (R253) -/
  stamp : Vector (BitVec 48) 18 := Vector.replicate 18 0
  /-- the stamps of the writes that have reached the die from others (R253) -/
  seen : Vector (BitVec 48) 18 := Vector.replicate 18 0
  sensors : List Sensor := []
  sampleAt : Word := 0
  scrubAt : Word := 0
  maint : Bool := true
  ce : BitVec 32 := 0
  ue : BitVec 32 := 0
  fetchdisc : BitVec 32 := 0
  /-- fault records waiting to be posted, in the order of their faults (R282) -/
  faults : List FaultRec := []
  /-- a memory or I/O die's clock in MHz, and a change in progress -/
  mhz : Nat := 0
  change : Option Nat := none
  deriving DecidableEq, Repr

/-- A command in execution (R189): the core of its ring, the scope it carries (R54), the semaphore it raises, the tile and
the stream registers it names, its record. -/
structure CmdRun where
  core : Nat
  osc : BitVec 16
  raise : BitVec 5
  acc : BitVec 3
  strms : List (BitVec 4)
  word : BitVec 128 := 0
  deriving DecidableEq, Repr

/-- A matrix array (R176-R188): tile words (key tile * 16384 + row * 128 + column, unlisted 0), the context each
pair of tiles carries, the lease (quad position) and its begun commands, the last grantee, the command in
execution, the count of 16,000 ns periods halved, and the clock. -/
structure Array where
  tiles : SMap (BitVec 32) := []
  ctxs : Vector (Option Nat) 4 := Vector.replicate 4 none
  lease : Option Nat := none
  begun : Nat := 0
  lastGrant : Nat := 3
  exec : Option CmdRun := none
  halved : Nat := 0
  mhz : Nat := 600
  change : Option Nat := none
  deriving DecidableEq, Repr

/-- An entry of a barrier (R258). -/
structure BarEntry where
  scope : BitVec 16
  count : BitVec 12
  left : BitVec 12
  broken : Bool := false
  deriving DecidableEq, Repr

/-- A barrier unit (R258): the context it is assigned to, its entries, PHASE, REDUCED. -/
structure Barrier where
  ctx : Option Nat := none
  entries : List BarEntry := []
  phase : BitVec 16 := 0
  reduced : Bool := false
  deriving DecidableEq, Repr

/-- A token: its payload and the sender's causal stamp (R66). -/
structure Token where
  payload : BitVec 32
  stamp : Vector (BitVec 48) 18
  deriving DecidableEq, Repr

/-- A token channel (R66): its context, the tokens held (oldest first). -/
structure Channel where
  ctx : Option Nat := none
  fifo : List Token := []
  deriving DecidableEq, Repr

/-- A token on its way to a channel (R67), from a core. -/
structure Flight where
  chan : Nat
  core : Nat
  tok : Token
  deriving DecidableEq, Repr

/-- The registers of a context page that software writes and reads (Table 12-9). -/
structure CtxRegs where
  fqbase : Word := 0
  fqwr : Word := 0
  fqrd : Word := 0
  eqbase : Word := 0
  eqwr : Word := 0
  eqrd : Word := 0
  eqlost : Word := 0
  crbase : Word := 0
  qbase : Word := 0
  qres : Word := 0
  scoperes : Word := 0
  trh : BitVec 32 := 0
  invdone : Word := 0
  deriving DecidableEq, Repr

/-- A context (R23, R264, R278, R281): whether it exists, its home port, VDMAP, PTROOT, its page, the Weir
registers (Table 10-4), the invalidations requested and not yet acknowledged, whether it is being destroyed. -/
structure Context where
  live : Bool := false
  home : Port := .a
  vdmap : BitVec 32 := 0
  ptroot : Word := 0
  regs : CtxRegs := {}
  weir : Vector Word 6 := #v[1, 8, 2, 64, 3, 0xFFFFFFFF]
  invals : List Word := []
  dying : Bool := false
  deriving DecidableEq, Repr

/-- Table 3-1. -/
inductive ScopeSt where
  | free | live | cancelling | done
  deriving DecidableEq, Repr

/-- Who created a scope (R53): the driver, a launch, a recipe frame; or gone. -/
inductive Creator where
  | driver
  | launch (l : Nat)
  | frame (f : Nat)
  | gone
  deriving DecidableEq, Repr

/-- A scope number (R52, R53, R58, R63): its context, parent, home, state, serial, CANC, the ticket that marked
it, whether it is marked for freeing, its creator. -/
structure Scope where
  ctx : Nat := 0
  parent : Option Nat := none
  home : Nat := 0
  st : ScopeSt := .free
  serial : BitVec 32 := 0
  canc : Bool := false
  ticket : Word := 0
  markFree : Bool := false
  creator : Creator := .gone
  deriving DecidableEq, Repr

/-- A cancellation that has been marked (R58-R62), under its ticket: the scopes marked, the tickets it must follow,
TSTART, the dies that have received the token and that have acknowledged, and the counts of its record. -/
structure Cancel where
  ctx : Nat := 0
  home : Nat := 0
  scope : Nat := 0
  marked : List Nat := []
  after : List Word := []
  tstart : Word := 0
  told : List Nat := []
  acked : List Nat := []
  /-- GTIME at the home when the latest acknowledgement arrived -/
  tdone : Word := 0
  killed : Nat := 0
  discarded : Nat := 0
  launches : Nat := 0
  packets : Nat := 0
  frames : Nat := 0
  atomics : Nat := 0
  barriers : Nat := 0
  hstrands : Nat := 0
  deriving DecidableEq, Repr

/-- Who awaits the reply of a cancel request (R58); `n`: the number of the request, by which the waiting CANCEL knows its own reply. -/
inductive Asker where
  | strand (core n : Nat)
  | walker (l : Nat)
  | machine
  deriving DecidableEq, Repr

/-- A cancel request on its way to a home (R58): the context of who asks, and the scope in whose subtree it must lie, where
there is one. -/
structure CancelReq where
  scope : Nat
  home : Nat
  by_ : Asker
  ctx : Nat
  root : Option Nat
  deriving DecidableEq, Repr

/-- The producer of a claimed slot (R48, R197, R207, R216, R240): the core, launch, operator and step of the strand,
its rectangle and scope, the tiles an OWNF.AUTO mark returns (first, count), the number of an FLCOLL within its group
(R216), and whether the slot was claimed as the launch's nest slot (R47). -/
structure Claim where
  slot : Nat
  core : Nat
  launch : Nat
  op : Nat
  n : Nat
  rect : BitVec 15
  osc : BitVec 16
  auto : Option (Nat × Nat) := none
  seq : Nat := 0
  nest : Bool := false
  deriving DecidableEq, Repr

/-- Where a launch stands (R28-R32, R45, R48, R50): parked in its parent, waiting for binding, running, being
pre-empted, pre-empted, ended with its status fixed, or stamped (the record then stays only as history). -/
inductive LaunchSt where
  | parked | binding | running | preempting | preempted | closing | stamped
  deriving DecidableEq, Repr

/-- What a stream walker does (R34, R35, R331): walks, waits on KEEP, has its KEEP wait ended, waits for a fault
handler at its record, waits for a cancellation (its request sent; its ticket known), waits at a home shard, waits at an
XFER of a DROPPED tensor (R240), has reached END, or was killed. -/
inductive WalkSt where
  | run
  | keep (n : Nat)
  | keepDone
  | faulted
  | cnclReq (wait : Bool)
  | cncl (ticket : Word)
  | home (req : Nat)
  | xfer (o : Nat)
  | ended
  | killed
  deriving DecidableEq, Repr

/-- The fields a launch packet gives (Table 2-2). -/
structure LaunchPkt where
  rect : BitVec 15 := 0
  scope : BitVec 16 := 0
  prio : BitVec 5 := 0
  stream : Word := 0
  fhe : Word := 0
  opbtab : Word := 0
  stamp : Word := 0
  condb : Word := 0
  savea : Word := 0
  deriving DecidableEq, Repr

/-- What awaits the end of a fault handler (R35, R242, R243): the walker at its record, a recipe frame at its
record, or a Weir request. -/
inductive HSrc where
  | walker
  | frame (f : Nat)
  | req (r : Nat)
  deriving DecidableEq, Repr

/-- A fault handler to dispatch (R35, R243). -/
structure Handler where
  cause : BitVec 8
  tval : Word
  src : HSrc
  deriving DecidableEq, Repr

/-- A launch taken from a queue (R28-R36, R45-R50). -/
structure Launch where
  ctx : Nat := 0
  queue : Nat := 0
  slot : Nat := 0
  die : Nat := 0
  pkt : LaunchPkt := {}
  parent : Option Nat := none
  level : Nat := 0
  st : LaunchSt := .stamped
  /-- dies whose share of the rectangle is bound -/
  shares : List Nat := []
  pc : Word := 0
  walk : WalkSt := .ended
  park : ParkSt := .run
  whiles : List (Word × BitVec 32) := []
  parked : List Nat := []
  /-- the status the stamp will carry, once something other than DONE is fixed -/
  status : Option (BitVec 8) := none
  nestBusy : Bool := false
  /-- operators entered so far (R357) -/
  entered : Nat := 0
  /-- fault handlers to dispatch, the first the one that runs once `hrun` is set (R35) -/
  handlers : List Handler := []
  hrun : Bool := false
  /-- OPR records issued outside recipe frames: the launch's position (R236) -/
  position : Nat := 0
  /-- GTIME at which its pre-emption began, for the order of re-binding (R45) -/
  preAt : Word := 0
  /-- strands stopped by a pre-emption (R299) -/
  saved : List SavedStrand := []
  /-- this child is lent its cores by its parent (R45, R49) -/
  lent : Bool := false
  /-- FLCOLL packets placed: core, group, how many (R216) -/
  colls : List (Nat × Nat × Nat) := []
  /-- FLCOLL packets that have ended: core, group, which, status (R216, R218) -/
  deadColls : List (Nat × Nat × Nat × BitVec 8) := []
  deriving DecidableEq, Repr

/-- The steps of an operator that target one core (R39, R44): the next step index, the rank that the steps from there on share,
since they became ready together, and the steps to dispatch again, each with its own rank (R42). -/
structure OpCore where
  core : Nat
  next : Nat
  rank : Rank := {}
  redo : List (Nat × Rank) := []
  deriving DecidableEq, Repr

/-- A loop of an OPB (Table 2-4). -/
structure Loop where
  ord : Nat
  tile : Nat
  extent : Nat
  deriving DecidableEq, Repr

/-- A scoreboard entry or a recipe frame's operator (R34, R37-R39, R241, R354): an XFER has no steps and names its
tensor in `ins`; `issueNo` orders operators by their issue. -/
structure Op where
  launch : Nat
  num : Nat
  frame : Option Nat := none
  tier : Option Nat := none
  prio : BitVec 5 := 0
  tclass : BitVec 4 := 0
  rect : BitVec 15 := 0
  scope : BitVec 16 := 0
  opb : Word := 0
  entry : Word := 0
  loops : List Loop := []
  ins : List (BitVec 32) := []
  outs : List (BitVec 32) := []
  issued : Bool := false
  issueNo : Nat := 0
  cores : List OpCore := []
  left : Nat := 0
  steps : Nat := 0
  /-- steps aborted under R42 that wait for a tensor: step index, tensor, rank -/
  held : List (Nat × Nat × Rank) := []
  deriving DecidableEq, Repr

/-- The two kinds of queue (R26, R211). -/
inductive QKind where
  | launch | flume
  deriving DecidableEq, Repr

/-- A queue of the shared number space, or a nest queue (R26, R211): its context, lead or engine die, LOGCAP and the
key of its header; the producers of slots claimed by strands; whether it stopped by OVERRUN or BADSTAMP. -/
structure QRec where
  kind : QKind := .launch
  ctx : Nat := 0
  die : Nat := 0
  logcap : Nat := 0
  base : Nat := 0
  claims : List Claim := []
  stopped : Bool := false
  deriving DecidableEq, Repr

/-! ### Flume packets in execution (R214) -/

/-- A layout record (Table 9-6), its index array as read at the packet's take. -/
structure Layout where
  kind : Nat := 0
  esz : Nat := 0
  ext : List Nat := []
  str : List Int := []
  idx : Word := 0
  vals : List Nat := []
  deriving DecidableEq, Repr

/-- A side of a packet: a base address or a tensor (its key in the Weir's table), and its layout. -/
structure Side where
  base : Word := 0
  tensor : Option Nat := none
  lay : Layout := {}
  deriving DecidableEq, Repr

/-- Where a taken packet stands in the tests of R359: at its form (a layout page is awaited), its not-before time, its
ranges and tensors, its units, its partners (FLCOLL), or with every write done. -/
inductive PPhase where
  | form | nbt | ranges | units | partners | complete
  deriving DecidableEq, Repr

/-- A packet in execution: the packet, its slot and producer, its phase and sides, elements and bytes done, the status
it will stamp, the installation of its circular buffer, its parking, the own-scratchpad ranges it touches (core, first
and last byte) and those among them that it writes, the tensors it pins, the request for a HOST-U byte of its next element (R273), the Weir request
it waits for, whether its queue is to be reset after it (R229), for an FLCOLL the bytes it is to write or to add, whether it stands
inside a unit (R214), and the status with which it is to stop at its next unit (R218). -/
structure PRun where
  ins : Instr
  slot : Nat
  claim : Option Claim
  phase : PPhase := .form
  src : Side := {}
  dst : Side := {}
  total : Nat := 0
  next : Nat := 0
  done : Nat := 0
  status : BitVec 8 := 1
  inst : Nat := 0
  park : ParkSt := .run
  data : List Byte := []
  spans : List (Nat × Nat × Nat) := []
  dspans : List (Nat × Nat × Nat) := []
  pins : List Nat := []
  req : Option Nat := none
  host : HostSt := .idle
  reset : Bool := false
  inUnit : Bool := false
  stopAs : Option (BitVec 8) := none
  deriving DecidableEq, Repr

/-! ### The Weir (R230-R244) -/

/-- STATE of a tensor record (Table 10-1). -/
inductive TSt where
  | free | cis | hbm | t2 | cmpCis | cmpHbm | dropped | cmpT2
  deriving DecidableEq, Repr

/-- A tensor record (Table 10-1): RBLD and USE are read off the frames, operators and packets. `inputs` are the
handles its recipe names, `refl` its reference launch, `byLoader` that the loader created it, `pages` what it occupies,
`move` a move in progress, `probe` a probe that is due. -/
structure Tensor where
  ctx : Nat := 0
  vdie : Nat := 0
  gen : BitVec 8 := 0
  st : TSt := .free
  rv : Bool := false
  pin : Bool := false
  cr : BitVec 8 := 255
  rlen : Nat := 0
  desc : Word := 0
  fmt : Nat := 0
  shape : List Nat := []
  size : Nat := 0
  loc : Word := 0
  recipe : Word := 0
  flops : Nat := 0
  uses : Word := 0
  ucnt : Nat := 0
  ucur : Nat := 0
  nud : BitVec 32 := 0
  inputs : List (BitVec 32) := []
  refl : Option Nat := none
  byLoader : Bool := false
  pages : Nat := 0
  move : Option TSt := none
  probe : Bool := false
  deriving DecidableEq, Repr

/-- Who references a tensor (R240, R243). -/
inductive WBy where
  | op (o : Nat)
  | packet (q : Nat)
  | walker (l : Nat)
  | shard
  deriving DecidableEq, Repr

/-- Where a Weir request stands: to be served, waiting for a frame, its tensor rebuilt, or reported to the fault
handler (R241, R243). -/
inductive WSt where
  | pending | waiting | ready | reported
  deriving DecidableEq, Repr

/-- A request at a home shard (R240, R241): the tensor, who references it, the requester (launch, depth, frame), its
scope and priority; whether it asks for storage only (R238). -/
structure WReq where
  t : Nat
  by_ : WBy
  launch : Nat
  depth : Nat
  frame : Option Nat
  scope : BitVec 16
  prio : BitVec 5
  place : Option TSt := none
  st : WSt := .pending
  deriving DecidableEq, Repr

/-- A recipe frame (R241); `pushed`: it has its place among the eight of its die's sequencer. -/
structure Frame where
  t : Nat
  launch : Nat
  die : Nat
  depth : Nat
  parent : Option Nat
  scope : BitVec 16
  prio : BitVec 5
  tier : TSt
  pc : Word
  left : Nat
  entered : Nat := 0
  walk : WalkSt := .run
  park : ParkSt := .run
  pushed : Bool := false
  deriving DecidableEq, Repr

/-! ### The management cores (R279-R281, R300-R303) -/

/-- DEVSTAT.STATE (Table 13-6). -/
inductive DevSt where
  | reset | boot | ready | maint | recovery
  deriving DecidableEq, Repr

/-- A host or fabric port (R274): whether its link is up, and the rate and width it trained to. -/
structure PortSt where
  up : Bool := false
  rate : Nat := 0
  width : Nat := 0
  deriving DecidableEq, Repr

/-- What the device answers over DOE (R303): no answer yet, or the named response; versions are 1.2 and 1.3, the only
algorithms ECDSA P-521 and SHA-512. -/
inductive Spdm where
  | none
  | version | capabilities | algorithms | digests | certificate | challengeAuth (nonce sig : Word)
  | measurement (index : Nat) (value : Word)
  | error
  deriving DecidableEq, Repr

/-- The management page (Table 12-8), DEVSTAT, the firmware slots and counters, the ports, the DOE mailboxes. -/
structure Mgmt where
  owner : Option Port := none
  last : BitVec 8 := 0
  vrefA : BitVec 16 := 0
  vrefB : BitVec 16 := 0
  ptmctl : Word := 0
  timerec : Word := 0
  /-- GTIME of XD0 at the last time record (R73) -/
  recAt : Word := 0
  fwres : BitVec 8 := 0
  fwver : BitVec 32 := 0
  slot : Nat := 0
  st : DevSt := .reset
  slots : Vector (Option FwImage) 2 := Vector.replicate 2 none
  /-- the slot marked to boot at the next reset -/
  active : Nat := 0
  staged : Bool := false
  rollback : BitVec 32 := 0
  firstBoot : Bool := false
  ports : Vector PortSt 4 := Vector.replicate 4 {}
  doe : Vector Spdm 2 := Vector.replicate 2 .none
  /-- what the CDAT mailboxes of ports A and B answered (R274) -/
  cdat : Vector (Option Word) 2 := Vector.replicate 2 none
  deriving DecidableEq, Repr

/-- A live map of an image (R296, R297): the registers it names, by class; park, and the conditional streams. -/
structure LiveMap where
  s : BitVec 32
  v : BitVec 48
  o : BitVec 8
  p : BitVec 24
  park : Bool
  cq : BitVec 8
  deriving DecidableEq, Repr

/-- Live map `n` of an image of a context, whose code lies from `lo` up to `hi` (R296). -/
structure LiveEntry where
  ctx : Nat
  lo : Nat
  hi : Nat
  n : Nat
  map : LiveMap
  deriving DecidableEq, Repr

/-- CLASS of a page (Table 9-1). -/
inductive Cls where
  | dev | t2 | hostC | hostU
  deriving DecidableEq, Repr

/-- What a translation finds in a leaf (R198). -/
structure Leaf where
  pa : Nat
  cls : Cls
  w : Bool
  x : Bool
  home : Nat
  hint : Bool
  size : Nat
  deriving DecidableEq, Repr

/-- A translation a compute die holds (R227): its context, its 4 KiB page (VA / 4096), the leaf with the page's first
byte as `pa`. -/
structure Cached where
  die : Nat
  ctx : Nat
  page : Nat
  leaf : Leaf
  deriving DecidableEq, Repr

/-- What the management cores log (R21, R72, R274, R292): the event and its numbers. -/
structure LogEv where
  name : String
  args : List Nat
  deriving DecidableEq, Repr

end Sys2Proof.Machine
end

