-- ==== Sys2Proof/Machine/State.lean ====
section
/-! DEFINITION. The state of the package as plain data, and the state right after package reset. -/
namespace Sys2Proof.Machine
open Sys2Proof

/-- Who moves in a step; an event of the package or of the outside moves for itself. `ring`: a core's ring, on whose behalf its array
asks for a line that the host holds (R276). -/
inductive Agent where
  | none
  | event (i : Instr)
  | strand (c : Nat)
  | queue (c : Nat) (q : VQ)
  | array (die n : Nat)
  | ring (c : Nat)
  | flume (q : Nat)
  | walker (l : Nat)
  | frame (f : Nat)
  deriving DecidableEq, Repr

/-- What the loader gives a shard for one tensor of an image (R121; DESIGN CHOICE, log entry 60): its handle; the address and
the bits of its descriptor, and the handles its recipe's records name; or, with `reserve`, the handle only. -/
structure LoadRec where
  h : BitVec 32
  desc : Word := 0
  fields : BitVec 512 := 0
  inputs : List (BitVec 32) := []
  reserve : Bool := false
  deriving DecidableEq, Repr

/-- A move of the package: an agent's step, an outside or internal event, the passing of time on dies (each in ns of
its GTIME) or of cycles on a core's control layer, a die's caching or dropping of a translation (R227), a core's fetching
ahead or dropping of an instruction line (R123, R124), the loader's supply of a live map (R296) or of the
tensor records (R121) of an image (DESIGN CHOICE, log entry 60), a request of the host at a CDAT mailbox (R274), or a write by the host. -/
inductive Move where
  | strand (c : Nat)
  | queue (c : Nat) (q : VQ)
  | array (die n : Nat)
  | flume (q : Nat)
  | walker (l : Nat)
  | frame (f : Nat)
  | time (xs : List (Nat × Nat))
  | cycles (c n : Nat)
  | event (i : Instr)
  | cache (die ctx va : Nat)
  | evict (die ctx va : Nat)
  | prefetch (core va : Nat)
  | dropLine (core va : Nat)
  | live (x : LiveEntry)
  | load (ctx : Nat) (recs : List LoadRec)
  | cdat (port : Port)
  | hostWrite (key : Nat) (bytes : List Byte)
  deriving DecidableEq, Repr

/-- A CXL Type 3 expander on port C or D (R285): its capacity in bytes, and whether it was removed or failed. -/
structure Expander where
  cap : Nat := 0
  failed : Bool := false
  deriving DecidableEq, Repr

/-- Memory and its line states: bytes (unlisted bytes read 0); the headers of the queues that exist, by the key of their
first byte (R211); poisoned bytes (R304); DEV lines held by the host (R276), those for which a BISnp is out,
and those the host returned to a device access that is still to be performed, with the agents that asked. -/
structure Mem where
  bytes : List Host.Cell := []
  heads : List Nat := []
  poison : List Nat := []
  held : List Nat := []
  snooped : List (Nat × Agent) := []
  owed : List (Nat × Agent) := []
  exps : Vector Expander 2 := Vector.replicate 2 {}
  deriving DecidableEq, Repr

/-- The Headgate shards (R52-R65): scopes by number, cancellations by ticket, requests on their way. -/
structure Headgate where
  scopes : SMap Scope := []
  cancels : SMap Cancel := []
  reqs : List CancelReq := []
  deriving DecidableEq, Repr

/-- Open fault records, launches, scoreboard entries, queues, and the packets in execution by their queue. -/
structure Work where
  /-- fault records posted whose verdict has not come (R283) -/
  fids : List FaultRec := []
  launches : SMap Launch := []
  ops : SMap Op := []
  queues : SMap QRec := []
  runs : SMap PRun := []
  deriving DecidableEq, Repr

/-- The Weir shards: tensor records (key: physical die * 2^20 + index), requests, recipe frames. -/
structure Weir where
  tensors : SMap Tensor := []
  reqs : SMap WReq := []
  frames : SMap Frame := []
  deriving DecidableEq, Repr

structure State where
  mem : Mem
  cores : SMap Core
  dies : SMap Die
  arrays : SMap Array
  bars : SMap Barrier
  chans : SMap Channel
  flight : List Flight
  ctxs : SMap Context
  tlb : List Cached
  hg : Headgate
  work : Work
  weir : Weir
  mgmt : Mgmt
  lives : List LiveEntry
  log : List LogEv
  harvest : BitVec 8
  sched : List Move
  agent : Agent
  cur : Nat
  fresh : Nat
  deriving DecidableEq, Repr

/-- A die right after package reset (R6, R12): eight sensors on a compute die, four on the others. -/
def Die.reset (d : Nat) : Die :=
  { sensors := List.replicate (if d < 8 then 8 else 4) {},
    mhz := if d < 8 then 1200 else if d < 16 then 1600 else 1000 }

/-- The record of a die's nest queue (R47): number 65536 + die, its storage apart from every address. -/
def QRec.nest (die : Nat) : QRec :=
  { kind := .launch, die := die, logcap := Config.nestLogCap, base := 2 ^ 58 + die * 2 ^ 24 }

/-- The management page and the ports right after package reset; slot 0 of the flash holds the image of manufacture. -/
def Mgmt.reset : Mgmt := { slots := #v[some { version := 0, sigOk := true }, none] }

/-- The package right after package reset (R300): the registers at the reset values the spec gives, the others at the values
that the assumption log names (DESIGN CHOICE, entries 1 and 5 to 10); nothing bound, no context, memory with nothing listed. -/
def State.reset : State :=
  { mem := {}, cores := [], dies := (List.range 18).map (fun d => (d, Die.reset d)), arrays := [], bars := [], chans := [],
    flight := [], ctxs := [], tlb := [], hg := {},
    work := { queues := (List.range 8).map (fun d => (65536 + d, QRec.nest d)) },
    weir := {}, mgmt := Mgmt.reset, lives := [], log := [], harvest := 0xFF, sched := [], agent := .none, cur := 0, fresh := 0 }

/-- Why the machine stops. -/
inductive Fault where
  /-- Raised by `step` where the schedule moves a unit the package does not have (a core, die, array or agent
  number out of range): there is no such unit, so the spec says nothing. Safe. -/
  | noSuchUnit
  deriving DecidableEq, Repr

/-- Why an instruction has no meaning. -/
inductive Refusal where
  /-- Answered by an arm of `exec` that has no meaning yet. Safe. -/
  | notModelled (mnemonic : String)
  deriving DecidableEq, Repr

end Sys2Proof.Machine
end

