-- ==== Sys2Proof/Machine/Mem.lean ====
section
/-! DEFINITION. Memory: physical keys, reading and writing bytes, address translation (R196-R199, R269) and the
checks of an access (R197, R205, R206, R276, R304). -/
namespace Sys2Proof.Machine
open Sys2Proof

def Cls.ofCode : Nat → Cls
  | 0 => .dev
  | 1 => .t2
  | 2 => .hostC
  | _ => .hostU

/-- The key of a host byte. -/
def hostKey (pa : Nat) : Nat := 2 ^ 56 + pa

/-- The key of a scratchpad byte: physical core, offset. -/
def spadKey (core off : Nat) : Nat := 2 ^ 57 + core * 2 ^ 21 + off

/-- The key of byte `off` of the storage of tensor unit `u` (R230). -/
def tensorKey (u off : Nat) : Nat := 2 ^ 110 + u * 2 ^ 100 + off

def Cls.key (c : Cls) (pa : Nat) : Nat :=
  match c with
  | .dev | .t2 => pa
  | .hostC | .hostU => hostKey pa

/-- What an unlisted byte reads as. -/
def memDefault : Byte := 0

def Mem.readByte (m : Mem) (key : Nat) : Byte := smGet memDefault key m.bytes

/-- One byte in canonical form; a write ends the byte's poison. -/
def Mem.setByte (m : Mem) (key : Nat) (b : Byte) : Mem :=
  { m with bytes := smSet memDefault key b m.bytes, poison := m.poison.filter (fun k => !(k == key)) }

/-- The bytes of a queue header that only the device writes: RIDX, KSTOP, STATE, REFCNT and LOGCAP are RO, bytes 29-63
RZ (Table 9-5). -/
def Mem.fixed (m : Mem) (key : Nat) : Bool := m.heads.any (fun h => decide (h + 8 ≤ key) && decide (key < h + 64))

/-- Writes one byte; a byte of a queue header that is RO or RZ ignores the write (R3, R4). -/
def Mem.writeByte (m : Mem) (key : Nat) (b : Byte) : Mem := if m.fixed key then m else m.setByte key b

/-- n bytes from a key, least significant first. -/
def Mem.readBytes (m : Mem) : Nat → Nat → List Byte
  | _, 0 => []
  | key, n + 1 => m.readByte key :: m.readBytes (key + 1) n

/-- The little-endian value of n bytes (R2). -/
def Mem.readNat (m : Mem) : Nat → Nat → Nat
  | _, 0 => 0
  | key, n + 1 => (m.readByte key).toNat + 256 * m.readNat (key + 1) n

/-- Writes the n low bytes of a value, little-endian (R2). -/
def Mem.writeNat (m : Mem) : Nat → Nat → Nat → Mem
  | _, 0, _ => m
  | key, n + 1, x => (m.writeByte key (BitVec.ofNat 8 x)).writeNat (key + 1) n (x / 256)

/-- The device's own write of n bytes of a queue header. -/
def Mem.setNat (m : Mem) : Nat → Nat → Nat → Mem
  | _, 0, _ => m
  | key, n + 1, x => (m.setByte key (BitVec.ofNat 8 x)).setNat (key + 1) n (x / 256)

def Mem.writeBytes (m : Mem) : Nat → List Byte → Mem
  | _, [] => m
  | key, b :: bs => (m.writeByte key b).writeBytes (key + 1) bs

/-- Memory's canonical form. -/
abbrev memWf (m : Mem) : Prop := smSorted none m.bytes = true ∧ smNoDefault memDefault m.bytes = true

/-- Whether any of n bytes from a key is poisoned. -/
def Mem.poisoned (m : Mem) (key n : Nat) : Bool :=
  m.poison.any (fun k => decide (key ≤ k) && decide (k < key + n))

/-- The first DEV line of n bytes from a key that the host holds (R276). -/
def Mem.heldLine (m : Mem) (key n : Nat) : Option Nat :=
  m.held.find? (fun l => decide (l * 128 < key + n) && decide (key < l * 128 + 128))

/-- Bits hi..lo of a number. -/
def nbits (x lo n : Nat) : Nat := (x >>> lo) % 2 ^ n

/-- The kinds of access of Table 9-7; `part`: a read whose instruction tests for itself which of the bytes it reads are
uncorrectable (R91, R166, R344). -/
inductive AccKind where
  | read | part | write | fetch | atomic
  deriving DecidableEq, Repr

def AccKind.code : AccKind → BitVec 8
  | .read | .part => 0
  | .write => 1
  | .fetch => 2
  | .atomic => 3

/-- The access meets an uncorrectable error in any of its bytes (R304). -/
def AccKind.meets : AccKind → Bool
  | .write | .part => false
  | _ => true

/-- The outcomes of R199; `ecc`: an entry has an uncorrectable error (R304); `held`: a table's line is in the host's hands
(R276). -/
inductive TRes where
  | ok (l : Leaf)
  | absent
  | prot
  | ecc
  | held (line : Nat)
  deriving DecidableEq, Repr

/-- A reserved bit of an entry (Table 9-1). -/
def pteReserved (e : Nat) : Bool := decide (nbits e 63 1 ≠ 0) || decide (nbits e 56 3 ≠ 0) || decide (nbits e 7 5 ≠ 0)

/-- A non-leaf entry has V and PFN only (R198); that one with another of the fields R198 has zero is a protection fault is the model's
choice (DESIGN CHOICE, log entry 94). -/
def pteNonLeafOk (e : Nat) : Bool := decide (e % 2 ^ 12 = 1) && decide (nbits e 56 8 = 0)

/-- A CONTIG group is uniform: 16 entries like the first, PFNs rising from an aligned frame (R198). -/
def contigOk (m : Mem) (group : Nat) : Bool :=
  let e0 := m.readNat group 8
  decide (nbits e0 12 4 = 0) &&
    (List.range 16).all (fun j => decide (m.readNat (group + 8 * j) 8 = e0 + j * 2 ^ 12))

/-- The physical address range of a class (Table 12-4), T2's by the memory that backs it. -/
def paBacked (m : Mem) (c : Cls) (pa : Nat) : Bool :=
  match c with
  | .dev => decide (pa ≤ 0xBFFFFFFFFF)
  | .t2 =>
    let off := pa - 0x10000000000
    let tib := 2 ^ 40
    let capC := (m.exps.get 0).cap
    let capD := (m.exps.get 1).cap
    decide (0x10000000000 ≤ pa) && decide (off < 16 * tib) &&
      (decide (off < 6 * tib) || decide (off - 6 * tib < capC + capD))
  | .hostC | .hostU => decide (pa < 2 ^ 56)

/-- h of a line (R270): the exclusive OR of the eleven 3-bit groups of PA[39:7]. -/
def lineHash (pa : Nat) : Nat := (List.range 11).foldl (fun h j => h ^^^ nbits pa (7 + 3 * j) 3) 0

/-- The die that stores a line (R269, R270): MDh for DEV, the I/O die of its LPDDR-6 or its expander's port for T2; host
memory lies behind none. -/
def storingDie (m : Mem) (c : Cls) (pa : Nat) : Option Nat :=
  match c with
  | .dev => some (8 + lineHash pa)
  | .t2 =>
    let tib := (pa - 0x10000000000) / 2 ^ 40
    if tib < 3 then some 16 else if tib < 6 then some 17
    else if (pa - 0x10000000000) - 6 * 2 ^ 40 < (m.exps.get 0).cap then some 16 else some 17
  | .hostC | .hostU => none

/-- Whether an address lies in the range of an expander that was removed or failed (R285). -/
def expanderLost (m : Mem) (c : Cls) (pa : Nat) : Bool :=
  match c with
  | .t2 =>
    let off := pa - 0x10000000000
    let x := off - 6 * 2 ^ 40
    decide (6 * 2 ^ 40 ≤ off) &&
      (if x < (m.exps.get 0).cap then (m.exps.get 0).failed else (m.exps.get 1).failed)
  | _ => false

/-- A leaf at level lv (R198, R199, R269). -/
def leafRes (m : Mem) (tbl va lv e : Nat) : TRes :=
  let pfn := nbits e 12 44
  let cls := Cls.ofCode (nbits e 5 2)
  let contig := decide (nbits e 4 1 = 1)
  let home := nbits e 60 3
  let hint := decide (nbits e 59 1 = 1)
  let idx := nbits va (12 + 9 * lv) 9
  let bits := 12 + 9 * lv
  let pa := pfn * 2 ^ 12 / 2 ^ bits * 2 ^ bits + va % 2 ^ bits
  let bad := pteReserved e || decide (2 < lv) || (contig && decide (lv ≠ 0)) ||
    decide (pfn % 2 ^ (9 * lv) ≠ 0) ||
    (contig && !contigOk m (tbl + 8 * (idx / 16 * 16))) ||
    (decide (cls ≠ .dev) && (hint || decide (home ≠ 0))) || !paBacked m cls pa
  if bad then .prot
  else .ok { pa := pa, cls := cls, w := nbits e 2 1 == 1, x := nbits e 3 1 == 1, home := home, hint := hint,
             size := if contig then 1 else if lv = 0 then 0 else lv + 1 }

/-- The walk from level lv - 1 down (R198); `tbl` is the key of the table. -/
def walk (m : Mem) (host : Bool) (va : Nat) : Nat → Nat → TRes
  | 0, _ => .prot
  | lv + 1, tbl =>
    let at_ := tbl + 8 * nbits va (12 + 9 * lv) 9
    match m.heldLine at_ 8 with
    | some l => .held l
    | none =>
      let e := m.readNat at_ 8
      if m.poisoned at_ 8 then .ecc
      else if e % 2 = 0 then .absent
      else if nbits e 1 1 = 1 then leafRes m tbl va lv e
      else if lv = 0 || !pteNonLeafOk e then .prot
      else walk m host va lv ((if host then hostKey else id) (nbits e 12 44 * 2 ^ 12))

/-- Translation of a virtual address through a context's page tables (R198, R281 PTROOT). -/
def translate (m : Mem) (ptroot : Word) (va : Nat) : TRes :=
  let host := decide (nbits ptroot.toNat 5 2 = 2)
  walk m host va 5 ((if host then hostKey else id) (nbits ptroot.toNat 12 44 * 2 ^ 12))

/-- R199 for an access: W for writes and atomics, X for fetches. -/
def TRes.permit (k : AccKind) : TRes → TRes
  | .ok l =>
    match k with
    | .read | .part => .ok l
    | .write | .atomic => if l.w then .ok l else .prot
    | .fetch => if l.x then .ok l else .prot
  | r => r

/-- Trap and fault causes (Table 13-1). -/
def cIllegal : BitVec 8 := 0x01
def cBadTarget : BitVec 8 := 0x02
def cLayerSpan : BitVec 8 := 0x03
def cMisalign : BitVec 8 := 0x04
def cPageFault : BitVec 8 := 0x05
def cAtype : BitVec 8 := 0x06
def cDfault : BitVec 8 := 0x07
def cSubn : BitVec 8 := 0x08
def cQfault : BitVec 8 := 0x09
def cRecipeDepth : BitVec 8 := 0x0A
def cOwner : BitVec 8 := 0x0B
def cPark : BitVec 8 := 0x0C
def cRect : BitVec 8 := 0x0D
def cTrap : BitVec 8 := 0x0E
def cEcc : BitVec 8 := 0x0F
def cTsync : BitVec 8 := 0x10
def cTokStall : BitVec 8 := 0x11
def cCqFull : BitVec 8 := 0x12
def cMfmt : BitVec 8 := 0x13
def cTileLent : BitVec 8 := 0x14
def cNoRoom : BitVec 8 := 0x15
def cTileCtx : BitVec 8 := 0x16

/-- The local window (R196). -/
def inWindow (a : Nat) : Bool := decide (0x00FFFF0000000000 ≤ a) && decide (a ≤ 0x00FFFFFFFFFFFFFF)

def windowBase : Nat := 0x00FFFF0000000000

/-- Who accesses: context, die, own core, rectangle, and the owner value its tiles need (none: exempt) (R197, R206). -/
structure Who where
  ctx : Nat
  die : Nat
  core : Option Nat
  rect : BitVec 15
  owner : Option Nat
  deriving DecidableEq, Repr

/-- Defaults of the sparse maps. -/
def State.core (s : State) (c : Nat) : Core := smGet {} c s.cores
def State.setCore (s : State) (c : Nat) (x : Core) : State := { s with cores := smPut c x s.cores }
def State.die (s : State) (d : Nat) : Die := smGet {} d s.dies
def State.setDie (s : State) (d : Nat) (x : Die) : State := { s with dies := smPut d x s.dies }
def State.array (s : State) (a : Nat) : Array := smGet {} a s.arrays
def State.setArray (s : State) (a : Nat) (x : Array) : State := { s with arrays := smPut a x s.arrays }
def State.bar (s : State) (b : Nat) : Barrier := smGet {} b s.bars
def State.setBar (s : State) (b : Nat) (x : Barrier) : State := { s with bars := smPut b x s.bars }
def State.chan (s : State) (b : Nat) : Channel := smGet {} b s.chans
def State.setChan (s : State) (b : Nat) (x : Channel) : State := { s with chans := smPut b x s.chans }
def State.ctx (s : State) (c : Nat) : Context := smGet {} c s.ctxs
def State.setCtx (s : State) (c : Nat) (x : Context) : State := { s with ctxs := smPut c x s.ctxs }
def State.scope (s : State) (n : Nat) : Scope := smGet {} n s.hg.scopes
def State.setScope (s : State) (n : Nat) (x : Scope) : State :=
  { s with hg := { s.hg with scopes := smPut n x s.hg.scopes } }

/-- The physical die of virtual die v in a context (R264). -/
def vdieOf (vdmap : BitVec 32) (v : Nat) : Option Nat :=
  if 8 ≤ v then none
  else
    let e := nbits vdmap.toNat (4 * v) 4
    if 8 ≤ e then some (e - 8) else none

/-- The virtual die bound to physical die p, if any. -/
def selfDie (vdmap : BitVec 32) (p : Nat) : Option Nat :=
  (List.range 8).find? (fun v => vdieOf vdmap v == some p)

/-- Rectangle fields (Table 2-1). -/
def rectX (r : BitVec 15) : Nat := nbits r.toNat 0 5
def rectY (r : BitVec 15) : Nat := nbits r.toNat 5 4
def rectLW (r : BitVec 15) : Nat := nbits r.toNat 9 3
def rectLH (r : BitVec 15) : Nat := nbits r.toNat 12 3

/-- The physical core at package coordinates (R9, R10). -/
def coreAt (vdmap : BitVec 32) (x y : Nat) : Option Nat :=
  match vdieOf vdmap (y / 8 * 4 + x / 8) with
  | some p => some (p * 64 + y % 8 * 8 + x % 8)
  | none => none

/-- The role in force of bank b is scratchpad (R201). -/
def bankIsSpad (role : BitVec 64) (b : Nat) : Bool := decide (nbits role.toNat (2 * b) 2 = 0)

/-- The owner of tile t (R206). -/
def tileOwner (owners : BitVec 1024) (t : Nat) : Nat := nbits owners.toNat (2 * t) 2

/-- Every item from lo to hi satisfies p. -/
def allFrom (p : Nat → Bool) : Nat → Nat → Bool
  | _, 0 => true
  | lo, n + 1 => p lo && allFrom p (lo + 1) n

/-- The items between two indices inclusive. -/
def allBetween (p : Nat → Bool) (lo hi : Nat) : Bool := allFrom p lo (hi + 1 - lo)

/-- The outcome of checking an access: the key of its first byte, a fault, a page that is not present, or a line the
host holds. -/
inductive Acc where
  | ok (key : Nat) (cls : Option Cls)
  | fault (cause : BitVec 8) (va : Word)
  | absent (va : Word)
  | held (line : Nat)
  deriving DecidableEq, Repr

/-- The core and offset that a local-window address names (R197); none: RECT. -/
def windowTarget (s : State) (w : Who) (a : Nat) : Option (Nat × Nat) :=
  let off := a % 2 ^ 21
  if nbits a 39 1 = 1 then
    if nbits a 21 18 = 0 then w.core.map (fun c => (c, off)) else none
  else
    let rx := nbits a 32 5
    let ry := nbits a 28 4
    if nbits a 37 2 = 0 ∧ nbits a 21 7 = 0 ∧ rx < 2 ^ rectLW w.rect ∧ ry < 2 ^ rectLH w.rect then
      (coreAt (s.ctx w.ctx).vdmap (rectX w.rect + rx) (rectY w.rect + ry)).map (fun c => (c, off))
    else none

/-- An access of n bytes in the local window (R197, R205, R206, R304). -/
def checkWindow (s : State) (w : Who) (k : AccKind) (a n : Nat) : Acc :=
  let va := BitVec.ofNat 64 a
  match windowTarget s w a with
  | none => .fault cRect va
  | some (c, off) =>
    let b := (s.core c).banks
    if 2 ^ 21 < off + n then .fault cLayerSpan va
    else if !allBetween (bankIsSpad b.roleF) (off / 2 ^ 16) ((off + n - 1) / 2 ^ 16) then .fault cLayerSpan va
    else if !(match w.owner with
        | none => true
        | some o => allBetween (fun t => tileOwner b.owners t == o) (off / 4096) ((off + n - 1) / 4096)) then
      .fault cOwner va
    else
      let key := spadKey c off
      if k.meets && s.mem.poisoned key n then .fault cEcc va else .ok key none

/-- The translation a die holds for an address (R227). -/
def cachedLeaf (s : State) (ctx die a : Nat) : Option Leaf :=
  (s.tlb.find? (fun e => e.die == die && e.ctx == ctx && e.page == a / 4096)).map
    (fun e => { e.leaf with pa := e.leaf.pa + a % 4096 })

/-- Translation on a die: the translation it holds, else a walk (R198, R227). -/
def translateOn (s : State) (ctx die a : Nat) : TRes :=
  match cachedLeaf s ctx die a with
  | some l => .ok l
  | none => translate s.mem (s.ctx ctx).ptroot a

/-- A die drops the translation of an address. -/
def dropCached (s : State) (die ctx a : Nat) : State :=
  { s with tlb := s.tlb.filter (fun e => !(e.die == die && e.ctx == ctx && e.page == a / 4096)) }

/-- A compute die caches the translation of an address that is present (R227, R275). -/
def fillCached (s : State) (die ctx a : Nat) : State :=
  match translate s.mem (s.ctx ctx).ptroot a with
  | .ok l =>
    let s := dropCached s die ctx a
    { s with tlb := { die := die, ctx := ctx, page := a / 4096, leaf := { l with pa := l.pa - a % 4096 } } :: s.tlb }
  | _ => s

/-- An access of n bytes at a virtual address, within one page (R199, R269, R276, R285, R304). -/
def checkVirtual (s : State) (w : Who) (k : AccKind) (a n : Nat) : Acc :=
  let va := BitVec.ofNat 64 a
  match (translateOn s w.ctx w.die a).permit k with
  | .absent => .absent va
  | .prot => .fault cPageFault va
  | .ecc => .fault cEcc va
  | .held l => .held l
  | .ok l =>
    let key := l.cls.key l.pa
    if expanderLost s.mem l.cls l.pa then .fault cEcc va
    else match (if l.cls = .dev then s.mem.heldLine key n else none) with
      | some line => .held line
      | none =>
        if k.meets && s.mem.poisoned key n then .fault cEcc va else .ok key (some l.cls)

/-- The checks of an access of n bytes that does not leave its page (R196, R322, R332, R344). -/
def checkAccess (s : State) (w : Who) (k : AccKind) (a : Word) (n : Nat) : Acc :=
  let x := a.toNat
  if 2 ^ 57 ≤ x then .fault cPageFault a
  else if inWindow x then checkWindow s w k x n
  else if inWindow (x + n - 1) then .fault cLayerSpan a
  else checkVirtual s w k x n

/-- The home of the line a leaf names (R270): MDh, and MD(HOME) for a DEV page with HINT = 1; for host memory, the I/O die
of the context's home port (R278). -/
def homeOf (s : State) (ctx : Nat) (l : Leaf) : Nat :=
  match l.cls with
  | .dev => if l.hint then 8 + l.home else 8 + lineHash l.pa
  | .t2 => 8 + lineHash l.pa
  | .hostC | .hostU =>
    if (s.ctx ctx).home = .b then 17 else 16

/-- The die at which an access to a key is performed: the core's die for a scratchpad, the home for a virtual address. -/
def targetDie (s : State) (w : Who) (a : Word) (key : Nat) : Nat :=
  if inWindow a.toNat then (key - 2 ^ 57) / 2 ^ 21 / 64
  else match translateOn s w.ctx w.die a.toNat with
    | .ok l => homeOf s w.ctx l
    | _ => w.die

/-- A fresh number, and the state with the counter advanced. -/
def State.tick (s : State) : Nat × State := (s.fresh, { s with fresh := s.fresh + 1 })

/-- Whose access a move makes: an event of a packet in execution makes its engine's (R214). -/
def Agent.own : Agent → Agent
  | .event (.packetUnitDone q) | .event (.packetComplete q) | .event (.notBeforeExpiry q) | .event (.cbSlotDeliver q)
  | .event (.collectiveForm q) => .flume q
  | a => a

/-- Sends BISnp for a line that the host holds (R276); the access of the agent that moves waits. -/
def sendSnoop (s : State) (line : Nat) : State :=
  let a := s.agent.own
  if s.mem.snooped.contains (line, a) then s
  else { s with mem := { s.mem with snooped := (line, a) :: s.mem.snooped } }

/-- Agent a has performed its access, unless it waits for another line: the lines returned to it may be taken
again (R276). -/
def State.unowe (s : State) (a : Agent) : State :=
  if s.mem.owed.isEmpty || s.mem.snooped.any (fun x => x.2 == a) then s
  else { s with mem := { s.mem with owed := s.mem.owed.filter (fun x => x.2 != a) } }

/-! ### Causal stamps (R253) -/

/-- The later of two counters, compared modulo 2^48 within a window of 2^47 (R253). -/
def laterCount (a b : BitVec 48) : BitVec 48 := if (b - a).toNat < 2 ^ 47 then b else a

/-- Elementwise the later of two stamps. -/
def laterStamp (a b : Vector (BitVec 48) 18) : Vector (BitVec 48) 18 := Vector.zipWith laterCount a b

/-- A stamp is merged into a die's (R68, R253). -/
def mergeStamp (s : State) (die : Nat) (v : Vector (BitVec 48) 18) : State :=
  let d := s.die die
  s.setDie die { d with stamp := laterStamp d.stamp v }

/-- A write leaves die `src` for die `dst` with the causal stamp, whose own counter it advances (R253; DESIGN CHOICE, log
entry 56). -/
def sendStamp (s : State) (src dst : Nat) : State :=
  if src = dst then s
  else
    let d := s.die src
    let v := d.stamp.setIfInBounds src (d.stamp.toList.getD src 0 + 1)
    let s := s.setDie src { d with stamp := v }
    let h := s.die dst
    s.setDie dst { h with seen := laterStamp h.seen v }

/-- An acquire on a die of what has reached the dies `from_` (R253). -/
def takeStamps (s : State) (die : Nat) (from_ : List Nat) : State :=
  from_.foldl (fun s h => mergeStamp s die (s.die h).seen) s

end Sys2Proof.Machine
end

