-- ==== Sys2Proof/Machine/Ops.lean ====
section
/-! DEFINITION. The named operations over registers, the position of a strand, taking a trap and returning from
one, ending a strand, and the kill test. -/
namespace Sys2Proof.Machine
open Sys2Proof

/-- The outcome of a step or a meaning. -/
abbrev Out := Host.Outcome State Fault Refusal

/-- The core that moves; 0 where no core does. -/
def Agent.coreOf : Agent → Nat
  | .strand c => c
  | .queue c _ => c
  | _ => 0

def State.me (s : State) : Nat := s.agent.coreOf

/-- The physical die of a core (R10). -/
def dieOfCore (c : Nat) : Nat := c / 64

/-- The quad position of a core (R86). -/
def quadPos (c : Nat) : Nat := c % 2 + 2 * (c / 8 % 2)

/-- The array a core's quad shares, numbered die x 16 + j x 4 + i (R10). -/
def arrayOf (c : Nat) : Nat := c / 64 * 16 + c / 16 % 4 * 4 + c / 2 % 4

/-- The core at quad position q of array a (R10, R86). -/
def quadCore (a q : Nat) : Nat := a / 16 * 64 + (2 * (a % 16 / 4) + q / 2) * 8 + 2 * (a % 4) + q % 2

def State.th (s : State) (c : Nat) : Thread := (s.core c).th
def State.setTh (s : State) (c : Nat) (t : Thread) : State := s.setCore c { s.core c with th := t }
def State.launch (s : State) (l : Nat) : Launch := smGet {} l s.work.launches
def State.setLaunch (s : State) (l : Nat) (x : Launch) : State :=
  { s with work := { s.work with launches := smPut l x s.work.launches } }
def State.queue (s : State) (q : Nat) : Option QRec := smFind q s.work.queues
def State.setQueue (s : State) (q : Nat) (x : QRec) : State :=
  { s with work := { s.work with queues := smPut q x s.work.queues } }

/-! ### Registers -/

/-- S[n] with its D bit; s0 reads as zero (R86). -/
def Thread.rdS (t : Thread) (n : BitVec 5) : SReg := if n = 0#5 then {} else t.regs.s.get n.toFin

/-- A write to a scalar register; a write to s0 is discarded (R86, R306). -/
def Thread.wrS (t : Thread) (n : BitVec 5) (v : Word) (d : Bool) : Thread :=
  if n = 0#5 then t
  else { t with regs := { t.regs with s := t.regs.s.set n.toNat { val := v, d := d } n.isLt } }

/-- The physical vector code of a logical one (R89): rotating registers map under ROT.VB. -/
def mapV (vb : BitVec 5) (n : BitVec 6) : BitVec 6 :=
  if 16 ≤ n.toNat ∧ n.toNat ≤ 47 then BitVec.ofNat 6 (16 + (n.toNat - 16 + 32 - vb.toNat) % 32) else n

/-- The physical predicate of a logical one (R89). -/
def mapP (pb : BitVec 4) (n : BitVec 5) : BitVec 5 :=
  if 8 ≤ n.toNat ∧ n.toNat ≤ 23 then BitVec.ofNat 5 (8 + (n.toNat - 8 + 16 - pb.toNat) % 16) else n

/-- A 32-bit literal repeated 64 times (R127). -/
def litRep : Nat → BitVec 32 → Nat
  | 0, _ => 0
  | n + 1, x => litRep n x * 2 ^ 32 + x.toNat

def litVec (x : BitVec 32) : VReg := BitVec.ofNat 2048 (litRep 64 x)

/-- A vector source by physical code (Table 4-4); `lit` is the literal word. -/
def Regs.rdV (r : Regs) (n : BitVec 6) (lit : BitVec 32) : VCell :=
  if h : n.toNat < 48 then r.v.get ⟨n.toNat, h⟩
  else if h : n.toNat - 48 < 8 then r.o.get ⟨n.toNat - 48, h⟩
  else if n.toNat = 56 then r.lr
  else if n.toNat = 58 then { val := litVec lit }
  else {}

/-- A vector destination by physical code (Table 4-4); a write to vz is discarded. -/
def Regs.wrV (r : Regs) (n : BitVec 6) (x : VCell) : Regs :=
  if h : n.toNat < 48 then { r with v := r.v.set n.toNat x h }
  else if h : n.toNat - 48 < 8 then { r with o := r.o.set (n.toNat - 48) x h }
  else if n.toNat = 56 then { r with lr := x }
  else r

/-- A predicate by physical number; p0 reads as all ones with D clear (R86). -/
def Regs.rdP (r : Regs) (n : BitVec 5) : PCell :=
  if n = 0#5 then { val := BitVec.allOnes 256 }
  else if h : n.toNat < 24 then r.p.get ⟨n.toNat, h⟩
  else {}

/-- A write to p0 is discarded (R86). -/
def Regs.wrP (r : Regs) (n : BitVec 5) (x : PCell) : Regs :=
  if n = 0#5 then r
  else if h : n.toNat < 24 then { r with p := r.p.set n.toNat x h }
  else r

/-! ### VMODE and the control registers kept as words -/

def vmEt (vm : Word) : Et := (Et.ofCode (nbits vm.toNat 0 4)).getD .fp32
def vmRm (vm : Word) : Rm := Rm.ofBits (vm.extractLsb' 4 2)
def vmPg0 (vm : Word) : BitVec 5 := vm.extractLsb' 8 5
def vmPg1 (vm : Word) : BitVec 5 := vm.extractLsb' 16 5
def vmSat (vm : Word) : Bool := vm.getLsbD 24

/-- A masked write of VMODE (R97): reserved ET and PG values leave their field unchanged. -/
def vmodeWrite (old new : Word) (mask : BitVec 5) : Word :=
  let et : BitVec 4 := if mask.getLsbD 0 && decide ((new.extractLsb' 0 4).toNat ≤ 10) then new.extractLsb' 0 4
    else old.extractLsb' 0 4
  let rm : BitVec 2 := if mask.getLsbD 1 then new.extractLsb' 4 2 else old.extractLsb' 4 2
  let g0 : BitVec 5 := if mask.getLsbD 2 && decide ((new.extractLsb' 8 5).toNat ≤ 23) then new.extractLsb' 8 5
    else old.extractLsb' 8 5
  let g1 : BitVec 5 := if mask.getLsbD 3 && decide ((new.extractLsb' 16 5).toNat ≤ 23) then new.extractLsb' 16 5
    else old.extractLsb' 16 5
  let sat : BitVec 1 := if mask.getLsbD 4 then new.extractLsb' 24 1 else old.extractLsb' 24 1
  0#39 ++ sat ++ 0#3 ++ g1 ++ 0#3 ++ g0 ++ 0#2 ++ rm ++ et

/-! ### The position of the control core -/

/-- The return address: parcel LEN of the block (R306). -/
def Pos.ret (p : Pos) : Word := p.hdr + 2 * p.len.zeroExtend 64

/-- Past n parcels: within the pass, at the next pass, or at the parcel after the block (R85). -/
def Pos.advance (p : Pos) (n : Nat) : Pos :=
  let pc' := p.pc + BitVec.ofNat 64 (2 * n)
  if pc' = p.ret then
    if p.rpt = 0#11 then { p with pc := pc', atHdr := true }
    else { p with pc := p.hdr + 4, rpt := p.rpt - 1, passStart := true }
  else { p with pc := pc' }

/-- The instruction that follows n parcels on in the block, or the parcel after it: TRAP's TPC (R293; DEDUCED, log entry 50). -/
def Pos.follow (p : Pos) (n : Nat) : Pos := { p with pc := p.pc + BitVec.ofNat 64 (2 * n), passStart := false }

/-- A taken branch: the target must be a block header (R85). -/
def Pos.branch (p : Pos) (target : Word) : Pos :=
  { p with pc := target, atHdr := true, passStart := false }

def Thread.advance (t : Thread) (n : Nat) : Thread := { t with pos := t.pos.advance n }
def Thread.branch (t : Thread) (target : Word) : Thread := { t with pos := t.pos.branch target }

/-- The strand of core c goes on to the instruction after this one of n parcels. -/
def State.advance (s : State) (c n : Nat) : State := s.setTh c ((s.th c).advance n)

/-! ### Cancellation at kill points -/

/-- Whether a die has received the cancel token of a cancellation that marks the scope (R59, R60). -/
def cancelledOn (s : State) (die : Nat) (scope : BitVec 16) : Option Nat :=
  (s.hg.cancels.find? (fun k => k.2.marked.contains scope.toNat && k.2.told.contains die)).map (fun k => k.1)

/-- The strand of core c is to end at a kill point (R60, R64): its scope is cancelled, or DONE, and it is no dispatched fault
handler. -/
def killedStrand (s : State) (c : Nat) : Option Nat :=
  let t := s.th c
  if t.trap.kind = 1#2 then none
  else match cancelledOn s (dieOfCore c) t.job.osc with
    | some k => some k
    | none =>
      let x := s.scope t.job.osc.toNat
      if x.st = .done then some x.ticket.toNat else none

/-- Counts in a cancellation's record. -/
def State.updCancel (s : State) (k : Nat) (f : Cancel → Cancel) : State :=
  match smFind k s.hg.cancels with
  | none => s
  | some x => { s with hg := { s.hg with cancels := smPut k (f x) s.hg.cancels } }

/-! ### Ending a strand -/

/-- A withdrawn arrival gives its count back (R260). -/
def withdrawArrival (s : State) (t : Thread) : State :=
  match t.job.wait with
  | .bar key scope =>
    let b := s.bar key
    s.setBar key { b with entries := b.entries.map (fun e =>
      if e.scope = scope ∧ e.left.toNat < e.count.toNat then { e with left := e.left + 1 } else e) }
  | _ => s

/-- Park slots counted at routing by instructions that have not begun are given back (R95, VPARK entry). -/
def parkBack : List QEntry → BitVec 10 → BitVec 10
  | [], d => d
  | e :: es, d =>
    match e.ins with
    | .vpark _ => parkBack es (d - 1)
    | .vunpark _ => parkBack es (d + 1)
    | _ => parkBack es d

/-- What the end of a step does to its operator or, for a dispatched fault handler, to its launch's list of handlers
(R35, R39, R41). -/
def endJob (s : State) (t : Thread) : State :=
  if t.trap.kind = 1#2 then
    let x := s.launch t.job.launch
    s.setLaunch t.job.launch { x with handlers := x.handlers.drop 1, hrun := false }
  else match smFind t.job.op s.work.ops with
    | none => s
    | some o => { s with work := { s.work with ops := smPut t.job.op { o with left := o.left - 1 } s.work.ops } }

/-- VS has a store on its way to the host, or the ring a command that asks the host (R273): each has begun, and completes before the
strand ends (R61). -/
def Core.sending (k : Core) : Bool := k.th.q.vs.host != .idle || k.ring.begun.isSome

/-- The queues of a strand that ends or is aborted: what they hold is discarded (R42, R60, R61). -/
def VQueue.dropped (q : VQueue) : VQueue := { q with held := [], park := .run, host := .idle, halted := false }

/-- A strand leaves its core (R41, R42, R60): its instructions are discarded, its mark of OWNF.AUTO is dropped (R207). -/
def Core.vacate (k : Core) : Core :=
  let t := k.th
  let q := { t.q with vl := t.q.vl.dropped, va := t.q.va.dropped, vs := t.q.vs.dropped, faults := [] }
  let job := { t.job with run := .idle, wait := .none, park := .run, host := .idle, code := .idle }
  { k with th := { t with q := q, job := job },
           ring := { k.ring with begun := none, host := .idle },
           banks := { k.banks with auto := none, depth := parkBack t.q.va.held k.banks.depth } }

/-- The die whose sequencer issued an operator: that of its recipe frame, or the lead die of its launch (R34, R241). -/
def opDie (s : State) (x : Op) : Nat :=
  ((x.frame.bind (fun f => smFind f s.weir.frames)).map (fun y => y.die)).getD (s.launch x.launch).die

/-- The die to which the end of a strand's step is reported by token (R44). -/
def jobDie (s : State) (t : Thread) : Nat :=
  match (if t.trap.kind = 1#2 then none else smFind t.job.op s.work.ops) with
  | some x => opDie s x
  | none => (s.launch t.job.launch).die

/-- The strand of core c ends and its core is free for the next dispatch (R60, R61); the token that reports it carries the causal
stamp (R253). -/
def endStrand (s : State) (c : Nat) : State :=
  let s := sendStamp s (dieOfCore c) (jobDie s (s.th c))
  let s := endJob (withdrawArrival s (s.th c)) (s.th c)
  s.setCore c (s.core c).vacate

/-- The strand of core c meets the DROPPED tensor t with its restart bit set (R42): the step is aborted, and is ready again
once the tensor is rebuilt. Where its scope is cancelled on the die, the step, which would now be a queued one, is discarded and
counted so (R61; DEDUCED, log entry 73). -/
def abortStep (s : State) (c t : Nat) : State :=
  let j := (s.th c).job
  match killedStrand s c with
  | some ticket => (endStrand s c).updCancel ticket (fun x => { x with discarded := x.discarded + 1 })
  | none =>
    let s := withdrawArrival s (s.th c)
    let s : State := match smFind j.op s.work.ops with
      | none => s
      | some o => { s with work := { s.work with ops := smPut j.op { o with held := o.held ++ [(j.n, t, j.rank)] } s.work.ops } }
    s.setCore c (s.core c).vacate

/-- The strand ends at a kill point (R60); the cancellation counts it (R62). -/
def killStrand (s : State) (c ticket : Nat) : State :=
  (endStrand s c).updCancel ticket (fun x => { x with killed := x.killed + 1 })

/-- A request of a die to cancel a scope, on its way to its home (R58), with the causal stamp (R253). -/
def askCancel (s : State) (die scope : Nat) (by_ : Asker) (ctx : Nat) (root : Option Nat) : State :=
  let r : CancelReq := { scope := scope, home := (s.scope scope).home, by_ := by_, ctx := ctx, root := root }
  let s := sendStamp s die r.home
  { s with hg := { s.hg with reqs := s.hg.reqs ++ [r] } }

/-- The launch's scope is cancelled and its stamp will carry FAULT (R35, R291, R292). -/
def failLaunch (s : State) (l : Nat) : State :=
  let x := s.launch l
  let s := s.setLaunch l { x with status := some 0x03 }
  askCancel s x.die x.pkt.scope.toNat .machine x.ctx none

/-! ### Taking a trap (R290-R292) -/

/-- A trap in H mode: the strand ends, its launch's scope is cancelled, HTRAP is logged (R292). -/
def doubleTrap (s : State) (c : Nat) (cause : BitVec 8) (at_ : Word) : State :=
  let l := (s.th c).job.launch
  let s := failLaunch (endStrand s c) l
  { s with log := s.log ++ [{ name := "HTRAP", args := [dieOfCore c, cause.toNat, at_.toNat] }] }

/-- The wait in a routed VEXTR or PCNT, if that is what the control core waits in. -/
def waitOf : WaitSt → Option VWait
  | .vwait w => some w
  | _ => none

/-- The trap registers and the position a precise trap sets (R290); `p` is the position of TPC, `q` the queue or ring whose fault the
trap is taken for. -/
def trapThread (t : Thread) (tvec : BitVec 57) (p : Pos) (cause : BitVec 8) (tval : Word) (routed : Bool)
    (q : BitVec 3 := 0) : Thread :=
  let lies := !p.atHdr
  { t with
    trap := { t.trap with
      cause := cause, tval := tval, tpc := p.pc.truncate 57, moved := false, kind := 0, routed := routed,
      rptl := if lies then p.rpt else 0, boff := if lies then ((p.pc - p.hdr) >>> 1).truncate 10 else 0,
      tlen := p.len, tpass := p.passStart, vw := if routed then waitOf t.job.wait else none, q := q },
    job := { t.job with wait := if routed then .none else t.job.wait,
                        run := if t.job.run = .idle then .idle else .run },
    pos := { p with mode := .h, pc := tvec.zeroExtend 64, atHdr := true, passStart := false,
                    fw := tvec == Config.fwEntry } }

/-- Taking a precise trap with TPC at position p (R290). A double trap ends the strand once nothing that it has begun
waits for the host (R61, R292). -/
def takeTrapAt (s : State) (c : Nat) (p : Pos) (cause : BitVec 8) (tval : Word) (routed : Bool) (q : BitVec 3 := 0) : State :=
  let k := s.core c
  match k.th.pos.mode with
  | .h => if k.sending then s else doubleTrap s c cause p.pc
  | .k => s.setCore c { k with th := trapThread k.th k.tvec p cause tval routed q }

/-- Taking a precise trap at the instruction (R290). -/
def takeTrap (s : State) (c : Nat) (cause : BitVec 8) (tval : Word) : State :=
  takeTrapAt s c (s.th c).pos cause tval false

/-- The queue of a QFSTAT.Q number. -/
def qCode : VQ → BitVec 3
  | .vl => 1
  | .va => 2
  | .vs => 3

def Queues.get (q : Queues) : VQ → VQueue
  | .vl => q.vl
  | .va => q.va
  | .vs => q.vs

def Queues.set (q : Queues) (v : VQ) (x : VQueue) : Queues :=
  match v with
  | .vl => { q with vl := x }
  | .va => { q with va := x }
  | .vs => { q with vs := x }

/-- What TrapRegs.q holds for the SUBN of a scalar instruction: the code of no queue and no ring (R135). -/
def noQueue : BitVec 3 := 7

/-- The address of the recorded fault of queue or ring q. -/
def Queues.faultAddr (q : Queues) (n : BitVec 3) : Word := ((q.faults.find? (fun f => f.q == n)).map (fun f => f.addr)).getD 0

/-- QFAULT for the queue or ring q (R290, R295): TVAL is the queue fault's address. -/
def takeQfault (s : State) (c : Nat) (q : BitVec 3) (routed : Bool) : State :=
  takeTrapAt s c (s.th c).pos cQfault ((s.th c).q.faultAddr q) routed q

/-- A SUBN of the vector unit waits to be taken (R135). -/
def Queues.subn (q : Queues) : Bool := q.faults.any (fun f => decide (f.cause = cSubn))

/-- SUBN for a vector instruction, TVAL the lowest tiny element (R135). -/
def takeSubn (s : State) (c : Nat) (routed : Bool) : State :=
  takeTrapAt s c (s.th c).pos cSubn ((s.th c).q.faultAddr 2) routed 2

/-- The record that QFSTAT shows (Table 13-3): that of the queue or ring which the trap was taken for; after the SUBN of a scalar
instruction none, since no queue is held for it (R135); after any other trap the first recorded queue or ring fault. A SUBN that
VA asks for meanwhile is shown once it is taken (DEDUCED, log entry 57). -/
def Thread.shown (t : Thread) : Option QFault :=
  if t.trap.q ≠ 0 then t.q.faults.find? (fun f => f.q == t.trap.q)
  else t.q.faults.find? (fun f => decide (f.cause ≠ cSubn))

/-- DFAULT's TVAL (Table 13-1): class x 64 + number. -/
def dCode (cls n : Nat) : Word := BitVec.ofNat 64 (cls * 64 + n)

/-- Whether any of the three queues holds an instruction. -/
def Queues.busy (q : Queues) : Bool :=
  !q.vl.held.isEmpty || !q.va.held.isEmpty || !q.vs.held.isEmpty

/-- Queue v stands halted by a queue fault; a queue that waits for the SUBN assist is none (R295, R135). -/
def Queues.faulted (q : Queues) (v : VQ) : Bool :=
  (q.get v).halted && q.faults.any (fun f => f.q == qCode v && decide (f.cause ≠ cSubn))

/-- The first of VL, VA, VS halted by a queue fault. -/
def Queues.haltedQ (q : Queues) : Option VQ :=
  if q.faulted .vl then some .vl else if q.faulted .va then some .va
  else if q.faulted .vs then some .vs else none

/-- A ring fault is pending (R189). -/
def Queues.ringFault (q : Queues) : Bool := q.faults.any (fun f => f.q == 4#3)

/-- A queue halts at its head with a fault (R295); the record joins QFSTAT's list. -/
def haltQueue (s : State) (c : Nat) (v : VQ) (cause : BitVec 8) (addr : Word) : State :=
  let t := s.th c
  let q := t.q.get v
  let idx := match q.held with
    | e :: _ => e.idx
    | [] => q.routed
  s.setTh c { t with q := { (t.q.set v { q with halted := true, park := .run, host := .idle }) with
    faults := t.q.faults ++ [{ q := qCode v, cause := cause, index := idx, addr := addr }] } }

/-! ### Parking at a replayable fault (R226, R282) -/

/-- The agent numbers of Table 9-7. -/
def agStrand : BitVec 8 := 0
def agVL : BitVec 8 := 1
def agVS : BitVec 8 := 2
def agArray : BitVec 8 := 3
def agFlume : BitVec 8 := 4
def agBlock : BitVec 8 := 5
def agSeq : BitVec 8 := 6

/-- A fault with this FID is open, or waits to be posted. -/
def fidOpen (s : State) (n : Nat) : Bool :=
  s.work.fids.any (fun f => f.fid == n) || s.dies.any (fun d => d.2.faults.any (fun f => f.fid == n))

/-- The lowest FID from k on that is not open. -/
def freeFid (s : State) : Nat → Nat → Nat
  | 0, k => k
  | n + 1, k => if fidOpen s k then freeFid s n (k + 1) else k

/-- The faults that are open or wait to be posted. -/
def openFids (s : State) : Nat := s.work.fids.length + s.dies.foldl (fun n d => n + d.2.faults.length) 0

/-- The FID of a new fault (R226): the one the hardware chooses if it is not open, else the lowest that is not. -/
def pickFid (s : State) (n : Nat) : Nat :=
  let h := (Config.fidHint n).toNat
  if fidOpen s h then freeFid s (openFids s) 0 else h

/-- A record of the fault joins its die's list; the agent parks on its FID. -/
def postFault (s : State) (ctx : Nat) (va : Word) (agent : BitVec 8) (k : AccKind) (die : Nat) (unit : BitVec 16)
    (who sub : Nat) : Nat × State :=
  let (n, s) := s.tick
  let fid := pickFid s n
  let d := s.die die
  let f : FaultRec :=
    { fid := fid, ctx := ctx, va := va, agent := agent, access := k.code, die := die, unit := unit, who := who, sub := sub }
  (fid, s.setDie die { d with faults := d.faults ++ [f] })

/-- The context of a core. -/
def State.ctxOf (s : State) (c : Nat) : Nat := (s.core c).bind.ctx.getD 0

/-- The control core parks at the instruction (R226). -/
def parkStrand (s : State) (c : Nat) (va : Word) (k : AccKind) : State :=
  let r := postFault s (s.ctxOf c) va agStrand k (dieOfCore c) (BitVec.ofNat 16 (c % 64)) c 0
  let t := r.2.th c
  r.2.setTh c { t with job := { t.job with park := .wait r.1 } }

/-- The strand as an accessor of memory (R197, R206). -/
def State.whoThread (s : State) (c : Nat) : Who :=
  { ctx := s.ctxOf c, die := dieOfCore c, core := some c, rect := (s.th c).job.rect, owner := some 0 }

end Sys2Proof.Machine
end

