-- ==== Sys2Proof/Machine/Flags.lean ====
section
/-! DEFINITION. Flag computations: what merges into FSTAT (R131, R133), for the scalar FPU and the vector unit. -/
namespace Sys2Proof.Machine
open Sys2Proof

/-- Merges sticky flags into FSTAT (R133). -/
def Csrs.merge (r : Csrs) (f : Flags) : Csrs := { r with fstat := r.fstat ||| f.toBits }

def Thread.merge (t : Thread) (f : Flags) : Thread := { t with csr := t.csr.merge f }

/-- Whether a tiny FP32 result is flushed (R135): FTZ is carried as 1, or the instruction runs in H mode. -/
def flushing (mode : Mode) (ftz : Bool) : Bool := ftz || mode == .h

/-- The scalar FPU reads bits [31:0] of its operands (R128). -/
def fpBits (w : Word) : Nat := w.toNat % 2 ^ 32

/-- What a scalar FPU operation delivers under FTZ or H mode: the result flushed, or SUBN asked for (R135). -/
inductive FpOut where
  | ok (bits : Nat) (f : Flags)
  | subn
  deriving DecidableEq, Repr

def fpDeliver (flush : Bool) (r : FRes) : FpOut :=
  if r.tiny then
    if flush then
      let z := r.flush fmtFP32
      .ok z.bits z.flags
    else .subn
  else .ok r.bits r.flags

/-- The gradual-underflow result that the assist routine writes (R135). -/
def fpAssist (r : FRes) : Nat × Flags := (r.bits, r.flags)

end Sys2Proof.Machine
end

