-- ==== Sys2Proof/Machine/Operands.lean ====
section
/-! DEFINITION. Operand forms: addresses, the D-bit tests of scalar operands, and accesses of the control core
to memory (R92, R306, R322, R332). -/
namespace Sys2Proof.Machine
open Sys2Proof

/-- The scalar with its D bit set in the highest field of the encoding (Table 13-1), given the fields from the
highest down. -/
def firstD (t : Thread) : List (BitVec 5) → Option Nat
  | [] => none
  | r :: rs => if (t.rdS r).d then some r.toNat else firstD t rs

/-- Runs `k` unless one of the scalars, listed from the highest field down, has D set: DFAULT (R92, R306). -/
def guardD (s : State) (rs : List (BitVec 5)) (k : State → Out) : Out :=
  match firstD (s.th s.me) rs with
  | some n => .next (takeTrap s s.me cDfault (dCode 0 n))
  | none => k s

/-- The mode test of an instruction of H mode (R99, R294): ILLEGAL in K mode; TVAL is the encoding. -/
def illegal (s : State) (i : Instr) : Out :=
  .next (takeTrap s s.me cIllegal (match encodeTollum i with
    | some w => w.zeroExtend 64
    | none => 0))

/-! ### Dependence tokens (R82) -/

/-- Whether the counts of every edge an instruction pops are non-zero (Table 4-2: bit 1 `-n`, bit 0 `-p`). -/
def Queues.canPop (q : Queues) (v : VQ) (tok : BitVec 4) : Bool :=
  match v with
  | .vl => !tok.getLsbD 1 || decide (q.al ≠ 0)
  | .va => (!tok.getLsbD 1 || decide (q.sa ≠ 0)) && (!tok.getLsbD 0 || decide (q.la ≠ 0))
  | .vs => !tok.getLsbD 0 || decide (q.ts ≠ 0)

/-- Pops: each popped edge's count falls by one. -/
def Queues.pop (q : Queues) (v : VQ) (tok : BitVec 4) : Queues :=
  match v with
  | .vl => if tok.getLsbD 1 then { q with al := q.al - 1 } else q
  | .va =>
    let q := if tok.getLsbD 1 then { q with sa := q.sa - 1 } else q
    if tok.getLsbD 0 then { q with la := q.la - 1 } else q
  | .vs => if tok.getLsbD 0 then { q with ts := q.ts - 1 } else q

/-- Pops given back by an instruction that is discarded (R82, R295); a count stays at 15 (DEDUCED, log entry 22). -/
def Queues.unpop (q : Queues) (v : VQ) (tok : BitVec 4) : Queues :=
  let up := fun (n : BitVec 4) => if n = 15 then n else n + 1
  match v with
  | .vl => if tok.getLsbD 1 then { q with al := up q.al } else q
  | .va =>
    let q := if tok.getLsbD 1 then { q with sa := up q.sa } else q
    if tok.getLsbD 0 then { q with la := up q.la } else q
  | .vs => if tok.getLsbD 0 then { q with ts := up q.ts } else q

/-- Whether no edge an instruction pushes stands at 15 (bit 3 `+n`, bit 2 `+p`): of two edges neither is pushed until both have room
(DESIGN CHOICE, log entry 79). -/
def Queues.canPush (q : Queues) (v : VQ) (tok : BitVec 4) : Bool :=
  match v with
  | .vl => !tok.getLsbD 3 || decide (q.la ≠ 15)
  | .va => (!tok.getLsbD 3 || decide (q.ts ≠ 15)) && (!tok.getLsbD 2 || decide (q.al ≠ 15))
  | .vs => !tok.getLsbD 2 || decide (q.sa ≠ 15)

/-- Pushes: each pushed edge's count rises by one. -/
def Queues.push (q : Queues) (v : VQ) (tok : BitVec 4) : Queues :=
  match v with
  | .vl => if tok.getLsbD 3 then { q with la := q.la + 1 } else q
  | .va =>
    let q := if tok.getLsbD 3 then { q with ts := q.ts + 1 } else q
    if tok.getLsbD 2 then { q with al := q.al + 1 } else q
  | .vs => if tok.getLsbD 2 then { q with sa := q.sa + 1 } else q

/-- The circular buffer and the slot count that a VLDC, VSTC or CBADV waits on, and whether it waits for filled
slots (R166, R167). -/
def QEntry.slots (e : QEntry) : Option (Nat × Nat × Bool) :=
  match e.ins with
  | .vldc f => some (f.b.toNat % 16, f.c.toNat, true)
  | .vstc f => some (f.b.toNat % 16, f.c.toNat, false)
  | .cbadvRptr f => some (f.a.toNat % 16, f.b.toNat, true)
  | .cbadvWptr f => some (f.a.toNat % 16, f.b.toNat, false)
  | _ => none

def Streams.cbAt (r : Streams) (n : Nat) : CBuf := r.cb.toList.getD n {}

/-- The slots an instruction waits for are there. -/
def Streams.slotsReady (r : Streams) (e : QEntry) : Bool :=
  match e.slots with
  | none => true
  | some (b, n, filled) => decide (n ≤ (if filled then (r.cbAt b).filled else (r.cbAt b).free).toNat)

/-- A wait for slots of a buffer with MODE = 0 counts as a wait on a pop (R169). -/
def Streams.slotWait (r : Streams) (e : QEntry) : Bool :=
  match e.slots with
  | none => false
  | some (b, _, _) => !(r.cbAt b).mode && !r.slotsReady e

/-- The head of queue v waits on a pop or a push (R83, R169). -/
def Thread.tokenWait (t : Thread) (v : VQ) : Bool :=
  match (t.q.get v).held with
  | [] => false
  | e :: _ =>
    !(t.q.get v).halted &&
      (if e.done then !t.q.canPush v e.f.tok else (!e.popped && !t.q.canPop v e.f.tok) || t.strm.slotWait e)

/-- The queues' part of token deadlock (R83): each is empty or its head waits on a token, and one so waits; the
first waiting queue. -/
def Thread.deadlock (t : Thread) : Option VQ :=
  let idle := fun v => (t.q.get v).held.isEmpty || t.tokenWait v
  if idle .vl && idle .va && idle .vs then
    if t.tokenWait .vl then some .vl else if t.tokenWait .va then some .va
    else if t.tokenWait .vs then some .vs else none
  else none

/-! ### Streams (R170, R172, R173) -/

def Streams.stAt (r : Streams) (n : Nat) : Stream := r.st.toList.getD n {}

/-- The rows of a stream (R170). -/
def Stream.rows (x : Stream) : Nat :=
  if x.kind = 0#3 then x.ext1.toNat else x.ext1.toNat * x.ext2.toNat * x.ext3.toNat

/-- The element type of a stream's memory. -/
def Stream.et (x : Stream) : Et := (Et.ofCode x.fmt.toNat).getD .fp32

/-- Element (r, c) of a stream of any format but GQ4 (R172). -/
def Stream.addr (x : Stream) (r c : Nat) : Word :=
  x.base.zeroExtend 64 + BitVec.ofNat 64 r * x.rstr + BitVec.ofNat 64 (c * x.et.width)

/-- The code byte, the scale code and the super-scale of a GQ4 element (R172). -/
def Stream.gqParts (x : Stream) (r c : Nat) : List (Word × Nat) :=
  let n := fun (v : Nat) => BitVec.ofNat 64 v
  let sstr := x.sstr.zeroExtend 64
  let ssstr := x.ssstr.zeroExtend 64
  let b := x.base.zeroExtend 64
  if x.baxis then
    let bk := r / 64
    [(b + n bk * x.rstr + n (32 * c + r % 64 / 2), 1), (x.sbase + n bk * sstr + n c, 1),
      (x.ssbase + n (bk / 256) * ssstr + n (4 * c), 4)]
  else
    let bk := c / 64
    [(b + n r * x.rstr + n (c / 2), 1), (x.sbase + n r * sstr + n bk, 1),
      (x.ssbase + n r * ssstr + n (4 * (bk / 256)), 4)]

/-- The places of element (r, c): one of a plain format, three of GQ4. -/
def Stream.parts (x : Stream) (r c : Nat) : List (Word × Nat) :=
  if x.et = .gq4 then x.gqParts r c else [(x.addr r c, x.et.width)]

/-- The advance of a position by n elements (R173). -/
def Stream.step (x : Stream) (n : Nat) : Stream :=
  if x.posr.toNat < x.rows then
    let p := x.posc.toNat + n
    if x.ext0.toNat ≤ p then { x with posc := 0, posr := x.posr + 1 } else { x with posc := BitVec.ofNat 32 p }
  else x

/-- The bytes from the first to the last element of a vector of n elements at the stream's position. -/
def Stream.spans (x : Stream) (n : Nat) : List (Word × Nat) :=
  let c := x.posc.toNat
  let n := Nat.min n (x.ext0.toNat - c)
  let r := x.posr.toNat
  if n = 0 ∨ x.rows ≤ r then []
  else List.zipWith (fun a b => (a.1, (b.1 - a.1).toNat + b.2)) (x.parts r c) (x.parts r (c + n - 1))

/-! ### Local order (R204, R251) -/

/-- What a held queue instruction may touch: nothing, bytes that are known, its core's own circular buffers, or bytes of a
range that only its index vector will tell. -/
inductive Touch where
  | none
  | bytes (ps : List (Word × Nat)) (write : Bool)
  | slots
  | within (base n : Nat)
  deriving DecidableEq, Repr

/-- The stream register a held instruction names. -/
def QEntry.streamOf (e : QEntry) : Option Nat :=
  match e.ins with
  | .vldst f | .vstst f => some f.b.toNat
  | _ => none

/-- The stream of a held instruction as it will find it: its register, advanced by the earlier instructions the queues
still hold. -/
def Thread.streamAt (t : Thread) (n seq : Nat) : Stream :=
  let earlier := (t.q.vl.held ++ t.q.vs.held).filter (fun x => x.streamOf == some n && decide (x.seq < seq) && !x.done)
  earlier.foldl (fun st x => st.step (256 / (vmEt x.vmode).width)) (t.strm.stAt n)

/-- The bytes a held instruction touches (R344, R351, R346, R173, R345). -/
def QEntry.touch (t : Thread) (e : QEntry) : Touch :=
  let off : Word := (e.f.c.signExtend 64) <<< 8
  match e.ins with
  | .vld _ | .vlds _ => .bytes [(e.sb.val + off, 256)] false
  | .vst _ => .bytes [(e.sb.val + off, 256)] true
  | .vstm _ => .bytes [(e.sb.val, 256)] true
  | .vldst f => .bytes ((t.streamAt f.b.toNat e.seq).spans (256 / (vmEt e.vmode).width)) false
  | .vstst f => .bytes ((t.streamAt f.b.toNat e.seq).spans (256 / (vmEt e.vmode).width)) true
  | .vldc _ | .vstc _ => .slots
  | .vldx _ | .vstx _ =>
    let w := (vmEt e.vmode).width
    .within e.sb.val.toNat (2 ^ (8 * w) * w)
  | _ => .none

/-- The instruction makes accesses, to memory or to accumulator tiles (R204, R245). -/
def QEntry.accesses (e : QEntry) : Bool :=
  match e.ins with
  | .vld _ | .vlds _ | .vst _ | .vstm _ | .vldst _ | .vstst _ | .vldc _ | .vstc _ | .vldx _ | .vstx _ | .vpark _ | .vunpark _ =>
    true
  | _ => false

/-- The physical key and class of an address, if it translates (R251: one location under any name). -/
def keyOf (s : State) (w : Who) (a : Word) : Option (Nat × Option Cls) :=
  match checkAccess s { w with owner := none } .part a 1 with
  | .ok k c => some (k, c)
  | _ => none

/-- The parts of n bytes at an address that lie in one page each. -/
def pageParts (a : Word) (n : Nat) : List (Word × Nat) :=
  let lo := a.toNat
  (List.range ((lo % 4096 + n + 4095) / 4096)).map (fun j =>
    let from_ := Nat.max lo ((lo / 4096 + j) * 4096)
    (BitVec.ofNat 64 from_, Nat.min (lo + n) ((lo / 4096 + j + 1) * 4096) - from_))

/-- Whether n bytes at a and m bytes at b can share a byte: by address, or page by page by physical key. -/
def overlap (s : State) (w : Who) (a : Word) (n : Nat) (b : Word) (m : Nat) : Bool :=
  let near := fun (x y n m : Nat) => decide (x < y + m) && decide (y < x + n)
  near a.toNat b.toNat n m ||
    (pageParts a n).any (fun p => (pageParts b m).any (fun q =>
      match keyOf s w p.1, keyOf s w q.1 with
      | some x, some y => near x.1 y.1 p.2 q.2
      | _, _ => false))

/-- Every byte a write names lies in a HOST-C page (R251 case 2). -/
def hostCWrite (s : State) (w : Who) (ps : List (Word × Nat)) : Bool :=
  ps.all (fun p => (pageParts p.1 p.2).all (fun q =>
    match keyOf s w q.1 with
    | some x => x.2 == some .hostC
    | none => false))

/-- Whether a range of n bytes may hold bytes of the local window (`true`) or of virtual memory (`false`). -/
def mayTouch (base n : Nat) (window : Bool) : Bool :=
  let lo := windowBase
  let hi := windowBase + 2 ^ 40
  decide (2 ^ 64 < base + n) ||
    (if window then decide (base < hi) && decide (lo < base + n) else decide (base < lo) || decide (hi < base + n))

/-- A held instruction earlier in program order than `seq` holds back an access of n bytes at a (R204, R251): they lie in one
domain, and the earlier one is no HOST-C write, or they may touch one location. A gather or scatter that has not begun counts
in every domain its range can reach (DEDUCED, log entry 21). -/
def QEntry.conflicts (s : State) (w : Who) (t : Thread) (seq : Nat) (a : Word) (n : Nat) (e : QEntry) : Bool :=
  decide (e.seq < seq) && !e.done &&
    (match e.touch t with
    | .none => false
    | .bytes ps write =>
      ps.any (fun p => mayTouch p.1.toNat p.2 (inWindow a.toNat)) &&
        (!(write && hostCWrite s w ps) || ps.any (fun p => overlap s w a n p.1 p.2))
    | .slots => inWindow a.toNat
    | .within base m => mayTouch base m (inWindow a.toNat))

/-! ### What the head of a queue accesses -/

/-- The sources an instruction reads when it begins (R81, R135). -/
def readSrcs (t : Thread) (e : QEntry) : Srcs :=
  { a := t.regs.rdV e.pa e.f.lit, b := t.regs.rdV e.pb e.f.lit, c := t.regs.rdV e.pc e.f.lit,
    g := if e.f.ps = 0#2 then { val := BitVec.allOnes 256 } else t.regs.rdP e.gov,
    m := t.regs.rdP (e.pc.truncate 5) }

/-- The sources the head works from: kept ones where it began before (R295). -/
def srcsOf (s : State) (c : Nat) (e : QEntry) : Srcs := e.kept.getD (readSrcs (s.th c) e)

/-- The element type an entry carries. -/
def QEntry.et (e : QEntry) : Et := vmEt e.vmode

/-- Element i of width w is active (R91): the bit of its lowest byte, inverted for PS = 11. -/
def activeAt (e : QEntry) (g : PCell) (w i : Nat) : Bool :=
  e.f.ps == 0#2 || (g.val.getLsbD (w * i) != (e.f.ps == 3#2))

/-- The activity of an entry's elements at its own width. -/
def act (e : QEntry) (x : Srcs) (w : Nat) : Nat → Bool := activeAt e x.g w

/-- The active elements, in index order. -/
def activeList (e : QEntry) (x : Srcs) : List Nat :=
  let w := e.et.width
  (List.range (elemCount w)).filter (act e x w)

/-- a := S[B] + 256 sext(C, 6). -/
def vldAddr (e : QEntry) : Word := e.sb.val + (e.f.c.signExtend 64 <<< 8)

/-- The address of element i of a gather or scatter (R346). -/
def elAddr (e : QEntry) (x : Srcs) (i : Nat) : Word :=
  let w := e.et.width
  e.sb.val + BitVec.ofNat 64 (elemOf x.c.val.toNat w i * w)

/-- The lowest set bit from i on, among n. -/
def lowSet (m : PReg) : Nat → Nat → Option Nat
  | 0, _ => none
  | n + 1, i => if m.getLsbD i then some i else lowSet m n (i + 1)

/-- The highest set bit below n. -/
def highSet (m : PReg) : Nat → Option Nat
  | 0 => none
  | n + 1 => if m.getLsbD n then some n else highSet m n

/-- The bytes of a mask that lie in one page, as an access: from the first to the last set byte there. -/
def pagePiece (m : PReg) (a : Nat) (page : Nat) : List (Word × Nat) :=
  let inPage := (List.range 256).filter (fun j => m.getLsbD j && decide ((a + j) % 2 ^ 64 / 4096 = page))
  match inPage.head?, inPage.getLast? with
  | some lo, some hi => [(BitVec.ofNat 64 (a + lo), hi + 1 - lo)]
  | _, _ => []

/-- The accesses of a masked store from its lowest to its highest set byte (R351): one in each page it writes. -/
def maskPieces (m : PReg) (a : Word) (jl jh : Nat) : List (Word × Nat) :=
  let lo := a + BitVec.ofNat 64 jl
  let hi := a + BitVec.ofNat 64 jh
  if inWindow lo.toNat || inWindow hi.toNat then [(lo, jh + 1 - jl)]
  else pagePiece m a.toNat (lo.toNat / 4096) ++
    (if lo.toNat / 4096 = hi.toNat / 4096 then [] else pagePiece m a.toNat (hi.toNat / 4096))

/-- The pieces of element (r, c): one of a plain format, six bytes of GQ4 (code, scale code, super-scale), whose super-scale
may lie in two pages. -/
def Stream.pieces (x : Stream) (r c : Nat) : List (Word × Nat) :=
  if x.et = .gq4 then
    (x.parts r c).flatMap (fun p => (List.range p.2).map (fun j => (p.1 + BitVec.ofNat 64 j, 1)))
  else x.parts r c

/-- The active elements that lie inside the stream. -/
def insideList (e : QEntry) (x : Srcs) (st : Stream) : List Nat :=
  (activeList e x).filter (fun i => decide (st.posr.toNat < st.rows) && decide (st.posc.toNat + i < st.ext0.toNat))

/-- The accesses of a stream's vector: its elements inside the stream, in order (R173, R174). -/
def streamPieces (e : QEntry) (x : Srcs) (st : Stream) : List (Word × Nat) :=
  (insideList e x st).flatMap (fun i => st.pieces st.posr.toNat (st.posc.toNat + i))

/-- The window of one core an address lies in, or none for a virtual address (R196, R197). -/
def layerOf (a : Word) : Option Nat := if inWindow a.toNat then some (a.toNat / 2 ^ 21) else none

/-- The bytes of each array of a vector's elements lie in one layer (R174, R205): else the address named. The planes of GQ4 may
lie in different layers (DESIGN CHOICE, log entry 72). The test comes before the elements' own faults, and names the first accessed
element (DESIGN CHOICE, log entry 91). -/
def layerSpan (x : Stream) (r : Nat) (cs : List Nat) : Option Word :=
  let arrays := (List.range (if x.et = .gq4 then 3 else 1)).map (fun j =>
    cs.map (fun c => (x.parts r c).getD j (0, 1)))
  let bad := arrays.filter (fun ps =>
    let ls := ps.flatMap (fun p => [layerOf p.1, layerOf (p.1 + BitVec.ofNat 64 (p.2 - 1))])
    ls.any (fun l => l != ls.headD none))
  bad.head?.map (fun ps => (ps.headD (0, 1)).1)

/-- The key of the slot k places past an index. -/
def slotKey (c : Nat) (b : CBuf) (from_ : BitVec 16) (k : Nat) : Nat :=
  spadKey c (b.base.toNat + (from_.toNat + k) % b.count.toNat * (256 * (b.ssz.toNat + 1)))

/-- The own-window address of a key of the core's scratchpad (R197). -/
def slotAddr (key : Nat) : Word := BitVec.ofNat 64 (windowBase + 2 ^ 39 + key % 2 ^ 21)

/-- The key of the record at index i of a core's ring (R182). -/
def ringKey (c : Nat) (r : Ring) (i : Nat) : Nat := spadKey c (r.base.toNat + 16 * (i % 2 ^ r.logn.toNat))

/-- The slot that VLDC reads or VSTC writes, as an own-window address. -/
def QEntry.slotAt (c : Nat) (b : CBuf) (from_ : BitVec 16) (e : QEntry) : Word := slotAddr (slotKey c b from_ (e.f.c.toNat - 1))

/-- The accesses that instruction e makes when it begins, and their kind: none of them where it halts its queue at once instead. -/
def QEntry.reach (s : State) (c : Nat) (e : QEntry) : AccKind × List (Word × Nat) :=
  let x := srcsOf s c e
  let t := s.th c
  let w := e.et.width
  let st := fun (f : V3) => t.strm.stAt f.b.toNat
  let span := fun (f : V3) => layerSpan (st f) (st f).posr.toNat ((insideList e x (st f)).map (fun i => (st f).posc.toNat + i))
  let when := fun (b : Bool) (ps : List (Word × Nat)) => if b then ps else []
  match e.ins with
  | .vld _ => (.part, when (decide ((vldAddr e).toNat % 256 = 0)) [(vldAddr e, 256)])
  | .vlds _ => (.part, when (!e.sb.d && decide ((vldAddr e).toNat % 256 = 0)) [(vldAddr e, 256)])
  | .vst _ => (.write, when (!x.a.d && decide ((vldAddr e).toNat % 256 = 0)) [(vldAddr e, 256)])
  | .vstm _ => (.write, when (!x.a.d && !x.m.d) (match lowSet x.m.val 256 0, highSet x.m.val 256 with
    | some jl, some jh => maskPieces x.m.val e.sb.val jl jh
    | _, _ => []))
  | .vldx _ => (.read, when (!x.c.d && decide (e.sb.val.toNat % w = 0)) ((activeList e x).map (fun i => (elAddr e x i, w))))
  | .vstx _ =>
    (.write, when (!x.a.d && !x.c.d && decide (e.sb.val.toNat % w = 0)) ((activeList e x).map (fun i => (elAddr e x i, w))))
  | .vldst f => (.read, when (span f).isNone (streamPieces e x (st f)))
  | .vstst f => (.write, when (!x.a.d && (span f).isNone) (streamPieces e x (st f)))
  | _ => (.read, [])

/-- The accesses by which local order may hold instruction e back: those it makes when it begins, once no check fails, and its
slot. -/
def QEntry.held (s : State) (c : Nat) (e : QEntry) : List (Word × Nat) :=
  let t := s.th c
  match e.ins with
  | .vldc f => [(e.slotAt c (t.strm.cbAt f.b.toNat) (t.strm.cbAt f.b.toNat).rd, 256)]
  | .vstc f =>
    if (srcsOf s c e).a.d then [] else [(e.slotAt c (t.strm.cbAt f.b.toNat) (t.strm.cbAt f.b.toNat).wr, 256)]
  | _ =>
    let r := e.reach s c
    if r.2.all (fun p => match checkAccess s (s.whoThread c) r.1 p.1 p.2 with
      | .ok _ _ => true
      | _ => false) then r.2 else []

/-! ### Which queues go on, and who waits for a fault (R82, R83, R251, R295) -/

/-- Queue v stands halted until a TRET: by a queue fault, or waiting for an assist that no SUBN brings while a handler runs
(R135). -/
def Thread.stuck (t : Thread) (v : VQ) : Bool := (t.q.get v).halted && (t.q.faulted v || t.pos.mode == .h)

/-- The queues whose progress an instruction at the head of queue v waits for: those that push a token it pops, pop a token it
pushes, or fill or free the slots it waits for (R82, R169). -/
def Thread.partners (t : Thread) (v : VQ) (e : QEntry) : List VQ :=
  let q := t.q
  let tok := e.f.tok
  let on := fun (w : Bool) (u : VQ) => if w then [u] else []
  match v, e.done with
  | .vl, false => on (!e.popped && tok.getLsbD 1 && decide (q.al = 0)) .va ++ on (t.strm.slotWait e) .vs
  | .vl, true => on (tok.getLsbD 3 && decide (q.la = 15)) .va
  | .va, false => on (!e.popped && tok.getLsbD 1 && decide (q.sa = 0)) .vs ++ on (!e.popped && tok.getLsbD 0 && decide (q.la = 0)) .vl
  | .va, true => on (tok.getLsbD 3 && decide (q.ts = 15)) .vs ++ on (tok.getLsbD 2 && decide (q.al = 15)) .vl
  | .vs, false => on (!e.popped && tok.getLsbD 0 && decide (q.ts = 0)) .va ++ on (t.strm.slotWait e) .vl
  | .vs, true => on (tok.getLsbD 2 && decide (q.sa = 15)) .va

/-- The record of a posting waits for an access of queue v to be written (R184, R251). -/
def recordBehind (s : State) (c : Nat) (x : Posting) (v : VQ) : Bool :=
  ((s.th c).q.get v).held.any (·.conflicts s (s.whoThread c) (s.th c) x.seq (slotAddr (ringKey c (s.core c).ring x.idx)) 16)

/-- The head e of a queue is held by local order behind an instruction of queue u, or behind a record that one holds back (R251). -/
def behindQueue (s : State) (c : Nat) (e : QEntry) (u : VQ) : Bool :=
  let late := (s.core c).ring.holds.filter (fun x => x.late.isSome && decide (x.seq ≤ e.seq))
  !e.done && (e.held s c).any (fun p =>
    ((s.th c).q.get u).held.any (·.conflicts s (s.whoThread c) (s.th c) e.seq p.1 p.2) ||
      (inWindow p.1.toNat && late.any (fun x => recordBehind s c x u)))

/-- Queue v holds an instruction that goes on without a TRET and without the control core: it is not stuck, and whatever queue its
head waits for, by a token, by slots or by local order, goes on in turn. Three queues make chains of three. -/
def goesOn (s : State) (c : Nat) : Nat → VQ → Bool
  | 0, _ => false
  | n + 1, v =>
    match ((s.th c).q.get v).held with
    | [] => false
    | e :: _ => !(s.th c).stuck v && ((s.th c).partners v e ++ [VQ.vl, .vs].filter (behindQueue s c e)).all (goesOn s c n)

/-- Only TRET lets queue v go on: it is stuck, or a queue stands halted by a fault and this one does not go on (R295). -/
def needsTret (s : State) (c : Nat) (v : VQ) : Bool :=
  let t := s.th c
  t.stuck v || (t.q.haltedQ.isSome && !(t.q.get v).held.isEmpty && !goesOn s c 3 v)

/-- The queue whose fault keeps the queues `vs` from emptying: one of them halted, or the first one halted where one of them needs
TRET (R295). -/
def blocker (s : State) (c : Nat) (vs : List VQ) : Option VQ :=
  match vs.find? (fun v => (s.th c).q.faulted v) with
  | some v => some v
  | none => if vs.any (needsTret s c) then (s.th c).q.haltedQ else none

/-! ### Waits for the queues (R83, R295) -/

/-- The control core waits for the queues `vs` (FENCE, LFENCE, BANKSYNC, PCNT and other waits that are no part of token
deadlock): QFAULT where a halted queue keeps the wait from ending (R295; DEDUCED where R295 does not list the wait, log
entry 21), else it waits. -/
def awaitQueues (s : State) (c : Nat) (vs : List VQ) (routed : Bool) : Out :=
  match blocker s c vs with
  | some v => .next (takeQfault s c (qCode v) routed)
  | none => .next s

/-- The control core is held by the queues `vs` in one of the ways of R83 (a full queue, VEXTR, a wait of R81, TASKEND,
SAFEPT): QFAULT where a halted queue keeps the wait from ending (R295), TOKSTALL where the strand is in token deadlock
(R83), else it waits. -/
def heldBy (s : State) (c : Nat) (vs : List VQ) (routed : Bool) : Out :=
  match blocker s c vs, (s.th c).deadlock with
  | none, some v => .next (takeQfault (haltQueue s c v cTokStall 0) c (qCode v) routed)
  | _, _ => awaitQueues s c vs routed

/-- A pending QFAULT of the queues an instruction is about to wait for comes before its DFAULT (R289). -/
def qfaultFirst (s : State) (c : Nat) (vs : List VQ) (k : State → Out) : Out :=
  match blocker s c vs with
  | some v => .next (takeQfault s c (qCode v) false)
  | none => k s

/-! ### Registers that held instructions read and write (R81) -/

/-- The vector codes a held instruction writes: its destination, and lr for a vector result of VA (R88). A write that is discarded, to
vz, counts as one (DESIGN CHOICE, log entry 81). -/
def QEntry.writesV (e : QEntry) : List Nat :=
  match vspec e.ins with
  | none => []
  | some (t, _) =>
    if t.a = .vw ∨ t.a = .vrw then e.pa.toNat :: (if t.queue = .va then [56] else []) else []

/-- The predicates a held instruction writes; a discarded write, to p0, counts (DESIGN CHOICE, log entry 81). -/
def QEntry.writesP (e : QEntry) : List Nat :=
  match vspec e.ins with
  | none => []
  | some (t, _) => (if t.a = .pw then [e.pa.toNat] else []) ++ (if t.c = .pw then [e.pc.toNat] else [])

/-- The predicates a held instruction reads, its governing predicate among them. -/
def QEntry.readsP (e : QEntry) : List Nat :=
  match vspec e.ins with
  | none => []
  | some (t, _) =>
    (if t.b = .p then [e.pb.toNat] else []) ++ (if t.c = .p then [e.pc.toNat] else []) ++
      (if e.f.ps = 0#2 then [] else [e.gov.toNat])

/-- The queues that hold an instruction satisfying `p`. -/
def Queues.holding (q : Queues) (p : QEntry → Bool) : List VQ :=
  [VQ.vl, .va, .vs].filter (fun v => (q.get v).held.any p)

/-- Waits under R81 until no queue holds an instruction satisfying `p`. -/
def waitQueues (s : State) (c : Nat) (p : QEntry → Bool) (k : State → Out) : Out :=
  match (s.th c).q.holding p with
  | [] => k s
  | vs => heldBy s c vs false

/-- The strand of core c ends at a kill point, once nothing that it has begun waits for the host (R60, R61). -/
def killAt (s : State) (c ticket : Nat) : State := if (s.core c).sending then s else killStrand s c ticket

/-- A kill point of the strand of core c (R60): it ends where its scope is cancelled. -/
def killPoint (s : State) (c : Nat) (k : State → Out) : Out :=
  match killedStrand s c with
  | some ticket => .next (killAt s c ticket)
  | none => k s

/-- An address s[ra] + sext(imm13) (R322, R332). -/
def effAddr (t : Thread) (ra : BitVec 5) (imm : BitVec 13) : Word := (t.rdS ra).val + imm.signExtend 64

/-- The address of a word aligned to w bytes (w a power of two). -/
def aligned (a : Word) (w : Nat) : Bool := decide (a.toNat % w = 0)

/-- The instructions of queue v that come before an access of the strand: all that it holds. Before an access that the control core
makes in a handler (`h`), those of K mode that only the handler's TRET lets go on do not: they begin, if at all, after it (R295;
DEDUCED, log entry 21). -/
def holders (s : State) (c : Nat) (h : Bool) (v : VQ) : List QEntry :=
  let q := (s.th c).q.get v
  if h && needsTret s c v then q.held.filter (·.hmode) else q.held

/-- Local order holds an access, one of a handler's control core or not, back behind queue v (R251, R344). -/
def heldBehind (s : State) (c : Nat) (h : Bool) (seq : Nat) (a : Word) (n : Nat) (v : VQ) : Bool :=
  (holders s c h v).any (·.conflicts s (s.whoThread c) (s.th c) seq a n)

/-- The access at a place of the program order is one that the control core itself makes in H mode, and no queue's. -/
def Thread.handlersOwn (t : Thread) (seq : Nat) : Bool :=
  t.pos.mode == .h && (t.q.vl.held ++ t.q.vs.held).all (fun e => e.seq != seq)

/-- Queue v holds an access before a posting of MCMD (R184, R257). -/
def postingBehind (s : State) (c : Nat) (x : Posting) (v : VQ) : Bool :=
  ((s.th c).q.get v).held.any (fun e => e.accesses && !e.done && decide (e.seq < x.seq))

/-- The postings of MCMD before a place of the program order whose records are still to be written (R184, R251); before an access
that the control core makes in a handler, not those that only the handler's TRET lets be written. -/
def lateRecords (s : State) (c : Nat) (h : Bool) (seq : Nat) : List Posting :=
  (s.core c).ring.holds.filter (fun x => x.late.isSome && decide (x.seq ≤ seq) &&
    !(h && [VQ.vl, .vs].any (fun v => needsTret s c v && recordBehind s c x v)))

/-- Whether local order holds an access back behind the queues and the records of the ring (R251, R344). -/
def heldBack (s : State) (c : Nat) (seq : Nat) (a : Word) (n : Nat) : Bool :=
  let h := (s.th c).handlersOwn seq
  heldBehind s c h seq a n .vl || heldBehind s c h seq a n .vs ||
    (inWindow a.toNat && !(lateRecords s c h seq).isEmpty)

/-- The private cache's dirty-line FIFO is written back: what a release or an acquire above core scope does to the
state (R248). -/
def drainFifo (s : State) (c : Nat) : State :=
  let k := s.core c
  s.setCore c { k with banks := { k.banks with fifo := [] } }

/-- An acquire above core scope by core c of what the dies `from_` have been sent (R248, R253). -/
def acquireFrom (s : State) (c : Nat) (from_ : List Nat) : State := takeStamps (drainFifo s c) (dieOfCore c) from_

/-- An acquire at package or system scope (R247, R250, R253). It is of what has reached any die: the writes that it reads and those
that relaxed reads before it have read are among them (R252; DESIGN CHOICE, log entry 56). -/
def acquireAll (s : State) (c : Nat) : State := acquireFrom s c (List.range 18)

/-- Queue v holds an access of the strand that comes before what the control core does now. -/
def accessHeld (s : State) (c : Nat) (v : VQ) : Bool :=
  (holders s c ((s.th c).pos.mode == .h) v).any (fun e => e.accesses && !e.done)

/-- No earlier access of the strand is still to be performed by its queues (R249). -/
def accessesDone (s : State) (c : Nat) : Bool :=
  !accessHeld s c .vl && !accessHeld s c .va && !accessHeld s c .vs && (lateRecords s c ((s.th c).pos.mode == .h) (s.th c).q.seq).isEmpty

/-- The control core waits for accesses that the queues `vs` hold: QFAULT where only TRET lets one of them go on (R51, R295;
DEDUCED, log entry 21), else it waits. -/
def orderWait (s : State) (c : Nat) (vs : List VQ) : Out :=
  match vs.find? (needsTret s c), (s.th c).q.haltedQ with
  | some v, some u => .next (takeQfault s c (qCode (if (s.th c).q.faulted v then v else u)) false)
  | _, _ => .next s

/-- The control core waits until no earlier access of the strand is still to be performed (R249). -/
def awaitAccesses (s : State) (c : Nat) : Out := orderWait s c ([VQ.vl, .va, .vs].filter (accessHeld s c))

/-- A release above core scope (R249): every earlier access of the strand is performed first. -/
def releaseWait (s : State) (c : Nat) (k : State → Out) : Out :=
  if accessesDone s c then k (drainFifo s c) else awaitAccesses s c

/-- A store by the strand to a virtual target clears the restart bit (R42). -/
def clearRestart (t : Thread) : Thread := { t with job := { t.job with restart := false } }

/-- Whether a key lies in core c's own scratchpad. -/
def ownSpad (c key : Nat) : Bool := decide (key / 2 ^ 21 = 2 ^ 36 + c) && decide (key < 2 ^ 58)

/-- The dirty-line FIFO of 64 lines (R248): a HOST-C line written is appended once; a full FIFO writes its oldest
entry back first. -/
def fifoPush (fifo : List Nat) (line : Nat) : List Nat :=
  if fifo.contains line then fifo
  else if 64 ≤ fifo.length then fifo.drop 1 ++ [line]
  else fifo ++ [line]

/-- The load-block bytes that a store into a block's line also writes (R209). -/
def blockStore (b : LoadBlock) (a : Word) (bs : List Byte) : LoadBlock :=
  let off : Int := (a.toNat : Int) - b.va.toNat
  if b.full then
    { b with data := (List.range b.data.length).map (fun (i : Nat) =>
        let j : Int := Int.ofNat i - off
        if 0 ≤ j ∧ j < Int.ofNat bs.length then bs.getD j.toNat 0 else b.data.getD i 0) }
  else b

/-- A bank of the core is in force in the cache role (R201, R202). -/
def hasCache (role : BitVec 64) : Bool := (List.range 32).any (fun b => decide (nbits role.toNat (2 * b) 2 = 1))

/-- A store of the strand of core c: the bytes, the FIFO, its load-blocks, its restart bit (R42, R202, R209, R248). -/
def storeBytes (s : State) (c : Nat) (a : Word) (key : Nat) (cls : Option Cls) (bs : List Byte) : State :=
  let s1 : State := { s with mem := s.mem.writeBytes key bs }
  let k := s1.core c
  let fifo := if cls = some .hostC ∧ hasCache k.banks.roleF then fifoPush k.banks.fifo (key / 128) else k.banks.fifo
  let th := if ownSpad c key then k.th else clearRestart k.th
  let blocks := k.banks.blocks.map (fun b => if cls.isSome then blockStore b a bs else b)
  s1.setCore c { k with th := th, banks := { k.banks with fifo := fifo, blocks := blocks } }

/-- A store of the strand of core c that leaves its die carries the causal stamp (R253). -/
def storeOut (s : State) (c : Nat) (a : Word) (key : Nat) (cls : Option Cls) (bs : List Byte) : State :=
  storeBytes (sendStamp s (dieOfCore c) (targetDie s (s.whoThread c) a key)) c a key cls bs

/-- What the check of a control-core access finds: the key of its bytes, a fault, a page that is not present, or
that the access is held (the state then shows why) or held behind the queues. -/
inductive CoreChk where
  | ok (key : Nat) (cls : Option Cls) (s : State)
  | fault (cause : BitVec 8) (va : Word)
  | absent (va : Word)
  | wait (s : State)
  | behind
  deriving DecidableEq, Repr

/-- The checks of a control-core access of w bytes, in order: alignment, window, translation (R205, R289, R322,
R332, R272); a line in the host's hands (R276); local order behind the queues, which a release extends to every
access (R250, R251); a HOST-U request (R273). -/
def coreCheck (s : State) (c : Nat) (k : AccKind) (rel : Bool) (a : Word) (w : Nat) : CoreChk :=
  let t := s.th c
  if !aligned a w then .fault cMisalign a
  else match checkAccess s (s.whoThread c) k a w with
    | .fault cause va => .fault cause va
    | .absent va => .absent va
    | .held line => .wait (sendSnoop s line)
    | .ok key cls =>
      if heldBack s c t.q.seq a w || (rel && !accessesDone s c) then .behind
      else if cls = some .hostU then
        match t.job.host with
        | .idle => .wait (s.setTh c { t with job := { t.job with host := .sent a 0 } })
        | .sent _ _ => .wait s
        | .answered _ _ ok =>
          if ok then .ok key cls (s.setTh c { t with job := { t.job with host := .idle } }) else .fault cPageFault a
      else .ok key cls s

/-- An access of the control core waits for order (R250, R251). -/
def accessWait (s : State) (c : Nat) (rel : Bool) (a : Word) (w : Nat) : Out :=
  let t := s.th c
  orderWait s c ([VQ.vl, VQ.vs].filter (fun v =>
    heldBehind s c (t.pos.mode == .h) t.q.seq a w v || (rel && accessHeld s c v)))

/-- The access is given up or done: its request, if any, is spent, and the strand is not parked. -/
def clearHost (s : State) (c : Nat) : State :=
  let t := s.th c
  s.setTh c { t with job := { t.job with host := .idle, park := .run } }

/-- An access of the control core (R306, R226): it goes on with its key, traps precisely, parks, or waits; a parked
strand stands at a kill point (R60). -/
def coreAccess (s : State) (c : Nat) (k : AccKind) (rel : Bool) (a : Word) (w : Nat)
    (go : Nat → Option Cls → State → Out) : Out :=
  let t := s.th c
  match t.job.park with
  | .wait _ => killPoint s c (fun s => .next s)
  | .bad va => .next (takeTrap (s.setTh c { t with job := { t.job with park := .run } }) c cPageFault va)
  | .run =>
    match coreCheck s c k rel a w with
    | .fault cause va => .next (takeTrap (clearHost s c) c cause va)
    | .absent va => .next (parkStrand s c va k)
    | .wait s => .next s
    | .behind => accessWait s c rel a w
    | .ok key cls s => go key cls s

end Sys2Proof.Machine
end

