-- ==== Sys2Proof/Machine/Alu.lean ====
section
/-! DEFINITION. Scalar register and immediate arithmetic and its short forms (R102, R139, R308, R309, R323). -/
namespace Sys2Proof.Machine
open Sys2Proof

/-- Writes a result of two registers: D is the OR of theirs (R308). -/
def alu3 (f : R3) (g : Word → Word → Word) (s : State) : Out :=
  let c := s.me
  let t := s.th c
  let a := t.rdS f.ra
  let b := t.rdS f.rb
  .next (s.setTh c ((t.wrS f.rd (g a.val b.val) (a.d || b.d)).advance 2))

/-- Writes a result of one register: D is its D (R308, R309). -/
def alu2 (n : Nat) (rd ra : BitVec 5) (g : Word → Word) (s : State) : Out :=
  let c := s.me
  let t := s.th c
  let a := t.rdS ra
  .next (s.setTh c ((t.wrS rd (g a.val) a.d).advance n))

/-- Writes a constant with D clear (R323, FLI entry). -/
def aluConst (rd : BitVec 5) (v : Word) (s : State) : Out :=
  let c := s.me
  .next (s.setTh c (((s.th c).wrS rd v false).advance 2))

/-- ADD (Table 14-2). -/
def aluAdd (a b : Word) : Word := a + b
/-- SUB (Table 14-2). -/
def aluSub (a b : Word) : Word := a - b
/-- AND (Table 14-2). -/
def aluAnd (a b : Word) : Word := a &&& b
/-- OR (Table 14-2). -/
def aluOr (a b : Word) : Word := a ||| b
/-- XOR (Table 14-2). -/
def aluXor (a b : Word) : Word := a ^^^ b
/-- SLL (Table 14-2). -/
def aluSll (a b : Word) : Word := a <<< (b.toNat % 64)
/-- SRL (Table 14-2). -/
def aluSrl (a b : Word) : Word := a >>> (b.toNat % 64)
/-- SRA (Table 14-2). -/
def aluSra (a b : Word) : Word := a.sshiftRight (b.toNat % 64)
/-- SLT (Table 14-2). -/
def aluSlt (a b : Word) : Word := if a.slt b then 1 else 0
/-- SLTU (Table 14-2). -/
def aluSltu (a b : Word) : Word := if a.ult b then 1 else 0
/-- MIN (Table 14-2). -/
def aluMin (a b : Word) : Word := if a.slt b then a else b
/-- MAX (Table 14-2). -/
def aluMax (a b : Word) : Word := if a.slt b then b else a
/-- MINU (Table 14-2). -/
def aluMinu (a b : Word) : Word := if a.ult b then a else b
/-- MAXU (Table 14-2). -/
def aluMaxu (a b : Word) : Word := if a.ult b then b else a
/-- MUL (Table 14-2, R139). -/
def aluMul (a b : Word) : Word := a * b
/-- MULH (Table 14-2, R139). -/
def aluMulh (a b : Word) : Word := ((a.signExtend 128 * b.signExtend 128) >>> 64).truncate 64
/-- MULHU (Table 14-2, R139). -/
def aluMulhu (a b : Word) : Word := ((a.zeroExtend 128 * b.zeroExtend 128) >>> 64).truncate 64
/-- DIV (Table 14-2, R139). -/
def aluDiv (a b : Word) : Word := if b = 0 then BitVec.allOnes 64 else a.sdiv b
/-- DIVU (Table 14-2, R139). -/
def aluDivu (a b : Word) : Word := if b = 0 then BitVec.allOnes 64 else a / b
/-- REM (Table 14-2, R139). -/
def aluRem (a b : Word) : Word := if b = 0 then a else a.srem b
/-- REMU (Table 14-2, R139). -/
def aluRemu (a b : Word) : Word := if b = 0 then a else a % b
/-- CLZ, CTZ, POPC (Table 14-2). -/
def aluClz (a : Word) : Word := BitVec.ofNat 64 (clzN 64 a.toNat)
def aluCtz (a : Word) : Word := BitVec.ofNat 64 (ctzN 64 a.toNat)
def aluPopc (a : Word) : Word := BitVec.ofNat 64 (popN 64 a.toNat)
/-- FSHR (Table 14-2): ((a ++ b) >> n)[63:0]. -/
def aluFshr (n : BitVec 6) (a b : Word) : Word := ((a ++ b) >>> n.toNat).truncate 64

/-- A sign-extended 13-bit immediate (R309). -/
def sext13 (i : BitVec 13) : Word := i.signExtend 64

/-- ADD (R308). -/
def execAdd (f : R3) (s : State) : Out := alu3 f aluAdd s
/-- SUB (R308). -/
def execSub (f : R3) (s : State) : Out := alu3 f aluSub s
/-- AND (R308). -/
def execAnd (f : R3) (s : State) : Out := alu3 f aluAnd s
/-- OR (R308). -/
def execOr (f : R3) (s : State) : Out := alu3 f aluOr s
/-- XOR (R308). -/
def execXor (f : R3) (s : State) : Out := alu3 f aluXor s
/-- SLL (R308). -/
def execSll (f : R3) (s : State) : Out := alu3 f aluSll s
/-- SRL (R308). -/
def execSrl (f : R3) (s : State) : Out := alu3 f aluSrl s
/-- SRA (R308). -/
def execSra (f : R3) (s : State) : Out := alu3 f aluSra s
/-- SLT (R308). -/
def execSlt (f : R3) (s : State) : Out := alu3 f aluSlt s
/-- SLTU (R308). -/
def execSltu (f : R3) (s : State) : Out := alu3 f aluSltu s
/-- MIN (R308). -/
def execMin (f : R3) (s : State) : Out := alu3 f aluMin s
/-- MAX (R308). -/
def execMax (f : R3) (s : State) : Out := alu3 f aluMax s
/-- MINU (R308). -/
def execMinu (f : R3) (s : State) : Out := alu3 f aluMinu s
/-- MAXU (R308). -/
def execMaxu (f : R3) (s : State) : Out := alu3 f aluMaxu s
/-- MUL (R308). -/
def execMul (f : R3) (s : State) : Out := alu3 f aluMul s
/-- MULH (R308). -/
def execMulh (f : R3) (s : State) : Out := alu3 f aluMulh s
/-- MULHU (R308). -/
def execMulhu (f : R3) (s : State) : Out := alu3 f aluMulhu s
/-- DIV (R308). -/
def execDiv (f : R3) (s : State) : Out := alu3 f aluDiv s
/-- DIVU (R308). -/
def execDivu (f : R3) (s : State) : Out := alu3 f aluDivu s
/-- REM (R308). -/
def execRem (f : R3) (s : State) : Out := alu3 f aluRem s
/-- REMU (R308). -/
def execRemu (f : R3) (s : State) : Out := alu3 f aluRemu s
/-- CLZ (R308). -/
def execClz (f : R2) (s : State) : Out := alu2 2 f.rd f.ra aluClz s
/-- CTZ (R308). -/
def execCtz (f : R2) (s : State) : Out := alu2 2 f.rd f.ra aluCtz s
/-- POPC (R308). -/
def execPopc (f : R2) (s : State) : Out := alu2 2 f.rd f.ra aluPopc s
/-- FSHR (R308). -/
def execFshr (f : R3) (n : BitVec 6) (s : State) : Out := alu3 f (aluFshr n) s
/-- ADDI (R309). -/
def execAddi (f : RI) (s : State) : Out := alu2 2 f.rd f.ra (fun a => aluAdd a (sext13 f.imm)) s
/-- ANDI (R309). -/
def execAndi (f : RI) (s : State) : Out := alu2 2 f.rd f.ra (fun a => aluAnd a (sext13 f.imm)) s
/-- ORI (R309). -/
def execOri (f : RI) (s : State) : Out := alu2 2 f.rd f.ra (fun a => aluOr a (sext13 f.imm)) s
/-- XORI (R309). -/
def execXori (f : RI) (s : State) : Out := alu2 2 f.rd f.ra (fun a => aluXor a (sext13 f.imm)) s
/-- SLTI (R309). -/
def execSlti (f : RI) (s : State) : Out := alu2 2 f.rd f.ra (fun a => aluSlt a (sext13 f.imm)) s
/-- SLTIU (R309). -/
def execSltiu (f : RI) (s : State) : Out := alu2 2 f.rd f.ra (fun a => aluSltu a (sext13 f.imm)) s
/-- SLLI (R309). -/
def execSlli (f : R2) (n : BitVec 6) (s : State) : Out := alu2 2 f.rd f.ra (fun a => a <<< n.toNat) s
/-- SRLI (R309). -/
def execSrli (f : R2) (n : BitVec 6) (s : State) : Out := alu2 2 f.rd f.ra (fun a => a >>> n.toNat) s
/-- SRAI (R309). -/
def execSrai (f : R2) (n : BitVec 6) (s : State) : Out := alu2 2 f.rd f.ra (fun a => a.sshiftRight n.toNat) s
/-- LIU (R323): sext(imm20 ++ 13 zero bits). -/
def execLiu (rd : BitVec 5) (imm : BitVec 20) (s : State) : Out := aluConst rd ((imm ++ 0#13).signExtend 64) s
/-- FLI (R103): zext(imm20 ++ 12 zero bits). -/
def execFli (rd : BitVec 5) (imm : BitVec 20) (s : State) : Out := aluConst rd ((imm ++ 0#12).zeroExtend 64) s

/-- The D bit of a short form's result is that of its long form's sources (R102). -/
def short3 (rd ra rb : BitVec 5) (g : Word → Word → Word) (s : State) : Out :=
  let c := s.me
  let t := s.th c
  let a := t.rdS ra
  let b := t.rdS rb
  .next (s.setTh c ((t.wrS rd (g a.val b.val) (a.d || b.d)).advance 1))

/-- C.MV is add sa, s0, sb (Table 5-2). -/
def execCMv (ra rb : BitVec 5) (s : State) : Out := short3 ra 0 rb aluAdd s
/-- C.LI is addi sa, s0, #i (Table 5-2). -/
def execCLi (ra : BitVec 5) (imm : BitVec 7) (s : State) : Out :=
  alu2 1 ra 0 (fun a => aluAdd a (imm.signExtend 64)) s
/-- C.ADDI is addi sa, sa, #i (Table 5-2). -/
def execCAddi (ra : BitVec 5) (imm : BitVec 7) (s : State) : Out :=
  alu2 1 ra ra (fun a => aluAdd a (imm.signExtend 64)) s
/-- C.ADD is add sa, sa, sb (Table 5-2). -/
def execCAdd (ra rb : BitVec 5) (s : State) : Out := short3 ra ra rb aluAdd s
/-- C.SUB is sub sa, sa, sb (Table 5-2). -/
def execCSub (ra rb : BitVec 5) (s : State) : Out := short3 ra ra rb aluSub s
/-- C.SLLI is slli sa, sa, #n (Table 5-2). -/
def execCSlli (ra : BitVec 5) (n : BitVec 6) (s : State) : Out := alu2 1 ra ra (fun a => a <<< n.toNat) s

end Sys2Proof.Machine
end

