-- ==== Sys2Proof/Machine/Fpu.lean ====
section
/-! DEFINITION. The scalar floating-point group and FMA (R314, R316, R128-R135). -/
namespace Sys2Proof.Machine
open Sys2Proof

def fdec (x : Nat) : FVal := fmtFP32.decode x

/-- Delivers a rounded FP32 result: flags merge, a tiny result is flushed or takes SUBN (R133, R135). -/
def fpWrite (rd : BitVec 5) (d : Bool) (r : FRes) (s : State) : Out :=
  let c := s.me
  let t := s.th c
  match fpDeliver (flushing t.pos.mode t.csr.ftz) r with
  | .subn => .next (takeTrapAt s c (s.th c).pos cSubn 0 false noQueue)
  | .ok bits fl => .next (s.setTh c (((t.merge fl).wrS rd (BitVec.ofNat 64 bits) d).advance 2))

/-- The exact result of a rounding operation of two operands. -/
def fpAdd (rm : Rm) (a b : Nat) : FRes := fmtFP32.round rm false ((fdec a).add rm (fdec b))
def fpSub (rm : Rm) (a b : Nat) : FRes := fmtFP32.round rm false ((fdec a).add rm (fdec b).neg)
def fpMul (rm : Rm) (a b : Nat) : FRes := fmtFP32.round rm false ((fdec a).mul (fdec b))
def fpDiv (rm : Rm) (a b : Nat) : FRes := fmtFP32.round rm false ((fdec a).div (fdec b))
def fpSqrt (rm : Rm) (a : Nat) : FRes := fmtFP32.round rm false (fdec a).sqrt
def fpFma (rm : Rm) (a b c : Nat) : FRes := fmtFP32.round rm false (FVal.fma rm (fdec a) (fdec b) (fdec c))

/-- A binary rounding operation. -/
def fpu3 (f : R3) (g : Nat → Nat → FRes) (s : State) : Out :=
  let t := s.th s.me
  let a := t.rdS f.ra
  let b := t.rdS f.rb
  fpWrite f.rd (a.d || b.d) (g (fpBits a.val) (fpBits b.val)) s

/-- A comparison, writing 0 or 1. -/
def fpCmp (op : ElCmp) (a b : Nat) : FRes :=
  let r := cmpFloat op (fdec a) (fdec b)
  { bits := if r.1 then 1 else 0, flags := { nv := r.2 } }

/-- A unary operation whose 64-bit result `g` forms with its flags; never tiny. -/
def fpu2 (f : R2) (g : Nat → Word × Flags) (s : State) : Out :=
  let c := s.me
  let t := s.th c
  let a := t.rdS f.ra
  let r := g (fpBits a.val)
  .next (s.setTh c (((t.merge r.2).wrS f.rd r.1 a.d).advance 2))

def sext32 (x : Nat) : Word := (BitVec.ofNat 32 x).signExtend 64

/-- FADD (R314). -/
def execFadd (f : R3) (rm : BitVec 2) (s : State) : Out := fpu3 f (fpAdd (Rm.ofBits rm)) s
/-- FSUB (R314). -/
def execFsub (f : R3) (rm : BitVec 2) (s : State) : Out := fpu3 f (fpSub (Rm.ofBits rm)) s
/-- FMUL (R314). -/
def execFmul (f : R3) (rm : BitVec 2) (s : State) : Out := fpu3 f (fpMul (Rm.ofBits rm)) s
/-- FDIV (R314). -/
def execFdiv (f : R3) (rm : BitVec 2) (s : State) : Out := fpu3 f (fpDiv (Rm.ofBits rm)) s
/-- FSQRT (R314). -/
def execFsqrt (f : R2) (rm : BitVec 2) (s : State) : Out :=
  let a := (s.th s.me).rdS f.ra
  fpWrite f.rd a.d (fpSqrt (Rm.ofBits rm) (fpBits a.val)) s
/-- FMIN (R314, R132). -/
def execFmin (f : R3) (s : State) : Out := fpu3 f (fun a b => { bits := fmtFP32.minmax false a b }) s
/-- FMAX (R314, R132). -/
def execFmax (f : R3) (s : State) : Out := fpu3 f (fun a b => { bits := fmtFP32.minmax true a b }) s
/-- FEQ (R314, R132). -/
def execFeq (f : R3) (s : State) : Out := fpu3 f (fpCmp .eq) s
/-- FLT (R314, R132). -/
def execFlt (f : R3) (s : State) : Out := fpu3 f (fpCmp .lt) s
/-- FLE (R314, R132). -/
def execFle (f : R3) (s : State) : Out := fpu3 f (fpCmp .le) s
/-- FCVTWS (R314, R140). -/
def execFcvtws (f : R2) (rm : BitVec 2) (s : State) : Out :=
  fpu2 f (fun a => let r := (fdec a).toInteger (Rm.ofBits rm) true 32; (sext32 r.bits, r.flags)) s
/-- FCVTUS (R314, R140). -/
def execFcvtus (f : R2) (rm : BitVec 2) (s : State) : Out :=
  fpu2 f (fun a => let r := (fdec a).toInteger (Rm.ofBits rm) false 32; (BitVec.ofNat 64 r.bits, r.flags)) s
/-- FCVTSW (R314, R140). -/
def execFcvtsw (f : R2) (rm : BitVec 2) (s : State) : Out :=
  fpu2 f (fun a => let r := fmtFP32.ofInt (Rm.ofBits rm) false (toIntOf true 32 a); (BitVec.ofNat 64 r.bits, r.flags)) s
/-- FCVTSU (R314, R140). -/
def execFcvtsu (f : R2) (rm : BitVec 2) (s : State) : Out :=
  fpu2 f (fun a => let r := fmtFP32.ofInt (Rm.ofBits rm) false (toIntOf false 32 a); (BitVec.ofNat 64 r.bits, r.flags)) s
/-- FABS (R314): a NaN gives the canonical NaN. -/
def execFabs (f : R2) (s : State) : Out :=
  fpu2 f (fun a => (BitVec.ofNat 64 (if (fdec a).isNan then fmtFP32.nanBits else a % 2 ^ 31), {})) s
/-- FNEG (R314): a NaN gives the canonical NaN. -/
def execFneg (f : R2) (s : State) : Out :=
  fpu2 f (fun a => (BitVec.ofNat 64 (if (fdec a).isNan then fmtFP32.nanBits else a ^^^ 2 ^ 31), {})) s
/-- FMA (R316): rd is also read. -/
def execFma (f : R3) (rm : BitVec 2) (s : State) : Out :=
  let t := s.th s.me
  let a := t.rdS f.ra
  let b := t.rdS f.rb
  let c := t.rdS f.rd
  fpWrite f.rd (a.d || b.d || c.d) (fpFma (Rm.ofBits rm) (fpBits a.val) (fpBits b.val) (fpBits c.val)) s

end Sys2Proof.Machine
end

