-- ==== Sys2Proof/Machine/Amo.lean ====
section
/-! DEFINITION. Atomics, acquire loads and release stores (R106, R272, R307, R321). -/
namespace Sys2Proof.Machine
open Sys2Proof

/-- The operations of Table 14-1. -/
inductive AmoOp where
  | add | swp | cas | and | or | xor | min | max | minu | maxu | fadd
  deriving DecidableEq, Repr

/-- f(old, b, c) of Table 14-1 on w-byte values; none where nothing is written. -/
def amoVal (op : AmoOp) (w old b c : Nat) : Option Nat :=
  let bits := 8 * w
  let sg := fun x => toIntOf true bits x
  match op with
  | .add => some ((old + b) % 2 ^ bits)
  | .swp => some b
  | .cas => if old = c then some b else none
  | .and => some (old &&& b)
  | .or => some (old ||| b)
  | .xor => some (old ^^^ b)
  | .min => some (if sg b < sg old then b else old)
  | .max => some (if sg old < sg b then b else old)
  | .minu => some (Nat.min old b)
  | .maxu => some (Nat.max old b)
  | .fadd => some (fpAdd .rne old b).bits

/-- The operations a HOST-U target accepts (Table 12-5). -/
def AmoOp.hostOk : AmoOp → Bool
  | .add | .swp | .cas => true
  | _ => false

/-- A HOST-U target whose operation Table 12-5 does not accept: ATYPE, after translation (R272). -/
def atypeAt (s : State) (c : Nat) (op : AmoOp) (a : Word) (w : Nat) : Bool :=
  !op.hostOk && aligned a w && decide (a.toNat < 2 ^ 57) && !inWindow a.toNat &&
    (match (translateOn s (s.ctxOf c) (dieOfCore c) a.toNat).permit .atomic with
    | .ok l => decide (l.cls = .hostU)
    | _ => false)

/-- An ordered access acts above core scope (R248, R249, R250): the release writes the FIFO back, the acquire (bit 0) takes
what has been performed. -/
def ordered (s : State) (c : Nat) (order : BitVec 2) : State :=
  if order = 0#2 then s else if order.getLsbD 0 then acquireAll s c else drainFifo s c

/-- Where an atomic or a release store to a HOST-C line is performed, no line stays in the FIFO (R272, R321). -/
def pastFifo (cls : Option Cls) : Option Cls := if cls = some .hostC then some .dev else cls

/-- An AMO (R307). One that was on its way to the host when its strand was cancelled is performed, and its result is
discarded (R61). -/
def amo (op : AmoOp) (f : R3) (order : BitVec 2) (dbl : Bool) (s : State) : Out :=
  let w := if dbl then 8 else 4
  guardD s (if op = .cas then [f.rd, f.ra, f.rb] else [f.ra, f.rb]) fun s =>
    let c := s.me
    let t := s.th c
    let a := (t.rdS f.ra).val
    let lo := fun (r : BitVec 5) => (t.rdS r).val.toNat % 2 ^ (8 * w)
    if decide (t.job.park = .run) && atypeAt s c op a w then .next (takeTrap s c cAtype a)
    else coreAccess s c .atomic (order.getLsbD 1) a w fun key cls s =>
      let late := if cls = some .hostU then killedStrand s c else none
      let s := ordered s c order
      let old := s.mem.readNat key w
      let s := match amoVal op w old (lo f.rb) (lo f.rd) with
        | some v => storeOut s c a key (pastFifo cls) (leBytes w v)
        | none => if ownSpad c key then s else s.setTh c (clearRestart (s.th c))
      match late with
      | some ticket => .next ((s.setTh c ((s.th c).advance 2)).updCancel ticket (fun x => { x with atomics := x.atomics + 1 }))
      | none => .next (s.setTh c (((s.th c).wrS f.rd (BitVec.ofNat 64 old) false).advance 2))

/-- AADD (R307). -/
def execAadd (f : R3) (order : BitVec 2) (dbl : Bool) (s : State) : Out := amo .add f order dbl s
/-- ASWP (R307). -/
def execAswp (f : R3) (order : BitVec 2) (dbl : Bool) (s : State) : Out := amo .swp f order dbl s
/-- ACAS (R307). -/
def execAcas (f : R3) (order : BitVec 2) (dbl : Bool) (s : State) : Out := amo .cas f order dbl s
/-- AAND (R307). -/
def execAand (f : R3) (order : BitVec 2) (dbl : Bool) (s : State) : Out := amo .and f order dbl s
/-- AOR (R307). -/
def execAor (f : R3) (order : BitVec 2) (dbl : Bool) (s : State) : Out := amo .or f order dbl s
/-- AXOR (R307). -/
def execAxor (f : R3) (order : BitVec 2) (dbl : Bool) (s : State) : Out := amo .xor f order dbl s
/-- AMIN (R307). -/
def execAmin (f : R3) (order : BitVec 2) (dbl : Bool) (s : State) : Out := amo .min f order dbl s
/-- AMAX (R307). -/
def execAmax (f : R3) (order : BitVec 2) (dbl : Bool) (s : State) : Out := amo .max f order dbl s
/-- AMINU (R307). -/
def execAminu (f : R3) (order : BitVec 2) (dbl : Bool) (s : State) : Out := amo .minu f order dbl s
/-- AMAXU (R307). -/
def execAmaxu (f : R3) (order : BitVec 2) (dbl : Bool) (s : State) : Out := amo .maxu f order dbl s
/-- AFADD (R307): gradual underflow, no flag. -/
def execAfadd (f : R3) (order : BitVec 2) (s : State) : Out := amo .fadd f order false s

/-- LDAQ (R321): an acquire load. -/
def execLdaq (f : R2) (dbl : Bool) (s : State) : Out :=
  let w := if dbl then 8 else 4
  guardD s [f.ra] fun s =>
    let c := s.me
    let a := ((s.th c).rdS f.ra).val
    coreAccess s c .read false a w fun key _ s =>
      let s := acquireAll s c
      .next (s.setTh c (((s.th c).wrS f.rd (BitVec.ofNat 64 (s.mem.readNat key w)) false).advance 2))

/-- STRL (R321): a release store. A HOST-C line is written back before it completes, so none stays in the FIFO. -/
def execStrl (ra rb : BitVec 5) (dbl : Bool) (s : State) : Out :=
  let w := if dbl then 8 else 4
  guardD s [ra, rb] fun s =>
    let c := s.me
    let t := s.th c
    let a := (t.rdS ra).val
    let v := (t.rdS rb).val.toNat
    coreAccess s c .write true a w fun key cls s =>
      .next ((storeOut (drainFifo s c) c a key (pastFifo cls) (leBytes w v)).advance c 2)

end Sys2Proof.Machine
end

