-- ==== Sys2Proof/Machine/Branch.lean ====
section
/-! DEFINITION. Branches, jumps, the rotating loop and the deferred-fault branch (R90, R93, R310, R311, R318,
R319). -/
namespace Sys2Proof.Machine
open Sys2Proof

/-- P + 2 sext(off) (R310, R318). -/
def target {n : Nat} (p : Pos) (off : BitVec n) : Word := p.pc + (off.signExtend 64 <<< 1)

/-- A conditional branch (R310). -/
def condBranch (f : RB) (cond : Word → Word → Bool) (s : State) : Out :=
  guardD s [f.ra, f.rb] fun s =>
    let c := s.me
    let t := s.th c
    if cond (t.rdS f.ra).val (t.rdS f.rb).val then .next (s.setTh c (t.branch (target t.pos f.off)))
    else .next (s.setTh c (t.advance 2))

/-- BEQ (R310). -/
def execBeq (f : RB) (s : State) : Out := condBranch f (fun a b => a == b) s
/-- BNE (R310). -/
def execBne (f : RB) (s : State) : Out := condBranch f (fun a b => a != b) s
/-- BLT (R310). -/
def execBlt (f : RB) (s : State) : Out := condBranch f (fun a b => a.slt b) s
/-- BGE (R310). -/
def execBge (f : RB) (s : State) : Out := condBranch f (fun a b => b.sle a) s
/-- BLTU (R310). -/
def execBltu (f : RB) (s : State) : Out := condBranch f (fun a b => a.ult b) s
/-- BGEU (R310). -/
def execBgeu (f : RB) (s : State) : Out := condBranch f (fun a b => b.ule a) s

/-- JAL (R318). -/
def execJal (link : Bool) (off : BitVec 20) (s : State) : Out :=
  let c := s.me
  let t := s.th c
  let p := t.pos
  .next (s.setTh c ((if link then t.wrS 31#5 p.ret false else t).branch (target p off)))

/-- JALR (R319). -/
def execJalr (f : RI) (s : State) : Out :=
  guardD s [f.ra] fun s =>
    let c := s.me
    let t := s.th c
    let dest := (t.rdS f.ra).val + f.imm.signExtend 64
    if dest.getLsbD 0 then .next (takeTrap s c cMisalign dest)
    else .next (s.setTh c ((t.wrS f.rd t.pos.ret false).branch dest))

/-- The bases raised by one (R90). -/
def rotate (r : Csrs) : Csrs := { r with vb := r.vb + 1, pb := r.pb + 1 }

/-- LOOPR's pass (R90): the bases rise, the new logical p8 is written, the branch is taken. -/
def looprPass (t : Thread) (r : Csrs) (ones : Bool) (off : BitVec 13) : Thread :=
  let r := rotate r
  let p8 : PCell := { val := if ones then BitVec.allOnes 256 else 0 }
  ({ t with csr := r, regs := t.regs.wrP (mapP r.pb 8#5) p8 }).branch (target t.pos off)

/-- LOOPR (R90); the write of p8 waits under R81. -/
def execLoopr (off : BitVec 13) (s : State) : Out :=
  let c := s.me
  let t := s.th c
  let r := t.csr
  if r.trips = 0#64 ∧ r.drain = 0#64 then .next (s.setTh c (t.advance 2))
  else
    let p8 := (mapP (r.pb + 1) 8#5).toNat
    waitQueues s c (fun e => e.writesP.contains p8 || e.readsP.contains p8) fun s =>
      let t := s.th c
      if r.trips ≠ 0#64 then
        .next (s.setTh c (looprPass t { t.csr with trips := t.csr.trips - 1 } true off))
      else .next (s.setTh c (looprPass t { t.csr with drain := t.csr.drain - 1 } false off))

/-- The tests of BP (R311). -/
def bpTest (test : BitVec 2) (x : PReg) : Bool :=
  match test.toNat with
  | 0 => decide (x ≠ 0)
  | 1 => decide (x = 0)
  | _ => decide (x = BitVec.allOnes 256)

/-- BP (R311). -/
def execBp (p : BitVec 5) (test : BitVec 2) (off : BitVec 13) (s : State) : Out :=
  let c := s.me
  let n := mapP (s.th c).csr.pb p
  waitQueues s c (fun e => e.writesP.contains n.toNat) fun s =>
    let t := s.th c
    let x := t.regs.rdP n
    if x.ecc then .next (takeTrap s c cEcc 0)
    else if x.d then .next (takeTrap s c cDfault (dCode 2 p.toNat))
    else if bpTest test x.val then .next (s.setTh c (t.branch (target t.pos off)))
    else .next (s.setTh c (t.advance 2))

/-- The branch of CHKD on a D bit. -/
def chkdBranch (s : State) (c : Nat) (d : Bool) (off : BitVec 13) : Out :=
  let t := s.th c
  if d then .next (s.setTh c (t.branch (target t.pos off))) else .next (s.setTh c (t.advance 2))

/-- CHKD (R93). -/
def execChkd (cls : BitVec 2) (n : BitVec 6) (off : BitVec 13) (s : State) : Out :=
  let c := s.me
  let t := s.th c
  match cls.toNat with
  | 0 => chkdBranch s c (t.rdS (n.truncate 5)).d off
  | 1 =>
    let v := mapV t.csr.vb n
    waitQueues s c (fun e => e.writesV.contains v.toNat) fun s => chkdBranch s c ((s.th c).regs.rdV v 0).d off
  | _ =>
    let p := mapP t.csr.pb (n.truncate 5)
    waitQueues s c (fun e => e.writesP.contains p.toNat) fun s => chkdBranch s c ((s.th c).regs.rdP p).d off

end Sys2Proof.Machine
end

