-- ==== Sys2Proof/Machine/Layout.lean ====
section
/-! DEFINITION. Accesses of the sequencers and the engines to memory, and the layouts of Flume packets (R220-R223). -/
namespace Sys2Proof.Machine
open Sys2Proof

/-! ### Accesses without a core -/

/-- An access by the sequencer, a shard on a die in a context: an address of the local window names no
core's scratchpad there. -/
def seqCheck (s : State) (ctx die : Nat) (k : AccKind) (a : Word) (n : Nat) : Acc :=
  if inWindow a.toNat then .fault cRect a
  else checkAccess s { ctx := ctx, die := die, core := none, rect := 0, owner := none } k a n

/-- The die at which an access by the sequencer or a shard is performed. -/
def seqTarget (s : State) (ctx die : Nat) (a : Word) (key : Nat) : Nat :=
  targetDie s { ctx := ctx, die := die, core := none, rect := 0, owner := none } a key

/-- What the sequencer or a shard reads. -/
inductive SRd where
  | ok (v : Nat)
  | fault
  | absent (va : Word)
  | held (line : Nat)
  deriving DecidableEq, Repr

/-- n units of w bytes from an address, the first lowest; the first that cannot be read decides. -/
def seqRead (s : State) (ctx die w : Nat) : Nat → Word → SRd
  | 0, _ => .ok 0
  | n + 1, a =>
    match seqCheck s ctx die .read a w with
    | .ok key _ =>
      match seqRead s ctx die w n (a + BitVec.ofNat 64 w) with
      | .ok v => .ok (s.mem.readNat key w + 2 ^ (8 * w) * v)
      | r => r
    | .fault _ _ => .fault
    | .absent va => .absent va
    | .held line => .held line

/-! ### Layouts (R220-R222) -/

/-- The fields of a layout record of 256 bits; none where it is malformed (R221, R222). -/
def layoutOf (v : Nat) : Option Layout :=
  let kind := nbits v 6 2
  let rank := nbits v 0 3
  let exts := (List.range 5).map (fun j => nbits v (16 + 16 * j) 16)
  let strs := (List.range 5).map (fun j => toIntOf true 32 (nbits v (96 + 32 * j) 32))
  let ext := exts.take rank
  let pow2 := ext.all (fun e => (List.range 16).any (fun b => e == 2 ^ b))
  if kind = 3 ∨ nbits v 5 1 ≠ 0 ∨ nbits v 8 8 ≠ 0 ∨ rank = 0 ∨ 5 < rank ∨ ext.any (fun e => e == 0) ∨
      (exts.drop rank).any (fun e => e != 0) ∨ (kind = 1 ∧ (3 < rank ∨ nbits v 192 64 % 4 ≠ 0)) ∨
      (kind = 2 ∧ (rank < 2 ∨ 3 < rank ∨ !pow2 ∨ strs.any (fun x => x != 0))) then none
  else some { kind := kind, esz := nbits v 3 2, ext := ext, str := strs.take rank,
              idx := if kind = 1 then BitVec.ofNat 64 (nbits v 192 64) else 0 }

def Layout.count (x : Layout) : Nat := x.ext.foldl (· * ·) 1
def Layout.width (x : Layout) : Nat := 2 ^ x.esz

/-- n elements of 2^esz bytes that follow one another. -/
def linear (n esz : Nat) : Layout := { esz := esz, ext := [n], str := [1] }

/-- The n-th coordinate, dimension 0 fastest. -/
def coordOf : List Nat → Nat → List Nat
  | [], _ => []
  | e :: es, n => n % e :: coordOf es (n / e)

def dotStr : List Nat → List Int → Int
  | c :: cs, x :: xs => (c : Int) * x + dotStr cs xs
  | _, _ => 0

/-- The interleaved bits of a coordinate (R222). -/
def mortonOff (c : List Nat) : Nat :=
  let r := c.length
  (List.range 16).foldl (fun acc b =>
    (List.range r).foldl (fun acc j => acc + nbits (c.getD j 0) b 1 * 2 ^ (r * b + j)) acc) 0

/-- The element offset of a coordinate (R221). -/
def Layout.off (x : Layout) (c : List Nat) : Int :=
  if x.kind = 2 then (mortonOff c : Nat)
  else if x.kind = 1 then
    let c0 := c.headD 0
    let s0 := x.str.headD 0
    dotStr c x.str - (c0 : Int) * s0 + ((x.vals.getD c0 0 : Nat) : Int) * s0
  else dotStr c x.str

/-- The address of the n-th element of a side. -/
def Side.addr (x : Side) (n : Nat) : Int := (x.base.toNat : Int) + x.lay.off (coordOf x.lay.ext n) * (x.lay.width : Nat)

/-! ### The range of a side (R223) -/

/-- The least and the greatest element offset of a layout. -/
def Layout.bounds (x : Layout) : Int × Int :=
  let dim := fun (e : Nat) (str : Int) =>
    let d := ((e - 1 : Nat) : Int) * str
    (min 0 d, max 0 d)
  let add := fun (p q : Int × Int) => (p.1 + q.1, p.2 + q.2)
  if x.kind = 2 then (0, x.off (x.ext.map (fun e => e - 1)))
  else if x.kind = 1 then
    let ys := x.vals.map (fun v => ((v : Nat) : Int) * x.str.headD 0)
    let y := ys.foldl (fun p v => (min p.1 v, max p.2 v)) (ys.headD 0, ys.headD 0)
    (List.zipWith dim x.ext.tail x.str.tail).foldl add y
  else (List.zipWith dim x.ext x.str).foldl add (0, 0)

/-- The lowest and the highest byte address of a side. -/
def Side.range (x : Side) : Int × Int :=
  let b := x.lay.bounds
  let w := ((x.lay.width : Nat) : Int)
  let a := (x.base.toNat : Int)
  (a + b.1 * w, a + b.2 * w + w - 1)

/-! ### Layouts read ahead -/

/-- n units of w bytes from an address, where they can be read at once: none where a page is not present, faults, or lies in HOST-U
memory, or a line is in the host's hands. -/
def peekRead (s : State) (ctx die w n : Nat) (a : Word) : Option Nat :=
  let near := (pageParts a (w * n)).all (fun p => match seqCheck s ctx die .part p.1 1 with
    | .ok _ cls => cls != some .hostU
    | _ => false)
  match seqRead s ctx die w n a, near with
  | .ok v, true => some v
  | _, _ => none

/-- A layout with its index array, where that can be read at once. -/
def peekIndex (s : State) (ctx die : Nat) (x : Layout) : Option Layout :=
  if x.kind ≠ 1 then some x
  else (peekRead s ctx die 4 (x.ext.headD 0) x.idx).map (fun v =>
    { x with vals := (List.range (x.ext.headD 0)).map (fun i => nbits v (32 * i) 32) })

/-- The layout pair at an address, where it can be read at once and is well formed. -/
def peekPair (s : State) (ctx die : Nat) (a : Word) : Option (Layout × Layout) :=
  (peekRead s ctx die 32 2 a).bind fun v =>
    (layoutOf (v % 2 ^ 256)).bind fun x => (layoutOf (v / 2 ^ 256)).bind fun y =>
      (peekIndex s ctx die x).bind fun x => (peekIndex s ctx die y).map fun y => (x, y)

end Sys2Proof.Machine
end

