-- ==== Sys2Proof/Machine/Scope.lean ====
section
/-! DEFINITION. The scope tree (R52, R53), result codes (R56), and the instructions on scopes (R57, R58, R63). -/
namespace Sys2Proof.Machine
open Sys2Proof

/-- Result codes (Table 3-4, R180, R203, R259, R267). -/
def rBusy : Word := 0xFFFFFFFFFFFFFFFF
def rNoqueue : Word := 0xFFFFFFFFFFFFFFFE
def rBadscope : Word := 0xFFFFFFFFFFFFFFFD
def rBadchan : Word := 0xFFFFFFFFFFFFFFFC
def rNoticket : Word := 0xFFFFFFFFFFFFFFFB
def rNofree : Word := 0xFFFFFFFFFFFFFFFA
def rBaddesc : Word := 0xFFFFFFFFFFFFFFF9
def rBadsem : Word := 0xFFFFFFFFFFFFFFF8
def rBadbar : Word := 0xFFFFFFFFFFFFFFF7
def rNodie : Word := 0xFFFFFFFFFFFFFFF6

/-- Writes a result with D clear and goes on to the next instruction (R55, R306). -/
def result (s : State) (c : Nat) (rd : BitVec 5) (v : Word) : Out :=
  .next (s.setTh c (((s.th c).wrS rd v false).advance 2))

/-- Leaves the wait of an instruction. -/
def unwait (s : State) (c : Nat) : State :=
  let t := s.th c
  s.setTh c { t with job := { t.job with wait := .none } }

def setWait (s : State) (c : Nat) (w : WaitSt) : State :=
  let t := s.th c
  s.setTh c { t with job := { t.job with wait := w } }

/-- A scope and its ancestors, nearest first; a tree is at most 64 levels deep (R52). -/
def chain (s : State) : Nat → Nat → List Nat
  | 0, _ => []
  | d + 1, n =>
    match (s.scope n).parent with
    | none => [n]
    | some p => n :: chain s d p

def ancestors (s : State) (n : Nat) : List Nat := chain s 64 n

/-- Scope n lies in the subtree of `root`; a FREE scope lies in none. -/
def inSubtree (s : State) (n root : Nat) : Bool :=
  decide ((s.scope n).st ≠ .free) && (ancestors s n).contains root

/-- LIVE, CANCELLING or DONE (R53). -/
def scopeOpen (x : Scope) : Bool := decide (x.st ≠ .free)

/-- The lowest FREE scope number from k on. -/
def freeFrom (s : State) : Nat → Nat → Option Nat
  | 0, _ => none
  | n + 1, k => if (s.scope k).st = .free then some k else freeFrom s n (k + 1)

/-- The number SCOPENEW or the driver takes (R57): the one the hardware chooses if it is FREE, else the lowest. -/
def pickScope (s : State) : Option Nat :=
  let h := (Config.scopeHint s.fresh).toNat
  match freeFrom s 65536 0 with
  | none => none
  | some k => if (s.scope h).st = .free then some h else some k

/-- A FREE number becomes LIVE, its serial incremented, CANC clear (R52, R53, R63). -/
def allocScope (s : State) (n ctx : Nat) (parent : Option Nat) (home : Nat) (by_ : Creator) : State :=
  let x : Scope := { ctx := ctx, parent := parent, home := home, st := .live, serial := (s.scope n).serial + 1,
                     canc := false, ticket := 0, markFree := false, creator := by_ }
  { s.setScope n x with fresh := s.fresh + 1 }

/-- In K mode a scope operand must lie in the subtree of SCOPE.LSC (R57, R58, R259). -/
def lscOk (s : State) (c n : Nat) : Bool :=
  let t := s.th c
  t.pos.mode == .h || inSubtree s n t.job.lsc.toNat

/-- SCOPENEW (R57). -/
def execScopenew (f : R2) (s : State) : Out :=
  guardD s [f.ra] fun s =>
    let c := s.me
    let v := ((s.th c).rdS f.ra).val
    let n := v.toNat
    let p := s.scope n
    if 65536 ≤ n ∨ p.st ≠ .live ∨ p.ctx ≠ s.ctxOf c ∨ 64 ≤ (ancestors s n).length ∨ !lscOk s c n then
      result s c f.rd rBadscope
    else match pickScope s with
      | none => result s c f.rd rNofree
      | some k =>
        result (allocScope s k (s.ctxOf c) (some n) p.home (.launch (s.th c).job.launch)) c f.rd (BitVec.ofNat 64 k)

/-- CANCEL (R58): the release, the request, then the wait for the home's reply, which is no kill point. -/
def execCancel (f : R2) (s : State) : Out :=
  let c := s.me
  match (s.th c).job.wait with
  | .cancelDone v => result (unwait s c) c f.rd v
  | .cancel _ => .next s
  | _ =>
    guardD s [f.ra] fun s =>
      let n := ((s.th c).rdS f.ra).val.toNat
      let x := s.scope n
      if 65536 ≤ n ∨ !scopeOpen x ∨ x.ctx ≠ s.ctxOf c ∨ !lscOk s c n then result s c f.rd rBadscope
      else
        let t := s.th c
        let root := if t.pos.mode = .h then none else some t.job.lsc.toNat
        releaseWait s c fun s =>
          let (m, s) := s.tick
          .next (setWait (askCancel s (dieOfCore c) n (.strand c m) (s.ctxOf c) root) c (.cancel m))

/-- What SCOPEWAIT finds (R63): no ticket, ended, or still going on. -/
def ticketState (s : State) (v : Word) : Option Bool :=
  let x := s.scope (nbits v.toNat 0 16)
  let serial := nbits v.toNat 16 32
  if nbits v.toNat 48 16 ≠ 0 ∨ x.serial.toNat < serial then none
  else if serial < x.serial.toNat then some true
  else if !x.canc then none
  else some (x.st == .done || x.st == .free)

/-- SCOPEWAIT (R63). -/
def execScopewait (f : R2) (s : State) : Out :=
  guardD s [f.ra] fun s =>
    let c := s.me
    match ticketState s ((s.th c).rdS f.ra).val with
    | none => result s c f.rd rNoticket
    | some true => result (acquireAll s c) c f.rd 1
    | some false => killPoint s c fun s => .next s

end Sys2Proof.Machine
end

