-- ==== Sys2Proof/Machine/Sync.lean ====
section
/-! DEFINITION. Semaphores (R179-R181), barriers (R258-R260), fences (R255, R256), token channels (R66-R68), time
(R74, R75) and the virtual dies a strand asks about (R267, R268). -/
namespace Sys2Proof.Machine
open Sys2Proof

/-- NOP (R326). -/
def execNop (s : State) : Out := .next (s.advance s.me 2)

/-! ### Instruction lines (R123-R125) -/

/-- A 128-byte line as the core fetches it: its bytes, or the cause its fetch meets; nothing where its page is not present or
the host holds it, which only the execution of its instructions reports (R124), nor where it lies in HOST-U memory, unless the
host has answered (R273). -/
def fetchLine (s : State) (c line : Nat) (answered : Bool := false) : Option FetchLine :=
  match checkAccess s (s.whoThread c) .fetch (BitVec.ofNat 64 (line * 128)) 128 with
  | .ok key cls =>
    if cls = some .hostU ∧ !answered then none
    else some { line := line, data := s.mem.readBytes key 128, bad := none, last := false }
  | .fault cause _ => some { line := line, data := [], bad := some cause, last := false }
  | _ => none

/-- The line that core c holds, if it holds it. -/
def heldLineAt (s : State) (c line : Nat) : Option FetchLine := (s.core c).ahead.find? (fun x => x.line == line)

/-- A count of 32 bits rises by n and saturates. -/
def satAdd (x : BitVec 32) (n : Nat) : BitVec 32 := BitVec.ofNat 32 (Nat.min (x.toNat + n) 0xFFFFFFFF)

/-- Core c discards the lines that satisfy `p`: a line whose fetch met an error, discarded before it was executed, is counted
(R124, Table 13-7). -/
def discardLines (s : State) (c : Nat) (p : FetchLine → Bool) : State :=
  let k := s.core c
  if k.ahead.isEmpty then s
  else
    let gone := k.ahead.filter p
    let s := s.setCore c { k with ahead := k.ahead.filter (fun x => !p x) }
    let n := (gone.filter (fun x => x.bad.isSome)).length
    if n = 0 then s
    else
      let d := s.die (dieOfCore c)
      s.setDie (dieOfCore c) { d with fetchdisc := satAdd d.fetchdisc n }

/-- Core c fetches a line ahead (R123); a line it holds stays. -/
def fetchAhead (s : State) (c line : Nat) (answered : Bool := false) : State :=
  match heldLineAt s c line, fetchLine s c line answered with
  | none, some x => s.setCore c { s.core c with ahead := x :: (s.core c).ahead }
  | _, _ => s

/-- The lines of the rest of the current pass (R125). -/
def restOfPass (p : Pos) : List Nat :=
  let lo := p.pc.toNat / 128
  (List.range ((p.ret.toNat + 127) / 128 - lo)).map (fun j => lo + j)

/-- A line that core c does not hold lies in HOST-U memory: the host must be asked for it (R273). -/
def lineAsks (s : State) (c line : Nat) : Bool :=
  (heldLineAt s c line).isNone && (fetchLine s c line).isNone && (fetchLine s c line true).isSome

/-- A line of code is requested from the host, unless a request of the core is still out (R273). -/
def askCode (s : State) (c : Nat) (va : Word) : State :=
  let t := s.th c
  match t.job.code with
  | .idle => s.setTh c { t with job := { t.job with code := .sent va 0 } }
  | _ => s

/-- ISYNC (R125): what was fetched ahead and what the loop buffers hold is discarded, but the rest of the current pass, which executes as already fetched:
lines of it in HOST-U memory that the core does not hold yet are requested first (R273). -/
def execIsync (s : State) : Out :=
  let c := s.me
  let rest := restOfPass (s.th c).pos
  match rest.find? (lineAsks s c) with
  | some l => .next (askCode s c (BitVec.ofNat 64 (128 * l)))
  | none =>
  let s := rest.foldl (fun s l => fetchAhead s c l) s
  let s := discardLines s c (fun x => !rest.contains x.line)
  let k := s.core c
  let s := s.setCore c { k with
    ahead := k.ahead.map (fun x => { x with last := true }), loop := k.loop.map (fun b => { b with last := true }) }
  .next (s.advance c 2)

/-! ### Semaphores -/

def Streams.semAt (r : Streams) (n : Nat) : BitVec 16 := r.sem.toList.getD n 0
def Streams.setSem (r : Streams) (n : Nat) (v : BitVec 16) : Streams := { r with sem := r.sem.setIfInBounds n v }

/-- The count of semaphore n of core c, and setting it (R179). -/
def semOf (s : State) (c n : Nat) : BitVec 16 := (s.th c).strm.semAt n
def setSemOf (s : State) (c n : Nat) (v : BitVec 16) : State :=
  let t := s.th c
  s.setTh c { t with strm := t.strm.setSem n v }

/-- An uncorrectable error lies in the count of semaphore n of core c (R304). -/
def semBad (s : State) (c n : Nat) : Bool := (s.th c).marks.contains (7, n)

/-- SEMW (R180). -/
def execSemw (f : R2) (s : State) : Out :=
  guardD s [f.ra] fun s =>
    let c := s.me
    let n := ((s.th c).rdS f.ra).val.toNat
    if 32 ≤ n then result s c f.rd rBadsem
    else
      let v := semOf s c n
      if semBad s c n then .next (takeTrap s c cEcc 0)
      else if v = 0 then killPoint s c (fun s => .next s)
      else result (setSemOf s c n (v - 1)) c f.rd (v.zeroExtend 64)

/-- The core at (rx, ry) of a strand's rectangle (R181, R197); none outside it. -/
def peerOf (s : State) (c rx ry : Nat) : Option Nat :=
  let r := (s.th c).job.rect
  if rx < 2 ^ rectLW r ∧ ry < 2 ^ rectLH r then coreAt (s.ctx (s.ctxOf c)).vdmap (rectX r + rx) (rectY r + ry)
  else none

/-- The bits of SEMS's ra outside its fields (R181). -/
def semsZero (a : Word) : Bool := decide (a &&& ~~~0x0F1F011F#64 = 0)

/-- SEMS (R181). One to a peer clears the restart bit (R42); PEER = 1 that names the own core does not (DESIGN CHOICE, log entry 86).
Outside the rectangle it traps RECT; the spec names no address there, so TVAL is free. -/
def execSems (f : R3) (s : State) : Out :=
  guardD s [f.ra, f.rb] fun s =>
    let c := s.me
    let t := s.th c
    let a := (t.rdS f.ra).val
    let v := (t.rdS f.rb).val.toNat
    let n := a.toNat % 32
    if !semsZero a || decide (v = 0) || decide (65535 < v) then result s c f.rd rBadsem
    else match (if a.getLsbD 8 then peerOf s c (nbits a.toNat 16 5) (nbits a.toNat 24 4) else some c) with
      | none =>
        let (k, s) := s.tick
        .next (takeTrap s c cRect (Config.freeWord k))
      | some p =>
        let old := (semOf s p n).toNat
        if semBad s p n then .next (takeTrap s c cEcc 0)
        else if 65535 < old + v then result s c f.rd rBusy
        else
          let s := setSemOf s p n (BitVec.ofNat 16 (old + v))
          let s := if p = c then s else s.setTh c (clearRestart (s.th c))
          result s c f.rd 0

/-! ### Barriers -/

/-- The key of the barrier that a register names, if it is well formed and assigned to the context. -/
def barKey (s : State) (c : Nat) (v : Word) : Option Nat :=
  let x := v.toNat
  if 2 ^ 11 ≤ x then none
  else match vdieOf (s.ctx (s.ctxOf c)).vdmap (x / 256) with
    | none => none
    | some p =>
      let key := p * 256 + x % 256
      if (s.bar key).ctx = some (s.ctxOf c) then some key else none

/-- An arrival is pending: an entry that is not broken has LEFT < COUNT (R259). -/
def Barrier.pending (b : Barrier) : Bool := b.entries.any (fun e => !e.broken && decide (e.left.toNat < e.count.toNat))

/-- The entry BARI adds (R259): a bit outside COUNT and SCOPE, COUNT 0, or a scope it may not name is refused. -/
def bariEntry (s : State) (c : Nat) (v : Word) : Option BarEntry :=
  let n := nbits v.toNat 16 16
  let x := s.scope n
  if v &&& ~~~0xFFFF0FFF#64 ≠ 0 ∨ nbits v.toNat 0 12 = 0 ∨ x.st ≠ .live ∨ x.ctx ≠ s.ctxOf c ∨ !lscOk s c n then none
  else some { scope := BitVec.ofNat 16 n, count := v.extractLsb' 0 12, left := v.extractLsb' 0 12 }

/-- BARI (R259). -/
def execBari (f : R3) (s : State) : Out :=
  guardD s [f.ra, f.rb] fun s =>
    let c := s.me
    let t := s.th c
    match barKey s c (t.rdS f.ra).val, bariEntry s c (t.rdS f.rb).val with
    | some key, some e =>
      let b := s.bar key
      if b.pending || decide (8 ≤ b.entries.length) || b.entries.any (fun x => x.scope == e.scope) then
        result s c f.rd rBusy
      else result (s.setBar key { b with entries := b.entries ++ [e] }) c f.rd 0
    | _, _ => result s c f.rd rBadbar

/-- BARI.CLR (R259). -/
def execBariClr (f : R2) (s : State) : Out :=
  guardD s [f.ra] fun s =>
    let c := s.me
    match barKey s c ((s.th c).rdS f.ra).val with
    | none => result s c f.rd rBadbar
    | some key =>
      let b := s.bar key
      if b.pending then result s c f.rd rBusy
      else result (s.setBar key { b with entries := [], reduced := false }) c f.rd 0

/-- The word BAR returns (R260): PHASE, BROKEN, REDUCED. -/
def barWord (phase : BitVec 16) (broken reduced : Bool) : Word :=
  0#32 ++ phase ++ 0#14 ++ BitVec.ofBool broken ++ BitVec.ofBool reduced

/-- The waiters of the entries of barrier `key` whose SCOPE satisfies `p` are released with a word. -/
def releaseBar (s : State) (key : Nat) (p : BitVec 16 → Bool) (v : Word) : State :=
  { s with cores := s.cores.map (fun kc =>
      match kc.2.th.job.wait with
      | .bar k sc =>
        if k = key ∧ p sc then
          (kc.1, { kc.2 with th := { kc.2.th with job := { kc.2.th.job with wait := .barDone v } } })
        else kc
      | _ => kc) }

/-- The completion condition (R258). -/
def Barrier.complete (b : Barrier) : Bool :=
  b.entries.any (fun e => !e.broken) && b.entries.all (fun e => e.broken || decide (e.left = 0))

/-- A barrier that completes increments PHASE, releases every waiter whose entry is not broken, sets every LEFT back and
clears REDUCED (R258, R260). -/
def completeBar (s : State) (key : Nat) : State :=
  let b := s.bar key
  if b.complete then
    let unbroken := fun sc => !b.entries.any (fun e => e.scope == sc && e.broken)
    let s := releaseBar s key unbroken (barWord (b.phase + 1) false b.reduced)
    s.setBar key { b with phase := b.phase + 1, reduced := false, entries := b.entries.map (fun e => { e with left := e.count }) }
  else s

/-- The entry an arrival of scope n matches (R258). -/
def Barrier.matching (b : Barrier) (s : State) (n : Nat) : Option BarEntry :=
  (ancestors s n).findSome? (fun a => b.entries.find? (fun e => e.scope.toNat == a))

/-- An arrival at an entry (R260): LEFT falls by one, the barrier completes or the strand waits; the arrival carries the
causal stamp to the barrier's die (R253). -/
def arrive (s : State) (c key : Nat) (e : BarEntry) (rd : BitVec 5) : Out :=
  let s := sendStamp s (dieOfCore c) (key / 256)
  let b := s.bar key
  let s := s.setBar key { b with entries := b.entries.map (fun x =>
    if x.scope = e.scope then { x with left := x.left - 1 } else x) }
  let s := completeBar (setWait s c (.bar key e.scope)) key
  match (s.th c).job.wait with
  | .barDone v => result (acquireAll (unwait s c) c) c rd v
  | _ => .next s

/-- BAR (R260). -/
def execBar (f : R2) (s : State) : Out :=
  let c := s.me
  match (s.th c).job.wait with
  | .barDone v => result (acquireAll (unwait s c) c) c f.rd v
  | .bar _ _ => killPoint s c (fun s => .next s)
  | _ =>
    guardD s [f.ra] fun s =>
      match barKey s c ((s.th c).rdS f.ra).val with
      | none => result s c f.rd rBadbar
      | some key =>
        let b := s.bar key
        match b.matching s (s.th c).job.osc.toNat with
        | none => result s c f.rd rBadbar
        | some e =>
          releaseWait s c fun s =>
            if e.broken then result (acquireAll s c) c f.rd (barWord b.phase true true)
            else if e.left = 0 then result s c f.rd rBadbar
            else arrive s c key e f.rd

/-! ### Fences -/

/-- QFAULT where a queue is halted (R295), else until the queues hold nothing the wait `held`. -/
def emptyQueues (held : State → Nat → List VQ → Bool → Out) (s : State) (c : Nat) (k : State → Out) : Out :=
  let q := (s.th c).q
  match q.haltedQ with
  | some v => .next (takeQfault s c (qCode v) false)
  | none => if q.busy then held s c [.vl, .va, .vs] false else k s

/-- The wait of a fence (R255, R256) and of BANKSYNC (R203), which is no part of token deadlock (R83). -/
def fenceWait (s : State) (c : Nat) (k : State → Out) : Out := emptyQueues awaitQueues s c k

/-- The wait of TASKEND, which is (R83). -/
def taskWait (s : State) (c : Nat) (k : State → Out) : Out := emptyQueues heldBy s c k

/-- FENCE (R255): at core scope only the wait; at every wider scope a release and an acquire (R248, R249). -/
def execFence (scope : BitVec 3) (s : State) : Out :=
  fenceWait s s.me fun s =>
    let c := s.me
    .next ((if scope = 0#3 then s else acquireAll s c).advance c 2)

/-- LFENCE (R256). -/
def execLfence (_before _after : BitVec 4) (s : State) : Out :=
  fenceWait s s.me fun s => .next (s.advance s.me 2)

/-! ### Token channels -/

/-- Tokens held by a channel or on their way to it (R67). -/
def chanLoad (s : State) (key : Nat) : Nat := (s.chan key).fifo.length + (s.flight.filter (fun x => x.chan == key)).length

/-- The key of the channel that TOKSEND's destination names (R67). -/
def chanKey (s : State) (c : Nat) (v : Word) : Option Nat :=
  if v &&& ~~~0x73F#64 ≠ 0 then none
  else match vdieOf (s.ctx (s.ctxOf c)).vdmap (nbits v.toNat 8 3) with
    | none => none
    | some p =>
      let key := p * 64 + v.toNat % 64
      if (s.chan key).ctx = some (s.ctxOf c) then some key else none

/-- TOKSEND (R67): the release, then the token leaves with the die's causal stamp; the restart bit clears (R42). -/
def execToksend (f : R3) (s : State) : Out :=
  guardD s [f.ra, f.rb] fun s =>
    let c := s.me
    match chanKey s c ((s.th c).rdS f.ra).val with
    | none => result s c f.rd rBadchan
    | some key =>
      if 16 ≤ chanLoad s key then result s c f.rd rBusy
      else releaseWait s c fun s =>
        let t := s.th c
        let tok : Token := { payload := (t.rdS f.rb).val.extractLsb' 0 32, stamp := (s.die (dieOfCore c)).stamp }
        let s := s.setTh c (clearRestart t)
        result { s with flight := s.flight ++ [{ chan := key, core := c, tok := tok }] } c f.rd 0

/-- TOKWAIT (R68). -/
def execTokwait (f : R2) (s : State) : Out :=
  guardD s [f.ra] fun s =>
    let c := s.me
    let n := ((s.th c).rdS f.ra).val.toNat
    let key := dieOfCore c * 64 + n
    let h := s.chan key
    if 64 ≤ n ∨ h.ctx ≠ some (s.ctxOf c) then result s c f.rd rBadchan
    else match h.fifo with
      | [] => killPoint s c (fun s => .next s)
      | x :: xs =>
        let s := mergeStamp (s.setChan key { h with fifo := xs }) (dieOfCore c) x.stamp
        result (acquireAll s c) c f.rd (x.payload.zeroExtend 64)

/-! ### Time -/

def gtimeOf (s : State) (c : Nat) : Word := (s.die (dieOfCore c)).time.gtime

/-- TIMER (R74). -/
def execTimer (rd : BitVec 5) (s : State) : Out := result s s.me rd (gtimeOf s s.me)

/-- TIMEWAIT (R75): issued under LOST it traps; a wait begun completes. -/
def execTimewait (f : R2) (s : State) : Out :=
  let c := s.me
  match (s.th c).job.wait with
  | .timewait until_ got =>
    match got with
    | some g => result (unwait s c) c f.rd g
    | none =>
      if until_.toNat ≤ (gtimeOf s c).toNat then result (unwait s c) c f.rd (gtimeOf s c)
      else killPoint s c (fun s => .next s)
  | _ =>
    guardD s [f.ra] fun s =>
      let d := (s.die (dieOfCore c)).time
      let v := ((s.th c).rdS f.ra).val
      if d.st = .lost then .next (takeTrap s c cTsync (d.err.zeroExtend 64))
      else if v.toNat ≤ d.gtime.toNat then result s c f.rd d.gtime
      else .next (setWait s c (.timewait v none))

/-! ### Dies -/

/-- The physical die of the virtual die a register names (R267). -/
def vdieReg (s : State) (c : Nat) (v : Word) : Option Nat := vdieOf (s.ctx (s.ctxOf c)).vdmap v.toNat

/-- Links between two compute dies (R263). -/
def hops (p q : Nat) : Nat :=
  let d := fun (a b : Nat) => (a - b) + (b - a)
  d (p % 4) (q % 4) + d (p / 4) (q / 4)

/-- VDIE (R267). -/
def execVdie (f : R2) (s : State) : Out :=
  guardD s [f.ra] fun s =>
    let c := s.me
    match vdieReg s c ((s.th c).rdS f.ra).val with
    | none => result s c f.rd rNodie
    | some p => result s c f.rd (BitVec.ofNat 64 p)

/-- HOPS (R268). -/
def execHops (f : R3) (s : State) : Out :=
  guardD s [f.ra, f.rb] fun s =>
    let c := s.me
    match vdieReg s c ((s.th c).rdS f.ra).val, vdieReg s c ((s.th c).rdS f.rb).val with
    | some p, some q => result s c f.rd (BitVec.ofNat 64 (hops p q))
    | _, _ => result s c f.rd rNodie

/-- HOPS.MD (R268). -/
def execHopsMd (f : R3) (s : State) : Out :=
  guardD s [f.ra, f.rb] fun s =>
    let c := s.me
    let q := ((s.th c).rdS f.rb).val.toNat
    match vdieReg s c ((s.th c).rdS f.ra).val with
    | some p => result s c f.rd (if q < 8 then BitVec.ofNat 64 (hops p q + 1) else rNodie)
    | none => result s c f.rd rNodie

end Sys2Proof.Machine
end

