-- ==== Sys2Proof/Machine/Csr.lean ====
section
/-! DEFINITION. Control and status registers: reading and writing the map of Table 4-8, CSRR, CSRW, CSRS, CSRC
(R99, R313) and VMODE (R97). -/
namespace Sys2Proof.Machine
open Sys2Proof

/-! ### The command ring as the strand sees it (R10, R86, R182) -/

/-- The record at index i of a core's ring (R182), one that is still to be written among them (R184). -/
def ringRecord (s : State) (c : Nat) (i : Nat) : BitVec 128 :=
  let r := (s.core c).ring
  match r.holds.findSome? (fun x => if x.idx = i then x.late else none) with
  | some v => v
  | none => BitVec.ofNat 128 (s.mem.readNat (ringKey c r i) 16)

/-- The posted commands not begun: WR - RD of them from RD (R182). -/
def ringCount (r : Ring) : Nat := r.wr.toNat - r.rd.toNat

/-- The command of core c's ring in execution, if any. -/
def ringExec (s : State) (c : Nat) : Option CmdRun :=
  match (s.array (arrayOf c)).exec with
  | some x => if x.core = c then some x else none
  | none => none

/-- The stream registers a command record names (Table 5-10). -/
def cmdStreams (r : BitVec 128) : List (BitVec 4) :=
  let m := wMCmd r
  match (r.extractLsb' 0 8).toNat with
  | 2 | 3 => [m.sta, m.stb]
  | 4 | 5 => [m.sta]
  | _ => []

/-- Some command of the ring, posted or in execution, satisfies the test on its tile and stream registers. -/
def ringNames (s : State) (c : Nat) (p : BitVec 3 → List (BitVec 4) → Bool) : Bool :=
  let r := (s.core c).ring
  (List.range (ringCount r)).any (fun j =>
      let w := ringRecord s c (r.rd.toNat + j)
      p (wMCmd w).acc (cmdStreams w)) ||
    (match ringExec s c with
    | some x => p x.acc x.strms
    | none => false)

/-- A command of core c's ring has begun and is not complete. -/
def ringBusy (s : State) (c : Nat) : Bool := (ringExec s c).isSome || (s.core c).ring.begun.isSome

/-- Every command of the ring is complete: RD = WR and none in execution. -/
def ringDrained (s : State) (c : Nat) : Bool :=
  decide ((s.core c).ring.rd = (s.core c).ring.wr) && (ringExec s c).isNone

/-! ### Register words -/

/-- ROT (Table 4-5). -/
def rotWord (r : Csrs) : Word := 0#52 ++ r.pb ++ 0#3 ++ r.vb

/-- The occupancy of a queue in QSTAT. -/
def occ (q : VQueue) : BitVec 7 := BitVec.ofNat 7 q.held.length

/-- QSTAT (Table 4-1). HALT of VA reads 1 also while VA holds an instruction that waits for the SUBN assist (DESIGN CHOICE, log
entry 76). -/
def qstatWord (t : Thread) : Word :=
  t.q.la ++ t.q.al ++ t.q.ts ++ t.q.sa ++ 0#8 ++ occ t.q.vl ++ occ t.q.va ++ occ t.q.vs ++
    BitVec.ofBool t.q.vs.halted ++ BitVec.ofBool t.q.va.halted ++ BitVec.ofBool t.q.vl.halted ++ 0#4 ++
    t.csr.slipS ++ t.csr.slipA ++ t.csr.slipL

/-- QFSTAT (Table 13-3): the recorded fault that it shows, and ACT. -/
def qfstatWord (t : Thread) : Word :=
  match t.shown with
  | none => 0#6 ++ t.trap.act ++ 0#56
  | some f => f.q ++ 0#3 ++ t.trap.act ++ f.cause ++ 0#16 ++ f.index

/-- TSTAT (Table 13-2). -/
def tstatWord (r : TrapRegs) : Word :=
  r.rptl ++ BitVec.ofBool r.moved ++ r.kind ++ BitVec.ofBool r.routed ++ 0#39 ++ r.boff

/-- PARKST (Table 4-6). -/
def parkFree (b : Banks) : Nat := 256 * popN 2 b.ptiles.toNat - b.depth.toNat

def parkstWord (b : Banks) : Word := 0#30 ++ b.ptiles ++ 0#6 ++ BitVec.ofNat 10 (parkFree b) ++ 0#6 ++ b.depth

/-- ASSIST (Table 6-5). -/
def assistWord (r : Csrs) : Word := 0#24 ++ r.assistCnt ++ 0#7 ++ BitVec.ofBool r.ftz

/-- The package coordinates of a core in a context (R9). -/
def coreXY (vdmap : BitVec 32) (c : Nat) : Nat × Nat :=
  let v := (selfDie vdmap (dieOfCore c)).getD 0
  (v % 4 * 8 + c % 8, v / 4 * 8 + c / 8 % 8)

/-- CORE (Table 12-2). -/
def coreWord (vdmap : BitVec 32) (c : Nat) : Word :=
  let xy := coreXY vdmap c
  0#45 ++ BitVec.ofNat 3 (dieOfCore c) ++ 0#4 ++ BitVec.ofNat 4 xy.2 ++ 0#3 ++ BitVec.ofNat 5 xy.1

/-- VDIE (Table 12-3). -/
def vdieWord (vdmap : BitVec 32) (c : Nat) : Word :=
  0#29 ++ BitVec.ofNat 3 ((selfDie vdmap (dieOfCore c)).getD 0) ++ vdmap

/-- LEASECFG (Table 8-2). -/
def leaseWord (l : Lease) : Word := l.mpad ++ 0#25 ++ l.run

/-- HEADROOM (Table 1-6). -/
def headroomWord (c : Nat) (p : Power) : Word :=
  0#16 ++ Config.budget c ++ p.cls ++ p.fmax ++ p.head

def SyncSt.code : SyncSt → BitVec 2
  | .free => 0
  | .locked => 1
  | .lost => 2

/-- SYNCST (Table 3-9). -/
def syncstWord (d : DieTime) : Word :=
  0#16 ++ d.losses ++ d.good ++ 0#6 ++ d.st.code ++ d.err

/-! ### Access (R99) -/

/-- The CSRs marked H in Table 4-8. -/
def csrOnlyH (n : Nat) : Bool :=
  (decide (0x080 ≤ n) && decide (n ≤ 0x084)) || (decide (0x0B0 ≤ n) && decide (n ≤ 0x0B5))

/-- The multiples of 16,000 ns that the GTIME of an array's die has reached and that have not yet halved its charges (R187). -/
def dueHalvings (s : State) (a : Nat) : Nat := (s.die (a / 16)).time.gtime.toNat / 16000 - (s.array a).halved

/-- The lease charge of core c now, every halving that is due among it (R187). -/
def chargeNow (s : State) (c : Nat) : BitVec 32 := (s.core c).lease.charge >>> Nat.min (dueHalvings s (arrayOf c)) 32

/-- The value of a CSR; none where Table 4-8 has no such number. -/
def readCsr (s : State) (c n : Nat) : Option Word :=
  let k := s.core c
  let t := k.th
  let x := s.ctx (s.ctxOf c)
  let d := (s.die (dieOfCore c)).time
  if 0x030 ≤ n ∧ n ≤ 0x035 then some (t.job.step.toList.getD (n - 0x030) 0)
  else if 0x0B0 ≤ n ∧ n ≤ 0x0B5 then some (x.weir.toList.getD (n - 0x0B0) 0)
  else match n with
    | 0x001 => some k.power.lcyc
    | 0x010 => some t.csr.vmode
    | 0x011 => some (rotWord t.csr)
    | 0x012 => some t.csr.trips
    | 0x013 => some t.csr.drain
    | 0x020 => some (qstatWord t)
    | 0x021 => some (qfstatWord t)
    | 0x040 => some (coreWord x.vdmap c)
    | 0x041 => some (vdieWord x.vdmap c)
    | 0x042 => some (t.job.rect.zeroExtend 64)
    | 0x050 => some (0#32 ++ t.job.lsc ++ t.job.osc)
    | 0x060 => some k.banks.roleP
    | 0x061 => some k.bind.gen
    | 0x062 => some (parkstWord k.banks)
    | 0x070 => some (assistWord t.csr)
    | 0x071 => some (0#59 ++ t.csr.fstat)
    | 0x080 => some (0#56 ++ t.trap.cause)
    | 0x081 => some (0#7 ++ t.trap.tpc)
    | 0x082 => some t.trap.tval
    | 0x083 => some (tstatWord t.trap)
    | 0x084 => some (0#7 ++ k.tvec)
    | 0x090 => some (leaseWord k.lease)
    | 0x091 => some (chargeNow s c ++ k.lease.last)
    | 0x092 => some (headroomWord c k.power)
    | 0x0A0 => some d.gtime
    | 0x0A1 => some (syncstWord d)
    | _ => none

/-- BANKROLE's write (R201): a field of 11 leaves its pending role unchanged. -/
def roleWrite (old new : BitVec 64) : Nat → BitVec 64 → BitVec 64
  | 0, acc => acc
  | j + 1, acc =>
    let f := if (new.extractLsb' (2 * j) 2) = 3#2 then old.extractLsb' (2 * j) 2 else new.extractLsb' (2 * j) 2
    roleWrite old new j (acc ||| (f.zeroExtend 64 <<< (2 * j)))

/-- PARKST's write (R94): PTILES, unless it would leave fewer slots than DEPTH. -/
def parkWrite (b : Banks) (v : Word) : Banks :=
  let p : BitVec 2 := v.extractLsb' 32 2
  if 256 * popN 2 p.toNat < b.depth.toNat then b else { b with ptiles := p }

/-- LEASECFG's write (Table 8-2). -/
def leaseWrite (l : Lease) (v : Word) : Lease :=
  let r : BitVec 7 := v.extractLsb' 0 7
  { l with mpad := v.extractLsb' 32 32, run := if 1 ≤ r.toNat ∧ r.toNat ≤ 64 then r else l.run }

/-- A write of a Weir register (Table 10-4). -/
def weirValue (i : Nat) (v : Word) : Word := if i = 4 then v &&& 7 else v &&& 0xFFFFFFFF

/-- A write of a CSR, field by field (R3, R313). -/
def writeCsr (s : State) (c n : Nat) (v : Word) : State :=
  let k := s.core c
  let t := k.th
  if 0x0B0 ≤ n ∧ n ≤ 0x0B5 then
    let i := n - 0x0B0
    let x := s.ctx (s.ctxOf c)
    s.setCtx (s.ctxOf c) { x with weir := x.weir.setIfInBounds i (weirValue i v) }
  else match n with
    | 0x010 => s.setTh c { t with csr := { t.csr with vmode := vmodeWrite t.csr.vmode v 0x1F } }
    | 0x011 => s.setTh c { t with csr := { t.csr with vb := v.extractLsb' 0 5, pb := v.extractLsb' 8 4 } }
    | 0x012 => s.setTh c { t with csr := { t.csr with trips := v } }
    | 0x013 => s.setTh c { t with csr := { t.csr with drain := v } }
    | 0x020 =>
      let r := { t.csr with slipL := v.extractLsb' 0 4, slipA := v.extractLsb' 4 4, slipS := v.extractLsb' 8 4 }
      s.setTh c { t with csr := r }
    | 0x021 =>
      if t.pos.mode = .h then s.setTh c { t with trap := { t.trap with act := v.extractLsb' 56 2 } } else s
    | 0x060 => s.setCore c { k with banks := { k.banks with roleP := roleWrite k.banks.roleP v 32 0 } }
    | 0x062 => s.setCore c { k with banks := parkWrite k.banks v }
    | 0x070 => s.setTh c { t with csr := { t.csr with ftz := v.getLsbD 0 } }
    | 0x071 => s.setTh c { t with csr := { t.csr with fstat := v.extractLsb' 0 5 } }
    | 0x080 => s.setTh c { t with trap := { t.trap with cause := v.extractLsb' 0 8 } }
    | 0x081 => s.setTh c { t with trap := { t.trap with tpc := v.extractLsb' 0 57, moved := true } }
    | 0x082 => s.setTh c { t with trap := { t.trap with tval := v } }
    | 0x083 =>
      let r := { t.trap with rptl := v.extractLsb' 53 11, moved := v.getLsbD 52, routed := v.getLsbD 49, boff := v.extractLsb' 0 10 }
      s.setTh c { t with trap := r }
    | 0x084 => s.setCore c { k with tvec := v.extractLsb' 0 57 }
    | 0x090 => s.setCore c { k with lease := leaseWrite k.lease v }
    | _ => s

/-- The queues that hold an instruction which merges flags into FSTAT (R81, R133): any of VA, VLDST of VL, VSTST of VS
(R173, R174). One held on its push is not complete (R82). -/
def fstatQueues (q : Queues) : List VQ :=
  (if q.va.held.isEmpty then [] else [.va]) ++
    (if q.vl.held.any (fun e => e.streamOf.isSome) then [.vl] else []) ++
    (if q.vs.held.any (fun e => e.streamOf.isSome) then [.vs] else [])

/-- The queues that a CSR access may have to wait for. -/
def csrQueues (q : Queues) (n : Nat) : List VQ := if n = 0x071 then fstatQueues q else []

/-- The waits of a CSR access: FSTAT under R81 and R133; a PARKST write that lends a tile a posted command names
(R94), a kill point. -/
def csrWait (s : State) (c n : Nat) (writes : Bool) (v : Word) (k : State → Out) : Out :=
  if n = 0x071 then
    match csrQueues (s.th c).q n with
    | [] => k s
    | v :: vs => heldBy s c (v :: vs) false
  else if n = 0x062 && writes then
    let b := (s.core c).banks
    let newly := (parkWrite b v).ptiles &&& ~~~b.ptiles
    let tile := fun (a : BitVec 3) => decide (a.toNat / 2 = quadPos c) && newly.getLsbD (a.toNat % 2)
    if ringNames s c (fun a _ => tile a) then killPoint s c (fun s => .next s) else k s
  else k s

/-- A CSR that Table 4-8 does not have, or that the strand's mode may not access (R99). -/
def csrBad (s : State) (c n : Nat) : Bool :=
  (readCsr s c n).isNone || (decide ((s.th c).pos.mode = .k) && csrOnlyH n)

/-- A CSR instruction (R313), with the order of its causes (R289): `val` gives the written value from the old one, none where nothing is written. -/
def csrOp (i : Instr) (rd ra : BitVec 5) (csr : BitVec 11) (writes : Bool) (val : Word → Word → Word)
    (s : State) : Out :=
  let c := s.me
  let n := csr.toNat
  if csrBad s c n then illegal s i
  else qfaultFirst s c (csrQueues (s.th c).q n) fun s =>
    guardD s (if writes then [ra] else []) fun s =>
      let a := ((s.th c).rdS ra).val
      let new := val ((readCsr s c n).getD 0) a
      csrWait s c n writes new fun s =>
        let old := (readCsr s c n).getD 0
        let s := if writes then writeCsr s c n (val old a) else s
        .next (s.setTh c (((s.th c).wrS rd old false).advance 2))

/-- CSRR (R313). -/
def execCsrr (rd : BitVec 5) (csr : BitVec 11) (s : State) : Out :=
  csrOp (.csrr rd csr) rd 0 csr false (fun old _ => old) s
/-- CSRW (R313). -/
def execCsrw (f : R2) (csr : BitVec 11) (s : State) : Out :=
  csrOp (.csrw f csr) f.rd f.ra csr true (fun _ a => a) s
/-- CSRS (R313). -/
def execCsrs (f : R2) (csr : BitVec 11) (s : State) : Out :=
  csrOp (.csrs f csr) f.rd f.ra csr (decide (f.ra ≠ 0#5)) (fun old a => old ||| a) s
/-- CSRC (R313). -/
def execCsrc (f : R2) (csr : BitVec 11) (s : State) : Out :=
  csrOp (.csrc f csr) f.rd f.ra csr (decide (f.ra ≠ 0#5)) (fun old a => old &&& ~~~a) s

/-- VMODE (R97). -/
def execVmode (f : R2) (mask : BitVec 5) (s : State) : Out :=
  guardD s [f.ra] fun s =>
    let c := s.me
    let t := s.th c
    let old := t.csr.vmode
    let t := { t with csr := { t.csr with vmode := vmodeWrite old (t.rdS f.ra).val mask } }
    .next (s.setTh c ((t.wrS f.rd old false).advance 2))

end Sys2Proof.Machine
end

