-- ==== Sys2Proof/Machine/Vector.lean ====
section
/-! DEFINITION. Routing a vector instruction (R78, R79, R334), performing the head of a queue (R82, R83, R295), and
the waits of VEXTR and PCNT (R110). -/
namespace Sys2Proof.Machine
open Sys2Proof

/-- What performing an instruction comes to: it has not begun, it faults with nothing done, its page is not present,
its results are written, or a tiny FP32 result asks for the assist (R135). -/
inductive VOut where
  | wait (s : State)
  | fault (cause : BitVec 8) (addr : Word)
  | park (va : Word) (k : AccKind)
  | done (s : State)
  | subn (low : Nat) (src : Srcs)
  deriving DecidableEq, Repr

/-! ### Routing -/

/-- The physical number of a field under its role (R78, R89). -/
def mapField (r : Csrs) (role : Role) (x : BitVec 6) : BitVec 6 :=
  match role with
  | .v | .vw | .vrw => mapV r.vb x
  | .p | .pw => (mapP r.pb (x.truncate 5)).zeroExtend 6
  | _ => x

/-- The governing predicate's physical number (R91). -/
def govOf (r : Csrs) (ps : BitVec 2) : BitVec 5 :=
  mapP r.pb (if ps = 2#2 then vmPg1 r.vmode else vmPg0 r.vmode)

/-- Constant-bank entry n. -/
def Regs.rdK (r : Regs) (n : Nat) : BitVec 32 := r.k.toList.getD n 0

/-- The slip depth of a queue (R79). -/
def slipDepth (r : Csrs) : VQ → Nat
  | .vl => 4 * (r.slipL.toNat + 1)
  | .va => 4 * (r.slipA.toNat + 1)
  | .vs => 4 * (r.slipS.toNat + 1)

/-- The constant-bank entries an instruction reads at routing: k[C] for VMADK, k[N] and k[N + 1] for VQNT. -/
def bankIndex (i : Instr) (f : V3) : Nat :=
  match i with
  | .vqnt _ => 4 * (f.c.toNat % 16)
  | _ => f.c.toNat

/-- The constant-bank entries that an instruction reads, for their errors (R304). -/
def bankReads (i : Instr) (f : V3) : List Nat :=
  let n := bankIndex i f
  match i with
  | .vmadk _ => [n]
  | .vqnt _ => if f.c.toNat / 16 = 1 then [n] else if f.c.toNat / 16 = 2 then [n, n + 1] else []
  | _ => []

/-- The entry that routing appends (R78). -/
def routeEntry (t : Thread) (i : Instr) (spec : VSpec) (f : V3) (slot : Nat) : QEntry :=
  let r := t.csr
  let n := bankIndex i f
  { ins := i, f := f, seq := t.q.seq, idx := (t.q.get spec.queue).routed, vmode := r.vmode, ftz := r.ftz,
    hmode := t.pos.mode == .h, pa := mapField r spec.a f.a, pb := mapField r spec.b f.b,
    pc := mapField r spec.c f.c, gov := govOf r f.ps, sb := t.rdS (f.b.truncate 5), sc := t.rdS (f.c.truncate 5),
    k0 := t.regs.rdK n, k1 := t.regs.rdK (n + 1), slot := slot, popped := false, done := false, kept := none }

/-- The queue with an entry appended. -/
def VQueue.append (q : VQueue) (e : QEntry) : VQueue := { q with held := q.held ++ [e], routed := q.routed + 1 }

/-- How routing touches the park stack (R95). -/
inductive ParkUse where
  | none | push | pop
  deriving DecidableEq, Repr

/-- What an instruction's entry adds to routing: an ILLEGAL the encoding alone does not show, the address registers
whose D bit raises DFAULT, its use of the park stack, whether the control core waits for its value (R110), the vector
register whose earlier writers in other queues it awaits (R81), and whether it raises nothing for an uncorrectable error
(R175). -/
structure RouteRule where
  bad : Bool := false
  reads : Option (BitVec 6) := none
  quiet : Bool := false
  base : List (BitVec 5) := []
  park : ParkUse := .none
  scalar : Bool := false
  deriving DecidableEq, Repr

/-- The effect of routing (R78, R95, R110). -/
def routed (s : State) (c : Nat) (i : Instr) (spec : VSpec) (f : V3) (x : RouteRule) : State :=
  let k := s.core c
  let t := k.th
  let d := k.banks.depth
  let slot := if x.park = .pop then d.toNat - 1 else d.toNat
  let e := routeEntry t i spec f slot
  let q := { t.q.set spec.queue ((t.q.get spec.queue).append e) with seq := t.q.seq + 1 }
  let t := { t with q := q }
  let banks := match x.park with
    | .none => k.banks
    | .push => { k.banks with depth := d + 1 }
    | .pop => { k.banks with depth := d - 1 }
  let t := if x.scalar then
      { t with job := { t.job with wait := .vwait { idx := e.idx, rd := f.a.truncate 5, value := none } } }
    else t.advance i.parcels
  s.setCore c { k with th := t, banks := banks }

/-- Routing (R78, R79, R334): ILLEGAL, then QFAULT of a halted queue, then DFAULT and PARK; a full queue holds the
control core. -/
def vroute (i : Instr) (spec : VSpec) (f : V3) (x : RouteRule) (s : State) : Out :=
  let c := s.me
  let t := s.th c
  let b := (s.core c).banks
  if x.bad then illegal s i
  else if t.q.faulted spec.queue then .next (takeQfault s c (qCode spec.queue) false)
  else if !x.quiet && ((spec.b == .s && (t.rdS (f.b.truncate 5)).ecc) || (spec.c == .s && (t.rdS (f.c.truncate 5)).ecc) ||
      (bankReads i f).any (fun n => t.marks.contains (3, n))) then
    .next (takeTrap s c cEcc 0)
  else guardD s x.base fun s => awaitWriter s c x fun s =>
    if (x.park = .push ∧ parkLeft b = 0) ∨ (x.park = .pop ∧ b.depth = 0) then .next (takeTrap s c cPark 0)
    else if slipDepth t.csr spec.queue ≤ (t.q.get spec.queue).held.length then heldBy s c [spec.queue] false
    else .next (routed s c i spec f x)
where
  /-- VEXTR waits until no earlier instruction of another queue is still to write the vector it reads (R81). The wait stands before its
  routing (DESIGN CHOICE, log entry 80). -/
  awaitWriter (s : State) (c : Nat) (x : RouteRule) (k : State → Out) : Out :=
    match x.reads with
    | none => k s
    | some n =>
      let v := mapV (s.th c).csr.vb n
      waitQueues s c (fun e => (match vspec e.ins with
        | some (t, _) => t.queue != .va
        | none => false) && e.writesV.contains v.toNat) k
  /-- FREE of PARKST (Table 4-6). -/
  parkLeft (b : Banks) : Nat := 256 * popN 2 b.ptiles.toNat - b.depth.toNat

/-! ### The wait for a value (R110) -/

/-- The wait of a routed VEXTR or PCNT: the value arrives; SUBN or QFAULT is taken in the wait, TOKSTALL in VEXTR's (R83); a
copy discarded under cancellation ends the strand, and one discarded otherwise is routed again. -/
def vwaitStep (s : State) (c : Nat) (w : VWait) (i : Instr) : Out :=
  let t := s.th c
  let clear := fun (t : Thread) => { t with job := { t.job with wait := .none } }
  match w.value with
  | some x => .next (s.setTh c (((clear t).wrS w.rd x.val x.d).advance i.parcels))
  | none =>
    if t.q.va.held.any (fun e => e.idx == w.idx) then
      if t.q.subn && t.pos.mode == .k then .next (takeSubn s c true)
      else match i with
        | .pcnt _ => awaitQueues s c [.va] true
        | _ => heldBy s c [.va] true
    else killPoint s c fun s => .next (s.setTh c (clear (s.th c)))

/-! ### Performing the head of a queue -/

/-- The head completes: its pops are taken, its pushes made, or it is held until they can be (R82); pushes on both edges are made
together, once both have room (DESIGN CHOICE, log entry 79). -/
def completeHead (s : State) (c : Nat) (v : VQ) (e : QEntry) : State :=
  let t := s.th c
  let q := if e.popped then t.q else t.q.pop v e.f.tok
  let vq := q.get v
  let q := if q.canPush v e.f.tok then (q.set v { vq with held := vq.held.tail }).push v e.f.tok
    else q.set v { vq with held := { e with popped := true, done := true } :: vq.held.tail }
  s.setTh c { t with q := q }

/-- The pops of the head, taken as it begins (R82). -/
def takePops (s : State) (c : Nat) (v : VQ) (e : QEntry) : State :=
  let t := s.th c
  if e.popped || !t.q.canPop v e.f.tok then s
  else
    let q := t.q.pop v e.f.tok
    let vq := q.get v
    s.setTh c { t with q := q.set v { vq with held := { e with popped := true } :: vq.held.tail } }

/-- The head asks for the SUBN assist (R135): it is held with the sources it read, its pops taken, and its queue stands, as QSTAT.HALT
shows (DESIGN CHOICE, log entry 76). -/
def subnHead (s : State) (c : Nat) (v : VQ) (e : QEntry) (low : Nat) (src : Srcs) : State :=
  let t := s.th c
  let q := if e.popped then t.q else t.q.pop v e.f.tok
  let vq := q.get v
  let q := q.set v { vq with halted := true, held := { e with popped := true, kept := some src } :: vq.held.tail }
  let rec_ : QFault := { q := qCode v, cause := cSubn, index := e.idx, addr := BitVec.ofNat 64 low }
  s.setTh c { t with q := { q with faults := q.faults ++ [rec_] } }

/-- The queue parks at its head (R226). -/
def parkHead (s : State) (c : Nat) (v : VQ) (va : Word) (k : AccKind) : State :=
  let r := postFault s (s.ctxOf c) va (if v = .vs then agVS else agVL) k (dieOfCore c) (BitVec.ofNat 16 (c % 64)) c (qCode v).toNat
  let t := r.2.th c
  r.2.setTh c { t with q := t.q.set v { t.q.get v with park := .wait r.1 } }

/-- The instructions of a queue that have not begun are discarded under cancellation (R60, R61). -/
def discardHeld (s : State) (c : Nat) (v : VQ) : State :=
  let k := s.core c
  let t := k.th
  let q := t.q.get v
  let t := { t with q := t.q.set v { q with held := [], park := .run, host := .idle } }
  s.setCore c { k with th := t, banks := { k.banks with depth := parkBack q.held k.banks.depth } }

/-- A completed head that waits to push ends under cancellation; a push that has no room never happens (R61, R82). -/
def endHeld (s : State) (c : Nat) (v : VQ) (e : QEntry) : State :=
  let t := s.th c
  if t.q.canPush v e.f.tok then completeHead s c v e
  else
    let vq := t.q.get v
    s.setTh c { t with q := t.q.set v { vq with held := vq.held.tail } }

/-- The head of queue v has taken its pops. -/
def Queues.headPopped (q : Queues) (v : VQ) : Bool :=
  match (q.get v).held with
  | e :: _ => e.popped
  | [] => false

/-- The halted head keeps the sources it read, from which a retry begins again, and the pops it took when it began (R82,
R295). -/
def keepSrcs (s : State) (c : Nat) (v : VQ) (e : QEntry) : State :=
  let src := srcsOf s c e
  let s := takePops s c v e
  let t := s.th c
  let e := { e with popped := e.popped || t.q.headPopped v }
  let vq := t.q.get v
  s.setTh c { t with q := t.q.set v { vq with held := { e with kept := some src } :: vq.held.tail } }

/-- A fault of a load-block's fill that the head of VL meets (R209); it is spent with the halt. -/
def fillFault (s : State) (c : Nat) (v : VQ) (e : QEntry) : Option FillFault :=
  if v = .vl then
    (((s.core c).banks.blocks.filterMap (fun b => b.bad)).filter (fun f => decide (f.seq ≤ e.seq))).head?
  else none

def spendFill (s : State) (c : Nat) (f : FillFault) : State :=
  let k := s.core c
  s.setCore c { k with banks := { k.banks with
    blocks := k.banks.blocks.map (fun b => if b.bad = some f then { b with bad := none } else b) } }

/-- The head has begun: its request is with the host (R273). -/
def VQueue.begun (q : VQueue) : Bool := q.host != .idle

/-- The head waits: one that has begun has taken its pops (R82). -/
def waitHead (s : State) (c : Nat) (v : VQ) (e : QEntry) : State :=
  if ((s.th c).q.get v).begun then takePops s c v e else s

/-- The move of a queue: a completed head pushes; under cancellation what has not begun is discarded; a parked or
halted queue stands; the head begins once its pops can be taken (R60, R61, R82, R226). -/
def queueMove (s : State) (c : Nat) (v : VQ) (perform : QEntry → State → VOut) : Out :=
  let t := s.th c
  let q := t.q.get v
  match q.held with
  | [] => .next s
  | e :: _ =>
    if q.halted then .next s
    else if e.done then .next (if (killedStrand s c).isSome then endHeld s c v e else completeHead s c v e)
    else if (killedStrand s c).isSome && !q.begun then .next (discardHeld s c v)
    else match q.park with
      | .wait _ => .next s
      | .bad va => .next (haltQueue (keepSrcs s c v e) c v cPageFault va)
      | .run =>
        match fillFault s c v e with
        | some f => .next (haltQueue (spendFill s c f) c v f.cause f.va)
        | none =>
          if !e.popped && !t.q.canPop v e.f.tok then .next s
          else match perform e s with
            | .wait s => .next (waitHead s c v e)
            | .fault cause addr => .next (haltQueue (keepSrcs s c v e) c v cause addr)
            | .park va k => .next (parkHead s c v va k)
            | .done s => .next (completeHead s c v e)
            | .subn low src => .next (subnHead s c v e low src)

/-- A register of a role that an instruction reads holds an uncorrectable error (R304), the old destination among them where the
instruction keeps part of it (`old`): the field's register as a vector and as a predicate. -/
def eccField (old : Bool) (role : Role) (x : VCell) (p : PCell) : Bool :=
  match role with
  | .v | .vrw => x.ecc
  | .vw => old && x.ecc
  | .p => p.ecc
  | .pw => old && p.ecc
  | _ => false

/-- The destination type of VCVT (Table 16-2). -/
def cvtDst (f : V3) : Et := (Et.ofCode (f.c.toNat % 16)).getD .fp32

/-- The instruction keeps elements of its old destination: a masked one does, and a narrowing VCVT, which writes one part
(R340); VQNT and VSEL write every element (R349, R350). -/
def QEntry.keepsOld (e : QEntry) : Bool :=
  match e.ins with
  | .vqnt _ | .vsel _ => false
  | .vcvt f => e.f.ps != 0#2 || decide ((cvtDst f).width < e.et.width)
  | _ => e.f.ps != 0#2

/-- The marked registers of other classes that a held instruction reads: conditional streams (4), streams (5) and circular
buffers (6). -/
def QEntry.marksRead (e : QEntry) : List (Nat × Nat) :=
  match e.ins with
  | .spush f | .sbal f => [(4, f.a.toNat)]
  | .spop f => [(4, f.b.toNat)]
  | .vldst f | .vstst f => [(5, f.b.toNat)]
  | .vldc f | .vstc f => [(6, f.b.toNat)]
  | .cbadvRptr f | .cbadvWptr f => [(6, f.a.toNat)]
  | _ => []

/-- The head, or a register that it reads, holds an uncorrectable error (R304). -/
def eccHead (spec : VSpec) (e : QEntry) (s : State) : Bool :=
  let c := s.me
  let r := (s.th c).regs
  let x := srcsOf s c e
  let old := e.keepsOld
  e.ecc || eccField old spec.a x.a (r.rdP (e.pa.truncate 5)) || eccField old spec.b x.b (r.rdP (e.pb.truncate 5)) ||
    eccField old spec.c x.c x.m ||
    (e.f.ps != 0#2 && x.g.ecc) || e.marksRead.any (fun m => (s.th c).marks.contains m)

/-- A vector instruction: the agent that moves routes it, waits for its value, or performs it. -/
def vexec (i : Instr) (spec : VSpec) (f : V3) (x : RouteRule) (perform : QEntry → State → VOut) (s : State) : Out :=
  match s.agent with
  | .queue c v => queueMove s c v (fun e s => if e.ecc || (!x.quiet && eccHead spec e s) then .fault cEcc 0 else perform e s)
  | _ =>
    match (s.th s.me).job.wait with
    | .vwait w => vwaitStep s s.me w i
    | _ => vroute i spec f x s

/-! ### Sources and results -/

/-- The mode an entry's element operations run under (R129, R135, R137, R138). -/
def QEntry.mode (e : QEntry) : ElMode :=
  { et := e.et, rm := vmRm e.vmode, sat := vmSat e.vmode, ftz := e.ftz || e.hmode }

/-- D of a result (R92): the sources' D bits, the governing predicate's, and the old destination's when PS is not
00. -/
def resultD (e : QEntry) (x : Srcs) (d : Bool) : Bool := d || (e.f.ps != 0#2 && (x.g.d || x.a.d))

/-- Writes a vector result of VA: the destination, lr, and the flags (R88, R133). -/
def finishVA (s : State) (c : Nat) (e : QEntry) (val : Nat) (d : Bool) (fl : Flags) : State :=
  let t := s.th c
  let x : VCell := { val := BitVec.ofNat 2048 val, d := d }
  s.setTh c { t with regs := { t.regs.wrV e.pa x with lr := x }, csr := t.csr.merge fl }

/-- Writes a predicate result; lr is unchanged (R88). -/
def finishP (s : State) (c : Nat) (n : BitVec 6) (val : Nat) (d : Bool) (fl : Flags) : State :=
  let t := s.th c
  s.setTh c { t with regs := t.regs.wrP (n.truncate 5) { val := BitVec.ofNat 256 val, d := d }, csr := t.csr.merge fl }

/-- The value of VEXTR or PCNT arrives, if the control core still waits for it (R110, R294). -/
def finishS (s : State) (c : Nat) (e : QEntry) (val : Word) (d : Bool) : State :=
  let t := s.th c
  match t.job.wait with
  | .vwait w =>
    if w.idx = e.idx then
      s.setTh c { t with job := { t.job with wait := .vwait { w with value := some { val := val, d := d } } } }
    else s
  | _ => s

end Sys2Proof.Machine
end

