-- ==== Sys2Proof/Machine/VArith.lean ====
section
/-! DEFINITION. The vector instructions that VA performs: class VA and the VA rows of class VM (R334-R352). -/
namespace Sys2Proof.Machine
open Sys2Proof

/-- The element type in force at routing. -/
def etNow (s : State) : Et := vmEt (s.th s.me).csr.vmode

/-- Under GQ4 an instruction that does not work on whole bytes is ILLEGAL at routing (R138, R150). -/
def noGq4 (s : State) : RouteRule := { bad := etNow s == .gq4 }

/-- Performs an instruction with a vector result: `val` forms it from the sources, `d` is the OR of their D bits; a
tiny FP32 result that is not flushed asks for the assist (R135). -/
def performVA (val : ElMode → QEntry → Srcs → VAcc) (d : QEntry → Srcs → Bool) (e : QEntry) (s : State) : VOut :=
  let c := s.me
  let x := srcsOf s c e
  let r := val e.mode e x
  match r.tiny with
  | some low => .subn low x
  | none => .done (finishVA s c e r.val (d e x) r.flags)

/-- D of a result of B alone, of B and C, of A, B and C, of B and the scalar C, and of A, B and the scalar C (R92). -/
def dB (e : QEntry) (x : Srcs) : Bool := resultD e x x.b.d
def dBC (e : QEntry) (x : Srcs) : Bool := resultD e x (x.b.d || x.c.d)
def dABC (e : QEntry) (x : Srcs) : Bool := resultD e x (x.a.d || x.b.d || x.c.d)
def dBS (e : QEntry) (x : Srcs) : Bool := resultD e x (x.b.d || e.sc.d)
def dAB (e : QEntry) (x : Srcs) : Bool := resultD e x (x.a.d || x.b.d)
def dABS (e : QEntry) (x : Srcs) : Bool := resultD e x (x.a.d || x.b.d || e.sc.d)

/-- The low bits of a scalar that is broadcast (R127). -/
def lowEl (m : ElMode) (v : Nat) : Nat := v % 2 ^ (8 * m.et.width)

/-- Element-wise operations of B and C (R335). -/
def valBin (op : ElOp) (m : ElMode) (e : QEntry) (x : Srcs) : VAcc :=
  let w := m.et.width
  mapEl w x.a.val.toNat (act e x w) (fun i => elBin op m (elemOf x.b.val.toNat w i) (elemOf x.c.val.toNat w i))

/-- Element-wise operations of B and a broadcast scalar (R335). -/
def valBinS (op : ElOp) (m : ElMode) (e : QEntry) (x : Srcs) : VAcc :=
  let w := m.et.width
  let y := lowEl m e.sc.val.toNat
  mapEl w x.a.val.toNat (act e x w) (fun i => elBin op m (elemOf x.b.val.toNat w i) y)

/-- The multiply-add forms (R342, Table 16-4). -/
def valMad (m : ElMode) (e : QEntry) (x : Srcs) : VAcc :=
  let w := m.et.width
  mapEl w x.a.val.toNat (act e x w)
    (fun i => elFma m (elemOf x.a.val.toNat w i) (elemOf x.b.val.toNat w i) (elemOf x.c.val.toNat w i))

def valFma (m : ElMode) (e : QEntry) (x : Srcs) : VAcc :=
  let w := m.et.width
  mapEl w x.a.val.toNat (act e x w)
    (fun i => elFma m (elemOf x.b.val.toNat w i) (elemOf x.c.val.toNat w i) (elemOf x.a.val.toNat w i))

def valMadC (y : QEntry → Nat) (m : ElMode) (e : QEntry) (x : Srcs) : VAcc :=
  let w := m.et.width
  mapEl w x.a.val.toNat (act e x w)
    (fun i => elFma m (elemOf x.a.val.toNat w i) (elemOf x.b.val.toNat w i) (lowEl m (y e)))

/-- A unary operation of B. -/
def valUn (g : ElMode → Nat → FRes) (m : ElMode) (e : QEntry) (x : Srcs) : VAcc :=
  let w := m.et.width
  mapEl w x.a.val.toNat (act e x w) (fun i => g m (elemOf x.b.val.toNat w i))

/-- VFSH (R155). -/
def valFsh (m : ElMode) (e : QEntry) (x : Srcs) : VAcc :=
  let w := m.et.width
  mapEl w x.a.val.toNat (act e x w)
    (fun i => elFsh m (elemOf x.a.val.toNat w i) (elemOf x.b.val.toNat w i) (elemOf x.c.val.toNat w i))

/-- VRED and VSCAN (R149, R156). -/
def valRed (m : ElMode) (e : QEntry) (x : Srcs) : VAcc :=
  vredVal e.f.c.toNat m x.a.val.toNat x.b.val.toNat (act e x m.et.width)

def valScan (m : ElMode) (e : QEntry) (x : Srcs) : VAcc :=
  vscanVal e.f.c.toNat m x.a.val.toNat x.b.val.toNat (act e x m.et.width)

/-- VPERM (R154), VSLIDE (R153). -/
def valPerm (m : ElMode) (e : QEntry) (x : Srcs) : VAcc :=
  vpermVal m.et.width x.a.val.toNat x.b.val.toNat x.c.val.toNat (act e x m.et.width)

def valSlide (m : ElMode) (e : QEntry) (x : Srcs) : VAcc :=
  vslideVal e.f.c.toInt m.et.width x.a.val.toNat x.b.val.toNat (act e x m.et.width)

/-- VCBX (R337). -/
def valCbx (m : ElMode) (e : QEntry) (x : Srcs) : VAcc :=
  vcbxVal e.f.c.toNat m x.a.val.toNat x.b.val.toNat (act e x m.et.width)

/-- VQNT (R348, R349): every element is written. -/
def valQnt (m : ElMode) (e : QEntry) (x : Srcs) : VAcc :=
  vqntVal (e.f.c.toNat / 16) e.k0.toNat e.k1.toNat x.b.val.toNat (act e x m.et.width)

/-- VCVT (R339, R340): activity at the destination's width. -/
def valCvt (m : ElMode) (e : QEntry) (x : Srcs) : VAcc :=
  let dst := cvtDst e.f
  vcvtVal (e.f.c.toNat / 16) dst m x.a.val.toNat x.b.val.toNat (act e x dst.width)

/-- D of VCVT (R340). -/
def dCvt (e : QEntry) (x : Srcs) : Bool :=
  resultD e x (x.b.d || (decide ((cvtDst e.f).width < e.et.width) && x.a.d))

/-- VSEL (R350): every element is written. -/
def valSel (m : ElMode) (e : QEntry) (x : Srcs) : VAcc :=
  let w := m.et.width
  mapEl w 0 (fun _ => true)
    (fun i => { bits := if act e x w i then elemOf x.b.val.toNat w i else elemOf x.c.val.toNat w i })

/-- D where every element is written: the old destination takes no part (R349, R350). -/
def dSel (e : QEntry) (x : Srcs) : Bool := x.b.d || x.c.d || (e.f.ps != 0#2 && x.g.d)
def dQnt (e : QEntry) (x : Srcs) : Bool := x.b.d || (e.f.ps != 0#2 && x.g.d)

/-- VMOV (R347). -/
def elMov (_ : ElMode) (b : Nat) : FRes := { bits := b }

/-- VBCAST (R336). -/
def valBcast (m : ElMode) (e : QEntry) (x : Srcs) : VAcc :=
  let w := m.et.width
  mapEl w x.a.val.toNat (act e x w) (fun _ => { bits := lowEl m e.sb.val.toNat })

def dBcast (e : QEntry) (x : Srcs) : Bool := resultD e x e.sb.d

/-- VINS (R343). -/
def valIns (m : ElMode) (e : QEntry) (x : Srcs) : VAcc :=
  let w := m.et.width
  mapEl w x.a.val.toNat (fun i => decide (i = e.sc.val.toNat)) (fun _ => { bits := lowEl m e.sb.val.toNat })

def dIns (e : QEntry) (x : Srcs) : Bool := x.a.d || e.sb.d || e.sc.d

/-- Comparisons (R151, R338). -/
def performCmp (op : ElCmp) (e : QEntry) (s : State) : VOut :=
  let c := s.me
  let x := srcsOf s c e
  let old := (s.th c).regs.rdP (e.pa.truncate 5)
  let m := e.mode
  let w := m.et.width
  let r := buildPred w old.val.toNat (act e x w)
    (fun i => elCmp op m (elemOf x.b.val.toNat w i) (elemOf x.c.val.toNat w i)) (elemCount w) 0 (0, false)
  let d := x.b.d || x.c.d || (e.f.ps != 0#2 && (x.g.d || old.d))
  .done (finishP s c e.pa r.1 d { nv := r.2 })

/-- Predicate logic (R328). -/
def performP2 (g : PReg → PReg → PReg) (e : QEntry) (s : State) : VOut :=
  let c := s.me
  let a := (s.th c).regs.rdP (e.pb.truncate 5)
  let b := (s.th c).regs.rdP (e.pc.truncate 5)
  .done (finishP s c e.pa (g a.val b.val).toNat (a.d || b.d) {})

def performPnot (e : QEntry) (s : State) : VOut :=
  let c := s.me
  let a := (s.th c).regs.rdP (e.pb.truncate 5)
  .done (finishP s c e.pa (~~~a.val).toNat a.d {})

/-- PSET (R330): the bits below eb n are set. -/
def performPset (e : QEntry) (s : State) : VOut :=
  let c := s.me
  let n := 2 ^ e.f.b.toNat * e.sc.val.toNat
  .done (finishP s c e.pa (2 ^ Nat.min n 256 - 1) e.sc.d {})

/-- PCNT (R329). -/
def performPcnt (e : QEntry) (s : State) : VOut :=
  let c := s.me
  let a := (s.th c).regs.rdP (e.pb.truncate 5)
  .done (finishS s c e (BitVec.ofNat 64 (popN 256 a.val.toNat)) a.d)

/-- VEXTR (R341). -/
def performVextr (e : QEntry) (s : State) : VOut :=
  let c := s.me
  let x := srcsOf s c e
  let m := e.mode
  let w := m.et.width
  let j := e.sc.val.toNat
  let v : Word := if j < elemCount w then
      let y := BitVec.ofNat (8 * w) (elemOf x.b.val.toNat w j)
      if m.et.isSigned then y.signExtend 64 else y.zeroExtend 64
    else 0
  .done (finishS s c e v (x.b.d || e.sc.d))

/-! ### Parking (R94, R95) -/

/-- The key of word `col` of row `row` of a tile of an array (R177). -/
def tileKey (tile row col : Nat) : Nat := tile * 16384 + row * 128 + col

/-- The tile that holds slot j of the core at quad position q: the first or the second lent tile. -/
def parkTile (ptiles : BitVec 2) (q j : Nat) : Nat :=
  if j < 256 ∧ ptiles.getLsbD 0 then 2 * q else 2 * q + 1

/-- Key of word i of slot j. -/
def parkKey (ptiles : BitVec 2) (q j i : Nat) : Nat := tileKey (parkTile ptiles q j) (j % 256 / 2) (64 * (j % 2) + i)

/-- Writes n words of a value to the words of a slot, from word i on. -/
def parkWords (ptiles : BitVec 2) (q j : Nat) : Nat → Nat → Nat → SMap (BitVec 32) → SMap (BitVec 32)
  | 0, _, _, m => m
  | n + 1, i, v, m =>
    parkWords ptiles q j n (i + 1) (v / 2 ^ 32) (smSet 0 (parkKey ptiles q j i) (BitVec.ofNat 32 v) m)

/-- Reads n words of a slot from word i on. -/
def unparkWords (ptiles : BitVec 2) (q j : Nat) (m : SMap (BitVec 32)) : Nat → Nat → Nat
  | 0, _ => 0
  | n + 1, i => (smGet 0 (parkKey ptiles q j i) m).toNat + 2 ^ 32 * unparkWords ptiles q j m n (i + 1)

/-- The key under which an uncorrectable error of a tile word is marked (R304). -/
def tilePoison (arr key : Nat) : Nat := 2 ^ 120 + arr * 2 ^ 20 + key

/-- The marks of the first n words of the first m rows from a tile word on. -/
def inWords (arr key m n p : Nat) : Bool :=
  let lo := tilePoison arr key
  decide (lo ≤ p) && decide ((p - lo) / 128 < m) && decide ((p - lo) % 128 < n)

/-- Tile words that are written carry no error. -/
def cleanWords (s : Mem) (arr key m n : Nat) : Mem := { s with poison := s.poison.filter (fun p => !inWords arr key m n p) }

/-- A word of park slot j of core c has an uncorrectable error (R304). -/
def slotBad (s : State) (c j : Nat) : Bool :=
  s.mem.poison.any (inWords (arrayOf c) (parkKey (s.core c).banks.ptiles (quadPos c) j 0) 1 64)

/-- VPARK (R95). -/
def performVpark (e : QEntry) (s : State) : VOut :=
  let c := s.me
  let x := srcsOf s c e
  let k := s.core c
  let a := s.array (arrayOf c)
  let m := parkWords k.banks.ptiles (quadPos c) e.slot 64 0 x.b.val.toNat a.tiles
  let bit : BitVec 512 := BitVec.ofNat 512 (2 ^ e.slot)
  let d := if x.b.d then k.banks.parkD ||| bit else k.banks.parkD &&& ~~~bit
  let s : State := { s with mem := cleanWords s.mem (arrayOf c) (parkKey k.banks.ptiles (quadPos c) e.slot 0) 1 64 }
  .done ((s.setArray (arrayOf c) { a with tiles := m }).setCore c { k with banks := { k.banks with parkD := d } })

/-- VUNPARK (R95). -/
def performVunpark (e : QEntry) (s : State) : VOut :=
  let c := s.me
  let b := (s.core c).banks
  let a := s.array (arrayOf c)
  let v := unparkWords b.ptiles (quadPos c) e.slot a.tiles 64 0
  if slotBad s c e.slot then .fault cEcc 0 else .done (finishVA s c e v (b.parkD.getLsbD e.slot) {})

/-! ### The assist routine (R135): the same results with gradual underflow -/

/-- What the assist computes for the instructions that can be tiny. -/
def assistVal (e : QEntry) (x : Srcs) : Option (VAcc × Bool) :=
  let m := { e.mode with ftz := false }
  match e.ins with
  | .vadd _ => some (valBin .add m e x, dBC e x)
  | .vsub _ => some (valBin .sub m e x, dBC e x)
  | .vmul _ => some (valBin .mul m e x, dBC e x)
  | .vadds _ => some (valBinS .add m e x, dBS e x)
  | .vmuls _ => some (valBinS .mul m e x, dBS e x)
  | .vmad _ => some (valMad m e x, dABC e x)
  | .vfma _ => some (valFma m e x, dABC e x)
  | .vmadk _ => some (valMadC (fun e => e.k0.toNat) m e x, dAB e x)
  | .vmads _ => some (valMadC (fun e => e.sc.val.toNat) m e x, dABS e x)
  | .vred _ => some (valRed m e x, dB e x)
  | .vscan _ => some (valScan m e x, dB e x)
  | .vsfu _ => some (valUn (elSfu e.f.c.toNat) m e x, dB e x)
  | _ => none

/-! ### The rows -/

/-- VADD (R335). -/
def execVadd (f : V3) (s : State) : Out :=
  vexec (.vadd f) specVadd f (noGq4 s) (performVA (valBin .add) dBC) s

/-- VSUB (R335). -/
def execVsub (f : V3) (s : State) : Out :=
  vexec (.vsub f) specVsub f (noGq4 s) (performVA (valBin .sub) dBC) s

/-- VMUL (R335). -/
def execVmul (f : V3) (s : State) : Out :=
  vexec (.vmul f) specVmul f (noGq4 s) (performVA (valBin .mul) dBC) s

/-- VMIN (R335). -/
def execVmin (f : V3) (s : State) : Out :=
  vexec (.vmin f) specVmin f (noGq4 s) (performVA (valBin .min) dBC) s

/-- VMAX (R335). -/
def execVmax (f : V3) (s : State) : Out :=
  vexec (.vmax f) specVmax f (noGq4 s) (performVA (valBin .max) dBC) s

/-- VAND (R335). -/
def execVand (f : V3) (s : State) : Out :=
  vexec (.vand f) specVand f {} (performVA (valBin .and) dBC) s

/-- VOR (R335). -/
def execVor (f : V3) (s : State) : Out :=
  vexec (.vor f) specVor f {} (performVA (valBin .or) dBC) s

/-- VXOR (R335). -/
def execVxor (f : V3) (s : State) : Out :=
  vexec (.vxor f) specVxor f {} (performVA (valBin .xor) dBC) s

/-- VSHL (R335, R152). -/
def execVshl (f : V3) (s : State) : Out :=
  vexec (.vshl f) specVshl f (noGq4 s) (performVA (valBin .shl) dBC) s

/-- VSHR (R335, R152). -/
def execVshr (f : V3) (s : State) : Out :=
  vexec (.vshr f) specVshr f (noGq4 s) (performVA (valBin .shr) dBC) s

/-- VADDS (R335). -/
def execVadds (f : V3) (s : State) : Out :=
  vexec (.vadds f) specVadds f (noGq4 s) (performVA (valBinS .add) dBS) s

/-- VMULS (R335). -/
def execVmuls (f : V3) (s : State) : Out :=
  vexec (.vmuls f) specVmuls f (noGq4 s) (performVA (valBinS .mul) dBS) s

/-- VMAD (R342). -/
def execVmad (f : V3) (s : State) : Out :=
  vexec (.vmad f) specVmad f (noGq4 s) (performVA valMad dABC) s

/-- VFMA (R342). -/
def execVfma (f : V3) (s : State) : Out :=
  vexec (.vfma f) specVfma f (noGq4 s) (performVA valFma dABC) s

/-- VMADK (R342). -/
def execVmadk (f : V3) (s : State) : Out :=
  vexec (.vmadk f) specVmadk f (noGq4 s) (performVA (valMadC (fun e => e.k0.toNat)) dAB) s

/-- VMADS (R342). -/
def execVmads (f : V3) (s : State) : Out :=
  vexec (.vmads f) specVmads f (noGq4 s) (performVA (valMadC (fun e => e.sc.val.toNat)) dABS) s

/-- VFSH (R155). -/
def execVfsh (f : V3) (s : State) : Out :=
  vexec (.vfsh f) specVfsh f (noGq4 s) (performVA valFsh dABC) s

/-- VCEQ (R338). -/
def execVceq (f : V3) (s : State) : Out :=
  vexec (.vceq f) specVceq f (noGq4 s) (performCmp .eq) s

/-- VCLT (R338). -/
def execVclt (f : V3) (s : State) : Out :=
  vexec (.vclt f) specVclt f (noGq4 s) (performCmp .lt) s

/-- VCLE (R338). -/
def execVcle (f : V3) (s : State) : Out :=
  vexec (.vcle f) specVcle f (noGq4 s) (performCmp .le) s

/-- VSEL (R350). -/
def execVsel (f : V3) (s : State) : Out :=
  vexec (.vsel f) specVsel f {} (performVA valSel dSel) s

/-- VCVT's types and part are ILLEGAL at routing (R339): GQ4, or q at or above the width ratio. -/
def cvtRule (f : V3) (s : State) : RouteRule :=
  let ws := (etNow s).width
  let wd := (cvtDst f).width
  { bad := etNow s == .gq4 || decide (Nat.max ws wd / Nat.min ws wd ≤ f.c.toNat / 16) }

/-- VCVT (R339, R340). -/
def execVcvt (f : V3) (s : State) : Out :=
  vexec (.vcvt f) specVcvt f (cvtRule f s) (performVA valCvt dCvt) s

/-- A group above E elements is ILLEGAL at routing (R156). -/
def redRule (f : V3) (s : State) : RouteRule :=
  { bad := etNow s == .gq4 || decide (elemCount (etNow s).width < 2 ^ (f.c.toNat % 8)) }

/-- VRED (R149, R156). -/
def execVred (f : V3) (s : State) : Out :=
  vexec (.vred f) specVred f (redRule f s) (performVA valRed dB) s

/-- VSCAN (R149, R156). -/
def execVscan (f : V3) (s : State) : Out :=
  vexec (.vscan f) specVscan f (redRule f s) (performVA valScan dB) s

/-- VPERM (R154). -/
def execVperm (f : V3) (s : State) : Out :=
  vexec (.vperm f) specVperm f (noGq4 s) (performVA valPerm dBC) s

/-- VSLIDE (R153). -/
def execVslide (f : V3) (s : State) : Out :=
  vexec (.vslide f) specVslide f (noGq4 s) (performVA valSlide dB) s

/-- VSFU (R141). -/
def execVsfu (f : V3) (s : State) : Out :=
  vexec (.vsfu f) specVsfu f { bad := !(etNow s).isFloat } (performVA (valUn (elSfu f.c.toNat)) dB) s

/-- VBITS (R157). -/
def execVbits (f : V3) (s : State) : Out :=
  vexec (.vbits f) specVbits f (noGq4 s) (performVA (valUn (fun m x => elBits f.c.toNat (8 * m.et.width) x)) dB) s

/-- VCBX (R337). -/
def execVcbx (f : V3) (s : State) : Out :=
  vexec (.vcbx f) specVcbx f { bad := !(etNow s).isFloat } (performVA valCbx dB) s

/-- VQNT (R348, R349). -/
def execVqnt (f : V3) (s : State) : Out :=
  vexec (.vqnt f) specVqnt f { bad := etNow s != .fp32 } (performVA valQnt dQnt) s

/-- VMOV (R347). -/
def execVmov (f : V3) (s : State) : Out :=
  vexec (.vmov f) specVmov f {} (performVA (valUn elMov) dB) s

/-- VUN (R352). -/
def execVun (f : V3) (s : State) : Out :=
  vexec (.vun f) specVun f (noGq4 s) (performVA (valUn (elUn f.c.toNat)) dB) s

/-- PSET (R330). -/
def execPset (f : V3) (s : State) : Out :=
  vexec (.pset f) specPset f {} performPset s

/-- PAND (R328). -/
def execPand (f : V3) (s : State) : Out :=
  vexec (.pand f) specPand f {} (performP2 (fun a b => a &&& b)) s

/-- POR (R328). -/
def execPor (f : V3) (s : State) : Out :=
  vexec (.por f) specPor f {} (performP2 (fun a b => a ||| b)) s

/-- PXOR (R328). -/
def execPxor (f : V3) (s : State) : Out :=
  vexec (.pxor f) specPxor f {} (performP2 (fun a b => a ^^^ b)) s

/-- PNOT (R328). -/
def execPnot (f : V3) (s : State) : Out :=
  vexec (.pnot f) specPnot f {} performPnot s

/-- PCNT (R329). -/
def execPcnt (f : V3) (s : State) : Out :=
  vexec (.pcnt f) specPcnt f { scalar := true } performPcnt s

/-- VBCAST (R336). -/
def execVbcast (f : V3) (s : State) : Out :=
  vexec (.vbcast f) specVbcast f (noGq4 s) (performVA valBcast dBcast) s

/-- VEXTR (R341). -/
def execVextr (f : V3) (s : State) : Out :=
  vexec (.vextr f) specVextr f { bad := etNow s == .gq4, reads := some f.b, scalar := true } performVextr s

/-- VINS (R343). -/
def execVins (f : V3) (s : State) : Out :=
  vexec (.vins f) specVins f (noGq4 s) (performVA valIns dIns) s

/-- VPARK (R95). -/
def execVpark (f : V3) (s : State) : Out :=
  vexec (.vpark f) specVpark f { park := .push } performVpark s

/-- VUNPARK (R95). -/
def execVunpark (f : V3) (s : State) : Out :=
  vexec (.vunpark f) specVunpark f { park := .pop } performVunpark s

end Sys2Proof.Machine
end

