-- ==== Sys2Proof/Machine/VMem.lean ====
section
/-! DEFINITION. The vector instructions that VL and VS perform, conditional streams, circular buffers and streams
(R158-R175, R209, R344-R346, R351). -/
namespace Sys2Proof.Machine
open Sys2Proof

/-- The queue an agent moves. -/
def Agent.queueOf : Agent → VQ
  | .queue _ v => v
  | _ => .va

/-! ### Access to memory by a queue -/

/-- Where the pieces of a checked access lie. -/
abbrev Places := List (Nat × Option Cls)

/-- What the checks of an instruction's pieces find. -/
inductive PChk where
  | ok (ks : Places)
  | fault (cause : BitVec 8) (va : Word)
  | absent (va : Word)
  | held (line : Nat)
  deriving DecidableEq, Repr

/-- Checks every piece (address, bytes) in order; the first that fails decides. -/
def checkPieces (s : State) (w : Who) (k : AccKind) : List (Word × Nat) → PChk
  | [] => .ok []
  | (a, n) :: ps =>
    match checkAccess s w k a n with
    | .fault cause va => .fault cause va
    | .absent va => .absent va
    | .held line => .held line
    | .ok key cls =>
      match checkPieces s w k ps with
      | .ok ks => .ok ((key, cls) :: ks)
      | r => r

/-- The load-blocks that hold one of the bytes of a virtual piece (R209). -/
def LoadBlock.covers (b : LoadBlock) (a : Word) (n : Nat) : Bool :=
  decide (b.va.toNat < a.toNat + n) && decide (a.toNat < b.va.toNat + 128 * b.lines)

/-- A byte a VL load reads: from a full load-block that holds its address, else from memory (R209). -/
def blockByte (blocks : List LoadBlock) (m : Mem) (a key : Nat) : Byte :=
  match blocks.find? (fun b => b.full && b.covers (BitVec.ofNat 64 a) 1) with
  | some b => b.data.getD (a - b.va.toNat) 0
  | none => m.readByte key

/-- The value of n bytes a VL load reads. -/
def blockNat (blocks : List LoadBlock) (m : Mem) : Nat → Nat → Nat → Nat
  | _, _, 0 => 0
  | a, key, n + 1 => (blockByte blocks m a key).toNat + 256 * blockNat blocks m (a + 1) (key + 1) n

/-- The value of a piece as a VL load reads it. -/
def loadPiece (s : State) (c : Nat) (p : Word × Nat) (place : Nat × Option Cls) : Nat :=
  if place.2.isSome then blockNat (s.core c).banks.blocks s.mem p.1.toNat place.1 p.2 else s.mem.readNat place.1 p.2

/-- The HOST-U request of queue v for an access, if it makes one (R273). -/
def setHost (s : State) (c : Nat) (v : VQ) (h : HostSt) : State :=
  let t := s.th c
  s.setTh c { t with q := t.q.set v { t.q.get v with host := h } }

/-- The addresses of the pieces that lie in HOST-U pages: each is a request of its own (R273). -/
def hostPieces (ps : List (Word × Nat)) (ks : Places) : List Word :=
  (ps.zip ks).filterMap (fun x => if x.2.2 = some .hostU then some x.1.1 else none)

/-- The next HOST-U request of queue v; a write that is sent clears the restart bit (R42, R273). -/
def sendHost (s : State) (c : Nat) (v : VQ) (k : AccKind) (va : Word) (n : Nat) : State :=
  let s := setHost s c v (.sent va n)
  if k = .write then s.setTh c (clearRestart (s.th c)) else s

/-- The writes of an access leave for their dies (R253). -/
def sendStamps (s : State) (c : Nat) (ps : List (Word × Nat)) (ks : Places) : State :=
  let ds := (ps.zip ks).map (fun x => targetDie s (s.whoThread c) x.1.1 x.2.1)
  ds.eraseDups.foldl (fun s d => sendStamp s (dieOfCore c) d) s

/-- The accesses are made. -/
def performPieces (s : State) (c : Nat) (k : AccKind) (ps : List (Word × Nat)) (ks : Places)
    (go : Places → State → VOut) : VOut :=
  go ks (if k = .write then sendStamps s c ps ks else s)

/-- A load of VL waits on blocks: the fault of a fill among them is the load's to meet (R209; DESIGN CHOICE, log entry 84); VLDS,
which raises nothing, meets it by deferring (R175). -/
def meetFill (s : State) (c : Nat) (e : QEntry) (hit : List LoadBlock) : State :=
  let k := s.core c
  s.setCore c { k with banks := { k.banks with blocks := k.banks.blocks.map (fun b =>
    if hit.contains b then { b with bad := b.bad.map (fun f => { f with seq := Nat.min f.seq e.seq }) } else b) } }

/-- An access of a queue in pieces: checks, the host's lines, filling load-blocks (VL), local order (R251), the HOST-U
requests in order (R273; the bytes of a store to the host are written once every piece is answered, log entry 42); then `go`
with the places. A load that reads a load-block with an uncorrectable error faults (R304). -/
def queueAccess (s : State) (c : Nat) (v : VQ) (e : QEntry) (k : AccKind) (ps : List (Word × Nat))
    (go : Places → State → VOut) : VOut :=
  match checkPieces s (s.whoThread c) k ps with
  | .fault cause va => .fault cause va
  | .absent va => .park va k
  | .held line => .wait (sendSnoop s line)
  | .ok ks =>
    let filling := (s.core c).banks.blocks.filter (fun b => !b.full)
    let q := (s.th c).q
    let earlier := (q.vl.held ++ q.vs.held).any (fun x => decide (x.seq < e.seq)) || !(s.core c).ring.holds.isEmpty
    let hit := filling.filter (fun b => ps.any (fun p => !inWindow p.1.toNat && b.covers p.1 p.2))
    let bad := fun (p : Word × Nat) => !inWindow p.1.toNat && (s.core c).banks.blocks.any (fun b =>
      b.full && b.ecc && b.covers p.1 p.2)
    if decide (v = .vl) && !hit.isEmpty then .wait (meetFill s c e hit)
    else if decide (v = .vl) && k.meets && ps.any bad then .fault cEcc ((ps.find? bad).getD (0, 0)).1
    else if earlier && ps.any (fun p => heldBack s c e.seq p.1 p.2) then .wait s
    else match hostPieces ps ks, (q.get v).host with
      | [], _ => performPieces (setHost s c v .idle) c k ps ks go
      | va :: _, .idle => .wait (sendHost s c v k va 0)
      | _, .sent _ _ => .wait s
      | hs, .answered va n ok =>
        if !ok then .fault cPageFault va
        else match hs[n + 1]? with
          | some va => .wait (sendHost s c v k va (n + 1))
          | none => performPieces (setHost s c v .idle) c k ps ks go

/-- D of a vector that VS stores halts it with DFAULT (R92); the register is the field's logical number. -/
def dfaultV (field : BitVec 6) : VOut := .fault cDfault (dCode 1 field.toNat)

/-- Writes a vector result of VL: D clear, lr unchanged (R88, R92). -/
def finishVL (s : State) (c : Nat) (e : QEntry) (val : Nat) (d : Bool) (fl : Flags) : State :=
  let t := s.th c
  s.setTh c { t with regs := t.regs.wrV e.pa { val := BitVec.ofNat 2048 val, d := d }, csr := t.csr.merge fl }

/-- Stores n elements of width w from element i on: the active ones, each its own access in index order. -/
def storeEls (c w v : Nat) (active : Nat → Bool) (addr : Nat → Word) (place : Nat → Nat × Option Cls) :
    Nat → Nat → State → State
  | 0, _, s => s
  | n + 1, i, s =>
    let s := if active i then
        storeBytes s c (addr i) (place i).1 (place i).2 (leBytes w (elemOf v w i))
      else s
    storeEls c w v active addr place n (i + 1) s

/-! ### Contiguous loads and stores (R344, R175) -/

/-- The loaded vector: active elements from the bytes, the others kept. -/
def loadedVec (e : QEntry) (x : Srcs) (bytes : Nat) : Nat :=
  let w := e.et.width
  (mapEl w x.a.val.toNat (act e x w) (fun i => { bits := elemOf bytes w i })).val

/-- An active element of the 256 bytes at an address, read from memory at a key, holds an uncorrectable error; inactive ones
are not read (R91, R304), and those of a full load-block are the block's (R209). -/
def activeBad (s : State) (e : QEntry) (x : Srcs) (a : Word) (key : Nat) : Bool :=
  let w := e.et.width
  let blocks := (s.core s.me).banks.blocks
  (!s.mem.poison.isEmpty || blocks.any (fun b => b.ecc)) && (List.range (elemCount w)).any (fun i =>
    act e x w i && (match blocks.find? (fun b => b.full && b.covers (a + BitVec.ofNat 64 (w * i)) w) with
      | some b => b.ecc
      | none => s.mem.poisoned (key + w * i) w))

/-- The load of 256 bytes at an aligned address (R344). -/
def loadVec (e : QEntry) (x : Srcs) (a : Word) (s : State) : VOut :=
  let c := s.me
  queueAccess s c .vl e .part [(a, 256)] fun ks s =>
    let place := ks.headD (0, none)
    if activeBad s e x a place.1 then .fault cEcc a
    else .done (finishVL s c e (loadedVec e x (loadPiece s c (a, 256) place)) false {})

def performVld (e : QEntry) (s : State) : VOut :=
  let a := vldAddr e
  if !aligned a 256 then .fault cMisalign a else loadVec e (srcsOf s s.me e) a s

/-- VLDS: zero active elements with D set where VLD would fault or page, the fault of a load-block's fill that it would meet among
these, where a register it reads holds an uncorrectable error, or where the base has D set (R92, R175). -/
def performVlds (e : QEntry) (s : State) : VOut :=
  let c := s.me
  let a := vldAddr e
  let x := srcsOf s c e
  let defer := VOut.done (finishVL (setHost s c .vl .idle) c e (loadedVec e x 0) true {})
  let fills := (s.core c).banks.blocks.any (fun b => !b.full && b.bad.isSome && !inWindow a.toNat && b.covers a 256)
  if e.sb.d || e.sb.ecc || eccHead specVlds e s || !aligned a 256 || fills then defer
  else match loadVec e x a s with
    | .fault _ _ => defer
    | .park _ _ => defer
    | r => r

def performVst (e : QEntry) (s : State) : VOut :=
  let c := s.me
  let a := vldAddr e
  let x := srcsOf s c e
  let w := e.et.width
  if x.a.d then dfaultV e.f.a
  else if !aligned a 256 then .fault cMisalign a
  else queueAccess s c .vs e .write [(a, 256)] fun ks s =>
    let key := (ks.headD (0, none))
    .done (storeEls c w x.a.val.toNat (act e x w) (fun i => a + BitVec.ofNat 64 (w * i))
      (fun i => (key.1 + w * i, key.2)) (elemCount w) 0 s)

/-! ### Masked store (R351) -/

/-- The address QFSTAT names for a page that fails: lo in lo's own page, else the page (R351). -/
def pageAddr (lo : Nat) (va : Word) : Word :=
  if va.toNat / 4096 = lo / 4096 then BitVec.ofNat 64 lo else BitVec.ofNat 64 (va.toNat / 4096 * 4096)

/-- Writes the set bytes from byte j on. -/
def storeMask (c : Nat) (a : Word) (v : Nat) (m : PReg) (place : Nat → Nat × Option Cls) : Nat → Nat → State → State
  | 0, _, s => s
  | n + 1, j, s =>
    let s := if m.getLsbD j then
        storeBytes s c (a + BitVec.ofNat 64 j) (place j).1 (place j).2 [BitVec.ofNat 8 (elemOf v 1 j)]
      else s
    storeMask c a v m place n (j + 1) s

def performVstm (e : QEntry) (s : State) : VOut :=
  let c := s.me
  let x := srcsOf s c e
  let p := x.m
  let a := e.sb.val
  if x.a.d then dfaultV e.f.a
  else if p.d then .fault cDfault (dCode 2 e.f.c.toNat)
  else match lowSet p.val 256 0, highSet p.val 256 with
    | some jl, some jh =>
      let lo := a + BitVec.ofNat 64 jl
      let hi := a + BitVec.ofNat 64 jh
      let pieces := maskPieces p.val a jl jh
      if 2 ^ 57 ≤ lo.toNat ∨ 2 ^ 57 ≤ hi.toNat then .fault cPageFault lo
      else match queueAccess s c .vs e .write pieces fun ks s =>
          let place := fun j =>
            let b := (a.toNat + j) % 2 ^ 64
            match (pieces.zip ks).find? (fun q => decide (q.1.1.toNat ≤ b) && decide (b < q.1.1.toNat + q.1.2)) with
            | some q => (q.2.1 + (b - q.1.1.toNat), q.2.2)
            | none => (0, none)
          .done (storeMask c a x.a.val.toNat p.val place 256 0 s) with
        | .fault cause va => .fault cause (if inWindow lo.toNat then lo else pageAddr lo.toNat va)
        | .park va k => .park (pageAddr lo.toNat va) k
        | r => r
    | _, _ => .done s

/-! ### Gather and scatter (R346) -/

/-- The place of element i among the places of the active ones. -/
def placeOf (is : List Nat) (ks : Places) (i : Nat) : Nat × Option Cls :=
  match (is.zip ks).find? (fun p => p.1 == i) with
  | some p => p.2
  | none => (0, none)

def performVldx (e : QEntry) (s : State) : VOut :=
  let c := s.me
  let x := srcsOf s c e
  let w := e.et.width
  if x.c.d then dfaultV e.f.c
  else if !aligned e.sb.val w then .fault cMisalign e.sb.val
  else
    let is := activeList e x
    queueAccess s c .vl e .read (is.map (fun i => (elAddr e x i, w))) fun ks s =>
      let r := mapEl w x.a.val.toNat (act e x w)
        (fun i => { bits := loadPiece s c (elAddr e x i, w) (placeOf is ks i) })
      .done (finishVL s c e r.val false {})

def performVstx (e : QEntry) (s : State) : VOut :=
  let c := s.me
  let x := srcsOf s c e
  let w := e.et.width
  if x.a.d then dfaultV e.f.a
  else if x.c.d then dfaultV e.f.c
  else if !aligned e.sb.val w then .fault cMisalign e.sb.val
  else
    let is := activeList e x
    queueAccess s c .vs e .write (is.map (fun i => (elAddr e x i, w))) fun ks s =>
      .done (storeEls c w x.a.val.toNat (act e x w) (elAddr e x) (placeOf is ks) (elemCount w) 0 s)

/-! ### Circular buffers (R166, R167, R345) -/

def Streams.setCb (r : Streams) (n : Nat) (b : CBuf) : Streams := { r with cb := r.cb.setIfInBounds n b }

def performVldc (e : QEntry) (s : State) : VOut :=
  let c := s.me
  let t := s.th c
  let x := srcsOf s c e
  let b := t.strm.cbAt e.f.b.toNat
  if !t.strm.slotsReady e then .wait s
  else
    let key := slotKey c b b.rd (e.f.c.toNat - 1)
    if heldBack s c e.seq (slotAddr key) 256 then .wait s
    else if activeBad s e x (slotAddr key) key then .fault cEcc (slotAddr key)
    else .done (finishVL s c e (loadedVec e x (s.mem.readNat key 256)) false {})

def performVstc (e : QEntry) (s : State) : VOut :=
  let c := s.me
  let t := s.th c
  let x := srcsOf s c e
  let w := e.et.width
  let b := t.strm.cbAt e.f.b.toNat
  if !t.strm.slotsReady e then .wait s
  else if x.a.d then dfaultV e.f.a
  else
    let key := slotKey c b b.wr (e.f.c.toNat - 1)
    if heldBack s c e.seq (slotAddr key) 256 then .wait s
    else .done (storeEls c w x.a.val.toNat (act e x w) (fun i => BitVec.ofNat 64 (windowBase + w * i))
      (fun i => (key + w * i, none)) (elemCount w) 0 s)

/-- The counters of a pointer's advance by n (R167). -/
def CBuf.advRd (b : CBuf) (n : BitVec 16) : CBuf :=
  { b with rd := BitVec.ofNat 16 ((b.rd.toNat + n.toNat) % b.count.toNat), filled := b.filled - n, free := b.free + n }

def CBuf.advWr (b : CBuf) (n : BitVec 16) : CBuf :=
  { b with wr := BitVec.ofNat 16 ((b.wr.toNat + n.toNat) % b.count.toNat), free := b.free - n, filled := b.filled + n }

def performCbadv (adv : CBuf → BitVec 16 → CBuf) (e : QEntry) (s : State) : VOut :=
  let c := s.me
  let t := s.th c
  if !t.strm.slotsReady e then .wait s
  else
    let n := e.f.a.toNat
    .done (s.setTh c { t with strm := t.strm.setCb n (adv (t.strm.cbAt n) (e.f.b.zeroExtend 16)) })

/-! ### Conditional streams (R158-R163) -/

def Streams.cqAt (r : Streams) (n : Nat) : List Byte := r.cq.toList.getD n []
def Streams.setCq (r : Streams) (n : Nat) (l : List Byte) : Streams := { r with cq := r.cq.setIfInBounds n l }

def performSpush (e : QEntry) (s : State) : VOut :=
  let c := s.me
  let t := s.th c
  let x := srcsOf s c e
  let w := e.et.width
  let n := e.f.a.toNat
  let old := t.strm.cqAt n
  let new := (activeList e x).flatMap (fun i => leBytes w (elemOf x.b.val.toNat w i))
  if x.b.d then dfaultV e.f.b
  else if 1024 < old.length + new.length then .fault cCqFull (BitVec.ofNat 64 n)
  else .done (s.setTh c { t with strm := t.strm.setCq n (old ++ new) })

def performSpop (e : QEntry) (s : State) : VOut :=
  let c := s.me
  let t := s.th c
  let w := e.et.width
  let n := e.f.b.toNat
  let old := t.strm.cqAt n
  let cnt := Nat.min (elemCount w) (old.length / w)
  let val : VCell := { val := BitVec.ofNat 2048 (leNat (old.take (cnt * w))) }
  let lanes : PCell := { val := BitVec.ofNat 256 (2 ^ (cnt * w) - 1) }
  let regs := (t.regs.wrV e.pa val).wrP (e.pc.truncate 5) lanes
  .done (s.setTh c { t with regs := regs, strm := t.strm.setCq n (old.drop (cnt * w)) })

/-- The cores of the issuer's quad within its rectangle, in increasing quad position (R86, R162). -/
def sbalCores (s : State) (c : Nat) : List Nat :=
  let t := s.th c
  let xy := coreXY (s.ctx (s.ctxOf c)).vdmap c
  let x0 := xy.1 / 2 * 2
  let y0 := xy.2 / 2 * 2
  let inRect := fun (x y : Nat) => decide (rectX t.job.rect ≤ x) && decide (x < rectX t.job.rect + 2 ^ rectLW t.job.rect) &&
    decide (rectY t.job.rect ≤ y) && decide (y < rectY t.job.rect + 2 ^ rectLH t.job.rect)
  let base := c / 64 * 64 + c % 64 / 16 * 16 + c % 8 / 2 * 2
  ([0, 1, 2, 3] : List Nat).filterMap (fun q =>
    if inRect (x0 + q % 2) (y0 + q / 2) then some (base + q % 2 + q / 2 * 8) else none)

/-- The SBAL on buffer n at the head of a core's VA, ready to begin. -/
def sbalHead (s : State) (n k c : Nat) : Option QEntry :=
  let t := s.th c
  match t.q.va.held with
  | e :: _ =>
    match e.ins with
    | .sbal f =>
      if f.a.toNat = n ∧ !e.done ∧ !t.q.va.halted ∧ t.strm.sbals.toList.getD n 0 = k ∧ (e.popped ∨ t.q.canPop .va f.tok)
      then some e else none
    | _ => none
  | [] => none

/-- The chunks of 256 bytes of a sequence. Bytes that make no whole record go with the last chunk (R162 speaks of whole records;
DESIGN CHOICE, log entry 66). -/
def chunks : Nat → List Byte → List (List Byte)
  | 0, _ => []
  | n + 1, l => if l.isEmpty then [] else l.take 256 :: chunks n (l.drop 256)

/-- Every p-th chunk from the i-th on. -/
def dealt (p i : Nat) (cs : List (List Byte)) : List Byte :=
  ((List.range cs.length).filter (fun j => j % p == i)).flatMap (fun j => cs.getD j [])

/-- Gives participant i its share and counts its SBAL. -/
def sbalShare (s : State) (n p : Nat) (cs : List (List Byte)) (i c : Nat) : State :=
  let t := s.th c
  let k := t.strm.sbals.toList.getD n 0
  let strm := { t.strm.setCq n (dealt p i cs) with sbals := t.strm.sbals.setIfInBounds n (k + 1) }
  s.setTh c { t with strm := strm }

/-- The deal over the participants, lowest position first; the others' heads complete with the issuer's (R162). -/
def sbalDeal (s : State) (me n p : Nat) (cs : List (List Byte)) : Nat → List Nat → State
  | _, [] => s
  | i, c :: rest =>
    let head := (s.th c).q.va.held.head?
    let s := sbalShare s n p cs i c
    let s := match head with
      | some e => if c = me then s else completeHead s c .va e
      | none => s
    sbalDeal s me n p cs (i + 1) rest

/-- SBAL (R162): every participant's matching SBAL is at the head of its VA, or it waits. -/
def performSbal (e : QEntry) (s : State) : VOut :=
  let c := s.me
  let n := e.f.a.toNat
  let k := (s.th c).strm.sbals.toList.getD n 0
  let ps := sbalCores s c
  if ps.all (fun p => (sbalHead s n k p).isSome) then
    if ps.length ≤ 1 then
      let t := s.th c
      .done (s.setTh c { t with strm := { t.strm with sbals := t.strm.sbals.setIfInBounds n (k + 1) } })
    else
      let all := ps.flatMap (fun p => (s.th p).strm.cqAt n)
      .done (sbalDeal s c n ps.length (chunks 17 all) 0 ps)
  else .wait s

/-! ### Streams (R170-R174) -/

def Streams.setSt (r : Streams) (n : Nat) (x : Stream) : Streams := { r with st := r.st.setIfInBounds n x }

/-- How many pieces an element has. -/
def Stream.per (x : Stream) : Nat := if x.et = .gq4 then 6 else 1

/-- A number from its bytes, least significant first. -/
def bytesNat : List Nat → Nat
  | [] => 0
  | b :: bs => b + 256 * bytesNat bs

/-- The exact value of a GQ4 element from its code byte, scale code and super-scale (R143). -/
def Stream.gqElem (x : Stream) (r c byte sc ss : Nat) : FVal :=
  let low := (if x.baxis then r else c) % 2 = 0
  gqVal (if low then byte % 16 else byte / 16) (blockScale ss sc)

/-- The conversion of a stream element to the carried ET (R173, Table 6-6), by gradual underflow. -/
def streamIn (x : Stream) (m : ElMode) (r c : Nat) (vals : List Nat) : FRes :=
  let f := if x.et = .gq4 then
      let v := x.gqElem r c (vals.getD 0 0) (vals.getD 1 0) (bytesNat (vals.drop 2))
      if m.et.isFloat then m.et.fmt.round m.rm m.sat v.exact else v.toInteger m.rm m.et.isSigned (8 * m.et.width)
    else convertEl x.et m.et m.rm m.sat (vals.getD 0 0)
  { f with tiny := false }

/-- The values of the pieces of element i, from the places found for the list of elements. -/
def pieceVals (s : State) (c per : Nat) (is : List Nat) (ps : List (Word × Nat)) (ks : Places) (i : Nat) : List Nat :=
  let j := is.idxOf i
  (List.range per).map (fun t =>
    loadPiece s c (ps.getD (j * per + t) (0, 0)) (ks.getD (j * per + t) (0, none)))

def performVldst (e : QEntry) (s : State) : VOut :=
  let c := s.me
  let x := srcsOf s c e
  let st := (s.th c).strm.stAt e.f.b.toNat
  let m := e.mode
  let w := m.et.width
  let is := insideList e x st
  let ps := streamPieces e x st
  match layerSpan st st.posr.toNat (is.map (fun i => st.posc.toNat + i)) with
  | some a => .fault cLayerSpan a
  | none => queueAccess s c .vl e .read ps fun ks s =>
    let r := mapEl w x.a.val.toNat (act e x w) (fun i =>
      if is.contains i then streamIn st m st.posr.toNat (st.posc.toNat + i) (pieceVals s c st.per is ps ks i)
      else { bits := 0 })
    let s := finishVL s c e r.val false r.flags
    let t := s.th c
    .done (s.setTh c { t with strm := t.strm.setSt e.f.b.toNat (st.step (elemCount w)) })

/-- Writes the converted elements of a stream store. -/
def storeStream (c : Nat) (st : Stream) (bits : Nat → Nat) (is : List Nat) (ks : Places) : List Nat → State → State
  | [], s => s
  | i :: rest, s =>
    let p := placeOf is ks i
    storeStream c st bits is ks rest
      (storeBytes s c (st.addr st.posr.toNat (st.posc.toNat + i)) p.1 p.2 (leBytes st.et.width (bits i)))

/-- The flags of a list of results. -/
def flagsOf (g : Nat → FRes) : List Nat → Flags
  | [] => {}
  | i :: is => (g i).flags.or (flagsOf g is)

/-- VSTST (R174). Routed under ET = GQ4, its elements are the bytes of A, converted as unsigned integers of 8 bits: R138 moves
bytes for GQ4 and R174 is silent (DESIGN CHOICE, log entry 65). -/
def performVstst (e : QEntry) (s : State) : VOut :=
  let c := s.me
  let x := srcsOf s c e
  let st := (s.th c).strm.stAt e.f.b.toNat
  let m := e.mode
  let w := m.et.width
  let is := insideList e x st
  let conv := fun i => convertEl m.et st.et m.rm m.sat (elemOf x.a.val.toNat w i)
  if x.a.d then dfaultV e.f.a
  else match layerSpan st st.posr.toNat (is.map (fun i => st.posc.toNat + i)) with
  | some a => .fault cLayerSpan a
  | none => queueAccess s c .vs e .write (streamPieces e x st) fun ks s =>
    let s := storeStream c st (fun i => (conv i).bits) is ks is s
    let t := s.th c
    let csr := t.csr.merge (flagsOf conv is)
    .done (s.setTh c { t with csr := csr, strm := t.strm.setSt e.f.b.toNat (st.step (elemCount w)) })

/-! ### Load-blocks (R209) -/

/-- The lines the operand-buffer banks hold: 512 for each bank of that role. -/
def obufLines (role : BitVec 64) : Nat :=
  512 * ((List.range 32).filter (fun b => decide (nbits role.toNat (2 * b) 2 = 2))).length

/-- Evicts the oldest blocks until n more lines fit. -/
def evict (cap n : Nat) : List LoadBlock → List LoadBlock
  | [] => []
  | b :: bs => if (b :: bs).foldl (fun x y => x + y.lines) n ≤ cap then b :: bs else evict cap n bs

def performVldb (e : QEntry) (s : State) : VOut :=
  let c := s.me
  let a := e.sb.val
  let lines := e.f.c.toNat + 1
  let last := a.toNat + 128 * lines - 1
  if !aligned a 128 then .fault cMisalign a
  else if inWindow a.toNat || inWindow last || decide (a.toNat / 2 ^ 30 ≠ last / 2 ^ 30) then .fault cLayerSpan a
  else
    let k := s.core c
    let b : LoadBlock := { va := a, lines := lines, sem := e.f.a.truncate 5 }
    let blocks := evict (obufLines k.banks.roleF) lines k.banks.blocks ++ [b]
    .done (s.setCore c { k with banks := { k.banks with blocks := blocks } })

/-! ### Rules of routing -/

/-- The address register of field B. -/
def baseB (f : V3) : RouteRule := { base := [f.b.truncate 5] }

/-- Gather, scatter: GQ4 is ILLEGAL; the base raises DFAULT (R346). -/
def gatherRule (f : V3) (s : State) : RouteRule := { bad := etNow s == .gq4, base := [f.b.truncate 5] }

/-- A buffer whose COUNT is below n is ILLEGAL; so is a writer's use of a buffer with MODE = 1 (R166, R167). -/
def slotRule (b n : BitVec 6) (writer : Bool) (s : State) : RouteRule :=
  let x := (s.th s.me).strm.cbAt b.toNat
  { bad := decide (x.count.toNat < n.toNat) || (writer && x.mode) }

/-- VLDST: a register not configured, or GQ4, is ILLEGAL (R171, R173); VSTST: FMT = GQ4 (R174). -/
def streamRule (f : V3) (store : Bool) (s : State) : RouteRule :=
  let x := (s.th s.me).strm.stAt f.b.toNat
  { bad := decide (x.ext0 = 0) || (if store then x.et == .gq4 else etNow s == .gq4) }

/-- VLDB without an operand-buffer bank in force is ILLEGAL (R209). -/
def vldbRule (f : V3) (s : State) : RouteRule :=
  { bad := decide (obufLines (s.core s.me).banks.roleF = 0), base := [f.b.truncate 5] }

/-! ### The rows -/

/-- vld (R344). -/
def execVld (f : V3) (s : State) : Out :=
  vexec (.vld f) specVld f (baseB f) performVld s

/-- vst (R344). -/
def execVst (f : V3) (s : State) : Out :=
  vexec (.vst f) specVst f (baseB f) performVst s

/-- vlds (R175). -/
def execVlds (f : V3) (s : State) : Out :=
  vexec (.vlds f) specVlds f { quiet := true } performVlds s

/-- vstm (R351). -/
def execVstm (f : V3) (s : State) : Out :=
  vexec (.vstm f) specVstm f (baseB f) performVstm s

/-- vldx (R346). -/
def execVldx (f : V3) (s : State) : Out :=
  vexec (.vldx f) specVldx f (gatherRule f s) performVldx s

/-- vstx (R346). -/
def execVstx (f : V3) (s : State) : Out :=
  vexec (.vstx f) specVstx f (gatherRule f s) performVstx s

/-- vldc (R166, R345). -/
def execVldc (f : V3) (s : State) : Out :=
  vexec (.vldc f) specVldc f (slotRule f.b f.c false s) performVldc s

/-- vstc (R166, R345). -/
def execVstc (f : V3) (s : State) : Out :=
  vexec (.vstc f) specVstc f (slotRule f.b f.c true s) performVstc s

/-- cbadvRptr (R167). -/
def execCbadvRptr (f : V3) (s : State) : Out :=
  vexec (.cbadvRptr f) specCbadvRptr f (slotRule f.a f.b false s) (performCbadv CBuf.advRd) s

/-- cbadvWptr (R167). -/
def execCbadvWptr (f : V3) (s : State) : Out :=
  vexec (.cbadvWptr f) specCbadvWptr f (slotRule f.a f.b true s) (performCbadv CBuf.advWr) s

/-- spush (R159). -/
def execSpush (f : V3) (s : State) : Out :=
  vexec (.spush f) specSpush f (noGq4 s) performSpush s

/-- spop (R160). -/
def execSpop (f : V3) (s : State) : Out :=
  vexec (.spop f) specSpop f (noGq4 s) performSpop s

/-- sbal (R162). -/
def execSbal (f : V3) (s : State) : Out :=
  vexec (.sbal f) specSbal f (noGq4 s) performSbal s

/-- vldb (R209). -/
def execVldb (f : V3) (s : State) : Out :=
  vexec (.vldb f) specVldb f (vldbRule f s) performVldb s

/-- vldst (R173). -/
def execVldst (f : V3) (s : State) : Out :=
  vexec (.vldst f) specVldst f (streamRule f false s) performVldst s

/-- vstst (R174). -/
def execVstst (f : V3) (s : State) : Out :=
  vexec (.vstst f) specVstst f (streamRule f true s) performVstst s

end Sys2Proof.Machine
end

