-- ==== Sys2Proof/Machine/Ring.lean ====
section
/-! DEFINITION. The instructions on the command ring (R182-R184), stream registers (R170, R171), circular buffers
(R164, R165), owner tiles (R207), bank roles (R203), translations (R200) and the monitor (R228, R325). -/
namespace Sys2Proof.Machine
open Sys2Proof

/-! ### The command ring -/

/-- The points at which a ring fault is taken (R189): QFAULT before anything else of the instruction (R289). -/
def ringPoint (s : State) (k : State → Out) : Out :=
  let c := s.me
  if (s.th c).q.ringFault then .next (takeQfault s c 4 false) else k s

def setRing (s : State) (c : Nat) (r : Ring) : State := s.setCore c { s.core c with ring := r }

/-- The ring configuration word (Table 8-1): LOGN in [27:24], BASE in [20:0]; 0 where not configured. -/
def ringWord (r : Ring) : Word := if r.cfg then 0#36 ++ r.logn ++ 0#3 ++ r.base else 0

/-- The address lies in core c's own scratchpad, named through either form of the local window (R197). -/
def ownWindow (s : State) (c : Nat) (a : Word) : Bool :=
  inWindow a.toNat &&
    (match windowTarget s (s.whoThread c) a.toNat with
    | some (d, _) => d == c
    | none => false)

/-- The elements inside the stream (R190) of its first `m` rows, `n` elements each, lie in the own scratchpad. -/
def rowsOwn (s : State) (c : Nat) (x : Stream) (m n : Nat) : Bool :=
  let n := Nat.min n x.ext0.toNat
  decide (n = 0) || (List.range (Nat.min m x.rows)).all (fun r =>
    ownWindow s c (x.addr r 0) && ownWindow s c (x.addr r (n - 1) + BitVec.ofNat 64 (x.et.width - 1)))

/-- A posted record keeps the restart bit (R42): its tile is of the core's own pair, and every row that a MOUT writes lies in
the own scratchpad. -/
def recordKeeps (s : State) (c : Nat) (r : BitVec 128) : Bool :=
  let m := wMCmd r
  decide (m.acc.toNat / 2 = quadPos c) &&
    (decide ((r.extractLsb' 0 8).toNat ≠ 4) ||
      rowsOwn s c ((s.th c).strm.stAt m.sta.toNat) (m.mm1.toNat + 1) (m.nm1.toNat + 1))

/-- Clears the restart bit unless every one of the n records from index i keeps it. -/
def postRestart (s : State) (c i n : Nat) : State :=
  if (List.range n).all (fun j => recordKeeps s c (ringRecord s c (i + j))) then s
  else s.setTh c (clearRestart (s.th c))

/-- MCMD (R184). It never waits: its record is written once the earlier accesses of its domain are performed (R251), and the
command begins after every earlier access of the strand (R257; DEDUCED, log entry 58). -/
def execMcmd (f : R3) (s : State) : Out :=
  ringPoint s fun s => guardD s [f.ra, f.rb] fun s =>
    let c := s.me
    let t := s.th c
    let r := (s.core c).ring
    if !r.cfg then result s c f.rd rBaddesc
    else if (r.wr - r.rd).toNat = 2 ^ r.logn.toNat then result s c f.rd rBusy
    else
      let key := ringKey c r r.wr.toNat
      let v : BitVec 128 := (t.rdS f.rb).val ++ (t.rdS f.ra).val
      let held := heldBack s c t.q.seq (slotAddr key) 16
      let x : Posting := { idx := r.wr.toNat, seq := t.q.seq, late := if held then some v else none }
      let s : State := if held then s else { s with mem := s.mem.writeNat key 16 v.toNat }
      let s := setRing s c { r with wr := r.wr + 1, holds := r.holds ++ [x] }
      result (postRestart s c r.wr.toNat 1) c f.rd r.wr

/-- The records of core c that waited for earlier accesses are written once those are performed (R184, R251). -/
def writeLate (s : State) (c : Nat) : State :=
  let r := (s.core c).ring
  r.holds.foldl (fun s x =>
    match x.late with
    | none => s
    | some v =>
      let key := ringKey c r x.idx
      if recordBehind s c x .vl || recordBehind s c x .vs then s
      else
        let q := (s.core c).ring
        setRing { s with mem := s.mem.writeNat key 16 v.toNat } c
          { q with holds := q.holds.map (fun y => if y.idx = x.idx then { y with late := none } else y) }) s

/-- The configuration that mring.cfg's operand gives (Table 8-1); none where it is refused. -/
def ringCfg (s : State) (c : Nat) (v : Word) : Option Ring :=
  let base : BitVec 21 := v.extractLsb' 0 21
  let logn : BitVec 4 := v.extractLsb' 24 4
  let top := base.toNat + 16 * 2 ^ logn.toNat
  let b := (s.core c).banks
  if v &&& ~~~0x0F1FFFFF#64 ≠ 0 ∨ base.toNat % 256 ≠ 0 ∨ logn.toNat < 4 ∨ 12 < logn.toNat ∨ 2 ^ 21 < top ∨
      !allBetween (bankIsSpad b.roleF) (base.toNat / 2 ^ 16) ((top - 1) / 2 ^ 16) then none
  else some { (s.core c).ring with cfg := true, base := base, logn := logn, rd := 0, wr := 0, holds := [] }

/-- MRING.CFG (R183); its wait is a kill point. -/
def execMringCfg (f : R2) (s : State) : Out :=
  ringPoint s fun s => guardD s [f.ra] fun s =>
    let c := s.me
    if !ringDrained s c then killPoint s c (fun s => .next s)
    else match ringCfg s c ((s.th c).rdS f.ra).val with
      | none => result s c f.rd rBaddesc
      | some r => result (setRing s c r) c f.rd (ringWord (s.core c).ring)

/-- MRING.POST (R183): the release at core scope waits for the strand's stores in VS. -/
def execMringPost (f : R2) (s : State) : Out :=
  ringPoint s fun s => guardD s [f.ra] fun s =>
    let c := s.me
    let r := (s.core c).ring
    let v := ((s.th c).rdS f.ra).val.toNat
    if !r.cfg || decide (v < r.wr.toNat) || decide (r.rd.toNat + 2 ^ r.logn.toNat < v) then result s c f.rd rBaddesc
    else if !accessesDone s c then awaitAccesses s c
    else
      let s := setRing s c { r with wr := BitVec.ofNat 64 v }
      result (postRestart s c r.wr.toNat (v - r.wr.toNat)) c f.rd r.wr

/-- MRING.STAT (R183). -/
def execMringStat (rd : BitVec 5) (s : State) : Out :=
  ringPoint s fun s =>
    let c := s.me
    let r := (s.core c).ring
    result s c rd ((r.rd.extractLsb' 0 32) ++ (r.wr.extractLsb' 0 32))

/-! ### Stream registers -/

/-- The descriptor's fields (Table 7-3), from its 64 bytes as one number. -/
def streamOf (x : Nat) : Stream :=
  let f := fun (lo n : Nat) => nbits x lo n
  { base := BitVec.ofNat 57 (f 0 57), ext3 := BitVec.ofNat 16 (f 112 16), ext2 := BitVec.ofNat 16 (f 96 16),
    kind := BitVec.ofNat 3 (f 69 3), baxis := f 68 1 == 1, fmt := BitVec.ofNat 4 (f 64 4),
    ext0 := BitVec.ofNat 32 (f 128 32), ext1 := BitVec.ofNat 32 (f 160 32), rstr := BitVec.ofNat 64 (f 192 64),
    sbase := BitVec.ofNat 64 (f 256 64), sstr := BitVec.ofNat 32 (f 320 32), ssstr := BitVec.ofNat 32 (f 352 32),
    ssbase := BitVec.ofNat 64 (f 384 64), posc := BitVec.ofNat 32 (f 448 32), posr := BitVec.ofNat 32 (f 480 32) }

/-- The rows of a stream (R170). -/
def Stream.rowCount (x : Stream) : Nat :=
  if x.kind = 0#3 then x.ext1.toNat else x.ext1.toNat * x.ext2.toNat * x.ext3.toNat

/-- A malformed descriptor (R170). -/
def streamBad (raw : Nat) : Bool :=
  let x := streamOf raw
  let gq4 := decide (x.fmt.toNat = 10)
  let ws := ((Et.ofCode x.fmt.toNat).getD .fp32).width
  decide (nbits raw 57 7 ≠ 0) || decide (nbits raw 72 24 ≠ 0) ||
    decide (2 ≤ x.kind.toNat) || decide (11 ≤ x.fmt.toNat) ||
    (!gq4 && (x.baxis || decide (x.sbase ≠ 0) || decide (x.sstr ≠ 0) || decide (x.ssstr ≠ 0) || decide (x.ssbase ≠ 0))) ||
    decide (x.ext0 = 0) || decide (16777215 < x.ext0.toNat) || decide (x.ext1 = 0) || decide (16777215 < x.ext1.toNat) ||
    (if x.kind = 0#3 then decide (x.ext2 ≠ 0) || decide (x.ext3 ≠ 0) else decide (x.ext2 = 0) || decide (x.ext3 = 0)) ||
    decide (2 ^ 32 - 1 < x.rowCount) ||
    (!gq4 && (decide (x.base.toNat % ws ≠ 0) || decide (x.rstr.toNat % ws ≠ 0))) ||
    decide (x.ssbase.toNat % 4 ≠ 0) ||
    decide (x.ext0.toNat ≤ x.posc.toNat) || decide (x.rowCount < x.posr.toNat)

/-- A held instruction names stream register n (R171). -/
def QEntry.namesStream (n : Nat) (e : QEntry) : Bool := e.streamOf == some n

/-- A held instruction names circular buffer n (R165). -/
def QEntry.namesBuf (n : Nat) (e : QEntry) : Bool :=
  match e.slots with
  | some (b, _, _) => b == n
  | none => false

/-- STCFG (R171): waits for held instructions and posted commands that name the register. -/
def execStcfg (f : R2) (n : BitVec 4) (s : State) : Out :=
  qfaultFirst s s.me ((s.th s.me).q.holding (QEntry.namesStream n.toNat)) fun s => guardD s [f.ra] fun s =>
    let c := s.me
    match (s.th c).q.holding (QEntry.namesStream n.toNat) with
    | v :: vs => awaitQueues s c (v :: vs) false
    | [] =>
      if ringNames s c (fun _ l => l.contains n) then killPoint s c (fun s => .next s)
      else coreAccess s c .read false ((s.th c).rdS f.ra).val 64 fun key _ s =>
        let raw := s.mem.readNat key 64
        let t := s.th c
        let old := t.strm.stAt n.toNat
        let m : Nat × Nat := (5, n.toNat)
        if streamBad raw then result s c f.rd rBaddesc
        else if decide (f.rd ≠ 0) && t.marks.contains m then .next (takeTrap s c cEcc 0)
        else result (s.setTh c { t with strm := t.strm.setSt n.toNat (streamOf raw), marks := t.marks.filter (· != m) }) c f.rd
          (old.posr ++ old.posc)

/-! ### Circular buffers -/

/-- The descriptor's fields (Table 7-2), from its 32 bytes as one number. -/
def cbufOf (x inst : Nat) : CBuf :=
  let f := fun (lo n : Nat) => nbits x lo n
  { base := BitVec.ofNat 21 (f 0 21), mode := f 96 1 == 1, ssz := BitVec.ofNat 4 (f 80 4), count := BitVec.ofNat 9 (f 64 9),
    free := BitVec.ofNat 16 (f 128 16), filled := BitVec.ofNat 16 (f 144 16), rd := BitVec.ofNat 16 (f 160 16),
    wr := BitVec.ofNat 16 (f 176 16), inst := inst }

/-- Bytes of a slot (Table 7-2). -/
def CBuf.slotBytes (b : CBuf) : Nat := 256 * (b.ssz.toNat + 1)

/-- A malformed descriptor (R164). -/
def cbufBad (role : BitVec 64) (raw : Nat) : Bool :=
  let b := cbufOf raw 0
  let n := b.count.toNat
  let top := b.base.toNat + n * b.slotBytes
  decide (nbits raw 21 43 ≠ 0) || decide (b.base.toNat % 256 ≠ 0) || decide (nbits raw 97 31 ≠ 0) ||
    decide (nbits raw 84 12 ≠ 0) || decide (nbits raw 73 7 ≠ 0) || decide (nbits raw 192 64 ≠ 0) ||
    decide (n = 0) || decide (256 < n) || decide (b.free.toNat + b.filled.toNat ≠ n) || decide (n ≤ b.rd.toNat) ||
    decide (b.wr.toNat ≠ (b.rd.toNat + b.filled.toNat) % n) || decide (2 ^ 21 < top) ||
    !allBetween (bankIsSpad role) (b.base.toNat / 2 ^ 16) ((top - 1) / 2 ^ 16)

/-- CBCFG (R165). -/
def execCbcfg (f : R2) (n : BitVec 4) (s : State) : Out :=
  qfaultFirst s s.me ((s.th s.me).q.holding (QEntry.namesBuf n.toNat)) fun s => guardD s [f.ra] fun s =>
    let c := s.me
    match (s.th c).q.holding (QEntry.namesBuf n.toNat) with
    | v :: vs => awaitQueues s c (v :: vs) false
    | [] =>
      coreAccess s c .read false ((s.th c).rdS f.ra).val 32 fun key _ s =>
        let raw := s.mem.readNat key 32
        let t := s.th c
        let old := t.strm.cbAt n.toNat
        let m : Nat × Nat := (6, n.toNat)
        if decide (f.rd ≠ 0) && !cbufBad (s.core c).banks.roleF raw && t.marks.contains m then .next (takeTrap s c cEcc 0)
        else if cbufBad (s.core c).banks.roleF raw then result s c f.rd rBaddesc
        else result (s.tick.2.setTh c { t with strm := t.strm.setCb n.toNat (cbufOf raw (s.fresh + 1)),
                                               marks := t.marks.filter (· != m) }) c f.rd
          (0#32 ++ old.filled ++ old.free)

/-! ### What a matrix command reads and writes -/

/-- The array as an accessor for the ring of core c (R190, R206). -/
def whoArray (s : State) (c : Nat) : Who :=
  { ctx := s.ctxOf c, die := dieOfCore c, core := some c, rect := (s.th c).job.rect, owner := some 1 }

/-- The geometry of an MCONV. -/
structure Conv where
  n : Nat
  h : Nat
  w : Nat
  c : Nat
  r : Nat
  s : Nat
  oh : Int
  ow : Int
  deriving DecidableEq, Repr

/-- Outputs along one axis. -/
def convOut (size pad dil filt stride : Nat) : Int :=
  ((size : Int) + 2 * pad - (dil + 1) * (filt - 1) - 1) / (stride + 1) + 1

def convOf (m : MCmd) (a b : Stream) : Conv :=
  let h := a.ext2.toNat
  let w := a.ext1.toNat
  let r := b.ext3.toNat
  let s := b.ext2.toNat
  { n := a.ext3.toNat, h := h, w := w, c := a.ext0.toNat, r := r, s := s,
    oh := convOut h m.pt.toNat m.dh.toNat r m.sh.toNat, ow := convOut w m.pl.toNat m.dw.toNat s m.sw.toNat }

/-- Where element k of unfolded row i lies (R193): outside the operand, in the padding, or at a row and column of the stream. -/
inductive ConvAt where
  | out
  | pad
  | cell (row c : Nat)
  deriving DecidableEq, Repr

def Conv.at_ (g : Conv) (m : MCmd) (i k : Nat) : ConvAt :=
  let mm := m.row0.toNat + i
  let kk := m.koff.toNat + k
  if g.oh < 1 ∨ g.ow < 1 then .out
  else
    let oh := g.oh.toNat
    let ow := g.ow.toNat
    if g.n * oh * ow ≤ mm ∨ g.r * g.s * g.c ≤ kk then .out
    else
      let img := mm / (oh * ow)
      let y := mm / ow % oh
      let x := mm % ow
      let c := kk % g.c
      let t := kk / g.c
      let ih : Int := (y * (m.sh.toNat + 1) : Nat) - (m.pt.toNat : Int) + (t / g.s * (m.dh.toNat + 1) : Nat)
      let iw : Int := (x * (m.sw.toNat + 1) : Nat) - (m.pl.toNat : Int) + (t % g.s * (m.dw.toNat + 1) : Nat)
      if ih < 0 ∨ (g.h : Int) ≤ ih ∨ iw < 0 ∨ (g.w : Int) ≤ iw then .pad
      else .cell ((img * g.h + ih.toNat) * g.w + iw.toNat) c

/-- A byte of the elements lo, …, hi - 1 of row r of a stream lies in tile t of core c, as the array of core d names it. -/
def rowInTile (s : State) (d : Nat) (x : Stream) (c t r lo hi : Nat) : Bool :=
  let hi := Nat.min hi x.ext0.toNat
  decide (lo < hi) && decide (r < x.rows) &&
    (List.zip (x.parts r lo) (x.parts r (hi - 1))).any (fun p =>
      inWindow p.1.1.toNat && (match windowTarget s (whoArray s d) p.1.1.toNat with
        | some (e, off) => decide (e = c) && decide (off < 4096 * (t + 1)) &&
            decide (4096 * t < off + (p.2.1 - p.1.1).toNat + p.2.2)
        | none => false))

/-- The command of a record of core d reads or writes tile t of core c (R190-R193). -/
def recordInTile (s : State) (d c t : Nat) (v : BitVec 128) : Bool :=
  let m := wMCmd v
  let a := (s.th d).strm.stAt m.sta.toNat
  let b := (s.th d).strm.stAt m.stb.toNat
  let rows := fun (x : Stream) (m n r0 : Nat) =>
    (List.range (Nat.min m (x.rows - r0))).any (fun i => rowInTile s d x c t (r0 + i) 0 n)
  match (v.extractLsb' 0 8).toNat with
  | 2 => rows a (m.mm1.toNat + 1) m.k.toNat 0 || rows b m.k.toNat (m.nm1.toNat + 1) 0
  | 3 =>
    let g := convOf m a b
    rows b m.k.toNat (m.nm1.toNat + 1) m.koff.toNat ||
      (List.range (m.mm1.toNat + 1)).any (fun i => (List.range m.k.toNat).any (fun k => match g.at_ m i k with
        | .cell row col => rowInTile s d a c t row col (col + 1)
        | _ => false))
  | 4 | 5 => rows a (m.mm1.toNat + 1) (m.nm1.toNat + 1) 0
  | _ => false

/-- A command of core d that is posted and not complete touches tile t of core c (R207). -/
def peerTouches (s : State) (d c t : Nat) : Bool :=
  let r := (s.core d).ring
  (List.range (r.wr - r.rd).toNat).any (fun j => recordInTile s d c t (ringRecord s d (r.rd.toNat + j))) ||
    (ringExec s d).any (fun e => recordInTile s d c t e.word)

/-! ### Owner tiles -/

/-- One of the ranges (core, first and last offset) meets a byte range of core c's scratchpad. -/
def spansMeet (xs : List (Nat × Nat × Nat)) (c lo hi : Nat) : Bool :=
  xs.any (fun x => decide (x.1 = c) && decide (x.2.1 ≤ hi) && decide (lo ≤ x.2.2))

/-- A packet in execution touches a byte range of core c's scratchpad (R207): the ranges of its sides. -/
def PRun.touches (r : PRun) (c lo hi : Nat) : Bool := spansMeet r.spans c lo hi

/-- The packet is an FLCOLL, whose tiles are collective's (R206). -/
def PRun.collective (r : PRun) : Bool :=
  match r.ins with
  | .flcoll _ => true
  | _ => false

/-- Work of the old owner that touches tile t (R194, R207): for matrix, every command of the own ring, and those of other cores'
rings that reach the tile through the local window, as they stand posted while the OWNF waits (DESIGN CHOICE, log entry 78); for
Flume the packets in execution but the FLCOLLs, for collective these. -/
def ownerBusy (s : State) (c t old : Nat) : Bool :=
  if old = 1 then !ringDrained s c || s.cores.any (fun d => decide (d.1 ≠ c) && d.2.ring.cfg && peerTouches s d.1 c t)
  else s.work.runs.any (fun q => (q.2.collective == decide (old = 3)) && q.2.touches c (t * 4096) (t * 4096 + 4095))

/-- Tile t takes an owner. -/
def setOwner (owners : BitVec 1024) (t : Nat) (o : BitVec 2) : BitVec 1024 :=
  (owners &&& ~~~(3#1024 <<< (2 * t))) ||| (o.zeroExtend 1024 <<< (2 * t))

/-- n tiles from t take an owner. -/
def setOwners (owners : BitVec 1024) (o : BitVec 2) : Nat → Nat → BitVec 1024
  | _, 0 => owners
  | t, n + 1 => setOwners (setOwner owners t o) o (t + 1) n

/-- The tiles from t on change owner in order; the first whose old owner is still at work holds the rest (R207). -/
def ownTiles (s : State) (c : Nat) (o : BitVec 2) : Nat → Nat → BitVec 1024 → BitVec 1024 × Bool
  | _, 0, w => (w, true)
  | t, n + 1, w =>
    let old := tileOwner w t
    if old = o.toNat then ownTiles s c o (t + 1) n w
    else if old ≠ 0 ∧ ownerBusy s c t old = true then (w, false)
    else ownTiles s c o (t + 1) n (setOwner w t o)

/-- OWNF and OWNF.AUTO (R207); giving tiles away is a release at core scope. A second mark replaces one that is still pending
(DESIGN CHOICE, log entry 70). -/
def ownf (f : R3) (owner : BitVec 2) (auto : Bool) (s : State) : Out :=
  guardD s [f.ra, f.rb] fun s =>
    let c := s.me
    let t := s.th c
    let off := (t.rdS f.ra).val.toNat
    let n := (t.rdS f.rb).val.toNat
    let b := (s.core c).banks
    if 2 ^ 21 ≤ off ∨ off % 4096 ≠ 0 ∨ n = 0 ∨ 512 < n ∨ 512 < off / 4096 + n ∨ (auto && owner != 2#2) ∨
        !allBetween (bankIsSpad b.roleF) (off / 2 ^ 16) ((off + 4096 * n - 1) / 2 ^ 16) then
      result s c f.rd rBaddesc
    else if owner ≠ 0#2 ∧ !accessesDone s c then awaitAccesses s c
    else
      let x := ownTiles s c owner (off / 4096) n b.owners
      let b := { b with owners := x.1 }
      if x.2 then
        let b := if auto then { b with auto := some (off / 4096, n) } else b
        result (s.setCore c { s.core c with banks := b }) c f.rd 0
      else killPoint s c fun s => .next (s.setCore c { s.core c with banks := b })

/-- OWNF (R207). -/
def execOwnf (f : R3) (owner : BitVec 2) (s : State) : Out := ownf f owner false s
/-- OWNF.AUTO (R207): a new owner other than Flume (10) gives baddesc. -/
def execOwnfAuto (f : R3) (owner : BitVec 2) (s : State) : Out := ownf f owner true s

/-! ### Bank roles -/

/-- The banks whose in-force role satisfies p and whose pending role does not. -/
def leaving (b : Banks) (p : BitVec 2 → Bool) : List Nat :=
  (List.range 32).filter (fun j => p (b.roleF.extractLsb' (2 * j) 2) && !p (b.roleP.extractLsb' (2 * j) 2))

/-- A bank leaving the scratchpad role holds what BANKSYNC refuses to move (R203); of a parked packet, the ranges that it writes. -/
def bankHeld (s : State) (c j : Nat) : Bool :=
  let k := s.core c
  let lo := j * 2 ^ 16
  let hi := lo + 2 ^ 16 - 1
  let meets := fun (a n : Nat) => decide (a ≤ hi) && decide (lo < a + n)
  !allFrom (fun t => tileOwner k.banks.owners t == 0) (16 * j) 16 ||
    (k.ring.cfg && meets k.ring.base.toNat (16 * 2 ^ k.ring.logn.toNat)) ||
    k.th.strm.cb.toList.any (fun b => decide (b.count ≠ 0) && meets b.base.toNat (b.count.toNat * b.slotBytes)) ||
    s.work.runs.any (fun q => decide (q.2.park ≠ .run) && spansMeet q.2.dspans c lo hi)

/-- Bytes key .. key + n - 1 are set to zero: they are no longer listed. -/
def Mem.clear (m : Mem) (key n : Nat) : Mem :=
  { m with bytes := m.bytes.filter (fun b => !(decide (key ≤ b.1) && decide (b.1 < key + n))),
           poison := m.poison.filter (fun k => !(decide (key ≤ k) && decide (k < key + n))) }

/-- A bank newly in the scratchpad role is zero and its tiles belong to the thread (R203). -/
def freshBank (c : Nat) : List Nat → State → State
  | [], s => s
  | j :: js, s =>
    let k := s.core c
    let s1 : State := { s with mem := s.mem.clear (spadKey c (j * 2 ^ 16)) (2 ^ 16) }
    freshBank c js (s1.setCore c { k with banks := { k.banks with owners := setOwners k.banks.owners 0 (16 * j) 16 } })

/-- The roles in force become the pending ones (R203). A load-block lies in no bank of its own: every block is dropped
where an operand-buffer bank leaves, and the dirty lines are written back where a cache bank does (which bank a block lies in the spec leaves open: DESIGN CHOICE, log
entry 97). -/
def applyRoles (s : State) (c : Nat) : State :=
  let k := s.core c
  let b := k.banks
  let spad := fun (r : BitVec 2) => decide (r = 0)
  let entering := (List.range 32).filter (fun j =>
    !spad (b.roleF.extractLsb' (2 * j) 2) && spad (b.roleP.extractLsb' (2 * j) 2))
  let blocks := if (leaving b (fun r => decide (r = 2))).isEmpty then b.blocks else []
  let fifo := if (leaving b (fun r => decide (r = 1))).isEmpty then b.fifo else []
  freshBank c entering (s.setCore c { k with banks := { b with roleF := b.roleP, blocks := blocks, fifo := fifo } })

/-- BANKSYNC (R203). -/
def execBanksync (rd : BitVec 5) (s : State) : Out :=
  let c := s.me
  match (s.th c).q.haltedQ with
  | some v => .next (takeQfault s c (qCode v) false)
  | none =>
    let b := (s.core c).banks
    if (leaving b (fun r => decide (r = 0))).any (bankHeld s c) then result s c rd rBaddesc
    else fenceWait s c fun s =>
      let old := (s.core c).banks.roleF
      result (applyRoles s c) c rd old

/-! ### TQRY -/

def Cls.code : Cls → BitVec 2
  | .dev => 0
  | .t2 => 1
  | .hostC => 2
  | .hostU => 3

/-- The word of Table 9-2. -/
def tqryWord (s : State) (c : Nat) (a : Word) : Word :=
  if 2 ^ 57 ≤ a.toNat then 0
  else if inWindow a.toNat then 0x8000000000000002
  else match translateOn s (s.ctxOf c) (dieOfCore c) a.toNat with
    | .ok l =>
      1#1 ++ BitVec.ofNat 3 l.home ++ BitVec.ofBool l.hint ++ 0#51 ++ BitVec.ofNat 2 l.size ++ l.cls.code ++
        BitVec.ofBool l.x ++ BitVec.ofBool l.w ++ 0#2
    | _ => 0

/-- TQRY (R200): a table line in the host's hands is taken back first (R276). -/
def execTqry (f : R2) (s : State) : Out :=
  guardD s [f.ra] fun s =>
    let c := s.me
    let a := ((s.th c).rdS f.ra).val
    match translateOn s (s.ctxOf c) (dieOfCore c) a.toNat with
    | .held l => if inWindow a.toNat then result s c f.rd (tqryWord s c a) else .next (sendSnoop s l)
    | _ => result s c f.rd (tqryWord s c a)

/-! ### MWAIT -/

/-- The end of an MWAIT (R228): the acquire at system scope and the value read. -/
def mwaitEnd (s : State) (c : Nat) (rd : BitVec 5) (v : Word) : Out :=
  result (acquireAll (unwait s c) c) c rd v

/-- A re-read by core c of an armed word (R325): the fault that its scratchpad place meets by now, as OWNER of a tile that is not the
thread's any more; an uncorrectable error; a word that differs from the value waited against; or nothing new. -/
def mwaitRead (s : State) (c : Nat) (va : Word) (key : Nat) (ref : Word) : Reread :=
  let v := BitVec.ofNat 64 (s.mem.readNat key 8)
  match (if inWindow va.toNat then checkAccess s (s.whoThread c) .part va 8 else .ok key none) with
  | .fault cause _ => .bad cause
  | _ => if s.mem.poisoned key 8 then .bad cEcc else if v = ref then .none else .value v

/-- A monitored word of the host: it is re-read only at the events of R325. -/
def hostWord (key : Nat) : Bool := decide (2 ^ 56 ≤ key) && decide (key < 2 ^ 57)

/-- A read of the word that has failed: the trap of a load (R228, R273, R304). -/
def mwaitTrap (s : State) (c : Nat) (cause : BitVec 8) (va : Word) : Out :=
  .next (takeTrap (clearHost (unwait s c) c) c cause va)

/-- What the strand's own move finds of an armed word: a re-read made before, the completion of a HOST-U read (R273), or,
outside host memory, the word itself. -/
def mwaitSees (s : State) (c : Nat) (va : Word) (key : Nat) (ref : Word) (hit : Reread) : Reread :=
  match hit, (s.th c).job.host with
  | .none, .answered _ _ ok => if ok then mwaitRead s c va key ref else .bad cPageFault
  | .none, .idle => if hostWord key then .none else mwaitRead s c va key ref
  | hit, _ => hit

/-- An answered request is spent. -/
def spendHost (s : State) (c : Nat) : State :=
  match (s.th c).job.host with
  | .answered _ _ _ => clearHost s c
  | _ => s

/-- MWAIT (R228, R325). A word outside host memory is re-read at every move of the strand, which no write performed
before it can escape; a host word at MWAIT_POLL, MWAIT_WAKE and CXL_CACHE_SNOOP. -/
def execMwait (f : R3) (s : State) : Out :=
  let c := s.me
  match (s.th c).job.wait with
  | .mwait va key ref u last hit =>
    match mwaitSees s c va key ref hit with
    | .value v => mwaitEnd (spendHost s c) c f.rd v
    | .bad cause => mwaitTrap s c cause va
    | .none => killPoint s c (fun s => .next (setWait (spendHost s c) c (.mwait va key ref u last .none)))
  | _ =>
    guardD s [f.ra, f.rb] fun s =>
      let t := s.th c
      let va := (t.rdS f.ra).val
      coreAccess s c .read false va 8 fun key cls s =>
        let ref := (t.rdS f.rb).val
        match mwaitRead s c va key ref with
        | .value v => mwaitEnd s c f.rd v
        | _ => .next (setWait s c (.mwait va key ref (cls == some .hostU) (gtimeOf s c) .none))

/-- A re-read of the word that core c monitors, made because of an event of R325. -/
def monitorRead (s : State) (c : Nat) (va : Word) (key : Nat) (ref : Word) (u : Bool) (last : Word) : State :=
  setWait s c (.mwait va key ref u last (mwaitRead s c va key ref))

/-- The non-posted read of a HOST-U word (R325): the request leaves; its completion ends it. -/
def monitorPoll (s : State) (c : Nat) (va : Word) (key : Nat) (ref now : Word) : State :=
  let t := s.th c
  s.setTh c { t with job := { t.job with wait := .mwait va key ref true now .none, host := .sent va 0 } }

end Sys2Proof.Machine
end

