-- ==== Sys2Proof/Machine/Queue.lean ====
section
/-! DEFINITION. Queues in memory (R26, R211-R213), and the instructions that claim their slots: LAUNCH (R46, R47) and
CPYQ (R212). -/
namespace Sys2Proof.Machine
open Sys2Proof

/-- The number of a die's nest queue. -/
def nestKey (die : Nat) : Nat := 65536 + die

/-- Slots a claim may hold (R46): 2^LOGCAP. -/
def QRec.cap (q : QRec) : Nat := 2 ^ q.logcap

/-- The slots between which a queue's storage turns over; a nest queue's storage is wider than its capacity, since its
nest slots lie beside it (R47). -/
def storeCap (qk : Nat) (q : QRec) : Nat := if 65536 ≤ qk then 65536 else q.cap

/-- The key of slot k (R211). -/
def qslotKey (qk : Nat) (q : QRec) (k : Nat) : Nat := q.base + 64 + 64 * (k % storeCap qk q)

/-- WIDX, RIDX, STATE, KSTOP and REFCNT of a header (Table 9-5). -/
def widxOf (s : State) (q : QRec) : Nat := s.mem.readNat q.base 8
def ridxOf (s : State) (q : QRec) : Nat := s.mem.readNat (q.base + 8) 8
def qstateOf (s : State) (q : QRec) : Nat := s.mem.readNat (q.base + 16) 1

/-- The die at which a queue's header and slots lie. -/
def QRec.atDie (q : QRec) : Nat := if q.base < 2 ^ 56 then 8 + lineHash q.base else q.die

/-- The die at which slot k lies. -/
def QRec.slotDie (q : QRec) (qk k : Nat) : Nat := if q.base < 2 ^ 56 then 8 + lineHash (qslotKey qk q k) else q.die

/-- Writes of die `src` to a queue's header and to slots of it leave with the causal stamp (R253). -/
def stampSlots (s : State) (src qk : Nat) (q : QRec) (ks : List Nat) : State :=
  (q.atDie :: ks.map (q.slotDie qk)).eraseDups.foldl (fun s d => sendStamp s src d) s

/-- The queue's die writes a header field of n bytes, with the causal stamp (R253). -/
def putHdr (s : State) (q : QRec) (off n v : Nat) : State :=
  sendStamp { s with mem := s.mem.setNat (q.base + off) n v } q.die q.atDie

/-- The tag of slot k. -/
def tagOf (s : State) (qk : Nat) (q : QRec) (k : Nat) : Nat := s.mem.readNat (qslotKey qk q k + 56) 8

/-- Every slot of the queue is claimed (R46). -/
def queueFull (s : State) (q : QRec) : Bool := decide (q.cap ≤ (widxOf s q + 2 ^ 64 - ridxOf s q) % 2 ^ 64)

/-- The line of the header or of slot k that the host holds, if any (R276). -/
def queueLine (s : State) (qk : Nat) (q : QRec) (k : Nat) : Option Nat :=
  match s.mem.heldLine q.base 64 with
  | some l => some l
  | none => s.mem.heldLine (qslotKey qk q k) 64

/-- Tiles return to the thread (R207). -/
def returnTiles (s : State) (c : Nat) (r : Option (Nat × Nat)) : State :=
  match r with
  | none => s
  | some (t, n) =>
    let k := s.core c
    s.setCore c { k with banks := { k.banks with owners := setOwners k.banks.owners 0 t n } }

/-- The claim, its bytes 0-55 and its tag (R46, R212): one step, the tag last. -/
def placeSlot (s : State) (qk : Nat) (q : QRec) (bytes : List Byte) (claim : Claim) : State :=
  let k := claim.slot
  let key := qslotKey qk q k
  let m := (s.mem.writeNat q.base 8 (k + 1)).writeBytes key (bytes.take 56)
  let s1 : State := { s with mem := m.writeNat (key + 56) 8 k }
  if q.stopped then s1 else s1.setQueue qk { q with claims := q.claims ++ [claim] }

/-- What the strand of core c leaves in a claim of slot k. -/
def claimOf (s : State) (c k : Nat) : Claim :=
  let j := (s.th c).job
  { slot := k, core := c, launch := j.launch, op := j.op, n := j.n, rect := j.rect, osc := j.osc }

/-- An access that a slot's tests have let through; a strand already parked or waiting at it is past those tests. -/
def slotRead (s : State) (c : Nat) (a : Word) (go : Nat → Option Cls → State → Out) : Out :=
  coreAccess s c .read true a 64 go

/-! ### LAUNCH -/

/-- The launch queue that a register names for a strand (R46): a number of the context's, or the nest queue of its
launch's lead die. -/
def launchQueue (s : State) (c : Nat) (v : Word) : Option (Nat × QRec) :=
  if v.toNat = 65536 then
    let qk := nestKey (s.launch (s.th c).job.launch).die
    (s.queue qk).map (fun q => (qk, q))
  else if v.toNat < 65536 then
    match s.queue v.toNat with
    | some q => if q.kind = .launch ∧ q.ctx = s.ctxOf c then some (v.toNat, q) else none
    | none => none
  else none

/-- The launch's nest slot is taken or given back (R47). -/
def setNest (s : State) (l : Nat) (b : Bool) : State := s.setLaunch l { s.launch l with nestBusy := b }

/-- LAUNCH (R46, R47): the tests of the queue, the packet's read under a release, the claim. -/
def execLaunch (f : R3) (s : State) : Out :=
  guardD s [f.ra, f.rb] fun s =>
    let c := s.me
    let t := s.th c
    let a := (t.rdS f.ra).val
    let l := t.job.launch
    if !aligned a 64 then .next (takeTrap s c cMisalign a)
    else match launchQueue s c (t.rdS f.rb).val with
      | none => result (clearHost s c) c f.rd rNoqueue
      | some (qk, q) =>
        let nest := queueFull s q
        if decide (t.job.park = .run) && nest && (decide (qk < 65536) || (s.launch l).nestBusy) then
          result (clearHost s c) c f.rd rBusy
        else
          let k := widxOf s q
          match queueLine s qk q k with
          | some line => .next (sendSnoop s line)
          | none =>
            slotRead s c a fun key _ s =>
              let s := stampSlots (drainFifo s c) (dieOfCore c) qk q [k]
              let s := placeSlot s qk q (s.mem.readBytes key 64) { claimOf s c k with nest := nest }
              let s := if nest then setNest s l true else s
              result (s.setTh c (clearRestart (s.th c))) c f.rd (BitVec.ofNat 64 k)

/-! ### CPYQ -/

/-- The Flume queue of the context that a register names (R212). -/
def flumeQueue (s : State) (c : Nat) (v : Word) : Option (Nat × QRec) :=
  if v.toNat < 65536 then
    match s.queue v.toNat with
    | some q => if q.kind = .flume ∧ q.ctx = s.ctxOf c then some (v.toNat, q) else none
    | none => none
  else none

/-- Every byte that a destination of an indexed layout may write lies in core c's own scratchpad. -/
def rangeOwn (s : State) (c : Nat) (base : Word) (y : Layout) : Bool :=
  let b := ({ base := base, lay := y } : Side).range
  let own := fun (a : Int) => decide (0 ≤ a) && decide (a < 2 ^ 64) && ownWindow s c (BitVec.ofInt 64 a)
  own b.1 && own b.2 && decide (b.1.toNat / 2 ^ 21 = b.2.toNat / 2 ^ 21)

/-- A packet whose destination lies in the own scratchpad, or that has none, keeps the restart bit (R42). Where the offsets of the
destination are indexed (R221), its whole range must lie there, so its layout is looked up, as the engine of die `die` would read
it; one that cannot be read at once clears the bit (DESIGN CHOICE, log entry 77). -/
def packetKeeps (s : State) (c die : Nat) (raw : BitVec 512) : Bool :=
  let p := wFPkt raw
  decide ((raw.extractLsb' 0 8).toNat = 4) || (!p.dh && ownWindow s c p.dst &&
    (!p.lp || p.dc || (match peekPair s (s.ctxOf c) die p.len with
      | some (_, y) => decide (y.kind ≠ 1) || rangeOwn s c p.dst y
      | none => false)))

/-- The number of the next FLCOLL of a core and group in a launch (R216). -/
def collNext (cs : List (Nat × Nat × Nat)) (c g : Nat) : Nat :=
  match cs.find? (fun x => x.1 == c && x.2.1 == g) with
  | some x => x.2.2
  | none => 0

/-- Counts an FLCOLL that a strand places in its launch. -/
def countColl (s : State) (l c g : Nat) : State :=
  let x := s.launch l
  let j := collNext x.colls c g
  s.setLaunch l { x with colls := (c, g, j + 1) :: x.colls.filter (fun y => !(y.1 == c && y.2.1 == g)) }

/-- The packet's claim: with the mark of OWNF.AUTO, and the number of an FLCOLL. -/
def packetClaim (s : State) (c k : Nat) (raw : BitVec 512) : Claim :=
  let x := claimOf s c k
  let seq := if (raw.extractLsb' 0 8).toNat = 5 then
      collNext (s.launch x.launch).colls c (nbits (wFPkt raw).aux.toNat 8 8)
    else 0
  { x with auto := (s.core c).banks.auto, seq := seq }

/-- The effects of a claimed packet on its strand (R42, R207): the mark is spent, the restart bit. A queue that has stopped
executes nothing: the return is made at once. -/
def packetPlaced (s : State) (c : Nat) (q : QRec) (raw : BitVec 512) (auto : Option (Nat × Nat)) : State :=
  let s := if (raw.extractLsb' 0 8).toNat = 5 then
      countColl s (s.th c).job.launch c (nbits (wFPkt raw).aux.toNat 8 8)
    else s
  let s := if q.stopped then returnTiles s c auto else s
  let core := s.core c
  let t := core.th
  let t := if packetKeeps s c q.die raw then t else clearRestart t
  s.setCore c { core with th := t, banks := { core.banks with auto := none } }

/-- CPYQ (R212). -/
def execCpyq (f : R3) (s : State) : Out :=
  guardD s [f.ra, f.rb] fun s =>
    let c := s.me
    let t := s.th c
    let a := (t.rdS f.ra).val
    if !aligned a 64 then .next (takeTrap s c cMisalign a)
    else match flumeQueue s c (t.rdS f.rb).val with
      | none => result (clearHost s c) c f.rd rNoqueue
      | some (qk, q) =>
        if decide (t.job.park = .run) && queueFull s q then result (clearHost s c) c f.rd rBusy
        else
          let k := widxOf s q
          match queueLine s qk q k with
          | some line => .next (sendSnoop s line)
          | none =>
            slotRead s c a fun key _ s =>
              let s := stampSlots (drainFifo s c) (dieOfCore c) qk q [k]
              let raw := BitVec.ofNat 512 (s.mem.readNat key 64)
              let claim := packetClaim s c k raw
              let s := placeSlot s qk q (s.mem.readBytes key 64) claim
              result (packetPlaced s c q raw claim.auto) c f.rd (BitVec.ofNat 64 k)

end Sys2Proof.Machine
end

