-- ==== Sys2Proof/Machine/Trap.lean ====
section
/-! DEFINITION. TRAP and TRET (R293-R295), and what firmware's handler at TVEC does (R135, R291). -/
namespace Sys2Proof.Machine
open Sys2Proof

/-- TRAP (R293): in K mode the trap 0x0E with TPC at the next instruction, after a pending QFAULT (R289, R305); in H
mode a double trap. -/
def execTrap (n : BitVec 8) (s : State) : Out :=
  let c := s.me
  let t := s.th c
  match t.pos.mode with
  | .h => .next (takeTrap s c cTrap (n.zeroExtend 64))
  | .k =>
    match t.q.haltedQ with
    | some v => .next (takeQfault s c (qCode v) false)
    | none =>
      if t.q.ringFault then .next (takeQfault s c 4 false)
      else .next (takeTrapAt s c (t.pos.follow 2) cTrap (n.zeroExtend 64) false)

/-! ### The return from a trap (R294) -/

/-- The queue that QFSTAT.Q names. -/
def vqOfCode (q : BitVec 3) : Option VQ :=
  match q.toNat with
  | 1 => some .vl
  | 2 => some .va
  | 3 => some .vs
  | _ => none

/-- The pops of the halted instruction are given back where it had taken them (R82). -/
def giveBack (t : Thread) (v : VQ) : Queues :=
  match (t.q.get v).held with
  | e :: _ => if e.popped then t.q.unpop v e.f.tok else t.q
  | [] => t.q

/-- Discard (R295): the halted instruction and every later one of its queue go, with no pops and no pushes. -/
def actDiscard (s : State) (c : Nat) (v : VQ) : State :=
  let k := s.core c
  let t := k.th
  let q := t.q.get v
  let depth := if v = .va then parkBack q.held k.banks.depth else k.banks.depth
  s.setCore c { k with th := { t with q := (giveBack t v).set v q.dropped }, banks := { k.banks with depth := depth } }

/-- Retry (R295): the halted instruction begins again, from its kept sources. -/
def actRetry (s : State) (c : Nat) (v : VQ) : State :=
  let t := s.th c
  s.setTh c { t with q := t.q.set v { t.q.get v with halted := false } }

/-- An instruction writes lr (R88): a vector result of VA. -/
def QEntry.writesLr (e : QEntry) : Bool := e.writesV.contains 56

/-- Skip (R295): the halted instruction counts as complete; lr takes the destination where it writes lr; the pops of
one that had begun are taken, its pushes are performed. -/
def actSkip (s : State) (c : Nat) (v : VQ) : State :=
  let s := actRetry s c v
  let t := s.th c
  match (t.q.get v).held with
  | [] => s
  | e :: _ =>
    let regs := if e.writesLr then { t.regs with lr := t.regs.rdV e.pa 0 } else t.regs
    let e := if t.q.canPop v e.f.tok then e else { e with popped := true }
    completeHead (s.setTh c { t with regs := regs }) c v e

/-- ACT on a queue (Table 13-3); 11 acts as 00. -/
def actQueue (s : State) (c : Nat) (v : VQ) (act : BitVec 2) : State :=
  match act.toNat with
  | 1 => actRetry s c v
  | 2 => actSkip s c v
  | _ => actDiscard s c v

/-- The semaphore that a skipped command raises (R295); none for 31. -/
def skipRaise (s : State) (c : Nat) : Option Nat :=
  let n := (wMCmd (ringRecord s c (s.core c).ring.rd.toNat)).raise.toNat
  if n = 31 then none else some n

/-- ACT on the ring (R295): retry begins the command again, discard and skip pass it, skip performs its RAISE. -/
def actRing (s : State) (c : Nat) (act : BitVec 2) : State :=
  let r := (s.core c).ring
  let pass := fun (s : State) => setRing s c { (s.core c).ring with rd := r.rd + 1 }
  match act.toNat with
  | 1 => s
  | 2 =>
    match skipRaise s c with
    | some n => pass (setSemOf s c n (semOf s c n + 1))
    | none => pass s
  | _ => pass s

/-- A skip of a command whose RAISE stands at 65,535 holds TRET until the count falls (R179). -/
def skipHeld (s : State) (c : Nat) (q : BitVec 3) : Bool :=
  decide (q = 4#3) && decide ((s.th c).trap.act = 2#2) &&
    (match skipRaise s c with
    | some n => decide (semOf s c n = 0xFFFF)
    | none => false)

/-- QFSTAT.ACT applied to the queue or ring that QFSTAT shows, if any, and QFSTAT cleared (R294, R295): the faults of other queues,
and a SUBN that is still to be taken, stay recorded (DEDUCED, log entry 57). -/
def applyAct (s : State) (c : Nat) (shown : Option QFault) : State :=
  let act := (s.th c).trap.act
  let s := match shown with
    | none => s
    | some f =>
      match vqOfCode f.q with
      | some v => actQueue s c v act
      | none => actRing s c act
  let t := s.th c
  s.setTh c { t with q := { t.q with faults := t.q.faults.filter (fun f => shown.all (fun g => f.q != g.q)) },
                     trap := { t.trap with act := 0, q := 0 } }

/-- The position of TPC in its block (R290, R294): at a block header where BOFF lies in no pass; past the last parcel of a
pass, the next pass or the parcel after the block (R85). -/
def tpcPos (r : TrapRegs) : Pos :=
  let pc := r.tpc.zeroExtend 64
  if r.boff.toNat < 2 then { mode := .k, pc := pc, hdr := pc, atHdr := true }
  else ({ mode := .k, pc := pc, hdr := pc - 2 * r.boff.zeroExtend 64, len := r.tlen, rpt := r.rptl, atHdr := false,
          passStart := r.tpass } : Pos).advance 0

/-- The instruction a trap in a wait left routed is still held (R294). -/
def stillRouted (t : Thread) : Option VWait :=
  if t.trap.routed then
    match t.trap.vw with
    | some w => if t.q.va.held.any (fun e => e.idx == w.idx) then some w else none
    | none => none
  else none

/-- ASSIST.CNT rises by one, saturating (R136). -/
def countAssist (r : Csrs) : Csrs :=
  if r.assistCnt = 0xFFFFFFFF#32 then r else { r with assistCnt := r.assistCnt + 1 }

/-- Where a strand resumes after TRET (R294); `q` is QFSTAT.Q before it was cleared. -/
def resumeThread (t : Thread) (q : BitVec 3) : Thread :=
  let r := t.trap
  let t := if r.cause = cSubn then { t with csr := countAssist t.csr } else t
  let p := tpcPos r
  let t := { t with trap := { r with vw := none } }
  if r.moved then { t with pos := ({ p with fw := false } : Pos).branch (r.tpc.zeroExtend 64) }
  else if r.cause = cSubn ∧ q = 0#3 then { t with pos := p.advance 2 }
  else match stillRouted { t with trap := r } with
    | some w => { t with pos := p, job := { t.job with wait := .vwait w } }
    | none => { t with pos := p }

/-- QFSTAT.Q. -/
def Thread.qfstatQ (t : Thread) : BitVec 3 := (t.shown.map (fun f => f.q)).getD 0

/-- The effect of TRET in H mode of a trap of the strand (R294). -/
def tret (s : State) (c : Nat) : State :=
  let q := (s.th c).qfstatQ
  let s := applyAct s c (s.th c).shown
  s.setTh c (resumeThread (s.th c) q)

/-- TRET (R294): ILLEGAL in K mode and in a dispatched handler. -/
def execTret (s : State) : Out :=
  let c := s.me
  let t := s.th c
  if t.pos.mode = .k ∨ t.trap.kind = 1#2 then illegal s .tret
  else if skipHeld s c t.qfstatQ then .next s
  else .next (tret s c)

/-! ### Firmware's handler (R291) -/

/-- The result of a scalar operation with gradual underflow, its destination and its D bit (R135). -/
def scalarAssist (t : Thread) : Instr → Option (BitVec 5 × FRes × Bool)
  | .fadd f rm => some (two f (fpAdd (Rm.ofBits rm)))
  | .fsub f rm => some (two f (fpSub (Rm.ofBits rm)))
  | .fmul f rm => some (two f (fpMul (Rm.ofBits rm)))
  | .fdiv f rm => some (two f (fpDiv (Rm.ofBits rm)))
  | .fsqrt f rm => some (f.rd, fpSqrt (Rm.ofBits rm) (fpBits (t.rdS f.ra).val), (t.rdS f.ra).d)
  | .fma f rm =>
    some (f.rd, fpFma (Rm.ofBits rm) (fpBits (t.rdS f.ra).val) (fpBits (t.rdS f.rb).val) (fpBits (t.rdS f.rd).val),
      (t.rdS f.ra).d || (t.rdS f.rb).d || (t.rdS f.rd).d)
  | _ => none
where
  two (f : R3) (g : Nat → Nat → FRes) : BitVec 5 × FRes × Bool :=
    (f.rd, g (fpBits (t.rdS f.ra).val) (fpBits (t.rdS f.rb).val), (t.rdS f.ra).d || (t.rdS f.rb).d)

/-- The assist of a scalar instruction (R135): rd and the flags are written, then TRET. -/
def assistScalar (s : State) (c : Nat) (i : Instr) : State :=
  let t := s.th c
  match scalarAssist t i with
  | some (rd, r, d) =>
    let x := fpAssist r
    tret (s.setTh c ((t.merge x.2).wrS rd (BitVec.ofNat 64 x.1) d)) c
  | none => tret s c

/-- The destination and flags of the assist, then TRET with ACT = skip; lr takes the result, which is the
destination's bytes but where the destination is vz (R88, R135). -/
def assistWrite (s : State) (c : Nat) (e : QEntry) (x : VCell) (fl : Flags) : State :=
  let t := s.th c
  let t := { t with regs := t.regs.wrV e.pa x, csr := t.csr.merge fl, trap := { t.trap with act := 2 } }
  let s := tret (s.setTh c t) c
  let t := s.th c
  s.setTh c { t with regs := { t.regs with lr := x } }

/-- The assist of the vector instruction that VA holds (R135), from its kept sources. -/
def assistVector (s : State) (c : Nat) : State :=
  match (s.th c).q.va.held with
  | e :: _ =>
    match assistVal e (srcsOf s c e) with
    | some (r, d) => assistWrite s c e { val := BitVec.ofNat 2048 r.val, d := d } r.flags
    | none => tret s c
  | [] => tret s c

/-- FHE of the strand's launch: the strand continues there in H mode, or, where FHE is 0, its launch is cancelled and
the strand ends at once (R291). -/
def firmwareFhe (s : State) (c : Nat) : State :=
  let t := s.th c
  let fhe := (s.launch t.job.launch).pkt.fhe
  if fhe = 0 ∧ (s.core c).sending = true then s
  else if fhe = 0 then failLaunch (endStrand s c) t.job.launch
  else s.setTh c { t with pos := { t.pos with pc := fhe, atHdr := true, passStart := false, fw := false } }

end Sys2Proof.Machine
end

