-- ==== Sys2Proof/Machine/Save.lean ====
section
/-! DEFINITION. Safe points (R296), live maps and save frames (R297, R298), lend frames (R49), and restoring them
(R299). -/
namespace Sys2Proof.Machine
open Sys2Proof

/-! ### Live maps -/

/-- The map that names everything (YIELD, CWAIT). -/
def mapAll : LiveMap :=
  { s := BitVec.allOnes 32, v := BitVec.allOnes 48, o := 255, p := BitVec.allOnes 24, park := true, cq := 255 }

/-- The number under which a save at YIELD records its map; SAFEPT's maps are 0-255. -/
def yieldMap : Nat := 256

/-- Live map n of the image that holds the code at an address, as the loader supplied it (R296); one that it did not supply
names everything (DESIGN CHOICE, log entry 60). -/
def liveMap (s : State) (ctx pc n : Nat) : LiveMap :=
  match s.lives.find? (fun x => x.ctx == ctx && x.n == n && decide (x.lo ≤ pc) && decide (pc < x.hi)) with
  | some x => x.map
  | none => mapAll

/-- The physical vector registers v0-v47 that a map names under ROT (R297). -/
def LiveMap.vPhys (m : LiveMap) (vb : BitVec 5) : List Nat :=
  (List.range 48).filter (fun j => (List.range 48).any (fun n => m.v.getLsbD n && (mapV vb (BitVec.ofNat 6 n)).toNat == j))

/-- The physical predicates that a map names under ROT. -/
def LiveMap.pPhys (m : LiveMap) (pb : BitVec 4) : List Nat :=
  (List.range 24).filter (fun j => (List.range 24).any (fun n => m.p.getLsbD n && (mapP pb (BitVec.ofNat 5 n)).toNat == j))

/-! ### Park slots and conditional streams as vector items -/

/-- Park slot j of core c with its D bit. -/
def parkSlot (s : State) (c j : Nat) : VCell :=
  let b := (s.core c).banks
  { val := BitVec.ofNat 2048 (unparkWords b.ptiles (quadPos c) j (s.array (arrayOf c)).tiles 64 0), d := b.parkD.getLsbD j }

/-- The park stack of core c, slot 0 first. -/
def parkStack (s : State) (c : Nat) : List VCell := (List.range (s.core c).banks.depth.toNat).map (parkSlot s c)

/-- Writes park slots from slot j on. -/
def putPark (s : State) (c : Nat) : Nat → List VCell → State
  | _, [] => s
  | j, x :: xs =>
    let k := s.core c
    let a := s.array (arrayOf c)
    let m := parkWords k.banks.ptiles (quadPos c) j 64 0 x.val.toNat a.tiles
    let bit : BitVec 512 := 1#512 <<< j
    let d := if x.d then k.banks.parkD ||| bit else k.banks.parkD &&& ~~~bit
    putPark ((s.setArray (arrayOf c) { a with tiles := m }).setCore c { k with banks := { k.banks with parkD := d } })
      c (j + 1) xs

/-! ### The save frame (Table 13-4) -/

/-- A field of a save frame: offset, bytes, value. -/
abbrev SaveField := Nat × Nat × Nat

/-- Bytes of the descriptor that a stream register holds (Table 7-3). -/
def streamNat (x : Stream) : Nat :=
  let w : BitVec 512 := x.posr ++ x.posc ++ x.ssbase ++ x.ssstr ++ x.sstr ++ x.sbase ++ x.rstr ++ x.ext1 ++ x.ext0 ++
    x.ext3 ++ x.ext2 ++ 0#24 ++ x.kind ++ BitVec.ofBool x.baxis ++ x.fmt ++ 0#7 ++ x.base
  w.toNat

/-- Bytes of the descriptor that a circular buffer holds (Table 7-2). -/
def cbufNat (x : CBuf) : Nat :=
  let w : BitVec 256 := 0#64 ++ x.wr ++ x.rd ++ x.filled ++ x.free ++ 0#31 ++ BitVec.ofBool x.mode ++ 0#12 ++ x.ssz ++ 0#7 ++
    x.count ++ 0#43 ++ x.base
  w.toNat

/-- n fields of w bytes each from an offset. -/
def saveRow (off w n : Nat) (val : Nat → Nat) : List SaveField := (List.range n).map (fun j => (off + w * j, w, val j))

def bitsNat (n : Nat) (p : Nat → Bool) : Nat := (List.range n).foldl (fun acc j => acc + (if p j then 2 ^ j else 0)) 0

/-- The mark of OWNF.AUTO as Table 13-4 places it. -/
def autoWord (a : Option (Nat × Nat)) : Nat :=
  match a with
  | none => 0
  | some (t, n) => 2 ^ 63 + t * 2 ^ 32 + n

/-- The header page of a save frame: `p` is the resume point. -/
def frameFields (s : State) (c : Nat) (map : Nat) (m : LiveMap) (p : Pos) : List SaveField :=
  let k := s.core c
  let t := k.th
  let vs := m.vPhys t.csr.vb
  let ps := m.pPhys t.csr.pb
  let boff := if p.atHdr then 0 else ((p.pc - p.hdr) >>> 1).toNat
  let st := t.strm
  let sN := fun (j : Nat) => if m.s.getLsbD (j + 1) then (t.rdS (BitVec.ofNat 5 (j + 1))) else {}
  let vN := fun (j : Nat) => if vs.contains j then t.regs.v.toList.getD j {} else {}
  let oN := fun (j : Nat) => if m.o.getLsbD j then t.regs.o.toList.getD j {} else {}
  let pN := fun (j : Nat) => if ps.contains j then t.regs.rdP (BitVec.ofNat 5 j) else {}
  let dbits := bitsNat 31 (fun j => (sN j).d) * 2 + bitsNat 48 (fun j => (vN j).d) * 2 ^ 32 +
    bitsNat 8 (fun j => (oN j).d) * 2 ^ 80 + bitsNat 24 (fun j => (pN j).d) * 2 ^ 88
  let words := [(rotWord t.csr).toNat, t.csr.trips.toNat, t.csr.drain.toNat, t.csr.vmode.toNat,
    (assistWord t.csr).toNat, t.csr.fstat.toNat, (qstatWord t).toNat, (parkstWord k.banks).toNat]
  [(0x000, 8, map * 2 ^ 32 + 1), (0x008, 8, p.pc.toNat),
    (0x010, 8, (if p.atHdr then 0 else p.rpt.toNat) * 2 ^ 53 + boff)] ++
  saveRow 0x018 8 8 (fun j => words.getD j 0) ++
  saveRow 0x058 2 32 (fun j => (st.semAt j).toNat) ++
  [(0x098, 8, (ringWord k.ring).toNat), (0x0A0, 8, k.ring.rd.toNat), (0x0A8, 8, k.ring.wr.toNat)] ++
  saveRow 0x0B0 8 31 (fun j => (sN j).val.toNat) ++
  [(0x1A8, 24, dbits)] ++
  saveRow 0x1C0 32 24 (fun j => (pN j).val.toNat) ++
  saveRow 0x4C0 64 16 (fun j => streamNat (st.stAt j)) ++
  saveRow 0x8C0 32 16 (fun j => cbufNat (st.cbAt j)) ++
  [(0xAC0, 12, (List.range 8).foldl (fun acc j => acc +
      (if m.cq.getLsbD j then (st.cq.toList.getD j []).length else 0) * 2 ^ (12 * j)) 0),
    (0xACC, 1, t.q.la.toNat), (0xACD, 1, t.q.al.toNat), (0xACE, 1, t.q.ts.toNat), (0xACF, 1, t.q.sa.toNat),
    (0xAD0, 8, k.banks.roleF.toNat), (0xAD8, 128, k.banks.owners.toNat)] ++
  saveRow 0xB58 4 64 (fun j => (t.regs.k.toList.getD j 0).toNat) ++
  [(0xC58, 8, (leaseWord k.lease).toNat), (0xC60, 8, autoWord k.banks.auto), (0xC68, 920, 0)]

/-- The header page of a core unbound at the tile-step boundary (R299): VALID = 0, BANKROLE and the owner bits. -/
def bareFields (b : Banks) : List SaveField :=
  [(0x000, 8, 0), (0xAD0, 8, b.roleF.toNat), (0xAD8, 128, b.owners.toNat)]

/-- The vector items a map names, each with its 256-byte slots (R298): v, o, cq, then the park stack. -/
def vectorItems (s : State) (c : Nat) (m : LiveMap) : List Nat :=
  let t := s.th c
  (m.vPhys t.csr.vb).map (fun j => (t.regs.v.toList.getD j {}).val.toNat) ++
    ((List.range 8).filter (fun j => m.o.getLsbD j)).map (fun j => (t.regs.o.toList.getD j {}).val.toNat) ++
    (((List.range 8).filter (fun j => m.cq.getLsbD j)).map (fun j =>
      let x := leNat (t.strm.cq.toList.getD j [])
      (List.range 4).map (fun i => x / 2 ^ (2048 * i) % 2 ^ 2048))).flatten ++
    (if m.park then (parkStack s c).map (fun x => x.val.toNat) else [])

/-- The slots of the banks outside the scratchpad role, as offsets of the frame (R298). -/
def frameSlots (role : BitVec 64) : List Nat :=
  (((List.range 32).filter (fun j => !bankIsSpad role j)).map (fun j =>
    (List.range 256).map (fun i => 0x1000 + 0x10000 * j + 256 * i))).flatten

/-- The base of a core's frame in its launch's save area (R298). -/
def frameBase (s : State) (l c : Nat) : Nat :=
  let x := s.launch l
  let xy := coreXY (s.ctx x.ctx).vdmap c
  let m := (xy.2 - rectY x.pkt.rect) * 2 ^ rectLW x.pkt.rect + (xy.1 - rectX x.pkt.rect)
  x.pkt.savea.toNat + m * 0x201000

/-- The key of a byte of a save frame, if its page is there and may be written: the hardware walks the tables for it. -/
def frameKey (s : State) (ctx va : Nat) : Option Nat :=
  match checkVirtual s { ctx := ctx, die := 18, core := none, rect := 0, owner := none } .write va 1 with
  | .ok key _ => some key
  | _ => none

/-- A line of a frame that the host holds (R276). -/
def frameHeld (s : State) (ctx base : Nat) : Option Nat :=
  if s.mem.held.isEmpty then none
  else (List.range 513).findSome? (fun j =>
    match checkVirtual s { ctx := ctx, die := 18, core := none, rect := 0, owner := none } .write (base + 4096 * j) 4096 with
    | .held line => some line
    | _ => none)

/-- Every page of a frame is there. -/
def frameThere (s : State) (ctx base : Nat) : Bool := allFrom (fun j => (frameKey s ctx (base + 4096 * j)).isSome) 0 513

/-- The homes of the lines of a frame (R269, R270): the die that a page names, or, where it names none, every memory die; for host
memory the I/O die of the home port. -/
def frameDies (s : State) (ctx base : Nat) : List Nat :=
  ((List.range 513).flatMap (fun j => match translate s.mem (s.ctx ctx).ptroot (base + 4096 * j) with
    | .ok l => if l.hint || l.cls == .hostC || l.cls == .hostU then [homeOf s ctx l] else (List.range 8).map (fun h => 8 + h)
    | _ => [])).eraseDups

/-- The lines of a frame leave die `die` with the causal stamp (R253). -/
def stampFrame (s : State) (die ctx base : Nat) : State := (frameDies s ctx base).foldl (fun s d => sendStamp s die d) s

/-- Writes fields of a frame where their pages are there. -/
def putFields (s : State) (ctx base : Nat) : List SaveField → State
  | [] => s
  | (off, n, v) :: fs =>
    let s := match frameKey s ctx (base + off) with
      | some key => { s with mem := s.mem.writeNat key n v }
      | none => s
    putFields s ctx base fs

/-- n bytes from a key are written as zeros; the fixed bytes of a queue header ignore it (R3). -/
def Mem.blank (m : Mem) (key n : Nat) : Mem :=
  let gone := fun (k : Nat) => decide (key ≤ k) && decide (k < key + n) && !m.fixed k
  { m with bytes := m.bytes.filter (fun b => !gone b.1), poison := m.poison.filter (fun k => !gone k) }

/-- Copies n bytes of memory from one key to another; an uncorrectable error comes with its byte (R304). -/
def Mem.copy (m : Mem) (src dst n : Nat) : Mem :=
  let bad := (m.poison.filter (fun k => decide (src ≤ k) && decide (k < src + n))).map (fun k => k - src + dst)
  let m := (m.bytes.filter (fun b => decide (src ≤ b.1) && decide (b.1 < src + n))).foldl
    (fun m b => m.writeByte (b.1 - src + dst) b.2) (m.blank dst n)
  { m with poison := bad ++ m.poison }

/-- Copies the scratchpad-role banks of a core to or from its frame, page by page. -/
def bankPages (s : State) (c ctx base : Nat) (role : BitVec 64) (save : Bool) : State :=
  (List.range 512).foldl (fun s j =>
    if bankIsSpad role (j / 16) then
      match frameKey s ctx (base + 0x1000 + 4096 * j) with
      | some key =>
        if save then { s with mem := s.mem.copy (spadKey c (4096 * j)) key 4096 }
        else { s with mem := s.mem.copy key (spadKey c (4096 * j)) 4096 }
      | none => s
    else s) s

/-! ### Stopping -/

/-- A core of a pre-empted launch is unbound; its launch is pre-empted once no core is bound to it (R45). -/
def unbindPre (s : State) (l c : Nat) : State :=
  let k := s.core c
  let s := s.setCore c { k with bind := { k.bind with bound := none, preempt := none, fallback := false } }
  if s.cores.any (fun x => x.2.bind.bound == some l) then s
  else s.setLaunch l { s.launch l with st := .preempted, shares := [] }

/-- Some lending by or to launch l is in force (R45, R49): until the child's cores have gone back. -/
def lendingOf (s : State) (l : Nat) : Bool := s.work.launches.any (fun x => x.2.lent && (x.1 == l || x.2.parent == some l))

/-- Launch l is being pre-empted, and no lending holds that up (R45, R305). -/
def preempting (s : State) (l : Nat) : Bool := (s.launch l).st == .preempting && !lendingOf s l

/-- Every strand of launch l, which is being pre-empted, has stopped or ended (R45: step 1 is done launch-wide before steps 2 and 3;
DEDUCED, log entry 100). -/
def allStopped (s : State) (l : Nat) : Bool :=
  preempting s l && s.cores.all (fun x => x.2.bind.bound != some l || x.2.th.job.run == .idle || x.2.th.job.run == .stopped)

/-- An uncorrectable error lies in the banks a save reads (R304, R305). -/
def bankEcc (s : State) (c : Nat) (role : BitVec 64) : Bool :=
  (List.range 32).any (fun j => bankIsSpad role j && s.mem.poisoned (spadKey c (j * 2 ^ 16)) (2 ^ 16))

/-- An uncorrectable error lies in the banks, or in a register or park slot that the save reads (R304, R305). -/
def saveEcc (s : State) (c : Nat) (role : BitVec 64) (m : LiveMap) : Bool :=
  let t := s.th c
  bankEcc s c role ||
    (List.range 31).any (fun j => m.s.getLsbD (j + 1) && (t.rdS (BitVec.ofNat 5 (j + 1))).ecc) ||
    (m.vPhys t.csr.vb).any (fun j => (t.regs.v.toList.getD j {}).ecc) ||
    (List.range 8).any (fun j => m.o.getLsbD j && (t.regs.o.toList.getD j {}).ecc) ||
    (m.pPhys t.csr.pb).any (fun j => (t.regs.rdP (BitVec.ofNat 5 j)).ecc) ||
    t.marks.any (fun x => x.1 != 4 || m.cq.getLsbD x.2) ||
    (m.park && (List.range (s.core c).banks.depth.toNat).any (slotBad s c))

/-- A suspended strand of a cancelled scope is discarded (R50): its step counts as ended. -/
def dropSuspended (s : State) (t : Job) : State :=
  match smFind t.op s.work.ops with
  | none => s
  | some o => { s with work := { s.work with ops := smPut t.op { o with left := o.left - 1 } s.work.ops } }

/-- What a save or a lending keeps of the strand of core c: nothing where its scope is cancelled on the die, since the suspended
strand is then discarded at once (R50, R61; DEDUCED, log entry 73). -/
def keepStrand (s : State) (c : Nat) (keep : State → State) : State :=
  if (killedStrand s c).isSome then dropSuspended s (s.th c).job else keep s

/-- A suspended strand takes its circular buffers with it: the core has none until they come back, so a DC packet that fills one
meets no buffer meanwhile and stamps FAULT (R165, R168; DESIGN CHOICE, log entry 90). -/
def Core.unbuffer (k : Core) : Core :=
  { k with th := { k.th with strm := { k.th.strm with cb := Vector.replicate 16 {} } } }

/-- The save of the strand of core c at resume point p (R296-R298), its dirty lines written back and its load-blocks dropped,
and its core unbound; an uncorrectable error meanwhile leaves VALID 0 and the launch stamps FAULT (R305). PARKST.DEPTH is then 0 and
PTILES stays (DESIGN CHOICE, log entry 75). -/
def saveStrand (s : State) (c map : Nat) (p : Pos) : State :=
  let t := s.th c
  let l := t.job.launch
  let ctx := (s.launch l).ctx
  let base := frameBase s l c
  let m := liveMap s ctx t.pos.pc.toNat map
  let b := (s.core c).banks
  let ecc := saveEcc s c b.roleF m
  let items := (frameSlots b.roleF).zip (vectorItems s c m)
  let keep : SavedStrand := { core := c, job := { t.job with run := .run, code := .idle }, parkD := b.parkD, len := p.len }
  let fields := items.map (fun x => (x.1, 256, x.2)) ++ frameFields s c map m p
  let s := bankPages (stampFrame s (dieOfCore c) ctx base) c ctx base b.roleF true
  let s := putFields s ctx base (if ecc then fields ++ [(0x000, 1, 0)] else fields)
  let x := s.launch l
  let s := keepStrand s c (fun s => s.setLaunch l { x with saved := keep :: x.saved })
  let s := if ecc then failLaunch s l else s
  let k := (s.core c).vacate.unbuffer
  unbindPre (s.setCore c { k with banks := { k.banks with blocks := [], depth := 0, fifo := [] } }) l c

/-- Asks the host for a line on behalf of the event that will need it (R276). -/
def snoopFor (s : State) (i : Instr) (line : Nat) : State :=
  { sendSnoop { s with agent := .event i } line with agent := s.agent }

/-- A core of a pre-empted launch without a strand to save (R299): its banks, BANKROLE and owners, with VALID = 0; an
uncorrectable error meanwhile stamps FAULT (R305). While the host holds a line of the frame the save waits (R276), for
PREEMPT_FALLBACK. -/
def saveBare (s : State) (l c : Nat) : State :=
  let ctx := (s.launch l).ctx
  let base := frameBase s l c
  let b := (s.core c).banks
  let ecc := bankEcc s c b.roleF
  match frameHeld s ctx base with
  | some line => snoopFor s (.preemptFallback c) line
  | none =>
    let s := stampFrame (drainFifo (s.unowe (.event (.preemptFallback c))) c) (dieOfCore c) ctx base
    let s := putFields (bankPages s c ctx base b.roleF true) ctx base (bareFields b)
    unbindPre (if ecc then failLaunch s l else s) l c

/-- Once every strand of a launch that is being pre-empted has stopped, its cores without a strand are saved and unbound (R45, R299).
-/
def settlePre (s : State) (l : Nat) : State :=
  if allStopped s l then
    ((s.cores.filter (fun x => x.2.bind.bound == some l && x.2.th.job.run == .idle)).map (fun x => x.1)).foldl
      (fun s c => saveBare s l c) s
  else s

/-- A stopped strand of a cancelled scope is discarded as a saved one is (R50). -/
def discardStopped (s : State) (c : Nat) : State :=
  let t := s.th c
  settlePre ((dropSuspended s t.job).setCore c (s.core c).vacate) t.job.launch

/-- The named vector items fit, and the whole frame can be written (R298). -/
def saveFits (s : State) (c map : Nat) : Bool :=
  let l := (s.th c).job.launch
  let ctx := (s.launch l).ctx
  decide ((vectorItems s c (liveMap s ctx (s.th c).pos.pc.toNat map)).length ≤ (frameSlots (s.core c).banks.roleF).length) &&
    frameThere s ctx (frameBase s l c)

/-- The strand of core c is suspended into a lend frame for a child launch (R49), to resume at position p; one of a cancelled scope
is discarded (R50). PARKST keeps DEPTH and PTILES for the child to find (DESIGN CHOICE, log entry 75). -/
def lendStrand (s : State) (c child : Nat) (p : Pos) : State :=
  let k := s.core c
  let b := k.banks
  let bare := k.unbuffer.th
  let t := { k.th with pos := p, regs := { k.th.regs with lr := {} }, job := { k.th.job with code := .idle } }
  let f : LendFrame := {
    child := child, th := t, ring := k.ring, mpad := k.lease.mpad, leaseRun := k.lease.run,
    roleP := b.roleP, roleF := b.roleF, owners := b.owners, auto := b.auto, ptiles := b.ptiles, park := parkStack s c,
    preempt := k.bind.preempt, fallback := k.bind.fallback }
  let job := { k.th.job with run := .idle, wait := .none }
  let th := { bare with job := job, q := { k.th.q with faults := [] } }
  let banks := { b with auto := none, blocks := [] }
  let gone := (killedStrand s c).isSome
  let bind := { k.bind with frames := if gone then k.bind.frames else f :: k.bind.frames, preempt := none, fallback := false }
  (discardLines (if gone then dropSuspended s k.th.job else s) c (fun _ => true)).setCore c
    { k with th := th, ring := { k.ring with rd := k.ring.wr, holds := [] }, banks := banks, bind := bind, ahead := [], loop := none }

/-- The strand of core c has stopped at a safe point for a pre-emption, its frame fitting (R45): it stands there until every strand of
its launch has stopped, and is then saved and its core unbound. -/
def stopAt (s : State) (c map : Nat) : State :=
  let t := s.th c
  let l := t.job.launch
  let s := s.setTh c { t with job := { t.job with run := .stopped } }
  if !allStopped s l then s
  else match frameHeld s (s.launch l).ctx (frameBase s l c) with
    | some line => sendSnoop s line
    | none => settlePre (saveStrand s c map (t.pos.advance 2)) l

/-- A safe point with something pending (R296): the queues empty, the array completes its command and begins no other,
then the strand stops: into a lend frame, for its save frame where its map fits, or not at all. -/
def safePoint (s : State) (c map : Nat) (go : State → Out) : Out :=
  let t := s.th c
  if t.q.busy then heldBy s c [.vl, .va, .vs] false
  else if ringBusy s c then .next (s.setTh c { t with job := { t.job with run := .stopping } })
  else
    match (s.core c).bind.lendTo with
    | some child => .next (lendStrand s c child (t.pos.advance 2))
    | none => if saveFits s c map then .next (stopAt s c map) else go s

/-- The time after which a pre-emption falls back to the tile-step boundary (R299), in ns of the die's GTIME. -/
def preemptWait : Nat := 256000

/-- A pre-emption or a lending is pending for the strand of core c, and its safe points are still taken: those of a pre-emption while no
lending is in force, within 256 µs of its request (R45, R296, R299, R305); a strand that has stopped by then stays so. -/
def stopPending (s : State) (c : Nat) : Bool :=
  let k := s.core c
  let b := k.bind
  b.lendTo.isSome || (preempting s k.th.job.launch && (k.th.job.run == .stopped ||
    b.preempt.any (fun since => !b.fallback && decide ((gtimeOf s c - since).toNat < preemptWait))))

/-- A strand that waited at a safe point waits no more: its ring may go on (R296). -/
def goOn (s : State) (c : Nat) : State :=
  let t := s.th c
  if t.job.run = .stopping ∨ t.job.run = .stopped then s.setTh c { t with job := { t.job with run := .run } } else s

/-- SAFEPT and YIELD (R296): `map` names the registers. -/
def safeInstr (s : State) (map : Nat) : Out :=
  let c := s.me
  let pending := stopPending s c
  let gone := (s.th c).job.run = .stopped ∧ (killedStrand s c).isSome
  if gone then .next (discardStopped s c)
  else
  let s := goOn s c
  let t := s.th c
  let pass := fun (s : State) => Host.Outcome.next (s.advance c 2)
  match t.pos.mode with
  | .h => pass s
  | .k =>
    match t.q.haltedQ with
    | some v => .next (takeQfault s c (qCode v) false)
    | none =>
      if t.q.ringFault then .next (takeQfault s c 4 false)
      else if !pending then pass s
      else safePoint s c map pass

/-- SAFEPT (R296). -/
def execSafept (n : BitVec 8) (s : State) : Out := safeInstr s n.toNat

/-- YIELD (R43): a kill point, then a safe point whose map names everything. -/
def execYield (s : State) : Out := killPoint s s.me fun s => safeInstr s yieldMap

/-! ### Resuming -/

/-- n bytes of a frame as a number; 0 where the page is not there. -/
def getField (s : State) (ctx base off n : Nat) : Nat :=
  match frameKey s ctx (base + off) with
  | some key => s.mem.readNat key n
  | none => 0

/-- Items of 256 bytes from their slots, as (which, value) pairs, and the slots left. -/
def takeItems (s : State) (ctx base : Nat) : List Nat → List Nat → List (Nat × Nat) × List Nat
  | [], slots => ([], slots)
  | _ :: _, [] => ([], [])
  | j :: js, o :: slots =>
    let r := takeItems s ctx base js slots
    ((j, getField s ctx base o 256) :: r.1, r.2)

def itemOf (xs : List (Nat × Nat)) (j : Nat) : Nat :=
  match xs.find? (fun x => x.1 == j) with
  | some x => x.2
  | none => 0

/-- The registers of a frame (R297): what the map does not name is zero with D clear; lr is zero (R88). -/
def frameRegs (s : State) (ctx base : Nat) (v o : List (Nat × Nat)) : Regs :=
  let g := getField s ctx base
  let d := g 0x1A8 24
  { s := Vector.ofFn (fun (j : Fin 32) => if j.val = 0 then {} else
      { val := BitVec.ofNat 64 (g (0x0B0 + 8 * (j.val - 1)) 8), d := nbits d j.val 1 == 1 }),
    v := Vector.ofFn (fun (j : Fin 48) => { val := BitVec.ofNat 2048 (itemOf v j.val), d := nbits d (32 + j.val) 1 == 1 }),
    o := Vector.ofFn (fun (j : Fin 8) => { val := BitVec.ofNat 2048 (itemOf o j.val), d := nbits d (80 + j.val) 1 == 1 }),
    lr := {},
    p := Vector.ofFn (fun (j : Fin 24) => { val := BitVec.ofNat 256 (g (0x1C0 + 32 * j.val) 32), d := nbits d (88 + j.val) 1 == 1 }),
    k := Vector.ofFn (fun (j : Fin 64) => BitVec.ofNat 32 (g (0xB58 + 4 * j.val) 4)) }

/-- The control registers of a frame, each cut to its fields: VMODE takes the frame's word as a write takes it, over `vmode`
(R3, R97; DEDUCED, log entry 74). -/
def frameCsrs (s : State) (ctx base : Nat) (vmode : Word) : Csrs :=
  let g := getField s ctx base
  { vmode := vmodeWrite vmode (BitVec.ofNat 64 (g 0x030 8)) 31, vb := BitVec.ofNat 5 (g 0x018 1), pb := BitVec.ofNat 4 (g 0x019 1),
    trips := BitVec.ofNat 64 (g 0x020 8), drain := BitVec.ofNat 64 (g 0x028 8),
    assistCnt := BitVec.ofNat 32 (nbits (g 0x038 8) 8 32), ftz := g 0x038 1 % 2 == 1, fstat := BitVec.ofNat 5 (g 0x040 1),
    slipL := BitVec.ofNat 4 (g 0x048 1), slipA := BitVec.ofNat 4 (g 0x048 1 / 16), slipS := BitVec.ofNat 4 (g 0x049 1) }

/-- Streams, circular buffers, conditional streams and semaphores of a frame. The counts of SBAL, for which Table 13-4 has no
field, start again at 0 (DESIGN CHOICE, log entry 66). -/
def frameStreams (s : State) (ctx base : Nat) (inst : Nat → Nat) (cq : List (Nat × Nat)) : Streams :=
  let g := getField s ctx base
  { st := Vector.ofFn (fun (j : Fin 16) => streamOf (g (0x4C0 + 64 * j.val) 64)),
    cb := Vector.ofFn (fun (j : Fin 16) => cbufOf (g (0x8C0 + 32 * j.val) 32) (inst j.val)),
    cq := Vector.ofFn (fun (j : Fin 8) =>
      let x := itemOf cq (4 * j.val) + 2 ^ 2048 * (itemOf cq (4 * j.val + 1) + 2 ^ 2048 * (itemOf cq (4 * j.val + 2) +
        2 ^ 2048 * itemOf cq (4 * j.val + 3)))
      leBytes (nbits (g 0xAC0 12) (12 * j.val) 12) x),
    sem := Vector.ofFn (fun (j : Fin 32) => BitVec.ofNat 16 (g (0x058 + 2 * j.val) 2)) }

/-- The resume point of a frame: at a block header where BOFF lies in no pass. -/
def framePos (s : State) (ctx base : Nat) (len : BitVec 10) : Pos :=
  let w := getField s ctx base 0x010 8
  let pc := BitVec.ofNat 64 (getField s ctx base 0x008 8)
  let boff := w % 1024
  if boff < 2 then { pc := pc, hdr := pc, atHdr := true }
  else { pc := pc, hdr := pc - BitVec.ofNat 64 (2 * boff), len := len, rpt := BitVec.ofNat 11 (w / 2 ^ 53), atHdr := false,
         passStart := boff == 2 }

/-- BANKROLE, the owners and the banks of a frame come back to core c (R299). -/
def restoreBanks (s : State) (c ctx base : Nat) : State :=
  let role := BitVec.ofNat 64 (getField s ctx base 0xAD0 8)
  let owners := BitVec.ofNat 1024 (getField s ctx base 0xAD8 128)
  let s := bankPages s c ctx base role false
  let k := s.core c
  s.setCore c { k with banks := { k.banks with roleP := role, roleF := role, owners := owners, blocks := [], fifo := [] } }

/-- The strand of a frame with VALID = 1 runs again (R43, R297, R299). Its circular buffers are installed anew (DESIGN CHOICE, log
entry 90). -/
def restoreStrand (s : State) (c ctx base : Nat) (x : SavedStrand) : State :=
  let g := getField s ctx base
  let m := liveMap s ctx (g 0x008 8 - 4) (g 0x004 4)
  let csr := frameCsrs s ctx base (s.th c).csr.vmode
  let parkst := g 0x050 8
  let role := BitVec.ofNat 64 (g 0xAD0 8)
  let v := takeItems s ctx base (m.vPhys csr.vb) (frameSlots role)
  let o := takeItems s ctx base ((List.range 8).filter (fun j => m.o.getLsbD j)) v.2
  let cq := takeItems s ctx base ((List.range 32).filter (fun j => m.cq.getLsbD (j / 4))) o.2
  let pk := takeItems s ctx base (List.range (if m.park then parkst % 1024 else 0)) cq.2
  let k := s.core c
  let first := s.fresh + 1
  let s : State := { s with fresh := s.fresh + 16 }
  let t : Thread := {
    regs := frameRegs s ctx base v.1 o.1
    strm := frameStreams s ctx base (fun j => first + j) cq.1
    csr := csr
    pos := framePos s ctx base x.len
    q := { la := BitVec.ofNat 4 (g 0xACC 1), al := BitVec.ofNat 4 (g 0xACD 1), ts := BitVec.ofNat 4 (g 0xACE 1),
           sa := BitVec.ofNat 4 (g 0xACF 1) }
    job := x.job }
  let rw := g 0x098 8
  let auto := g 0xC60 8
  let lw := g 0xC58 8
  let k := { k with
    th := t,
    ring := { cfg := decide (rw ≠ 0), base := BitVec.ofNat 21 rw, logn := BitVec.ofNat 4 (rw / 2 ^ 24),
              rd := BitVec.ofNat 64 (g 0x0A0 8), wr := BitVec.ofNat 64 (g 0x0A8 8) },
    lease := { k.lease with mpad := BitVec.ofNat 32 (lw / 2 ^ 32), run := BitVec.ofNat 7 lw, charge := 0, last := 0 },
    banks := { k.banks with ptiles := BitVec.ofNat 2 (parkst / 2 ^ 32), depth := BitVec.ofNat 10 parkst, parkD := x.parkD,
                            auto := if auto / 2 ^ 63 = 1 then some (nbits auto 32 9, auto % 1024) else none } }
  putPark ((discardLines s c (fun _ => true)).setCore c { k with ahead := [], loop := none }) c 0
    (pk.1.map (fun y => { val := BitVec.ofNat 2048 y.2, d := x.parkD.getLsbD y.1 }))

/-- The vector items that the frame of a saved strand holds. -/
def savedItems (s : State) (ctx base : Nat) : Nat :=
  let g := getField s ctx base
  let m := liveMap s ctx (g 0x008 8 - 4) (g 0x004 4)
  (m.vPhys (BitVec.ofNat 5 (g 0x018 1))).length + bitsSet 8 m.o.toNat + 4 * bitsSet 8 m.cq.toNat +
    (if m.park then g 0x050 8 % 1024 else 0)
where
  bitsSet (n v : Nat) : Nat := ((List.range n).filter (fun j => v.testBit j)).length

/-- An uncorrectable error lies in what a restore reads of a frame (R304): the header, the banks in the scratchpad role, and
the vector items of a saved strand. -/
def frameEcc (s : State) (ctx base : Nat) (strand : Bool) : Bool :=
  let bad := fun (off n : Nat) => (frameKey s ctx (base + off)).any (fun k => s.mem.poisoned k n)
  let role := BitVec.ofNat 64 (getField s ctx base 0xAD0 8)
  !s.mem.poison.isEmpty && (bad 0 0xC68 ||
    (List.range 512).any (fun j => bankIsSpad role (j / 16) && bad (0x1000 + 4096 * j) 4096) ||
    (strand && ((frameSlots role).take (savedItems s ctx base)).any (fun o => bad o 256)))

/-- Core c, bound again to launch l (R299): its banks come back, and its strand where its frame says VALID. The sequencer that
reads an uncorrectable error there cancels the launch, which stamps FAULT; the strand does not resume (R304). -/
def restoreCore (s : State) (l c : Nat) : State :=
  let x := s.launch l
  let base := frameBase s l c
  let mine := x.saved.find? (fun y => y.core == c)
  let valid := mine.isSome && getField s x.ctx base 0x000 1 % 2 == 1
  if frameEcc s x.ctx base valid then failLaunch (restoreBanks s c x.ctx base) l
  else
    let s := restoreBanks s c x.ctx base
    match mine with
    | none => s
    | some y =>
      let s := s.setLaunch l { x with saved := x.saved.filter (fun z => z.core != c) }
      if valid then restoreStrand s c x.ctx base y else s

/-- The strand that a child's lend frame keeps resumes (R49), with the pre-emption that waited (R305): the scratchpad stays as
the child left it. -/
def returnStrand (s : State) (c : Nat) (f : LendFrame) : State :=
  let s := discardLines s c (fun _ => true)
  let k := s.core c
  let s := s.setCore c { k with
    th := { f.th with job := { f.th.job with run := .run } },
    ring := f.ring,
    lease := { k.lease with mpad := f.mpad, run := f.leaseRun, charge := 0, last := 0 },
    banks := { k.banks with roleP := f.roleP, roleF := f.roleF, owners := f.owners, auto := f.auto, ptiles := f.ptiles,
                            depth := BitVec.ofNat 10 f.park.length, blocks := [] },
    bind := { k.bind with frames := k.bind.frames.tail, preempt := f.preempt, fallback := f.fallback },
    ahead := [], loop := none }
  putPark s c 0 f.park

end Sys2Proof.Machine
end

