-- ==== Sys2Proof/Machine/Task.lean ====
section
/-! DEFINITION. Block headers (R84, R85), the end of a step (R41, R333), and waiting for a child launch (R49). -/
namespace Sys2Proof.Machine
open Sys2Proof

/-- BLK (R84, R85): only as a block header; a LEN below 2 is ILLEGAL. A block of the header alone goes straight on. -/
def execBlk (len : BitVec 10) (rpt : BitVec 11) (s : State) : Out :=
  let c := s.me
  let t := s.th c
  let p := t.pos
  if !p.atHdr then illegal s (.blk len rpt)
  else killPoint s c fun s =>
    if len.toNat < 2 then illegal s (.blk len rpt)
    else if len = 2#10 then .next (s.setTh c { t with pos := { p with pc := p.pc + 4 } })
    else
      let p := { p with hdr := p.pc, pc := p.pc + 4, len := len, rpt := rpt, atHdr := false, passStart := true }
      .next (s.setTh c { t with pos := p })

/-! ### TASKEND -/

/-- No cancellation has marked a scope: it is LIVE, or the driver has freed it or a scope above it (R53). -/
def uncancelled (s : State) (n : BitVec 16) : Bool :=
  let st := (s.scope n.toNat).st
  st == .live || st == .free

/-- The launch walks, or waits while it is pre-empted. -/
def walking (x : Launch) : Bool := x.st == .running || x.st == .preempting || x.st == .preempted

/-- What awaited the handler goes on, unless the launch's scope (R35, R243), or a frame's recipe scope (R242), has been
cancelled. -/
def restartSrc (s : State) (l : Nat) (src : HSrc) : State :=
  let x := s.launch l
  match src with
  | .walker =>
    if walking x && uncancelled s x.pkt.scope then s.setLaunch l { x with walk := .run } else s
  | .frame f =>
    match smFind f s.weir.frames with
    | some y =>
      if uncancelled s y.scope then { s with weir := { s.weir with frames := smPut f { y with walk := .run } s.weir.frames } } else s
    | none => s
  | .req r =>
    match smFind r s.weir.reqs with
    | some y =>
      if walking x && uncancelled s x.pkt.scope then { s with weir := { s.weir with reqs := smPut r { y with st := .pending } s.weir.reqs } } else s
    | none => s

/-- A strand on core c of the step that a claim names. -/
def Claim.sameStep (x : Claim) (c : Nat) (j : Job) : Bool := x.core == c && x.launch == j.launch && x.op == j.op && x.n == j.n

/-- A packet that the step of core c placed is still to stamp (R41): its claim stands. -/
def packetsOpen (s : State) (c : Nat) : Bool :=
  s.work.queues.any (fun q => q.2.kind == .flume && q.2.claims.any (fun x => x.sameStep c (s.th c).job))

/-- The matrix commands of the ending step are done, or will never start since its scope is cancelled (R41, R333). -/
def commandsDone (s : State) (c : Nat) : Bool :=
  (ringExec s c).isNone &&
    (decide ((s.core c).ring.rd = (s.core c).ring.wr) ||
      (cancelledOn s (dieOfCore c) (s.th c).job.osc).isSome)

/-- The step of core c has ended: with the last strand of a launch that is being pre-empted, its cores are unbound (R45, R299). -/
def finishStep (s : State) (c : Nat) : State := settlePre (endStrand s c) (s.th c).job.launch

/-- TASKEND (R41, R333): QFAULT of a halted queue or the ring, then its waits, a release at package scope, and the report;
in H mode of a dispatched handler the handler ends (R35). -/
def execTaskend (s : State) : Out :=
  let c := s.me
  ringPoint s fun s => taskWait s c fun s =>
    let t := s.th c
    if !commandsDone s c || packetsOpen s c then .next s
    else
      let s := drainFifo s c
      let x := s.launch t.job.launch
      let s := match x.handlers with
        | h :: _ => if t.trap.kind = 1#2 then restartSrc s t.job.launch h.src else s
        | [] => s
      .next (finishStep s c)

/-! ### CWAIT -/

/-- The parked child of launch l whose STAMP is at an address. -/
def parkedChild (s : State) (l : Nat) (a : Word) : Option Nat :=
  (s.launch l).parked.find? (fun j => (s.launch j).pkt.stamp == a)

/-- The physical cores of a rectangle in a context. -/
def rectCores (vdmap : BitVec 32) (r : BitVec 15) : List Nat :=
  let w := 2 ^ rectLW r
  (List.range (w * 2 ^ rectLH r)).filterMap (fun j => coreAt vdmap (rectX r + j % w) (rectY r + j / w))

/-- The cores of a launch. -/
def launchCores (s : State) (l : Nat) : List Nat :=
  let x := s.launch l
  rectCores (s.ctx x.ctx).vdmap x.pkt.rect

/-- The lending begins (R49): the child waits to be bound, and its cores are to be lent. Where one of them is not bound to the
parent, or is to be lent to another child, it waits until that lending is over. -/
def beginLend (s : State) (child : Nat) : State :=
  let x := s.launch child
  let p := x.parent.getD 0
  let y := s.launch p
  if !(launchCores s child).all (fun c => (s.core c).bind.bound == some p && (s.core c).bind.lendTo.isNone) then s
  else
  let s := s.setLaunch child { x with st := .binding, lent := true }
  let s := s.setLaunch p { y with parked := y.parked.filter (fun j => j != child) }
  (launchCores s child).foldl (fun s c =>
    let k := s.core c
    s.setCore c { k with bind := { k.bind with lendTo := some child } }) s

/-- CWAIT suspends its own strand where its core is to be lent (R49): it resumes at the CWAIT. In H mode, where safe points are nothing
(R296), it never does, and the child does not bind meanwhile (DESIGN CHOICE, log entry 82). No QFAULT is taken there for a pending ring fault, which
the lend frame keeps (R189; DESIGN CHOICE, log entry 93). -/
def cwaitLent (s : State) (c child : Nat) : Out :=
  let t := s.th c
  if t.pos.mode = .h then .next s
  else if t.q.busy then awaitQueues s c [.vl, .va, .vs] false
  else if ringBusy s c then .next (s.setTh c { t with job := { t.job with run := .stopping } })
  else .next (lendStrand s c child t.pos)

/-- CWAIT finds no status yet: the parked child it names is lent its cores, and where this core is to be lent the
strand is suspended (R49). -/
def cwaitWait (s : State) (c : Nat) (a : Word) : Out :=
  killPoint s c fun s =>
    let s := match parkedChild s (s.th c).job.launch a with
      | some child => beginLend s child
      | none => s
    match (s.core c).bind.lendTo with
    | some child => cwaitLent s c child
    | none => .next (goOn s c)

/-- CWAIT (R49): the status byte with an acquire at system scope. -/
def execCwait (f : R2) (s : State) : Out :=
  guardD s [f.ra] fun s =>
    let c := s.me
    let a := ((s.th c).rdS f.ra).val
    if !aligned a 8 then .next (takeTrap (clearHost s c) c cMisalign a)
    else coreAccess s c .read false a 1 fun key _ s =>
      let v := (s.mem.readByte key).zeroExtend 64
      if v = 0 then cwaitWait s c a else result (acquireAll (goOn s c) c) c f.rd v

end Sys2Proof.Machine
end

