-- ==== Sys2Proof/Machine/Fetch.lean ====
section
/-! DEFINITION. Fetching an instruction of a strand (R84, R85, R100, R112, R123, R124), and firmware's handler as one
move (R291). -/
namespace Sys2Proof.Machine
open Sys2Proof

/-- What fetching comes to: an instruction to execute, or a move that fetching itself makes. -/
inductive Fetched where
  | instr (i : Instr)
  | move (s : State)
  deriving DecidableEq, Repr

/-- A parcel at an address, or why it cannot be read. -/
inductive Parcel where
  | ok (w : Nat)
  | fault (cause : BitVec 8) (va : Word)
  | absent (va : Word)
  | held (line : Nat)
  | ask (va : Word)
  deriving DecidableEq, Repr

/-- Reads one parcel: from the line the core holds, if it holds it, else from memory (R123, R124, R199, R205, R276, R304); a line
of HOST-U must be requested from the host (R273). -/
def readParcel (s : State) (c : Nat) (a : Word) : Parcel :=
  match heldLineAt s c (a.toNat / 128) with
  | some x =>
    match x.bad with
    | some cause => .fault cause a
    | none => .ok ((x.data.getD (a.toNat % 128) 0).toNat + 256 * (x.data.getD (a.toNat % 128 + 1) 0).toNat)
  | none => match checkAccess s (s.whoThread c) .fetch a 2 with
  | .ok key cls => if cls = some .hostU then .ask a else .ok (s.mem.readNat key 2)
  | .fault cause va => .fault cause va
  | .absent va => .absent va
  | .held line => .held line

/-- n parcels from an address on, the first lowest; the first that cannot be read decides. -/
def readParcels (s : State) (c : Nat) : Nat → Word → Parcel
  | 0, _ => .ok 0
  | n + 1, a =>
    match readParcel s c a with
    | .ok w =>
      match readParcels s c n (a + 2) with
      | .ok v => .ok (w + 65536 * v)
      | r => r
    | r => r

/-- The parcels of the instruction at an address: it, and its literal word where it has one. -/
def readInstr (s : State) (c : Nat) (a : Word) : Parcel :=
  match readParcel s c a with
  | .ok w =>
    if w % 2 = 0 then .ok w
    else match readParcels s c 2 a with
      | .ok v => if wordParcels (BitVec.ofNat 32 v) = 4 then readParcels s c 4 a else .ok v
      | r => r
  | r => r

/-! ### Loop buffers (R85) -/

/-- The header of the block at position p, and the place of p in that block, in parcels. -/
def blockAt (p : Pos) : Word := if p.atHdr then p.pc else p.hdr
def parcelAt (p : Pos) : Nat := ((p.pc - blockAt p) >>> 1).toNat

/-- The parcels that the loop buffers hold for position p of a block they have recorded (R85). -/
def replayed (s : State) (c : Nat) (p : Pos) : Option Nat :=
  (s.core c).loop.bind (fun b =>
    if b.hdr = blockAt p then (b.recs.find? (fun r => r.at_ == parcelAt p)).map (fun r => r.w) else none)

/-- The parcels of the header or instruction at position p: replayed where the loop buffers hold them, fetched otherwise. -/
def fetchWord (s : State) (c : Nat) (p : Pos) : Parcel :=
  match replayed s c p with
  | some w => .ok w
  | none => if p.atHdr then readParcels s c 2 p.pc else readInstr s c p.pc

/-- Parcels of an instruction as `fetchWord` gives it. -/
def parcelsOf (w : Nat) : Nat := if w % 2 = 0 then 1 else wordParcels (BitVec.ofNat 32 w)

/-- A share fits its loop buffer: 256 parcels of the control core, the header's among them, or 64 instructions of a queue. -/
def shareFits (recs : List LoopRec) (q : Option VQ) : Bool :=
  let mine := recs.filter (fun r => r.share == q)
  match q with
  | none => decide (mine.foldl (fun n r => n + parcelsOf r.w) 0 ≤ 256)
  | some _ => decide (mine.length ≤ 64)

/-- Instruction i at the strand's position joins the share of its queue or of the control core, unless that share does not fit or
ISYNC has ended the recording; the buffers turn to a block whose header is another (R85; DESIGN CHOICE where R85 is silent, log
entry 99). -/
def recordLoop (s : State) (c : Nat) (i : Instr) : State :=
  let p := (s.th c).pos
  let q := (vspec i).map (fun x => x.1.queue)
  let b : LoopBuf := match (s.core c).loop with
    | some b => if b.hdr = blockAt p then b else { hdr := blockAt p }
    | none => { hdr := blockAt p }
  match fetchWord s c p with
  | .ok w =>
    if (replayed s c p).isSome || b.last || b.missed.contains q then s
    else
      let recs := { at_ := parcelAt p, w := w, share := q } :: b.recs
      let b := if shareFits recs q then { b with recs := recs }
        else { b with recs := b.recs.filter (fun r => r.share != q), missed := q :: b.missed }
      s.setCore c { s.core c with loop := some b }
  | _ => s

/-- The test of a block header (R123). -/
def isHeader (w : Nat) : Bool := decide (w % 2 = 1) && decide (nbits w 30 2 = 3) && decide (nbits w 24 6 = 0x3F)

/-- BADTARGET at position p (R123, R290). -/
def badTarget (s : State) (c : Nat) (p : Pos) : State := takeTrapAt s c p cBadTarget p.pc false

/-- Core c no longer holds the line of an address, whose error is reported. -/
def spendLine (s : State) (c : Nat) (a : Word) : State :=
  let k := s.core c
  if k.ahead.isEmpty then s else s.setCore c { k with ahead := k.ahead.filter (fun x => x.line != a.toNat / 128) }

/-- The host has answered the request for a line of code (R273): the core holds the line, or PAGEFAULT as what its fetch met, which
the execution of an instruction of the line reports (R124). -/
def codeAnswer (s : State) (c : Nat) (va : Word) (ok : Bool) : State :=
  let t := s.th c
  let s := s.setTh c { t with job := { t.job with code := .idle } }
  let line := va.toNat / 128
  if ok then fetchAhead s c line true
  else if (heldLineAt s c line).isSome then s
  else s.setCore c { s.core c with
    ahead := { line := line, data := [], bad := some cPageFault, last := false } :: (s.core c).ahead }

/-- A fetch that fails: a precise trap, a park, a line to take back, or a request (R124, R226, R273, R276). -/
def fetchFail (s : State) (c : Nat) (r : Parcel) : State :=
  match r with
  | .ok _ => s
  | .fault cause va => takeTrap (spendLine s c va) c cause va
  | .absent va => parkStrand s c va .fetch
  | .held line => sendSnoop s line
  | .ask va => askCode s c va

/-- Parcels of an instruction whose literal word may lie past the block. -/
def pastBlock (p : Pos) (w : Nat) : Bool :=
  decide (p.len.toNat < ((p.pc - p.hdr) >>> 1).toNat + wordParcels (BitVec.ofNat 32 w))

/-- ILLEGAL with the encoding (R112). -/
def illegalWord (s : State) (c w : Nat) : State := takeTrap s c cIllegal (BitVec.ofNat 64 (w % 2 ^ 32))

/-- The instruction at the strand's position (R84, R100, R112, R123). Where it passes the block's end, a fault or a park at the parcels
beyond comes before its ILLEGAL (DESIGN CHOICE, log entry 83). -/
def fetchInstr (s : State) (c : Nat) : Fetched :=
  let p := (s.th c).pos
  if p.pc.getLsbD 0 then .move (badTarget s c p)
  else if p.atHdr then
    match fetchWord s c p with
    | .ok w =>
      if !isHeader w then .move (badTarget s c p)
      else match decodeTollum (BitVec.ofNat 32 w) 0 with
        | some i => .instr i
        | none => .move (illegalWord s c w)
    | r => .move (fetchFail s c r)
  else
    match fetchWord s c p with
    | .ok w =>
      if pastBlock p w then .move (illegalWord s c w)
      else match decodeTollum (BitVec.ofNat 32 w) (BitVec.ofNat 32 (w / 2 ^ 32)) with
        | some i => .instr i
        | none => .move (illegalWord s c w)
    | r => .move (fetchFail s c r)

/-- The position of the instruction that trapped. -/
def trapPos (t : Thread) : Pos :=
  let pc : Word := t.trap.tpc.zeroExtend 64
  { pc := pc, hdr := pc - 2 * t.trap.boff.zeroExtend 64, atHdr := t.trap.boff = 0 }

/-- Firmware's handler at TVEC as one move (R291): the SUBN assist, or the continuation at FHE. The assist for a scalar instruction
reads it again; it parks where the page is not present now (R226), and one that cannot read it traps in H mode (R292). -/
def firmwareMove (s : State) (c : Nat) : State :=
  let t := s.th c
  if t.trap.cause = cSubn then
    if t.trap.q = 2 then assistVector s c
    else
      let bad := fun (cause : BitVec 8) => if (s.core c).sending then s else doubleTrap s c cause (t.trap.tpc.zeroExtend 64)
      match t.job.park, fetchWord s c (trapPos t) with
      | .bad _, _ => bad cPageFault
      | _, .ok w =>
        match decodeTollum (BitVec.ofNat 32 w) (BitVec.ofNat 32 (w / 2 ^ 32)) with
        | some i => assistScalar s c i
        | none => bad cIllegal
      | _, .held line => sendSnoop s line
      | _, .ask va => askCode s c va
      | _, .absent va => parkStrand s c va .fetch
      | _, .fault cause _ => bad cause
  else firmwareFhe s c

/-- A new instruction begins: nothing of the one at the strand's position has been done. -/
def freshPoint (t : Thread) : Bool :=
  decide (t.job.wait = .none) && decide (t.job.park = .run) && decide (t.job.host = .idle)

/-- The tests before an instruction begins: the kill point of a block header or of a pass (R60, R85), and SUBN of the
vector unit in K mode (R135). -/
def beforeInstr (s : State) (c : Nat) : Option State :=
  let t := s.th c
  if !freshPoint t then none
  else
    match (if t.pos.atHdr || t.pos.passStart then killedStrand s c else none) with
    | some ticket => some (killAt s c ticket)
    | none => if t.q.subn && t.pos.mode == .k then some (takeSubn s c false) else none

/-- What ISYNC left for the rest of a pass is gone once the pass is (R125). -/
def passEnded (s : State) (c : Nat) : State :=
  let s := discardLines s c (fun x => x.last)
  if (s.core c).loop.any (fun b => b.last) then s.setCore c { s.core c with loop := none } else s

/-- A pass's test is done once; at a header or a pass what ISYNC left for the pass before is gone (R125). -/
def passTested (s : State) (c : Nat) : State :=
  let t := s.th c
  let s := if t.pos.atHdr || t.pos.passStart then passEnded s c else s
  s.setTh c { t with pos := { t.pos with passStart := false } }

/-- The fault of a fetch that its verdict made unresolvable (R199, R283). -/
def badFetch (t : Thread) : Option Word :=
  match t.job.park with
  | .bad va => if (va - t.pos.pc).toNat < 8 then some va else none
  | _ => none

/-- The scalar registers that an instruction of the control core reads. -/
def scalarSrcs : Instr → List (BitVec 5)
  | .add f | .sub f | .and f | .or f | .xor f | .sll f | .srl f | .sra f | .slt f | .sltu f | .min f | .max f | .minu f
  | .maxu f | .mul f | .mulh f | .mulhu f | .div f | .divu f | .rem f | .remu f | .fmin f | .fmax f | .feq f | .flt f
  | .fle f | .sems f | .bari f | .mcmd f | .cpyq f | .ownfAuto f _ | .mwait f | .toksend f | .hops f | .hopsMd f
  | .launch f => [f.ra, f.rb]
  | .fshr f _ | .ownf f _ | .fadd f _ | .fsub f _ | .fmul f _ | .fdiv f _ | .afadd f _ => [f.ra, f.rb]
  | .fma f _ => [f.rd, f.ra, f.rb]
  | .acas f _ _ => [f.rd, f.ra, f.rb]
  | .aadd f _ _ | .aswp f _ _ | .aand f _ _ | .aor f _ _ | .axor f _ _ | .amin f _ _ | .amax f _ _ | .aminu f _ _
  | .amaxu f _ _ => [f.ra, f.rb]
  | .addi f | .andi f | .ori f | .xori f | .slti f | .sltiu f | .ldb f | .ldbu f | .ldh f | .ldhu f | .ldw f | .ldwu f
  | .ldd f | .jalr f => [f.ra]
  | .stb f | .sth f | .stw f | .std f => [f.rd, f.ra]
  | .slli f _ | .srli f _ | .srai f _ => [f.ra]
  | .clz f | .ctz f | .popc f | .fabs f | .fneg f | .semw f | .bariClr f | .bar f | .mringCfg f | .mringPost f | .kld f
  | .tokwait f | .timewait f | .vdie f | .cwait f | .scopenew f | .cancel f | .scopewait f | .tqry f => [f.ra]
  | .vmode f _ | .csrw f _ | .csrs f _ | .csrc f _ | .ldaq f _ | .fsqrt f _ | .fcvtws f _ | .fcvtus f _ | .fcvtsw f _
  | .fcvtsu f _ => [f.ra]
  | .stcfg f _ | .cbcfg f _ => [f.ra]
  | .beq f | .bne f | .blt f | .bge f | .bltu f | .bgeu f => [f.ra, f.rb]
  | .strl ra rb _ | .cAdd ra rb | .cSub ra rb | .cStd ra rb _ => [ra, rb]
  | .cMv _ rb | .cLdd _ rb _ => [rb]
  | .cAddi ra _ | .cSlli ra _ => [ra]
  | _ => []

/-- An instruction that reads a register with an uncorrectable error (R304): ECC_UNCORR with TVAL 0 (Table 13-1). -/
def eccInstr (s : State) (c : Nat) (i : Instr) : Bool :=
  (scalarSrcs i).any (fun n => ((s.th c).rdS n).ecc)

/-- A cause that R289 ranks before the registers': ILLEGAL, or a pending QFAULT. -/
def earlierCause (s : State) (c : Nat) (i : Instr) : Bool :=
  let q := (s.th c).q
  let halted := fun (vs : List VQ) => (blocker s c vs).isSome
  match i with
  | .csrw _ n | .csrs _ n | .csrc _ n => csrBad s c n.toNat || halted (csrQueues q n.toNat)
  | .stcfg _ n => halted (q.holding (QEntry.namesStream n.toNat))
  | .cbcfg _ n => halted (q.holding (QEntry.namesBuf n.toNat))
  | .mcmd _ | .mringCfg _ | .mringPost _ => q.ringFault
  | _ => false

/-- The instruction, or the trap of a register it cannot read; one already waiting has read its registers. -/
def eccGate (s : State) (c : Nat) (x : Fetched) : Fetched :=
  match x with
  | .instr i => if freshPoint (s.th c) && eccInstr s c i && !earlierCause s c i then .move (takeTrap s c cEcc 0) else x
  | _ => x

/-- The move of a strand: what it does itself, or the instruction it executes in which state. A wait of firmware's assist is no kill
point (R135). -/
def strandMove (s : State) (c : Nat) : Fetched × State :=
  let t := s.th c
  match t.job.run, t.job.park with
  | .idle, _ => (.move s, s)
  | _, .wait _ =>
    match (if t.pos.fw then none else killedStrand s c) with
    | some ticket => (.move (killAt s c ticket), s)
    | none => (.move s, s)
  | _, _ =>
    match t.job.code with
    | .answered va _ ok => (.move (codeAnswer s c va ok), s)
    | _ =>
    if t.pos.fw then (.move (firmwareMove s c), s)
    else match badFetch t, beforeInstr s c with
      | some va, _ => (.move (takeTrap (clearHost s c) c cPageFault va), s)
      | none, some s' => (.move s', s)
      | none, none =>
        let s := passTested s c
        match fetchInstr s c with
        | .instr i => (eccGate s c (.instr i), recordLoop s c i)
        | r => (r, s)

end Sys2Proof.Machine
end

