-- ==== Sys2Proof/Machine/LoadStore.lean ====
section
/-! DEFINITION. Scalar loads and stores and their short forms (R102, R322, R332), and KLD (R320). -/
namespace Sys2Proof.Machine
open Sys2Proof

/-- The value of a w-byte load, extended (Table 15-1). -/
def extend (w : Nat) (signed : Bool) (v : Nat) : Word :=
  let x := BitVec.ofNat (8 * w) v
  if signed then x.signExtend 64 else x.zeroExtend 64

/-- A scalar load of n parcels (R322). -/
def loadAt (n : Nat) (rd ra : BitVec 5) (off : Word) (w : Nat) (signed : Bool) (s : State) : Out :=
  guardD s [ra] fun s =>
    let c := s.me
    let a := ((s.th c).rdS ra).val + off
    coreAccess s c .read false a w fun key _ s =>
      .next (s.setTh c (((s.th c).wrS rd (extend w signed (s.mem.readNat key w)) false).advance n))

/-- A scalar store of n parcels (R332). -/
def storeAt (n : Nat) (rd ra : BitVec 5) (off : Word) (w : Nat) (s : State) : Out :=
  guardD s [rd, ra] fun s =>
    let c := s.me
    let t := s.th c
    let a := (t.rdS ra).val + off
    coreAccess s c .write false a w fun key cls s =>
      .next ((storeOut s c a key cls (leBytes w ((t.rdS rd).val.toNat))).advance c n)

/-- The deferred result of LDS: 0 with D set (R92, R322). -/
def deferLoad (rd : BitVec 5) (s : State) : Out :=
  let c := s.me
  let s := clearHost s c
  .next (s.setTh c (((s.th c).wrS rd 0 true).advance 2))

/-- LDS (R322): every fault, a page not present, a D bit on the base and an uncorrectable error in it give 0 with D set. -/
def loadSpec (rd ra : BitVec 5) (off : Word) (s : State) : Out :=
  let c := s.me
  let b := (s.th c).rdS ra
  if b.d || b.ecc then deferLoad rd s
  else match coreCheck s c .read false (b.val + off) 8 with
    | .fault _ _ => deferLoad rd s
    | .absent _ => deferLoad rd s
    | .wait s => .next s
    | .behind => accessWait s c false (b.val + off) 8
    | .ok key _ s => .next (s.setTh c (((s.th c).wrS rd (extend 8 false (s.mem.readNat key 8)) false).advance 2))

def off13 (i : BitVec 13) : Word := i.signExtend 64
/-- The offset 8j of C.LDD and C.STD (Table 5-2). -/
def off8 (j : BitVec 2) : Word := BitVec.ofNat 64 (8 * j.toNat)

/-- LDB (R322). -/
def execLdb (f : RI) (s : State) : Out := loadAt 2 f.rd f.ra (off13 f.imm) 1 true s
/-- LDBU (R322). -/
def execLdbu (f : RI) (s : State) : Out := loadAt 2 f.rd f.ra (off13 f.imm) 1 false s
/-- LDH (R322). -/
def execLdh (f : RI) (s : State) : Out := loadAt 2 f.rd f.ra (off13 f.imm) 2 true s
/-- LDHU (R322). -/
def execLdhu (f : RI) (s : State) : Out := loadAt 2 f.rd f.ra (off13 f.imm) 2 false s
/-- LDW (R322). -/
def execLdw (f : RI) (s : State) : Out := loadAt 2 f.rd f.ra (off13 f.imm) 4 true s
/-- LDWU (R322). -/
def execLdwu (f : RI) (s : State) : Out := loadAt 2 f.rd f.ra (off13 f.imm) 4 false s
/-- LDD (R322). -/
def execLdd (f : RI) (s : State) : Out := loadAt 2 f.rd f.ra (off13 f.imm) 8 false s
/-- LDS (R322). -/
def execLds (f : RI) (s : State) : Out := loadSpec f.rd f.ra (off13 f.imm) s
/-- STB (R332). -/
def execStb (f : RI) (s : State) : Out := storeAt 2 f.rd f.ra (off13 f.imm) 1 s
/-- STH (R332). -/
def execSth (f : RI) (s : State) : Out := storeAt 2 f.rd f.ra (off13 f.imm) 2 s
/-- STW (R332). -/
def execStw (f : RI) (s : State) : Out := storeAt 2 f.rd f.ra (off13 f.imm) 4 s
/-- STD (R332). -/
def execStd (f : RI) (s : State) : Out := storeAt 2 f.rd f.ra (off13 f.imm) 8 s
/-- C.LDD (R102). -/
def execCLdd (ra rb : BitVec 5) (j : BitVec 2) (s : State) : Out := loadAt 1 ra rb (off8 j) 8 false s
/-- C.STD (R102). -/
def execCStd (ra rb : BitVec 5) (j : BitVec 2) (s : State) : Out := storeAt 1 ra rb (off8 j) 8 s

/-- The 64 entries of the constant bank from the 256 bytes at a key (R320). -/
def bankAt (m : Mem) (key : Nat) : Vector (BitVec 32) 64 :=
  Vector.ofFn (fun (i : Fin 64) => BitVec.ofNat 32 (m.readNat (key + 4 * i.val) 4))

/-- KLD (R320). -/
def execKld (f : R2) (s : State) : Out :=
  guardD s [f.ra] fun s =>
    let c := s.me
    let a := ((s.th c).rdS f.ra).val
    coreAccess s c .read false a 256 fun key _ s =>
      let t := s.th c
      let t := { t with regs := { t.regs with k := bankAt s.mem key }, marks := t.marks.filter (fun m => m.1 != 3) }
      .next (s.setTh c ((t.wrS f.rd 0 false).advance 2))

end Sys2Proof.Machine
end

