-- ==== Sys2Proof/Machine/Matrix.lean ====
section
/-! DEFINITION. The matrix arrays: eligibility and leases (R186, R188), executing a command (R189-R193, R324),
accumulation (R146-R148) and charges (R187). -/
namespace Sys2Proof.Machine
open Sys2Proof

/-! ### Reading operands -/

/-- What reading comes to: a value, with the addresses in HOST-U pages of which the host must be asked (R273), in order; or why it
does not come. -/
inductive MRd (α : Type) where
  | ok (x : α) (asks : List Word)
  | fault (cause : BitVec 8) (va : Word)
  | absent (va : Word)
  | held (line : Nat)
  deriving DecidableEq, Repr

def MRd.bind {α β : Type} (x : MRd α) (f : α → MRd β) : MRd β :=
  match x with
  | .ok a xs => match f a with
    | .ok b ys => .ok b (xs ++ ys)
    | r => r
  | .fault c va => .fault c va
  | .absent va => .absent va
  | .held l => .held l

/-- f 0, …, f (n-1) in order; the first that fails decides. -/
def MRd.list {α : Type} (f : Nat → MRd α) : Nat → Nat → MRd (List α)
  | 0, _ => .ok [] []
  | n + 1, i => (f i).bind fun x => (MRd.list f n (i + 1)).bind fun xs => .ok (x :: xs) []

/-- An operand element: its bits as memory packs it, and whether it is inside the stream (R190). -/
structure MCell where
  raw : Nat := 0
  inside : Bool := false
  deriving DecidableEq, Repr

/-- Element (r, c) is inside (R190). -/
def Stream.has (x : Stream) (r c : Nat) : Bool := decide (r < x.rows) && decide (c < x.ext0.toNat)

/-- The request that an access at an address of a class makes of the host. -/
def askOf (va : Word) (cls : Option Cls) : List Word := if cls = some .hostU then [va] else []

/-- The value of one piece. -/
def readPiece (s : State) (w : Who) (p : Word × Nat) : MRd Nat :=
  match checkAccess s w .read p.1 p.2 with
  | .ok key cls => .ok (s.mem.readNat key p.2) (askOf p.1 cls)
  | .fault cause va => .fault cause va
  | .absent va => .absent va
  | .held l => .held l

/-- Element (r, c) of an operand (R172, R190); a GQ4 element's bits are its code. -/
def readCell (s : State) (w : Who) (x : Stream) (r c : Nat) : MRd MCell :=
  if !x.has r c then .ok {} []
  else if x.et = .gq4 then
    (readPiece s w ((x.parts r c).headD (0, 0))).bind fun b =>
      .ok { raw := if (if x.baxis then r else c) % 2 = 0 then b % 16 else b / 16, inside := true } []
  else (readPiece s w (x.addr r c, x.et.width)).bind fun b => .ok { raw := b, inside := true } []

/-- The span of n bytes of a row (Table 8-4): in two layers, or past the end of a scratchpad window. -/
def rowSpan (s : State) (w : Who) (k : AccKind) (a : Word) (n : Nat) : MRd Unit :=
  if inWindow a.toNat then
    match checkWindow s w k a.toNat n with
    | .fault cause va => .fault cause va
    | _ => .ok () []
  else if n ≠ 0 ∧ inWindow (a.toNat + n - 1) then .fault cLayerSpan a
  else .ok () []

/-- The spans of the elements lo, …, hi - 1 of row r of an operand, of each array of GQ4 (Table 8-4). -/
def rowSpans (s : State) (w : Who) (x : Stream) (r lo hi : Nat) : MRd Unit :=
  let ps := List.zipWith (fun a b => (a.1, (b.1 - a.1).toNat + b.2)) (x.parts r lo) (x.parts r (hi - 1))
  ps.foldl (fun t p => t.bind fun _ => rowSpan s w .part p.1 p.2) (.ok () [])

/-- The first n elements of row r of an operand. -/
def readRow (s : State) (w : Who) (x : Stream) (n r : Nat) : MRd (List MCell) :=
  let inside := if r < x.rows then Nat.min n x.ext0.toNat else 0
  let span := if inside = 0 then MRd.ok () [] else rowSpans s w x r 0 inside
  span.bind fun _ => MRd.list (fun c => readCell s w x r c) n 0

/-- Rows r0, …, r0 + m - 1 of an operand, n elements each. -/
def readRows (s : State) (w : Who) (x : Stream) (m n r0 : Nat) : MRd (List (List MCell)) :=
  MRd.list (fun r => readRow s w x n (r0 + r)) m 0

/-- The block scale of block j of column n of a GQ4 operand along its rows; none where it has no element inside. -/
def readScale (s : State) (w : Who) (x : Stream) (j n : Nat) : MRd (Option Nat) :=
  if !x.has (64 * j) n then .ok none []
  else
    let ps := x.parts (64 * j) n
    let ss := ps.getD 2 (0, 0)
    (readPiece s w (ps.getD 1 (0, 0))).bind fun sc =>
      (MRd.list (fun i => readPiece s w (ss.1 + BitVec.ofNat 64 i, 1)) ss.2 0).bind fun bs =>
        .ok (some (blockScale (bytesNat bs) sc)) []

/-! ### Accumulation (R146-R148) -/

/-- The chunk of an operand pair (Table 6-9). -/
def chunkOf (a b : Et) : Option Nat :=
  match a, b with
  | .bf16, .bf16 => some 32
  | .fp16, .fp16 => some 32
  | .f8, .f8 => some 64
  | .bf16, .gq4 => some 64
  | .fp16, .gq4 => some 64
  | .f8, .gq4 => some 64
  | .i8, .i8 => some 64
  | .i8, .u8 => some 64
  | .u8, .i8 => some 64
  | .u8, .u8 => some 64
  | _, _ => none

/-- The value of a floating-point operand element; a GQ4 element's is CB[code]. -/
def MCell.val (x : MCell) (et : Et) : FVal :=
  if !x.inside then .fin false 0 0
  else if et = .gq4 then cbVal x.raw
  else et.fmt.decode x.raw

/-- The value of an integer operand element. -/
def MCell.int (x : MCell) (et : Et) : Int := toIntOf et.isSigned 8 x.raw

/-- The exact sum of finite values as an integer times a power of two. -/
def sumFin : List FVal → Int × Int
  | [] => (0, 0)
  | p :: ps =>
    let t := sumFin ps
    match p with
    | .fin s m e =>
      let lo := if t.1 = 0 then e else if e ≤ t.2 then e else t.2
      let x : Int := (m : Int) * 2 ^ (e - lo).toNat
      let y : Int := t.1 * 2 ^ (t.2 - lo).toNat
      if m = 0 then t else ((if s then y - x else y + x), lo)
    | _ => t

/-- The exact sum of a chunk's products (R147). -/
def chunkSum (ps : List FVal) : FVal :=
  if ps.any (fun p => p.isNan) then .nan
  else if ps.contains (.inf false) && ps.contains (.inf true) then .nan
  else if ps.contains (.inf false) then .inf false
  else if ps.contains (.inf true) then .inf true
  else
    let t := sumFin ps
    if t.1 = 0 then .fin (ps.all (fun p => match p with
      | .fin s m _ => s && decide (m = 0)
      | _ => false)) 0 0
    else .fin (decide (t.1 < 0)) t.1.natAbs t.2

/-- The sum times the block scale; a zero sum keeps its sign. -/
def scaleSum (s : FVal) (bs : Option Nat) : FVal :=
  match bs, s with
  | none, _ => s
  | some b, .fin g 0 e =>
    match fmtFP32.decode b with
    | .fin .. => .fin g 0 e
    | v => (FVal.mulV s v).1
  | some b, _ => (FVal.mulV s (fmtFP32.decode b)).1

/-- One chunk added to an element (R147). -/
def chunkAdd (c : Nat) (ps : List FVal) (bs : Option Nat) : Nat :=
  rne32 (FVal.add .rne (fmtFP32.decode c) (fmtFP32.decode (rne32 (scaleSum (chunkSum ps) bs).exact)))

/-- The chunks of a row and column, j counting up. -/
def accFloat (ch : Nat) (bs : Nat → Option Nat) : Nat → Nat → List FVal → Nat → Nat
  | 0, _, _, c => c
  | n + 1, j, ps, c => accFloat ch bs n (j + 1) (ps.drop ch) (chunkAdd c (ps.take ch) (bs j))

/-- The new word of C[m][n] from its row of A and column of B. -/
def accumulate (fa fb : Et) (ch : Nat) (bs : Nat → Option Nat) (row col : List MCell) (c : Nat) : Nat :=
  if fa.isInt then
    let t := (List.zipWith (fun a b => a.int fa * b.int fb) row col).foldl (· + ·) (0 : Int)
    wrapInt 32 ((c : Int) + t)
  else
    let ps := List.zipWith (fun (a b : MCell) => (FVal.mulV (a.val fa) (b.val fb)).1) row col
    accFloat ch bs (ps.length / ch) 0 ps c

/-! ### Tiles -/

def tileWord (a : Array) (t m n : Nat) : Nat := (smGet 0 (tileKey t m n) a.tiles).toNat

/-- Writes row m of a tile, words n, n+1, …. -/
def putRow (t m : Nat) : Nat → List Nat → SMap (BitVec 32) → SMap (BitVec 32)
  | _, [], g => g
  | n, x :: xs, g => putRow t m (n + 1) xs (smSet 0 (tileKey t m n) (BitVec.ofNat 32 x) g)

/-- Writes rows m, m+1, … of a tile. -/
def putRows (t : Nat) : Nat → List (List Nat) → SMap (BitVec 32) → SMap (BitVec 32)
  | _, [], g => g
  | m, x :: xs, g => putRows t (m + 1) xs (putRow t m 0 x g)

/-- One of the m x n words of tile t that a command reads has an uncorrectable error (R304). -/
def tileEcc (s : State) (arr t m n : Nat) : Bool := s.mem.poison.any (inWords arr (tileKey t 0 0) m n)

/-- The new words of M x N outputs. -/
def newWords (a : Array) (t : Nat) (rows cols : List (List MCell)) (f : List MCell → List MCell → Nat → Nat → Nat) :
    List (List Nat) :=
  (List.zip (List.range rows.length) rows).map (fun (x : Nat × List MCell) =>
    (List.zip (List.range cols.length) cols).map (fun (y : Nat × List MCell) =>
      f x.2 y.2 y.1 (tileWord a t x.1 y.1)))

/-- The columns of a matrix given by rows. -/
def columns (n : Nat) (rows : List (List MCell)) : List (List MCell) :=
  (List.range n).map (fun j => rows.map (fun r => r.getD j {}))

/-! ### Charges (R187) -/

/-- The bit changes between neighbouring words. -/
def toggles : List Nat → Nat
  | a :: b :: xs => popN 64 (a ^^^ b) + toggles (b :: xs)
  | _ => 0

/-- The charge of an MMA or MCONV; each element is one word as memory packs it. -/
def chargeOf (m n k : Nat) (row col : List MCell) : Nat :=
  let w := fun (xs : List MCell) => toggles ((xs.take (Nat.min k 256)).map (fun x => x.raw))
  Nat.min (2 ^ 32 - 1) ((w row + w col + 64) * ((m * n * k + 65535) / 65536))

/-! ### The unfolded operand of MCONV (R193) -/

/-- Element k of unfolded row i (R193); the first that a pixel's row gives tests the span of those it gives (Table 8-4). -/
def convCell (s : State) (w : Who) (m : MCmd) (a : Stream) (g : Conv) (mpad : Nat) (i k : Nat) : MRd MCell :=
  match g.at_ m i k with
  | .out => .ok {} []
  | .pad => .ok { raw := mpad % 2 ^ (8 * a.et.width), inside := true } []
  | .cell row c =>
    let span := if k = 0 ∨ c = 0 then rowSpans s w a row c (Nat.min g.c (c + m.k.toNat - k)) else MRd.ok () []
    span.bind fun _ => readCell s w a row c

/-! ### Eligibility and leases (R186, R188) -/

/-- The record at RD: as the array has read it, once the command has begun. -/
def recordNow (s : State) (c : Nat) : BitVec 128 := (s.core c).ring.begun.getD (ringRecord s c (s.core c).ring.rd.toNat)

def awaitOf (s : State) (c : Nat) : Nat := (wMCmd (recordNow s c)).await.toNat

/-- Core c is eligible; a stopped or ended strand's commands do not begin (R60, R195). -/
def eligible (s : State) (c : Nat) : Bool :=
  let k := s.core c
  let aw := awaitOf s c
  k.ring.cfg && decide (k.ring.rd ≠ k.ring.wr) && decide (k.th.job.run = .run) && !k.th.q.ringFault &&
    (match k.ring.park with
    | .wait _ => false
    | _ => true) &&
    (decide (aw = 31) || decide (semOf s c aw ≠ 0))

/-- The lease of array a ends. -/
def endLease (s : State) (a : Nat) : State := s.setArray a { s.array a with lease := none, begun := 0 }

/-- The grantee among the eligible quad positions (R188): one passed over 64 times, else the lowest charge; ties
round-robin after the last grantee. -/
def grantee (s : State) (a : Nat) : Option Nat :=
  let last := (s.array a).lastGrant
  let order := (List.range 4).map (fun j => (last + 1 + j) % 4)
  let cands := order.filter (fun q => eligible s (quadCore a q))
  match cands.find? (fun q => decide (64 ≤ (s.core (quadCore a q)).lease.passes)) with
  | some q => some q
  | none =>
    cands.foldl (fun best q =>
      match best with
      | none => some q
      | some b =>
        if (chargeNow s (quadCore a q)).toNat < (chargeNow s (quadCore a b)).toNat then some q else some b)
      none

/-- The pass-over counts after a grant to position q. -/
def passOver (s : State) (a q : Nat) : Nat → State
  | 0 => s
  | n + 1 =>
    let s := passOver s a q n
    let c := quadCore a n
    let k := s.core c
    let p := if n ≠ q ∧ eligible s c then k.lease.passes + 1 else 0
    s.setCore c { k with lease := { k.lease with passes := p } }

/-- LEASE_GRANT (R188). -/
def execLeaseGrant (die arr : Nat) (s : State) : Out :=
  let a := die * 16 + arr
  match (s.array a).lease, grantee s a with
  | none, some q =>
    let s := passOver s a q 4
    .next (s.setArray a { s.array a with lease := some q, begun := 0, lastGrant := q })
  | _, _ => .next s

/-- Every halving that is due takes effect (R187). -/
def halveDue (s : State) (a : Nat) : State :=
  let n := dueHalvings s a
  if n = 0 then s
  else
    let s := (List.range 4).foldl (fun s q =>
      let c := quadCore a q
      let k := s.core c
      s.setCore c { k with lease := { k.lease with charge := k.lease.charge >>> Nat.min n 32 } }) s
    s.setArray a { s.array a with halved := (s.array a).halved + n }

/-- LEASE_CHARGE_HALVE (R187): once for each multiple of 16,000 ns that the die's GTIME has reached. -/
def execLeaseChargeHalve (die arr : Nat) (s : State) : Out :=
  let a := die * 16 + arr
  let x := s.array a
  if x.halved < (s.die die).time.gtime.toNat / 16000 then
    let s := (List.range 4).foldl (fun s q =>
      let c := quadCore a q
      let k := s.core c
      s.setCore c { k with lease := { k.lease with charge := k.lease.charge >>> 1 } }) s
    .next (s.setArray a { s.array a with halved := x.halved + 1 })
  else .next s

/-! ### Executing a command (R189) -/

/-- The array consumes the AWAIT of core c's command (R189, step 2). -/
def takeAwait (s : State) (c : Nat) : State :=
  let n := awaitOf s c
  if n = 31 then s else setSemOf s c n (semOf s c n - 1)

/-- A command that had begun is given up: the count it consumed comes back (R189). -/
def returnAwait (s : State) (c : Nat) : State :=
  let r := (s.core c).ring
  if r.begun.isNone then s
  else
    let n := awaitOf s c
    let s := if n = 31 then s else setSemOf s c n (semOf s c n + 1)
    setRing s c { (s.core c).ring with begun := none, host := .idle }

/-- A ring fault (R189): recorded in QFSTAT; the lease ends. -/
def ringStop (s : State) (a c : Nat) (cause : BitVec 8) (va : Word) : State :=
  let s := returnAwait s c
  let t := s.th c
  let f : QFault := { q := 4, cause := cause, index := (s.core c).ring.rd.extractLsb' 0 32, addr := va }
  let s := s.setTh c { t with q := { t.q with faults := t.q.faults ++ [f] } }
  let r := (s.core c).ring
  endLease (setRing s c { r with park := .run }) a

/-- The command parks at a replayable fault (R189, R226); the lease ends. -/
def ringPark (s : State) (a c : Nat) (va : Word) (k : AccKind) : State :=
  let r := postFault (returnAwait s c) (s.ctxOf c) va agArray k (a / 16) (BitVec.ofNat 16 (a % 16)) c 0
  let s := r.2
  endLease (setRing s c { (s.core c).ring with park := .wait r.1 }) a

/-- What a command changes (steps 3 and 4): its tile's words, memory, its charge; the dies that its writes leave for. -/
structure MEff where
  tiles : SMap (BitVec 32)
  mem : Mem
  charge : Option Nat := none
  outs : List Nat := []
  deriving DecidableEq, Repr

/-- The command begins and has its effects (R182, R187, R189, R195): AWAIT is consumed, RD passes it, the lease ends where
RUN commands have begun or the ring is empty; its writes carry the causal stamp (R253). -/
def mcmdDone (s : State) (a c : Nat) (m : MCmd) (strms : List (BitVec 4)) (e : MEff) : State :=
  let word := recordNow s c
  let s := e.outs.foldl (fun s d => sendStamp s (a / 16) d) (halveDue s a)
  let s := if (s.core c).ring.begun.isSome then s else takeAwait s c
  let s : State := { s with mem := e.mem }
  let k := s.core c
  let r := k.ring
  let lease := match e.charge with
    | none => k.lease
    | some x => { k.lease with last := BitVec.ofNat 32 x,
                               charge := BitVec.ofNat 32 (Nat.min (2 ^ 32 - 1) (k.lease.charge.toNat + x)) }
  let ring := { r with rd := r.rd + 1, park := .run, holds := r.holds.filter (fun x => x.idx != r.rd.toNat), begun := none,
                       host := .idle }
  let s := s.setCore c { k with ring := ring, lease := lease }
  let x := s.array a
  let n := x.begun + 1
  let ends := decide (k.lease.run.toNat ≤ n) || decide (r.rd + 1 = r.wr)
  s.setArray a { x with
    tiles := e.tiles,
    exec := some { core := c, osc := k.th.job.osc, raise := m.raise, acc := m.acc, strms := strms, word := word },
    lease := if ends then none else x.lease,
    begun := if ends then 0 else n }

/-- Some core of the quad lends tile t to parking (R94). -/
def tileLent (s : State) (a t : Nat) : Bool := (s.core (quadCore a (t / 2))).banks.ptiles.getLsbD (t % 2)

/-- The tile rules of a command: its context, and lending (R94, R178). -/
def tileRule (s : State) (a c : Nat) (m : MCmd) : Option (BitVec 8) :=
  let t := m.acc.toNat
  if ((s.array a).ctxs.toList.getD (t / 2) none) ≠ some (s.ctxOf c) then some cTileCtx
  else if tileLent s a t then some cTileLent
  else none

/-- The ring stops at a command that breaks a rule: TVAL holds the record's first word for ILLEGAL, else 0 (Table 13-1; log
entry 51). -/
def ringRefuse (s : State) (a c : Nat) (cause : BitVec 8) : State :=
  ringStop s a c cause (if cause = cIllegal then (recordNow s c).extractLsb' 0 64 else 0)

/-- The array of the agent that moves. -/
def Agent.arrayOf : Agent → Option Nat
  | .array die n => some (die * 16 + n)
  | _ => Option.none

/-- An access of the strand before the posting of core c's command at RD is still to be performed by a queue (R257). -/
def commandHeld (s : State) (c : Nat) : Bool :=
  let r := (s.core c).ring
  match r.holds.find? (fun x => x.idx == r.rd.toNat) with
  | none => false
  | some x => [VQ.vl, .va, .vs].any (postingBehind s c x)

/-- A semaphore or a stream register that a command reads holds an uncorrectable error (R304). -/
def commandBad (s : State) (c : Nat) (m : MCmd) (strms : List (BitVec 4)) : Bool :=
  let sem := fun (n : Nat) => decide (n ≠ 31) && semBad s c n
  sem m.await.toNat || sem m.raise.toNat || strms.any (fun n => (s.th c).marks.contains (5, n.toNat))

/-- The array asks the host for the next of a command's HOST-U accesses (R190, R273): with the first the command has begun. -/
def askCommand (s : State) (c : Nat) (va : Word) (n : Nat) : State :=
  let word := recordNow s c
  let s := if (s.core c).ring.begun.isSome then s else takeAwait s c
  setRing s c { (s.core c).ring with begun := some word, host := .sent va n }

/-- The HOST-U accesses of a command, each a request of its own (R190, R273): a refused one stops the ring; once all are answered the
command has its effects. -/
def commandAsks (s : State) (a c : Nat) (asks : List Word) (go : State → State) : State :=
  match asks, (s.core c).ring.host with
  | [], _ => go s
  | va :: _, .idle => askCommand s c va 0
  | _, .sent _ _ => s
  | hs, .answered va n ok =>
    if !ok then ringStop s a c cPageFault va
    else match hs[n + 1]? with
      | some va => askCommand s c va (n + 1)
      | none => go s

/-- The agent that holds what core c's commands have asked the host's line for (R276). -/
def snoopRing (s : State) (c line : Nat) : State :=
  { sendSnoop { s with agent := .ring c } line with agent := s.agent }

/-- A command of the lease's core (R186, R189): `rule` gives the fault of its streams, `body` its effects. Of several causes in
step 1, the tile's comes before the formats', and theirs before a K that is no multiple of the chunk (DESIGN CHOICE, log entry
59). -/
def matrixCommand (m : MCmd) (strms : List (BitVec 4)) (rule : State → Nat → Option (BitVec 8))
    (body : State → Nat → Nat → MRd MEff) (kind : AccKind) (s : State) : Out :=
  match s.agent.arrayOf with
  | none => .next s
  | some a =>
    match (s.array a).lease, (s.array a).exec with
    | some q, none =>
      let c := quadCore a q
      let begun := (s.core c).ring.begun.isSome
      if !begun && (!eligible s c || (killedStrand s c).isSome) then .next (endLease s a)
      else if !begun && commandHeld s c then .next s
      else match (s.core c).ring.park with
        | .bad va => .next (ringStop s a c cPageFault va)
        | _ =>
          if commandBad s c m strms then .next (ringStop s a c cEcc 0)
          else match tileRule s a c m, rule s c with
          | some cause, _ => .next (ringRefuse s a c cause)
          | none, some cause => .next (ringRefuse s a c cause)
          | none, none =>
            match body s a c with
            | .ok e asks => .next (commandAsks s a c asks (fun s => mcmdDone s a c m strms e))
            | .fault cause va => .next (ringStop s a c cause va)
            | .absent va => .next (ringPark s a c va kind)
            | .held line => .next (snoopRing s c line)
    | _, _ => .next s

def noRule (_ : State) (_ : Nat) : Option (BitVec 8) := none

/-- MZERO (R192). -/
def execMzero (m : MCmd) (s : State) : Out :=
  matrixCommand m [] noRule (fun s a _ =>
    let lo := tileKey m.acc.toNat 0 0
    .ok { tiles := (s.array a).tiles.filter (fun x => !(decide (lo ≤ x.1) && decide (x.1 < lo + 16384))),
          mem := cleanWords s.mem a lo 128 128 } []) .read s

def strA (s : State) (c : Nat) (m : MCmd) : Stream := (s.th c).strm.stAt m.sta.toNat
def strB (s : State) (c : Nat) (m : MCmd) : Stream := (s.th c).strm.stAt m.stb.toNat

/-- The formats and K of an operand pair (R114, R146). -/
def pairRule (m : MCmd) (a b : Stream) (ok : Bool) : Option (BitVec 8) :=
  if a.ext0 = 0 ∨ b.ext0 = 0 ∨ !ok then some cMfmt
  else match chunkOf a.et b.et with
    | none => some cMfmt
    | some ch => if m.k.toNat % ch = 0 then none else some cIllegal

/-- The accumulation of M x N words from rows of A and of B, under a charge. -/
def product (s : State) (a : Nat) (m : MCmd) (x y : Stream) (rows brows : List (List MCell))
    (scales : List (List (Option Nat))) : MEff :=
  let n := m.nm1.toNat + 1
  let ch := (chunkOf x.et y.et).getD 32
  let cols := columns n brows
  let f := fun (row col : List MCell) (j old : Nat) =>
    accumulate x.et y.et ch (fun b => (scales.getD b []).getD j none) row col old
  { tiles := putRows m.acc.toNat 0 (newWords (s.array a) m.acc.toNat rows cols f) (s.array a).tiles, mem := s.mem,
    charge := some (chargeOf (m.mm1.toNat + 1) n m.k.toNat (rows.headD []) (cols.headD [])) }

/-- MMA (R191). Of several faults found in step 3, that of a tile word comes first, then those of A's rows, then those of B's
(DESIGN CHOICE, log entry 59). -/
def execMma (m : MCmd) (s : State) : Out :=
  matrixCommand m [m.sta, m.stb] (fun s c =>
      let b := strB s c m
      pairRule m (strA s c m) b (decide (b.et ≠ .gq4) || b.baxis))
    (fun s a c =>
      let w := whoArray s c
      let x := strA s c m
      let y := strB s c m
      let n := m.nm1.toNat + 1
      let blocks := if y.et = .gq4 then m.k.toNat / 64 else 0
      if tileEcc s a m.acc.toNat (m.mm1.toNat + 1) (m.nm1.toNat + 1) then .fault cEcc 0
      else
        (readRows s w x (m.mm1.toNat + 1) m.k.toNat 0).bind fun rows =>
          (readRows s w y m.k.toNat n 0).bind fun brows =>
            (MRd.list (fun j => MRd.list (fun i => readScale s w y j i) n 0) blocks 0).bind fun scales =>
              .ok (product s a m x y rows brows scales) []) .read s

/-- MCONV (R193). -/
def execMconv (m : MCmd) (s : State) : Out :=
  matrixCommand m [m.sta, m.stb] (fun s c =>
      let a := strA s c m
      let b := strB s c m
      pairRule m a b (decide (a.kind = 1#3) && decide (b.kind = 1#3) && decide (b.et ≠ .gq4) &&
        decide (b.ext1.toNat = a.ext0.toNat)))
    (fun s a c =>
      let w := whoArray s c
      let x := strA s c m
      let y := strB s c m
      let g := convOf m x y
      let mpad := (s.core c).lease.mpad.toNat
      if tileEcc s a m.acc.toNat (m.mm1.toNat + 1) (m.nm1.toNat + 1) then .fault cEcc 0
      else
        (MRd.list (fun i => MRd.list (fun k => convCell s w m x g mpad i k) m.k.toNat 0) (m.mm1.toNat + 1) 0).bind fun rows =>
          (readRows s w y m.k.toNat (m.nm1.toNat + 1) m.koff.toNat).bind fun brows =>
            .ok (product s a m x y rows brows []) []) .read s

/-- A stream of MOUT or MACC is configured and not GQ4 (R192). -/
def plainRule (m : MCmd) (s : State) (c : Nat) : Option (BitVec 8) :=
  let x := strA s c m
  if x.ext0 = 0 ∨ x.et = .gq4 then some cMfmt else none

/-- A word converted to a stream's format (Table 8-5). -/
def mout (et : Et) (w : Nat) : Nat := (convertEl (if et.isFloat then .fp32 else .i32) et .rne true w).bits

/-- A stream's element widened to a word (Table 8-5). -/
def macc (et : Et) (x : MCell) : Nat :=
  if !x.inside then 0
  else if et.isFloat then (convertEl et .fp32 .rne false x.raw).bits
  else if et = .u32 then x.raw
  else wrapInt 32 (toIntOf et.isSigned (8 * et.width) x.raw)

/-- The destination places of row r, n elements inside. -/
def outRow (s : State) (w : Who) (x : Stream) (n r : Nat) : MRd (List Nat) :=
  (if n = 0 then MRd.ok () [] else rowSpan s w .write (x.addr r 0) (n * x.et.width)).bind fun _ =>
    MRd.list (fun c =>
      match checkAccess s w .write (x.addr r c) x.et.width with
      | .ok key cls => .ok key (askOf (x.addr r c) cls)
      | .fault cause va => .fault cause va
      | .absent va => .absent va
      | .held l => .held l) n 0

/-- Writes converted words at their places. -/
def outWords (et : Et) (m : Mem) : List (Nat × Nat) → Mem
  | [] => m
  | x :: xs => outWords et (m.writeNat x.1 et.width (mout et x.2)) xs

/-- The words of a MOUT at the keys of their places, row by row. -/
def outPairs (g : Array) (t : Nat) (keys : List (List Nat)) : List (Nat × Nat) :=
  ((List.zip (List.range keys.length) keys).map (fun (p : Nat × List Nat) =>
    (List.zip (List.range p.2.length) p.2).map (fun (q : Nat × Nat) => (q.2, tileWord g t p.1 q.1)))).flatten

/-- The dies that a MOUT's rows leave for. -/
def outDies (s : State) (w : Who) (x : Stream) (keys : List (List Nat)) : List Nat :=
  ((List.zip (List.range keys.length) keys).flatMap (fun (p : Nat × List Nat) =>
    (List.zip (List.range p.2.length) p.2).map (fun (q : Nat × Nat) => targetDie s w (x.addr p.1 q.1) q.2))).eraseDups

/-- MOUT (R192). -/
def execMout (m : MCmd) (s : State) : Out :=
  matrixCommand m [m.sta] (plainRule m) (fun s a c =>
      let w := whoArray s c
      let x := strA s c m
      let rows := Nat.min (m.mm1.toNat + 1) x.rows
      let n := Nat.min (m.nm1.toNat + 1) x.ext0.toNat
      let g := s.array a
      if tileEcc s a m.acc.toNat rows n then .fault cEcc 0
      else
        (MRd.list (fun r => outRow s w x n r) rows 0).bind fun keys =>
          .ok { tiles := g.tiles, mem := outWords x.et s.mem (outPairs g m.acc.toNat keys), outs := outDies s w x keys } []) .write s

/-- MACC (R192). -/
def execMacc (m : MCmd) (s : State) : Out :=
  matrixCommand m [m.sta] (plainRule m) (fun s a c =>
      let w := whoArray s c
      let x := strA s c m
      (readRows s w x (m.mm1.toNat + 1) (m.nm1.toNat + 1) 0).bind fun rows =>
        .ok { tiles := putRows m.acc.toNat 0 (rows.map (fun r => r.map (macc x.et))) (s.array a).tiles,
              mem := cleanWords s.mem a (tileKey m.acc.toNat 0 0) (m.mm1.toNat + 1) (m.nm1.toNat + 1) } []) .read s

/-- MATRIX_COMMAND_COMPLETE (R189): RAISE, held while its count stands at 65,535 (R179). The semaphore is the core's, whose step may be
another by then (DESIGN CHOICE, log entry 85). -/
def execMatrixCommandComplete (die arr : Nat) (s : State) : Out :=
  let a := die * 16 + arr
  match (s.array a).exec with
  | none => .next s
  | some x =>
    let n := x.raise.toNat
    let done := fun (s : State) => Host.Outcome.next (s.setArray a { s.array a with exec := none })
    if n = 31 then done s
    else if semOf s x.core n = 0xFFFF then .next s
    else done (setSemOf s x.core n (semOf s x.core n + 1))

/-! ### The move of an array -/

/-- The scratchpad offset of the record at RD. -/
def recordOff (s : State) (c : Nat) : Nat :=
  let r := (s.core c).ring
  r.base.toNat + 16 * (r.rd.toNat % 2 ^ r.logn.toNat)

/-- The record's own rules (R114, R182): the owner of the tile that holds it, an uncorrectable error. -/
def recordFault (s : State) (c : Nat) : Option (BitVec 8) :=
  let off := recordOff s c
  if tileOwner (s.core c).banks.owners (off / 4096) ≠ 0 then some cOwner
  else if s.mem.poisoned (spadKey c off) 16 then some cEcc
  else none

/-- What array a does when it moves: a command to execute, or a move of its own. A fault of the record names it in the own
form of the window (log entry 51). Whether the next command may begin is judged when it is to begin (DESIGN CHOICE, log entry 92). -/
def arrayMove (s : State) (a : Nat) : Option Instr × State :=
  match (s.array a).lease, (s.array a).exec with
  | some q, none =>
    let c := quadCore a q
    let begun := (s.core c).ring.begun.isSome
    if !begun && (!eligible s c || (killedStrand s c).isSome) then (none, endLease s a)
    else if !begun && commandHeld s c then (none, s)
    else match (if begun then none else recordFault s c) with
      | some cause => (none, ringStop s a c cause (BitVec.ofNat 64 (windowBase + 2 ^ 39 + recordOff s c)))
      | none =>
        match decodeCommand (recordNow s c) with
        | some i => (some i, s)
        | none => (none, ringRefuse s a c cIllegal)
  | _, _ => (none, s)

end Sys2Proof.Machine
end

