-- ==== Sys2Proof/Machine/Work.lean ====
section
/-! DEFINITION. What the package's events share: accesses of the sequencer and the shards, the carriers of scopes and
freeing them (R53), unbinding cores, and the dies of a context. -/
namespace Sys2Proof.Machine
open Sys2Proof

def State.gtime (s : State) (die : Nat) : Word := (s.die die).time.gtime

/-- The dies a cancel token goes to (R59): the compute dies of the table, the memory and the I/O dies. -/
def ctxDies (s : State) (ctx : Nat) : List Nat :=
  (List.range 8).filterMap (fun v => vdieOf (s.ctx ctx).vdmap v) ++ (List.range 10).map (fun j => 8 + j)

/-- The I/O die of a context's home port (R278). -/
def hostDie (s : State) (ctx : Nat) : Nat := if (s.ctx ctx).home = .b then 17 else 16

/-- An entry of the log. -/
def logEv (s : State) (name : String) (args : List Nat) : State := { s with log := s.log ++ [{ name := name, args := args }] }

def portIdx : Port → Fin 4
  | .a => 0
  | .b => 1
  | .c => 2
  | .d => 3

/-- The link of a port is up (R274). -/
def State.portUp (s : State) (p : Port) : Bool := (s.mgmt.ports.get (portIdx p)).up

/-- The number of a port in the log: 0 A, 1 B. -/
def portNum (p : Port) : Nat := if p = .b then 1 else 0

/-- The context's message to the host, on its home port (R278, R282). -/
def raiseVector (s : State) (ctx : Nat) : State := logEv s "MSIX" [ctx, portNum (s.ctx ctx).home]

def State.op (s : State) (o : Nat) : Option Op := smFind o s.work.ops
def State.setOp (s : State) (o : Nat) (x : Op) : State := { s with work := { s.work with ops := smPut o x s.work.ops } }
def State.delOp (s : State) (o : Nat) : State := { s with work := { s.work with ops := smDel o s.work.ops } }
def State.run (s : State) (q : Nat) : Option PRun := smFind q s.work.runs
def State.setRun (s : State) (q : Nat) (x : PRun) : State := { s with work := { s.work with runs := smPut q x s.work.runs } }
def State.delRun (s : State) (q : Nat) : State := { s with work := { s.work with runs := smDel q s.work.runs } }
def State.tensor (s : State) (t : Nat) : Option Tensor := smFind t s.weir.tensors
def State.setTensor (s : State) (t : Nat) (x : Tensor) : State :=
  { s with weir := { s.weir with tensors := smPut t x s.weir.tensors } }
def State.req (s : State) (r : Nat) : Option WReq := smFind r s.weir.reqs
def State.setReq (s : State) (r : Nat) (x : WReq) : State := { s with weir := { s.weir with reqs := smPut r x s.weir.reqs } }
def State.delReq (s : State) (r : Nat) : State := { s with weir := { s.weir with reqs := smDel r s.weir.reqs } }
def State.frame (s : State) (f : Nat) : Option Frame := smFind f s.weir.frames
def State.setFrame (s : State) (f : Nat) (x : Frame) : State :=
  { s with weir := { s.weir with frames := smPut f x s.weir.frames } }
def State.delFrame (s : State) (f : Nat) : State := { s with weir := { s.weir with frames := smDel f s.weir.frames } }

/-! ### Scopes and their carriers (R53) -/

/-- The scope a Flume packet carries (R54). -/
def packetScope : Instr → Nat
  | .flcopy p => p.scope.toNat
  | .flfill p => p.scope.toNat
  | .flred p => p.scope.toNat
  | .flstmp p => p.scope.toNat
  | .flcoll p => p.scope.toNat
  | _ => 65536

/-- The scopes of the packets placed in a queue and not taken; a nest queue's slots have no tags (R47). -/
def queuedScopes (s : State) (qk : Nat) (q : QRec) : List Nat :=
  let r := ridxOf s q
  let n := (widxOf s q + 2 ^ 64 - r) % 2 ^ 64
  ((List.range (Nat.min n q.cap)).filter (fun j => decide (65536 ≤ qk) || tagOf s qk q (r + j) == (r + j) % 2 ^ 64)).map
    (fun j => s.mem.readNat (qslotKey qk q (r + j) + 2) 2)

/-- Scopes of every packet placed and not stamped on the engines of the dies that `p` selects, but those of a queue that has
stopped (R59). -/
def packetScopes (s : State) (p : Nat → Bool) : List Nat :=
  (s.work.queues.filter (fun x => p x.2.die && !x.2.stopped && decide (x.2.kind = .flume))).flatMap
      (fun x => queuedScopes s x.1 x.2) ++
    (s.work.runs.filter (fun x => match s.queue x.1 with
      | some q => p q.die
      | none => false)).map (fun x => packetScope x.2.ins)

/-- Every scope that some work carries (R53): launches queued or taken, steps queued, running or saved, frames, packets placed
in any queue or in execution, commands in execution. -/
def carriedScopes (s : State) : List Nat :=
  (s.work.launches.filter (fun x => decide (x.2.st ≠ .stamped))).map (fun x => x.2.pkt.scope.toNat) ++
    s.work.launches.flatMap (fun x => x.2.saved.map (fun y => y.job.osc.toNat)) ++
    s.work.ops.map (fun x => x.2.scope.toNat) ++
    s.cores.flatMap (fun x =>
      (if x.2.th.job.run = .idle then [] else [x.2.th.job.osc.toNat]) ++ x.2.bind.frames.map (fun f => f.th.job.osc.toNat)) ++
    s.weir.frames.map (fun x => x.2.scope.toNat) ++
    s.arrays.filterMap (fun x => x.2.exec.map (fun e => e.osc.toNat)) ++
    s.work.queues.flatMap (fun x => queuedScopes s x.1 x.2) ++ packetScopes s (fun _ => true)

/-- The creator of a scope is gone (R53). -/
def creatorGone (s : State) (x : Scope) : Bool :=
  match x.creator with
  | .driver => false
  | .launch l => (s.launch l).st == .stamped
  | .frame f => (s.frame f).isNone
  | .gone => true

/-- The open scopes of the subtree of n, n among them. -/
def subtree (s : State) (n : Nat) : List Nat := (s.hg.scopes.filter (fun x => inSubtree s x.1 n)).map (fun x => x.1)

/-- A scope becomes FREE; its serial, CANC and ticket stay (R52, R63). -/
def freeScope (s : State) (n : Nat) : State :=
  s.setScope n { s.scope n with st := .free, parent := none, markFree := false, creator := .gone }

/-- A scope that R53 frees because its creator is gone. -/
def reapable (s : State) (carried : List Nat) (n : Nat) : Bool :=
  let x := s.scope n
  let sub := subtree s n
  match x.st with
  | .live =>
    sub.all (fun m => (s.scope m).st == .live && creatorGone s (s.scope m) && !carried.contains m)
  | .done => creatorGone s x && sub.all (fun m => creatorGone s (s.scope m))
  | _ => false

/-- Every scope whose creator is gone and that R53 frees becomes FREE, with its subtree. -/
def reapScopes (s : State) : State :=
  let carried := carriedScopes s
  s.hg.scopes.foldl (fun s x =>
    if reapable s carried x.1 then (subtree s x.1).foldl freeScope s else s) s

/-- The driver frees a scope and its subtree; what is CANCELLING is marked for freeing instead (R53), and keeps its parent's number
(DESIGN CHOICE, log entry 69). -/
def driverFree (s : State) (n : Nat) : State :=
  (subtree s n).foldl (fun s m =>
    let x := s.scope m
    if x.st = .cancelling then s.setScope m { x with markFree := true } else freeScope s m) s

/-- No work may act for scope n on a die (R59, R60): its cancellation's token has come, or the scope is DONE. -/
def scopeDead (s : State) (die : Nat) (n : BitVec 16) : Bool :=
  (cancelledOn s die n).isSome || decide ((s.scope n.toNat).st = .done)

/-! ### Cores and launches -/

/-- A core is unbound (R30); what it holds stays until another binding. -/
def unbindCore (s : State) (c : Nat) : State :=
  let k := s.core c
  s.setCore c { k with bind := { k.bind with bound := none, preempt := none, fallback := false } }

/-- Every core bound to launch l is unbound. -/
def unbindLaunch (s : State) (l : Nat) : State :=
  (s.cores.filter (fun x => x.2.bind.bound == some l)).foldl (fun s x => unbindCore s x.1) s

/-- The cores of launch l on a die. -/
def shareOf (s : State) (l die : Nat) : List Nat := (launchCores s l).filter (fun c => dieOfCore c == die)

/-- The dies of a launch's rectangle, in increasing physical number (R30). -/
def launchDies (s : State) (l : Nat) : List Nat := (List.range 8).filter (fun d => !(shareOf s l d).isEmpty)

/-- The shares that a pre-empted launch has bound again are given back (R32). -/
def freeShares (s : State) (l : Nat) : State :=
  let x := s.launch l
  if x.st = .preempted then unbindLaunch (s.setLaunch l { x with shares := [] }) l else s

/-- A launch that is parked or waits for binding is cancelled: its status is fixed (R32, R50, R61). Cores lent to it go
back when the lending ends. -/
def cancelLaunch (s : State) (l : Nat) : State :=
  let x := s.launch l
  let s := match x.parent with
    | some p => s.setLaunch p { s.launch p with parked := (s.launch p).parked.filter (fun j => j != l) }
    | none => s
  let s := if x.lent then s else unbindLaunch s l
  let s := (s.cores.filter (fun c => c.2.bind.lendTo == some l)).foldl (fun s c =>
    let k := s.core c.1
    s.setCore c.1 { k with bind := { k.bind with lendTo := none } }) s
  s.setLaunch l { s.launch l with st := .closing, status := some (x.status.getD 0x02), shares := [] }

/-- The sets of a launch's operators, without those of recipe frames. -/
def launchOps (s : State) (l : Nat) : List (Nat × Op) :=
  s.work.ops.filter (fun x => x.2.launch == l && x.2.frame.isNone)

end Sys2Proof.Machine
end

