-- ==== Sys2Proof/Machine/Headgate.lean ====
section
/-! DEFINITION. The steps of the Headgate shards: marking, tokens, acknowledgements, DONE and the cancellation record
(R58-R65), and what a cancel event does to barriers (R258). -/
namespace Sys2Proof.Machine
open Sys2Proof

/-- A ticket (R58): serial and scope. -/
def ticketOf (s : State) (n : Nat) : Word := (0#16 ++ (s.scope n).serial) ++ BitVec.ofNat 16 n

/-- The reply of a home reaches who asked (R58, R312), with the causal stamp (R253); a strand that has been aborted meanwhile is
not there to take it. -/
def replyCancel (s : State) (home : Nat) (who : Asker) (v : Word) : State :=
  match who with
  | .machine => s
  | .strand c n =>
    let s := sendStamp s home (dieOfCore c)
    if (s.th c).job.wait = .cancel n then setWait s c (.cancelDone v) else s
  | .walker l =>
    let s := sendStamp s home (s.launch l).die
    let x := s.launch l
    match x.walk with
    | .cnclReq w => s.setLaunch l { x with walk := if w then .cncl v else .run }
    | _ => s

/-- The home marks scope n and its LIVE descendants and stamps TSTART (R58). -/
def markScope (s : State) (n : Nat) : State :=
  let v := ticketOf s n
  let x := s.scope n
  let sub := subtree s n
  let live := sub.filter (fun m => (s.scope m).st == .live)
  let after := (sub.filter (fun m => (s.scope m).st == .cancelling)).map (fun m => (s.scope m).ticket)
  let rec_ : Cancel := { ctx := x.ctx, home := x.home, scope := n, marked := live, after := after.eraseDups, tstart := s.gtime x.home }
  let s := live.foldl (fun s m => s.setScope m { s.scope m with st := .cancelling, canc := true, ticket := v }) s
  { s with hg := { s.hg with cancels := smPut v.toNat rec_ s.hg.cancels } }

/-- The scope that a request names is still one that its asker may cancel (R58): its number may have been freed and taken again
since. -/
def cancelFits (s : State) (r : CancelReq) : Bool :=
  let x := s.scope r.scope
  scopeOpen x && x.ctx == r.ctx && r.root.all (fun n => inSubtree s r.scope n)

/-- The home serves one cancel request (R58). -/
def serveCancel (s : State) (r : CancelReq) : State :=
  let x := s.scope r.scope
  if !cancelFits s r then replyCancel s r.home r.by_ rBadscope
  else if x.st = .live then replyCancel (markScope s r.scope) r.home r.by_ (ticketOf s r.scope)
  else replyCancel s r.home r.by_ x.ticket

/-- CANCEL_MARK (R58): the home serves the oldest request sent to it. -/
def execCancelMark (home : Nat) (s : State) : Out :=
  let s := reapScopes s
  match s.hg.reqs.find? (fun r => r.home == home) with
  | none => .next s
  | some r => .next (serveCancel { s with hg := { s.hg with reqs := s.hg.reqs.erase r } } r)

/-! ### A token reaches a die (R59, R61) -/

/-- What a cancel event, which marks `marked` and cancels `root`, does to one barrier (R258). -/
def cancelBarrier (s : State) (marked : List Nat) (root ticket key : Nat) : State :=
  let b := s.bar key
  let anc := (ancestors s root).drop 1
  let stay := b.entries.filter (fun e => !marked.contains e.scope.toNat)
  let hit := fun (e : BarEntry) => anc.contains e.scope.toNat
  if stay.length = b.entries.length ∧ !stay.any hit then s
  else
    let entries := stay.map (fun e => if hit e then { e with broken := true } else e)
    let s := s.setBar key { b with entries := entries, reduced := true }
    let s := releaseBar s key (fun sc => entries.any (fun e => e.broken && e.scope == sc)) (barWord b.phase true true)
    (completeBar s key).updCancel ticket (fun x => { x with barriers := x.barriers + 1 })

/-- The barriers of a die that the context holds. -/
def cancelBarriers (s : State) (die ctx : Nat) (marked : List Nat) (root ticket : Nat) : State :=
  (s.bars.filter (fun x => x.1 / 256 == die && x.2.ctx == some ctx)).foldl (fun s x => cancelBarrier s marked root ticket x.1) s

/-- The steps of an operator not yet dispatched to a core. -/
def stepsLeft (o : Op) (total : Nat) (k : OpCore) (width : Nat) : Nat :=
  (if k.next < total then (total - k.next + width - 1) / width else 0) + k.redo.length +
    (o.held.filter (fun h => h.1 % width == k.next % width)).length

/-- Cores of an operator's rectangle. -/
def opWidth (o : Op) : Nat := 2 ^ rectLW o.rect * 2 ^ rectLH o.rect

/-- Queued steps of one operator on a die are discarded (R61). -/
def discardSteps (s : State) (die ticket o : Nat) (x : Op) : State :=
  let w := opWidth x
  let mine := x.cores.filter (fun k => dieOfCore k.core == die)
  let n := (mine.map (fun k => stepsLeft x x.steps k w)).foldl (· + ·) 0
  let gone := mine.map (fun k => k.next % w)
  let cores := x.cores.filter (fun k => dieOfCore k.core != die)
  let held := x.held.filter (fun h => !gone.contains (h.1 % w))
  (s.setOp o { x with cores := cores, left := x.left - n, held := held }).updCancel ticket
    (fun c => { c with discarded := c.discarded + n })

/-- An operator not issued is never spawned (R61): it counts as complete. -/
def dropOp (s : State) (o : Nat) (x : Op) : State := s.setOp o { x with issued := true, left := 0, cores := [], held := [] }

/-- The operators of the marked scopes, as far as a die holds them. -/
def cancelOps (s : State) (die ticket : Nat) (marked : List Nat) : State :=
  s.work.ops.foldl (fun s x =>
    let o := x.2
    if !marked.contains o.scope.toNat then s
    else if o.issued then discardSteps s die ticket x.1 o
    else if (s.launch o.launch).die = die then dropOp s x.1 o else s) s

/-- Storage of a tensor that is not rebuilt after all is freed; it stays DROPPED (R65). -/
def abandonTensor (s : State) (t : Nat) : State :=
  match s.tensor t with
  | none => s
  | some x => s.setTensor t { x with pages := 0, st := .dropped }

/-- The steps aborted for a tensor are ready again, each with its own ready time (R42, R241). -/
def releaseSteps (s : State) (t : Nat) : State :=
  s.work.ops.foldl (fun s o =>
    let x := o.2
    if x.held.any (fun h => h.2.1 == t) then
      let w := opWidth x
      let mine := (x.held.filter (fun h => h.2.1 == t)).map (fun h => (h.1, h.2.2))
      s.setOp o.1 { x with
        held := x.held.filter (fun h => h.2.1 != t),
        cores := x.cores.map (fun k => { k with redo := k.redo ++ mine.filter (fun n => n.1 % w == k.next % w) }) }
    else s) s

/-- A request for a tensor ends; the steps aborted for the tensor are ready again once it is rebuilt, or once nothing
requests it any more. -/
def dropReq (s : State) (r t : Nat) : State :=
  let s := s.delReq r
  if (s.tensor t).any (fun x => x.st == .dropped) && s.weir.reqs.any (fun y => y.2.t == t) then s else releaseSteps s t

/-- A recipe frame is discarded (R65): requesters outside the marked scopes start afresh, those inside are gone. -/
def discardFrame (s : State) (marked : List Nat) (f : Nat) (x : Frame) : State :=
  let s := abandonTensor (s.delFrame f) x.t
  let s := (s.work.ops.filter (fun o => o.2.frame == some f && !o.2.issued)).foldl (fun s o => s.delOp o.1) s
  (s.weir.reqs.filter (fun r => r.2.t == x.t)).foldl (fun s r =>
    if marked.contains r.2.scope.toNat then dropReq s r.1 x.t else s.setReq r.1 { r.2 with st := .pending }) s

def cancelFrames (s : State) (die ticket : Nat) (marked : List Nat) : State :=
  (s.weir.frames.filter (fun x => x.2.die == die && marked.contains x.2.scope.toNat)).foldl (fun s x =>
    (discardFrame s marked x.1 x.2).updCancel ticket (fun c => { c with frames := c.frames + x.2.pushed.toNat })) s

/-- Strands of the marked scopes that a pre-emption saved from a die's cores are discarded (R50, R59). -/
def cancelSaved (s : State) (die : Nat) (marked : List Nat) : State :=
  s.work.launches.foldl (fun s x =>
    let mine := fun (y : SavedStrand) => dieOfCore y.core == die && marked.contains y.job.osc.toNat
    if !x.2.saved.any mine then s
    else
      let s := (x.2.saved.filter mine).foldl (fun s y => dropSuspended s y.job) s
      s.setLaunch x.1 { s.launch x.1 with saved := x.2.saved.filter (fun y => !mine y) }) s

/-- Suspended strands of the marked scopes in the lend frames of a die's cores (R50). -/
def cancelLent (s : State) (die : Nat) (marked : List Nat) : State :=
  (s.cores.filter (fun x => dieOfCore x.1 == die)).foldl (fun s x =>
    let gone := x.2.bind.frames.filter (fun f => marked.contains f.th.job.osc.toNat)
    let s := gone.foldl (fun s f => dropSuspended s f.th.job) s
    let k := s.core x.1
    s.setCore x.1 { k with bind := { k.bind with frames := k.bind.frames.filter (fun f => !marked.contains f.th.job.osc.toNat) } }) s

/-- A launch of a marked scope, at its lead die (R61): one parked or waiting for binding has its status fixed; one that
waits to be bound again gives back the shares it holds (R32); the walk of a running one ends at its kill point, which a page it
waits for no longer holds up. -/
def cancelOne (s : State) (ticket l : Nat) (x : Launch) : State :=
  let count := fun (s : State) => s.updCancel ticket (fun c => { c with launches := c.launches + 1 })
  match x.st with
  | .parked | .binding => count (cancelLaunch s l)
  | .running | .preempting | .preempted =>
    let s := freeShares s l
    s.setLaunch l { s.launch l with walk := if x.walk = .ended then .ended else .killed, park := .run }
  | _ => s

def cancelLaunches (s : State) (die ticket : Nat) (marked : List Nat) : State :=
  (s.work.launches.filter (fun x => x.2.die == die && decide (x.2.st ≠ .stamped) &&
    marked.contains x.2.pkt.scope.toNat)).foldl (fun s x => cancelOne s ticket x.1 x.2) s

/-- The fault-handler strands of the marked scopes on a die, which nothing awaits (R64). -/
def handlersOn (s : State) (die : Nat) (marked : List Nat) : Nat :=
  (s.cores.filter (fun x => dieOfCore x.1 == die && decide (x.2.th.job.run ≠ .idle) && x.2.th.trap.kind == 1#2 &&
    marked.contains x.2.th.job.osc.toNat)).length

/-- CANCEL_TOKEN (R59, R61, R253): the token brings the home's causal stamp, and the die applies the fates to the work it holds
for the marked scopes; strands, queues, commands and packets meet theirs at their kill points. -/
def execCancelToken (die : Nat) (ticket : Word) (s : State) : Out :=
  let v := ticket.toNat
  match smFind v s.hg.cancels with
  | none => .next s
  | some x =>
    if x.told.contains die ∨ !(ctxDies s x.ctx).contains die then .next s
    else
      let s := sendStamp s x.home die
      let s := s.updCancel v (fun c => { c with told := die :: c.told, hstrands := c.hstrands + handlersOn s die x.marked })
      let s := cancelBarriers s die x.ctx x.marked x.scope v
      let s := cancelFrames s die v x.marked
      let s := cancelOps s die v x.marked
      let s := cancelSaved (cancelLent s die x.marked) die x.marked
      .next (cancelLaunches s die v x.marked)

/-! ### Acknowledgement and DONE (R59, R62) -/

/-- A die holds no work of the subtree of a cancellation any more (R59), no suspended strand among it. A launch whose stamp waits
only for its fault handler is not awaited (R64). -/
def dieClear (s : State) (die root : Nat) : Bool :=
  let sub := fun (n : Nat) => inSubtree s n root
  !(s.cores.any (fun x => dieOfCore x.1 == die && decide (x.2.th.job.run ≠ .idle) && decide (x.2.th.trap.kind ≠ 1#2) &&
      sub x.2.th.job.osc.toNat)) &&
    !(s.cores.any (fun x => dieOfCore x.1 == die && x.2.bind.frames.any (fun f => sub f.th.job.osc.toNat))) &&
    !(s.work.launches.any (fun x => x.2.saved.any (fun y => dieOfCore y.core == die && sub y.job.osc.toNat))) &&
    !(s.arrays.any (fun x => x.1 / 16 == die && (match x.2.exec with
      | some e => sub e.osc.toNat
      | none => false))) &&
    !((packetScopes s (fun d => d == die)).any sub) &&
    !(s.work.ops.any (fun x => sub x.2.scope.toNat && x.2.issued && x.2.cores.any (fun k =>
      dieOfCore k.core == die && decide (0 < stepsLeft x.2 x.2.steps k (opWidth x.2))))) &&
    !(s.work.launches.any (fun x => x.2.die == die && sub x.2.pkt.scope.toNat &&
      (x.2.st == .parked || x.2.st == .binding || (x.2.st == .closing && !x.2.hrun)))) &&
    !(s.weir.frames.any (fun x => x.2.die == die && sub x.2.scope.toNat))

/-- CANCEL_ACK (R59), a token with the die's causal stamp (R253). -/
def execCancelAck (die : Nat) (ticket : Word) (s : State) : Out :=
  let v := ticket.toNat
  match smFind v s.hg.cancels with
  | none => .next s
  | some x =>
    if x.told.contains die ∧ !x.acked.contains die ∧ dieClear s die x.scope then
      .next ((sendStamp s die x.home).updCancel v (fun c => { c with acked := die :: c.acked, tdone := s.gtime x.home }))
    else .next s

/-- The count of a record's field, saturating (R62). -/
def satCount (bits n : Nat) : Nat := Nat.min n (2 ^ bits - 1)

/-- The fields of a cancellation record (Table 3-7), the ticket last. -/
def cancelFields (v : Word) (x : Cancel) : List (Nat × Nat × Nat) :=
  [(0, 8, x.tstart.toNat), (8, 8, x.tdone.toNat), (16, 4, satCount 32 x.killed), (20, 4, satCount 32 x.discarded),
    (24, 4, satCount 32 x.launches), (28, 4, satCount 32 x.packets), (32, 4, satCount 32 x.frames),
    (36, 4, satCount 32 x.atomics), (40, 2, satCount 16 x.barriers), (42, 2, satCount 16 x.marked.length),
    (44, 1, satCount 8 x.acked.length), (45, 1, satCount 8 x.hstrands), (46, 10, 0), (56, 8, v.toNat)]

/-- Writes the cancellation record where CRBASE registers an area and the write does not fault (R62). -/
def writeCancel (s : State) (v : Word) (x : Cancel) : State :=
  let base := (s.ctx x.ctx).regs.crbase
  let a := base + BitVec.ofNat 64 (64 * x.scope)
  if base = 0 then s
  else match seqCheck s x.ctx x.home .write a 64 with
    | .ok key _ =>
      let s := sendStamp s x.home (seqTarget s x.ctx x.home a key)
      { s with mem := (cancelFields v x).foldl (fun m f => m.writeNat (key + f.1) f.2.1 f.2.2) s.mem }
    | _ => s

/-- The line of the record that the host holds (R276). -/
def recordLine (s : State) (x : Cancel) : Option Nat :=
  match seqCheck s x.ctx x.home .write ((s.ctx x.ctx).regs.crbase + BitVec.ofNat 64 (64 * x.scope)) 64 with
  | .held l => if (s.ctx x.ctx).regs.crbase = 0 then none else some l
  | _ => none

/-- The running launches of the marked scopes have their status fixed (R61, R62). A frame of such a launch whose own scope the
cancellation has not reached, since the driver had freed it, is discarded with its operators (R65; DESIGN CHOICE, log entry 69). -/
def doneLaunches (s : State) (v : Nat) (marked : List Nat) : State :=
  (s.work.launches.filter (fun x =>
    (x.2.st == .running || x.2.st == .preempting || x.2.st == .preempted) && marked.contains x.2.pkt.scope.toNat)).foldl
      (fun s x =>
        let y := s.launch x.1
        let s := if y.status.isNone then s.updCancel v (fun c => { c with launches := c.launches + 1 }) else s
        let s := (s.weir.frames.filter (fun f => f.2.launch == x.1)).foldl (fun s f => discardFrame s marked f.1 f.2) s
        let s := (s.work.ops.filter (fun o => o.2.launch == x.1)).foldl (fun s o => s.delOp o.1) s
        s.setLaunch x.1 { y with st := .closing, walk := .killed, park := .run, status := some (y.status.getD 0x02),
                                 handlers := if y.hrun then y.handlers.take 1 else [] }) s

/-- The marked scopes become DONE, and FREE at once where marked for freeing (R53). -/
def doneScopes (s : State) (x : Cancel) : State :=
  let s := x.marked.foldl (fun s m => s.setScope m { s.scope m with st := .done }) s
  x.marked.foldl (fun s m => if (s.scope m).markFree then freeScope s m else s) s

/-- CANCEL_DONE (R62): every die has acknowledged, and the cancellations it follows are DONE. -/
def execCancelDone (ticket : Word) (s : State) : Out :=
  let v := ticket.toNat
  match smFind v s.hg.cancels with
  | none => .next s
  | some x =>
    if !(ctxDies s x.ctx).all (fun d => x.acked.contains d) ∨ x.after.any (fun t => (smFind t.toNat s.hg.cancels).isSome) then
      .next s
    else match recordLine s x with
      | some line => .next (sendSnoop s line)
      | none =>
        let s := doneLaunches s v x.marked
        let s := writeCancel s ticket ((smFind v s.hg.cancels).getD x)
        let s : State := { s with hg := { s.hg with cancels := smDel v s.hg.cancels } }
        .next (reapScopes (doneScopes s x))

/-! ### Tokens -/

/-- TOKEN_DELIVER (R66): the token reaches its channel; one strand's tokens to one channel keep their order. -/
def execTokenDeliver (i : Nat) (s : State) : Out :=
  match s.flight[i]? with
  | none => .next s
  | some f =>
    if (s.flight.take i).any (fun g => g.chan == f.chan && g.core == f.core) then .next s
    else
      let h := s.chan f.chan
      let s : State := { s with flight := s.flight.eraseIdx i }
      .next (s.setChan f.chan { h with fifo := h.fifo ++ [f.tok] })

end Sys2Proof.Machine
end

