-- ==== Sys2Proof/Machine/Weir.lean ====
section
/-! DEFINITION. The Weir (R230-R244, R358): tensor records, tiers and victims, references, recipe frames. -/
namespace Sys2Proof.Machine
open Sys2Proof

/-! ### Handles and records -/

/-- The key of the record that a handle names in a context (R210, R264); none where its home is not bound. -/
def handleKey (s : State) (ctx : Nat) (h : BitVec 32) : Option Nat :=
  (vdieOf (s.ctx ctx).vdmap (nbits h.toNat 28 4)).map (fun p => p * 2 ^ 20 + nbits h.toNat 8 20)

/-- The record at a key; one never used is FREE with generation 0. -/
def tensorAt (s : State) (t : Nat) : Tensor := (s.tensor t).getD {}

/-- The record a handle names, unless it is stale (R210): FREE, of another generation or of another context. -/
def liveTensor (s : State) (ctx : Nat) (h : BitVec 32) : Option Nat :=
  match handleKey s ctx h with
  | none => none
  | some t =>
    let x := tensorAt s t
    if nbits h.toNat 8 20 = 0 ∨ x.st = .free ∨ x.ctx ≠ ctx ∨ x.gen ≠ h.extractLsb' 0 8 then none else some t

/-- The handle of a record. -/
def handleOf (x : Tensor) (t : Nat) : BitVec 32 := BitVec.ofNat 4 x.vdie ++ BitVec.ofNat 20 t ++ x.gen

/-- The die of a record's shard. -/
def homeDie (t : Nat) : Nat := t / 2 ^ 20

/-- Pages of an uncompressed tensor (R230). -/
def Tensor.full (x : Tensor) : Nat := (x.size + 4095) / 4096

/-- The records that an operator names as inputs, and as outputs. -/
def opIns (s : State) (o : Op) : List Nat := o.ins.filterMap (fun h => if h = 0 then none else handleKey s (s.launch o.launch).ctx h)
def opOuts (s : State) (o : Op) : List Nat := o.outs.filterMap (fun h => if h = 0 then none else handleKey s (s.launch o.launch).ctx h)

/-- USE (Table 10-1): named by an issued, incomplete operator with steps, or pinned by a packet. -/
def inUse (s : State) (t : Nat) : Bool :=
  s.work.ops.any (fun x => x.2.issued && x.2.tier.isNone && ((opIns s x.2).contains t || (opOuts s x.2).contains t)) ||
    s.work.runs.any (fun x => x.2.pins.contains t)

/-- RBLD (Table 10-1): the frame that rebuilds a tensor. -/
def frameFor (s : State) (t : Nat) : Option Nat := (s.weir.frames.find? (fun x => x.2.t == t)).map (fun x => x.1)

/-! ### Tiers -/

/-- The tier that a state lies in. -/
def TSt.tier : TSt → Option TSt
  | .cis | .cmpCis => some .cis
  | .hbm | .cmpHbm => some .hbm
  | .t2 | .cmpT2 => some .t2
  | _ => Option.none

def TSt.compressed : TSt → Bool
  | .cmpCis | .cmpHbm | .cmpT2 => true
  | _ => false

/-- Pages of the second tier that the package has: 6 TiB on the module, and on ports C and D what expanders hold there, up to
10 TiB (R11, Table 1-3; R285). -/
def t2Pages (s : State) : Nat :=
  let cap := fun (e : Expander) => if e.failed then 0 else e.cap
  (6 * 2 ^ 40 + Nat.min (10 * 2 ^ 40) (cap (s.mem.exps.get 0) + cap (s.mem.exps.get 1))) / 4096

/-- Pages of a tier that a shard has (R231, R238): its Cistern, and one eighth of what the driver granted, at most what the package
has (R11): 768 GiB of HBM, and the second tier. -/
def tierCap (s : State) (tier : TSt) : Nat :=
  match tier with
  | .cis => 524288
  | .hbm => Nat.min Config.hbmGrant (768 * 2 ^ 18) / 8
  | _ => Nat.min (Config.t2Grant (s.mem.exps.get 0).failed (s.mem.exps.get 1).failed) (t2Pages s) / 8

/-! ### The word-repeat scheme (R358) and the pages in use -/

/-- Words of a line that are not repeated. -/
def lineFresh (m : Mem) (key : Nat) : Nat → Nat → Nat
  | 0, _ => 0
  | n + 1, last =>
    let w := m.readNat key 4
    (if w = last then 0 else 1) + lineFresh m (key + 4) n w

/-- Bytes of a line's form. -/
def lineForm (m : Mem) (key : Nat) : Nat := Nat.min 128 ((4 + 4 * lineFresh m key 32 0 + 15) / 16 * 16)

/-- Bytes of the forms of n lines from a key, with a header for each page begun. -/
def linesForm (m : Mem) (key n : Nat) : Nat :=
  (List.range n).foldl (fun acc j => acc + (if j % 32 = 0 then 16 else 0) + lineForm m (key + 128 * j)) 0

/-- Pages of a tensor's compressed form. -/
def formPages (s : State) (t : Nat) (x : Tensor) : Nat :=
  (linesForm s.mem (tensorKey t 0) ((x.size + 127) / 128) + 4095) / 4096

/-- Pages of a tier that a record occupies, and that the destination of its move takes; `coming` counts what is there once
the moves under way are done. A tensor is compressed where it lies. -/
def pagesIn (s : State) (t : Nat) (x : Tensor) (tier : TSt) (coming : Bool) : Nat :=
  let here := if x.st.tier = some tier then x.pages else 0
  (match x.move with
    | none => here
    | some d =>
      let size := if !d.compressed then x.full else if x.st.compressed then x.pages else formPages s t x
      let there := if d.tier = some tier then size else 0
      if d.compressed && d.tier == x.st.tier then (if coming then there else here)
      else (if coming then 0 else here) + there) +
    (match frameFor s t with
    | some f => if ((s.frame f).map (fun y => y.tier)) = some tier then x.pages else 0
    | none => 0)

/-- Pages of a die's tier in use. -/
def tierUsed (s : State) (die : Nat) (tier : TSt) (coming : Bool) : Nat :=
  (s.weir.tensors.filter (fun x => homeDie x.1 == die)).foldl (fun n x => n + pagesIn s x.1 x.2 tier coming) 0

/-- CR as the probe measures it. -/
def probeCr (s : State) (t : Nat) (x : Tensor) : Nat :=
  let lines := (Nat.min x.size 65536 + 127) / 128
  let c := linesForm s.mem (tensorKey t 0) lines
  Nat.min 255 ((256 * c + 128 * lines - 1) / (128 * lines))

/-! ### Next uses (R236) -/

/-- The reference launch of a tensor, if it runs. -/
def refRunning (s : State) (x : Tensor) : Option Launch :=
  match x.refl with
  | none => none
  | some l =>
    let y := s.launch l
    if y.st = .running ∨ y.st = .preempting ∨ y.st = .preempted then some y else none

/-- What the read of a use list finds from its entry `i` on (R236): no use left, the next use, an entry that cannot be read,
or one on a line that the host holds. -/
inductive UseRd where
  | past (i : Nat)
  | use (i u : Nat)
  | unread (i : Nat)
  | held (line : Nat)
  deriving DecidableEq, Repr

/-- The first use not below a position, from entry i of n left. -/
def nextUse (s : State) (x : Tensor) (pos : Nat) : Nat → Nat → UseRd
  | 0, i => .past i
  | n + 1, i =>
    match seqCheck s x.ctx ((vdieOf (s.ctx x.ctx).vdmap x.vdie).getD 0) .read (x.uses + BitVec.ofNat 64 (4 * i)) 4 with
    | .ok key _ =>
      let u := s.mem.readNat key 4
      if u < pos then nextUse s x pos n (i + 1) else .use i u
    | .held line => .held line
    | _ => .unread i

/-- A valid recipe of a tensor that is not FREE reads t. -/
def readBy (s : State) (t : Nat) : Bool :=
  s.weir.tensors.any (fun y => y.2.rv && decide (y.2.st ≠ .free) && y.2.inputs.any (fun h => handleKey s y.2.ctx h == some t))

def weirReg (s : State) (ctx i : Nat) : Nat := ((s.ctx ctx).weir.toList.getD i 0).toNat

/-- UCUR, NUD and whether the tensor has no further use, at a victim choice; an entry that cannot be read counts as a use at
the horizon. -/
def useOf (s : State) (t : Nat) (x : Tensor) : Nat × Nat × Bool :=
  let far := weirReg s x.ctx 5
  match refRunning s x with
  | none => (x.ucur, far, false)
  | some l =>
    match nextUse s x l.position (x.ucnt - x.ucur) x.ucur with
    | .use i u => (i, Nat.min (u - l.position) far, false)
    | .past i => (i, far, !readBy s t)
    | .unread i => (i, far, false)
    | .held _ => (x.ucur, far, false)

/-! ### Victims (R237) -/

/-- Frames needed to rebuild a tensor dropped now (R237); a chain longer than any WDEPTH counts as that long. -/
def needOf (s : State) (x : Tensor) : Nat → Nat
  | 0 => 8
  | n + 1 =>
    1 + x.inputs.foldl (fun m h =>
      match liveTensor s x.ctx h with
      | some t => if (tensorAt s t).st = .dropped then Nat.max m (needOf s (tensorAt s t) n) else m
      | none => m) 0

/-- A tensor becomes FREE: its storage goes and its generation rises (R232, R234). -/
def freeTensor (s : State) (t : Nat) : State :=
  let x := tensorAt s t
  let s : State := { s with mem := s.mem.clear (tensorKey t 0) x.size }
  s.setTensor t { gen := x.gen + 1, st := .free }

/-- A tensor becomes DROPPED: its storage is freed. -/
def dropTensor (s : State) (t : Nat) : State :=
  let x := tensorAt s t
  let s : State := { s with mem := s.mem.clear (tensorKey t 0) x.size }
  s.setTensor t { x with st := .dropped, pages := 0, loc := 0 }

/-- n bytes from an address of the second tier meet the range of an expander that was removed or failed (R285). -/
def meetsLost (m : Mem) (a n : Nat) : Bool :=
  let lo := 0x10000000000 + 6 * 2 ^ 40
  let mid := lo + (m.exps.get 0).cap
  let hi := mid + (m.exps.get 1).cap
  ((m.exps.get 0).failed && decide (a < mid) && decide (lo < a + n)) ||
    ((m.exps.get 1).failed && decide (a < hi) && decide (mid < a + n))

/-- An address of the second tier from a free value, for n pages: nothing is placed in the range of a lost expander (R285). -/
def t2Loc (m : Mem) (v n : Nat) : Nat :=
  let at_ := fun (room : Nat) => 0x10000000000 + v / 4096 * 4096 % (room - 4096 * n)
  let a := at_ (16 * 2 ^ 40)
  if paBacked m .t2 a && paBacked m .t2 (a + 4096 * n - 1) && !meetsLost m a (4096 * n) then a else at_ (6 * 2 ^ 40)

/-- The dies of a tier's memory that hold a tensor's storage, apart from its home's Cistern (R230, R269): every memory die for HBM, the
I/O dies of its first and last page for the second tier. -/
def tierDies (s : State) (t : Nat) : List Nat :=
  let x := tensorAt s t
  match x.st.tier with
  | some .hbm => (List.range 8).map (fun h => 8 + h)
  | some .t2 => ([x.loc.toNat, x.loc.toNat + 4096 * (x.pages - 1)].filterMap (storingDie s.mem .t2)).eraseDups
  | _ => []

/-- Storage in a tier has an address there, which the spec leaves open. -/
def newLoc (s : State) (t : Nat) : State :=
  let (k, s) := s.tick
  let x := tensorAt s t
  let v := Config.freeWord k
  s.setTensor t { x with loc := if x.st.tier = some .t2 then BitVec.ofNat 64 (t2Loc s.mem v.toNat x.pages) else v }

/-- The first and the last address in the second tier at which n bytes of a tensor from a byte on are stored: where it lies
compressed, those of the forms of their lines (R358). -/
def t2Bytes (s : State) (t : Nat) (x : Tensor) (off n : Nat) : Nat × Nat :=
  let lo := x.loc.toNat
  if x.st.compressed then
    (lo + linesForm s.mem (tensorKey t 0) (off / 128), lo + linesForm s.mem (tensorKey t 0) ((off + n - 1) / 128 + 1) - 1)
  else (lo + off, lo + off + n - 1)

/-- Bytes of a tensor's storage lie in the range of an expander that was removed or failed (R285). -/
def storageLost (s : State) (t off n : Nat) : Bool :=
  let x := tensorAt s t
  let b := t2Bytes s t x off n
  decide (x.st.tier = some .t2) && (expanderLost s.mem .t2 b.1 || expanderLost s.mem .t2 b.2)

/-- What a victim can undergo. -/
inductive Victim where
  | compress | move | drop
  deriving DecidableEq, Repr

/-- The tier below and the state of a victim there. -/
def downState : TSt → Option TSt
  | .cis => some .hbm
  | .cmpCis => some .cmpHbm
  | .hbm => some .t2
  | .cmpHbm => some .cmpT2
  | _ => none

def compState : TSt → Option TSt
  | .cis => some .cmpCis
  | .hbm => some .cmpHbm
  | _ => none

def satCost (x : Nat) : Nat := Nat.min x (2 ^ 64 - 1)

/-- The actions whose conditions hold, with their costs, cheapest first (ties: compress, move, drop). -/
def victimActions (s : State) (t : Nat) : List Victim :=
  let x := tensorAt s t
  let r := weirReg s x.ctx
  let comp := if (compState x.st).isSome ∧ x.cr.toNat ≤ 128 ∧ formPages s t x < x.full then
      [(Victim.compress, satCost (x.full * r 2))] else []
  let down := if (downState x.st).isSome then
      [(Victim.move, satCost (x.pages * (if x.st.tier = some .cis then r 0 else r 1) * 2))] else []
  let drop := if x.rv ∧ needOf s x 8 ≤ r 4 then [(Victim.drop, satCost ((x.flops + 999999999) / 1000000000 * r 3))] else []
  let all := comp ++ down ++ drop
  (all.mergeSort (fun a b => decide (a.2 ≤ b.2))).map (fun a => a.1)

/-- The tier that a code names. -/
def tierOf : Nat → TSt
  | 0 => .cis
  | 1 => .hbm
  | _ => .t2

/-- An issued XFER that is not complete has placed the tensor (R354). -/
def xferPlaced (s : State) (t : Nat) (x : Tensor) : Bool :=
  s.work.ops.any (fun o => o.2.issued && o.2.tier.any (fun k => tierOf k == x.st) && (opIns s o.2).contains t)

/-- The candidates of a die's tier. -/
def candidates (s : State) (die : Nat) (tier : TSt) (out : List Nat) : List Nat :=
  (s.weir.tensors.filter (fun x => homeDie x.1 == die && x.2.st.tier == some tier && !x.2.pin && x.2.move.isNone &&
    !inUse s x.1 && (frameFor s x.1).isNone && !xferPlaced s x.1 x.2 && !out.contains x.1)).map (fun x => x.1)

/-- A line of a use list that a victim choice on a die must read and that the host holds (R236, R276). -/
def heldUse (s : State) (die : Nat) : Option Nat :=
  s.weir.tensors.findSome? (fun x =>
    if homeDie x.1 ≠ die ∨ x.2.st.tier = none then none
    else (refRunning s x.2).bind (fun l =>
      match nextUse s x.2 l.position (x.2.ucnt - x.2.ucur) x.2.ucur with
      | .held line => some line
      | _ => none))

/-- a is chosen before b: the larger NUD, the larger SIZE, the lower handle. -/
def chosenBefore (s : State) (a b : Nat) : Bool :=
  let x := tensorAt s a
  let y := tensorAt s b
  decide (y.nud.toNat < x.nud.toNat) ||
    (x.nud == y.nud && (decide (y.size < x.size) ||
      (x.size == y.size && decide ((handleOf x a).toNat < (handleOf y b).toNat))))

def bestOf (s : State) : List Nat → Option Nat
  | [] => none
  | a :: as =>
    match bestOf s as with
    | none => some a
    | some b => if chosenBefore s a b then some a else some b

/-- UCUR and NUD of the candidates, and those without further use freed (R236, R237). -/
def refreshUses (s : State) (cs : List Nat) : State :=
  cs.foldl (fun s t =>
    let x := tensorAt s t
    let u := useOf s t x
    if u.2.2 then freeTensor s t else s.setTensor t { x with ucur := u.1, nud := BitVec.ofNat 32 u.2.1 }) s

/-- Pages of a tier that are free once the moves under way are done. -/
def roomLeft (s : State) (die : Nat) (tier : TSt) : Nat := tierCap s tier - tierUsed s die tier true

mutual
/-- Room of `need` pages in a die's tier (R237), and whether there is room then. `n` bounds the choices, `out` names what is
no candidate. -/
def makeRoom : Nat → State → Nat → TSt → Nat → List Nat → State × Bool
  | 0, s, die, tier, need, _ => (s, decide (need ≤ roomLeft s die tier))
  | n + 1, s, die, tier, need, out =>
    if need ≤ roomLeft s die tier then (s, true)
    else
      let s := refreshUses s (candidates s die tier out)
      if need ≤ roomLeft s die tier then (s, true)
      else match bestOf s (candidates s die tier out) with
        | none => (s, false)
        | some v => makeRoom n (victimise n s v (victimActions s v)) die tier need (v :: out)
/-- The first action of a list that can be taken is taken. A move into a tier where too little room can be made is not
available: what was freed there stays freed. -/
def victimise : Nat → State → Nat → List Victim → State
  | 0, s, _, _ => s
  | _, s, _, [] => s
  | n + 1, s, v, a :: as =>
    let x := tensorAt s v
    match a with
    | .compress => s.setTensor v { x with move := compState x.st }
    | .drop => dropTensor s v
    | .move =>
      match (downState x.st).bind (fun d => d.tier) with
      | none => victimise n s v as
      | some tier =>
        let r := makeRoom n s (homeDie v) tier x.pages [v]
        if r.2 then r.1.setTensor v { tensorAt r.1 v with move := downState x.st } else victimise n r.1 v as
end

/-- Bound on the choices of one request. -/
def roomFuel (s : State) : Nat := 4 * s.weir.tensors.length + 8

/-- Where new storage comes to lie (R238): placed now, waiting for moves to end, or no tier admits it. -/
inductive Placed where
  | at_ (tier : TSt) (s : State)
  | wait (s : State)
  | none (s : State)
  deriving DecidableEq, Repr

/-- Tries one tier; a victim choice waits for the lines of the use lists that the host holds (R236, R276). -/
def placeIn (s : State) (die : Nat) (tier : TSt) (need : Nat) (out : List Nat) : Placed :=
  if roomLeft s die tier < need ∧ (heldUse s die).isSome then .wait (sendSnoop s ((heldUse s die).getD 0))
  else
  let r := makeRoom (roomFuel s) s die tier need out
  if !r.2 then .none r.1
  else if need + tierUsed r.1 die tier false ≤ tierCap r.1 tier then .at_ tier r.1 else .wait r.1

/-- The named tier first, then HBM, then the second tier. -/
def placeNew (s : State) (die : Nat) (tier : TSt) (need : Nat) : Placed :=
  match placeIn s die tier need [] with
  | .none s =>
    match placeIn s die .hbm need [] with
    | .none s => placeIn s die .t2 need []
    | r => r
  | r => r

/-! ### Reports to the fault handler (R35, R243) -/

/-- A fault is reported to the launch's handler; a launch without one is cancelled and stamps FAULT. -/
def reportFault (s : State) (l : Nat) (cause : BitVec 8) (tval : Word) (src : HSrc) : State :=
  let x := s.launch l
  if x.pkt.fhe = 0 then failLaunch s l
  else s.setLaunch l { x with handlers := x.handlers ++ [{ cause := cause, tval := tval, src := src }] }

def reportReq (s : State) (r : Nat) (x : WReq) (cause : BitVec 8) : State :=
  let h := handleOf (tensorAt s x.t) x.t
  reportFault (s.setReq r { x with st := .reported }) x.launch cause (h.zeroExtend 64) (.req r)

/-! ### Requests (R240, R241) -/

/-- The die of who references a tensor. -/
def askerDie (s : State) (x : WReq) : Nat :=
  match x.by_ with
  | .op o => ((s.op o).map (opDie s)).getD (homeDie x.t)
  | .packet q => ((s.queue q).map (fun y => y.die)).getD (homeDie x.t)
  | .walker l => (s.launch l).die
  | .shard => homeDie x.t

/-- Adds a request, which reaches the tensor's shard with the causal stamp (R253); its number. -/
def addReq (s : State) (x : WReq) : Nat × State :=
  let (r, s) := (sendStamp s (askerDie s x) (homeDie x.t)).tick
  (r, s.setReq r x)

/-- A request of someone for a tensor already stands. -/
def hasReq (s : State) (t : Nat) (w : WBy) : Bool := s.weir.reqs.any (fun r => r.2.t == t && r.2.by_ == w)

/-- The chain of frames that leads to a frame, itself first. -/
def frameChain (s : State) : Nat → Option Nat → List Nat
  | 0, _ => []
  | _, none => []
  | n + 1, some f => f :: frameChain s n (s.frame f |>.bind (fun x => x.parent))

/-- A request by a frame's operator for an input that the chain of frames is rebuilding (R240). -/
def cyclic (s : State) (x : WReq) : Bool :=
  (match x.by_ with
    | .op o => (s.op o).any (fun y => y.tier.isNone)
    | _ => false) && (frameChain s 8 x.frame).any (fun g => (s.frame g).map (fun y => y.t) == some x.t)

/-- The tier into which a written compressed tensor expands (Table 10-3). -/
def expandTo : TSt → Option TSt
  | .cmpCis => some .cis
  | .cmpHbm | .cmpT2 => some .hbm
  | _ => none

/-- The tier that a request asks for: a packet's, the one into which the tensor expands as it lies now (R234). -/
def wantTier (y : Tensor) (x : WReq) (tier : TSt) : TSt :=
  match x.by_ with
  | .packet _ => (expandTo y.st).getD y.st
  | _ => tier

/-- The service of a request for a tensor that lies in a tier (R233, R234): a move into the named tier, or the expansion of one
that a packet writes, which needs none where it is compressed no more. -/
def serveMove (s : State) (r : Nat) (x : WReq) (place : TSt) : State :=
  let y := tensorAt s x.t
  let tier := wantTier y x place
  if y.move.isSome then s
  else if y.st = tier then s.setReq r { x with st := .ready }
  else match placeIn s (homeDie x.t) tier y.full [x.t] with
    | .none s => reportReq s r x cNoRoom
    | .wait s => s
    | .at_ _ s => (s.setTensor x.t { tensorAt s x.t with move := some tier }).setReq r { x with st := .waiting }

/-- The frame takes a place on its die's sequencer, if one of the eight is free (R241). -/
def pushFrame (s : State) (f : Nat) : State :=
  match s.frame f with
  | none => s
  | some x =>
    if x.pushed ∨ 8 ≤ (s.weir.frames.filter (fun g => g.2.die == x.die && g.2.pushed)).length then s
    else s.setFrame f { x with pushed := true }

/-- Storage, RBLD and the recipe scope of a re-issue; the push of its frame, which waits while the die is full (R241). -/
def startFrame (s : State) (r : Nat) (x : WReq) (tier : TSt) (n : Nat) : State :=
  let die := homeDie x.t
  let y := tensorAt s x.t
  let (f, s) := s.tick
  let s := allocScope s n y.ctx (some x.scope.toNat) (s.scope x.scope.toNat).home (.frame f)
  let s : State := { s with mem := s.mem.clear (tensorKey x.t 0) y.size }
  let s := s.setTensor x.t { y with pages := y.full }
  let s := s.setFrame f { t := x.t, launch := x.launch, die := die, depth := x.depth + 1, parent := x.frame,
                          scope := BitVec.ofNat 16 n, prio := x.prio, tier := tier, pc := y.recipe, left := y.rlen }
  pushFrame (s.setReq r { x with st := .waiting }) f

/-- Re-issue of a DROPPED tensor (R241). No recipe scope is made below a scope that is CANCELLING: the request waits for the
cancel token, which ends it (R52, R244; DESIGN CHOICE, log entry 69). A requester's scope at level 64, which can have no child, gives NOROOM
as a lack of scope numbers does (DESIGN CHOICE, log entry 98). -/
def serveDropped (s : State) (r : Nat) (x : WReq) : State :=
  let die := homeDie x.t
  let y := tensorAt s x.t
  if (s.scope x.scope.toNat).st = .cancelling then s
  else if cyclic s x then reportReq s r x cRecipeDepth
  else if (frameFor s x.t).isSome then s.setReq r { x with st := .waiting }
  else if weirReg s y.ctx 4 < x.depth + 1 then reportReq s r x cRecipeDepth
  else match placeNew s die .cis y.full with
    | .none s => reportReq s r x cNoRoom
    | .wait s => s
    | .at_ tier s =>
      match (if 64 ≤ (ancestors s x.scope.toNat).length then none else pickScope s) with
      | none => reportReq s r x cNoRoom
      | some n => startFrame s r x tier n

/-- The XFER that a request serves, if it is one (R354). -/
def reqXfer (s : State) (x : WReq) : Option Op :=
  match x.by_ with
  | .op o => (s.op o).bind (fun y => if y.tier.isSome then some y else none)
  | _ => none

/-- An XFER whose handle has become stale has no effect (R354). -/
def xferStale (s : State) (x : WReq) : Bool :=
  match reqXfer s x with
  | some y => y.ins.all (fun h => (liveTensor s (s.launch x.launch).ctx h).isNone)
  | none => false

/-- Two requests are of XFERs, and that of `z` is to be served before that of `x` (R354): a higher priority, then the earlier
issue. -/
def xferAfter (s : State) (x z : WReq) : Bool :=
  match reqXfer s x, reqXfer s z with
  | some y, some w => decide (x.prio.toNat < z.prio.toNat) || (x.prio == z.prio && decide (w.issueNo < y.issueNo))
  | _, _ => false

/-- Another XFER at the shard is to be served first (R354). -/
def xferBehind (s : State) (x : WReq) : Bool :=
  s.weir.reqs.any (fun r => r.2.st == .pending && homeDie r.2.t == homeDie x.t && xferAfter s x r.2)

/-- An XFER of a frame meets the tensor that its own frame rebuilds: it reaches the new storage, in the tier the XFER names
(R233, R240); none where the request is no such XFER. -/
def xferOwn (s : State) (r : Nat) (x : WReq) : Option State :=
  match reqXfer s x, frameFor s x.t, x.place with
  | some y, some f, some tier =>
    if y.frame ≠ some f then none
    else (s.frame f).map (fun g =>
      if g.tier = tier then s.setReq r { x with st := .ready }
      else match placeIn s (homeDie x.t) tier (tensorAt s x.t).full [x.t] with
        | .none s => reportReq s r x cNoRoom
        | .wait s => s
        | .at_ _ s => (s.setFrame f { g with tier := tier }).setReq r { x with st := .ready })
  | _, _, _ => none

/-- RECIPE_FRAME_PUSH (R241): the shard serves one request: it moves a tensor, joins or pushes a frame, or reports a
fault; the push to a full die is a kill point. -/
def execRecipeFramePush (r : Nat) (s : State) : Out :=
  match s.req r with
  | none => .next s
  | some x =>
    if x.st = .waiting then .next (match frameFor s x.t with
      | some f => pushFrame s f
      | none => s)
    else if x.st ≠ .pending ∨ xferBehind s x then .next s
    else if scopeDead s (homeDie x.t) x.scope ∨ !walking (s.launch x.launch) then .next (dropReq s r x.t)
    else if xferStale s x then .next (s.setReq r { x with st := .ready })
    else
      let y := tensorAt s x.t
      match y.st, x.place with
      | .free, _ => .next (s.setReq r { x with st := .ready })
      | .dropped, _ => .next ((xferOwn s r x).getD (serveDropped s r x))
      | _, some tier => .next (serveMove s r x tier)
      | _, none => .next (s.setReq r { x with st := .ready })

/-- The requests waiting for a tensor are ready; one that names a tier in which the tensor does not lie, as where it was rebuilt
elsewhere, is served again (R233, R354), and so is an XFER that is to follow such a one. -/
def readyReqs (s : State) (t : Nat) : State :=
  let y := tensorAt s t
  let away := fun (x : WReq) => x.place.any (fun tier => y.st != wantTier y x tier)
  let mine := s.weir.reqs.filter (fun r => r.2.t == t && r.2.st == .waiting)
  mine.foldl (fun s r =>
    let again := away r.2 || mine.any (fun z => away z.2 && xferAfter s r.2 z.2)
    s.setReq r.1 { r.2 with st := if again then .pending else .ready }) s

/-- FRAME_COMPLETE (R241): its records are walked and its operators complete; the tensor takes its tier's state. A frame whose
scope is cancelled does not complete: the token discards it (R65, R244); one whose scope the driver has freed does (R53). -/
def execFrameComplete (f : Nat) (s : State) : Out :=
  match s.frame f with
  | none => .next s
  | some x =>
    if x.walk ≠ .ended ∨ !uncancelled s x.scope ∨ s.work.ops.any (fun o => o.2.frame == some f) then .next s
    else
      let s := s.delFrame f
      let s := s.setTensor x.t { tensorAt s x.t with st := x.tier, probe := true }
      .next (reapScopes (readyReqs (newLoc s x.t) x.t))

/-- A request ends, and its requester goes on. -/
def endReq (s : State) (r : Nat) (x : WReq) : State :=
  let s := dropReq s r x.t
  match x.by_ with
  | .op _ => s
  | .packet q =>
    match s.run q with
    | some y => if y.req = some r then s.setRun q { y with req := none } else s
    | none => s
  | .walker l =>
    let y := s.launch l
    if y.walk = .home r then s.setLaunch l { y with walk := .run } else s
  | .shard => s

/-- REQUESTER_RELEASE (R241): the service token, with the causal stamp (R253), reaches the requester, which goes on. -/
def execRequesterRelease (r : Nat) (s : State) : Out :=
  match s.req r with
  | none => .next s
  | some x => if x.st ≠ .ready then .next s else .next (endReq (sendStamp s (homeDie x.t) (askerDie s x)) r x)

/-- The requests that were reported to a launch that is over end with it. -/
def dropReports (s : State) (l : Nat) : State :=
  (s.weir.reqs.filter (fun r => r.2.launch == l && r.2.st == .reported)).foldl (fun s r => endReq s r.1 r.2) s

/-- VICTIM_MOVE_COMPLETE (R234): the data has moved, with the causal stamp (R253), its destination has the pages, and the record shows the new state. -/
def execVictimMoveComplete (t : Nat) (s : State) : Out :=
  let x := tensorAt s t
  match x.move with
  | none => .next s
  | some d =>
    let tier := d.tier.getD .cis
    if tierCap s tier < tierUsed s (homeDie t) tier false then .next s
    else
      let pages := if d.compressed then (if x.st.compressed then x.pages else formPages s t x) else x.full
      let s := newLoc (s.setTensor t { x with st := d, move := none, pages := pages }) t
      .next (readyReqs ((tierDies s t).foldl (fun s d => sendStamp s (homeDie t) d) s) t)

/-- TENSOR_PROBE (R234, R358): once its writers are complete. -/
def execTensorProbe (t : Nat) (s : State) : Out :=
  let x := tensorAt s t
  if !x.probe ∨ x.st.tier = none ∨ x.move.isSome ∨ x.size = 0 ∨ s.work.ops.any (fun o => (opOuts s o.2).contains t) ∨
      (frameFor s t).isSome then .next s
  else .next (s.setTensor t { x with cr := BitVec.ofNat 8 (probeCr s t x), probe := false })

/-! ### Recipes (R239) -/

/-- The DROPPED tensors whose valid recipe reads t. -/
def dependents (s : State) (t : Nat) : List Nat :=
  (s.weir.tensors.filter (fun y => y.2.rv && y.2.st == .dropped && y.2.inputs.any (fun h => handleKey s y.2.ctx h == some t))).map
    (fun y => y.1)

/-- RV is cleared in every tensor whose recipe reads t. -/
def clearReaders (s : State) (t : Nat) : State :=
  (s.weir.tensors.filter (fun y => y.2.rv && y.2.inputs.any (fun h => handleKey s y.2.ctx h == some t))).foldl
    (fun s y => s.setTensor y.1 { tensorAt s y.1 with rv := false }) s

end Sys2Proof.Machine
end

