-- ==== Sys2Proof/Machine/Seq.lean ====
section
/-! DEFINITION. The stream walkers and the records they execute (R33-R39, R239, R241, R312, R317, R327, R331, R353,
R354, R357), TNEW, TDEL and TPIN at the home shard (R231, R232), and posting an event (R284). -/
namespace Sys2Proof.Machine
open Sys2Proof

/-- Who walks: a launch's walker, or a recipe frame in its launch. -/
structure Walker where
  l : Nat
  f : Option Nat
  deriving DecidableEq, Repr

def walkerOf (s : State) : Option Walker :=
  match s.agent with
  | .walker l => some { l := l, f := Option.none }
  | .frame f => (s.frame f).map (fun x => { l := x.launch, f := some f })
  | _ => Option.none

def walkPc (s : State) (w : Walker) : Word :=
  match w.f with
  | none => (s.launch w.l).pc
  | some f => ((s.frame f).map (fun x => x.pc)).getD 0

def setWalk (s : State) (w : Walker) (x : WalkSt) : State :=
  match w.f with
  | none => s.setLaunch w.l { s.launch w.l with walk := x }
  | some f =>
    match s.frame f with
    | some y => s.setFrame f { y with walk := x }
    | none => s

def setWalkPark (s : State) (w : Walker) (x : ParkSt) : State :=
  match w.f with
  | none => s.setLaunch w.l { s.launch w.l with park := x }
  | some f =>
    match s.frame f with
    | some y => s.setFrame f { y with park := x }
    | none => s

/-- The walk goes on at an address; a frame's ends after its last record. -/
def goTo (s : State) (w : Walker) (pc : Word) : State :=
  match w.f with
  | none => s.setLaunch w.l { s.launch w.l with pc := pc, walk := .run }
  | some f =>
    match s.frame f with
    | some y => s.setFrame f { y with pc := pc, left := y.left - 1, walk := if y.left ≤ 1 then .ended else .run }
    | none => s

def nextRec (s : State) (w : Walker) : State := goTo s w (walkPc s w + 32)

def walkDie (s : State) (w : Walker) : Nat :=
  match w.f with
  | none => (s.launch w.l).die
  | some f => ((s.frame f).map (fun x => x.die)).getD 0

def walkCtx (s : State) (w : Walker) : Nat := (s.launch w.l).ctx

/-- A stream fault (R35, R242): the walk stops at the record, which goes to the fault handler. -/
def streamFault (s : State) (w : Walker) : State :=
  let src := match w.f with
    | none => HSrc.walker
    | some f => .frame f
  reportFault (setWalk s w .faulted) w.l cIllegal (walkPc s w) src

/-- The walker parks at its record with a fault record of AGENT 6 (R317). -/
def walkPark (s : State) (w : Walker) (va : Word) : State :=
  let (who, sub) := match w.f with
    | none => (w.l, 0)
    | some f => (f, 1)
  let r := postFault s (walkCtx s w) va agSeq .read (walkDie s w) (Config.unitNumber (walkDie s w)) who sub
  setWalkPark r.2 w (.wait r.1)

/-- A read by the walker (R317): it goes on with the value, parks, faults the record, or takes a line back. -/
def walkRead (s : State) (w : Walker) (r : SRd) (k : Nat → Out) : Out :=
  match r with
  | .ok v => k v
  | .fault => .next (streamFault s w)
  | .absent va => .next (walkPark s w va)
  | .held line => .next (sendSnoop s line)

/-! ### KEEP waits (R357) -/

/-- The operators of a walk's own stream. -/
def ownOps (s : State) (w : Walker) : List (Nat × Op) :=
  s.work.ops.filter (fun x => x.2.launch == w.l && x.2.frame == w.f)

def walkEntered (s : State) (w : Walker) : Nat :=
  match w.f with
  | none => (s.launch w.l).entered
  | some f => ((s.frame f).map (fun x => x.entered)).getD 0

/-- Every operator that a KEEP wait covers is complete: all but the `keep` that entered last. -/
def keepOver (s : State) (w : Walker) (keep : Nat) : Bool :=
  !((ownOps s w).any (fun x => decide (x.2.num + keep < walkEntered s w)))

def walkState (s : State) (w : Walker) : WalkSt :=
  match w.f with
  | none => (s.launch w.l).walk
  | some f => ((s.frame f).map (fun x => x.walk)).getD .ended

/-- The KEEP wait of a record, then its effect. -/
def keepWait (s : State) (w : Walker) (keep : BitVec 8) (k : Out) : Out :=
  if walkState s w = .keepDone || keepOver s w keep.toNat then k
  else if w.f.isSome then .next s else .next (setWalk s w (.keep keep.toNat))

/-- KEEP_WAIT_END (R357). -/
def execKeepWaitEnd (l : Nat) (s : State) : Out :=
  match (s.launch l).walk with
  | .keep n => .next (if keepOver s { l := l, f := none } n then s.setLaunch l { s.launch l with walk := .keepDone } else s)
  | _ => .next s

/-! ### Records that a recipe may not hold (R239) -/

/-- Runs a record of a launch's stream; in a recipe it is a stream fault. -/
def streamOnly (s : State) (k : Walker → Out) : Out :=
  match walkerOf s with
  | none => .next s
  | some w => if w.f.isSome then .next (streamFault s w) else k w

/-- Runs a record of either. -/
def anyStream (s : State) (k : Walker → Out) : Out :=
  match walkerOf s with
  | none => .next s
  | some w => k w

/-- OFF counts records from the record itself (R353). -/
def offTarget (pc : Word) (off : BitVec 32) : Word := pc + 32 * off.signExtend 64

/-- JMP (R34). -/
def execJmp (off : BitVec 32) (s : State) : Out :=
  streamOnly s fun w => .next (goTo s w (offTarget (walkPc s w) off))

/-- SYNC (R34). -/
def execSync (keep : BitVec 8) (s : State) : Out :=
  anyStream s fun w => keepWait s w keep (.next (nextRec s w))

/-- END (R34). -/
def execSeqEnd (s : State) : Out := streamOnly s fun w => .next (setWalk s w .ended)

/-- The condition word of a record (R317). -/
def condRead (s : State) (w : Walker) (cwi : BitVec 16) : SRd :=
  seqRead s (walkCtx s w) (walkDie s w) 4 1 ((s.launch w.l).pkt.condb + 4 * cwi.zeroExtend 64)

/-- The read of a condition word is an acquire at package scope of what its home and the sequencer's die have been sent, tokens
among it (R253, R317). -/
def condAcquire (s : State) (w : Walker) (cwi : BitVec 16) : State :=
  let a := (s.launch w.l).pkt.condb + 4 * cwi.zeroExtend 64
  match seqCheck s (walkCtx s w) (walkDie s w) .read a 4 with
  | .ok key _ => takeStamps s (walkDie s w) [walkDie s w, seqTarget s (walkCtx s w) (walkDie s w) a key]
  | _ => s

/-- IFC (R34, R317). -/
def execIfc (off : BitVec 32) (cwi : BitVec 16) (keep : BitVec 8) (s : State) : Out :=
  streamOnly s fun w => keepWait s w keep <|
    walkRead s w (condRead s w cwi) fun v =>
      let s := condAcquire s w cwi
      .next (if v = 0 then goTo s w (offTarget (walkPc s w) off) else nextRec s w)

/-- The while stack above and with an entry for a record, latest first: the entries kept below, and its count on this
arrival. -/
def whileEntry (a : Word) : List (Word × BitVec 32) → Option (Nat × List (Word × BitVec 32))
  | [] => none
  | x :: xs => if x.1 = a then some (x.2.toNat + 1, xs) else whileEntry a xs

/-- WHL (R36, R353). -/
def execWhl (off : BitVec 32) (cwi : BitVec 16) (keep : BitVec 8) (bound : BitVec 32) (s : State) : Out :=
  streamOnly s fun w =>
    if bound = 0 then .next (streamFault s w)
    else keepWait s w keep <|
      walkRead s w (condRead s w cwi) fun v =>
        let s := condAcquire s w cwi
        let a := walkPc s w
        let x := s.launch w.l
        let (n, below) := (whileEntry a x.whiles).getD (1, x.whiles)
        if (whileEntry a x.whiles).isNone && decide (8 ≤ x.whiles.length) then .next (streamFault s w)
        else if v = 0 ∨ bound.toNat < n then
          .next (goTo (s.setLaunch w.l { x with whiles := below }) w (offTarget a off))
        else .next (nextRec (s.setLaunch w.l { x with whiles := (a, BitVec.ofNat 32 n) :: below }) w)

/-! ### SIGH -/

/-- LOG of a queue register, if it enables the queue (Table 12-9). -/
def hostQueueLog (base : Word) : Option Nat :=
  let n := nbits base.toNat 0 5
  if 6 ≤ n ∧ n ≤ 16 then some n else none

/-- The key of record k of a host queue. -/
def hostQueueKey (base : Word) (log k : Nat) : Nat := hostKey (nbits base.toNat 12 44 * 2 ^ 12 + 32 * (k % 2 ^ log))

/-- Posts a 32-byte event record (R284); none where the event queue is full. -/
def postEvent (s : State) (ctx : Nat) (value : Word) (slot queue kind die : Nat) : Option State :=
  let x := s.ctx ctx
  let r := x.regs
  match hostQueueLog r.eqbase with
  | none => none
  | some log =>
    if 2 ^ log ≤ (r.eqwr - r.eqrd).toNat then none
    else
      let key := hostQueueKey r.eqbase log r.eqwr.toNat
      let m := (((((s.mem.writeNat key 8 value.toNat).writeNat (key + 8) 8 slot).writeNat (key + 16) 2 queue).writeNat
        (key + 18) 1 kind).writeNat (key + 19) 5 die).writeNat (key + 24) 8 (s.gtime die).toNat
      let s := sendStamp { s with mem := m } die (hostDie s ctx)
      some (raiseVector (s.setCtx ctx { x with regs := { r with eqwr := r.eqwr + 1 } }) ctx)

/-- The queue number an event shows: the nest queue's is 0x1_0000, of which 16 bits are shown. -/
def shownQueue (q : Nat) : Nat := if 65536 ≤ q then 0 else q

/-- SIGH (R34, R284, R331). -/
def execSigh (keep : BitVec 8) (value : Word) (s : State) : Out :=
  streamOnly s fun w => keepWait s w keep <|
    let x := s.launch w.l
    match postEvent s x.ctx value x.slot (shownQueue x.queue) 1 x.die with
    | none => .next s
    | some s => .next (nextRec s w)

/-! ### CNCL -/

/-- CNCL (R312): a FREE scope has no effect; the ticket of the home's reply is awaited with WAIT = 1. -/
def execCncl (scope : BitVec 16) (wait : Bool) (s : State) : Out :=
  streamOnly s fun w =>
    let n := scope.toNat
    if (s.scope n).st = .free then .next (nextRec s w)
    else if !inSubtree s n (s.launch w.l).pkt.scope.toNat then .next (streamFault s w)
    else
      let x := s.launch w.l
      .next (setWalk (askCancel (nextRec s w) (walkDie s w) n (.walker w.l) x.ctx (some x.pkt.scope.toNat)) w (.cnclReq wait))

/-! ### OPR and XFER -/

/-- A valid rectangle code (R25). -/
def rectValid (s : State) (ctx : Nat) (r : BitVec 15) : Bool :=
  let w := 2 ^ rectLW r
  let h := 2 ^ rectLH r
  decide (rectLW r ≤ 5) && decide (rectLH r ≤ 4) && decide (rectX r % w = 0) && decide (rectY r % h = 0) &&
    allFrom (fun j => (coreAt (s.ctx ctx).vdmap (rectX r + j % w) (rectY r + j / w)).isSome) 0 (w * h)

/-- Rectangle a lies within rectangle b. -/
def rectWithin (a b : BitVec 15) : Bool :=
  decide (rectX b ≤ rectX a) && decide (rectY b ≤ rectY a) &&
    decide (rectX a + 2 ^ rectLW a ≤ rectX b + 2 ^ rectLW b) && decide (rectY a + 2 ^ rectLH a ≤ rectY b + 2 ^ rectLH b)

/-- Loop j of an OPB's 512 bits; none where malformed (R38). -/
def opbLoop (v nloop j : Nat) : Option Loop :=
  let x := nbits v (128 + 64 * j) 64
  let l : Loop := { ord := nbits x 48 3, tile := nbits x 32 16, extent := nbits x 0 32 }
  if nbits x 51 13 ≠ 0 ∨ l.tile = 0 ∨ l.extent = 0 ∨ nloop ≤ l.ord then none else some l

/-- The loops from j on. -/
def opbLoops (v nloop : Nat) : Nat → Nat → Option (List Loop)
  | 0, _ => some []
  | n + 1, j =>
    match opbLoop v nloop j, opbLoops v nloop n (j + 1) with
    | some l, some ls => some (l :: ls)
    | _, _ => none

/-- ENTRY and the loops of an OPB; none where it is malformed (R37, R38). -/
def readOpb (v : Nat) : Option (Word × List Loop) :=
  let n := nbits v 64 3
  if nbits v 57 7 ≠ 0 ∨ nbits v 67 61 ≠ 0 ∨ n = 0 ∨ n = 7 then none
  else match opbLoops v n n 0 with
    | none => none
    | some ls =>
      if (List.range n).all (fun k => ls.any (fun l => l.ord == k)) then some (BitVec.ofNat 64 (nbits v 0 57), ls) else none

def Loop.tiles (l : Loop) : Nat := (l.extent + l.tile - 1) / l.tile

/-- Steps of an operator (R39). -/
def stepCount (ls : List Loop) : Nat := ls.foldl (fun n l => n * l.tiles) 1

/-- A handle with index 0 names none (R33). -/
def normHandle (h : BitVec 32) : BitVec 32 := if nbits h.toNat 8 20 = 0 then 0 else h

/-- Every handle of a list names a live tensor. -/
def handlesLive (s : State) (ctx : Nat) (hs : List (BitVec 32)) : Bool :=
  hs.all (fun h => decide (h = 0) || (liveTensor s ctx h).isSome)

/-- The outputs are allowed (R35, R239, R327): at least one, no tensor twice; in a recipe, the frame's own tensor only. -/
def outsOk (s : State) (w : Walker) (outs : List (BitVec 32)) : Bool :=
  let named := (outs.filter (fun h => h ≠ 0)).map (handleKey s (walkCtx s w))
  match w.f with
  | none => !named.isEmpty && decide named.Nodup
  | some f => decide (named = [(s.frame f).map (fun x => x.t)])

/-- The scoreboard has no room (R34, R241). -/
def boardFull (s : State) (w : Walker) : Bool :=
  match w.f with
  | none => decide (64 ≤ (launchOps s w.l).length)
  | some _ =>
    let d := walkDie s w
    decide (8 ≤ (s.work.ops.filter (fun x => match x.2.frame with
      | some g => (s.frame g).map (fun y => y.die) == some d
      | none => false)).length)

/-- A frame's operators have its scope; a stream's scope lies in the launch scope's subtree (R35, R241). -/
def recScope (s : State) (w : Walker) (scope : BitVec 16) : Option (BitVec 16) :=
  match w.f with
  | some f => (s.frame f).map (fun x => x.scope)
  | none => if inSubtree s scope.toNat (s.launch w.l).pkt.scope.toNat then some scope else none

/-- A frame's operator takes the higher of its PRIO and the requester's (R241). -/
def recPrio (s : State) (w : Walker) (prio : BitVec 5) : BitVec 5 :=
  let p := match w.f with
    | some f => Nat.max prio.toNat (((s.frame f).map (fun x => x.prio.toNat)).getD 0)
    | none => prio.toNat
  if w.f.isSome then BitVec.ofNat 5 (Nat.min p (s.launch w.l).pkt.prio.toNat) else prio

/-- The reference launch of records the loader created (R236). -/
def noteUses (s : State) (l : Nat) (ts : List Nat) : State :=
  ts.foldl (fun s t =>
    let x := tensorAt s t
    if x.byLoader then s.setTensor t { x with refl := some l } else s) s

/-- An operator enters the scoreboard, and the walk goes on. -/
def enterOp (s : State) (w : Walker) (x : Op) (opr : Bool) : State :=
  let (o, s) := s.tick
  let s := s.setOp o { x with launch := w.l, frame := w.f, num := walkEntered s w }
  let s := match w.f with
    | none =>
      let y := s.launch w.l
      s.setLaunch w.l { y with entered := y.entered + 1, position := if opr then y.position + 1 else y.position }
    | some f =>
      match s.frame f with
      | some y => s.setFrame f { y with entered := y.entered + 1 }
      | none => s
  nextRec s w

/-- OPR (R34, R35, R327): the checks, the read of its OPB, and its entry into the scoreboard. -/
def execOpr (r : OprRec) (s : State) : Out :=
  anyStream s fun w =>
    let x := s.launch w.l
    let ins := [r.in0, r.in1, r.in2, r.in3].map normHandle
    let outs := [r.out0, r.out1].map normHandle
    if boardFull s w then .next s
    else match recScope s w r.scope with
      | none => .next (streamFault s w)
      | some sc =>
        if !rectValid s x.ctx r.rect || !rectWithin r.rect x.pkt.rect || !outsOk s w outs ||
            !handlesLive s x.ctx (ins ++ outs) then .next (streamFault s w)
        else
          let a := x.pkt.opbtab + 64 * r.opbi.zeroExtend 64
          walkRead s w (seqRead s x.ctx (walkDie s w) 8 8 a) fun v =>
            match readOpb v with
            | none => .next (streamFault s w)
            | some (entry, loops) =>
              let op : Op := { launch := w.l, num := 0, prio := recPrio s w r.prio, tclass := r.tclass, rect := r.rect,
                               scope := sc, opb := a, entry := entry, loops := loops, ins := ins, outs := outs,
                               steps := stepCount loops, left := stepCount loops }
              let s := if w.f.isNone then noteUses s w.l (opIns s op ++ opOuts s op) else s
              .next (enterOp s w op true)

/-- The walk waits at an XFER: it names a DROPPED tensor, which is not the one its own frame rebuilds (R240). -/
def xferHeld (s : State) (o : Nat) : Bool :=
  (s.op o).any (fun x => (opIns s x).any (fun t =>
    (tensorAt s t).st == .dropped && (x.frame.isNone || frameFor s t != x.frame)))

/-- The walk goes on after its wait at an XFER; a frame's last record ends it. -/
def leaveXfer (s : State) (w : Walker) : State :=
  setWalk s w (if (w.f.bind (fun f => s.frame f)).any (fun y => decide (y.left = 0)) then .ended else .run)

/-- XFER (R34, R354): it enters the scoreboard; the walk waits there while its tensor is DROPPED (R240). -/
def execXfer (prio : BitVec 5) (tier : BitVec 3) (scope : BitVec 16) (h : BitVec 32) (s : State) : Out :=
  anyStream s fun w =>
    if boardFull s w then .next s
    else match recScope s w scope with
      | none => .next (streamFault s w)
      | some sc =>
        if 3 ≤ tier.toNat ∨ (liveTensor s (walkCtx s w) h).isNone then .next (streamFault s w)
        else
          let op : Op := { launch := w.l, num := 0, tier := some tier.toNat, prio := prio, scope := sc, ins := [h] }
          let o := s.fresh
          let s := enterOp s w op false
          .next (if xferHeld s o then setWalk s w (.xfer o) else s)

/-! ### TNEW, TDEL, TPIN (R231, R232) -/

/-- A descriptor's extents, dimension 0 first. -/
def descExts (v : Nat) : List Nat := (List.range 5).map (fun j => nbits v (64 + 16 * j) 16)

/-- A descriptor is malformed (R231). -/
def descBad (v : Nat) : Bool :=
  let fmt := nbits v 0 4
  let rank := nbits v 4 3
  let e := descExts v
  let recipe := nbits v 192 64
  let rlen := nbits v 256 5
  decide (nbits v 7 1 ≠ 0) || decide (nbits v 11 53 ≠ 0) || decide (nbits v 144 48 ≠ 0) || decide (nbits v 261 59 ≠ 0) ||
    decide (nbits v 368 16 ≠ 0) || decide (nbits v 464 48 ≠ 0) || !packetEtOk fmt || decide (rank = 0) || decide (5 < rank) ||
    (e.take rank).any (fun x => x == 0) || (e.drop rank).any (fun x => x != 0) || decide (nbits v 8 2 = 3) ||
    decide (16 < rlen) || (decide (rlen ≠ 0) && (decide (recipe = 0) || decide (recipe % 32 ≠ 0))) ||
    (decide (nbits v 10 1 = 1) && decide (rlen = 0)) || decide (nbits v 384 64 % 4 ≠ 0)

/-- The record a descriptor makes (R232), without storage. -/
def descTensor (ctx : Nat) (h : BitVec 32) (desc : Word) (v : Nat) (inputs : List (BitVec 32)) (l : Nat) : Tensor :=
  let shape := (descExts v).take (nbits v 4 3)
  let rlen := nbits v 256 5
  { ctx := ctx, vdie := nbits h.toNat 28 4, gen := h.extractLsb' 0 8, st := .dropped, rv := decide (0 < rlen), rlen := rlen,
    desc := desc, fmt := nbits v 0 4, shape := shape, size := shape.foldl (· * ·) (packetWidth (nbits v 0 4)),
    recipe := BitVec.ofNat 64 (nbits v 192 64), flops := nbits v 320 48, uses := BitVec.ofNat 64 (nbits v 384 64),
    ucnt := nbits v 448 16, inputs := inputs, refl := some l }

/-- The input handles of an OPR record. -/
def recInputs (r : BitVec 256) : List (BitVec 32) :=
  match decodeRecord r with
  | some (.opr x) => [x.in0, x.in1, x.in2, x.in3].filter (fun h => nbits h.toNat 8 20 ≠ 0)
  | _ => []

/-- The handles that n records of a recipe name as inputs, from the bits of the records. -/
def recipeInputs (v : Nat) : Nat → List (BitVec 32)
  | 0 => []
  | n + 1 => recInputs (BitVec.ofNat 256 v) ++ recipeInputs (v / 2 ^ 256) n

/-- TNEW's storage (R232, R238). -/
def createTensor (s : State) (w : Walker) (t : Nat) (h : BitVec 32) (x : Tensor) (v : Nat) : Out :=
  let done := fun (s : State) => Host.Outcome.next (nextRec s w)
  if nbits v 10 1 = 1 then done (s.setTensor t x)
  else match placeNew s (homeDie t) (tierOf (nbits v 8 2)) x.full with
    | .none s => .next (reportFault (setWalk s w .faulted) w.l cNoRoom (h.zeroExtend 64) .walker)
    | .wait s => .next s
    | .at_ tier s =>
      let s : State := { s with mem := s.mem.clear (tensorKey t 0) x.size }
      done (newLoc (s.setTensor t { x with st := tier, pages := x.full }) t)

/-- TNEW (R232). A record of its recipe that cannot be read is a stream fault of the TNEW, as a descriptor is (DESIGN CHOICE, log
entry 70). -/
def execTnew (h : BitVec 32) (desc : Word) (s : State) : Out :=
  streamOnly s fun w =>
    let ctx := walkCtx s w
    match handleKey s ctx h with
    | none => .next (streamFault s w)
    | some t =>
      if nbits h.toNat 8 20 = 0 ∨ desc.toNat % 8 ≠ 0 then .next (streamFault s w)
      else walkRead s w (seqRead s ctx (walkDie s w) 8 8 desc) fun v =>
        let old := tensorAt s t
        if descBad v ∨ old.st ≠ .free ∨ old.gen ≠ h.extractLsb' 0 8 then .next (streamFault s w)
        else
          let rlen := nbits v 256 5
          walkRead s w (seqRead s ctx (walkDie s w) 32 rlen (BitVec.ofNat 64 (nbits v 192 64))) fun rs =>
            createTensor s w t h (descTensor ctx h desc v (recipeInputs rs rlen).eraseDups w.l) v

/-! ### The loader (R121, R238) -/

/-- The keys of an image's records. -/
def loadKeys (s : State) (ctx : Nat) (recs : List LoadRec) : List (Option Nat) := recs.map (fun x => handleKey s ctx x.h)

/-- The loader's records name distinct FREE records by their handles, the generation of one used before, and give descriptors
that are not malformed. -/
def loadFits (s : State) (ctx : Nat) (recs : List LoadRec) : Bool :=
  (s.ctx ctx).live && decide (loadKeys s ctx recs).Nodup && recs.all (fun x =>
    decide (nbits x.h.toNat 8 20 ≠ 0) && (x.reserve || !descBad x.fields.toNat) && (match handleKey s ctx x.h with
      | none => false
      | some t => (s.tensor t).all (fun y => decide (y.st = .free) && y.gen == x.h.extractLsb' 0 8)))

/-- One record: it is reserved, or created with zero-filled storage, in the Cistern first (R238). -/
def loadOne (s : State) (ctx : Nat) (x : LoadRec) : Placed :=
  match handleKey s ctx x.h with
  | none => .none s
  | some t =>
    if x.reserve then .at_ .cis (s.setTensor t { gen := x.h.extractLsb' 0 8 })
    else
      let y := { descTensor ctx x.h x.desc x.fields.toNat x.inputs 0 with refl := none, byLoader := true }
      match placeNew s (homeDie t) .cis y.full with
      | .at_ tier s =>
        let s : State := { s with mem := s.mem.clear (tensorKey t 0) y.size }
        .at_ tier (newLoc (s.setTensor t { y with st := tier, pages := y.full }) t)
      | r => r

def loadEach (ctx : Nat) : List LoadRec → State → Placed
  | [], s => .at_ .cis s
  | x :: xs, s =>
    match loadOne s ctx x with
    | .at_ _ s => loadEach ctx xs s
    | r => r

/-- The records of an image are as they were. -/
def undoLoad (before s : State) (ctx : Nat) (recs : List LoadRec) : State :=
  (loadKeys s ctx recs).foldl (fun s k => match k with
    | none => s
    | some t =>
      let s : State := { s with mem := s.mem.clear (tensorKey t 0) (tensorAt s t).size }
      { s with weir := { s.weir with tensors := match before.tensor t with
        | some y => smPut t y s.weir.tensors
        | none => smDel t s.weir.tensors } }) s

/-- Step 4 of a load (R121): every record of the image is placed, or LOADERR_ROOM is reported and nothing is changed; while the
room made is still in motion, none is (DESIGN CHOICE, log entry 60). -/
def loadImage (s : State) (ctx : Nat) (recs : List LoadRec) : State :=
  if !loadFits s ctx recs then s
  else match loadEach ctx recs s with
    | .at_ _ t => t
    | .wait t => undoLoad s t ctx recs
    | .none _ => logEv s "LOADERR_ROOM" [ctx]

/-- A request of a launch's walker, at depth 0. -/
def walkReq (s : State) (w : Walker) (t : Nat) : WReq :=
  let x := s.launch w.l
  { t := t, by_ := .walker w.l, launch := w.l, depth := 0, frame := none, scope := x.pkt.scope, prio := x.pkt.prio }

/-- Asks for each tensor of a list once. -/
def askAll (s : State) (mk : Nat → WReq) (ts : List Nat) : State :=
  ts.foldl (fun s t => if hasReq s t (mk t).by_ then s else (addReq s (mk t)).2) s

/-- TDEL (R232): it waits for USE, RBLD and moves, then for the tensors that a valid recipe rebuilds from this one. -/
def execTdel (h : BitVec 32) (s : State) : Out :=
  streamOnly s fun w =>
    match liveTensor s (walkCtx s w) h with
    | none => .next (nextRec s w)
    | some t =>
      if inUse s t || (frameFor s t).isSome || (tensorAt s t).move.isSome then .next s
      else match (dependents s t).filter (fun d => d ≠ t) with
        | [] => .next (nextRec (freeTensor (clearReaders s t) t) w)
        | ds => .next (askAll s (walkReq s w) ds)

/-- TPIN (R232). -/
def execTpin (h : BitVec 32) (pin : Bool) (s : State) : Out :=
  streamOnly s fun w =>
    match liveTensor s (walkCtx s w) h with
    | none => .next (streamFault s w)
    | some t =>
      let s := s.setTensor t { tensorAt s t with pin := pin }
      if pin ∧ (tensorAt s t).st = .dropped then
        let (r, s) := addReq s (walkReq s w t)
        .next (setWalk s w (.home r))
      else .next (nextRec s w)

/-! ### The move of a walker -/

/-- What a walker does when it moves: a record to execute, or a move of its own. -/
def fetchRecord (s : State) (w : Walker) : Option Instr × State :=
  match seqRead s (walkCtx s w) (walkDie s w) 32 1 (walkPc s w) with
  | .ok v =>
    match decodeRecord (BitVec.ofNat 256 v) with
    | some i => (some i, s)
    | none => (none, streamFault s w)
  | .fault => (none, streamFault s w)
  | .absent va => (none, walkPark s w va)
  | .held line => (none, sendSnoop s line)

/-- The walker of launch l moves (R34, R312, R317, R331): its kill point, its waits, the next record unless the scoreboard is
full. The end of CNCL's wait is an acquire at system scope. -/
def walkerMove (s : State) (l : Nat) : Option Instr × State :=
  let x := s.launch l
  let w : Walker := { l := l, f := none }
  if !walking x || x.walk == .ended || x.walk == .killed then (none, s)
  else match x.walk with
    | .cnclReq _ => (none, s)
    | _ =>
      if scopeDead s x.die x.pkt.scope then (none, setWalkPark (setWalk s w .killed) w .run)
      else match x.park, x.walk with
        | .wait _, _ => (none, s)
        | .bad _, _ => (none, streamFault (setWalkPark s w .run) w)
        | .run, .xfer o => (none, if xferHeld s o then s else leaveXfer s w)
        | .run, .cncl v =>
          (none, if ticketState s v = some false then s else setWalk (takeStamps s x.die (List.range 18)) w .run)
        | .run, .run => if boardFull s w then (none, s) else fetchRecord s w
        | .run, .keepDone => if boardFull s w then (none, s) else fetchRecord s w
        | .run, _ => (none, s)

/-- Recipe frame f moves (R241): its push, then its records. -/
def frameMove (s : State) (f : Nat) : Option Instr × State :=
  match s.frame f with
  | none => (none, s)
  | some x =>
    let w : Walker := { l := x.launch, f := some f }
    if !x.pushed then (none, pushFrame s f)
    else match x.park, x.walk with
    | .wait _, _ => (none, s)
    | .bad _, _ => (none, streamFault (setWalkPark s w .run) w)
    | .run, .xfer o => (none, if xferHeld s o then s else leaveXfer s w)
    | .run, .run => fetchRecord s w
    | .run, _ => (none, s)

end Sys2Proof.Machine
end

