-- ==== Sys2Proof/Machine/Launch.lean ====
section
/-! DEFINITION. The sequencers: taking launch packets (R26-R28, R46-R48), gang binding (R30-R32), issue and completion of
operators (R34, R239, R240, R354), dispatch (R39, R40, R44), pre-emption (R45, R299), lending (R49, R50), stamps (R29). -/
namespace Sys2Proof.Machine
open Sys2Proof

/-! ### Taking a launch packet -/

/-- A launch waits for binding as the head of its queue: a child inside its parent's rectangle has left the queue, also where it
waits for binding after its parent has ended (R26, R48; DESIGN CHOICE, log entry 68). -/
def isHead (s : State) (x : Launch) : Bool :=
  x.st == .binding && (match x.parent with
    | some p => !rectWithin x.pkt.rect (s.launch p).pkt.rect
    | none => true)

/-- The launch at the head of a queue that waits for binding. -/
def headOf (s : State) (q : Nat) : Option Nat :=
  (s.work.launches.find? (fun x => x.2.queue == q && isHead s x.2)).map (fun x => x.1)

/-- The fields of a packet image of 512 bits (Table 2-2). -/
def launchFields (v : Nat) : LaunchPkt :=
  let w := fun (j : Nat) => BitVec.ofNat 64 (nbits v (64 * j) 64)
  { rect := BitVec.ofNat 15 (nbits v 32 15), scope := BitVec.ofNat 16 (nbits v 16 16), prio := BitVec.ofNat 5 (nbits v 8 5),
    stream := w 1, fhe := w 2, opbtab := w 3, stamp := w 4, condb := w 5, savea := w 6 }

/-- No core of one rectangle lies in the other. -/
def rectDisjoint (a b : BitVec 15) : Bool :=
  decide (rectX a + 2 ^ rectLW a ≤ rectX b) || decide (rectX b + 2 ^ rectLW b ≤ rectX a) ||
    decide (rectY a + 2 ^ rectLH a ≤ rectY b) || decide (rectY b + 2 ^ rectLH b ≤ rectY a)

/-- The rules on a child (R48). -/
def childOk (s : State) (k : LaunchPkt) (p : Launch) : Bool :=
  (rectDisjoint k.rect p.pkt.rect || rectWithin k.rect p.pkt.rect) && inSubtree s k.scope.toNat p.pkt.scope.toNat &&
    decide (p.level < 4)

/-- The packet is accepted (R28): not in maintenance state, nor before READY (R300). -/
def launchOk (s : State) (ctx : Nat) (v : Nat) (k : LaunchPkt) (p : Option Launch) : Bool :=
  let x := s.scope k.scope.toNat
  decide (nbits v 0 8 = 1) && decide (nbits v 47 17 = 0) && decide (nbits v 13 3 = 0) && aligned k.stream 32 &&
    aligned k.opbtab 64 && aligned k.stamp 8 && decide (k.stamp ≠ 0) && aligned k.condb 4 && aligned k.savea 4096 &&
    rectValid s ctx k.rect && scopeOpen x && decide (x.ctx = ctx) && decide (s.mgmt.st = .ready) &&
    (match p with
    | some p => childOk s k p
    | none => true)

/-- REFCNT rises, saturating (Table 9-5). -/
def countRefused (s : State) (q : QRec) : State :=
  putHdr s q 24 4 (Nat.min (s.mem.readNat (q.base + 24) 4 + 1) (2 ^ 32 - 1))

/-- A queue stops at slot k: KSTOP, then STATE (R213); what its claims would have awaited is let go. -/
def stopQueue (s : State) (qk : Nat) (q : QRec) (k code : Nat) : State :=
  (putHdr (putHdr s q 17 7 k) q 16 1 code).setQueue qk { q with stopped := true, claims := [] }

/-- A taken packet that is accepted: it is parked, or waits for binding; one whose scope is cancelled has its status
fixed (R48, R61, R65). -/
def startTaken (s : State) (x : Launch) (inside : Bool) : State :=
  let (l, s) := s.tick
  if scopeDead s x.die x.pkt.scope then
    let s := match cancelledOn s x.die x.pkt.scope with
      | some t => s.updCancel t (fun c => { c with launches := c.launches + 1 })
      | none => s
    s.setLaunch l { x with st := .closing, status := some 0x02 }
  else if inside then
    let p := x.parent.getD 0
    (s.setLaunch l { x with st := .parked }).setLaunch p { s.launch p with parked := (s.launch p).parked ++ [l] }
  else s.setLaunch l { x with st := .binding }

/-- The packet of slot k is taken: the nest slot, the claim and RIDX, then its checks (R28, R47, R48). One whose bytes are
uncorrectable is cancelled and stamps FAULT where its STAMP field says (R304; DESIGN CHOICE, log entry 61). -/
def takeLaunch (s : State) (qk : Nat) (q : QRec) (k : Nat) (claim : Option Claim) : State :=
  let s := takeStamps s q.die [q.atDie, q.slotDie qk k]
  let v := s.mem.readNat (qslotKey qk q k) 64
  let pkt := launchFields v
  let parent := claim.map (fun c => c.launch)
  let par := parent.map (fun p => s.launch p)
  let ctx := (par.map (fun p => p.ctx)).getD q.ctx
  let runs := (par.map walking).getD false
  let inside := runs && (par.map (fun p => rectWithin pkt.rect p.pkt.rect)).getD false
  let ecc := s.mem.poisoned (qslotKey qk q k) 64
  let ok := launchOk s ctx v pkt par && !ecc
  if ok && inside && decide (16 ≤ ((par.map (fun p => p.parked.length)).getD 0)) then s
  else
    let s := match claim with
      | some c => if c.nest then setNest s c.launch false else s
      | none => s
    let s := (putHdr s q 8 8 (k + 1)).setQueue qk { q with claims := q.claims.filter (fun c => c.slot != k) }
    if ok then
      let prio := match par with
        | some p => if p.pkt.prio.toNat < pkt.prio.toNat then p.pkt.prio else pkt.prio
        | none => pkt.prio
      startTaken s { ctx := ctx, queue := qk, slot := k, die := q.die, pkt := { pkt with prio := prio }, parent := parent,
                     level := (par.map (fun p => p.level + 1)).getD 0, pc := pkt.stream, walk := .run } inside
    else if pkt.stamp = 0 ∨ !aligned pkt.stamp 8 then countRefused s q
    else
      let (l, s) := s.tick
      s.setLaunch l { ctx := ctx, queue := qk, slot := k, die := q.die, pkt := pkt, parent := parent, st := .closing,
                      status := some (if ecc then 0x03 else 0x06) }

/-- LAUNCH_PACKET_TAKE (R28, R213): the packet at the head of a queue, once no packet before it waits for binding. -/
def execLaunchPacketTake (qk : Nat) (s : State) : Out :=
  match s.queue qk with
  | none => .next s
  | some q =>
    let k := ridxOf s q
    if q.kind ≠ .launch ∨ q.stopped ∨ (headOf s qk).isSome then .next s
    else match queueLine s qk q k with
      | some line => .next (sendSnoop s line)
      | none =>
        let claim := q.claims.find? (fun c => c.slot == k)
        if 65536 ≤ qk then .next (if ridxOf s q < widxOf s q then takeLaunch s qk q k claim else s)
        else if tagOf s qk q k = k then .next (takeLaunch s qk q k claim)
        else if (tagOf s qk q k + q.cap) % 2 ^ 64 = k then .next s
        else .next (stopQueue s qk q k 0x05)

/-! ### Binding -/

/-- The clearing of a core before a binding to another context (R31); PARKST stays (DESIGN CHOICE, log entry 75). -/
def clearCore (s : State) (c ctx : Nat) : State :=
  let a := arrayOf c
  let g := s.array a
  let q := quadPos c
  let lo := 2 * q * 16384
  let p := 2 ^ 120 + a * 2 ^ 20 + lo
  let s := s.setArray a { g with
    tiles := g.tiles.filter (fun x => !(decide (lo ≤ x.1) && decide (x.1 < lo + 32768))),
    ctxs := g.ctxs.setIfInBounds q (some ctx) }
  let m := s.mem.clear (spadKey c 0) (2 ^ 21)
  let s : State := { s with mem := { m with poison := m.poison.filter (fun k => !(decide (p ≤ k) && decide (k < p + 32768))) } }
  let k := s.core c
  s.setCore c { k with
    th := { k.th with regs := { k.th.regs with k := Vector.replicate 64 0 }, marks := [] },
    ring := {},
    lease := { k.lease with mpad := 0, run := 16 },
    banks := { k.banks with roleP := 0, roleF := 0, owners := 0, blocks := [], fifo := [] } }

/-- The steps of launch l for core c are ready from now on: they are not while the core is not bound to it (R44; DEDUCED, log
entry 63). A step that was aborted keeps its original ready time (R42). -/
def readyNow (s : State) (l c : Nat) : State :=
  let now := s.gtime (dieOfCore c)
  s.work.ops.foldl (fun s y =>
    if y.2.launch = l ∧ y.2.cores.any (fun k => k.core == c) then
      s.setOp y.1 { y.2 with cores := y.2.cores.map (fun k =>
        if k.core = c then { k with rank := { k.rank with since := now } } else k) }
    else s) s

/-- Core c is bound to launch l (R30, R31): GEN counts from here (R208). -/
def bindCore (s : State) (l c : Nat) : State :=
  let ctx := (s.launch l).ctx
  let s := if (s.core c).bind.ctx = some ctx then s else clearCore s c ctx
  let s := readyNow s l c
  let k := s.core c
  s.setCore c { k with bind := { k.bind with bound := some l, ctx := some ctx, gen := 0, preempt := none, fallback := false,
                                             lendTo := none } }

/-- The core can be bound to launch l: unbound, or lent to it by its parent and idle (R30, R49). -/
def bindable (s : State) (l c : Nat) : Bool :=
  let k := s.core c
  let x := s.launch l
  if x.lent then k.bind.bound == x.parent && k.bind.lendTo == some l && k.th.job.run == .idle
  else k.bind.bound.isNone

/-- Two launches of rectangles that share a core. -/
def launchesMeet (s : State) (l m : Nat) : Bool := (launchCores s l).any (fun c => (launchCores s m).contains c)

/-- Launch y is to be bound before launch x (R45): a pre-empted launch before heads of equal or lower priority, and in the
order of priority and of pre-emption among the pre-empted, by the GTIME that their lead dies read (DESIGN CHOICE, log entry
68). That it waits for a head of higher priority is DESIGN CHOICE (log entry 62). -/
def bindsBefore (x y : Launch) : Bool :=
  match x.st, y.st with
  | .preempted, .preempted =>
    decide (x.pkt.prio.toNat < y.pkt.prio.toNat) || (x.pkt.prio == y.pkt.prio && decide (y.preAt.toNat < x.preAt.toNat))
  | .preempted, .binding => decide (x.pkt.prio.toNat < y.pkt.prio.toNat)
  | .binding, .preempted => decide (x.pkt.prio.toNat ≤ y.pkt.prio.toNat)
  | _, _ => false

/-- Another launch, of a rectangle that shares a core with that of launch l, is to be bound before it (R45). -/
def heldByOther (s : State) (l : Nat) : Bool :=
  s.work.launches.any (fun m => m.1 != l && bindsBefore (s.launch l) m.2 && launchesMeet s l m.1)

/-- The last share is bound: the launch starts, or its strands come back (R30, R299). -/
def startLaunch (s : State) (l : Nat) : State :=
  let x := s.launch l
  let s := s.setLaunch l { x with st := .running }
  if x.st = .preempted then (launchCores s l).foldl (fun s c => restoreCore s l c) s else s

/-- GANG_BIND (R30): a die binds its whole share, after every lower die; a pre-empted launch waits for the lines of its frames
that the host holds (R276). The token of a cancellation releases the shares, of a launch that waits to be bound again too (R32). -/
def execGangBind (l die : Nat) (s : State) : Out :=
  let x := s.launch l
  let dies := launchDies s l
  if (x.st ≠ .binding ∧ x.st ≠ .preempted) ∨ !dies.contains die ∨ x.shares.contains die then .next s
  else if scopeDead s x.die x.pkt.scope then .next (if x.st = .binding then cancelLaunch s l else freeShares s l)
  else if !(dies.filter (fun d => decide (d < die))).all (fun d => x.shares.contains d) ∨ (!x.lent ∧ heldByOther s l) ∨
      !(shareOf s l die).all (bindable s l) then .next s
  else match (if x.st = .preempted then (launchCores s l).findSome? (fun c => frameHeld s x.ctx (frameBase s l c)) else none) with
  | some line => .next (sendSnoop s line)
  | none =>
    let s := (shareOf s l die).foldl (fun s c => bindCore s l c) s
    let s := s.setLaunch l { s.launch l with shares := x.shares ++ [die] }
    .next (if dies.all (fun d => (s.launch l).shares.contains d) then startLaunch s l else s)

/-! ### Issue and completion of operators -/

/-- An earlier operator of the same stream with steps that is not complete. An XFER does not count as one that lists its
tensor as an input: DESIGN CHOICE (log entry 62). -/
def earlierOps (s : State) (x : Op) : List Op :=
  (s.work.ops.filter (fun y => y.2.launch == x.launch && y.2.frame == x.frame && y.2.tier.isNone && decide (y.2.num < x.num))).map
    (fun y => y.2)

def meet (a b : List Nat) : Bool := a.any (fun t => b.contains t)

/-- Conditions 2 and 3 of R34; an XFER waits only for earlier writers of its tensor (R354). -/
def orderHeld (s : State) (x : Op) : Bool :=
  let ins := opIns s x
  let outs := opOuts s x
  (earlierOps s x).any (fun y => meet ins (opOuts s y) || meet outs (opIns s y) || meet outs (opOuts s y))

/-- The base priority of an operator (R44). -/
def basePrio (s : State) (x : Op) : Nat := Nat.min x.prio.toNat (s.launch x.launch).pkt.prio.toNat

/-- An operator's request for a tensor (R240); that of an XFER has the launch as requester, at depth 0. -/
def opReq (s : State) (o : Nat) (x : Op) (t : Nat) : WReq :=
  let f := if x.tier.isSome then none else x.frame
  { t := t, by_ := .op o, launch := x.launch, depth := (f.bind (fun f => (s.frame f).map (fun y => y.depth))).getD 0,
    frame := f, scope := x.scope, prio := BitVec.ofNat 5 (basePrio s x), place := x.tier.map tierOf }

/-- The tensors an operator must wait for at issue: inputs that are DROPPED, outputs that another frame rebuilds, and,
outside a frame, the DROPPED tensors that a valid recipe rebuilds from an output (R34, R239, R240). -/
def opWants (s : State) (x : Op) : List Nat :=
  let outs := opOuts s x
  ((opIns s x).filter (fun t => decide ((tensorAt s t).st = .dropped)) ++
    outs.filter (fun t => match frameFor s t with
      | some f => x.frame != some f
      | none => false) ++
    (if x.frame.isNone then outs.flatMap (fun t => (dependents s t).filter (fun d => d ≠ t)) else [])).eraseDups

/-- An operator outside a frame clears RV of its outputs and of what reads them (R239). -/
def clearRv (s : State) (x : Op) : State :=
  if x.frame.isSome then s
  else (opOuts s x).foldl (fun s t =>
    let s := clearReaders s t
    s.setTensor t { tensorAt s t with rv := false }) s

/-- The cores of an operator, each with its first step. -/
def opCores (s : State) (x : Op) : List OpCore :=
  let cs := rectCores (s.ctx (s.launch x.launch).ctx).vdmap x.rect
  (List.range cs.length).map (fun m =>
    let c := cs.getD m 0
    { core := c, next := m, rank := { since := s.gtime (dieOfCore c) } })

/-- The operator issues. The dies that its rectangle covers receive its steps by token, with the causal stamp (R44, R253); those
on a die that a cancellation of its scope has told already are never spawned (R59, R61). -/
def issueOp (s : State) (o : Nat) (x : Op) : State :=
  let (n, s) := s.tick
  let x := { x with issued := true, issueNo := n }
  if x.tier.isSome then (opIns s x).foldl (fun s t => (addReq s (opReq s o x t)).2) (s.setOp o x)
  else
    let gone := fun (k : OpCore) => scopeDead s (dieOfCore k.core) x.scope
    let dead := ((opCores s x).filter gone).map (fun k => stepsLeft x x.steps k (opWidth x))
    let dies := ((opCores s x).map (fun k => dieOfCore k.core)).eraseDups
    let s' := dies.foldl (fun s d => sendStamp s (opDie s x) d) (clearRv s x)
    s'.setOp o { x with cores := (opCores s x).filter (fun k => !gone k), left := x.left - dead.foldl (· + ·) 0 }

/-- OPERATOR_ISSUE (R34). -/
def execOperatorIssue (o : Nat) (s : State) : Out :=
  match s.op o with
  | none => .next s
  | some x =>
    if x.issued ∨ !walking (s.launch x.launch) then .next s
    else if scopeDead s (opDie s x) x.scope then .next (if x.tier.isSome then s.delOp o else dropOp s o x)
    else if orderHeld s x then .next s
    else if x.tier.isSome then .next (issueOp s o x)
    else match opWants s x with
      | t :: ts => .next (askAll s (opReq s o x) (t :: ts))
      | [] =>
        if (opIns s x ++ opOuts s x).any (fun t => (tensorAt s t).move.isSome) then .next s else .next (issueOp s o x)

/-- OPERATOR_COMPLETE (R34): the probes of its outputs become due (R234). -/
def execOperatorComplete (o : Nat) (s : State) : Out :=
  match s.op o with
  | none => .next s
  | some x =>
    if !x.issued ∨ x.tier.isSome ∨ x.left ≠ 0 ∨ !x.held.isEmpty then .next s
    else
      let s := (opOuts s x).foldl (fun s t =>
        match s.tensor t with
        | some y => s.setTensor t { y with probe := true }
        | none => s) s
      .next (reapScopes (s.delOp o))

/-- XFER_COMPLETE (R233, R354): the shard has served it, or its scope is cancelled. -/
def execXferComplete (o : Nat) (s : State) : Out :=
  match s.op o with
  | none => .next s
  | some x =>
    match x.tier, x.issued with
    | some _, true =>
      let mine := s.weir.reqs.filter (fun r => r.2.by_ == .op o)
      if mine.all (fun r => r.2.st == .ready) ∨ scopeDead s (opDie s x) x.scope then
        .next (reapScopes ((mine.foldl (fun s r => dropReq s r.1 r.2.t) s).delOp o))
      else .next s
    | _, _ => .next s

/-! ### Dispatch -/

/-- STEPj (Table 2-5) for step n. -/
def stepWord (ls : List Loop) (n j : Nat) : Word :=
  match ls[j]? with
  | none => 0x100000000
  | some l =>
    let inner := stepCount (ls.filter (fun k => decide (l.ord < k.ord)))
    let start := n / inner % l.tiles * l.tile
    BitVec.ofNat 64 (l.ord * 2 ^ 48 + Nat.min l.tile (l.extent - start) * 2 ^ 32 + start)

/-- Scalars at dispatch (R40). -/
def argRegs (vals : List Word) : Vector SReg 32 := Vector.ofFn (fun (j : Fin 32) => { val := vals.getD j.val 0 })

/-- What a dispatch does beside the core's own state (R123, R247, R248): an acquire at package scope, the cached lines written
back, and nothing fetched before. -/
def atDispatch (s : State) (c : Nat) : State := discardLines (acquireAll s c) c (fun _ => true)

/-- The state of core c at a dispatch (R40): what persists is the constant bank, LEASECFG, the ring's configuration, the
scratchpad, the park stack with PARKST (DESIGN CHOICE, log entry 75) and TVEC. -/
def dispatched (k : Core) (args : List Word) (job : Job) (pos : Pos) (trap : TrapRegs) : Core :=
  let gen := k.bind.gen + 1
  { k with
    th := {
      regs := { s := argRegs args, k := k.th.regs.k },
      trap := trap, pos := pos, job := job,
      marks := k.th.marks.filter (fun m => m.1 == 3) },
    ring := { k.ring with rd := k.ring.wr, park := .run, holds := [], begun := none, host := .idle },
    lease := { k.lease with charge := 0, last := 0 },
    banks := { k.banks with auto := none, blocks := [], fifo := [] },
    bind := { k.bind with gen := gen },
    loop := none }

/-- Dispatches step n of an operator, of a rank, to core c (R39, R40). -/
def dispatchStep (s : State) (c l o n : Nat) (x : Op) (rank : Rank) : State :=
  let y := s.launch l
  let h := fun (v : BitVec 32) => v.zeroExtend 64
  let args := [0, x.opb] ++ x.ins.map h ++ x.outs.map h ++ [BitVec.ofNat 64 n, y.pkt.condb]
  let job : Job := { run := .run, launch := l, op := o, n := n, lsc := y.pkt.scope, osc := x.scope, rect := x.rect,
                     step := Vector.ofFn (fun (j : Fin 6) => stepWord x.loops n j.val), restart := true,
                     rank := rank }
  let s := atDispatch s c
  s.setCore c (dispatched (s.core c) args job { pc := x.entry, hdr := x.entry } {})

/-- Dispatches the launch's first fault handler to core c (R35, R243). -/
def dispatchHandler (s : State) (c l : Nat) (h : Handler) : State :=
  let y := s.launch l
  let job : Job := { run := .run, launch := l, lsc := y.pkt.scope, osc := y.pkt.scope, rect := y.pkt.rect,
                     step := Vector.replicate 6 0x100000000, restart := true }
  let pos : Pos := { mode := .h, pc := y.pkt.fhe, hdr := y.pkt.fhe }
  let args := List.replicate 9 0 ++ [y.pkt.condb]
  let s := atDispatch s c
  let s := s.setCore c (dispatched (s.core c) args job pos { cause := h.cause, tval := h.tval, kind := 1 })
  s.setLaunch l { y with hrun := true }

/-- The next steps of an operator for a core, with their ranks: those to dispatch again, and the next in order. -/
def nextSteps (x : Op) (k : OpCore) : List (Nat × Rank) := k.redo ++ (if k.next < x.steps then [(k.next, k.rank)] else [])

/-- A ready step for a core (R44): its operator, its index, its rank. -/
structure Ready where
  o : Nat
  x : Op
  n : Nat
  rank : Rank
  deriving DecidableEq, Repr

/-- The steps ready for core c. -/
def readySteps (s : State) (c l : Nat) : List Ready :=
  s.work.ops.flatMap (fun y =>
    if y.2.launch = l ∧ y.2.issued ∧ y.2.tier.isNone then
      (y.2.cores.filter (fun k => k.core == c)).flatMap (fun k =>
        (nextSteps y.2 k).map (fun n => { o := y.1, x := y.2, n := n.1, rank := n.2 }))
    else [])

/-- The effective priority of a step. -/
def effPrio (s : State) (r : Ready) : Nat := Nat.min 31 (basePrio s r.x + r.rank.raised)

/-- The step fits its core, or counts as fitting (R17, R44). -/
def stepFits (s : State) (c : Nat) (r : Ready) : Bool := r.rank.fits || decide (r.x.tclass.toNat ≤ (s.core c).power.cls.toNat)

/-- The wait after which a step counts as fitting (R44). -/
def fitWait : Nat := preemptWait

def readyFor (s : State) (c : Nat) (since : Word) : Nat := (s.gtime (dieOfCore c) - since).toNat

/-- A rise of priority or a change of fit is due, and comes before the next choice (R44). -/
def choiceDue (s : State) (c : Nat) (r : Ready) : Bool :=
  decide (r.rank.raised < r.rank.passes / 64) || (!stepFits s c r && decide (fitWait ≤ readyFor s c r.rank.since))

/-- a is chosen before b (R44). -/
def readyBefore (s : State) (c : Nat) (a b : Ready) : Bool :=
  let pa := effPrio s a
  let pb := effPrio s b
  let fa := stepFits s c a
  let fb := stepFits s c b
  if pa ≠ pb then decide (pb < pa)
  else if fa ≠ fb then fa
  else if a.rank.since ≠ b.rank.since then decide (a.rank.since.toNat < b.rank.since.toNat)
  else decide (a.x.issueNo < b.x.issueNo) || (a.o == b.o && decide (a.n < b.n))

def bestReady (s : State) (c : Nat) : List Ready → Option Ready
  | [] => none
  | a :: as =>
    match bestReady s c as with
    | none => some a
    | some b => if readyBefore s c a b then some a else some b

def Rank.pass (r : Rank) : Rank := { r with passes := r.passes + 1 }

/-- A dispatch to core c passes over every step of launch l that is ready for it (R44). -/
def passReady (s : State) (c l : Nat) : State :=
  s.work.ops.foldl (fun s y =>
    if y.2.launch = l ∧ y.2.issued ∧ y.2.tier.isNone then
      s.setOp y.1 { y.2 with cores := y.2.cores.map (fun k =>
        if k.core = c then
          { k with rank := if k.next < y.2.steps then k.rank.pass else k.rank, redo := k.redo.map (fun n => (n.1, n.2.pass)) }
        else k) }
    else s) s

/-- The step leaves the ready set, and every step still ready for the core is passed over (R44). -/
def takeStep (s : State) (c : Nat) (r : Ready) : State :=
  let w := opWidth r.x
  let s := s.setOp r.o { r.x with cores := r.x.cores.map (fun k =>
    if k.core ≠ c then k
    else if k.redo.any (fun n => n.1 == r.n) then { k with redo := k.redo.filter (fun n => n.1 != r.n) }
    else { k with next := k.next + w }) }
  passReady s c r.x.launch

/-- Core c is free for a step of launch l: idle, not to be lent, and no strand of l lies suspended on it. -/
def coreFree (k : Core) (l : Nat) : Bool :=
  k.th.job.run == .idle && k.bind.lendTo.isNone &&
    (match k.bind.frames with
    | f :: _ => f.th.job.launch != l
    | [] => true)

/-- A fault handler of the launch is to be dispatched to core c (R35, R243): to the core at position 0, of a launch whose every
share is bound (R30) and whose scope no token has cancelled (R44, R60). -/
def handlerDue (s : State) (c l : Nat) : Bool :=
  let y := s.launch l
  !y.hrun && (launchCores s l).head? == some c && (y.st == .running || y.st == .preempting || y.st == .closing) &&
    !scopeDead s (dieOfCore c) y.pkt.scope && !scopeDead s y.die y.pkt.scope

/-- STEP_DISPATCH (R44): a fault handler first (R35); steps of a cancelled scope are discarded; then the best ready step,
unless it does not fit. A launch that is being pre-empted dispatches none, but while a lending holds the pre-emption up (R45, R49). -/
def execStepDispatch (c : Nat) (s : State) : Out :=
  let k := s.core c
  match k.bind.bound with
  | none => .next s
  | some l =>
    let y := s.launch l
    if !coreFree k l || preempting s l then .next s
    else match y.handlers, handlerDue s c l with
      | h :: _, true => .next (dispatchHandler (passReady s c l) c l h)
      | _, _ =>
        if y.st ≠ .running ∧ y.st ≠ .preempting then .next s
        else
          let rs := readySteps s c l
          match rs.find? (fun r => scopeDead s (dieOfCore c) r.x.scope) with
          | some r => .next (discardSteps s (dieOfCore c) ((cancelledOn s (dieOfCore c) r.x.scope).getD 0) r.o r.x)
          | none =>
            if rs.any (choiceDue s c) then .next s
            else match bestReady s c rs with
              | none => .next s
              | some r => if stepFits s c r then .next (dispatchStep (takeStep s c r) c l r.o r.n r.x r.rank) else .next s

/-- Changes the rank of step n of an operator, which is ready for its core: its own, or the one it shares with the steps not yet
dispatched. -/
def updRank (s : State) (o n : Nat) (f : Op → Nat → Rank → Rank) : State :=
  match s.op o with
  | none => s
  | some x =>
    let w := opWidth x
    s.setOp o { x with cores := x.cores.map (fun k =>
      if k.next % w ≠ n % w then k
      else if k.redo.any (fun m => m.1 == n) then
        { k with redo := k.redo.map (fun m => if m.1 = n then (m.1, f x k.core m.2) else m) }
      else if k.next ≤ n ∧ n < x.steps then { k with rank := f x k.core k.rank }
      else k) }

/-- FIT_TIMEOUT (R44): a step is ready only while its core is bound to its launch. -/
def execFitTimeout (o n : Nat) (s : State) : Out :=
  .next (updRank s o n (fun x c k =>
    if (s.core c).bind.bound = some x.launch ∧ fitWait ≤ readyFor s c k.since then { k with fits := true } else k))

/-- PASSOVER_RAISE (R44). -/
def execPassoverRaise (o n : Nat) (s : State) : Out :=
  .next (updRank s o n (fun _ _ k => { k with raised := Nat.max k.raised (k.passes / 64) }))

/-! ### Pre-emption (R45, R299) -/

/-- The launches, other than l, that cores of l's rectangle are bound to. -/
def blockers (s : State) (l : Nat) : List Nat :=
  ((launchCores s l).filterMap (fun c => (s.core c).bind.bound)).eraseDups.filter (fun m => m != l)

/-- Launch m may be pre-empted for a head of priority p: one that runs, or that is pre-empted and holds shares bound again, but not
one in its first binding, whose shares stay bound (R30; DESIGN CHOICE, log entry 68). -/
def preemptible (s : State) (p m : Nat) : Bool :=
  let x := s.launch m
  walking x && decide (x.pkt.prio.toNat < p) && decide (x.pkt.savea ≠ 0) && !lendingOf s m

/-- Launch m is asked to stop: each strand at its next safe point; once every one has stopped or ended, its cores are unbound. The
shares that a pre-empted launch holds are unbound, what it saved still standing. -/
def preemptLaunch (s : State) (m : Nat) : State :=
  let x := s.launch m
  if x.st = .preempted then unbindLaunch (s.setLaunch m { x with shares := [] }) m
  else if x.st ≠ .running then s
  else
    let s := s.setLaunch m { x with st := .preempting, preAt := s.gtime x.die }
    settlePre (((s.cores.filter (fun k => k.2.bind.bound == some m)).map (fun k => k.1)).foldl (fun s c =>
      let k := s.core c
      s.setCore c { k with bind := { k.bind with preempt := some (s.gtime (dieOfCore c)) } }) s) m

/-- PREEMPT_REQUEST (R45): the head cannot bind only because launches that may be pre-empted hold its cores; where another is to be
bound before it, that is not so. -/
def execPreemptRequest (q : Nat) (s : State) : Out :=
  match headOf s q with
  | none => .next s
  | some l =>
    let bs := blockers s l
    if bs.all (preemptible s (s.launch l).pkt.prio.toNat) ∧ !heldByOther s l then .next (bs.foldl preemptLaunch s) else .next s

/-- PREEMPT_FALLBACK (R299): after 256 µs the safe points of a strand that has not stopped are no longer taken; cores whose strands
have ended are unbound once every strand of the launch has stopped. -/
def execPreemptFallback (c : Nat) (s : State) : Out :=
  let k := s.core c
  match k.bind.bound with
  | none => .next s
  | some l =>
    if !preempting s l ∨ k.th.job.run = .stopped then .next s
    else if k.th.job.run = .idle then .next (settlePre s l)
    else if k.bind.preempt.any (fun since => decide (fitWait ≤ readyFor s c since)) then
      .next (s.setCore c { k with bind := { k.bind with fallback := true } })
    else .next s

/-! ### Completion and the return of lent cores -/

/-- A child that waits to be lent cores of a parent that has ended: nothing is lent to it any more, and it waits for binding as a
parked child does (R50). -/
def unlend (s : State) (child : Nat) : State :=
  let s := (s.cores.filter (fun c => c.2.bind.lendTo == some child)).foldl (fun s c =>
    let k := s.core c.1
    s.setCore c.1 { k with bind := { k.bind with lendTo := none } }) s
  s.setLaunch child { s.launch child with lent := false }

/-- Parked children, and those that wait to be lent its cores, start once their parent has ended (R50). -/
def startParked (s : State) (l : Nat) : State :=
  let s := (s.work.launches.filter (fun x => x.2.parent == some l && x.2.lent && x.2.st == .binding)).foldl
    (fun s x => unlend s x.1) s
  let x := s.launch l
  (x.parked.foldl (fun s j => s.setLaunch j { s.launch j with st := .binding }) s).setLaunch l { x with parked := [] }

/-- The launch is over: its cores are unbound, unless they are lent, and its parked children start. -/
def closeLaunch (s : State) (l : Nat) (status : BitVec 8) : State :=
  let x := s.launch l
  let s := s.setLaunch l { x with st := .closing, status := some status }
  let s := if x.lent then s else unbindLaunch s l
  startParked s l

/-- The stamp (R29): slot index and status; a fault leaves it unwritten. -/
def stampLaunch (s : State) (l : Nat) : State :=
  let x := s.launch l
  let finish := fun (s : State) => reapScopes ((dropReports s l).setLaunch l { (dropReports s l).launch l with st := .stamped, park := .run })
  match x.park with
  | .wait _ => s
  | .bad _ => finish s
  | .run =>
    match seqCheck s x.ctx x.die .write x.pkt.stamp 8 with
    | .ok key _ =>
      let s := sendStamp s x.die (seqTarget s x.ctx x.die x.pkt.stamp key)
      finish { s with mem := s.mem.writeNat key 8 (x.slot * 256 + (x.status.getD 1).toNat) }
    | .fault _ _ => finish s
    | .held line => sendSnoop s line
    | .absent va =>
      let r := postFault s x.ctx va agSeq .write x.die (Config.unitNumber x.die) l 0
      r.2.setLaunch l { r.2.launch l with park := .wait r.1 }

/-- LAUNCH_COMPLETE (R34, R61): END and every operator complete, or its status fixed by a cancellation; handlers end
first. -/
def execLaunchComplete (l : Nat) (s : State) : Out :=
  let x := s.launch l
  if !x.handlers.isEmpty then .next s
  else match x.st with
    | .closing => .next (stampLaunch (closeLaunch s l (x.status.getD 1)) l)
    | .running =>
      if x.walk ≠ .ended ∨ scopeDead s x.die x.pkt.scope ∨ s.work.ops.any (fun o => o.2.launch == l) ∨
          s.weir.frames.any (fun f => f.2.launch == l) then .next s
      else .next (stampLaunch (closeLaunch s l (x.status.getD 1)) l)
    | _ => .next s

/-- A core lent to child l goes back (R49): its suspended strand resumes, unless its launch is over. -/
def returnCore (s : State) (l p c : Nat) : State :=
  let k := s.core c
  let y := s.launch p
  let pre := if y.st = .preempting then some y.preAt else none
  let s := if k.bind.bound = some l then readyNow (s.setCore c { k with bind := { k.bind with bound := some p, preempt := pre } }) p c
    else s
  match (s.core c).bind.frames with
  | f :: fs =>
    if f.child ≠ l then s
    else if walking (s.launch p) then returnStrand s c f
    else s.setCore c { s.core c with bind := { (s.core c).bind with frames := fs } }
  | [] => s

/-- LEND_RETURN (R49): once the child is stamped and has its own lent cores back. The cores of a parent that is over are unbound,
unless they are lent to it in turn; a pre-emption of the parent goes on (R305). -/
def execLendReturn (l : Nat) (s : State) : Out :=
  let x := s.launch l
  match x.lent, x.parent with
  | true, some p =>
    if x.st ≠ .stamped ∨ s.work.launches.any (fun m => m.2.lent && m.2.parent == some l) then .next s
    else
      let s := (launchCores s l).foldl (fun s c => returnCore s l p c) (s.setLaunch l { x with lent := false })
      .next (if (s.launch p).st = .stamped ∧ !(s.launch p).lent then unbindLaunch s p else settlePre s p)
  | _, _ => .next s

end Sys2Proof.Machine
end

