-- ==== Sys2Proof/Machine/Flume.lean ====
section
/-! DEFINITION. Flume engines: taking a packet and its tests (R213, R359), layouts (R220-R222), ranges (R223, R224), tensors
(R210, R234, R240), units (R214, R215, R225), circular-buffer delivery (R168), collectives (R216-R219), stamps (R214). -/
namespace Sys2Proof.Machine
open Sys2Proof

/-- The fields of a packet. -/
def packetOf : Instr → Option FPkt
  | .flcopy p => some p
  | .flfill p => some p
  | .flred p => some p
  | .flstmp p => some p
  | .flcoll p => some p
  | _ => none

def PRun.pkt (r : PRun) : Option FPkt := packetOf r.ins

/-- The context and the engine die of a queue. -/
def qCtx (s : State) (q : Nat) : Nat := ((s.queue q).map (fun x => x.ctx)).getD 0
def qDie (s : State) (q : Nat) : Nat := ((s.queue q).map (fun x => x.die)).getD 0

/-- A packet as an accessor of memory (R197, R206); `owner` is the owner its tiles need. -/
def packetWho (s : State) (q : Nat) (r : PRun) (owner : Option Nat) : Who :=
  { ctx := qCtx s q, die := qDie s q, core := r.claim.map (fun c => c.core), rect := (r.claim.map (fun c => c.rect)).getD 0, owner := owner }

/-- The check of a packet's access; a window address in a packet of another producer is a fault (R197). -/
def packetCheck (s : State) (q : Nat) (r : PRun) (owner : Option Nat) (k : AccKind) (a : Word) (n : Nat) : Acc :=
  if r.claim.isNone ∧ inWindow a.toNat then .fault cRect a else checkAccess s (packetWho s q r owner) k a n

/-- The packet of a core, group and number within its launch has ended (R216). -/
def noteColl (s : State) (c : Claim) (p : FPkt) (status : BitVec 8) : State :=
  let l := s.launch c.launch
  s.setLaunch c.launch { l with deadColls := (c.core, nbits p.aux.toNat 8 8, c.seq, status) :: l.deadColls }

/-- The packet comes to its end with a status; the bytes done stay (R214). -/
def endPacket (s : State) (q : Nat) (r : PRun) (status : BitVec 8) : State :=
  let s := match r.ins, r.claim with
    | .flcoll p, some c => noteColl s c p status
    | _, _ => s
  s.setRun q { r with phase := .complete, status := status, park := .run, req := none, host := .idle, inUnit := false }

/-- The packet parks at a page (R225). -/
def parkPacket (s : State) (q : Nat) (r : PRun) (va : Word) (k : AccKind) : State :=
  let p := postFault s (qCtx s q) va agFlume k (qDie s q) (Config.unitNumber q) q 0
  p.2.setRun q { r with park := .wait p.1 }

/-! ### Stopping a queue -/

/-- A queue stops (R213, R116): the tiles of every return that will never be made go back (R207). -/
def stopFlume (s : State) (qk : Nat) (q : QRec) (k code : Nat) : State :=
  q.claims.foldl (fun s c => returnTiles s c.core c.auto) (stopQueue s qk q k code)

/-! ### Collectives: partners (R216, R218) -/

/-- The cores at positions 0 to N - 1 of the issuer's rectangle. -/
def collCores (s : State) (q : Nat) (c : Claim) (n : Nat) : List Nat := (rectCores (s.ctx (qCtx s q)).vdmap c.rect).take n

def collGroup (p : FPkt) : Nat := nbits p.aux.toNat 8 8
def collN (p : FPkt) : Nat := nbits p.aux.toNat 16 10

/-- The packet of a core that is matched with an FLCOLL, once taken. -/
def collRun (s : State) (c : Claim) (g core : Nat) : Option (Nat × PRun) :=
  s.work.runs.find? (fun x => match x.2.ins, x.2.claim with
    | .flcoll p, some d => d.launch == c.launch && d.core == core && d.seq == c.seq && collGroup p == g
    | _, _ => false)

/-- The packets in execution that are matched with an FLCOLL: of its launch, group and number, from one of its participants, or
with it among theirs (R216). -/
def collPeers (s : State) (q : Nat) (c : Claim) (p : FPkt) : List (Nat × PRun × FPkt) :=
  s.work.runs.filterMap (fun x => match x.2.ins, x.2.claim with
    | .flcoll p', some d =>
      if d.launch = c.launch ∧ d.seq = c.seq ∧ collGroup p' = collGroup p ∧
          ((collCores s q c (collN p)).contains d.core || (collCores s x.1 d (collN p')).contains c.core) = true then
        some (x.1, x.2, p')
      else none
    | _, _ => none)

/-- Every packet of the collective ends with a status, one that stands inside a unit once it has finished it; one not yet taken
finds when it is that a partner has ended (R216, R218). -/
def endColl (s : State) (q : Nat) (r : PRun) (status : BitVec 8) : State :=
  match r.pkt, r.claim with
  | some p, some c =>
    (collPeers s q c p).foldl (fun s x =>
      if x.1 = q ∨ x.2.1.phase = .complete then s
      else if x.2.1.inUnit then s.setRun x.1 { x.2.1 with stopAs := some status }
      else endPacket s x.1 x.2.1 status) (endPacket s q r status)
  | _, _ => endPacket s q r status

/-- A packet ends before its time: alone, or with its collective. A driver's reset of one participant's queue ends the collective as a
cancellation of one scope does (R218; DESIGN CHOICE, log entry 87). -/
def cutPacket (s : State) (q : Nat) (r : PRun) (status : BitVec 8) : State :=
  match r.ins with
  | .flcoll _ => endColl s q r status
  | _ => endPacket s q r status

/-! ### Kill points (R60, R61, R229) -/

/-- The packet is to stop at a kill point: its scope is cancelled, or its queue is being reset. -/
def packetDead (s : State) (q : Nat) (r : PRun) : Bool :=
  r.reset || scopeDead s (qDie s q) (BitVec.ofNat 16 (packetScope r.ins))

/-- A kill point of a packet, then its park: an unresolvable page ends it with FAULT and the bytes done (R225). -/
def packetPoint (s : State) (q : Nat) (r : PRun) (k : PRun → Out) : Out :=
  match r.stopAs with
  | some status => .next (endPacket s q r status)
  | none =>
  if packetDead s q r then .next (cutPacket s q r 2)
  else match r.park with
    | .wait _ => .next s
    | .bad _ => .next (cutPacket s q r 3)
    | .run => k r

/-- The kill point between units (R214): none within a unit, which the engine finishes. -/
def unitPoint (s : State) (q : Nat) (r : PRun) (k : PRun → Out) : Out :=
  if r.inUnit && r.park == .run then k r else packetPoint s q r k

/-- The wait of a packet for the host (R273), which lies within a unit and is no kill point: a refusal ends it with FAULT and the
bytes done. -/
def hostPoint (s : State) (q : Nat) (r : PRun) (k : PRun → Out) : Out :=
  match r.host with
  | .sent _ _ => .next s
  | .answered _ _ ok => if ok then k r else .next (endPacket s q r 3)
  | .idle => unitPoint s q r k

/-! ### Handle sides -/

/-- The byte offset in its tensor of the n-th element of a handle side; none outside the shape (R224). -/
def tensorOff (shape : List Nat) (x : Side) (n : Nat) : Option Nat :=
  let cs := List.zipWith (fun (c : Nat) (o : Int) => (c : Int) + o) (coordOf x.lay.ext n) x.lay.str
  let rec go : List Int → List Nat → Nat → Nat → Option Nat
    | c :: cs, e :: es, mul, acc =>
      if 0 ≤ c ∧ c < (e : Int) then go cs es (mul * e) (acc + c.toNat * mul) else none
    | _, _, _, acc => some acc
  (go cs shape 1 0).map (fun i => i * x.lay.width)

/-! ### The ranges of a packet (R223) -/

/-- The core, first and last offset of a range in one scratchpad window. -/
def spanOf (s : State) (q : Nat) (r : PRun) (lo hi : Int) : Option (Nat × Nat × Nat) :=
  if r.claim.isSome ∧ (windowBase : Int) ≤ lo ∧ lo ≤ hi ∧ hi < 2 ^ 56 ∧ lo.toNat / 2 ^ 21 = hi.toNat / 2 ^ 21 then
    (windowTarget s (packetWho s q r none) lo.toNat).map (fun t => (t.1, t.2, hi.toNat % 2 ^ 21))
  else none

/-- The test of a byte range (R223): the status it stamps, none where it passes. A range outside the local window that reaches
an address with one of bits [63:57] set takes R196's FAULT here, with no byte moved (DESIGN CHOICE, log entry 70). -/
def rangeStatus (s : State) (q : Nat) (r : PRun) (owner : Nat) (lo hi : Int) : Option (BitVec 8) :=
  let wb := (windowBase : Int)
  if hi < wb ∨ (2 : Int) ^ 56 ≤ lo then if lo < 0 ∨ (2 : Int) ^ 57 ≤ hi then some 3 else none
  else if lo < wb then some 4
  else if r.claim.isNone ∨ (windowTarget s (packetWho s q r none) lo.toNat).isNone then some 3
  else match spanOf s q r lo hi with
    | none => some 4
    | some (c, a, b) =>
      let k := (s.core c).banks
      if !allBetween (bankIsSpad k.roleF) (a / 2 ^ 16) (b / 2 ^ 16) then some 4
      else if !allBetween (fun t => tileOwner k.owners t == owner) (a / 4096) (b / 4096) then some 3
      else none

/-- The sides of a packet that it reads, and that it writes: its source unless it fills, its destination unless a buffer; an FLSTMP
has none. A delivery to a DC slot, a count and a stamp are no written side, so OWNF does not wait for them (DESIGN CHOICE, log
entry 95). -/
def readSides (r : PRun) : List Side :=
  match r.ins with
  | .flcopy _ | .flred _ => [r.src]
  | _ => []
def writtenSides (r : PRun) : List Side :=
  match r.ins, r.pkt with
  | .flstmp _, _ => []
  | _, some p => if p.dc then [] else [r.dst]
  | _, none => []

/-- The address sides of a packet that are tested. -/
def rangeSides (r : PRun) : List Side := (readSides r ++ writtenSides r).filter (fun x => x.tensor.isNone)

/-- The ranges of its sides in one scratchpad window each, all of them and those it writes (R203, R207). -/
def withSpans (s : State) (q : Nat) (r : PRun) : PRun :=
  let at_ := fun (xs : List Side) => (xs.filter (fun x => x.tensor.isNone)).filterMap (fun z => spanOf s q r z.range.1 z.range.2)
  { r with spans := at_ (readSides r ++ writtenSides r), dspans := at_ (writtenSides r) }

/-! ### Form (R359, R116, R221, R210) -/

/-- What a test finds: it passes with the run so far, it ends the packet, it parks it, it waits in a state, or a request leaves for the
host. -/
inductive PTest where
  | pass (r : PRun)
  | stop (status : BitVec 8)
  | park (va : Word)
  | wait (s : State)
  | ask (va : Word) (n : Nat)
  deriving DecidableEq, Repr

/-- The request to the host that an element needs next, with its number: those before it have been completed (R273). -/
def hostAsk (r : PRun) (asks : List Word) : Option (Word × Nat) :=
  let n := match r.host with
    | .answered _ n true => n + 1
    | _ => 0
  (asks[n]?).map (fun a => (a, n))

/-- The addresses of the requests that a read of n bytes by an engine needs, one for each HOST-U page (R273). -/
def readAsks (s : State) (q : Nat) (a : Word) (n : Nat) : List Word :=
  (pageParts a n).filterMap (fun p => match seqCheck s (qCtx s q) (qDie s q) .part p.1 1 with
    | .ok _ (some .hostU) => some p.1
    | _ => none)

/-- A test goes on once the requests it needs have been completed. -/
def afterAsks (r : PRun) (asks : List Word) (k : PTest) : PTest :=
  match hostAsk r asks with
  | some x => .ask x.1 x.2
  | none => k

/-- The handle side's rules (R221). -/
def sideOk (s : State) (x : Side) : Bool :=
  match x.tensor with
  | none => true
  | some t =>
    let y := tensorAt s t
    decide (x.lay.kind = 0) && decide (x.lay.ext.length = y.shape.length) && decide (packetWidth y.fmt = x.lay.width)

/-- A side's base or tensor; none for a stale handle. -/
def sideOf (s : State) (q : Nat) (handle : Bool) (v : Word) (lay : Layout) : Option Side :=
  if handle then (liveTensor s (qCtx s q) (v.truncate 32)).map (fun t => { tensor := some t, lay := lay })
  else some { base := v, lay := lay }

/-- The index array of a layout, read once (R221). -/
def withIndex (s : State) (q : Nat) (x : Layout) (k : Layout → PTest) : PTest :=
  if x.kind ≠ 1 then k x
  else match seqRead s (qCtx s q) (qDie s q) 4 (x.ext.headD 0) x.idx with
    | .ok v => k { x with vals := (List.range (x.ext.headD 0)).map (fun i => nbits v (32 * i) 32) }
    | .fault => .stop 3
    | .absent va => .park va
    | .held line => .wait (sendSnoop s line)

/-- The element width a kind works in with LP = 0, as log2: bytes, or the type's for FLRED. -/
def plainEsz (r : PRun) : Nat :=
  match r.ins with
  | .flred p => (packetWidth (nbits p.aux.toNat 4 4)).log2
  | _ => 0

/-- Both sides with their layouts: handles live, the pair's rules, spans and pins. -/
def formSides (s : State) (q : Nat) (r : PRun) (p : FPkt) (a b : Layout) : PTest :=
  let w := match r.ins with
    | .flred p => packetWidth (nbits p.aux.toNat 4 4)
    | _ => a.width
  if a.count ≠ b.count ∨ a.esz ≠ b.esz ∨ a.width ≠ w ∨ ((a.kind = 2 ∨ b.kind = 2) ∧ !(s.die (qDie s q)).maint) then .stop 3
  else match sideOf s q p.sh p.src a, sideOf s q p.dh p.dst b with
    | some x, some y =>
      if !sideOk s x || !sideOk s y then .stop 3
      else
        .pass (withSpans s q
          { r with src := x, dst := y, total := a.count * a.width, host := .idle, pins := x.tensor.toList ++ y.tensor.toList })
    | _, _ => .stop 3

/-- The form of a copy, a fill or a reduction: a layout pair and index arrays in HOST-U pages are requested from the host (R273). -/
def formTest (s : State) (q : Nat) (r : PRun) (p : FPkt) : PTest :=
  if !p.lp then
    let w := 2 ^ plainEsz r
    let n := p.len.toNat
    if n % w ≠ 0 then .stop 3 else formSides s q r p (linear (n / w) (plainEsz r)) (linear (n / w) (plainEsz r))
  else
    let pair := readAsks s q p.len 64
    let index := fun (x : Layout) => if x.kind = 1 then readAsks s q x.idx (4 * x.ext.headD 0) else []
    match seqRead s (qCtx s q) (qDie s q) 32 2 p.len with
    | .fault => .stop 3
    | .absent va => .park va
    | .held line => .wait (sendSnoop s line)
    | .ok v =>
      afterAsks r pair <| match layoutOf (v % 2 ^ 256), layoutOf (v / 2 ^ 256) with
      | some a, some b => withIndex s q a fun x => withIndex s q b fun y =>
          afterAsks r (pair ++ index a ++ index b) (formSides s q r p x y)
      | _, _ => .stop 3

/-! ### The form of an FLCOLL (R216, R219) -/

def collOp (p : FPkt) : Nat := nbits p.aux.toNat 0 4
def collEt (p : FPkt) : Nat := nbits p.aux.toNat 4 4
def collRoot (p : FPkt) : Nat := nbits p.aux.toNat 26 9

/-- The result's bytes in one destination. -/
def collBytes (p : FPkt) : Nat := if collOp p = 6 then collN p * p.len.toNat else p.len.toNat

/-- An address of the issuing core's own scratchpad, in the form with bit 39 set. -/
def ownForm (a : Word) : Bool := inWindow a.toNat && a.getLsbD 39

/-- The packet reduces into memory (R219). -/
def collMem (p : FPkt) : Bool := !inWindow p.dst.toNat && decide (collOp p = 0) && decide (collEt p = 7)

/-- Bytes that an FLCOLL reads as its own contribution: none at a position of BCAST other than the root. -/
def collReads (p : FPkt) (m : Nat) : Bool := decide (collOp p ≠ 7) || decide (m = collRoot p)

/-- A range of n bytes in the issuer's own scratchpad passes R223 with owner 11. -/
def collRange (s : State) (q : Nat) (r : PRun) (a : Word) (n : Nat) : Bool :=
  ownForm a && (rangeStatus s q r 3 (a.toNat : Nat) ((a.toNat + n - 1 : Nat))).isNone

/-- Two matched packets agree. -/
def collAgree (a b : FPkt) : Bool :=
  decide (collN a = collN b) && decide (collOp a = collOp b) && decide (collEt a = collEt b) && decide (a.len = b.len) &&
    decide (collRoot a = collRoot b) && decide (collMem a = collMem b) && (!collMem a || decide (a.dst = b.dst))

/-- The destination of a reduction into memory passes at the take (R216, R219, R223): 4-byte aligned words of one domain, in pages that,
where they are present, are DEV and may be written; that a later page which is not refuses the whole packet is the model's choice
(DESIGN CHOICE, log entry 96). -/
def collDev (s : State) (q : Nat) (r : PRun) (p : FPkt) : Bool :=
  let n := p.len.toNat
  aligned p.dst 4 && decide (n % 4 = 0) && (rangeStatus s q r 3 (p.dst.toNat : Nat) ((p.dst.toNat + n - 1 : Nat))).isNone &&
    (pageParts p.dst n).all (fun x => match packetCheck s q r none .write x.1 1 with
      | .ok _ cls => cls == some .dev
      | .fault _ _ => false
      | _ => true)

/-- The checks of an FLCOLL at its take. -/
def collForm (s : State) (q : Nat) (r : PRun) (p : FPkt) : PTest :=
  match r.claim with
  | none => .stop 3
  | some c =>
    let all := rectCores (s.ctx (qCtx s q)).vdmap c.rect
    let cores := all.take (collN p)
    let m := cores.findIdx (fun x => x == c.core)
    let n := p.len.toNat
    let srcOk := if collReads p m then collRange s q r p.src n else decide (p.src = 0)
    let dstOk := if collMem p then collDev s q r p else collRange s q r p.dst (collBytes p)
    let agree := (collPeers s q c p).all (fun x => collAgree p x.2.2)
    if qDie s q ≠ dieOfCore c.core ∨ all.length < collN p ∨ collN p ≤ m ∨ 2 ^ 21 < collBytes p ∨ !srcOk ∨ !dstOk ∨ !agree then
      .stop 3
    else
      let span := fun (a : Word) (n : Nat) => (spanOf s q r (a.toNat : Nat) ((a.toNat + n - 1 : Nat))).toList
      let dst := if collMem p then [] else span p.dst (collBytes p)
      .pass { r with total := collBytes p, spans := (if collReads p m then span p.src n else []) ++ dst, dspans := dst }

/-- The status with which a partner's end ends this packet, not yet formed (R216, R218): one that has stamped DONE was in a
collective with which this packet does not agree. -/
def collEnded (s : State) (q : Nat) (r : PRun) : Option (BitVec 8) :=
  match r.ins, r.claim with
  | .flcoll p, some c =>
    let cores := collCores s q c (collN p)
    ((s.launch c.launch).deadColls.find? (fun x => cores.contains x.1 && x.2.1 == collGroup p && x.2.2.1 == c.seq)).map
      (fun x => if x.2.2.2 = 1 then 3 else x.2.2.2)
  | _, _ => none

/-! ### Tensors (R234, R240) -/

/-- The frame to which a packet of a scope belongs: that of the nearest recipe scope. -/
def frameOfScope (s : State) (n : Nat) : Option Nat :=
  (ancestors s n).findSome? (fun a => (s.weir.frames.find? (fun x => x.2.scope.toNat == a)).map (fun x => x.1))

/-- The request of a packet for a tensor; none where nobody requests it (R240). A packet of whatever producer that belongs to a
frame has the frame as requester; its own SCOPE and PRIO are then the requester's (DEDUCED, log entry 63). -/
def packetReq (s : State) (q : Nat) (r : PRun) (p : FPkt) (t : Nat) (place : Option TSt) : Option WReq :=
  let low := fun (l : Nat) => BitVec.ofNat 5 (Nat.min p.prio.toNat (s.launch l).pkt.prio.toNat)
  match (frameOfScope s p.scope.toNat).bind (fun f => (s.frame f).map (fun x => (f, x))), r.claim with
  | some (f, x), _ =>
    some { t := t, by_ := .packet q, launch := x.launch, depth := x.depth, frame := some f, scope := p.scope,
           prio := low x.launch, place := place }
  | none, some c =>
    if walking (s.launch c.launch) then
      some { t := t, by_ := .packet q, launch := c.launch, depth := 0, frame := none, scope := p.scope, prio := low c.launch,
             place := place }
    else none
  | none, none =>
    let x := tensorAt s t
    match x.refl with
    | some l =>
      let y := s.launch l
      if walking y then
        some { t := t, by_ := .packet q, launch := l, depth := 0, frame := none, scope := y.pkt.scope, prio := y.pkt.prio,
               place := place }
      else none
    | none => none

/-- The strand that placed a packet runs the step with its restart bit set (R42). -/
def restartable (s : State) (c : Claim) : Bool :=
  let t := s.th c.core
  t.job.run != .idle && c.sameStep c.core t.job && t.job.restart && t.trap.kind != 1#2

/-- A packet meets a DROPPED tensor: the step that placed it is aborted where it can be started afresh (R42, R240). -/
def meetDropped (s : State) (r : PRun) (t : Nat) : State :=
  match r.claim with
  | some c => if restartable s c then abortStep s c.core t else s
  | none => s

/-- The packet asks the shard, or, without a requester, ends. -/
def askShard (s : State) (q : Nat) (r : PRun) (p : FPkt) (t : Nat) (place : Option TSt) : PTest :=
  match packetReq s q r p t place with
  | none => .stop 3
  | some w =>
    let a := addReq s w
    .wait (a.2.setRun q { r with phase := .ranges, req := some a.1 })

/-- A compressed tensor that a packet without a requester writes (R238). -/
def expandAlone (s : State) (q : Nat) (r : PRun) (t : Nat) (tier : TSt) : PTest :=
  let x := tensorAt s t
  match placeIn s (homeDie t) tier x.full [t] with
  | .none s => .wait (endPacket s q r 3)
  | .wait s => .wait (s.setRun q { r with phase := .ranges })
  | .at_ _ s => .wait ((s.setTensor t { tensorAt s t with move := some tier }).setRun q { r with phase := .ranges })

/-- One handle of a packet: it passes, waits, or ends the packet. -/
def tensorTest (s : State) (q : Nat) (r : PRun) (p : FPkt) (t : Nat) (written : Bool) : PTest :=
  let x := tensorAt s t
  let stay := PTest.wait (s.setRun q { r with phase := .ranges })
  if (r.req.bind (fun n => s.req n)).isSome then stay
  else if x.st = .dropped then
    if (frameFor s t).isSome ∧ frameFor s t = frameOfScope s p.scope.toNat then .pass r
    else askShard (meetDropped s r t) q r p t none
  else if x.move.isSome then stay
  else match (if written then expandTo x.st else none) with
    | none => .pass r
    | some tier =>
      if (packetReq s q r p t (some tier)).isSome then askShard s q r p t (some tier) else expandAlone s q r t tier

/-- The handles of a packet, source first. -/
def tensorTests (s : State) (q : Nat) (r : PRun) (p : FPkt) : PTest :=
  let dst := match r.dst.tensor with
    | some t => tensorTest s q r p t true
    | none => .pass r
  match r.src.tensor with
  | some t =>
    match tensorTest s q r p t false with
    | .pass _ => dst
    | x => x
  | none => dst

/-! ### Moving bytes (R215, R224, R225) -/

/-- Where an element's bytes lie: their keys (none outside a tensor), with the addresses of the requests to the host that they
need (R273), one for each HOST-U page; or why they cannot be reached. -/
inductive KRd where
  | ok (ks : Option (List Nat)) (asks : List Word)
  | fault
  | absent (va : Word) (k : AccKind)
  | held (line : Nat)
  deriving DecidableEq, Repr

/-- The keys of n bytes from an address, page by page; `first` marks the first of an element. -/
def byteKeys (s : State) (q : Nat) (r : PRun) (k : AccKind) : Nat → Word → Bool → KRd
  | 0, _, _ => .ok (some []) []
  | n + 1, a, first =>
    match packetCheck s q r (some 2) k a 1 with
    | .ok key cls =>
      match byteKeys s q r k n (a + 1) false with
      | .ok (some ks) asks =>
        .ok (some (key :: ks)) (if cls = some .hostU ∧ (first || decide (a.toNat % 4096 = 0)) = true then a :: asks else asks)
      | x => x
    | .fault _ _ => .fault
    | .absent va => .absent va k
    | .held line => .held line

/-- The keys of the n-th element of a side; storage in the range of a lost expander cannot be reached (R285). -/
def sideKeys (s : State) (q : Nat) (r : PRun) (k : AccKind) (x : Side) (n : Nat) : KRd :=
  let w := x.lay.width
  match x.tensor with
  | some t =>
    match tensorOff (tensorAt s t).shape x n with
    | none => .ok none []
    | some off =>
      let key := tensorKey t off
      if storageLost s t off w || (decide (k = .read) && s.mem.poisoned key w) then .fault
      else .ok (some ((List.range w).map (fun i => key + i))) []
  | none => byteKeys s q r k w (BitVec.ofInt 64 (x.addr n)) true

def readKeys (s : State) (w : Nat) : Option (List Nat) → List Byte
  | some ks => ks.map s.mem.readByte
  | none => List.replicate w 0

def writeKeys (m : Mem) : List (Nat × Byte) → Mem
  | [] => m
  | x :: xs => writeKeys (m.writeByte x.1 x.2) xs

def putKeys (s : State) (ks : Option (List Nat)) (bs : List Byte) : State :=
  match ks with
  | some ks => { s with mem := writeKeys s.mem (ks.zip bs) }
  | none => s

/-- The combination of a reduction (R215): nearest even, gradual underflow, integers wrap; an F8 overflow gives 0x7F, as SAT = 0
does (R137; DESIGN CHOICE, log entry 70). -/
def combine (op et dst src : Nat) : Nat :=
  let m : ElMode := { et := (Et.ofCode et).getD .fp32, rm := .rne, sat := false, ftz := false }
  (elBin (redOp op) m dst src).bits

/-- The bytes an element of a packet receives: `src` and `dst` the bytes there, `i` the place of its first byte. -/
def newBytes (r : PRun) (i w : Nat) (src dst : List Byte) : List Byte :=
  match r.ins with
  | .flfill p => (List.range w).map (fun j => BitVec.ofNat 8 (nbits p.aux.toNat (8 * ((i + j) % 8)) 8))
  | .flred p => leBytes w (combine (nbits p.aux.toNat 0 4) (nbits p.aux.toNat 4 4) (leNat dst) (leNat src))
  | _ => src

/-- The die at which the n-th element of a side is written (R253). -/
def sideDie (s : State) (q : Nat) (r : PRun) (x : Side) (n : Nat) (ks : Option (List Nat)) : Nat :=
  match x.tensor with
  | some t => homeDie t
  | none => targetDie s (packetWho s q r none) (BitVec.ofInt 64 (x.addr n)) ((ks.getD []).headD 0)

/-- Moving one element: it is done, or why not; `ask`: a request leaves for the host. -/
inductive MoveRes where
  | ok (s : State)
  | ask (va : Word) (n : Nat)
  | fault
  | absent (va : Word) (k : AccKind)
  | held (line : Nat)
  deriving DecidableEq, Repr

/-- What the accesses of an element come to. -/
def KRd.bind (x : KRd) (k : Option (List Nat) → List Word → MoveRes) : MoveRes :=
  match x with
  | .ok ks asks => k ks asks
  | .fault => .fault
  | .absent va a => .absent va a
  | .held line => .held line

/-- Reads the source, then the destination where it takes part, and writes. -/
def moveEl (s : State) (q : Nat) (r : PRun) : MoveRes :=
  let n := r.next
  let w := r.dst.lay.width
  let src := match r.ins with
    | .flfill _ => KRd.ok none []
    | _ => sideKeys s q r .read r.src n
  let old := match r.ins with
    | .flred _ => sideKeys s q r .read r.dst n
    | _ => KRd.ok none []
  src.bind fun a ha => old.bind fun b hb => (sideKeys s q r .write r.dst n).bind fun d hd =>
    match hostAsk r (ha ++ hb ++ hd) with
    | some x => .ask x.1 x.2
    | none =>
      let t := putKeys s d (newBytes r (n * w) w (readKeys s w a) (readKeys s w b))
      .ok (if d.isSome then sendStamp t (qDie s q) (sideDie s q r r.dst n d) else t)

/-- The last unit is done: the packet ends with DONE, or with CANCELLED where its scope was cancelled, or its queue reset, within that
unit (R61, R229). -/
def endUnits (s : State) (q : Nat) (r : PRun) : State := endPacket s q r (if packetDead s q r then 2 else 1)

/-- Up to n elements; the packet ends once all are moved. -/
def moveEls : Nat → State → Nat → PRun → State
  | 0, s, q, r => if r.total ≤ r.done then endUnits s q r else s.setRun q { r with inUnit := false }
  | n + 1, s, q, r =>
    if r.total ≤ r.done then endUnits s q r
    else match moveEl s q r with
      | .ok s => moveEls n s q { r with next := r.next + 1, done := r.done + r.dst.lay.width, host := .idle }
      | .ask va k => s.setRun q { r with host := .sent va k }
      | .fault => endPacket s q r 3
      | .absent va k => parkPacket s q r va k
      | .held line => sendSnoop (s.setRun q { r with inUnit := true }) line

/-- The rest of the unit in which the packet stands (R214). -/
def moveUnit (s : State) (q : Nat) (r : PRun) : State :=
  moveEls ((4096 - r.done % 4096) / r.dst.lay.width) s q { r with phase := .units }

/-! ### Taking a packet through its tests (R359) -/

/-- The buffer a DC packet fills: its core and what it holds; none where the packet stamps FAULT (R168), as one with DC and DH
does once its handle has passed its tests (DESIGN CHOICE, log entry 70). -/
def cbTarget (s : State) (q : Nat) (r : PRun) (p : FPkt) : Option (Nat × CBuf) :=
  if r.claim.isNone ∨ !inWindow p.dst.toNat then none
  else (windowTarget s (packetWho s q r none) p.dst.toNat).bind (fun t =>
    let b := (s.th t.1).strm.cbAt (nbits p.aux.toNat 0 4)
    if b.count = 0 ∨ !b.mode ∨ r.total % b.slotBytes ≠ 0 ∨ (s.th t.1).marks.contains (6, nbits p.aux.toNat 0 4) then none
    else some (t.1, b))

/-- Test 5 and the first unit. Where both sides fail the range tests of R223 with different statuses, the source's decides (DESIGN
CHOICE, log entry 89). -/
def rangesTest (s : State) (q : Nat) (r : PRun) (p : FPkt) : State :=
  match (rangeSides r).findSome? (fun x => rangeStatus s q r 2 x.range.1 x.range.2) with
  | some st => endPacket s q r st
  | none =>
    match tensorTests s q r p with
    | .stop st => endPacket s q r st
    | .park va => parkPacket s q r va .read
    | .wait s => s
    | .ask va n => s.setRun q { r with host := .sent va n }
    | .pass r =>
      let r := { r with req := none }
      if p.dc then
        match cbTarget s q r p with
        | none => endPacket s q r 3
        | some t => s.setRun q { r with phase := .units, inst := t.2.inst }
      else match r.ins with
        | .flstmp _ => endPacket s q r 1
        | _ => moveUnit s q r

/-- What follows the not-before time. -/
def afterTime (s : State) (q : Nat) (r : PRun) (p : FPkt) : State :=
  match r.ins with
  | .flcoll _ => s.setRun q { r with phase := .partners }
  | _ => rangesTest s q r p

/-- Tests 3 and 4. -/
def scopeTime (s : State) (q : Nat) (r : PRun) (p : FPkt) : State :=
  let st := (s.scope p.scope.toNat).st
  if st = .cancelling ∨ st = .done ∨ r.reset then cutPacket s q r 2
  else if (s.gtime (qDie s q)).toNat < p.nbt.toNat then s.setRun q { r with phase := .nbt }
  else afterTime s q r p

/-- Test 2, an FLCOLL's own checks before its partners' end (R216, R218), then the rest; a packet that waits in test 5 goes on
there (R359). -/
def packetTests (i : Instr) (p : FPkt) (form : State → Nat → PRun → FPkt → PTest) (s : State) : Out :=
  match s.agent with
  | .flume q =>
    match s.run q with
    | none => .next s
    | some r =>
      let r := { r with ins := i }
      match r.phase with
      | .form =>
        match r.park, r.host with
        | .run, .sent _ _ => .next s
        | .run, .answered _ _ false => .next (cutPacket s q r 3)
        | .run, _ =>
          let x := s.scope p.scope.toNat
          if x.st = .free ∨ x.ctx ≠ qCtx s q then .next (cutPacket s q r 3)
          else match form s q r p with
            | .pass r =>
              match collEnded s q r with
              | some st => .next (endPacket s q r st)
              | none => .next (scopeTime s q r p)
            | .stop st => .next (cutPacket s q r st)
            | .park va => .next (parkPacket s q r va .read)
            | .wait s => .next s
            | .ask va n => .next (s.setRun q { r with host := .sent va n })
        | _, _ => packetPoint s q r fun _ => .next s
      | .ranges => packetPoint s q r fun r => .next (rangesTest s q r p)
      | _ => .next s
  | _ => .next s

/-- FLCOPY (R215). -/
def execFlcopy (p : FPkt) (s : State) : Out := packetTests (.flcopy p) p formTest s
/-- FLFILL (R215). -/
def execFlfill (p : FPkt) (s : State) : Out := packetTests (.flfill p) p formTest s
/-- FLRED (R215). -/
def execFlred (p : FPkt) (s : State) : Out := packetTests (.flred p) p formTest s
/-- FLSTMP (R116): packets of a queue are executed one at a time, so every earlier one has stamped. -/
def execFlstmp (p : FPkt) (s : State) : Out := packetTests (.flstmp p) p (fun _ _ r _ => .pass r) s
/-- FLCOLL (R216). -/
def execFlcoll (p : FPkt) (s : State) : Out := packetTests (.flcoll p) p collForm s

/-- NOT_BEFORE_EXPIRY (R76). -/
def execNotBeforeExpiry (q : Nat) (s : State) : Out :=
  match s.run q with
  | none => .next s
  | some r =>
    match r.phase, r.pkt with
    | .nbt, some p => packetPoint s q r fun r =>
      .next (if (s.gtime (qDie s q)).toNat < p.nbt.toNat then s else afterTime s q r p)
    | _, _ => .next s

/-! ### Circular-buffer delivery (R168) -/

/-- The bytes that n elements of the packet bring into a slot, whose own bytes are `old` (R215), with the requests to the host that
they need. A fill reads no source. -/
def slotEls (s : State) (q : Nat) (r : PRun) : Nat → Nat → List Byte → List Byte → List Word →
    (List Byte → List Word → MoveRes) → MoveRes
  | 0, _, _, acc, asks, k => k acc asks
  | m + 1, n, old, acc, asks, k =>
    let w := r.dst.lay.width
    let src := match r.ins with
      | .flfill _ => KRd.ok none []
      | _ => sideKeys s q r .read r.src n
    src.bind fun ks hs =>
      slotEls s q r m (n + 1) (old.drop w) (acc ++ newBytes r (n * w) w (readKeys s w ks) (old.take w)) (asks ++ hs) k

/-- The packet reads the slot it fills: a reduction combines with what lies there (R215). -/
def PRun.combines (r : PRun) : Bool :=
  match r.ins with
  | .flred _ => true
  | _ => false

/-- CB_SLOT_DELIVER (R168). -/
def execCbSlotDeliver (q : Nat) (s : State) : Out :=
  match s.run q with
  | none => .next s
  | some r =>
    match r.phase, r.pkt with
    | .units, some p =>
      if !p.dc then .next s
      else hostPoint s q r fun r =>
        if r.total ≤ r.done then .next (endUnits s q r)
        else match windowTarget s (packetWho s q r none) p.dst.toNat with
          | none => .next (endPacket s q r 3)
          | some (c, _) =>
            let n := nbits p.aux.toNat 0 4
            let b := (s.th c).strm.cbAt n
            if b.inst ≠ r.inst ∨ b.count = 0 ∨ (s.th c).marks.contains (6, n) then .next (endPacket s q r 3)
            else if b.free = 0 then .next s
            else
              let els := b.slotBytes / r.dst.lay.width
              let key := slotKey c b b.wr 0
              let put := fun (bs : List Byte) (asks : List Word) => match hostAsk r asks with
                | some x => MoveRes.ask x.1 x.2
                | none =>
                  let s : State := { s with mem := s.mem.writeBytes key bs }
                  let s := sendStamp s (qDie s q) (dieOfCore c)
                  let t := s.th c
                  let s := s.setTh c { t with strm := t.strm.setCb n (b.advWr 1) }
                  let r := { r with next := r.next + els, done := r.done + b.slotBytes, host := .idle }
                  MoveRes.ok (if r.total ≤ r.done then endUnits s q r else s.setRun q r)
              if r.combines && s.mem.poisoned key b.slotBytes then .next (endPacket s q r 3)
              else match slotEls s q r els r.next (s.mem.readBytes key b.slotBytes) [] [] put with
              | .ok s => .next s
              | .ask va k => .next (s.setRun q { r with host := .sent va k })
              | .fault => .next (endPacket s q r 3)
              | .absent va k => .next (parkPacket s q r va k)
              | .held line => .next (sendSnoop s line)
    | _, _ => .next s

/-! ### Forming a collective (R217) -/

/-- The key of the first byte of an own-scratchpad range, whose tests have passed. -/
def collKey (c : Claim) (a : Word) : Nat := spadKey c.core (a.toNat % 2 ^ 21)

/-- One element of the result: the tree over the contributions' elements. -/
def collElement (op et : Nat) (xs : List Nat) : Nat :=
  let m : ElMode := { et := (Et.ofCode et).getD .fp32, rm := .rne, sat := false, ftz := false }
  let items := xs.map (fun v => some { val := v, low := 0 : RedItem })
  match (redTree (redOp op) m 10 items {}).1 with
  | some y :: _ => y.val
  | _ => 0

/-- The bytes each participant writes, from the contributions in order of position. -/
def collResult (p : FPkt) (m : Nat) (srcs : List (List Byte)) : List Byte :=
  if collMem p then srcs.getD m []
  else if collOp p = 6 then srcs.flatten
  else if collOp p = 7 then srcs.getD (collRoot p) []
  else
    let w := packetWidth (collEt p)
    (List.range (p.len.toNat / w)).flatMap (fun e =>
      leBytes w (collElement (collOp p) (collEt p) (srcs.map (fun b => leNat ((b.drop (e * w)).take w)))))

/-- The matched packets in order of position, once all wait for one another. -/
def collAll (s : State) (q : Nat) (c : Claim) (p : FPkt) : Option (List (Nat × PRun × FPkt × Claim)) :=
  (collCores s q c (collN p)).foldr (fun core acc =>
    match acc, collRun s c (collGroup p) core with
    | some xs, some x =>
      match x.2.ins, x.2.claim with
      | .flcoll p', some d => if x.2.phase = .partners then some ((x.1, x.2, p', d) :: xs) else none
      | _, _ => none
    | _, _ => none) (some [])

/-- Some contribution cannot be read: an uncorrectable error. -/
def collPoison (s : State) (xs : List (Nat × PRun × FPkt × Claim)) : Bool :=
  (List.range xs.length).any (fun m => match xs[m]? with
    | some (_, _, p, c) => collReads p m && s.mem.poisoned (collKey c p.src) p.len.toNat
    | none => false)

/-- COLLECTIVE_FORM (R216-R218): where every matched packet has been taken, the contributions are read; a packet whose partner
disagrees with it or has ended ends itself. -/
def execCollectiveForm (q : Nat) (s : State) : Out :=
  match s.run q with
  | none => .next s
  | some r =>
    match r.phase, r.ins, r.claim with
    | .partners, .flcoll p, some c => packetPoint s q r fun r =>
      match (if (collPeers s q c p).all (fun x => collAgree p x.2.2) then collEnded s q r else some 3), collAll s q c p with
      | some st, _ => .next (endColl s q r st)
      | none, none => .next s
      | none, some xs =>
        match xs.find? (fun x => packetDead s x.1 x.2.1) with
        | some x => .next (endColl s x.1 x.2.1 2)
        | none =>
          if collPoison s xs then .next (endColl s q r 3)
          else
            let srcs := (List.range xs.length).map (fun m => match xs[m]? with
              | some (_, _, p, c) => if collReads p m then s.mem.readBytes (collKey c p.src) p.len.toNat else []
              | none => [])
            .next ((List.range xs.length).foldl (fun s m => match xs[m]? with
              | some (k, y, p, _) => s.setRun k { y with phase := .units, data := collResult p m srcs }
              | none => s) s)
    | _, _, _ => .next s

/-- The addition of two pairs of BF16 values (R271). -/
def pairAdd (a b : Nat) : Nat :=
  let add := fun (x y : Nat) => combine 0 7 x y
  add (a % 65536) (b % 65536) + 65536 * add (a / 65536) (b / 65536)

/-- Up to n words of a reduction into memory (R219). -/
def addWords : Nat → State → Nat → PRun → FPkt → State
  | 0, s, q, r, _ => s.setRun q { r with inUnit := false }
  | n + 1, s, q, r, p =>
    let a := p.dst + BitVec.ofNat 64 r.done
    if r.total ≤ r.done then s.setRun q { r with inUnit := false }
    else match packetCheck s q r (some 3) .atomic a 4 with
      | .ok key (some .dev) =>
        let v := leNat ((r.data.drop r.done).take 4)
        let s := sendStamp s (qDie s q) (targetDie s (packetWho s q r none) a key)
        addWords n { s with mem := s.mem.writeNat key 4 (pairAdd (s.mem.readNat key 4) v) } q { r with done := r.done + 4 } p
      | .ok _ _ => endColl s q r 3
      | .fault _ _ => endColl s q r 3
      | .absent va => parkPacket s q r va .atomic
      | .held line => sendSnoop (s.setRun q { r with inUnit := true }) line

/-- Every participant's additions have been performed (R219). -/
def addsDone (s : State) (q : Nat) (c : Claim) (p : FPkt) : Bool :=
  (collCores s q c (collN p)).all (fun core => match collRun s c (collGroup p) core with
    | some x => decide (x.2.phase = .complete) || decide (x.2.total ≤ x.2.done)
    | none => true)

/-- The next unit of a collective's destination, while none of its packets is parked at a page (R218); a reduction into memory
is done once every participant's is (R219). -/
def collUnit (s : State) (q : Nat) (r : PRun) (p : FPkt) : State :=
  match r.claim with
  | none => s
  | some c =>
    if (collPeers s q c p).any (fun x => decide (x.2.1.park ≠ .run) && decide (x.1 ≠ q)) then s
    else if collMem p then
      if r.done < r.total then addWords ((4096 - r.done % 4096) / 4) s q r p else if addsDone s q c p then endPacket s q r 1 else s
    else
      let bs := (r.data.drop r.done).take 4096
      let s : State := { s with mem := s.mem.writeBytes (collKey c p.dst + r.done) bs }
      let r := { r with done := r.done + bs.length }
      if r.total ≤ r.done then endPacket s q r 1 else s.setRun q r

/-- PACKET_UNIT_DONE (R214): the kill point, then the next unit. -/
def execPacketUnitDone (q : Nat) (s : State) : Out :=
  match s.run q with
  | none => .next s
  | some r =>
    match r.phase, r.ins with
    | .units, .flcoll p => unitPoint s q r fun r => .next (collUnit s q r p)
    | .units, i =>
      if ((packetOf i).map (fun p => p.dc)).getD false then .next s
      else hostPoint s q r fun r => .next (moveUnit s q r)
    | _, _ => .next s

/-! ### Completion (R207, R214) -/

/-- The header at a key is that of a queue, or of none any more (Table 9-5). -/
def Mem.setHead (m : Mem) (base : Nat) (on : Bool) : Mem :=
  { m with heads := (if on then [base] else []) ++ m.heads.filter (fun h => h != base) }

/-- A queue leaves the number space; where another has the same base, the header is that queue's still (R211). -/
def dropQueue (s : State) (qk : Nat) (q : QRec) : State :=
  let left := smDel qk s.work.queues
  { s with mem := s.mem.setHead q.base (left.any (fun y => y.2.base == q.base)), work := { s.work with queues := left } }

/-- The header and the tags of a queue at creation and at a reset (R211), written by the queue's die (R253). -/
def resetHeader (s : State) (qk : Nat) (q : QRec) : State :=
  let m := ((s.mem.clear q.base 64).setNat (q.base + 28) 1 q.logcap).setHead q.base true
  let m := (List.range q.cap).foldl (fun m j => m.writeNat (qslotKey qk q j + 56) 8 (2 ^ 64 + j - q.cap)) m
  (stampSlots { s with mem := m } q.die qk q (List.range q.cap)).setQueue qk { q with claims := [], stopped := false }

/-- A queue is reset: returns that will never be made are made (R207). -/
def resetQueue (s : State) (qk : Nat) (q : QRec) : State :=
  q.claims.foldl (fun s c => returnTiles s c.core c.auto) (resetHeader s qk q)

/-- The cancellation that stamps a packet CANCELLED counts it (R62). -/
def countCancelled (s : State) (r : PRun) : State :=
  if r.status ≠ 2 then s
  else match s.hg.cancels.find? (fun k => k.2.marked.contains (packetScope r.ins)) with
    | some k => s.updCancel k.1 (fun x => { x with packets := x.packets + 1 })
    | none => s

/-- The packet is over: pins and claim go; a reset that awaited it follows (R229). -/
def closePacket (s : State) (q : Nat) (r : PRun) (x : QRec) : State :=
  let s := (s.delRun q).setQueue q { x with claims := x.claims.filter (fun c => c.slot != r.slot) }
  let s := if r.reset then
      match s.queue q with
      | some x => resetQueue s q x
      | none => s
    else s
  reapScopes s

/-- The stamp of a packet cannot be written: its queue stops (R214), and is reset where a reset awaited the packet (R229). -/
def stampFails (s : State) (q : Nat) (r : PRun) (x : QRec) : State :=
  let s := stopFlume (s.delRun q) q x r.slot 0x07
  match r.reset, s.queue q with
  | true, some x => reapScopes (resetQueue s q x)
  | _, _ => s

/-- The requests that the count and the stamp of a packet need, in HOST-U pages (R273). -/
def stampAsks (a : Word) (c8 c0 : Option Cls) : List Word :=
  (if c8 = some .hostU then [a + 8] else []) ++ (if c0 = some .hostU then [a] else [])

/-- PACKET_COMPLETE (R214): the return of tiles, the count, the stamp; a stamp address that faults, or that the host refuses,
stops the queue. -/
def execPacketComplete (q : Nat) (s : State) : Out :=
  match s.run q, s.queue q with
  | some r, some x =>
    match r.phase, r.pkt, r.park with
    | .complete, some p, .run =>
      let bad := fun (s : State) => Host.Outcome.next (stampFails s q r x)
      match r.host with
      | .sent _ _ => .next s
      | .answered _ _ false => bad s
      | _ =>
      match packetCheck s q r none .write (p.stamp + 8) 8, packetCheck s q r none .write p.stamp 8 with
      | .ok k8 c8, .ok k0 c0 =>
        match hostAsk r (stampAsks p.stamp c8 c0) with
        | some a => .next (s.setRun q { r with host := .sent a.1 a.2 })
        | none =>
        let s := match r.claim with
          | some c => returnTiles s c.core c.auto
          | none => s
        let m := (s.mem.writeNat k8 8 r.done).writeNat k0 8 (r.slot * 256 + r.status.toNat)
        let s := sendStamp { s with mem := m } (qDie s q) (targetDie s (packetWho s q r none) p.stamp k0)
        .next (closePacket (countCancelled s r) q r x)
      | .absent va, _ => .next (parkPacket s q r va .write)
      | _, .absent va => .next (parkPacket s q r va .write)
      | .held line, _ => .next (sendSnoop s line)
      | _, .held line => .next (sendSnoop s line)
      | _, _ => bad s
    | .complete, some _, .bad _ => .next (stampFails s q r x)
    | _, _, _ => .next s
  | _, _ => .next s

/-! ### The move of an engine (R213) -/

/-- Test 1: the stamp address of a packet (R116, R214). -/
def stampBad (s : State) (q : Nat) (r : PRun) (a : Word) : Bool :=
  decide (a = 0) || !aligned a 8 || (match packetCheck s q r none .write a 8 with
    | .fault _ _ => true
    | _ => false) || (match packetCheck s q r none .write (a + 8) 8 with
    | .fault _ _ => true
    | _ => false)

/-- The tensors whose handles a packet names: it pins them from its take (R210). -/
def packetPins (s : State) (qk : Nat) (p : FPkt) : List Nat :=
  let one := fun (h : Bool) (v : Word) => if h then (liveTensor s (qCtx s qk) (v.truncate 32)).toList else []
  one p.sh p.src ++ one p.dh p.dst

/-- The packet with the scratchpad ranges it touches, from its take on (R203, R207): those of its lengths, or of its layouts; where the
engine cannot read the layouts at once, the windows in which its bases lie (DESIGN CHOICE, log entry 77). -/
def takeSpans (s : State) (q : Nat) (r : PRun) (p : FPkt) : PRun :=
  let side := fun (handle : Bool) (base : Word) (lay : Layout) =>
    ({ base := base, tensor := if handle then some 0 else none, lay := lay } : Side)
  let put := fun (a b : Layout) => { r with src := side p.sh p.src a, dst := side p.dh p.dst b }
  let keep := fun (x : PRun) => { r with spans := x.spans, dspans := x.dspans }
  match r.ins with
  | .flstmp _ | .flcoll _ => r
  | _ =>
    if !p.lp then keep (withSpans s q (put (linear p.len.toNat 0) (linear p.len.toNat 0)))
    else match peekPair s (qCtx s q) (qDie s q) p.len with
      | some (a, b) => keep (withSpans s q (put a b))
      | none =>
        let wide := fun (x : Nat × Nat × Nat) => (x.1, 0, 2 ^ 21 - 1)
        let x := withSpans s q (put (linear 1 0) (linear 1 0))
        { r with spans := x.spans.map wide, dspans := x.dspans.map wide }

/-- The engine takes the packet of slot k; a malformed one, or one whose bytes are uncorrectable (R304), goes to its stamp
(R116), and an FLCOLL among these ends the packets matched with it (R216). -/
def takePacket (s : State) (qk : Nat) (q : QRec) (k : Nat) : Option Instr × State :=
  let s := takeStamps s q.die [q.atDie, q.slotDie qk k]
  let raw := BitVec.ofNat 512 (s.mem.readNat (qslotKey qk q k) 64)
  let claim := q.claims.find? (fun c => c.slot == k)
  let p := wFPkt raw
  let r : PRun := { ins := .flstmp p, slot := k, claim := claim }
  if stampBad s qk r p.stamp then (none, stopFlume s qk q k 0x07)
  else
    let s := putHdr s q 8 8 (k + 1)
    match (if s.mem.poisoned (qslotKey qk q k) 64 then none else decodePacket raw) with
    | none =>
      let s := match claim with
        | some c => if (raw.extractLsb' 0 8).toNat = 5 then noteColl s c p 3 else s
        | none => s
      (none, s.setRun qk { r with phase := .complete, status := 3 })
    | some i =>
      let r := { r with ins := i, pins := packetPins s qk p }
      (some i, s.setRun qk (takeSpans s qk r p))

/-- What the engine of a queue does when it moves: a packet to execute, or a move of its own. -/
def flumeMove (s : State) (qk : Nat) : Option Instr × State :=
  match s.queue qk, s.run qk with
  | none, _ => (none, s)
  | some _, some r => if r.phase = .form ∨ r.phase = .ranges then (some r.ins, s) else (none, s)
  | some q, none =>
    let k := ridxOf s q
    if q.kind ≠ .flume ∨ q.stopped then (none, s)
    else match queueLine s qk q k with
      | some line => (none, sendSnoop s line)
      | none =>
        if tagOf s qk q k = k then takePacket s qk q k
        else if (tagOf s qk q k + q.cap) % 2 ^ 64 = k then (none, s)
        else (none, stopFlume s qk q k 0x05)

end Sys2Proof.Machine
end

