-- ==== Sys2Proof/Machine/Time.lean ====
section
/-! DEFINITION. Events of time, clocks and power: exchanges and SYNCST (R69-R72), the time record (R73), the ends of
TIMEWAIT and MWAIT (R75, R325), HEADROOM (R16), sensors (R18-R21), clocks (R14), and the fill of load-blocks (R209). -/
namespace Sys2Proof.Machine
open Sys2Proof

/-! ### Waits of strands -/

/-- TIMEWAIT_EXPIRY (R75): the wait of core c ends once GTIME has reached its time. -/
def execTimewaitExpiry (core : Nat) (s : State) : Out :=
  let now := gtimeOf s core
  match (s.th core).job.wait with
  | .timewait u none => .next (if u.toNat ≤ now.toNat then setWait s core (.timewait u (some now)) else s)
  | _ => .next s

/-- MWAIT_POLL (R325): a HOST-U word is read again once 1 µs has passed since it was last read, by a request to the host. -/
def execMwaitPoll (core : Nat) (s : State) : Out :=
  let now := gtimeOf s core
  let j := (s.th core).job
  match j.wait, j.host with
  | .mwait va key ref true last .none, .idle =>
    .next (if last.toNat + 1000 ≤ now.toNat then monitorPoll s core va key ref now else s)
  | _, _ => .next s

/-- MWAIT_WAKE (R325): a write has been performed at the monitored word of core c. -/
def execMwaitWake (core : Nat) (s : State) : Out :=
  match (s.th core).job.wait with
  | .mwait va key ref false last .none => .next (if hostWord key then s else monitorRead s core va key ref false last)
  | _ => .next s

/-- CXL_CACHE_SNOOP (R325): the host snoops or takes the 128-byte line `line` of host memory from the die's cache; a HOST-C
word on it is read again. -/
def execCxlCacheSnoop (core line : Nat) (s : State) : Out :=
  match (s.th core).job.wait with
  | .mwait va key ref false last .none =>
    .next (if hostWord key ∧ (key - hostKey 0) / 128 = line then monitorRead s core va key ref false last else s)
  | _ => .next s

/-! ### Exchanges (R69-R72) -/

/-- The dies of the package (Table 1-1). -/
def dieCount : Nat := 18

/-- Consecutive good exchanges, saturating (Table 3-9). -/
def goodNext (d : DieTime) (good : Bool) : BitVec 8 :=
  if !good then 0 else if d.good = 255#8 then 255#8 else d.good + 1

/-- GTIME of a die at its first lock: the one step, by the estimate (R69). -/
def lockStep (g : Word) (est : Int) : Word :=
  if Config.lockSubtracts then g - BitVec.ofInt 64 est else g + BitVec.ofInt 64 est

/-- An exchange whose offset estimate is `est` ns (R69, R72). -/
def exchange (d : DieTime) (est : Int) : DieTime :=
  let good := decide (-4 ≤ est) && decide (est ≤ 4)
  let n := goodNext d good
  let e := { d with good := n, exchAt := d.gtime, errAt := if good then d.gtime else d.errAt }
  match d.st with
  | .locked => if good then { e with err := 4 } else e
  | .lost => if 20 ≤ n.toNat then { e with st := .locked, err := 4 } else e
  | .free =>
    if 20 ≤ n.toNat then
      let g := lockStep d.gtime est
      { e with st := .locked, err := 4, gtime := g, exchAt := g, errAt := g }
    else e

/-- While a die is LOCKED, its GTIME lies within ERR of the grandmaster's (R70). -/
def dieTimeOk (grand : Word) (d : DieTime) : Bool :=
  decide (d.st ≠ .locked) ||
    (decide (d.gtime.toNat ≤ grand.toNat + d.err.toNat) && decide (grand.toNat ≤ d.gtime.toNat + d.err.toNat))

/-- The bound of R70 on every die of the package. -/
def timeOk (s : State) : Bool := (List.range dieCount).all (fun d => dieTimeOk (s.gtime 16) (s.die d).time)

/-- Time passes, or is corrected, only as R70 bounds it: a move that would break the bound does not happen. -/
def keepTime (s t : State) : State := if timeOk t then t else s

/-- GTIME_EXCHANGE (R69): 1 ms of the die's GTIME has passed since its last exchange. -/
def execGtimeExchange (die : Nat) (est : Int) (s : State) : Out :=
  let d := s.die die
  if dieCount ≤ die ∨ d.time.gtime.toNat < d.time.exchAt.toNat + 1000000 then .next s
  else .next (keepTime s (s.setDie die { d with time := exchange d.time est }))

/-- TSYNC_LOSS is posted to the event queue of a context, or lost (R284). -/
def postLoss (s : State) (value : Word) (die ctx : Nat) : State :=
  match postEvent s ctx value 0 0 2 die with
  | some s => s
  | none =>
    let x := s.ctx ctx
    s.setCtx ctx { x with regs := { x.regs with eqlost := x.regs.eqlost + 1 } }

/-- The contexts that exist. -/
def liveCtxs (s : State) : List Nat := (List.range 64).filter (fun c => (s.ctx c).live)

/-- 1 ms without a good exchange (R72). -/
def missed (d : DieTime) : DieTime :=
  let e := { d with errAt := d.errAt + 1000000, good := 0 }
  if d.st = .free then e
  else
    let err := if d.err = 0xFFFF#16 then d.err else d.err + 1
    if d.st = .locked ∧ 16 < err.toNat then
      { e with err := err, st := .lost, losses := if d.losses = 0xFFFF#16 then d.losses else d.losses + 1 }
    else { e with err := err }

/-- SYNC_ERR_TICK (R72). -/
def execSyncErrTick (die : Nat) (s : State) : Out :=
  let d := s.die die
  if dieCount ≤ die ∨ d.time.gtime.toNat < d.time.errAt.toNat + 1000000 then .next s
  else
    let t := missed d.time
    let s := s.setDie die { d with time := t }
    if d.time.st ≠ .lost ∧ t.st = .lost then
      .next ((liveCtxs s).foldl (fun s c => postLoss s (syncstWord t) die c) (logEv s "TSYNC_LOSS" [die]))
    else .next s

/-- The bound of GTIME against the host (R70): 40 ns while ERR is 4, wider by what ERR exceeds 4. -/
def hostBound (s : State) : Nat := 40 + ((s.die 16).time.err.toNat - 4)

/-- The port that carries PTM (R73). -/
def ptmPort (m : Mgmt) : Port := if m.ptmctl.getLsbD 0 then .b else .a

/-- TIME_RECORD_WRITE (R73): 1 ms after the last record, GTIME of XD0, the host's PTM time and the bound, to the host address of
TIMEREC, with the causal stamp (R253); 0 registers none. The time comes through the port that carries PTM. -/
def execTimeRecordWrite (port : Port) (ptm : Word) (s : State) : Out :=
  let a := s.mgmt.timerec.toNat
  let now := s.gtime 16
  if a = 0 ∨ port ≠ ptmPort s.mgmt ∨ !s.portUp port ∨ now.toNat < s.mgmt.recAt.toNat + 1000000 then .next s
  else
    let key := hostKey a
    let m := ((s.mem.writeNat key 8 now.toNat).writeNat (key + 8) 8 ptm.toNat).writeNat (key + 16) 8 (hostBound s)
    .next { sendStamp s 16 (if port = .b then 17 else 16) with mem := m, mgmt := { s.mgmt with recAt := now } }

/-! ### Power (R16-R21) -/

/-- The sensor of a die's column. -/
def State.sensor (s : State) (die col : Nat) : Sensor := (s.die die).sensors.getD col {}

/-- The failure of a core's column is in force (R21). -/
def columnDown (s : State) (c : Nat) : Bool := (s.sensor (dieOfCore c) (c % 8)).inForce

/-- The failure of a sensor of an array's quad is in force (R21). -/
def arrayDown (s : State) (a : Nat) : Bool :=
  let col := 2 * (a % 4)
  (s.sensor (a / 16) col).inForce || (s.sensor (a / 16) (col + 1)).inForce

/-- The readings of a core at a refresh (Table 1-6). -/
def refreshed (p : Power) (budget : BitVec 16) (draw fmax : Nat) : Power :=
  let head := budget.toNat - draw
  { p with head := BitVec.ofNat 16 head, cls := BitVec.ofNat 4 (Nat.min 15 (head / 64)),
           fmax := BitVec.ofNat 12 (Nat.max 600 (Nat.min 2100 fmax)) }

/-- The readings of a core whose column's sensor is failed (R21). -/
def downed (p : Power) : Power := { p with head := 0, cls := 0, fmax := 600 }

/-- The clock at which a block runs: during a change the lower of the old and the new frequency (R14). -/
def runsAt (mhz : Nat) (change : Option Nat) : Nat :=
  match change with
  | some m => Nat.min mhz m
  | none => mhz

/-- The control layer of a core in kHz: half its fast layer (R12). -/
def Power.controlKhz (p : Power) : Nat := 500 * runsAt p.mhz p.change

/-- The sequencer's clock, and that of the service layer and the Cistern, in MHz, which no loop changes (R12). -/
def sequencerMhz : Nat := 900
def serviceMhz : Nat := 1200

/-- The reading of the sensor of a core's column lies above 105 °C (R18). -/
def hot (s : State) (c : Nat) : Bool :=
  let x := s.sensor (dieOfCore c) (c % 8)
  x.failed.isNone && (match x.temps with
    | t :: _ => decide (10500 < t)
    | [] => false)

/-- The lowest operating point of a die's loop, no higher than the die's clock (R12, R21; log entry 3). -/
def lowPoint (die : Nat) : Nat := Nat.min (Config.lowClock die) (if die < 16 then 1600 else 1000)

/-- A clock below `mhz` that a loop takes, from a free value; `low` is its lowest point. -/
def lowerPoint (v low mhz : Nat) : Nat := if mhz ≤ low then mhz else low + v % (mhz - low)

/-- A core's loop, whose core draws above its budget or is above 105 °C, lowers its clock (R15, R18), by how much the spec leaves
open; FMAX shows it, and HEAD shows the thermal limit, by a free value. A change in progress, a raise too, is kept (DESIGN CHOICE, log
entry 88). -/
def throttled (p : Power) (v : Nat) (warm : Bool) : Power :=
  let m := lowerPoint v 600 p.mhz
  { p with change := if p.change.isSome then p.change else some m, fmax := BitVec.ofNat 12 (Nat.min p.fmax.toNat m),
           head := if warm then BitVec.ofNat 16 (Nat.min p.head.toNat (v / 65536)) else p.head,
           cls := if warm then BitVec.ofNat 4 (Nat.min 15 (Nat.min p.head.toNat (v / 65536) / 64)) else p.cls }

/-- HEADROOM_REFRESH (R16): every 10 µs of local time; `draw` is the average draw of the last 10 µs in mW, `fmax` the clock the
core can hold. -/
def execHeadroomRefresh (core draw fmax : Nat) (s : State) : Out :=
  let now := gtimeOf s core
  let k := s.core core
  if 512 ≤ core ∨ now.toNat < k.power.headAt.toNat + 10000 then .next s
  else
    let (n, t) := s.tick
    let p := { k.power with headAt := now }
    let p :=
      if columnDown s core then downed p
      else
        let p := refreshed p (Config.budget core) draw fmax
        if (Config.budget core).toNat < draw || hot s core then throttled p (Config.freeWord n).toNat (hot s core) else p
    .next (t.setCore core { k with power := p })

/-- The columns whose sensors are not failed. -/
def goodCols (ss : List Sensor) (cols : List Nat) : List Nat :=
  cols.filter (fun c => (ss.getD c {}).failed.isNone)

/-- The comparison columns of column c of n (R20): the nearest not failed on each side, or the nearest two inward of an edge
column. -/
def compareCols (ss : List Sensor) (n c : Nat) : List Nat :=
  let left := goodCols ss ((List.range c).reverse)
  let right := goodCols ss ((List.range (n - c - 1)).map (fun j => c + 1 + j))
  if c = 0 then right.take 2
  else if c + 1 = n then left.take 2
  else left.take 1 ++ right.take 1

def listMax (xs : List Int) : Int := xs.foldl (fun a x => if a < x then x else a) (xs.headD 0)
def listMin (xs : List Int) : Int := xs.foldl (fun a x => if x < a then x else a) (xs.headD 0)

/-- Cause 2 (Table 1-7), on a window of 100 samples. -/
def stuckSensor (x : Sensor) : Bool :=
  let ps := x.powers.map Int.ofNat
  decide (100 ≤ x.temps.length) && decide (listMax x.temps - listMin x.temps < 25) &&
    decide (listMax ps < 5 * (listMax ps - listMin ps))

/-- The cause of failure of column c at a sample, the lowest of those that hold (Table 1-7); temperatures in hundredths
of a degree. -/
def failCause (ss : List Sensor) (temps : List Int) (c : Nat) : Option Nat :=
  let t := temps.getD c 0
  let cmp := compareCols ss ss.length c
  if t < -2000 ∨ 14000 < t then some 1
  else if stuckSensor (ss.getD c {}) then some 2
  else if cmp.length = 2 ∧ cmp.all (fun j => decide (2500 < (t - temps.getD j 0).natAbs)) = true then some 3
  else none

/-- A sensor takes a sample; the readings of a failed one are ignored (R21). -/
def Sensor.push (x : Sensor) (t : Int) (p : Nat) : Sensor :=
  if x.failed.isSome then x else { x with temps := (t :: x.temps).take 100, powers := (p :: x.powers).take 100 }

/-- The effects of the failures known at the sample before come into force (R21); for a memory or an I/O die the spec gives no
time, and they do so at its next sample too (DESIGN CHOICE, log entry 64). The fixed clock takes the place of a change in progress
(DESIGN CHOICE, log entry 88). -/
def bringDown (s : State) (die : Nat) : State :=
  let d := s.die die
  let new := (List.range d.sensors.length).filter (fun c => (d.sensors.getD c {}).failed.isSome && !(d.sensors.getD c {}).inForce)
  if new.isEmpty then s
  else
    let d := { d with sensors := d.sensors.map (fun x => { x with inForce := x.failed.isSome }) }
    if 8 ≤ die then s.setDie die { d with change := some (lowPoint die) }
    else
      let s := s.setDie die d
      let cores := ((List.range 64).filter (fun j => new.contains (j % 8))).map (fun j => die * 64 + j)
      let arrs := ((List.range 16).filter (fun n => new.contains (2 * (n % 4)) || new.contains (2 * (n % 4) + 1))).map
        (fun n => die * 16 + n)
      let s := cores.foldl (fun s c =>
        let k := s.core c
        s.setCore c { k with power := { downed k.power with change := some 600 } }) s
      arrs.foldl (fun s a => s.setArray a { s.array a with change := some 600 }) s

/-- SENSOR_SAMPLE (R19, R20): the temperatures, in hundredths of a degree, and the powers in mW of the columns of a die, at 1 ms of
its time since the last sample. TSENS_FAIL is logged at the sample that marks the sensor (DESIGN CHOICE, log entry 64: R21's
list holds "from the next sample onward"). -/
def execSensorSample (die : Nat) (temps : List Int) (powers : List Nat) (s : State) : Out :=
  let d := s.die die
  let n := d.sensors.length
  if dieCount ≤ die ∨ d.time.gtime.toNat < d.sampleAt.toNat + 1000000 ∨ temps.length ≠ n ∨ powers.length ≠ n then .next s
  else
    let s := bringDown s die
    let d := s.die die
    let ss := (List.range n).map (fun c => (d.sensors.getD c {}).push (temps.getD c 0) (powers.getD c 0))
    let found := (List.range n).filterMap (fun c =>
      if (ss.getD c {}).failed.isSome then none else (failCause ss temps c).map (fun k => (c, k)))
    let ss := (List.range n).map (fun c =>
      match found.find? (fun f => f.1 == c) with
      | some f => { ss.getD c {} with failed := some f.2 }
      | none => ss.getD c {})
    let s := s.setDie die { d with sensors := ss, sampleAt := d.time.gtime }
    .next (found.foldl (fun s f => logEv s "TSENS_FAIL" [die, f.1, f.2]) s)

/-! ### Clocks (R12, R14) -/

/-- A frequency within the range of a core's fast layer or an array (Table 1-4). -/
def inRange (mhz : Nat) : Bool := decide (600 ≤ mhz) && decide (mhz ≤ 2100)

/-- The clock that an array's or a die's loop sets: the one asked for, or, where the block draws more than its budget and that
would not lower the clock, a lower one, by how much the spec leaves open (R15). -/
def loopPoint (v low cur budget : Nat) (x : ClockSet) : Nat :=
  if budget < x.draw ∧ cur ≤ x.mhz then lowerPoint v low cur else x.mhz

/-- The loop of a memory or an I/O die, whose highest clock is `top`, starts a change. -/
def dieClock (s : State) (die top : Nat) (x : ClockSet) : State :=
  let d := s.die die
  let (n, t) := s.tick
  if x.mhz < lowPoint die ∨ top < x.mhz ∨ d.change.isSome ∨ d.sensors.any (fun y => y.inForce) then s
  else
    let m := loopPoint (Config.freeWord n).toNat (lowPoint die) d.mhz (Config.dieBudget die) x
    t.setDie die { d with change := some m }

/-- CLOCK_CHANGE (R14): a block's loop starts a change, by its average draw over the last 10 µs; none starts while one is in
progress, nor where a sensor's failure fixes the clock (R21). Where the block draws more than its budget its loop lowers the clock
(R15); a core's does so at the refresh (`throttled`), and is not raised above 105 °C or FMAX (R16, R18). An I/O die's clock, which
Table 1-4 gives as fixed, leaves 1.0 GHz only while the die draws more than its budget (DESIGN CHOICE, log entry 64). That no loop starts a
change while one is in progress is the model's choice (DESIGN CHOICE, log entry 88). -/
def execClockChange (b : Block) (x : ClockSet) (s : State) : Out :=
  let mhz := x.mhz
  let draw := x.draw
  match b with
  | .core c =>
    let k := s.core c
    let may := decide (mhz ≤ k.power.mhz) ||
      (decide (draw ≤ (Config.budget c).toNat) && !hot s c && decide (mhz ≤ k.power.fmax.toNat))
    if 512 ≤ c ∨ !inRange mhz ∨ !may ∨ k.power.change.isSome ∨ columnDown s c then .next s
    else .next (s.setCore c { k with power := { k.power with change := some mhz } })
  | .array die n =>
    let a := die * 16 + n
    let y := s.array a
    let (k, t) := s.tick
    if 8 ≤ die ∨ 16 ≤ n ∨ !inRange mhz ∨ y.change.isSome ∨ arrayDown s a then .next s
    else
      let m := loopPoint (Config.freeWord k).toNat 600 y.mhz (Config.arrayBudget a) x
      .next (t.setArray a { y with change := some m })
  | .mem i => if 8 ≤ i then .next s else .next (dieClock s (8 + i) 1600 x)
  | .io i =>
    if 2 ≤ i ∨ (draw ≤ Config.dieBudget (16 + i) ∧ mhz ≠ 1000) then .next s else .next (dieClock s (16 + i) 1000 x)

/-- A change of a die's clock in progress ends. -/
def dieClockDone (s : State) (die : Nat) : State :=
  let d := s.die die
  match d.change with
  | some m => s.setDie die { d with mhz := m, change := none }
  | none => s

/-- CLOCK_CHANGE_DONE (R14). -/
def execClockChangeDone (b : Block) (s : State) : Out :=
  match b with
  | .core c =>
    let k := s.core c
    match k.power.change with
    | some m => .next (s.setCore c { k with power := { k.power with mhz := m, change := none } })
    | none => .next s
  | .array die n =>
    let x := s.array (die * 16 + n)
    match x.change with
    | some m => .next (s.setArray (die * 16 + n) { x with mhz := m, change := none })
    | none => .next s
  | .mem i => .next (if 8 ≤ i then s else dieClockDone s (8 + i))
  | .io i => .next (if 2 ≤ i then s else dieClockDone s (16 + i))

/-! ### Load-blocks (R209) -/

/-- What the fill of a block finds; `ask`: a HOST-U line must be requested from the host (R273). -/
inductive Fill where
  | ok (data : List Byte)
  | ask (va : Word) (i : Nat)
  | fault (cause : BitVec 8) (va : Word)
  | absent (va : Word)
  | held (line : Nat)
  deriving DecidableEq, Repr

/-- n lines of 128 bytes from an address, line i of the block first, read as the strand's loads read them; the requests for the
lines before `got` have been completed. -/
def fillLines (s : State) (w : Who) (got : Nat) : Nat → Nat → Word → Fill
  | 0, _, _ => .ok []
  | n + 1, i, a =>
    match checkAccess s w .read a 128 with
    | .fault cause va => .fault cause va
    | .absent va => .absent va
    | .held line => .held line
    | .ok key cls =>
      if cls = some .hostU ∧ got ≤ i then .ask a i
      else match fillLines s w got n (i + 1) (a + 128) with
        | .ok bs => .ok (s.mem.readBytes key 128 ++ bs)
        | r => r

/-- Block i of core c is replaced. -/
def setBlock (s : State) (c i : Nat) (b : LoadBlock) : State :=
  let k := s.core c
  s.setCore c { k with banks := { k.banks with blocks := k.banks.blocks.set i b } }

/-- A fault of a fill, for the next instruction routed to VL, or for a load that waits on the block (R209). -/
def failBlock (s : State) (c i : Nat) (b : LoadBlock) (cause : BitVec 8) (va : Word) : State :=
  setBlock s c i { b with bad := some { cause := cause, va := va, seq := (s.th c).q.seq }, park := .run, host := .idle }

/-- The semaphore of a full block, raised once; held while its count stands at 65,535 (R179). -/
def raiseBlock (s : State) (c i : Nat) (b : LoadBlock) : State :=
  let n := b.sem.toNat
  if semBad s c n then failBlock s c i b cEcc b.va
  else if semOf s c n = 0xFFFF then s else setSemOf (setBlock s c i { b with raised := true }) c n (semOf s c n + 1)

/-- The fill of a block that is not full: it ends, parks on a page, or meets a fault. -/
def fillBlock (s : State) (c i : Nat) (b : LoadBlock) : State :=
  let got := match b.host with
    | .answered _ n true => n + 1
    | _ => 0
  match b.park, b.host with
  | .wait _, _ => s
  | .bad va, _ => failBlock s c i b cPageFault va
  | .run, .sent _ _ => s
  | .run, .answered va _ false => failBlock s c i b cPageFault va
  | .run, _ =>
    match fillLines s (s.whoThread c) got b.lines 0 b.va with
    | .ask va n => setBlock s c i { b with host := .sent va n }
    | .ok bs =>
      let b := { b with full := true, data := bs, host := .idle }
      raiseBlock (setBlock s c i b) c i b
    | .fault cause va => failBlock s c i b cause va
    | .absent va =>
      let r := postFault s (s.ctxOf c) va agBlock .read (dieOfCore c) (BitVec.ofNat 16 (c % 64)) c i
      setBlock r.2 c i { b with park := .wait r.1 }
    | .held line => sendSnoop s line

/-- LOADBLOCK_FILL_DONE (R209). -/
def execLoadblockFillDone (core i : Nat) (s : State) : Out :=
  match (s.core core).banks.blocks[i]? with
  | none => .next s
  | some b =>
    if b.raised ∨ b.bad.isSome then .next s
    else if b.full then .next (raiseBlock s core i b)
    else .next (fillBlock s core i b)

end Sys2Proof.Machine
end

