-- ==== Sys2Proof/Machine/Page.lean ====
section
/-! DEFINITION. Fault records and verdicts (R282, R283), invalidation (R227), and the context page: scopes, queues, TRH
(R52, R53, R211, R281), with what the host reads there. -/
namespace Sys2Proof.Machine
open Sys2Proof

/-! ### Ports -/

/-- A write of the host can arrive at BAR0 through a port: a host port whose link is up. -/
def hostPort (s : State) (p : Port) : Bool := (p == .a || p == .b) && s.portUp p

/-- Some host port can carry a write of a context page; in RECOVERY the pages do not act (R300). -/
def pageActs (s : State) (ctx : Nat) : Bool :=
  (s.portUp .a || s.portUp .b) && s.mgmt.st != .recovery && (s.ctx ctx).live

/-- A register of a context page changes. -/
def setRegs (s : State) (ctx : Nat) (r : CtxRegs) : State := s.setCtx ctx { s.ctx ctx with regs := r }

/-! ### Fault records (R282) -/

/-- The 32 bytes of a record (Table 9-7). -/
def writeFault (m : Mem) (key : Nat) (f : FaultRec) (gtime : Word) : Mem :=
  let fields : List (Nat × Nat × Nat) := [
    (0, 8, f.va.toNat), (8, 4, f.fid), (12, 1, f.ctx), (13, 1, f.agent.toNat), (14, 1, f.access.toNat), (15, 1, f.die),
    (16, 2, f.unit.toNat), (18, 6, 0), (24, 8, gtime.toNat)]
  fields.foldl (fun m x => m.writeNat (key + x.1) x.2.1 x.2.2) m

/-- FAULT_RECORD_POST (R282): the oldest record of a die, once its context's queue has room; its FID is then open. -/
def execFaultRecordPost (die : Nat) (s : State) : Out :=
  let d := s.die die
  match d.faults with
  | [] => .next s
  | f :: fs =>
    let r := (s.ctx f.ctx).regs
    match hostQueueLog r.fqbase with
    | none => .next s
    | some log =>
      if 2 ^ log ≤ (r.fqwr - r.fqrd).toNat then .next s
      else
        let m := writeFault s.mem (hostQueueKey r.fqbase log r.fqwr.toNat) f (s.gtime die)
        let s := s.setDie die { d with faults := fs }
        let s : State := { sendStamp s die (hostDie s f.ctx) with mem := m, work := { s.work with fids := s.work.fids ++ [f] } }
        .next (raiseVector (setRegs s f.ctx { r with fqwr := r.fqwr + 1 }) f.ctx)

/-- The verdict on a FID reaches a park (R226, R283): RETRY translates again, UNRESOLVABLE is a protection fault. -/
def parkVerdict (fid : Nat) (bad : Option Word) (p : ParkSt) : ParkSt :=
  if p = .wait fid then (match bad with
    | some va => .bad va
    | none => .run) else p

/-- The verdict reaches the parks of core c. -/
def settleCore (s : State) (c fid : Nat) (bad : Option Word) : State :=
  let f := parkVerdict fid bad
  let k := s.core c
  let q := fun (x : VQueue) => { x with park := f x.park }
  let t := { k.th with q := { k.th.q with vl := q k.th.q.vl, va := q k.th.q.va, vs := q k.th.q.vs },
                       job := { k.th.job with park := f k.th.job.park } }
  let frames := k.bind.frames.map (fun x => { x with ring := { x.ring with park := f x.ring.park } })
  s.setCore c { k with
    th := t, ring := { k.ring with park := f k.ring.park }, bind := { k.bind with frames := frames },
    banks := { k.banks with blocks := k.banks.blocks.map (fun b => { b with park := f b.park }) } }

/-- The verdict reaches the agent of a record, if it still waits. -/
def settleAgent (s : State) (x : FaultRec) (bad : Option Word) : State :=
  let f := parkVerdict x.fid bad
  if x.agent = agFlume then
    match s.run x.who with
    | some r => s.setRun x.who { r with park := f r.park }
    | none => s
  else if x.agent = agSeq then
    if x.sub = 0 then s.setLaunch x.who { s.launch x.who with park := f (s.launch x.who).park }
    else match s.frame x.who with
      | some y => s.setFrame x.who { y with park := f y.park }
      | none => s
  else settleCore s x.who x.fid bad

/-- VREFA or VREFB rises, saturating (R283). -/
def refusedVerdict (s : State) (port : Port) : State :=
  let up := fun (v : BitVec 16) => if v = 0xFFFF#16 then v else v + 1
  match port with
  | .a => { s with mgmt := { s.mgmt with vrefA := up s.mgmt.vrefA } }
  | .b => { s with mgmt := { s.mgmt with vrefB := up s.mgmt.vrefB } }
  | _ => s

/-- A write of VERDICT on a page of BAR2 arrives, whether or not its context exists; in RECOVERY the pages do not act. -/
def verdictActs (s : State) (port : Port) (ctx : Nat) : Bool := hostPort s port && s.mgmt.st != .recovery && decide (ctx < 64)

/-- A write of VERDICT through a port (R283). -/
def verdict (port : Port) (ctx : Nat) (fid : BitVec 32) (retry : Bool) (s : State) : Out :=
  if !verdictActs s port ctx then .next s
  else match s.work.fids.find? (fun x => x.ctx == ctx && BitVec.ofNat 32 x.fid == fid) with
    | none => .next (refusedVerdict s port)
    | some x =>
      let s : State := { s with work := { s.work with fids := s.work.fids.filter (fun y => y.fid != x.fid) } }
      .next (settleAgent s x (if retry then none else some x.va))

/-- VERDICT_RETRY (R283). -/
def execVerdictRetry (port : Port) (ctx : Nat) (fid : BitVec 32) (s : State) : Out := verdict port ctx fid true s
/-- VERDICT_UNRESOLVABLE (R283). -/
def execVerdictUnresolvable (port : Port) (ctx : Nat) (fid : BitVec 32) (s : State) : Out := verdict port ctx fid false s

/-! ### Invalidation (R227) -/

/-- INVAL (R227): a request, acknowledged later. -/
def execInval (ctx : Nat) (val : Word) (s : State) : Out :=
  let x := s.ctx ctx
  .next (if pageActs s ctx then s.setCtx ctx { x with invals := x.invals ++ [val] } else s)

/-- The pages an INVAL covers: the first and how many. -/
def invalRange (val : Word) : Nat × Nat :=
  let n := match nbits val.toNat 0 2 with
    | 0 => 1
    | 1 => 16
    | 2 => 512
    | _ => 262144
  (nbits val.toNat 12 45 / n * n, n)

/-- The written value covers a page; all ones covers the context. -/
def invalCovers (val : Word) (page : Nat) : Bool :=
  let r := invalRange val
  val == BitVec.allOnes 64 || (decide (r.1 ≤ page) && decide (page < r.1 + r.2))

/-- The addresses of a context whose requests the host has not answered, or whose answers their agents have not taken (R273): accesses
begun under a translation and not yet performed. -/
def openAsks (s : State) (ctx : Nat) : List Word :=
  (s.cores.filter (fun x => x.2.bind.ctx == some ctx)).flatMap (fun x =>
    let t := x.2.th
    t.job.host.asks ++ t.job.code.asks ++ t.q.vl.host.asks ++ t.q.va.host.asks ++ t.q.vs.host.asks ++ x.2.ring.host.asks ++
      x.2.banks.blocks.flatMap (fun b => b.host.asks)) ++
    (s.work.runs.filter (fun x => qCtx s x.1 == ctx)).flatMap (fun x => x.2.host.asks)

/-- An armed MWAIT whose word the request v covers translates its address again at its next move, as the monitor's every later read
does (R227, R228; DEDUCED, log entry 101); what a re-read has found before stands. -/
def rearm (s : State) (ctx : Nat) (v : Word) : State :=
  s.cores.foldl (fun s x =>
    let k := s.core x.1
    match k.th.job.wait with
    | .mwait va _ _ _ _ .none =>
      if k.bind.ctx == some ctx && !inWindow va.toNat && invalCovers v (va.toNat / 4096) then setWait s x.1 .none else s
    | _ => s) s

/-- INVALIDATION_ACK (R227): every die drops the entries of the oldest request, once every access that used the old translation has
been performed; an access that asks nothing of the host is a single step (DEDUCED, log entry 101). -/
def execInvalidationAck (ctx : Nat) (s : State) : Out :=
  let x := s.ctx ctx
  match x.invals with
  | [] => .next s
  | v :: vs =>
    if (openAsks s ctx).any (fun va => invalCovers v (va.toNat / 4096)) then .next s
    else
      let s := s.setCtx ctx { x with invals := vs, regs := { x.regs with invdone := x.regs.invdone + 1 } }
      .next (rearm { s with tlb := s.tlb.filter (fun e => !(e.ctx == ctx && invalCovers v e.page)) } ctx v)

/-! ### Scopes of the driver (R52, R53, R281) -/

/-- A compute die in service. -/
def inService (s : State) (die : Nat) : Bool := decide (die < 8) && s.harvest.getLsbD die

/-- SCOPERES takes the result of a command. -/
def scopeRes (s : State) (ctx : Nat) (v : Word) : Out :=
  .next (setRegs s ctx { (s.ctx ctx).regs with scoperes := v })

/-- The driver's new scope (R52). -/
def driverScope (s : State) (ctx : Nat) (parent : Option Nat) (home : Nat) : Out :=
  match pickScope s with
  | none => scopeRes s ctx rNofree
  | some n => scopeRes (allocScope s n ctx parent home .driver) ctx (BitVec.ofNat 64 n)

/-- SCOPECMD_CREATE_ROOT (R52): the home is in service and bound. -/
def execScopecmdCreateRoot (ctx home : Nat) (s : State) : Out :=
  if !pageActs s ctx then .next s
  else if !inService s home ∨ (selfDie (s.ctx ctx).vdmap home).isNone ∨ (s.ctx ctx).dying then scopeRes s ctx rBadscope
  else driverScope s ctx none home

/-- SCOPECMD_CREATE_CHILD (R52). -/
def execScopecmdCreateChild (ctx : Nat) (parent : BitVec 16) (s : State) : Out :=
  let n := parent.toNat
  let p := s.scope n
  if !pageActs s ctx then .next s
  else if p.st ≠ .live ∨ p.ctx ≠ ctx ∨ 64 ≤ (ancestors s n).length then scopeRes s ctx rBadscope
  else driverScope s ctx (some n) p.home

/-- SCOPECMD_FREE (R53): the driver frees what it created. -/
def execScopecmdFree (ctx : Nat) (scope : BitVec 16) (s : State) : Out :=
  let n := scope.toNat
  let x := s.scope n
  if !pageActs s ctx then .next s
  else if !scopeOpen x ∨ x.ctx ≠ ctx ∨ x.creator ≠ .driver then scopeRes s ctx rBadscope
  else scopeRes (driverFree s n) ctx (BitVec.ofNat 64 n)

/-! ### Queues of the driver (R26, R211, R281) -/

/-- QRES takes the result of a command. -/
def queueRes (s : State) (ctx : Nat) (v : Word) : Out :=
  .next (setRegs s ctx { (s.ctx ctx).regs with qres := v })

/-- The lowest free queue number from k on. -/
def freeQueue (s : State) : Nat → Nat → Option Nat
  | 0, _ => none
  | n + 1, k => if (s.queue k).isNone then some k else freeQueue s n (k + 1)

/-- The number of a new queue: the one the hardware chooses if it is free, else the lowest. -/
def pickQueue (s : State) : Option Nat :=
  let h := (Config.queueHint s.fresh).toNat
  if (s.queue h).isNone then some h else freeQueue s 65536 0

/-- A create: a DEV base of 64-byte alignment with room for the slots, 2-16 for LOGCAP, a die in service (R211, R281); lines
of the host's are taken back first (R276). -/
def createQueue (kind : QKind) (ctx logcap die : Nat) (s : State) : Out :=
  let base := (s.ctx ctx).regs.qbase.toNat
  let size := 64 + 64 * 2 ^ logcap
  if !pageActs s ctx then .next s
  else if base % 64 ≠ 0 ∨ 0xC000000000 < base + size ∨ logcap < 2 ∨ 16 < logcap ∨ !inService s die ∨ (s.ctx ctx).dying then
    queueRes s ctx rNoqueue
  else match s.mem.heldLine base size with
    | some line => .next (sendSnoop s line)
    | none =>
      match pickQueue s with
      | none => queueRes s ctx rNoqueue
      | some n =>
        let s := s.tick.2
        queueRes (resetHeader s n { kind := kind, ctx := ctx, die := die, logcap := logcap, base := base }) ctx (BitVec.ofNat 64 n)

/-- QCMD_CREATE_LAUNCH_QUEUE (R281). -/
def execQcmdCreateLaunchQueue (ctx logcap die : Nat) (s : State) : Out := createQueue .launch ctx logcap die s
/-- QCMD_CREATE_FLUME_QUEUE (R211). -/
def execQcmdCreateFlumeQueue (ctx logcap die : Nat) (s : State) : Out := createQueue .flume ctx logcap die s

/-- A queue of the context that a command names. -/
def namedQueue (s : State) (ctx q : Nat) : Option QRec :=
  match s.queue q with
  | some x => if x.ctx = ctx ∧ q < 65536 then some x else none
  | none => none

/-- A packet in execution ends CANCELLED before the command on its queue acts (R229). -/
def cutRun (s : State) (q : Nat) (r : PRun) : State := s.setRun q { r with reset := true }

/-- A queue leaves the number space. -/
def deleteQueue (s : State) (q : Nat) (x : QRec) : State :=
  let s := x.claims.foldl (fun s c => returnTiles s c.core c.auto) s
  reapScopes (dropQueue s q x)

/-- QCMD_DESTROY (R281). -/
def execQcmdDestroy (ctx q : Nat) (s : State) : Out :=
  if !pageActs s ctx then .next s
  else match namedQueue s ctx q, s.run q with
    | none, _ => queueRes s ctx rNoqueue
    | some _, some r => .next (cutRun s q r)
    | some x, none => queueRes (deleteQueue s q x) ctx (BitVec.ofNat 64 q)

/-- QCMD_RESET (R211, R229). -/
def execQcmdReset (ctx q : Nat) (s : State) : Out :=
  if !pageActs s ctx then .next s
  else match namedQueue s ctx q, s.run q with
    | none, _ => queueRes s ctx rNoqueue
    | some _, some r => queueRes (cutRun s q r) ctx (BitVec.ofNat 64 q)
    | some x, none =>
      match s.mem.heldLine x.base (64 + 64 * x.cap) with
      | some line => .next (sendSnoop s line)
      | none => queueRes (reapScopes (resetQueue s q x)) ctx (BitVec.ofNat 64 q)

/-! ### Records (R230) -/

/-- TRH (R281). -/
def execTrh (ctx : Nat) (h : BitVec 32) (s : State) : Out :=
  .next (if pageActs s ctx then setRegs s ctx { (s.ctx ctx).regs with trh := h } else s)

def TSt.code : TSt → Nat
  | .free => 0
  | .cis => 1
  | .hbm => 2
  | .t2 => 3
  | .cmpCis => 4
  | .cmpHbm => 5
  | .dropped => 6
  | .cmpT2 => 7

/-- USE (Table 10-1): an operand of an issued operator, or pinned by a packet. -/
def tensorUsed (s : State) (t : Nat) : Bool :=
  s.work.ops.any (fun o => o.2.issued && o.2.tier.isNone && ((opIns s o.2).contains t || (opOuts s o.2).contains t)) ||
    s.work.runs.any (fun r => r.2.pins.contains t)

/-- The 64 bytes of a record as one number (Table 10-1); SIZE and FLOPS show the bits that their fields hold. -/
def recordWord (s : State) (t : Nat) (x : Tensor) : Nat :=
  let b := fun (v : Bool) (n : Nat) => if v then 2 ^ n else 0
  let byte4 := b (frameFor s t).isSome 6 + b (tensorUsed s t) 5 + b x.rv 4 + b x.pin 3 + x.st.code
  let fields : List (Nat × Nat) := [
    (0, (handleOf x t).toNat), (32, byte4), (40, x.cr.toNat), (48, x.rlen), (64, x.desc.toNat), (128, x.size % 2 ^ 64), (192, x.loc.toNat),
    (256, x.recipe.toNat), (320, x.flops % 2 ^ 48), (384, x.uses.toNat), (448, x.ucnt), (464, x.ucur), (480, x.nud.toNat)]
  (fields.map (fun f => f.2 * 2 ^ f.1)).foldl (· + ·) 0

/-- TRDATA (R281): zeros for a stale handle. -/
def trdata (s : State) (ctx : Nat) : Nat :=
  match liveTensor s ctx (s.ctx ctx).regs.trh with
  | some t => recordWord s t (tensorAt s t)
  | none => 0

/-- What the host reads at an offset of a context page (Table 12-9). -/
def readPage (s : State) (ctx off : Nat) : Word :=
  let x := s.ctx ctx
  let r := x.regs
  if 0x0C0 ≤ off ∧ off < 0x100 then BitVec.ofNat 64 (nbits (trdata s ctx) (8 * (off - 0x0C0)) 64)
  else if 0x100 ≤ off ∧ off < 0x130 then x.weir.toList.getD ((off - 0x100) / 8) 0
  else match off with
    | 0x000 => x.ptroot
    | 0x008 => x.vdmap.zeroExtend 64
    | 0x010 => r.fqbase
    | 0x018 => r.fqwr
    | 0x020 => r.fqrd
    | 0x030 => r.eqbase
    | 0x038 => r.eqwr
    | 0x040 => r.eqrd
    | 0x048 => r.eqlost
    | 0x050 => r.crbase
    | 0x060 => r.scoperes
    | 0x070 => r.qbase
    | 0x078 => r.qres
    | 0x088 => r.invdone
    | _ => 0

end Sys2Proof.Machine
end

