-- ==== Sys2Proof/Machine/Manage.lean ====
section
/-! DEFINITION. The management page: the semaphore (R279), contexts and assignments (R264, R280), firmware (R301, R302),
registers without a row of their own, and attestation (R303); what the host reads there. -/
namespace Sys2Proof.Machine
open Sys2Proof

/-! ### The semaphore and excl registers (R279, R280) -/

def setMgmt (s : State) (m : Mgmt) : State := { s with mgmt := m }

/-- OWNER changes; LAST is cleared with it. -/
def setOwnerPort (s : State) (p : Option Port) : State := setMgmt s { s.mgmt with owner := p, last := 0 }

/-- MGMT_SEM_ACQUIRE (R279). -/
def execMgmtSemAcquire (port : Port) (s : State) : Out :=
  .next (if hostPort s port ∧ s.mgmt.owner = none then setOwnerPort s (some port) else s)

/-- The semaphore is released where a port owns it. -/
def releaseSem (s : State) (port : Port) : State := if s.mgmt.owner = some port then setOwnerPort s none else s

/-- MGMT_SEM_RELEASE (R279). -/
def execMgmtSemRelease (port : Port) (s : State) : Out := .next (if hostPort s port then releaseSem s port else s)

/-- LAST of MGMTERR (Table 12-8): 1 NOSEM, 2 BUSY, 3 BADVAL. -/
def mgmtErr (s : State) (code : BitVec 8) : State := setMgmt s { s.mgmt with last := code }

/-- A write to an excl register through a port: NOSEM where the port does not hold the semaphore. -/
def exclWrite (s : State) (port : Port) (k : Out) : Out :=
  if !hostPort s port then .next s
  else if s.mgmt.owner = some port then k
  else .next (mgmtErr s 1)

/-! ### Contexts (R264, R280) -/

/-- A table that keeps R264: no two valid entries name one die, and none names a die out of service. -/
def vdmapOk (harvest : BitVec 8) (m : BitVec 32) : Bool :=
  let ds := (List.range 8).filterMap (vdieOf m)
  ds.all (fun d => harvest.getLsbD d) && decide (ds.eraseDups.length = ds.length)

/-- CTXCMD_CREATE (R280): every register of the page is at its reset value. -/
def execCtxcmdCreate (port : Port) (ctx : Nat) (home : Port) (vdmap : BitVec 32) (s : State) : Out :=
  exclWrite s port <|
    if 64 ≤ ctx ∨ (s.ctx ctx).live ∨ !vdmapOk s.harvest vdmap ∨ (home ≠ .a ∧ home ≠ .b) then .next (mgmtErr s 3)
    else .next (s.setCtx ctx { live := true, home := home, vdmap := vdmap })

/-- The open scopes of a context. -/
def ctxScopes (s : State) (ctx : Nat) : List (Nat × Scope) :=
  s.hg.scopes.filter (fun x => scopeOpen x.2 && x.2.ctx == ctx)

/-- CTXCMD_DESTROY (R280): every root scope is cancelled; the rest follows at CONTEXT_DESTROY_DONE. -/
def execCtxcmdDestroy (port : Port) (ctx : Nat) (s : State) : Out :=
  exclWrite s port <|
    let x := s.ctx ctx
    if !x.live then .next (mgmtErr s 3)
    else if x.dying then .next s
    else
      let roots := (ctxScopes s ctx).filter (fun y => y.2.parent.isNone)
      .next (roots.foldl (fun s y => askCancel s (hostDie s ctx) y.1 .machine ctx none) (s.setCtx ctx { x with dying := true }))

/-- A launch packet of the context is placed in a queue and not taken (R48, R287): in one of its queues that has not stopped, or in
a nest queue by a strand of its launches. -/
def launchPlaced (s : State) (ctx : Nat) : Bool :=
  s.work.queues.any (fun x => decide (x.2.kind = .launch) && !x.2.stopped &&
    (if 65536 ≤ x.1 then x.2.claims.any (fun c => (s.launch c.launch).ctx == ctx)
     else x.2.ctx == ctx && !(queuedScopes s x.1 x.2).isEmpty))

/-- A launch of the context placed and not yet stamped, or a tensor record that is not FREE (R280). -/
def ctxInUse (s : State) (ctx : Nat) : Bool :=
  s.work.launches.any (fun x => x.2.ctx == ctx && x.2.st != .stamped) || launchPlaced s ctx ||
    s.weir.tensors.any (fun x => x.2.ctx == ctx && x.2.st != .free)

/-- CTXCMD_SET_VDMAP (R280). -/
def execCtxcmdSetVdmap (port : Port) (ctx : Nat) (vdmap : BitVec 32) (s : State) : Out :=
  exclWrite s port <|
    let x := s.ctx ctx
    if !x.live ∨ !vdmapOk s.harvest vdmap then .next (mgmtErr s 3)
    else if ctxInUse s ctx ∨ (ctxScopes s ctx).any (fun y => (selfDie vdmap y.2.home).isNone) then .next (mgmtErr s 2)
    else .next (s.setCtx ctx { x with vdmap := vdmap })

/-- No core and no tile carries a context that is gone: a later context of its number is another, and its binding clears (R31,
R178). -/
def forgetCtx (s : State) (ctx : Nat) : State :=
  { s with
    cores := s.cores.map (fun x =>
      (x.1, { x.2 with bind := { x.2.bind with ctx := if x.2.bind.ctx = some ctx then none else x.2.bind.ctx } })),
    arrays := s.arrays.map (fun x => (x.1, { x.2 with ctxs := x.2.ctxs.map (fun c => if c = some ctx then none else c) })) }

/-- Everything of a context goes: its queues, records, scopes, assignments, cached translations, open faults and live maps. -/
def freeCtx (s : State) (ctx : Nat) : State :=
  let s := (ctxScopes s ctx).foldl (fun s x => freeScope s x.1) s
  let mine := s.work.queues.filter (fun x => x.2.ctx == ctx && decide (x.1 < 65536))
  let s := mine.foldl (fun s x =>
    let s := x.2.claims.foldl (fun s c => returnTiles s c.core c.auto) (s.delRun x.1)
    dropQueue s x.1 x.2) s
  let s := (s.weir.tensors.filter (fun x => x.2.ctx == ctx && x.2.st != .free)).foldl (fun s x => freeTensor s x.1) s
  let gone := s.work.launches.map (fun x => (x.1, if x.2.ctx = ctx then { x.2 with st := .stamped } else x.2))
  let dies := s.dies.map (fun x => (x.1, { x.2 with faults := x.2.faults.filter (fun f => f.ctx != ctx) }))
  let s := forgetCtx s ctx
  { s with
    lives := s.lives.filter (fun x => x.ctx != ctx),
    work := { s.work with launches := gone, fids := s.work.fids.filter (fun f => f.ctx != ctx) },
    dies := dies,
    bars := s.bars.filter (fun x => x.2.ctx != some ctx),
    chans := s.chans.filter (fun x => x.2.ctx != some ctx),
    flight := s.flight.filter (fun f => (s.chan f.chan).ctx != some ctx),
    tlb := s.tlb.filter (fun e => e.ctx != ctx) }

/-- Every cancellation of the context is DONE, and its launches are stamped but for those parked on a fault. -/
def ctxDone (s : State) (ctx : Nat) : Bool :=
  (ctxScopes s ctx).all (fun x => x.2.st == .done) &&
    !s.hg.reqs.any (fun r => (s.scope r.scope).ctx == ctx) &&
    s.work.launches.all (fun x => x.2.ctx != ctx || x.2.st == .stamped || x.2.park != .run)

/-- CONTEXT_DESTROY_DONE (R280): the bit of CTXSTAT is cleared last. -/
def execContextDestroyDone (ctx : Nat) (s : State) : Out :=
  let x := s.ctx ctx
  .next (if x.live ∧ x.dying ∧ ctxDone s ctx then (freeCtx s ctx).setCtx ctx {} else s)

/-- CTXSTAT (Table 12-8). -/
def ctxstat (s : State) : Word := (liveCtxs s).foldl (fun w c => w ||| (1#64 <<< c)) 0

/-! ### Assignments (R280) -/

/-- ASSIGN_BARRIER (R280, R258): BADVAL where the unit belongs to another context. -/
def execAssignBarrier (port : Port) (die unit ctx : Nat) (s : State) : Out :=
  exclWrite s port <|
    let key := die * 256 + unit
    let b := s.bar key
    if 8 ≤ die ∨ 256 ≤ unit ∨ 64 ≤ ctx ∨ (b.ctx.isSome ∧ b.ctx ≠ some ctx) then .next (mgmtErr s 3)
    else if b.ctx = some ctx then .next s
    else .next (s.setBar key { ctx := some ctx })

/-- ASSIGN_TOKEN_CHANNEL (R280, R66). -/
def execAssignTokenChannel (port : Port) (die unit ctx : Nat) (s : State) : Out :=
  exclWrite s port <|
    let key := die * 64 + unit
    let x := s.chan key
    if 8 ≤ die ∨ 64 ≤ unit ∨ 64 ≤ ctx ∨ (x.ctx.isSome ∧ x.ctx ≠ some ctx) then .next (mgmtErr s 3)
    else if x.ctx = some ctx then .next s
    else .next (s.setChan key { ctx := some ctx })

/-- ASSIGN_RELEASE (R280): of the barrier and the channel of that number, what the context holds; BADVAL where neither is
its own and one is another context's. -/
def execAssignRelease (port : Port) (die unit ctx : Nat) (s : State) : Out :=
  exclWrite s port <|
    let kb := die * 256 + unit
    let kc := die * 64 + unit
    let b := (s.bar kb).ctx
    let x := if unit < 64 then (s.chan kc).ctx else none
    if 8 ≤ die ∨ 256 ≤ unit ∨ 64 ≤ ctx ∨ (b ≠ some ctx ∧ x ≠ some ctx ∧ (b.isSome ∨ x.isSome)) then .next (mgmtErr s 3)
    else
      let s := if b = some ctx then s.setBar kb {} else s
      .next (if x = some ctx then s.setChan kc {} else s)

/-! ### Firmware (R301, R302) -/

/-- FWRES takes a result: 1 OK, 2 BADSIG, 3 ROLLBACK, 4 BUSY, 5 BADVAL. -/
def fwRes (s : State) (code : BitVec 8) : Out := .next (setMgmt s { s.mgmt with fwres := code })

/-- What verification of an image finds (R302). -/
def verifyImage (m : Mgmt) (img : FwImage) : BitVec 8 :=
  if !img.sigOk then 2 else if img.version.toNat < m.rollback.toNat then 3 else 1

/-- FWCMD_STAGE (R301): the image goes to the slot that is not running. -/
def execFwcmdStage (port : Port) (img : FwImage) (s : State) : Out :=
  exclWrite s port <|
    let m := s.mgmt
    if verifyImage m img ≠ 1 then fwRes s (verifyImage m img)
    else fwRes (setMgmt s { m with slots := m.slots.setIfInBounds (1 - m.slot) (some img), staged := true }) 1

/-- FWCMD operations other than stage do not act in RECOVERY (R300). -/
def fwActs (s : State) (k : Out) : Out := if s.mgmt.st = .recovery then .next s else k

/-- FWCMD_ACTIVATE (R301): BADVAL where nothing is staged. -/
def execFwcmdActivate (port : Port) (s : State) : Out :=
  exclWrite s port <| fwActs s <|
    if !s.mgmt.staged then fwRes s 5
    else fwRes (setMgmt s { s.mgmt with active := 1 - s.mgmt.slot, firstBoot := true }) 1

/-- Every die enters or leaves maintenance state. -/
def setMaint (s : State) (on : Bool) (st : DevSt) : State :=
  let dies := (List.range 18).foldl (fun m d => smUpd {} d (fun x => { x with maint := on }) m) s.dies
  { s with dies := dies, mgmt := { s.mgmt with st := st } }

/-- FWCMD_ENTER_MAINT (R301). -/
def execFwcmdEnterMaint (port : Port) (s : State) : Out :=
  exclWrite s port <| fwActs s <|
    if ctxstat s ≠ 0 then fwRes s 4
    else if s.mgmt.st = .ready ∨ s.mgmt.st = .maint then fwRes (setMaint s true .maint) 1
    else fwRes s 4

/-- FWCMD_LEAVE_MAINT (R301). -/
def execFwcmdLeaveMaint (port : Port) (s : State) : Out :=
  exclWrite s port <| fwActs s <|
    if ctxstat s ≠ 0 then fwRes s 4
    else if s.mgmt.st = .ready ∨ s.mgmt.st = .maint then fwRes (setMaint s false .ready) 1
    else fwRes s 4

/-! ### Registers without a row of their own (R280, R281) -/

/-- EQBASE's and FQBASE's fields (Table 12-9). -/
def queueBaseBits (v : Word) : Word := v &&& 0x00FFFFFFFFFFF01F

/-- A write of an offset with no row of its own: an operation that is not listed gives BADVAL (R280, R301); a verdict that
is not listed is counted (R283); other offsets are read-only or hold nothing. BAR2 follows BAR0's 64 KiB. -/
def otherWrite (port : Port) (off : Nat) (val : Word) (s : State) : Out :=
  let op := nbits val.toNat 0 8
  if off = 0x0018 ∨ off = 0x0028 then
    exclWrite s port (.next (if op = 0 ∨ 3 < op then mgmtErr s 3 else s))
  else if off = 0x0040 then exclWrite s port (if op = 0 ∨ 4 < op then fwRes s 5 else .next s)
  else if 0x10000 ≤ off ∧ (off - 0x10000) % 4096 = 0x028 then
    let v := nbits val.toNat 32 2
    .next (if verdictActs s port ((off - 0x10000) / 4096) = true ∧ (v = 0 ∨ v = 3) then refusedVerdict s port else s)
  else .next s

/-- A register of a context page takes a value. -/
def pageWrite (s : State) (port : Port) (ctx : Nat) (f : Context → Context) : Out :=
  .next (if hostPort s port ∧ pageActs s ctx = true then s.setCtx ctx (f (s.ctx ctx)) else s)

/-- HOST_REGISTER_WRITE (R280, R281). TIMEREC drops the three low bits written, QBASE and CRBASE keep theirs: DESIGN CHOICE (log
entry 62). -/
def execHostRegisterWrite (port : Port) (reg : HostReg) (val : Word) (s : State) : Out :=
  let regs := fun (ctx : Nat) (f : CtxRegs → CtxRegs) => pageWrite s port ctx (fun x => { x with regs := f x.regs })
  match reg with
  | .ptmctl => exclWrite s port (.next (setMgmt s { s.mgmt with ptmctl := val &&& 1 }))
  | .timerec => exclWrite s port (.next (setMgmt s { s.mgmt with timerec := val &&& ~~~7#64 }))
  | .ptroot ctx => pageWrite s port ctx (fun x => { x with ptroot := val &&& 0x00FFFFFFFFFFF060 })
  | .fqbase ctx => regs ctx (fun r => { r with fqbase := queueBaseBits val })
  | .fqrd ctx => regs ctx (fun r => { r with fqrd := val })
  | .eqbase ctx => regs ctx (fun r => { r with eqbase := queueBaseBits val })
  | .eqrd ctx => regs ctx (fun r => { r with eqrd := val })
  | .crbase ctx => regs ctx (fun r => { r with crbase := val })
  | .qbase ctx => regs ctx (fun r => { r with qbase := val })
  | .weir ctx i => pageWrite s port ctx (fun x => { x with weir := x.weir.set i (weirValue i.val val) })
  | .other off => otherWrite port off.toNat val s

/-! ### Attestation (R303) -/

/-- The device answers a request over the DOE mailbox of a host port. -/
def doeAnswer (s : State) (port : Port) (a : Spdm) : Out :=
  .next (if hostPort s port then setMgmt s { s.mgmt with doe := s.mgmt.doe.setIfInBounds (portIdx port).val a } else s)

/-- A CDAT mailbox answers (R274); the spec does not state the table, so its bits are free. -/
def cdatAnswer (s : State) (port : Port) : State :=
  let (n, t) := s.tick
  if hostPort s port then
    setMgmt t { t.mgmt with cdat := t.mgmt.cdat.setIfInBounds (portIdx port).val (some (Config.freeWord n)) }
  else s

/-- GET_VERSION (R303). -/
def execGetVersion (port : Port) (s : State) : Out := doeAnswer s port .version
/-- GET_CAPABILITIES (R303). -/
def execGetCapabilities (port : Port) (s : State) : Out := doeAnswer s port .capabilities
/-- NEGOTIATE_ALGORITHMS (R303): the only algorithms are ECDSA P-521 and SHA-512. -/
def execNegotiateAlgorithms (port : Port) (p521 sha512 : Bool) (s : State) : Out :=
  doeAnswer s port (if p521 && sha512 then .algorithms else .error)
/-- GET_DIGESTS (R303). -/
def execGetDigests (port : Port) (s : State) : Out := doeAnswer s port .digests
/-- GET_CERTIFICATE (R303). -/
def execGetCertificate (port : Port) (s : State) : Out := doeAnswer s port .certificate
/-- CHALLENGE (R303). -/
def execChallenge (port : Port) (nonce : Word) (s : State) : Out :=
  doeAnswer s port (.challengeAuth nonce (Config.challengeSig nonce))
/-- GET_MEASUREMENTS (R303): 1 the boot ROM, 2 the running image, 3 HARVEST and the fused configuration. -/
def execGetMeasurements (port : Port) (index : Nat) (s : State) : Out :=
  doeAnswer s port (match index with
    | 1 => .measurement 1 Config.measureRom
    | 2 => .measurement 2 (Config.measureImage s.mgmt.fwver)
    | 3 => .measurement 3 (Config.measureFuses s.harvest)
    | _ => .error)

/-! ### What the host reads at BAR0 -/

def DevSt.code : DevSt → BitVec 4
  | .reset => 0
  | .boot => 1
  | .ready => 2
  | .maint => 3
  | .recovery => 4

/-- MGMT_SEM as a port reads it (Table 12-7). -/
def mgmtSemWord (m : Mgmt) (port : Port) : Word :=
  let own : BitVec 2 := match m.owner with
    | some .a => 1
    | some .b => 2
    | _ => 0
  0#61 ++ own ++ BitVec.ofBool (m.owner == some port)

/-- MGMTERR (Table 12-8). -/
def mgmterrWord (m : Mgmt) : Word := 0#16 ++ m.vrefB ++ m.vrefA ++ 0#8 ++ m.last

/-- DEVSTAT (Table 13-6). -/
def devstatWord (m : Mgmt) : Word := m.fwres ++ m.fwver ++ 0#8 ++ BitVec.ofNat 8 m.slot ++ 0#4 ++ m.st.code

/-- What the host reads at an offset of the management page (Tables 12-8, 13-6, 13-7). -/
def readBar0 (s : State) (port : Port) (off : Nat) : Word :=
  if 0x0100 ≤ off ∧ off < 0x0100 + 16 * 18 then
    let d := s.die ((off - 0x0100) / 16)
    if (off - 0x0100) % 16 = 0 then d.ue ++ d.ce else if (off - 0x0100) % 16 = 8 then 0#32 ++ d.fetchdisc else 0
  else match off with
    | 0x0000 => mgmtSemWord s.mgmt port
    | 0x0008 => mgmterrWord s.mgmt
    | 0x0010 => s.harvest.zeroExtend 64
    | 0x0020 => ctxstat s
    | 0x0030 => s.mgmt.ptmctl
    | 0x0038 => s.mgmt.timerec
    | 0x0048 => devstatWord s.mgmt
    | _ => 0

end Sys2Proof.Machine
end

