-- ==== Sys2Proof/Machine/Upkeep.lean ====
section
/-! DEFINITION. The host's side of memory (R273, R276, R277), package reset and start-up (R300, R302), ports and expanders
(R274, R279, R285), and soft errors (R304). -/
namespace Sys2Proof.Machine
open Sys2Proof

/-- A core fetches a line ahead while a strand is on it (R123); one in HOST-U memory is requested from the host (R273). -/
def prefetch (s : State) (core va : Nat) : State :=
  if (s.th core).job.run = .idle then s
  else if lineAsks s core (va / 128) then askCode s core (BitVec.ofNat 64 (va / 128 * 128))
  else fetchAhead s core (va / 128)

/-! ### Lines and requests of the host -/

/-- HOST_CXL_MEM_REQUEST (R276): the host takes the DEV line of an address, but not before the device access for which it came
back has been performed; every device access is performed in one step, so none is begun and open. -/
def execHostCxlMemRequest (pa : Nat) (s : State) : Out :=
  let line := pa / 128
  if 0xC000000000 ≤ pa ∨ s.mem.held.contains line ∨ s.mem.owed.any (fun x => x.1 == line) then .next s
  else .next { s with mem := { s.mem with held := line :: s.mem.held } }

/-- BIRSP (R276): the answer to a BISnp returns the line, with the host's bytes where it is dirty; it is owed to the agents that
asked for it. -/
def execBirsp (line : Nat) (dirty : Option (List (BitVec 8))) (s : State) : Out :=
  let m := s.mem
  if !(m.held.contains line && m.snooped.any (fun x => x.1 == line)) then .next s
  else
    let m := match dirty with
      | some bs => m.writeBytes (line * 128) (bs.take 128)
      | none => m
    .next { s with mem := { m with
      held := m.held.filter (fun l => l != line),
      snooped := m.snooped.filter (fun x => x.1 != line),
      owed := m.owed ++ m.snooped.filter (fun x => x.1 == line) } }

/-- HOST_ATOMICOP_IO (R277): completed with Unsupported Request; nothing is performed. -/
def execHostAtomicopIo (_port : Port) (s : State) : Out := .next s

/-- The agent waits for a verdict at a page (R226). -/
def ParkSt.waits : ParkSt → Bool
  | .wait _ => true
  | _ => false

/-- A strand stands at the instruction at which it stood in `old`, with its access still to be made: held by local order (R251),
parked, waiting for the host, or stopped at a safe point (R296). -/
def strandHeld (old s : State) (c : Nat) : Bool :=
  let t := s.th c
  let j := t.job
  decide (j.run ≠ .idle) && decide (t.pos = (old.th c).pos) && decide (j.wait = .none) &&
    (decide (j.run ≠ .run) || !accessesDone s c || j.host != .idle || j.code != .idle || j.park.waits)

/-- A queue stands at its head, which is not halted and waits for no token. -/
def queueHeld (old s : State) (c : Nat) (v : VQ) : Bool :=
  match ((old.th c).q.get v).held, ((s.th c).q.get v).held with
  | x :: _, y :: _ => decide (x.seq = y.seq) && !y.done && !((s.th c).q.get v).halted && !(s.th c).tokenWait v
  | _, _ => false

/-- A packet has not gone on: no unit, slot or phase of it is done. -/
def packetHeld (old s : State) (q : Nat) : Bool :=
  match old.run q, s.run q with
  | some x, some y =>
    decide (x.slot = y.slot) && decide (x.phase = y.phase) && decide (x.next = y.next) && decide (x.done = y.done)
  | _, _ => false

/-- A command of core c's ring is still to make its accesses: the one at RD, where the ring has not stopped there. -/
def commandWaits (old s : State) (c : Nat) : Bool :=
  let r := (s.core c).ring
  r.cfg && decide (r.rd = (old.core c).ring.rd) && decide (r.rd ≠ r.wr) && !(s.th c).q.ringFault && decide ((s.th c).job.run ≠ .idle)

/-- Walker or frame w stands at a record for which the scoreboard has no room (R34, R241). -/
def boardHeld (old s : State) (w : Walker) : Bool := decide (walkPc s w = walkPc old w) && boardFull s w

/-- A load-block is not filled. -/
def blockHeld (s : State) (c i : Nat) : Bool :=
  match (s.core c).banks.blocks[i]? with
  | some b => !b.full && b.bad.isNone
  | none => false

/-- Whose lines a move may be done with: those of the agent that moved, and for an array those of the ring whose lease it had. -/
def mover (old s : State) : Agent :=
  match s.agent.own with
  | .array die n => match (old.array (die * 16 + n)).lease with
    | some p => .ring (quadCore (die * 16 + n) p)
    | none => .array die n
  | a => a

/-- The agent that moved stands where it stood in `old`: its access is still to be performed, and the lines that came back for it
stay the device's (R276). -/
def stillHeld (old s : State) : Bool :=
  match mover old s with
  | .strand c => strandHeld old s c
  | .queue c v => queueHeld old s c v
  | .flume q => packetHeld old s q
  | .ring c => commandWaits old s c
  | .walker l => (s.launch l).park.waits || boardHeld old s { l := l, f := none }
  | .frame f => (s.frame f).any (fun x => x.park.waits || boardHeld old s { l := x.launch, f := some f })
  | .event (.loadblockFillDone c i) => blockHeld s c i
  | .event (.launchComplete l) => (s.launch l).park.waits
  | _ => false

/-- The lines that came back for a command that will not make its accesses any more are the device's no longer. -/
def dropRings (s : State) : State :=
  if s.mem.owed.isEmpty then s
  else { s with mem := { s.mem with owed := s.mem.owed.filter (fun x => match x.2 with
    | .ring c => commandWaits s s c
    | _ => true) } }

/-- The end of a move: an agent that has made its access, or given it up, is done with the lines that came back for it (R276),
and the records that waited for its accesses are written (R184). -/
def endMove (old s : State) : State :=
  writeLate (dropRings (if stillHeld old s then s else s.unowe (mover old s))) s.me

/-- The completion of an outstanding request. -/
def HostSt.complete (h : HostSt) (ok : Bool) : HostSt :=
  match h with
  | .sent va n => .answered va n ok
  | h => h

/-- The context whose request it is. -/
def reqCtx (s : State) : HostReq → Nat
  | .strand c | .queue c _ | .block c _ | .ring c => s.ctxOf c
  | .packet q => qCtx s q

/-- An outstanding request is completed; of a strand's two, that of its access before that of a line of code
(DEDUCED, log entry 14). -/
def completeHost (s : State) (r : HostReq) (ok : Bool) : State :=
  match r with
  | .strand c =>
    let t := s.th c
    s.setTh c { t with job := match t.job.host with
      | .sent _ _ => { t.job with host := t.job.host.complete ok }
      | _ => { t.job with code := t.job.code.complete ok } }
  | .queue c n =>
    let t := s.th c
    let v : VQ := if n = 1#2 then .vl else if n = 2#2 then .va else .vs
    let q := t.q.get v
    s.setTh c { t with q := t.q.set v { q with host := q.host.complete ok } }
  | .block c i =>
    match (s.core c).banks.blocks[i]? with
    | some b => setBlock s c i { b with host := b.host.complete ok }
    | none => s
  | .ring c => setRing s c { (s.core c).ring with host := (s.core c).ring.host.complete ok }
  | .packet q =>
    match s.run q with
    | some x => s.setRun q { x with host := x.host.complete ok }
    | none => s

/-- CXL_IO_COMPLETION (R273): through the home port of the context whose request it is, and an error where that port is down
(R278). -/
def execCxlIoCompletion (port : Port) (who : HostReq) (ok : Bool) (s : State) : Out :=
  .next (if port = (s.ctx (reqCtx s who)).home then completeHost s who (ok && s.portUp port) else s)

/-- The requests that a core, or a packet, may have outstanding; a strand two, that of its access and that of a line of code. -/
def hostReqs (s : State) : List HostReq :=
  s.cores.flatMap (fun x => .strand x.1 :: .strand x.1 :: .ring x.1 :: [1#2, 2#2, 3#2].map (HostReq.queue x.1) ++
    (List.range x.2.banks.blocks.length).map (HostReq.block x.1)) ++ s.work.runs.map (fun x => .packet x.1)

/-- A port goes down: every request outstanding on it fails (R287). -/
def refuseOn (s : State) (port : Port) : State :=
  ((hostReqs s).filter (fun r => (s.ctx (reqCtx s r)).home == port)).foldl (fun s r => completeHost s r false) s

/-- A write of the host: to its own memory, or to a DEV line it holds (R275, R276). -/
def hostWrite (s : State) (key : Nat) (bs : List Byte) : State :=
  let last := key + bs.length - 1
  let own := decide (2 ^ 56 ≤ key) && decide (key + bs.length ≤ 2 ^ 57)
  let held := decide (key + bs.length ≤ 0xC000000000) && allBetween (fun l => s.mem.held.contains l) (key / 128) (last / 128)
  if own || held then { s with mem := s.mem.writeBytes key bs } else s

/-! ### Reset and start-up (R300, R302) -/

/-- The image that the boot ROM finds in a slot and verifies (R302). -/
def bootImage (m : Mgmt) (slot : Nat) : Option FwImage :=
  match m.slots.toList.getD slot none with
  | some img => if verifyImage m img = 1 then some img else none
  | none => none

/-- The slot that boots: the marked one, else the other. -/
def bootSlot (m : Mgmt) : Option (Nat × FwImage) :=
  match bootImage m m.active with
  | some img => some (m.active, img)
  | none => (bootImage m (1 - m.active)).map (fun img => (1 - m.active, img))

/-- The management cores after release of reset: the flash and the fuses stay (Table 13-5, step 1). -/
def bootMgmt (m : Mgmt) : Mgmt :=
  let keep := { Mgmt.reset with slots := m.slots, active := m.active, rollback := m.rollback }
  match bootSlot m with
  | none => { keep with st := .recovery }
  | some (slot, img) =>
    { keep with st := .boot, slot := slot, fwver := img.version, active := slot, firstBoot := m.firstBoot && slot == m.active }

/-- What the memory outside the package keeps. -/
def hostBytes (m : Mem) : List Host.Cell := m.bytes.filter (fun b => decide (2 ^ 56 ≤ b.1) && decide (b.1 < 2 ^ 57))

/-- PACKAGE_RESET (R300): everything of the package is at its reset value; the tests leave HARVEST. -/
def execPackageReset (s : State) : Out :=
  .next { State.reset with
    mem := { bytes := hostBytes s.mem }, mgmt := bootMgmt s.mgmt, harvest := Config.harvest, sched := s.sched, fresh := s.fresh }

/-- Every die has locked GTIME (R69). -/
def allLocked (s : State) : Bool := (List.range 18).all (fun d => (s.die d).time.st != .free)

/-- START_UP_READY (R300, R302): the rollback counter rises with the first boot of an activated image. -/
def execStartUpReady (s : State) : Out :=
  let m := s.mgmt
  if m.st ≠ .boot ∨ !allLocked s ∨ !s.portUp .a ∨ !s.portUp .b then .next s
  else
    let m := { m with rollback := if m.firstBoot ∧ m.rollback.toNat < m.fwver.toNat then m.fwver else m.rollback,
                      firstBoot := false }
    .next (setMaint { s with mgmt := m } false .ready)

/-! ### Ports and expanders (R274, R279, R285) -/

def setPort (s : State) (p : Port) (x : PortSt) : State :=
  setMgmt s { s.mgmt with ports := s.mgmt.ports.setIfInBounds (portIdx p).val x }

/-- The expander of a port. -/
def setExpander (s : State) (p : Port) (x : Expander) : State :=
  match p with
  | .c => { s with mem := { s.mem with exps := s.mem.exps.set 0 x } }
  | .d => { s with mem := { s.mem with exps := s.mem.exps.set 1 x } }
  | _ => s

/-- The rate and the width a port trains to with a partner; none where it stays down (Table 12-6). -/
def trained (x : Partner) : Option (Nat × Nat) :=
  let rate := if x.adv128 && x.altProto then 128 else if 64 ≤ x.rate then 64 else if 32 ≤ x.rate then 32 else 0
  let width := if 16 ≤ x.width then 16 else if 8 ≤ x.width then 8 else 0
  if !x.flit256 || rate == 0 || width == 0 then none else some (rate, width)

/-- A port loses its link (R279, R287): it releases the semaphore, and what is outstanding on it fails. -/
def linkDown (s : State) (port : Port) : State := setPort (refuseOn (releaseSem s port) port) port {}

/-- PORT_TRAIN (R274): a port left down is logged; an expander is enumerated with its capacity (R285). -/
def execPortTrain (port : Port) (partner : Partner) (s : State) : Out :=
  match trained partner with
  | none => .next (logEv (linkDown s port) "PORT_DOWN" [(portIdx port).val])
  | some (rate, width) =>
    .next (setExpander (setPort s port { up := true, rate := rate, width := width }) port { cap := partner.capacity })

/-- PORT_LINK_DOWN (R279): a port that loses its link, or is reset. -/
def execPortLinkDown (port : Port) (s : State) : Out := .next (linkDown s port)

/-- EXPANDER_REMOVAL (R285). -/
def execExpanderRemoval (port : Port) (s : State) : Out :=
  match port with
  | .c => .next (setExpander (setPort s port {}) port { (s.mem.exps.get 0) with failed := true })
  | .d => .next (setExpander (setPort s port {}) port { (s.mem.exps.get 1) with failed := true })
  | _ => .next s

/-! ### Soft errors (R304) -/

/-- A 32-bit counter that saturates. -/
def sat32 (v : BitVec 32) : BitVec 32 := if v = BitVec.allOnes 32 then v else v + 1

/-- ECC_CORRECTED (R304). -/
def execEccCorrected (die : Nat) (s : State) : Out :=
  let d := s.die die
  .next (if dieCount ≤ die then s else s.setDie die { d with ce := sat32 d.ce })

/-- The key of a register or a record of a core for ECC_UNCORRECTABLE: core, class, number. The classes are 0 scalar, 1 vector
code, 2 predicate, 3 constant bank, 4 conditional stream, 5 stream, 6 circular buffer, 7 semaphore, 8 load-block, and 9, 10, 11 the
entries that VL, VA and VS hold. -/
def regKey (core cls n : Nat) : Nat := 2 ^ 125 + core * 2 ^ 16 + cls * 64 + n

/-- The key of a launch's records in the sequencer or a shard. -/
def recordKey (l : Nat) : Nat := 2 ^ 130 + l

/-- Entry n of queue v of core c holds an uncorrectable error. -/
def poisonEntry (s : State) (c n : Nat) (v : VQ) : State :=
  let t := s.th c
  let q := t.q.get v
  s.setTh c { t with q := t.q.set v { q with held := q.held.modify n (fun e => { e with ecc := true }) } }

/-- A register or a record of core c holds an uncorrectable error. -/
def poisonReg (s : State) (c cls n : Nat) : State :=
  let t := s.th c
  let r := t.regs
  let regs := fun (r : Regs) => s.setTh c { t with regs := r }
  match cls with
  | 0 => regs (if h : n < 32 then { r with s := r.s.set n { r.s.get ⟨n, h⟩ with ecc := true } } else r)
  | 1 => regs (r.wrV (BitVec.ofNat 6 n) { r.rdV (BitVec.ofNat 6 n) 0 with ecc := true })
  | 2 => regs (r.wrP (BitVec.ofNat 5 n) { r.rdP (BitVec.ofNat 5 n) with ecc := true })
  | 8 =>
    let k := s.core c
    s.setCore c { k with banks := { k.banks with blocks := k.banks.blocks.modify n (fun b => { b with ecc := true }) } }
  | 9 => poisonEntry s c n .vl
  | 10 => poisonEntry s c n .va
  | 11 => poisonEntry s c n .vs
  | _ => if cls < 12 ∧ !t.marks.contains (cls, n) then s.setTh c { t with marks := (cls, n) :: t.marks } else s

/-- The bytes that an uncorrectable error at a key poisons: a line of memory, a word of a scratchpad, a tile word. -/
def poisonKeys (key : Nat) : List Nat :=
  if 2 ^ 120 ≤ key ∧ key < 2 ^ 125 then [key]
  else
    let n := if 2 ^ 57 ≤ key ∧ key < 2 ^ 58 then 8 else 128
    (List.range n).map (fun j => key / n * n + j)

/-- The tier's memory that holds a tensor's storage, by die (R230, R269): the Cistern of its home, HBM, the second tier. -/
def tensorOn (s : State) (t die : Nat) : Bool :=
  match (tensorAt s t).st.tier with
  | some .cis => die == homeDie t
  | some .hbm => decide (8 ≤ die) && decide (die < 16)
  | some _ => decide (16 ≤ die)
  | none => false

/-- The die holds what a key names (R10, R269, R270): DEV and T2 lines at the die that stores them, a scratchpad, a tile or a
register at its core's, a tensor's bytes at its tier's, a launch's records in a sequencer or a shard. -/
def eccAt (s : State) (die key : Nat) : Bool :=
  if 2 ^ 130 ≤ key then decide (die < 8)
  else if 2 ^ 125 ≤ key then die == (key - 2 ^ 125) / 2 ^ 16 / 64
  else if 2 ^ 120 ≤ key then die == (key - 2 ^ 120) / 2 ^ 20 / 16
  else if 2 ^ 110 ≤ key then tensorOn s ((key - 2 ^ 110) / 2 ^ 100) die
  else if 2 ^ 57 ≤ key then die == (key - 2 ^ 57) / 2 ^ 21 / 64
  else storingDie s.mem (if key < 0x10000000000 then .dev else if key < 2 ^ 56 then .t2 else .hostC) key == some die

/-- ECC_UNCORRECTABLE (R304): memory, a register, or the records of a launch, by the key, on the die that holds it;
a launch that has stamped is no longer concerned. -/
def execEccUncorrectable (die key : Nat) (s : State) : Out :=
  if dieCount ≤ die ∨ !eccAt s die key then .next s
  else
    let d := s.die die
    let s := s.setDie die { d with ue := sat32 d.ue }
    if 2 ^ 130 ≤ key then
      let l := key - 2 ^ 130
      .next (if (smFind l s.work.launches).any (fun x => x.st != .stamped) then failLaunch s l else s)
    else if 2 ^ 125 ≤ key then
      let x := key - 2 ^ 125
      .next (poisonReg s (x / 2 ^ 16) (x / 64 % 1024) (x % 64))
    else
      let ks := (poisonKeys key).filter (fun k => !s.mem.poison.contains k)
      .next { s with mem := { s.mem with poison := ks ++ s.mem.poison } }

/-- HBM_SCRUB (R304): a memory die scrubs once per 24 h of its GTIME. -/
def execHbmScrub (die : Nat) (s : State) : Out :=
  let d := s.die die
  if die < 8 ∨ 16 ≤ die ∨ d.time.gtime.toNat < d.scrubAt.toNat + 86400000000000 then .next s
  else .next (s.setDie die { d with scrubAt := d.time.gtime })

end Sys2Proof.Machine
end

