-- ==== Sys2Proof/Machine/Dispatch.lean ====
section
/-! DEFINITION. The dispatch of every instruction to its meaning. -/
namespace Sys2Proof.Machine
open Sys2Proof

/-- What each step of the part does. -/
def exec (i : Instr) (s : State) : Host.Outcome State Fault Refusal :=
  match i with
  | .add f => Sys2Proof.Machine.execAdd f s
  | .sub f => Sys2Proof.Machine.execSub f s
  | .and f => Sys2Proof.Machine.execAnd f s
  | .or f => Sys2Proof.Machine.execOr f s
  | .xor f => Sys2Proof.Machine.execXor f s
  | .sll f => Sys2Proof.Machine.execSll f s
  | .srl f => Sys2Proof.Machine.execSrl f s
  | .sra f => Sys2Proof.Machine.execSra f s
  | .slt f => Sys2Proof.Machine.execSlt f s
  | .sltu f => Sys2Proof.Machine.execSltu f s
  | .min f => Sys2Proof.Machine.execMin f s
  | .max f => Sys2Proof.Machine.execMax f s
  | .minu f => Sys2Proof.Machine.execMinu f s
  | .maxu f => Sys2Proof.Machine.execMaxu f s
  | .mul f => Sys2Proof.Machine.execMul f s
  | .mulh f => Sys2Proof.Machine.execMulh f s
  | .mulhu f => Sys2Proof.Machine.execMulhu f s
  | .div f => Sys2Proof.Machine.execDiv f s
  | .divu f => Sys2Proof.Machine.execDivu f s
  | .rem f => Sys2Proof.Machine.execRem f s
  | .remu f => Sys2Proof.Machine.execRemu f s
  | .clz f => Sys2Proof.Machine.execClz f s
  | .ctz f => Sys2Proof.Machine.execCtz f s
  | .popc f => Sys2Proof.Machine.execPopc f s
  | .fshr f n => Sys2Proof.Machine.execFshr f n s
  | .addi f => Sys2Proof.Machine.execAddi f s
  | .andi f => Sys2Proof.Machine.execAndi f s
  | .ori f => Sys2Proof.Machine.execOri f s
  | .xori f => Sys2Proof.Machine.execXori f s
  | .slli f n => Sys2Proof.Machine.execSlli f n s
  | .srli f n => Sys2Proof.Machine.execSrli f n s
  | .srai f n => Sys2Proof.Machine.execSrai f n s
  | .slti f => Sys2Proof.Machine.execSlti f s
  | .sltiu f => Sys2Proof.Machine.execSltiu f s
  | .fadd f rm => Sys2Proof.Machine.execFadd f rm s
  | .fsub f rm => Sys2Proof.Machine.execFsub f rm s
  | .fmul f rm => Sys2Proof.Machine.execFmul f rm s
  | .fdiv f rm => Sys2Proof.Machine.execFdiv f rm s
  | .fsqrt f rm => Sys2Proof.Machine.execFsqrt f rm s
  | .fmin f => Sys2Proof.Machine.execFmin f s
  | .fmax f => Sys2Proof.Machine.execFmax f s
  | .feq f => Sys2Proof.Machine.execFeq f s
  | .flt f => Sys2Proof.Machine.execFlt f s
  | .fle f => Sys2Proof.Machine.execFle f s
  | .fcvtws f rm => Sys2Proof.Machine.execFcvtws f rm s
  | .fcvtus f rm => Sys2Proof.Machine.execFcvtus f rm s
  | .fcvtsw f rm => Sys2Proof.Machine.execFcvtsw f rm s
  | .fcvtsu f rm => Sys2Proof.Machine.execFcvtsu f rm s
  | .fabs f => Sys2Proof.Machine.execFabs f s
  | .fneg f => Sys2Proof.Machine.execFneg f s
  | .fma f rm => Sys2Proof.Machine.execFma f rm s
  | .csrr rd csr => Sys2Proof.Machine.execCsrr rd csr s
  | .csrw f csr => Sys2Proof.Machine.execCsrw f csr s
  | .csrs f csr => Sys2Proof.Machine.execCsrs f csr s
  | .csrc f csr => Sys2Proof.Machine.execCsrc f csr s
  | .vmode f mask => Sys2Proof.Machine.execVmode f mask s
  | .ldb f => Sys2Proof.Machine.execLdb f s
  | .ldbu f => Sys2Proof.Machine.execLdbu f s
  | .ldh f => Sys2Proof.Machine.execLdh f s
  | .ldhu f => Sys2Proof.Machine.execLdhu f s
  | .ldw f => Sys2Proof.Machine.execLdw f s
  | .ldwu f => Sys2Proof.Machine.execLdwu f s
  | .ldd f => Sys2Proof.Machine.execLdd f s
  | .lds f => Sys2Proof.Machine.execLds f s
  | .stb f => Sys2Proof.Machine.execStb f s
  | .sth f => Sys2Proof.Machine.execSth f s
  | .stw f => Sys2Proof.Machine.execStw f s
  | .std f => Sys2Proof.Machine.execStd f s
  | .aadd f order dbl => Sys2Proof.Machine.execAadd f order dbl s
  | .aswp f order dbl => Sys2Proof.Machine.execAswp f order dbl s
  | .acas f order dbl => Sys2Proof.Machine.execAcas f order dbl s
  | .aand f order dbl => Sys2Proof.Machine.execAand f order dbl s
  | .aor f order dbl => Sys2Proof.Machine.execAor f order dbl s
  | .axor f order dbl => Sys2Proof.Machine.execAxor f order dbl s
  | .amin f order dbl => Sys2Proof.Machine.execAmin f order dbl s
  | .amax f order dbl => Sys2Proof.Machine.execAmax f order dbl s
  | .aminu f order dbl => Sys2Proof.Machine.execAminu f order dbl s
  | .amaxu f order dbl => Sys2Proof.Machine.execAmaxu f order dbl s
  | .afadd f order => Sys2Proof.Machine.execAfadd f order s
  | .ldaq f dbl => Sys2Proof.Machine.execLdaq f dbl s
  | .strl ra rb dbl => Sys2Proof.Machine.execStrl ra rb dbl s
  | .beq f => Sys2Proof.Machine.execBeq f s
  | .bne f => Sys2Proof.Machine.execBne f s
  | .blt f => Sys2Proof.Machine.execBlt f s
  | .bge f => Sys2Proof.Machine.execBge f s
  | .bltu f => Sys2Proof.Machine.execBltu f s
  | .bgeu f => Sys2Proof.Machine.execBgeu f s
  | .jal link off => Sys2Proof.Machine.execJal link off s
  | .jalr f => Sys2Proof.Machine.execJalr f s
  | .loopr off => Sys2Proof.Machine.execLoopr off s
  | .bp p test off => Sys2Proof.Machine.execBp p test off s
  | .chkd cls n off => Sys2Proof.Machine.execChkd cls n off s
  | .liu rd imm => Sys2Proof.Machine.execLiu rd imm s
  | .fli rd imm => Sys2Proof.Machine.execFli rd imm s
  | .cMv ra rb => Sys2Proof.Machine.execCMv ra rb s
  | .cLi ra imm => Sys2Proof.Machine.execCLi ra imm s
  | .cAddi ra imm => Sys2Proof.Machine.execCAddi ra imm s
  | .cAdd ra rb => Sys2Proof.Machine.execCAdd ra rb s
  | .cSub ra rb => Sys2Proof.Machine.execCSub ra rb s
  | .cSlli ra n => Sys2Proof.Machine.execCSlli ra n s
  | .cLdd ra rb j => Sys2Proof.Machine.execCLdd ra rb j s
  | .cStd ra rb j => Sys2Proof.Machine.execCStd ra rb j s
  | .vadd f => Sys2Proof.Machine.execVadd f s
  | .vsub f => Sys2Proof.Machine.execVsub f s
  | .vmul f => Sys2Proof.Machine.execVmul f s
  | .vmad f => Sys2Proof.Machine.execVmad f s
  | .vfma f => Sys2Proof.Machine.execVfma f s
  | .vmadk f => Sys2Proof.Machine.execVmadk f s
  | .vmads f => Sys2Proof.Machine.execVmads f s
  | .vadds f => Sys2Proof.Machine.execVadds f s
  | .vmuls f => Sys2Proof.Machine.execVmuls f s
  | .vmin f => Sys2Proof.Machine.execVmin f s
  | .vmax f => Sys2Proof.Machine.execVmax f s
  | .vand f => Sys2Proof.Machine.execVand f s
  | .vor f => Sys2Proof.Machine.execVor f s
  | .vxor f => Sys2Proof.Machine.execVxor f s
  | .vshl f => Sys2Proof.Machine.execVshl f s
  | .vshr f => Sys2Proof.Machine.execVshr f s
  | .vfsh f => Sys2Proof.Machine.execVfsh f s
  | .vceq f => Sys2Proof.Machine.execVceq f s
  | .vclt f => Sys2Proof.Machine.execVclt f s
  | .vcle f => Sys2Proof.Machine.execVcle f s
  | .vsel f => Sys2Proof.Machine.execVsel f s
  | .vcvt f => Sys2Proof.Machine.execVcvt f s
  | .vred f => Sys2Proof.Machine.execVred f s
  | .vscan f => Sys2Proof.Machine.execVscan f s
  | .vperm f => Sys2Proof.Machine.execVperm f s
  | .vslide f => Sys2Proof.Machine.execVslide f s
  | .vsfu f => Sys2Proof.Machine.execVsfu f s
  | .vbits f => Sys2Proof.Machine.execVbits f s
  | .vcbx f => Sys2Proof.Machine.execVcbx f s
  | .vqnt f => Sys2Proof.Machine.execVqnt f s
  | .vmov f => Sys2Proof.Machine.execVmov f s
  | .vun f => Sys2Proof.Machine.execVun f s
  | .vld f => Sys2Proof.Machine.execVld f s
  | .vst f => Sys2Proof.Machine.execVst f s
  | .vlds f => Sys2Proof.Machine.execVlds f s
  | .vstm f => Sys2Proof.Machine.execVstm f s
  | .vldx f => Sys2Proof.Machine.execVldx f s
  | .vstx f => Sys2Proof.Machine.execVstx f s
  | .vldc f => Sys2Proof.Machine.execVldc f s
  | .vstc f => Sys2Proof.Machine.execVstc f s
  | .cbadvRptr f => Sys2Proof.Machine.execCbadvRptr f s
  | .cbadvWptr f => Sys2Proof.Machine.execCbadvWptr f s
  | .spush f => Sys2Proof.Machine.execSpush f s
  | .spop f => Sys2Proof.Machine.execSpop f s
  | .sbal f => Sys2Proof.Machine.execSbal f s
  | .pset f => Sys2Proof.Machine.execPset f s
  | .pand f => Sys2Proof.Machine.execPand f s
  | .por f => Sys2Proof.Machine.execPor f s
  | .pxor f => Sys2Proof.Machine.execPxor f s
  | .pnot f => Sys2Proof.Machine.execPnot f s
  | .pcnt f => Sys2Proof.Machine.execPcnt f s
  | .vbcast f => Sys2Proof.Machine.execVbcast f s
  | .vextr f => Sys2Proof.Machine.execVextr f s
  | .vins f => Sys2Proof.Machine.execVins f s
  | .vpark f => Sys2Proof.Machine.execVpark f s
  | .vunpark f => Sys2Proof.Machine.execVunpark f s
  | .vldb f => Sys2Proof.Machine.execVldb f s
  | .vldst f => Sys2Proof.Machine.execVldst f s
  | .vstst f => Sys2Proof.Machine.execVstst f s
  | .nop => Sys2Proof.Machine.execNop s
  | .semw f => Sys2Proof.Machine.execSemw f s
  | .sems f => Sys2Proof.Machine.execSems f s
  | .bari f => Sys2Proof.Machine.execBari f s
  | .bariClr f => Sys2Proof.Machine.execBariClr f s
  | .bar f => Sys2Proof.Machine.execBar f s
  | .mcmd f => Sys2Proof.Machine.execMcmd f s
  | .mringCfg f => Sys2Proof.Machine.execMringCfg f s
  | .mringPost f => Sys2Proof.Machine.execMringPost f s
  | .mringStat rd => Sys2Proof.Machine.execMringStat rd s
  | .kld f => Sys2Proof.Machine.execKld f s
  | .cpyq f => Sys2Proof.Machine.execCpyq f s
  | .ownf f owner => Sys2Proof.Machine.execOwnf f owner s
  | .ownfAuto f owner => Sys2Proof.Machine.execOwnfAuto f owner s
  | .stcfg f n => Sys2Proof.Machine.execStcfg f n s
  | .cbcfg f n => Sys2Proof.Machine.execCbcfg f n s
  | .mwait f => Sys2Proof.Machine.execMwait f s
  | .fence scope => Sys2Proof.Machine.execFence scope s
  | .lfence before after => Sys2Proof.Machine.execLfence before after s
  | .isync => Sys2Proof.Machine.execIsync s
  | .toksend f => Sys2Proof.Machine.execToksend f s
  | .tokwait f => Sys2Proof.Machine.execTokwait f s
  | .timer rd => Sys2Proof.Machine.execTimer rd s
  | .timewait f => Sys2Proof.Machine.execTimewait f s
  | .vdie f => Sys2Proof.Machine.execVdie f s
  | .hops f => Sys2Proof.Machine.execHops f s
  | .hopsMd f => Sys2Proof.Machine.execHopsMd f s
  | .launch f => Sys2Proof.Machine.execLaunch f s
  | .cwait f => Sys2Proof.Machine.execCwait f s
  | .taskend => Sys2Proof.Machine.execTaskend s
  | .yield => Sys2Proof.Machine.execYield s
  | .scopenew f => Sys2Proof.Machine.execScopenew f s
  | .cancel f => Sys2Proof.Machine.execCancel f s
  | .scopewait f => Sys2Proof.Machine.execScopewait f s
  | .safept n => Sys2Proof.Machine.execSafept n s
  | .trap n => Sys2Proof.Machine.execTrap n s
  | .tret => Sys2Proof.Machine.execTret s
  | .banksync rd => Sys2Proof.Machine.execBanksync rd s
  | .tqry f => Sys2Proof.Machine.execTqry f s
  | .blk len rpt => Sys2Proof.Machine.execBlk len rpt s
  | .opr r => Sys2Proof.Machine.execOpr r s
  | .xfer prio tier scope h => Sys2Proof.Machine.execXfer prio tier scope h s
  | .ifc off cwi keep => Sys2Proof.Machine.execIfc off cwi keep s
  | .whl off cwi keep bound => Sys2Proof.Machine.execWhl off cwi keep bound s
  | .jmp off => Sys2Proof.Machine.execJmp off s
  | .sync keep => Sys2Proof.Machine.execSync keep s
  | .tnew h desc => Sys2Proof.Machine.execTnew h desc s
  | .tdel h => Sys2Proof.Machine.execTdel h s
  | .tpin h pin => Sys2Proof.Machine.execTpin h pin s
  | .sigh keep value => Sys2Proof.Machine.execSigh keep value s
  | .cncl scope wait => Sys2Proof.Machine.execCncl scope wait s
  | .seqEnd => Sys2Proof.Machine.execSeqEnd s
  | .mzero m => Sys2Proof.Machine.execMzero m s
  | .mma m => Sys2Proof.Machine.execMma m s
  | .mconv m => Sys2Proof.Machine.execMconv m s
  | .mout m => Sys2Proof.Machine.execMout m s
  | .macc m => Sys2Proof.Machine.execMacc m s
  | .flcopy p => Sys2Proof.Machine.execFlcopy p s
  | .flfill p => Sys2Proof.Machine.execFlfill p s
  | .flred p => Sys2Proof.Machine.execFlred p s
  | .flstmp p => Sys2Proof.Machine.execFlstmp p s
  | .flcoll p => Sys2Proof.Machine.execFlcoll p s
  | .packetUnitDone q => Sys2Proof.Machine.execPacketUnitDone q s
  | .packetComplete q => Sys2Proof.Machine.execPacketComplete q s
  | .notBeforeExpiry q => Sys2Proof.Machine.execNotBeforeExpiry q s
  | .cbSlotDeliver q => Sys2Proof.Machine.execCbSlotDeliver q s
  | .collectiveForm q => Sys2Proof.Machine.execCollectiveForm q s
  | .launchPacketTake q => Sys2Proof.Machine.execLaunchPacketTake q s
  | .gangBind l die => Sys2Proof.Machine.execGangBind l die s
  | .keepWaitEnd l => Sys2Proof.Machine.execKeepWaitEnd l s
  | .operatorIssue op => Sys2Proof.Machine.execOperatorIssue op s
  | .operatorComplete op => Sys2Proof.Machine.execOperatorComplete op s
  | .xferComplete op => Sys2Proof.Machine.execXferComplete op s
  | .launchComplete l => Sys2Proof.Machine.execLaunchComplete l s
  | .stepDispatch core => Sys2Proof.Machine.execStepDispatch core s
  | .fitTimeout op n => Sys2Proof.Machine.execFitTimeout op n s
  | .passoverRaise op n => Sys2Proof.Machine.execPassoverRaise op n s
  | .preemptRequest q => Sys2Proof.Machine.execPreemptRequest q s
  | .preemptFallback core => Sys2Proof.Machine.execPreemptFallback core s
  | .lendReturn l => Sys2Proof.Machine.execLendReturn l s
  | .cancelMark home => Sys2Proof.Machine.execCancelMark home s
  | .cancelToken die ticket => Sys2Proof.Machine.execCancelToken die ticket s
  | .cancelAck die ticket => Sys2Proof.Machine.execCancelAck die ticket s
  | .cancelDone ticket => Sys2Proof.Machine.execCancelDone ticket s
  | .tokenDeliver tok => Sys2Proof.Machine.execTokenDeliver tok s
  | .timewaitExpiry core => Sys2Proof.Machine.execTimewaitExpiry core s
  | .mwaitPoll core => Sys2Proof.Machine.execMwaitPoll core s
  | .mwaitWake core => Sys2Proof.Machine.execMwaitWake core s
  | .gtimeExchange die est => Sys2Proof.Machine.execGtimeExchange die est s
  | .syncErrTick die => Sys2Proof.Machine.execSyncErrTick die s
  | .timeRecordWrite port ptm => Sys2Proof.Machine.execTimeRecordWrite port ptm s
  | .headroomRefresh core draw fmax => Sys2Proof.Machine.execHeadroomRefresh core draw fmax s
  | .sensorSample die temps powers => Sys2Proof.Machine.execSensorSample die temps powers s
  | .clockChange b x => Sys2Proof.Machine.execClockChange b x s
  | .clockChangeDone b => Sys2Proof.Machine.execClockChangeDone b s
  | .leaseGrant die arr => Sys2Proof.Machine.execLeaseGrant die arr s
  | .leaseChargeHalve die arr => Sys2Proof.Machine.execLeaseChargeHalve die arr s
  | .matrixCommandComplete die arr => Sys2Proof.Machine.execMatrixCommandComplete die arr s
  | .loadblockFillDone core blk => Sys2Proof.Machine.execLoadblockFillDone core blk s
  | .faultRecordPost die => Sys2Proof.Machine.execFaultRecordPost die s
  | .verdictRetry port ctx fid => Sys2Proof.Machine.execVerdictRetry port ctx fid s
  | .verdictUnresolvable port ctx fid => Sys2Proof.Machine.execVerdictUnresolvable port ctx fid s
  | .inval ctx val => Sys2Proof.Machine.execInval ctx val s
  | .invalidationAck ctx => Sys2Proof.Machine.execInvalidationAck ctx s
  | .recipeFramePush r => Sys2Proof.Machine.execRecipeFramePush r s
  | .frameComplete f => Sys2Proof.Machine.execFrameComplete f s
  | .requesterRelease r => Sys2Proof.Machine.execRequesterRelease r s
  | .victimMoveComplete t => Sys2Proof.Machine.execVictimMoveComplete t s
  | .tensorProbe t => Sys2Proof.Machine.execTensorProbe t s
  | .mgmtSemAcquire port => Sys2Proof.Machine.execMgmtSemAcquire port s
  | .mgmtSemRelease port => Sys2Proof.Machine.execMgmtSemRelease port s
  | .ctxcmdCreate port ctx home vdmap => Sys2Proof.Machine.execCtxcmdCreate port ctx home vdmap s
  | .ctxcmdDestroy port ctx => Sys2Proof.Machine.execCtxcmdDestroy port ctx s
  | .ctxcmdSetVdmap port ctx vdmap => Sys2Proof.Machine.execCtxcmdSetVdmap port ctx vdmap s
  | .contextDestroyDone ctx => Sys2Proof.Machine.execContextDestroyDone ctx s
  | .assignBarrier port die unit ctx => Sys2Proof.Machine.execAssignBarrier port die unit ctx s
  | .assignTokenChannel port die unit ctx => Sys2Proof.Machine.execAssignTokenChannel port die unit ctx s
  | .assignRelease port die unit ctx => Sys2Proof.Machine.execAssignRelease port die unit ctx s
  | .fwcmdStage port img => Sys2Proof.Machine.execFwcmdStage port img s
  | .fwcmdActivate port => Sys2Proof.Machine.execFwcmdActivate port s
  | .fwcmdEnterMaint port => Sys2Proof.Machine.execFwcmdEnterMaint port s
  | .fwcmdLeaveMaint port => Sys2Proof.Machine.execFwcmdLeaveMaint port s
  | .scopecmdCreateRoot ctx home => Sys2Proof.Machine.execScopecmdCreateRoot ctx home s
  | .scopecmdCreateChild ctx parent => Sys2Proof.Machine.execScopecmdCreateChild ctx parent s
  | .scopecmdFree ctx scope => Sys2Proof.Machine.execScopecmdFree ctx scope s
  | .qcmdDestroy ctx q => Sys2Proof.Machine.execQcmdDestroy ctx q s
  | .qcmdCreateLaunchQueue ctx logcap die => Sys2Proof.Machine.execQcmdCreateLaunchQueue ctx logcap die s
  | .qcmdCreateFlumeQueue ctx logcap die => Sys2Proof.Machine.execQcmdCreateFlumeQueue ctx logcap die s
  | .qcmdReset ctx q => Sys2Proof.Machine.execQcmdReset ctx q s
  | .trh ctx h => Sys2Proof.Machine.execTrh ctx h s
  | .hostRegisterWrite port reg val => Sys2Proof.Machine.execHostRegisterWrite port reg val s
  | .hostCxlMemRequest pa => Sys2Proof.Machine.execHostCxlMemRequest pa s
  | .hostAtomicopIo port => Sys2Proof.Machine.execHostAtomicopIo port s
  | .getVersion port => Sys2Proof.Machine.execGetVersion port s
  | .getCapabilities port => Sys2Proof.Machine.execGetCapabilities port s
  | .negotiateAlgorithms port p521 sha512 => Sys2Proof.Machine.execNegotiateAlgorithms port p521 sha512 s
  | .getDigests port => Sys2Proof.Machine.execGetDigests port s
  | .getCertificate port => Sys2Proof.Machine.execGetCertificate port s
  | .challenge port nonce => Sys2Proof.Machine.execChallenge port nonce s
  | .getMeasurements port index => Sys2Proof.Machine.execGetMeasurements port index s
  | .packageReset => Sys2Proof.Machine.execPackageReset s
  | .portLinkDown port => Sys2Proof.Machine.execPortLinkDown port s
  | .portTrain port partner => Sys2Proof.Machine.execPortTrain port partner s
  | .expanderRemoval port => Sys2Proof.Machine.execExpanderRemoval port s
  | .eccCorrected die => Sys2Proof.Machine.execEccCorrected die s
  | .eccUncorrectable die key => Sys2Proof.Machine.execEccUncorrectable die key s
  | .hbmScrub die => Sys2Proof.Machine.execHbmScrub die s
  | .startUpReady => Sys2Proof.Machine.execStartUpReady s
  | .cxlIoCompletion port who ok => Sys2Proof.Machine.execCxlIoCompletion port who ok s
  | .birsp line dirty => Sys2Proof.Machine.execBirsp line dirty s
  | .cxlCacheSnoop core line => Sys2Proof.Machine.execCxlCacheSnoop core line s

end Sys2Proof.Machine
end

