-- ==== Sys2Proof/Machine/Step.lean ====
section
/-! DEFINITION. One step of the package: the next move of the schedule, and the placing of an instruction for a step. -/
namespace Sys2Proof.Machine
open Sys2Proof

/-- The steps without an encoding: events of the package and of the outside. -/
def isEvent (i : Instr) : Bool := (encode i).isNone

/-- What a strand's move comes to. -/
def runFetched (x : Fetched × State) : Out :=
  match x.1 with
  | .instr i => exec i x.2
  | .move s => .next s

/-- What an array's, an engine's or a walker's move comes to. -/
def runMove (x : Option Instr × State) : Out :=
  match x.1 with
  | some i => exec i x.2
  | none => .next x.2

/-- The head of a vector queue is performed. -/
def queueStep (s : State) (c : Nat) (v : VQ) : Out :=
  match ((s.th c).q.get v).held with
  | [] => .next s
  | e :: _ => exec e.ins s

/-- The control-layer cycles of a core pass (R13). -/
def passCycles (s : State) (c n : Nat) : State :=
  let k := s.core c
  s.setCore c { k with power := { k.power with lcyc := k.power.lcyc + BitVec.ofNat 64 n } }

/-- The time of a die passes (R69). -/
def passDie (s : State) (die ns : Nat) : State :=
  let d := s.die die
  s.setDie die { d with time := { d.time with gtime := d.time.gtime + BitVec.ofNat 64 ns } }

/-- The time of dies passes, within the bound of R70. -/
def passTime (s : State) (xs : List (Nat × Nat)) : State := keepTime s (xs.foldl (fun s x => passDie s x.1 x.2) s)


/-- A live map that the loader supplies (R296). -/
def addLive (s : State) (x : LiveEntry) : State := if x.n < 256 then { s with lives := x :: s.lives } else s

/-- What the end of a move settles (R184, R276); `old` is the state in which it began. -/
def settled (old : State) (x : Out) : Out :=
  match x with
  | .next s => .next (endMove old s)
  | r => r

/-- One move. A unit the package does not have is a fault; an agent that does not exist does nothing. -/
def moveStep (m : Move) (s : State) : Out :=
  match m with
  | .strand c =>
    let m := { s with agent := .strand c, cur := c }
    if 512 ≤ c then .fault .noSuchUnit else settled m (runFetched (strandMove m c))
  | .queue c v =>
    let m := { s with agent := .queue c v }
    if 512 ≤ c then .fault .noSuchUnit else settled m (queueStep m c v)
  | .array die n =>
    let m := { s with agent := .array die n }
    if 8 ≤ die ∨ 16 ≤ n then .fault .noSuchUnit else settled m (runMove (arrayMove m (die * 16 + n)))
  | .flume q =>
    let m := { s with agent := .flume q }
    settled m (runMove (flumeMove m q))
  | .walker l =>
    let m := { s with agent := .walker l }
    settled m (runMove (walkerMove m l))
  | .frame f =>
    let m := { s with agent := .frame f }
    settled m (runMove (frameMove m f))
  | .time xs => if xs.any (fun x => decide (18 ≤ x.1)) then .fault .noSuchUnit else .next (passTime { s with agent := .none } xs)
  | .cycles c n => if 512 ≤ c then .fault .noSuchUnit else .next (passCycles { s with agent := .none } c n)
  | .event i =>
    let m := { s with agent := .event i }
    if isEvent i then settled m (exec i m) else .next { s with agent := .none }
  | .cache die ctx va => if 8 ≤ die then .fault .noSuchUnit else .next (fillCached { s with agent := .none } die ctx va)
  | .evict die ctx va => if 8 ≤ die then .fault .noSuchUnit else .next (dropCached { s with agent := .none } die ctx va)
  | .prefetch core va => if 512 ≤ core then .fault .noSuchUnit else .next (prefetch { s with agent := .none } core va)
  | .dropLine core va =>
    if 512 ≤ core then .fault .noSuchUnit
    else .next (discardLines { s with agent := .none } core (fun x => x.line == va / 128))
  | .live x => .next (addLive { s with agent := .none } x)
  | .load ctx recs =>
    let m := { s with agent := .none }
    settled m (.next (loadImage m ctx recs))
  | .cdat port => .next (cdatAnswer { s with agent := .none } port)
  | .hostWrite key bs => .next (hostWrite { s with agent := .none } key bs)

/-- One step: the first move of the schedule; with none, the strand of the core that moved last. -/
def step (s : State) : Host.Outcome State Fault Refusal :=
  match s.sched with
  | [] => moveStep (.strand s.cur) s
  | m :: ms => moveStep m { s with sched := ms }

/-! ### Placing an instruction -/

/-- Where withFetchWord places a Tollum word or a record. -/
def placeVa : Nat := 0x100000

/-- The key of the root table that withFetchWord writes. -/
def placeRoot : Nat := 0x1000

/-- Bytes of w, the lowest first. -/
def placeBytes (m : Mem) (key nbits w : Nat) : Mem := m.writeNat key ((nbits + 7) / 8) w

/-- A page table that maps the first GiB of virtual addresses to the first GiB of DEV, writable and executable. -/
def placeTables (m : Mem) : Mem :=
  ((m.writeNat placeRoot 8 (0x2000 + 1)).writeNat 0x2000 8 (0x3000 + 1)).writeNat 0x3000 8 0xF

/-- Context 0 exists, with that table. -/
def placeCtx (s : State) : State :=
  let s : State := { s with mem := placeTables s.mem }
  s.setCtx 0 { s.ctx 0 with live := true, vdmap := 0x8, ptroot := BitVec.ofNat 64 placeRoot }

/-- The strand of core 0 stands before a Tollum word inside a block, a header at the head of one. -/
def placeStrand (s : State) (nbits w : Nat) : State :=
  let s : State := { s with mem := placeBytes s.mem placeVa (Nat.max nbits 64) w }
  let k := s.core 0
  let va := BitVec.ofNat 64 placeVa
  let pos : Pos := { pc := va, hdr := va - 4, len := 16, rpt := 0, atHdr := isHeader (w % 2 ^ 32) }
  let job := { k.th.job with run := .run, wait := .none, park := .run, host := .idle, code := .idle }
  let t := { k.th with pos := pos, job := job }
  let k := { k with th := t, bind := { k.bind with bound := some 0, ctx := some 0 }, ahead := [], loop := none }
  { s.setCore 0 k with sched := .strand 0 :: s.sched }

/-- A command record at the head of core 0's ring, its array leased to core 0. -/
def placeCommand (s : State) (nbits w : Nat) : State :=
  let s : State := { s with mem := placeBytes s.mem (spadKey 0 0) nbits w }
  let k := s.core 0
  let t := { k.th with job := { k.th.job with run := .run }, strm := { k.th.strm with sem := Vector.replicate 32 1 } }
  let s := s.setCore 0 { k with th := t, ring := { k.ring with cfg := true, base := 0, logn := 4, rd := 0, wr := 1, park := .run, holds := [] },
                                bind := { k.bind with bound := some 0, ctx := some 0 } }
  { s.setArray 0 { s.array 0 with lease := some 0, exec := none } with sched := .array 0 0 :: s.sched }

/-- A record at the program counter of launch 0's walker. -/
def placeRecord (s : State) (nbits w : Nat) : State :=
  let s : State := { s with mem := placeBytes s.mem placeVa nbits w }
  let x : Launch := { s.launch 0 with ctx := 0, die := 0, st := .running, pc := BitVec.ofNat 64 placeVa, walk := .run, park := .run }
  { s.setLaunch 0 x with sched := .walker 0 :: s.sched }

/-- A packet at the head of Flume queue 0, of context 0: RIDX is its tag. -/
def placePacket (s : State) (nbits w : Nat) : State :=
  let tag := w / 2 ^ 448 % 2 ^ 64
  let q : QRec := { kind := .flume, ctx := 0, die := 0, logcap := 2, base := 0x200000 }
  let m := (s.mem.writeNat q.base 8 (tag + 1)).writeNat (q.base + 8) 8 tag
  let m := placeBytes m (qslotKey 0 q tag) nbits w
  { (({ s with mem := m } : State).delRun 0).setQueue 0 q with sched := .flume 0 :: s.sched }

/-- The instruction w of nbits bits stands where the next step fetches: Tollum words at core 0's strand, matrix commands in
its ring, records before a walker, packets in a Flume queue, each with what its fetch needs. -/
def State.withFetchWord (s : State) (nbits w : Nat) : State :=
  let s := placeCtx s
  if nbits ≤ 64 then placeStrand s nbits w
  else if nbits ≤ 128 then placeCommand s nbits w
  else if nbits ≤ 256 then placeRecord s nbits w
  else placePacket s nbits w

end Sys2Proof.Machine
end

