-- ==== Sys2Proof/Safety.lean ====
section
/-! DEFINITION. What counts as a safe run: the schedule moves only units the package has, memory keeps its canonical form,
and a step goes on. -/
namespace Sys2Proof.Machine
open Sys2Proof

/-- The unit a move names is one the package has (R6, R10). -/
def Move.unitOk : Move → Bool
  | .strand c | .queue c _ | .cycles c _ | .prefetch c _ | .dropLine c _ => decide (c < 512)
  | .array die n => decide (die < 8) && decide (n < 16)
  | .time xs => xs.all fun x => decide (x.1 < 18)
  | .cache die _ _ | .evict die _ _ => decide (die < 8)
  | .flume _ | .walker _ | .frame _ | .event _ | .live _ | .load _ _ | .cdat _ | .hostWrite _ _ => true

/-- Every move of the schedule, and the core that moves where it is empty, name units of the package. -/
def State.schedOk (s : State) : Bool := s.sched.all Move.unitOk && decide (s.cur < 512)

/-- Memory is in its canonical form. -/
def State.Inv (s : State) : Prop := memWf s.mem

/-- The next step goes on. -/
def State.Goes (s : State) : Prop := ∃ t, step s = .next t

/-- Every step of a run of n steps goes on, and memory keeps its form at each. -/
def SafeRun : Nat → State → Prop
  | 0, s => s.Inv
  | n + 1, s => s.Inv ∧ ∃ t, step s = .next t ∧ SafeRun n t

end Sys2Proof.Machine
end

