-- ==== Sys2Proof/Certificates/Slice0/Obligations.lean ====
section
/-! DEFINITION. The statements about the model, for the provers. `Sys2Proof.Ob` holds the vocabulary they share. -/
open Sys2Proof Sys2Proof.Machine

namespace Sys2Proof.Ob

/-! ### Vocabulary: registers and frames -/

/-- Scalar rd takes a value and a D bit, and the strand goes on past n parcels. -/
def wrote (s : State) (rd : BitVec 5) (v : Word) (d : Bool) (n : Nat) : State :=
  s.setTh s.me (((s.th s.me).wrS rd v d).advance n)

/-- The value and the D bit of a scalar register of the strand that moves. -/
def reg (s : State) (r : BitVec 5) : Word := ((s.th s.me).rdS r).val
def regD (s : State) (r : BitVec 5) : Bool := ((s.th s.me).rdS r).d

/-- D is clear in every register of a list. -/
def noD (s : State) (rs : List (BitVec 5)) : Bool := rs.all (fun r => !regD s r)

/-- Every part of the state other than the cores is unchanged. -/
def SameOutside (s t : State) : Prop := t = { s with cores := t.cores }

/-- Every other core is unchanged. -/
def SameOthers (s t : State) (c : Nat) : Prop := ∀ j, j ≠ c → t.core j = s.core j

/-- Of the moving strand's core, only the scalar register rd, the position and FSTAT may differ. -/
def OnlyScalar (s t : State) (rd : BitVec 5) (flags : Bool) : Prop :=
  SameOutside s t ∧ SameOthers s t s.me ∧
    (∃ p f, t.core s.me = { s.core s.me with th := { s.th s.me with
      pos := p, regs := { (s.th s.me).regs with s := (t.th s.me).regs.s }, csr := { (s.th s.me).csr with fstat := f } } }) ∧
    (flags = false → (t.th s.me).csr.fstat = (s.th s.me).csr.fstat) ∧
    ∀ r, r ≠ rd → (t.th s.me).rdS r = (s.th s.me).rdS r

/-- Every byte of memory reads as before, but for n bytes from a key. -/
def SameMemory (s t : State) (key n : Nat) : Prop :=
  ∀ k, (k < key ∨ key + n ≤ k) → t.mem.readByte k = s.mem.readByte k

/-! ### Vocabulary: scalar operations, from Tables 14-2 to 14-4 -/

/-- Quotient and remainder of R139. -/
def quot (a b : Word) : Word := if b = 0 then BitVec.allOnes 64 else a.sdiv b
def quotU (a b : Word) : Word := if b = 0 then BitVec.allOnes 64 else a / b
def remS (a b : Word) : Word := if b = 0 then a else a.srem b
def remU (a b : Word) : Word := if b = 0 then a else a % b

/-- Table 14-2. -/
def regOps : List ((R3 → Instr) × (Word → Word → Word)) := [
  (.add, fun a b => a + b), (.sub, fun a b => a - b), (.and, fun a b => a &&& b), (.or, fun a b => a ||| b),
  (.xor, fun a b => a ^^^ b), (.sll, fun a b => a <<< (b.toNat % 64)), (.srl, fun a b => a >>> (b.toNat % 64)),
  (.sra, fun a b => a.sshiftRight (b.toNat % 64)), (.slt, fun a b => if a.toInt < b.toInt then 1 else 0),
  (.sltu, fun a b => if a.toNat < b.toNat then 1 else 0), (.min, fun a b => if a.toInt < b.toInt then a else b),
  (.max, fun a b => if a.toInt < b.toInt then b else a), (.minu, fun a b => if a.toNat < b.toNat then a else b),
  (.maxu, fun a b => if a.toNat < b.toNat then b else a), (.mul, fun a b => BitVec.ofInt 64 (a.toInt * b.toInt)),
  (.mulh, fun a b => BitVec.ofInt 64 (a.toInt * b.toInt / 2 ^ 64)),
  (.mulhu, fun a b => BitVec.ofNat 64 (a.toNat * b.toNat / 2 ^ 64)), (.div, quot), (.divu, quotU), (.rem, remS), (.remu, remU)]

/-- The operations of one register: CLZ, CTZ and POPC by their counts, and the immediate forms (Table 14-3). -/
def leading (a : Word) : Nat := ((List.range 64).takeWhile (fun j => !a.getLsbD (63 - j))).length
def trailing (a : Word) : Nat := ((List.range 64).takeWhile (fun j => !a.getLsbD j)).length
def setBits (a : Word) : Nat := ((List.range 64).filter (fun j => a.getLsbD j)).length

def unOps : List ((R2 → Instr) × (Word → Word)) := [
  (.clz, fun a => BitVec.ofNat 64 (leading a)), (.ctz, fun a => BitVec.ofNat 64 (trailing a)),
  (.popc, fun a => BitVec.ofNat 64 (setBits a))]

def immOps : List ((RI → Instr) × (Word → Word → Word)) := [
  (.addi, fun a m => a + m), (.andi, fun a m => a &&& m), (.ori, fun a m => a ||| m), (.xori, fun a m => a ^^^ m),
  (.slti, fun a m => if a.toInt < m.toInt then 1 else 0), (.sltiu, fun a m => if a.toNat < m.toNat then 1 else 0)]

def shiftOps : List ((R2 → BitVec 6 → Instr) × (Word → Nat → Word)) := [
  (.slli, fun a n => a <<< n), (.srli, fun a n => a >>> n), (.srai, fun a n => a.sshiftRight n)]

/-- Table 14-4. -/
def branchOps : List ((RB → Instr) × (Word → Word → Bool)) := [
  (.beq, fun a b => decide (a = b)), (.bne, fun a b => decide (a ≠ b)), (.blt, fun a b => decide (a.toInt < b.toInt)),
  (.bge, fun a b => decide (b.toInt ≤ a.toInt)), (.bltu, fun a b => decide (a.toNat < b.toNat)),
  (.bgeu, fun a b => decide (b.toNat ≤ a.toNat))]

/-- The FPU group and FMA where they round: two operands, the exact result rounded once (R314). -/
def fpOps : List ((R3 → BitVec 2 → Instr) × (Rm → Nat → Nat → FRes)) := [
  (.fadd, fpAdd), (.fsub, fpSub), (.fmul, fpMul), (.fdiv, fpDiv)]

/-- Operations of two operands that are never tiny. -/
def fpSelOps : List ((R3 → Instr) × (Nat → Nat → FRes)) := [
  (.fmin, fun a b => { bits := fmtFP32.minmax false a b }), (.fmax, fun a b => { bits := fmtFP32.minmax true a b }),
  (.feq, fpCmp .eq), (.flt, fpCmp .lt), (.fle, fpCmp .le)]

/-- FABS and FNEG; the conversions, with their flags. -/
def fpUnOps : List ((R2 → Instr) × (Nat → Word × Flags)) := [
  (.fabs, fun a => (BitVec.ofNat 64 (if (fdec a).isNan then 0x7FC00000 else a % 2 ^ 31), {})),
  (.fneg, fun a => (BitVec.ofNat 64 (if (fdec a).isNan then 0x7FC00000 else a ^^^ 2 ^ 31), {}))]

def fpCvtOps : List ((R2 → BitVec 2 → Instr) × (Rm → Nat → Word × Flags)) := [
  (.fcvtws, fun rm a => let r := (fdec a).toInteger rm true 32; (sext32 r.bits, r.flags)),
  (.fcvtus, fun rm a => let r := (fdec a).toInteger rm false 32; (BitVec.ofNat 64 r.bits, r.flags)),
  (.fcvtsw, fun rm a => let r := fmtFP32.ofInt rm false (toIntOf true 32 a); (BitVec.ofNat 64 r.bits, r.flags)),
  (.fcvtsu, fun rm a => let r := fmtFP32.ofInt rm false (toIntOf false 32 a); (BitVec.ofNat 64 r.bits, r.flags))]

/-- Bits [31:0] of a register. -/
def fbits (s : State) (r : BitVec 5) : Nat := (reg s r).toNat % 2 ^ 32

/-- Flags merge into FSTAT; then rd is written. -/
def wroteF (s : State) (rd : BitVec 5) (v : Word) (fl : Flags) (d : Bool) : State :=
  s.setTh s.me ((((s.th s.me).merge fl).wrS rd v d).advance 2)

/-! ### Vocabulary: accesses of the control core -/

/-- The strand stands at its instruction with nothing of it done. -/
def fresh (s : State) : Bool := freshPoint (s.th s.me)

/-- An access of w bytes at a is let through at a key at once: aligned, translated and permitted (R199, R205, R206), behind
no access of the queues (R251), and not HOST-U (R273). -/
def letThrough (s : State) (k : AccKind) (rel : Bool) (a : Word) (w key : Nat) (cls : Option Cls) : Bool :=
  let c := s.me
  let q := (s.th c).q
  decide (a.toNat % w = 0) && decide (checkAccess s (s.whoThread c) k a w = .ok key cls) && decide (cls ≠ some .hostU) &&
    !heldBack s c q.seq a w && (!rel || accessesDone s c)

/-- The loads: width and sign (Table 15-1). -/
def loadOps : List ((RI → Instr) × Nat × Bool) := [
  (.ldb, 1, true), (.ldbu, 1, false), (.ldh, 2, true), (.ldhu, 2, false), (.ldw, 4, true), (.ldwu, 4, false),
  (.ldd, 8, false), (.lds, 8, false)]

def storeOps : List ((RI → Instr) × Nat) := [(.stb, 1), (.sth, 2), (.stw, 4), (.std, 8)]

/-- The value that an AMO writes (Table 14-1): w bytes, from the old value, b and c. -/
def amoOps : List ((R3 → BitVec 2 → Bool → Instr) × (Nat → Nat → Nat → Nat → Option Nat)) := [
  (.aadd, fun w old b _ => some ((old + b) % 2 ^ (8 * w))), (.aswp, fun _ _ b _ => some b),
  (.acas, fun _ old b c => if old = c then some b else none), (.aand, fun _ old b _ => some (old &&& b)),
  (.aor, fun _ old b _ => some (old ||| b)), (.axor, fun _ old b _ => some (old ^^^ b)),
  (.amin, fun w old b _ => some (if (BitVec.ofNat (8 * w) b).toInt < (BitVec.ofNat (8 * w) old).toInt then b else old)),
  (.amax, fun w old b _ => some (if (BitVec.ofNat (8 * w) old).toInt < (BitVec.ofNat (8 * w) b).toInt then b else old)),
  (.aminu, fun _ old b _ => some (Nat.min old b)), (.amaxu, fun _ old b _ => some (Nat.max old b))]

/-- The registers whose D bit an AMO tests. -/
def amoRegs (i : Instr) (f : R3) : List (BitVec 5) :=
  match i with
  | .acas _ _ _ => [f.rd, f.ra, f.rb]
  | _ => [f.ra, f.rb]

end Sys2Proof.Ob

open Sys2Proof.Ob

/-! ### Scalar arithmetic -/

/-- R308 and R139: every register operation writes rd as Table 14-2 states, with D(rd) the OR of the D bits read; nothing
else but the position changes: no trap, no flag. -/
def Obligations.ScalarRegisterResult : Prop :=
  (∀ p ∈ regOps, ∀ (f : R3) (s : State),
    exec (p.1 f) s = .next (wrote s f.rd (p.2 (reg s f.ra) (reg s f.rb)) (regD s f.ra || regD s f.rb) 2)) ∧
  (∀ p ∈ unOps, ∀ (f : R2) (s : State), exec (p.1 f) s = .next (wrote s f.rd (p.2 (reg s f.ra)) (regD s f.ra) 2)) ∧
  (∀ (f : R3) (n : BitVec 6) (s : State),
    exec (.fshr f n) s = .next (wrote s f.rd
      (BitVec.ofNat 64 (((reg s f.ra).toNat * 2 ^ 64 + (reg s f.rb).toNat) / 2 ^ n.toNat)) (regD s f.ra || regD s f.rb) 2))

/-- R309, with m := sext(imm13, 64): the immediate operations, and the shifts by a constant; no instruction has a shift count of
64 or more. -/
def Sys2Proof.Ob.scalarImmediateResult : Prop :=
  (∀ p ∈ immOps, ∀ (f : RI) (s : State),
    exec (p.1 f) s = .next (wrote s f.rd (p.2 (reg s f.ra) (f.imm.signExtend 64)) (regD s f.ra) 2)) ∧
  (∀ p ∈ shiftOps, ∀ (f : R2) (n : BitVec 6) (s : State),
    exec (p.1 f n) s = .next (wrote s f.rd (p.2 (reg s f.ra) n.toNat) (regD s f.ra) 2)) ∧
  (∀ op ∈ ([5, 6, 7] : List (BitVec 6)), ∀ (rd ra : BitVec 5) (imm : BitVec 13) (next : BitVec 32), 64 ≤ imm.toNat →
    decodeTollum (encSI op rd ra imm) next = none)

/-- R323 and R102: LIU and FLI write their constant with D clear; each short form writes what its long form writes and is one
parcel. -/
def Sys2Proof.Ob.scalarConstantAndShortForms : Prop :=
  (∀ (rd : BitVec 5) (imm : BitVec 20) (s : State),
    exec (.liu rd imm) s = .next (wrote s rd ((imm ++ 0#13).signExtend 64) false 2) ∧
    exec (.fli rd imm) s = .next (wrote s rd ((imm ++ 0#12).zeroExtend 64) false 2)) ∧
  (∀ (ra rb : BitVec 5) (s : State),
    exec (.cMv ra rb) s = .next (wrote s ra (reg s rb) (regD s rb) 1) ∧
    exec (.cAdd ra rb) s = .next (wrote s ra (reg s ra + reg s rb) (regD s ra || regD s rb) 1) ∧
    exec (.cSub ra rb) s = .next (wrote s ra (reg s ra - reg s rb) (regD s ra || regD s rb) 1)) ∧
  (∀ (ra : BitVec 5) (imm : BitVec 7) (n : BitVec 6) (s : State),
    exec (.cLi ra imm) s = .next (wrote s ra (imm.signExtend 64) false 1) ∧
    exec (.cAddi ra imm) s = .next (wrote s ra (reg s ra + imm.signExtend 64) (regD s ra) 1) ∧
    exec (.cSlli ra n) s = .next (wrote s ra (reg s ra <<< n.toNat) (regD s ra) 1))

/-- R309, with m := sext(imm13, 64): the immediate operations, and the shifts by a constant; no instruction has a shift count
of 64 or more. R323 and R102: LIU and FLI write their constant with D clear; each short form writes what its long form writes
and is one parcel. -/
def Obligations.ScalarConstantResult : Prop :=
  Sys2Proof.Ob.scalarImmediateResult ∧ Sys2Proof.Ob.scalarConstantAndShortForms


/-- R86 and R306: s0 reads as zero, and a write to s0 is discarded: only the position of the strand changes. -/
def Sys2Proof.Ob.registerZero : Prop :=
  (∀ s : State, reg s 0 = 0 ∧ regD s 0 = false) ∧
  (∀ (s : State) (v : Word) (d : Bool) (n : Nat), wrote s 0 v d n = s.advance s.me n) ∧
  (∀ p ∈ regOps, ∀ (f : R3) (s : State), f.rd = 0 → exec (p.1 f) s = .next (s.advance s.me 2))

/-- The frame of the scalar groups: no memory, no other core and no other register changes; the FPU group may change FSTAT,
the others do not. -/
def Sys2Proof.Ob.scalarFrame : Prop :=
  (∀ p ∈ regOps, ∀ (f : R3) (s t : State), exec (p.1 f) s = .next t → OnlyScalar s t f.rd false) ∧
  (∀ p ∈ immOps, ∀ (f : RI) (s t : State), exec (p.1 f) s = .next t → OnlyScalar s t f.rd false) ∧
  (∀ p ∈ shiftOps, ∀ (f : R2) (n : BitVec 6) (s t : State), exec (p.1 f n) s = .next t → OnlyScalar s t f.rd false) ∧
  (∀ p ∈ fpSelOps, ∀ (f : R3) (s t : State), exec (p.1 f) s = .next t → OnlyScalar s t f.rd true) ∧
  (∀ p ∈ fpUnOps, ∀ (f : R2) (s t : State), exec (p.1 f) s = .next t → OnlyScalar s t f.rd true)

/-- R86 and R306: s0 reads as zero, and a write to s0 is discarded: only the position of the strand changes. The frame of the
scalar groups: no memory, no other core and no other register changes; the FPU group may change FSTAT, the others do not. -/
def Obligations.ScalarFrameAndZero : Prop :=
  Sys2Proof.Ob.registerZero ∧ Sys2Proof.Ob.scalarFrame


/-- R314, R316 and R135: the rounding operations write the result rounded once, zero-extended, and merge its flags, unless
the result is tiny; a tiny result is written as a zero of its sign with UF and NX under FTZ or in H mode. -/
def Sys2Proof.Ob.fpuRoundedResult : Prop :=
  let done := fun (s : State) (rd : BitVec 5) (d : Bool) (r : FRes) (o : Out) =>
    (r.tiny = false → o = .next (wroteF s rd (BitVec.ofNat 64 r.bits) r.flags d)) ∧
    (r.tiny = true → ((s.th s.me).csr.ftz = true ∨ (s.th s.me).pos.mode = .h) →
      o = .next (wroteF s rd (BitVec.ofNat 64 (r.flush fmtFP32).bits) (r.flush fmtFP32).flags d))
  (∀ p ∈ fpOps, ∀ (f : R3) (rm : BitVec 2) (s : State),
    done s f.rd (regD s f.ra || regD s f.rb) (p.2 (Rm.ofBits rm) (fbits s f.ra) (fbits s f.rb)) (exec (p.1 f rm) s)) ∧
  (∀ (f : R2) (rm : BitVec 2) (s : State),
    done s f.rd (regD s f.ra) (fpSqrt (Rm.ofBits rm) (fbits s f.ra)) (exec (.fsqrt f rm) s)) ∧
  (∀ (f : R3) (rm : BitVec 2) (s : State),
    done s f.rd (regD s f.ra || regD s f.rb || regD s f.rd)
      (fpFma (Rm.ofBits rm) (fbits s f.ra) (fbits s f.rb) (fbits s f.rd)) (exec (.fma f rm) s))

/-- R135: a tiny result in K mode without FTZ takes SUBN at the instruction, with TVAL 0, rd not written and no flag merged. -/
def Sys2Proof.Ob.fpuTinyTakesSubn : Prop :=
  ∀ p ∈ fpOps, ∀ (f : R3) (rm : BitVec 2) (s : State),
    (p.2 (Rm.ofBits rm) (fbits s f.ra) (fbits s f.rb)).tiny = true → (s.th s.me).csr.ftz = false →
    (s.th s.me).pos.mode = .k → ∃ t, exec (p.1 f rm) s = .next t ∧
      (t.th s.me).trap.cause = 0x08 ∧ (t.th s.me).trap.tval = 0 ∧ (t.th s.me).trap.tpc = (s.th s.me).pos.pc.truncate 57 ∧
      (t.th s.me).regs = (s.th s.me).regs ∧ (t.th s.me).csr.fstat = (s.th s.me).csr.fstat ∧ (t.th s.me).pos.mode = .h

/-- R314, R316 and R135: the rounding operations write the result rounded once, zero-extended, and merge its flags, unless
the result is tiny; a tiny result is written as a zero of its sign with UF and NX under FTZ or in H mode. R135: a tiny result
in K mode without FTZ takes SUBN at the instruction, with TVAL 0, rd not written and no flag merged. -/
def Obligations.FpuRoundingResult : Prop :=
  Sys2Proof.Ob.fpuRoundedResult ∧ Sys2Proof.Ob.fpuTinyTakesSubn


/-- R314, R132 and R140: the operations that round no arithmetic value write their result in every state. -/
def Obligations.FpuExactResult : Prop :=
  (∀ p ∈ fpSelOps, ∀ (f : R3) (s : State),
    exec (p.1 f) s = .next (wroteF s f.rd (BitVec.ofNat 64 (p.2 (fbits s f.ra) (fbits s f.rb)).bits)
      (p.2 (fbits s f.ra) (fbits s f.rb)).flags (regD s f.ra || regD s f.rb))) ∧
  (∀ p ∈ fpUnOps, ∀ (f : R2) (s : State),
    exec (p.1 f) s = .next (wroteF s f.rd (p.2 (fbits s f.ra)).1 (p.2 (fbits s f.ra)).2 (regD s f.ra))) ∧
  (∀ p ∈ fpCvtOps, ∀ (f : R2) (rm : BitVec 2) (s : State),
    exec (p.1 f rm) s = .next (wroteF s f.rd (p.2 (Rm.ofBits rm) (fbits s f.ra)).1 (p.2 (Rm.ofBits rm) (fbits s f.ra)).2
      (regD s f.ra)))

/-! ### Control flow -/

/-- R310: a taken branch continues at P + 2 x sext(off13) and ends the block; one not taken only goes on. -/
def Sys2Proof.Ob.branchResult : Prop :=
  ∀ p ∈ branchOps, ∀ (f : RB) (s : State), noD s [f.ra, f.rb] = true →
    (p.2 (reg s f.ra) (reg s f.rb) = true → exec (p.1 f) s =
      .next (s.setTh s.me ((s.th s.me).branch ((s.th s.me).pos.pc + 2 * f.off.signExtend 64)))) ∧
    (p.2 (reg s f.ra) (reg s f.rb) = false → exec (p.1 f) s = .next (s.advance s.me 2))

/-- R318 and R319: JAL writes ret to s31 where L is set; JALR reads its target before it writes rd; an odd target of JALR is
MISALIGN with rd unchanged. -/
def Sys2Proof.Ob.jumpResult : Prop :=
  (∀ (off : BitVec 20) (s : State),
    exec (.jal true off) s = .next (s.setTh s.me
      (((s.th s.me).wrS 31 (s.th s.me).pos.ret false).branch ((s.th s.me).pos.pc + 2 * off.signExtend 64))) ∧
    exec (.jal false off) s = .next (s.setTh s.me ((s.th s.me).branch ((s.th s.me).pos.pc + 2 * off.signExtend 64)))) ∧
  (∀ (f : RI) (s : State), noD s [f.ra] = true →
    let t := reg s f.ra + f.imm.signExtend 64
    (t.getLsbD 0 = false → exec (.jalr f) s =
      .next (s.setTh s.me (((s.th s.me).wrS f.rd (s.th s.me).pos.ret false).branch t))) ∧
    (t.getLsbD 0 = true → exec (.jalr f) s = .next (takeTrap s s.me 0x04 t)))

/-- R310: a taken branch continues at P + 2 x sext(off13) and ends the block; one not taken only goes on. R318 and R319: JAL
writes ret to s31 where L is set; JALR reads its target before it writes rd; an odd target of JALR is MISALIGN with rd
unchanged. -/
def Obligations.BranchAndJumpResult : Prop :=
  Sys2Proof.Ob.branchResult ∧ Sys2Proof.Ob.jumpResult


/-- R90: LOOPR lowers TRIPS, or else DRAIN, raises both bases, writes the new logical p8 and branches; with both 0 it falls
through. `clear`: no held instruction names that predicate (R81). -/
def Sys2Proof.Ob.loopResult : Prop :=
  ∀ (off : BitVec 13) (s : State),
    let c := s.me
    let t := s.th c
    let r := { t.csr with vb := t.csr.vb + 1, pb := t.csr.pb + 1 }
    let p8 := mapP r.pb 8
    let clear := t.q.holding (fun e => e.writesP.contains p8.toNat || e.readsP.contains p8.toNat) = []
    let pass := fun (r : Csrs) (v : PReg) => s.setTh c (({ t with csr := r, regs := t.regs.wrP p8 { val := v } } : Thread).branch
      (t.pos.pc + 2 * off.signExtend 64))
    (t.csr.trips ≠ 0 → clear → exec (.loopr off) s =
      .next (pass { r with trips := t.csr.trips - 1 } (BitVec.allOnes 256))) ∧
    (t.csr.trips = 0 → t.csr.drain ≠ 0 → clear → exec (.loopr off) s =
      .next (pass { r with drain := t.csr.drain - 1 } 0)) ∧
    (t.csr.trips = 0 → t.csr.drain = 0 → exec (.loopr off) s = .next (s.advance c 2))

/-- R311 and R93: BP tests all 256 bits of its physical predicate; CHKD branches where the D bit of a scalar register is set;
both once no held instruction writes the register. -/
def Sys2Proof.Ob.predicateAndDeferredBranch : Prop :=
  (∀ (p : BitVec 5) (test : BitVec 2) (off : BitVec 13) (s : State),
    let t := s.th s.me
    let n := mapP t.csr.pb p
    let x := t.regs.rdP n
    t.q.holding (fun e => e.writesP.contains n.toNat) = [] → x.d = false → x.ecc = false →
    let holds := if test = 0#2 then x.val ≠ 0 else if test = 1#2 then x.val = 0 else x.val = BitVec.allOnes 256
    (holds → exec (.bp p test off) s = .next (s.setTh s.me (t.branch (t.pos.pc + 2 * off.signExtend 64)))) ∧
    (¬ holds → exec (.bp p test off) s = .next (s.advance s.me 2))) ∧
  (∀ (n : BitVec 6) (off : BitVec 13) (s : State),
    let t := s.th s.me
    exec (.chkd 0 n off) s = .next (if (t.rdS (n.truncate 5)).d then
      s.setTh s.me (t.branch (t.pos.pc + 2 * off.signExtend 64)) else s.advance s.me 2)) ∧
  (∀ (n : BitVec 6) (off : BitVec 13) (s : State),
    let t := s.th s.me
    let v := mapV t.csr.vb n
    t.q.holding (fun e => e.writesV.contains v.toNat) = [] →
    exec (.chkd 1 n off) s = .next (if (t.regs.rdV v 0).d then
      s.setTh s.me (t.branch (t.pos.pc + 2 * off.signExtend 64)) else s.advance s.me 2))

/-- R90: LOOPR lowers TRIPS, or else DRAIN, raises both bases, writes the new logical p8 and branches; with both 0 it falls
through. `clear`: no held instruction names that predicate (R81). R311 and R93: BP tests all 256 bits of its physical
predicate; CHKD branches where the D bit of a scalar register is set; both once no held instruction writes the register. -/
def Obligations.LoopAndTestBranchResult : Prop :=
  Sys2Proof.Ob.loopResult ∧ Sys2Proof.Ob.predicateAndDeferredBranch


/-! ### Loads, stores and atomics of the control core -/

/-- R322, R321 and R320: a load that is let through writes the value at the address, extended as Table 15-1 states, with
D(rd) clear; LDAQ is an acquire: it also empties the dirty-line FIFO (R248) and takes the causal stamp of what has reached
any die (R253; of which dies is the model's reading, log entry 56); KLD fills the constant bank and writes 0. -/
def Sys2Proof.Ob.loadResult : Prop :=
  (∀ p ∈ loadOps, ∀ (f : RI) (s : State) (key : Nat) (cls : Option Cls),
    let a := reg s f.ra + f.imm.signExtend 64
    fresh s = true → noD s [f.ra] = true → letThrough s .read false a p.2.1 key cls = true →
    exec (p.1 f) s = .next (wrote s f.rd (extend p.2.1 p.2.2 (s.mem.readNat key p.2.1)) false 2)) ∧
  (∀ (ra rb : BitVec 5) (j : BitVec 2) (s : State) (key : Nat) (cls : Option Cls),
    fresh s = true → noD s [rb] = true → letThrough s .read false (reg s rb + BitVec.ofNat 64 (8 * j.toNat)) 8 key cls = true →
    exec (.cLdd ra rb j) s = .next (wrote s ra (BitVec.ofNat 64 (s.mem.readNat key 8)) false 1)) ∧
  (∀ (f : R2) (dbl : Bool) (s : State) (key : Nat) (cls : Option Cls),
    let w := if dbl then 8 else 4
    fresh s = true → noD s [f.ra] = true → letThrough s .read false (reg s f.ra) w key cls = true →
    exec (.ldaq f dbl) s = .next (wrote (acquireAll s s.me) f.rd (BitVec.ofNat 64 (s.mem.readNat key w)) false 2)) ∧
  (∀ (f : R2) (s : State) (key : Nat) (cls : Option Cls),
    fresh s = true → noD s [f.ra] = true → letThrough s .read false (reg s f.ra) 256 key cls = true →
    let t := s.th s.me
    exec (.kld f) s = .next (wrote (s.setTh s.me { t with regs := { t.regs with k := bankAt s.mem key },
                                                          marks := t.marks.filter (fun m => m.1 != 3) }) f.rd 0 false 2))

/-- R332 and R321: a store that is let through writes the low bytes of rd and no register; STRL is a release (R249). A store that
leaves its die carries the causal stamp (R253; when the die's own counter advances is the model's choice, log entry 56). -/
def Sys2Proof.Ob.storeResult : Prop :=
  (∀ p ∈ storeOps, ∀ (f : RI) (s : State) (key : Nat) (cls : Option Cls),
    let a := reg s f.ra + f.imm.signExtend 64
    fresh s = true → noD s [f.rd, f.ra] = true → letThrough s .write false a p.2 key cls = true →
    exec (p.1 f) s = .next ((storeOut s s.me a key cls (leBytes p.2 (reg s f.rd).toNat)).advance s.me 2)) ∧
  (∀ (ra rb : BitVec 5) (j : BitVec 2) (s : State) (key : Nat) (cls : Option Cls),
    let a := reg s rb + BitVec.ofNat 64 (8 * j.toNat)
    fresh s = true → noD s [ra, rb] = true → letThrough s .write false a 8 key cls = true →
    exec (.cStd ra rb j) s = .next ((storeOut s s.me a key cls (leBytes 8 (reg s ra).toNat)).advance s.me 1)) ∧
  (∀ (ra rb : BitVec 5) (dbl : Bool) (s : State) (key : Nat) (cls : Option Cls),
    let w := if dbl then 8 else 4
    fresh s = true → noD s [ra, rb] = true → letThrough s .write true (reg s ra) w key cls = true →
    exec (.strl ra rb dbl) s = .next ((storeOut (drainFifo s s.me) s.me (reg s ra) key (pastFifo cls)
      (leBytes w (reg s rb).toNat)).advance s.me 2))

/-- R322, R321 and R320: a load that is let through writes the value at the address, extended as Table 15-1 states, with
D(rd) clear; LDAQ is an acquire: it also empties the dirty-line FIFO (R248) and takes the causal stamp of what has reached
any die (R253; of which dies is the model's reading, log entry 56); KLD fills the constant bank and writes 0. R332 and R321:
a store that is let through writes the low bytes of rd and no register; STRL is a release (R249). A store that leaves its die
carries the causal stamp (R253; when the die's own counter advances is the model's choice, log entry 56). -/
def Obligations.LoadAndStoreResult : Prop :=
  Sys2Proof.Ob.loadResult ∧ Sys2Proof.Ob.storeResult


/-- R307 and Table 14-1: an AMO that is let through reads the old value and writes f(old, b, c) where the operation writes,
as one event, and rd takes the old value zero-extended. An acquire form takes the causal stamp of what has reached any die (log entry 56), and every ordered
form empties the dirty-line FIFO. -/
def Obligations.AmoResult : Prop :=
  let done := fun (s : State) (f : R3) (order : BitVec 2) (w key : Nat) (cls : Option Cls) (v : Option Nat) =>
    let s1 := if order = 0#2 then s else if order.getLsbD 0 then acquireAll s s.me else drainFifo s s.me
    let s2 := match v with
      | some x => storeOut s1 s.me (reg s f.ra) key (pastFifo cls) (leBytes w x)
      | none => if ownSpad s.me key then s1 else s1.setTh s.me (clearRestart (s1.th s.me))
    Host.Outcome.next (ρ := Refusal) (φ := Fault) (wrote s2 f.rd (BitVec.ofNat 64 (s.mem.readNat key w)) false 2)
  (∀ p ∈ amoOps, ∀ (f : R3) (order : BitVec 2) (dbl : Bool) (s : State) (key : Nat) (cls : Option Cls),
    let w := if dbl then 8 else 4
    let lo := fun (r : BitVec 5) => (reg s r).toNat % 2 ^ (8 * w)
    fresh s = true → noD s (amoRegs (p.1 f order dbl) f) = true →
    letThrough s .atomic (order.getLsbD 1) (reg s f.ra) w key cls = true →
    exec (p.1 f order dbl) s = done s f order w key cls (p.2 w (s.mem.readNat key w) (lo f.rb) (lo f.rd))) ∧
  (∀ (f : R3) (order : BitVec 2) (s : State) (key : Nat) (cls : Option Cls),
    fresh s = true → noD s [f.ra, f.rb] = true → letThrough s .atomic (order.getLsbD 1) (reg s f.ra) 4 key cls = true →
    exec (.afadd f order) s = done s f order 4 key cls
      (some (fpAdd .rne (s.mem.readNat key 4) ((reg s f.rb).toNat % 2 ^ 32)).bits))

/-! ### Control registers -/

namespace Sys2Proof.Ob

/-- The CSR instructions with the value each writes from the old one and s[ra] (R313); CSRS and CSRC with ra = s0 only read. -/
def csrOps : List ((R2 → BitVec 11 → Instr) × (BitVec 5 → Bool) × (Word → Word → Word)) := [
  (.csrw, fun _ => true, fun _ a => a), (.csrs, fun ra => decide (ra ≠ 0), fun o a => o ||| a),
  (.csrc, fun ra => decide (ra ≠ 0), fun o a => o &&& ~~~a)]

/-- The CSR may be accessed in the mode of the strand (R99). -/
def csrAllowed (s : State) (csr : BitVec 11) : Bool := decide ((s.th s.me).pos.mode = .h) || !csrOnlyH csr.toNat

/-- No wait of R81 or R94 holds the access. -/
def csrFree (s : State) (csr : BitVec 11) : Bool :=
  (csrQueues (s.th s.me).q csr.toNat).isEmpty && (decide (csr ≠ 0x062) || !ringNames s s.me (fun _ _ => true))

/-- The CSRs whose written fields hold what was written and whose other bits read 0 (R3, Tables 4-5, 6-5, 13-2 and 10-4). -/
def plainCsrs : List (Nat × Word) := [
  (0x011, 0xF1F), (0x012, 0xFFFFFFFFFFFFFFFF), (0x013, 0xFFFFFFFFFFFFFFFF), (0x071, 0x1F), (0x080, 0xFF),
  (0x081, 0x01FFFFFFFFFFFFFF), (0x082, 0xFFFFFFFFFFFFFFFF), (0x084, 0x01FFFFFFFFFFFFFF), (0x0B0, 0xFFFFFFFF),
  (0x0B1, 0xFFFFFFFF), (0x0B2, 0xFFFFFFFF), (0x0B3, 0xFFFFFFFF), (0x0B4, 7), (0x0B5, 0xFFFFFFFF)]

/-- The CSRs of which some fields, or all, are read-only, each with the bits a write sets (Tables 4-1, 4-8, 6-5 and 13-2). -/
def mixedCsrs : List (Nat × Word) := [
  (0x001, 0), (0x020, 0xFFF), (0x030, 0), (0x031, 0), (0x032, 0), (0x033, 0), (0x034, 0), (0x035, 0), (0x040, 0), (0x041, 0),
  (0x042, 0), (0x050, 0), (0x061, 0), (0x070, 1), (0x083, 0xFFF20000000003FF), (0x091, 0), (0x092, 0), (0x0A0, 0), (0x0A1, 0)]

/-- What a write of one of the CSRs with a field that some values leave as it was makes of it (Tables 4-7, 9-4, 4-6, 8-2 and
13-3): `o` before, `n` after, `v` written. -/
def heldField (n : Nat) (h : Bool) (v o x : Word) : Prop :=
  if n = 0x010 then
    x.extractLsb' 0 4 = (if (v.extractLsb' 0 4).toNat ≤ 10 then v.extractLsb' 0 4 else o.extractLsb' 0 4) ∧
    x.extractLsb' 4 2 = v.extractLsb' 4 2 ∧
    x.extractLsb' 8 5 = (if (v.extractLsb' 8 5).toNat ≤ 23 then v.extractLsb' 8 5 else o.extractLsb' 8 5) ∧
    x.extractLsb' 16 5 = (if (v.extractLsb' 16 5).toNat ≤ 23 then v.extractLsb' 16 5 else o.extractLsb' 16 5) ∧
    x.extractLsb' 24 1 = v.extractLsb' 24 1
  else if n = 0x060 then
    ∀ b, b < 32 → x.extractLsb' (2 * b) 2 = (if v.extractLsb' (2 * b) 2 = 3#2 then o.extractLsb' (2 * b) 2 else v.extractLsb' (2 * b) 2)
  else if n = 0x062 then
    x.extractLsb' 0 10 = o.extractLsb' 0 10 ∧
    x.extractLsb' 32 2 = (if 256 * popN 2 (v.extractLsb' 32 2).toNat < (o.extractLsb' 0 10).toNat then o.extractLsb' 32 2
      else v.extractLsb' 32 2)
  else if n = 0x090 then
    x.extractLsb' 32 32 = v.extractLsb' 32 32 ∧
    x.extractLsb' 0 7 = (if 1 ≤ (v.extractLsb' 0 7).toNat ∧ (v.extractLsb' 0 7).toNat ≤ 64 then v.extractLsb' 0 7
      else o.extractLsb' 0 7)
  else x = (if h then (o &&& ~~~(3 <<< 56 : Word)) ||| (v &&& (3 <<< 56 : Word)) else o)

/-- Everything a precise trap of core c leaves alone: the registers, streams, control registers and queues of its strand, its
banks, ring and lease, every other core, and the rest of the package. -/
def TrapKeeps (s t : State) (c : Nat) : Prop :=
  SameOutside s t ∧ SameOthers s t c ∧ (t.th c).regs = (s.th c).regs ∧ (t.th c).strm = (s.th c).strm ∧
    (t.th c).csr = (s.th c).csr ∧ (t.th c).q = (s.th c).q ∧ (t.core c).banks = (s.core c).banks ∧
    (t.core c).ring = (s.core c).ring ∧ (t.core c).lease = (s.core c).lease ∧ (t.core c).bind = (s.core c).bind ∧
    (t.core c).power = (s.core c).power ∧ (t.core c).tvec = (s.core c).tvec ∧ (t.core c).ahead = (s.core c).ahead ∧
    (t.core c).loop = (s.core c).loop

/-- A trap of the moving strand is taken at once: in H mode nothing that it has begun, a store of VS or a command of its
ring, waits for the host (R61). -/
def trapsNow (s : State) : Bool := decide ((s.th s.me).pos.mode = .k) || !(s.core s.me).sending

end Sys2Proof.Ob

/-- R313: each CSR instruction writes the old value to rd, and the CSR takes its new value. -/
def Sys2Proof.Ob.csrResult : Prop :=
  (∀ (rd : BitVec 5) (csr : BitVec 11) (s : State) (old : Word), readCsr s s.me csr.toNat = some old → csrAllowed s csr = true →
    csrFree s csr = true → exec (.csrr rd csr) s = .next (wrote s rd old false 2)) ∧
  (∀ p ∈ csrOps, ∀ (f : R2) (csr : BitVec 11) (s : State) (old : Word), readCsr s s.me csr.toNat = some old →
    csrAllowed s csr = true → csrFree s csr = true → (p.2.1 f.ra = true → noD s [f.ra] = true) →
    exec (p.1 f csr) s = .next (wrote
      (if p.2.1 f.ra then writeCsr s s.me csr.toNat (p.2.2 old (reg s f.ra)) else s) f.rd old false 2))

/-- R3 and Tables 4-8 and 13-2, for every CSR: its writable fields read back what was written and its read-only fields what they
held (`heldField`: the CSRs with values a field does not take); no other CSR changes, but that a write of TPC sets TSTAT.MOVED
(R290); no byte of memory changes. -/
def Obligations.CsrReadBack : Prop :=
  (∀ p ∈ plainCsrs, ∀ (c : Nat) (s : State) (v : Word), readCsr (writeCsr s c p.1 v) c p.1 = some (v &&& p.2)) ∧
  (∀ p ∈ mixedCsrs, ∀ (c : Nat) (s : State) (v o : Word), readCsr s c p.1 = some o →
    readCsr (writeCsr s c p.1 v) c p.1 = some ((o &&& ~~~p.2) ||| (v &&& p.2))) ∧
  (∀ n ∈ ([0x010, 0x021, 0x060, 0x062, 0x090] : List Nat), ∀ (c : Nat) (s : State) (v o : Word), readCsr s c n = some o →
    ∃ x, readCsr (writeCsr s c n v) c n = some x ∧ heldField n ((s.th c).pos.mode == .h) v o x) ∧
  (∀ (n m c : Nat) (s : State) (v : Word), m ≠ n → ¬ (n = 0x081 ∧ m = 0x083) →
    readCsr (writeCsr s c n v) c m = readCsr s c m) ∧
  (∀ (c : Nat) (s : State) (v o : Word), readCsr s c 0x083 = some o →
    readCsr (writeCsr s c 0x081 v) c 0x083 = some (o ||| (1 <<< 52 : Word))) ∧
  (∀ (n c : Nat) (s : State) (v : Word), (writeCsr s c n v).mem = s.mem)

/-- R97: VMODE writes the fields its mask selects; an ET of 11-15 and a PG of 24-31 leave their field; rd takes the old value. -/
def Sys2Proof.Ob.vmodeResult : Prop :=
  ∀ (f : R2) (mask : BitVec 5) (s : State), noD s [f.ra] = true → ∃ t, exec (.vmode f mask) s = .next t ∧
    let old := (s.th s.me).csr.vmode
    let a := reg s f.ra
    let m := (t.th s.me).csr.vmode
    (t.th s.me).rdS f.rd = (if f.rd = 0 then {} else { val := old }) ∧
    m.extractLsb' 0 4 = (if mask.getLsbD 0 ∧ (a.extractLsb' 0 4).toNat ≤ 10 then a.extractLsb' 0 4 else old.extractLsb' 0 4) ∧
    m.extractLsb' 4 2 = (if mask.getLsbD 1 then a.extractLsb' 4 2 else old.extractLsb' 4 2) ∧
    m.extractLsb' 8 5 = (if mask.getLsbD 2 ∧ (a.extractLsb' 8 5).toNat ≤ 23 then a.extractLsb' 8 5 else old.extractLsb' 8 5) ∧
    m.extractLsb' 16 5 =
      (if mask.getLsbD 3 ∧ (a.extractLsb' 16 5).toNat ≤ 23 then a.extractLsb' 16 5 else old.extractLsb' 16 5) ∧
    m.extractLsb' 24 1 = (if mask.getLsbD 4 then a.extractLsb' 24 1 else old.extractLsb' 24 1)

/-- R313: each CSR instruction writes the old value to rd, and the CSR takes its new value. R97: VMODE writes the fields its
mask selects; an ET of 11-15 and a PG of 24-31 leave their field; rd takes the old value. -/
def Obligations.CsrAndVmodeResult : Prop :=
  Sys2Proof.Ob.csrResult ∧ Sys2Proof.Ob.vmodeResult


/-- R99: in K mode an access to a CSR marked H takes ILLEGAL with the encoding, in every form, and so does a number that is
none in either mode; the strand's registers are unchanged. -/
def Obligations.CsrPrivilege : Prop :=
  ∀ (i : Instr) (csr : BitVec 11) (w : BitVec 32) (s : State),
    (∃ rd, i = .csrr rd csr) ∨ (∃ f, i = .csrw f csr ∨ i = .csrs f csr ∨ i = .csrc f csr) → encodeTollum i = some w →
    ((s.th s.me).pos.mode = .k ∧ csrOnlyH csr.toNat = true) ∨ readCsr s s.me csr.toNat = none →
    exec i s = .next (takeTrap s s.me 0x01 (w.zeroExtend 64))

/-! ### Taking a trap and returning from one -/

/-- R290: a precise trap in K mode saves the position and the cause, enters H mode at TVEC, and changes nothing else. -/
def Sys2Proof.Ob.trapEntry : Prop :=
  ∀ (s : State) (c : Nat) (cause : BitVec 8) (tval : Word), (s.th c).pos.mode = .k →
    let t := takeTrap s c cause tval
    let p := (s.th c).pos
    (t.th c).trap.cause = cause ∧ (t.th c).trap.tval = tval ∧ (t.th c).trap.tpc = p.pc.truncate 57 ∧
    (t.th c).trap.moved = false ∧ (t.th c).trap.kind = 0 ∧ (t.th c).trap.routed = false ∧
    (t.th c).trap.boff = (if p.atHdr then 0#10 else ((p.pc - p.hdr) >>> 1).truncate 10) ∧
    (t.th c).trap.rptl = (if p.atHdr then 0 else p.rpt) ∧
    (t.th c).pos.mode = .h ∧ (t.th c).pos.pc = (s.core c).tvec.zeroExtend 64 ∧ (t.th c).pos.atHdr = true ∧ TrapKeeps s t c

/-- R292: a trap in H mode ends the strand, cancels its launch's scope, fixes the status FAULT and logs HTRAP; while a store of VS or a
command of its ring waits for the host, the strand stands at the trap until it is performed (R61; log entry 42). -/
def Sys2Proof.Ob.doubleTrap : Prop :=
  (∀ (s : State) (c : Nat) (cause : BitVec 8) (tval : Word), (s.th c).pos.mode = .h → (s.core c).sending = true →
    takeTrap s c cause tval = s) ∧
  ∀ (s : State) (c : Nat) (cause : BitVec 8) (tval : Word), (s.th c).pos.mode = .h → (s.core c).sending = false →
    let t := takeTrap s c cause tval
    let l := (s.th c).job.launch
    (t.th c).job.run = .idle ∧ ((t.th c).q.get .vl).held = [] ∧ ((t.th c).q.get .va).held = [] ∧ ((t.th c).q.get .vs).held = [] ∧
    (t.launch l).status = some 0x03 ∧
    (∃ r ∈ t.hg.reqs, r.scope = (s.launch l).pkt.scope.toNat ∧ r.by_ = .machine) ∧
    t.log = s.log ++ [{ name := "HTRAP", args := [c / 64, cause.toNat, (s.th c).pos.pc.toNat] }] ∧ t.mem = s.mem

/-- R290: a precise trap in K mode saves the position and the cause, enters H mode at TVEC, and changes nothing else. R292: a
trap in H mode ends the strand, cancels its launch's scope, fixes the status FAULT and logs HTRAP; while a store of VS or a
command of its ring waits for the host, the strand stands at the trap until it is performed (R61; log entry 42). -/
def Obligations.TrapTaking : Prop :=
  Sys2Proof.Ob.trapEntry ∧ Sys2Proof.Ob.doubleTrap


/-- R293: TRAP in K mode, with no queue and no ring fault pending, takes the trap 0x0E with TPC at the next instruction and
TVAL its number. -/
def Sys2Proof.Ob.trapInstruction : Prop :=
  ∀ (n : BitVec 8) (s : State), (s.th s.me).pos.mode = .k → (s.th s.me).q.haltedQ = none → (s.th s.me).q.ringFault = false →
    ∃ t, exec (.trap n) s = .next t ∧ (t.th s.me).trap.cause = 0x0E ∧ (t.th s.me).trap.tval = n.zeroExtend 64 ∧
      (t.th s.me).trap.tpc = ((s.th s.me).pos.pc + 4).truncate 57 ∧ (t.th s.me).pos.mode = .h ∧
      (t.th s.me).pos.pc = (s.core s.me).tvec.zeroExtend 64 ∧ TrapKeeps s t s.me

/-- R294: TRET in H mode of a trap of the strand returns to K mode at TPC, in the block TPC lies in unless MOVED (where TPC is
the parcel after a pass, at the next pass or at the next block, R85: the model's reading of a TRAP in the last place of a block,
log entry 50); with no fault recorded and no SUBN nothing else of the strand changes but QFSTAT.ACT. In K mode, and in a
dispatched handler, it is ILLEGAL. -/
def Sys2Proof.Ob.trapReturn : Prop :=
  (∀ s : State, (s.th s.me).pos.mode = .h → (s.th s.me).trap.kind ≠ 1 → (s.th s.me).q.faults = [] →
    (s.th s.me).trap.cause ≠ 0x08 → (s.th s.me).trap.routed = false → ∃ t, exec .tret s = .next t ∧
      let r := (s.th s.me).trap
      let p := (t.th s.me).pos
      let pc := r.tpc.zeroExtend 64
      let hdr := pc - 2 * r.boff.zeroExtend 64
      p.mode = .k ∧ (r.moved = true ∨ r.boff.toNat < 2 → p.pc = pc ∧ p.atHdr = true) ∧
      (r.moved = false → 2 ≤ r.boff.toNat → p.hdr = hdr ∧
        (r.boff ≠ r.tlen → p.pc = pc ∧ p.atHdr = false ∧ p.rpt = r.rptl) ∧
        (r.boff = r.tlen → r.rptl = 0 → p.pc = pc ∧ p.atHdr = true) ∧
        (r.boff = r.tlen → r.rptl ≠ 0 → p.pc = hdr + 4 ∧ p.atHdr = false ∧ p.rpt = r.rptl - 1)) ∧
      (t.th s.me).trap.act = 0 ∧ (t.th s.me).regs = (s.th s.me).regs ∧ (t.th s.me).csr = (s.th s.me).csr ∧
      (t.th s.me).strm = (s.th s.me).strm ∧ (t.th s.me).q = (s.th s.me).q ∧ SameOutside s t ∧ SameOthers s t s.me) ∧
  (∀ (s : State) (w : BitVec 32), ((s.th s.me).pos.mode = .k ∨ (s.th s.me).trap.kind = 1) → encodeTollum .tret = some w →
    exec .tret s = .next (takeTrap s s.me 0x01 (w.zeroExtend 64)))

/-- R293: TRAP in K mode, with no queue and no ring fault pending, takes the trap 0x0E with TPC at the next instruction and
TVAL its number. R294: TRET in H mode of a trap of the strand returns to K mode at TPC, in the block TPC lies in unless MOVED
(where TPC is the parcel after a pass, at the next pass or at the next block, R85: the model's reading of a TRAP in the last
place of a block, log entry 50); with no fault recorded and no SUBN nothing else of the strand changes but QFSTAT.ACT. In K
mode, and in a dispatched handler, it is ILLEGAL. -/
def Obligations.TrapAndReturnResult : Prop :=
  Sys2Proof.Ob.trapInstruction ∧ Sys2Proof.Ob.trapReturn


/-- R306, R92, R322 and R332: a scalar load or store whose base (for a store also whose data) has D set takes DFAULT; else a
misaligned address takes MISALIGN with the address; else what the checks find is taken with its address. LDS instead defers:
rd is 0 with D set. -/
def Obligations.AccessTraps : Prop :=
  (∀ p ∈ loadOps, ∀ (f : RI) (s : State), p.1 f ≠ .lds f → fresh s = true → trapsNow s = true →
    let a := reg s f.ra + f.imm.signExtend 64
    (regD s f.ra = true → exec (p.1 f) s = .next (takeTrap s s.me 0x07 (BitVec.ofNat 64 f.ra.toNat))) ∧
    (regD s f.ra = false → a.toNat % p.2.1 ≠ 0 → exec (p.1 f) s = .next (takeTrap s s.me 0x04 a)) ∧
    (∀ cause va, regD s f.ra = false → a.toNat % p.2.1 = 0 →
      checkAccess s (s.whoThread s.me) .read a p.2.1 = .fault cause va → exec (p.1 f) s = .next (takeTrap s s.me cause va))) ∧
  (∀ p ∈ storeOps, ∀ (f : RI) (s : State), fresh s = true → trapsNow s = true →
    let a := reg s f.ra + f.imm.signExtend 64
    (regD s f.rd = true → exec (p.1 f) s = .next (takeTrap s s.me 0x07 (BitVec.ofNat 64 f.rd.toNat))) ∧
    (regD s f.rd = false → regD s f.ra = true → exec (p.1 f) s = .next (takeTrap s s.me 0x07 (BitVec.ofNat 64 f.ra.toNat))) ∧
    (noD s [f.rd, f.ra] = true → a.toNat % p.2 ≠ 0 → exec (p.1 f) s = .next (takeTrap s s.me 0x04 a)) ∧
    (∀ cause va, noD s [f.rd, f.ra] = true → a.toNat % p.2 = 0 →
      checkAccess s (s.whoThread s.me) .write a p.2 = .fault cause va → exec (p.1 f) s = .next (takeTrap s s.me cause va))) ∧
  (∀ (f : RI) (s : State), fresh s = true →
    let a := reg s f.ra + f.imm.signExtend 64
    (regD s f.ra = true ∨ ((s.th s.me).rdS f.ra).ecc = true ∨ a.toNat % 8 ≠ 0 ∨ (∃ cause va, checkAccess s (s.whoThread s.me) .read a 8 = .fault cause va) ∨
      (∃ va, checkAccess s (s.whoThread s.me) .read a 8 = .absent va)) → exec (.lds f) s = .next (wrote s f.rd 0 true 2))

/-! ### Frames of the scalar accesses -/

/-- What a scalar store leaves: every register, and every byte of memory outside the bytes at the key that the access checks
find for the address; where they find none, every byte. -/
def Sys2Proof.Ob.storeFrame : Prop :=
  ∀ p ∈ storeOps, ∀ (f : RI) (s t : State), exec (p.1 f) s = .next t →
    let a := reg s f.ra + f.imm.signExtend 64
    (t.th s.me).regs = (s.th s.me).regs ∧ (t.th s.me).csr = (s.th s.me).csr ∧ (t.th s.me).strm = (s.th s.me).strm ∧
    SameOthers s t s.me ∧
    (∀ key cls, checkAccess s (s.whoThread s.me) .write a p.2 = .ok key cls → SameMemory s t key p.2) ∧
    ((∀ key cls, checkAccess s (s.whoThread s.me) .write a p.2 ≠ .ok key cls) → SameMemory s t 0 0)

/-- What a scalar load leaves: every byte of memory, every other core, and every register but rd. -/
def Sys2Proof.Ob.loadFrame : Prop :=
  ∀ p ∈ loadOps, ∀ (f : RI) (s t : State), exec (p.1 f) s = .next t →
    t.mem.bytes = s.mem.bytes ∧ SameOthers s t s.me ∧ (t.th s.me).csr = (s.th s.me).csr ∧ (t.th s.me).strm = (s.th s.me).strm ∧
    (t.th s.me).regs = { (s.th s.me).regs with s := (t.th s.me).regs.s } ∧
    ∀ r, r ≠ f.rd → (t.th s.me).rdS r = (s.th s.me).rdS r

/-- What an atomic leaves: every register but rd, every byte outside the word it acts on. -/
def Sys2Proof.Ob.amoFrame : Prop :=
  ∀ p ∈ amoOps, ∀ (f : R3) (order : BitVec 2) (dbl : Bool) (s t : State), exec (p.1 f order dbl) s = .next t →
    let w := if dbl then 8 else 4
    (t.th s.me).csr = (s.th s.me).csr ∧ (t.th s.me).strm = (s.th s.me).strm ∧ SameOthers s t s.me ∧
    (t.th s.me).regs = { (s.th s.me).regs with s := (t.th s.me).regs.s } ∧
    (∀ r, r ≠ f.rd → (t.th s.me).rdS r = (s.th s.me).rdS r) ∧
    (∀ key cls, checkAccess s (s.whoThread s.me) .atomic (reg s f.ra) w = .ok key cls → SameMemory s t key w) ∧
    ((∀ key cls, checkAccess s (s.whoThread s.me) .atomic (reg s f.ra) w ≠ .ok key cls) → t.mem.bytes = s.mem.bytes)

/-- What a scalar store leaves: every register, and every byte of memory outside the bytes at the key that the access checks
find for the address; where they find none, every byte. What a scalar load leaves: every byte of memory, every other core,
and every register but rd. What an atomic leaves: every register but rd, every byte outside the word it acts on. -/
def Obligations.MemoryFrame : Prop :=
  Sys2Proof.Ob.storeFrame ∧ Sys2Proof.Ob.loadFrame ∧ Sys2Proof.Ob.amoFrame


/-! ### Vector instructions -/

namespace Sys2Proof.Ob

/-- Queue v of core c moves, and its head e begins (R79, R82): not halted, parked or done, its strand not cancelled, no fill's
fault met, its pops there. -/
def begins (s : State) (c : Nat) (v : VQ) (e : QEntry) : Bool :=
  let q := (s.th c).q.get v
  decide (s.agent = .queue c v) && decide (q.held.head? = some e) && !q.halted && !e.done && (killedStrand s c).isNone &&
    decide (q.park = .run) && (fillFault s c v e).isNone && (e.popped || (s.th c).q.canPop v e.f.tok)

/-- No register that the head reads holds an uncorrectable error (R304). -/
def sound (i : Instr) (s : State) (e : QEntry) : Bool :=
  match vspec i with
  | some (t, _) => !eccHead t e s
  | none => true

/-- The arithmetic rows of VA: the result from the sources under the mode the entry carries, and its D bit (R92). -/
def vaRows : List ((V3 → Instr) × (ElMode → QEntry → Srcs → VAcc) × (QEntry → Srcs → Bool)) := [
  (.vadd, valBin .add, dBC), (.vsub, valBin .sub, dBC), (.vmul, valBin .mul, dBC), (.vmin, valBin .min, dBC),
  (.vmax, valBin .max, dBC), (.vand, valBin .and, dBC), (.vor, valBin .or, dBC), (.vxor, valBin .xor, dBC),
  (.vshl, valBin .shl, dBC), (.vshr, valBin .shr, dBC), (.vadds, valBinS .add, dBS), (.vmuls, valBinS .mul, dBS),
  (.vmad, valMad, dABC), (.vfma, valFma, dABC), (.vmadk, valMadC (fun e => e.k0.toNat), dAB),
  (.vmads, valMadC (fun e => e.sc.val.toNat), dABS), (.vfsh, valFsh, dABC), (.vsel, valSel, dSel), (.vcvt, valCvt, dCvt),
  (.vred, valRed, dB), (.vscan, valScan, dB), (.vperm, valPerm, dBC), (.vslide, valSlide, dB), (.vcbx, valCbx, dB),
  (.vqnt, valQnt, dQnt), (.vmov, valUn elMov, dB), (.vbcast, valBcast, dBcast), (.vins, valIns, dIns)]

/-- The rows whose operation is chosen by field C. -/
def vnRows : List ((V3 → Instr) × (Nat → ElMode → QEntry → Srcs → VAcc)) := [
  (.vsfu, fun n => valUn (elSfu n)), (.vun, fun n => valUn (elUn n)),
  (.vbits, fun n => valUn (fun m x => elBits n (8 * m.et.width) x))]

/-- The comparisons. -/
def cmpRows : List ((V3 → Instr) × ElCmp) := [(.vceq, .eq), (.vclt, .lt), (.vcle, .le)]

/-- Predicate logic. -/
def pRows : List ((V3 → Instr) × (PReg → PReg → PReg)) := [
  (.pand, fun a b => a &&& b), (.por, fun a b => a ||| b), (.pxor, fun a b => a ^^^ b), (.pnot, fun a _ => ~~~a)]

/-- Every vector instruction with the row of its fields and what its entry adds to routing. -/
def routeRows : List ((V3 → Instr) × VSpec × (V3 → State → RouteRule)) := [
  (.vadd, specVadd, fun _ => noGq4), (.vsub, specVsub, fun _ => noGq4), (.vmul, specVmul, fun _ => noGq4),
  (.vmad, specVmad, fun _ => noGq4), (.vfma, specVfma, fun _ => noGq4), (.vmadk, specVmadk, fun _ => noGq4),
  (.vmads, specVmads, fun _ => noGq4), (.vadds, specVadds, fun _ => noGq4), (.vmuls, specVmuls, fun _ => noGq4),
  (.vmin, specVmin, fun _ => noGq4), (.vmax, specVmax, fun _ => noGq4), (.vand, specVand, fun _ _ => {}),
  (.vor, specVor, fun _ _ => {}), (.vxor, specVxor, fun _ _ => {}), (.vshl, specVshl, fun _ => noGq4),
  (.vshr, specVshr, fun _ => noGq4), (.vfsh, specVfsh, fun _ => noGq4), (.vceq, specVceq, fun _ => noGq4),
  (.vclt, specVclt, fun _ => noGq4), (.vcle, specVcle, fun _ => noGq4), (.vsel, specVsel, fun _ _ => {}),
  (.vcvt, specVcvt, cvtRule), (.vred, specVred, redRule), (.vscan, specVscan, redRule), (.vperm, specVperm, fun _ => noGq4),
  (.vslide, specVslide, fun _ => noGq4), (.vsfu, specVsfu, fun _ s => { bad := !(etNow s).isFloat }),
  (.vbits, specVbits, fun _ => noGq4), (.vcbx, specVcbx, fun _ s => { bad := !(etNow s).isFloat }),
  (.vqnt, specVqnt, fun _ s => { bad := etNow s != .fp32 }), (.vmov, specVmov, fun _ _ => {}),
  (.vun, specVun, fun _ => noGq4)] ++ [
  (.vld, specVld, fun f _ => baseB f), (.vst, specVst, fun f _ => baseB f), (.vlds, specVlds, fun _ _ => { quiet := true }),
  (.vstm, specVstm, fun f _ => baseB f), (.vldx, specVldx, gatherRule), (.vstx, specVstx, gatherRule),
  (.vldc, specVldc, fun f => slotRule f.b f.c false), (.vstc, specVstc, fun f => slotRule f.b f.c true),
  (.cbadvRptr, specCbadvRptr, fun f => slotRule f.a f.b false), (.cbadvWptr, specCbadvWptr, fun f => slotRule f.a f.b true),
  (.spush, specSpush, fun _ => noGq4), (.spop, specSpop, fun _ => noGq4), (.sbal, specSbal, fun _ => noGq4),
  (.pset, specPset, fun _ _ => {}), (.pand, specPand, fun _ _ => {}), (.por, specPor, fun _ _ => {}),
  (.pxor, specPxor, fun _ _ => {}), (.pnot, specPnot, fun _ _ => {}), (.pcnt, specPcnt, fun _ _ => { scalar := true }),
  (.vbcast, specVbcast, fun _ => noGq4), (.vextr, specVextr, fun f s => { bad := etNow s == .gq4, reads := some f.b, scalar := true }),
  (.vins, specVins, fun _ => noGq4), (.vpark, specVpark, fun _ _ => { park := .push }),
  (.vunpark, specVunpark, fun _ _ => { park := .pop }), (.vldb, specVldb, vldbRule),
  (.vldst, specVldst, fun f => streamRule f false), (.vstst, specVstst, fun f => streamRule f true)]

/-- No earlier instruction of another queue is still to write the vector that VEXTR reads (R81). -/
def writersDone (s : State) (x : RouteRule) : Bool :=
  match x.reads with
  | none => true
  | some n => ((s.th s.me).q.holding (fun e => (match vspec e.ins with
      | some (t, _) => t.queue != .va
      | none => false) && e.writesV.contains (mapV (s.th s.me).csr.vb n).toNat)).isEmpty

/-- The strand routes here: it stands at the instruction, its queue is not faulted and has room, no scalar or constant it carries
holds an error (VLDS raises nothing for one, R175), no writer of what VEXTR reads is held, and the park stack has what the instruction asks
for (R78, R79, R81, R95). -/
def routes (s : State) (i : Instr) (spec : VSpec) (f : V3) (x : RouteRule) : Bool :=
  let c := s.me
  let t := s.th c
  let b := (s.core c).banks
  decide (s.agent = .strand c) && decide (t.job.wait = .none) && !x.bad && !t.q.faulted spec.queue &&
    (x.quiet || !((spec.b == .s && (t.rdS (f.b.truncate 5)).ecc) || (spec.c == .s && (t.rdS (f.c.truncate 5)).ecc) ||
      (bankReads i f).any (fun n => t.marks.contains (3, n)))) &&
    noD s x.base && writersDone s x &&
    (decide (x.park ≠ .push) || decide (b.depth.toNat < 256 * popN 2 b.ptiles.toNat)) &&
    (decide (x.park ≠ .pop) || decide (b.depth ≠ 0)) && decide ((t.q.get spec.queue).held.length < slipDepth t.csr spec.queue)

/-- The checks of the pieces of queue v's access find these places, a load waits on no load-block that is filling (R209) and reads
none with an uncorrectable error (R304), local order holds no piece back (R251), and none is HOST-U. -/
def placed (s : State) (c : Nat) (v : VQ) (e : QEntry) (k : AccKind) (ps : List (Word × Nat)) (ks : Places) : Bool :=
  decide (checkPieces s (s.whoThread c) k ps = .ok ks) &&
    (decide (v ≠ .vl) || !(s.core c).banks.blocks.any (fun b =>
      (!b.full || (b.ecc && k.meets)) && ps.any (fun p => !inWindow p.1.toNat && b.covers p.1 p.2))) &&
    !ps.any (fun p => heldBack s c e.seq p.1 p.2) && (hostPieces ps ks).isEmpty

/-- The state in which queue v's writes are made: no request of it is out, and each die they leave for has the causal stamp
(R253; log entry 56). -/
def writesOut (s : State) (c : Nat) (v : VQ) (ps : List (Word × Nat)) (ks : Places) : State :=
  sendStamps (setHost s c v .idle) c ps ks

/-- The place of byte j of a masked store at a: in the piece that holds its address (R351). -/
def maskPlace (a : Word) (ps : List (Word × Nat)) (ks : Places) (j : Nat) : Nat × Option Cls :=
  let b := (a.toNat + j) % 2 ^ 64
  match (ps.zip ks).find? (fun q => decide (q.1.1.toNat ≤ b) && decide (b < q.1.1.toNat + q.1.2)) with
  | some q => (q.2.1 + (b - q.1.1.toNat), q.2.2)
  | none => (0, none)

/-- The share of participant i of p: every p-th chunk of 256 bytes of a sequence from the i-th on (R162). -/
def dealTo (p i : Nat) (all : List Byte) : List Byte :=
  ((List.range ((all.length + 255) / 256)).filter (fun j => j % p == i)).flatMap (fun j => (all.drop (256 * j)).take 256)

/-- The head completes with its effect in a state. -/
def completes (o : Out) (c : Nat) (v : VQ) (e : QEntry) (t : State) : Prop := o = .next (completeHead t c v e)

/-- The instructions a frame of VA covers: those with a vector destination, and those with a predicate destination. -/
def vecCtors : List (V3 → Instr) := vaRows.map (·.1) ++ vnRows.map (·.1)
def predCtors : List (V3 → Instr) := cmpRows.map (·.1) ++ pRows.map (·.1) ++ [.pset]

end Sys2Proof.Ob

/-- R78 and R79: a vector instruction that routes joins its queue at the tail, and the control core goes on (or, for VEXTR and
PCNT, waits for the value, R110). -/
def Sys2Proof.Ob.vectorRouting : Prop :=
  ∀ p ∈ routeRows, ∀ (f : V3) (s : State), routes s (p.1 f) p.2.1 f (p.2.2 f s) = true →
    exec (p.1 f) s = .next (routed s s.me (p.1 f) p.2.1 f (p.2.2 f s))

/-- R78, R79, R95 and R110: what routing does: one more entry at the tail of one queue, with what the instruction carries; the
other queues, memory, the registers and the other cores stay; the position goes on unless the control core waits; DEPTH
counts at routing. -/
def Sys2Proof.Ob.vectorRoutingEffect : Prop :=
  ∀ (s : State) (c : Nat) (i : Instr) (spec : VSpec) (f : V3) (x : RouteRule),
    let t := routed s c i spec f x
    let th := s.th c
    (∃ e, ((t.th c).q.get spec.queue).held = (th.q.get spec.queue).held ++ [e] ∧ e.ins = i ∧ e.f = f ∧
      e.vmode = th.csr.vmode ∧ e.ftz = th.csr.ftz ∧ e.seq = th.q.seq ∧ e.idx = (th.q.get spec.queue).routed ∧
      e.sb = th.rdS (f.b.truncate 5) ∧ e.sc = th.rdS (f.c.truncate 5) ∧ e.popped = false ∧ e.done = false ∧ e.kept = none) ∧
    (∀ v, v ≠ spec.queue → (t.th c).q.get v = th.q.get v) ∧ (t.th c).q.seq = th.q.seq + 1 ∧
    (t.th c).regs = th.regs ∧ (t.th c).csr = th.csr ∧ (t.th c).strm = th.strm ∧
    (t.th c).pos = (if x.scalar then th.pos else th.pos.advance i.parcels) ∧
    (t.core c).banks.depth = (match x.park with
      | .none => (s.core c).banks.depth
      | .push => (s.core c).banks.depth + 1
      | .pop => (s.core c).banks.depth - 1) ∧
    SameOutside s t ∧ SameOthers s t c

/-- R78 and R79: a vector instruction that routes joins its queue at the tail, and the control core goes on (or, for VEXTR
and PCNT, waits for the value, R110). R78, R79, R95 and R110: what routing does: one more entry at the tail of one queue,
with what the instruction carries; the other queues, memory, the registers and the other cores stay; the position goes on
unless the control core waits; DEPTH counts at routing. -/
def Obligations.VectorRoutingResult : Prop :=
  Sys2Proof.Ob.vectorRouting ∧ Sys2Proof.Ob.vectorRoutingEffect


/-- R334 and its groups: the head of VA writes its result to its destination and to lr, and merges its flags (R88, R133),
unless an active element is tiny in FP32 and not flushed: then VA waits for the assist with the sources it read (R135). -/
def Obligations.VectorResult : Prop :=
  let done := fun (s : State) (c : Nat) (e : QEntry) (r : VAcc) (d : Bool) (o : Out) =>
    (r.tiny = none → o = .next (completeHead (finishVA s c e r.val d r.flags) c .va e)) ∧
    (∀ low, r.tiny = some low → o = .next (subnHead s c .va e low (srcsOf s c e)))
  (∀ p ∈ vaRows, ∀ (f : V3) (s : State) (c : Nat) (e : QEntry), begins s c .va e = true → sound (p.1 f) s e = true →
    done s c e (p.2.1 e.mode e (srcsOf s c e)) (p.2.2 e (srcsOf s c e)) (exec (p.1 f) s)) ∧
  (∀ p ∈ vnRows, ∀ (f : V3) (s : State) (c : Nat) (e : QEntry), e.f = f → begins s c .va e = true →
    sound (p.1 f) s e = true →
    done s c e (p.2 f.c.toNat e.mode e (srcsOf s c e)) (dB e (srcsOf s c e)) (exec (p.1 f) s))

/-- R91, R335 and R347: VAND, VOR, VXOR and VMOV act element by element at the width of the carried ET; VADD and VSUB of an
integer ET without SAT wrap; an element that is not active keeps the old destination. -/
def Obligations.VectorElements : Prop :=
  ∀ (m : ElMode) (e : QEntry) (x : Srcs) (i : Nat), m.et ≠ .gq4 → i < elemCount m.et.width →
    let w := m.et.width
    let el := fun (v : VCell) => elemOf v.val.toNat w i
    let keep := fun (r : VAcc) (new : Nat) => elemOf r.val w i = if activeAt e x.g w i then new else el x.a
    keep (valBin .and m e x) (el x.b &&& el x.c) ∧ keep (valBin .or m e x) (el x.b ||| el x.c) ∧
    keep (valBin .xor m e x) (el x.b ^^^ el x.c) ∧ keep (valUn elMov m e x) (el x.b) ∧
    (m.et.isFloat = false → m.sat = false →
      keep (valBin .add m e x) ((el x.b + el x.c) % 2 ^ (8 * w)) ∧
      keep (valBin .sub m e x) ((el x.b + 2 ^ (8 * w) - el x.c) % 2 ^ (8 * w)))

/-- R338, R328 and R330: comparisons and predicate logic write the bits of their predicate; lr is unchanged (R88). -/
def Sys2Proof.Ob.predicateResult : Prop :=
  (∀ p ∈ cmpRows, ∀ (f : V3) (s : State) (c : Nat) (e : QEntry), begins s c .va e = true → sound (p.1 f) s e = true →
    let x := srcsOf s c e
    let old := (s.th c).regs.rdP (e.pa.truncate 5)
    let w := e.et.width
    let r := buildPred w old.val.toNat (activeAt e x.g w)
      (fun i => elCmp p.2 e.mode (elemOf x.b.val.toNat w i) (elemOf x.c.val.toNat w i)) (elemCount w) 0 (0, false)
    completes (exec (p.1 f) s) c .va e
      (finishP s c e.pa r.1 (x.b.d || x.c.d || (e.f.ps != 0 && (x.g.d || old.d))) { nv := r.2 })) ∧
  (∀ p ∈ pRows, ∀ (f : V3) (s : State) (c : Nat) (e : QEntry), begins s c .va e = true → sound (p.1 f) s e = true →
    let a := (s.th c).regs.rdP (e.pb.truncate 5)
    let b := (s.th c).regs.rdP (e.pc.truncate 5)
    ∃ d, completes (exec (p.1 f) s) c .va e (finishP s c e.pa (p.2 a.val b.val).toNat d {})) ∧
  (∀ (f : V3) (s : State) (c : Nat) (e : QEntry), begins s c .va e = true → sound (.pset f) s e = true →
    completes (exec (.pset f) s) c .va e
      (finishP s c e.pa (2 ^ Nat.min (2 ^ e.f.b.toNat * e.sc.val.toNat) 256 - 1) e.sc.d {}))

/-- R329, R341 and R110: PCNT and VEXTR give their value to the wait of the control core, which then writes rd and goes on. -/
def Sys2Proof.Ob.scalarFromVector : Prop :=
  (∀ (f : V3) (s : State) (c : Nat) (e : QEntry), begins s c .va e = true → sound (.pcnt f) s e = true →
    let a := (s.th c).regs.rdP (e.pb.truncate 5)
    completes (exec (.pcnt f) s) c .va e (finishS s c e (BitVec.ofNat 64 (popN 256 a.val.toNat)) a.d)) ∧
  (∀ (f : V3) (s : State) (c : Nat) (e : QEntry), begins s c .va e = true → sound (.vextr f) s e = true →
    let w := e.et.width
    let y := BitVec.ofNat (8 * w) (elemOf (srcsOf s c e).b.val.toNat w e.sc.val.toNat)
    ∃ d, completes (exec (.vextr f) s) c .va e (finishS s c e
      (if elemCount w ≤ e.sc.val.toNat then 0 else if e.et.isSigned then y.signExtend 64 else y.zeroExtend 64) d)) ∧
  (∀ (f : V3) (s : State) (w : VWait) (x : SReg), s.agent = .strand s.me → (s.th s.me).job.wait = .vwait w → w.value = some x →
    let t := { s.th s.me with job := { (s.th s.me).job with wait := .none } }
    exec (.pcnt f) s = .next (s.setTh s.me ((t.wrS w.rd x.val x.d).advance (Instr.pcnt f).parcels)) ∧
    exec (.vextr f) s = .next (s.setTh s.me ((t.wrS w.rd x.val x.d).advance (Instr.vextr f).parcels)))

/-- R338, R328 and R330: comparisons and predicate logic write the bits of their predicate; lr is unchanged (R88). R329, R341
and R110: PCNT and VEXTR give their value to the wait of the control core, which then writes rd and goes on. -/
def Obligations.PredicateAndScalarResult : Prop :=
  Sys2Proof.Ob.predicateResult ∧ Sys2Proof.Ob.scalarFromVector


/-- R95: VPARK writes its 256 bytes and its D bit to its slot, in the tiles of the core's array; VUNPARK writes the slot to its
destination. -/
def Sys2Proof.Ob.parkResult : Prop :=
  (∀ (f : V3) (s : State) (c : Nat) (e : QEntry), begins s c .va e = true → sound (.vpark f) s e = true →
    ∃ t, exec (.vpark f) s = .next (completeHead t c .va e) ∧ t.mem.bytes = s.mem.bytes ∧ t.th c = s.th c ∧
      (t.array (arrayOf c)).tiles = parkWords (s.core c).banks.ptiles (quadPos c) e.slot 64 0
        (srcsOf s c e).b.val.toNat (s.array (arrayOf c)).tiles ∧
      (e.slot < 512 → (t.core c).banks.parkD.getLsbD e.slot = (srcsOf s c e).b.d)) ∧
  (∀ (f : V3) (s : State) (c : Nat) (e : QEntry), begins s c .va e = true → sound (.vunpark f) s e = true →
    slotBad s c e.slot = false → completes (exec (.vunpark f) s) c .va e (finishVA s c e
      (unparkWords (s.core c).banks.ptiles (quadPos c) e.slot (s.array (arrayOf c)).tiles 64 0)
      ((s.core c).banks.parkD.getLsbD e.slot) {}))

/-- R95: what a slot was given is what it gives back, and no other slot of the core changes. -/
def Sys2Proof.Ob.parkRoundTrip : Prop :=
  ∀ (ptiles : BitVec 2) (q j v : Nat) (m : SMap (BitVec 32)), j < 256 * popN 2 ptiles.toNat →
    unparkWords ptiles q j (parkWords ptiles q j 64 0 v m) 64 0 = v % 2 ^ 2048 ∧
    ∀ k, k < 256 * popN 2 ptiles.toNat → k ≠ j →
      unparkWords ptiles q k (parkWords ptiles q j 64 0 v m) 64 0 = unparkWords ptiles q k m 64 0

/-- R95: VPARK writes its 256 bytes and its D bit to its slot, in the tiles of the core's array; VUNPARK writes the slot to
its destination. R95: what a slot was given is what it gives back, and no other slot of the core changes. -/
def Obligations.ParkSlots : Prop :=
  Sys2Proof.Ob.parkResult ∧ Sys2Proof.Ob.parkRoundTrip


/-- R344, R175, R346, R173 and R345: a vector load whose pieces are let through writes what they hold to its destination's
active elements with D clear, and lr is unchanged; VLDS defers a fault, a page not present, a D bit on its base and an
uncorrectable error: zeros with D set; VLDST also moves the position. -/
def Obligations.VectorLoadResult : Prop :=
  (∀ (f : V3) (s : State) (c : Nat) (e : QEntry) (key : Nat) (cls : Option Cls), begins s c .vl e = true →
    sound (.vld f) s e = true → (vldAddr e).toNat % 256 = 0 →
    placed s c .vl e .part [(vldAddr e, 256)] [(key, cls)] = true → activeBad s e (srcsOf s c e) (vldAddr e) key = false →
    let t := setHost s c .vl .idle
    completes (exec (.vld f) s) c .vl e
      (finishVL t c e (loadedVec e (srcsOf s c e) (loadPiece t c (vldAddr e, 256) (key, cls))) false {}) ∧
    (e.sb.d = false → e.sb.ecc = false → sound (.vlds f) s e = true → completes (exec (.vlds f) s) c .vl e
      (finishVL t c e (loadedVec e (srcsOf s c e) (loadPiece t c (vldAddr e, 256) (key, cls))) false {}))) ∧
  (∀ (f : V3) (s : State) (c : Nat) (e : QEntry), begins s c .vl e = true → e.ecc = false →
    (e.sb.d = true ∨ e.sb.ecc = true ∨ sound (.vlds f) s e = false ∨ (vldAddr e).toNat % 256 ≠ 0 ∨
      (∃ cause va, checkAccess s (s.whoThread c) .part (vldAddr e) 256 = .fault cause va) ∨
      (∃ va, checkAccess s (s.whoThread c) .part (vldAddr e) 256 = .absent va) ∨
      (∃ key cls, placed s c .vl e .part [(vldAddr e, 256)] [(key, cls)] = true ∧
        activeBad s e (srcsOf s c e) (vldAddr e) key = true)) →
    completes (exec (.vlds f) s) c .vl e (finishVL (setHost s c .vl .idle) c e (loadedVec e (srcsOf s c e) 0) true {})) ∧
  (∀ (f : V3) (s : State) (c : Nat) (e : QEntry) (ks : Places), begins s c .vl e = true → sound (.vldx f) s e = true →
    let x := srcsOf s c e
    let w := e.et.width
    x.c.d = false → e.sb.val.toNat % w = 0 →
    placed s c .vl e .read ((activeList e x).map (fun i => (elAddr e x i, w))) ks = true →
    let t := setHost s c .vl .idle
    completes (exec (.vldx f) s) c .vl e (finishVL t c e (mapEl w x.a.val.toNat (activeAt e x.g w)
      (fun i => { bits := loadPiece t c (elAddr e x i, w) (placeOf (activeList e x) ks i) })).val false {})) ∧
  (∀ (f : V3) (s : State) (c : Nat) (e : QEntry), begins s c .vl e = true → sound (.vldc f) s e = true →
    let b := (s.th c).strm.cbAt e.f.b.toNat
    let key := slotKey c b b.rd (e.f.c.toNat - 1)
    (s.th c).strm.slotsReady e = true → heldBack s c e.seq (slotAddr key) 256 = false →
    activeBad s e (srcsOf s c e) (slotAddr key) key = false → completes (exec (.vldc f) s) c .vl e
      (finishVL s c e (loadedVec e (srcsOf s c e) (s.mem.readNat key 256)) false {})) ∧
  (∀ (f : V3) (s : State) (c : Nat) (e : QEntry) (ks : Places), begins s c .vl e = true → sound (.vldst f) s e = true →
    let x := srcsOf s c e
    let st := (s.th c).strm.stAt e.f.b.toNat
    let w := e.et.width
    let is := insideList e x st
    let ps := is.flatMap (fun i => st.pieces st.posr.toNat (st.posc.toNat + i))
    let u := setHost s c .vl .idle
    let r := mapEl w x.a.val.toNat (activeAt e x.g w) (fun i => if is.contains i then
      streamIn st e.mode st.posr.toNat (st.posc.toNat + i) (pieceVals u c (if st.et = .gq4 then 6 else 1) is ps ks i)
      else { bits := 0 })
    layerSpan st st.posr.toNat (is.map (fun i => st.posc.toNat + i)) = none → placed s c .vl e .read ps ks = true →
    completes (exec (.vldst f) s) c .vl e
      (let t := finishVL u c e r.val false r.flags
       t.setTh c { t.th c with strm := (t.th c).strm.setSt e.f.b.toNat (st.step (elemCount w)) }))

/-- R344, R346, R351, R174 and R345: a vector store whose pieces are let through writes its active elements, or the bytes its
mask names, in index order; VSTST also moves the position; a source with D set halts the queue with DFAULT (R92). -/
def Obligations.VectorStoreResult : Prop :=
  (∀ (f : V3) (s : State) (c : Nat) (e : QEntry) (key : Nat) (cls : Option Cls), begins s c .vs e = true →
    sound (.vst f) s e = true →
    let x := srcsOf s c e
    let w := e.et.width
    let a := vldAddr e
    x.a.d = false → a.toNat % 256 = 0 → placed s c .vs e .write [(a, 256)] [(key, cls)] = true →
    completes (exec (.vst f) s) c .vs e (storeEls c w x.a.val.toNat (activeAt e x.g w)
      (fun i => a + BitVec.ofNat 64 (w * i)) (fun i => (key + w * i, cls)) (elemCount w) 0
      (writesOut s c .vs [(a, 256)] [(key, cls)]))) ∧
  (∀ (f : V3) (s : State) (c : Nat) (e : QEntry) (ks : Places), begins s c .vs e = true → sound (.vstx f) s e = true →
    let x := srcsOf s c e
    let w := e.et.width
    x.a.d = false → x.c.d = false → e.sb.val.toNat % w = 0 →
    let ps := (activeList e x).map (fun i => (elAddr e x i, w))
    placed s c .vs e .write ps ks = true →
    completes (exec (.vstx f) s) c .vs e (storeEls c w x.a.val.toNat (activeAt e x.g w) (elAddr e x)
      (placeOf (activeList e x) ks) (elemCount w) 0 (writesOut s c .vs ps ks))) ∧
  (∀ (f : V3) (s : State) (c : Nat) (e : QEntry), begins s c .vs e = true → sound (.vstc f) s e = true →
    let x := srcsOf s c e
    let w := e.et.width
    let b := (s.th c).strm.cbAt e.f.b.toNat
    let key := slotKey c b b.wr (e.f.c.toNat - 1)
    (s.th c).strm.slotsReady e = true → x.a.d = false → heldBack s c e.seq (slotAddr key) 256 = false →
    completes (exec (.vstc f) s) c .vs e (storeEls c w x.a.val.toNat (activeAt e x.g w)
      (fun i => BitVec.ofNat 64 (windowBase + w * i)) (fun i => (key + w * i, none)) (elemCount w) 0 s)) ∧
  (∀ (f : V3) (s : State) (c : Nat) (e : QEntry) (ks : Places), begins s c .vs e = true → sound (.vstm f) s e = true →
    let x := srcsOf s c e
    let p := x.m
    x.a.d = false → p.d = false →
    (p.val = 0 → completes (exec (.vstm f) s) c .vs e s) ∧
    (∀ jl jh, lowSet p.val 256 0 = some jl → highSet p.val 256 = some jh →
      let a := e.sb.val
      let lo := a + BitVec.ofNat 64 jl
      let hi := a + BitVec.ofNat 64 jh
      let ps := if inWindow lo.toNat || inWindow hi.toNat then [(lo, jh + 1 - jl)]
        else pagePiece p.val a.toNat (lo.toNat / 4096) ++
          (if lo.toNat / 4096 = hi.toNat / 4096 then [] else pagePiece p.val a.toNat (hi.toNat / 4096))
      lo.toNat < 2 ^ 57 → hi.toNat < 2 ^ 57 → placed s c .vs e .write ps ks = true →
      completes (exec (.vstm f) s) c .vs e (storeMask c a x.a.val.toNat p.val (maskPlace a ps ks) 256 0
        (writesOut s c .vs ps ks)))) ∧
  (∀ (f : V3) (s : State) (c : Nat) (e : QEntry) (ks : Places), begins s c .vs e = true → sound (.vstst f) s e = true →
    let x := srcsOf s c e
    let st := (s.th c).strm.stAt e.f.b.toNat
    let w := e.et.width
    let is := insideList e x st
    let conv := fun i => convertEl e.et st.et (vmRm e.vmode) (vmSat e.vmode) (elemOf x.a.val.toNat w i)
    let ps := is.flatMap (fun i => st.pieces st.posr.toNat (st.posc.toNat + i))
    x.a.d = false → layerSpan st st.posr.toNat (is.map (fun i => st.posc.toNat + i)) = none →
    placed s c .vs e .write ps ks = true →
    completes (exec (.vstst f) s) c .vs e
      (let t := storeStream c st (fun i => (conv i).bits) is ks is (writesOut s c .vs ps ks)
       t.setTh c { t.th c with csr := (t.th c).csr.merge (flagsOf conv is),
                               strm := (t.th c).strm.setSt e.f.b.toNat (st.step (elemCount w)) })) ∧
  (∀ p ∈ ([.vst, .vstm, .vstx, .vstst] : List (V3 → Instr)), ∀ (f : V3) (s : State) (c : Nat) (e : QEntry),
    begins s c .vs e = true → sound (p f) s e = true → (srcsOf s c e).a.d = true →
    exec (p f) s = .next (haltQueue (keepSrcs s c .vs e) c .vs 0x07 (BitVec.ofNat 64 (64 + e.f.a.toNat))))

/-- R167, R159, R160, R162 and R209: CBADV moves a pointer and its counts; SPUSH appends the active elements, SPOP takes the
oldest and writes the predicate of what it took; SBAL of a strand alone in its quad only counts; with partners, all at their
matching SBAL, their buffers are joined in quad order and dealt out in chunks of 256 bytes, and all complete together; VLDB makes
a load-block. R162 speaks of whole records: that bytes which make none go with the last chunk is the model's choice (log entry
66). -/
def Obligations.StreamQueueResult : Prop :=
  (∀ (f : V3) (s : State) (c : Nat) (e : QEntry) (v : VQ), begins s c v e = true → (s.th c).strm.slotsReady e = true →
    let n := e.f.a.toNat
    let b := (s.th c).strm.cbAt n
    let k := e.f.b.zeroExtend 16
    let put := fun (b : CBuf) => s.setTh c { s.th c with strm := (s.th c).strm.setCb n b }
    (sound (.cbadvRptr f) s e = true → completes (exec (.cbadvRptr f) s) c v e (put { b with
      rd := BitVec.ofNat 16 ((b.rd.toNat + k.toNat) % b.count.toNat), filled := b.filled - k, free := b.free + k })) ∧
    (sound (.cbadvWptr f) s e = true → completes (exec (.cbadvWptr f) s) c v e (put { b with
      wr := BitVec.ofNat 16 ((b.wr.toNat + k.toNat) % b.count.toNat), free := b.free - k, filled := b.filled + k }))) ∧
  (∀ (f : V3) (s : State) (c : Nat) (e : QEntry), begins s c .vs e = true → sound (.spush f) s e = true →
    let x := srcsOf s c e
    let w := e.et.width
    let old := (s.th c).strm.cqAt e.f.a.toNat
    let new := (activeList e x).flatMap (fun i => leBytes w (elemOf x.b.val.toNat w i))
    x.b.d = false → old.length + new.length ≤ 1024 → completes (exec (.spush f) s) c .vs e
      (s.setTh c { s.th c with strm := (s.th c).strm.setCq e.f.a.toNat (old ++ new) })) ∧
  (∀ (f : V3) (s : State) (c : Nat) (e : QEntry), begins s c .vl e = true → sound (.spop f) s e = true →
    let w := e.et.width
    let old := (s.th c).strm.cqAt e.f.b.toNat
    let n := Nat.min (elemCount w) (old.length / w) * w
    completes (exec (.spop f) s) c .vl e (s.setTh c { s.th c with
      regs := ((s.th c).regs.wrV e.pa { val := BitVec.ofNat 2048 (leNat (old.take n)) }).wrP (e.pc.truncate 5)
        { val := BitVec.ofNat 256 (2 ^ n - 1) },
      strm := (s.th c).strm.setCq e.f.b.toNat (old.drop n) })) ∧
  (∀ (f : V3) (s : State) (c : Nat) (e : QEntry), begins s c .va e = true → sound (.sbal f) s e = true → e.ins = .sbal f →
    e.f = f → sbalCores s c = [c] →
    let k := (s.th c).strm.sbals.toList.getD f.a.toNat 0
    completes (exec (.sbal f) s) c .va e (s.setTh c { s.th c with
      strm := { (s.th c).strm with sbals := (s.th c).strm.sbals.setIfInBounds f.a.toNat (k + 1) } })) ∧
  (∀ (f : V3) (s : State) (c : Nat) (e : QEntry), begins s c .va e = true → sound (.sbal f) s e = true → e.ins = .sbal f →
    e.f = f → f.a.toNat < 8 →
    let n := f.a.toNat
    let k := (s.th c).strm.sbals.toList.getD n 0
    let ps := sbalCores s c
    let all := ps.flatMap (fun p => (s.th p).strm.cqAt n)
    c ∈ ps → 1 < ps.length → (∀ p ∈ ps, (sbalHead s n k p).isSome = true ∧ ((s.th p).strm.cqAt n).length ≤ 1024) →
    ∃ t, exec (.sbal f) s = .next (completeHead t c .va e) ∧ t.mem = s.mem ∧
      ∀ i p, ps[i]? = some p → (t.th p).strm.cqAt n = dealTo ps.length i all ∧
        (t.th p).strm.sbals.toList.getD n 0 = k + 1 ∧ (t.th p).regs = (s.th p).regs ∧
        (p ≠ c → ∀ x, sbalHead s n k p = some x → (t.th p).q = ((completeHead s p .va x).th p).q)) ∧
  (∀ (f : V3) (s : State) (c : Nat) (e : QEntry) (v : VQ), begins s c v e = true → sound (.vldb f) s e = true →
    let a := e.sb.val
    let n := e.f.c.toNat + 1
    a.toNat % 128 = 0 → a.toNat + 128 * n ≤ windowBase → a.toNat / 2 ^ 30 = (a.toNat + 128 * n - 1) / 2 ^ 30 →
    ∃ t kept, exec (.vldb f) s = .next (completeHead t c v e) ∧ t.mem = s.mem ∧ t.th c = s.th c ∧
      (t.core c).banks.blocks = kept ++ [{ va := a, lines := n, sem := e.f.a.truncate 5 }] ∧
      kept <:+ (s.core c).banks.blocks)

/-- The frame of VA (R88, R91), by kind of destination: a move of VA whose head has a vector destination changes no vector
register but the destination and lr, and no predicate; one whose head has a predicate destination changes no vector register, lr
included, and no predicate but the destination. Neither changes memory, another core, a scalar register, a stream, another queue,
the position, a trap register, or a control register but FSTAT. -/
def Obligations.VectorFrame : Prop :=
  let rest := fun (s t : State) (c : Nat) =>
    SameOutside s t ∧ SameOthers s t c ∧ (t.th c).regs.s = (s.th c).regs.s ∧ (t.th c).regs.k = (s.th c).regs.k ∧
    (t.th c).strm = (s.th c).strm ∧ (t.th c).csr = { (s.th c).csr with fstat := (t.th c).csr.fstat } ∧
    (t.th c).trap = (s.th c).trap ∧ (t.th c).q.vl = (s.th c).q.vl ∧ (t.th c).q.vs = (s.th c).q.vs ∧ (t.th c).pos = (s.th c).pos
  (∀ p ∈ vecCtors, ∀ (f : V3) (s t : State) (c : Nat) (e : QEntry), s.agent = .queue c .va →
    ((s.th c).q.va.held).head? = some e → e.f = f → exec (p f) s = .next t → rest s t c ∧
    (∀ n, n ≠ e.pa → n ≠ 56 → ∀ lit, (t.th c).regs.rdV n lit = (s.th c).regs.rdV n lit) ∧
    ∀ n, (t.th c).regs.rdP n = (s.th c).regs.rdP n) ∧
  (∀ p ∈ predCtors, ∀ (f : V3) (s t : State) (c : Nat) (e : QEntry), s.agent = .queue c .va →
    ((s.th c).q.va.held).head? = some e → e.f = f → exec (p f) s = .next t → rest s t c ∧
    (∀ n lit, (t.th c).regs.rdV n lit = (s.th c).regs.rdV n lit) ∧
    ∀ n, n ≠ e.pa.truncate 5 → (t.th c).regs.rdP n = (s.th c).regs.rdP n)

/-- R295, R289, R92, R226 and R273: a queue whose head faults halts; the cause, the instruction's number and the address are
recorded, the instruction is kept at the head with the sources it read, and its results are not written. The causes: an
uncorrectable error in what it reads; MISALIGN and a refused address of a load or store; an uncorrectable error in an active
element; D set in a stored vector; a page that the host refuses, or a request that ends in an error; a full conditional stream; a
load-block at a misaligned address or across layers; a stream's elements across layers; a park slot with an error. -/
def Obligations.QueueFaultHalts : Prop :=
  let halts := fun (s : State) (c : Nat) (v : VQ) (e : QEntry) (cause : BitVec 8) (addr : Word) (o : Out) =>
    ∃ t pop, o = .next t ∧ ((t.th c).q.get v).halted = true ∧
      ((t.th c).q.get v).held = { e with kept := some (srcsOf s c e), popped := pop } :: ((s.th c).q.get v).held.tail ∧
      (t.th c).q.faults = (s.th c).q.faults ++ [{ q := qCode v, cause := cause, index := e.idx, addr := addr }] ∧
      (t.th c).regs = (s.th c).regs ∧ (t.th c).strm = (s.th c).strm ∧ (t.th c).csr = (s.th c).csr ∧ SameOutside s t ∧
      SameOthers s t c
  (∀ p ∈ ([.vadd, .vsub, .vmul, .vfma, .vred, .vsel, .pand, .vld, .vst, .vldx, .vstx, .spush] : List (V3 → Instr)),
    ∀ (f : V3) (s : State) (c : Nat) (v : VQ) (e : QEntry), begins s c v e = true → sound (p f) s e = false →
    halts s c v e 0x0F 0 (exec (p f) s)) ∧
  (∀ (f : V3) (s : State) (c : Nat) (e : QEntry), begins s c .vl e = true → sound (.vld f) s e = true →
    ((vldAddr e).toNat % 256 ≠ 0 → halts s c .vl e 0x04 (vldAddr e) (exec (.vld f) s)) ∧
    (∀ cause va, (vldAddr e).toNat % 256 = 0 → checkAccess s (s.whoThread c) .part (vldAddr e) 256 = .fault cause va →
      halts s c .vl e cause va (exec (.vld f) s)) ∧
    (∀ key cls, (vldAddr e).toNat % 256 = 0 →
      placed s c .vl e .part [(vldAddr e, 256)] [(key, cls)] = true → activeBad s e (srcsOf s c e) (vldAddr e) key = true →
      halts s c .vl e 0x0F (vldAddr e) (exec (.vld f) s))) ∧
  (∀ (f : V3) (s : State) (c : Nat) (e : QEntry), begins s c .vs e = true → sound (.vst f) s e = true →
    ((srcsOf s c e).a.d = true → halts s c .vs e 0x07 (BitVec.ofNat 64 (64 + e.f.a.toNat)) (exec (.vst f) s)) ∧
    ((srcsOf s c e).a.d = false → (vldAddr e).toNat % 256 ≠ 0 → halts s c .vs e 0x04 (vldAddr e) (exec (.vst f) s)) ∧
    (∀ cause va, (srcsOf s c e).a.d = false → (vldAddr e).toNat % 256 = 0 →
      checkAccess s (s.whoThread c) .write (vldAddr e) 256 = .fault cause va → halts s c .vs e cause va (exec (.vst f) s)) ∧
    (∀ key va, (srcsOf s c e).a.d = false → (vldAddr e).toNat % 256 = 0 →
      checkAccess s (s.whoThread c) .write (vldAddr e) 256 = .ok key (some .hostU) → (s.th c).q.vs.host = .answered va 0 false →
      heldBack s c e.seq (vldAddr e) 256 = false → halts s c .vs e 0x05 va (exec (.vst f) s))) ∧
  (∀ p ∈ ([(.vld, .vl), (.vst, .vs), (.vldx, .vl), (.vstx, .vs), (.vldst, .vl), (.vstst, .vs), (.vstm, .vs)] :
      List ((V3 → Instr) × VQ)), ∀ (f : V3) (s : State) (c : Nat) (e : QEntry) (va : Word), s.agent = .queue c p.2 →
    ((s.th c).q.get p.2).held.head? = some e → ((s.th c).q.get p.2).halted = false → e.done = false →
    killedStrand s c = none → ((s.th c).q.get p.2).park = .bad va → halts s c p.2 e 0x05 va (exec (p.1 f) s)) ∧
  (∀ (f : V3) (s : State) (c : Nat) (e : QEntry), begins s c .vs e = true → sound (.spush f) s e = true →
    let x := srcsOf s c e
    let new := (activeList e x).flatMap (fun i => leBytes e.et.width (elemOf x.b.val.toNat e.et.width i))
    x.b.d = false → 1024 < ((s.th c).strm.cqAt e.f.a.toNat).length + new.length →
    halts s c .vs e 0x12 (BitVec.ofNat 64 e.f.a.toNat) (exec (.spush f) s)) ∧
  (∀ (f : V3) (s : State) (c : Nat) (e : QEntry), begins s c .vl e = true → sound (.vldb f) s e = true →
    let a := e.sb.val
    let last := a.toNat + 128 * (e.f.c.toNat + 1) - 1
    (a.toNat % 128 ≠ 0 → halts s c .vl e 0x04 a (exec (.vldb f) s)) ∧
    (a.toNat % 128 = 0 → (inWindow a.toNat = true ∨ inWindow last = true ∨ a.toNat / 2 ^ 30 ≠ last / 2 ^ 30) →
      halts s c .vl e 0x03 a (exec (.vldb f) s))) ∧
  (∀ (f : V3) (s : State) (c : Nat) (e : QEntry) (a : Word), begins s c .vl e = true → sound (.vldst f) s e = true →
    let x := srcsOf s c e
    let st := (s.th c).strm.stAt e.f.b.toNat
    layerSpan st st.posr.toNat ((insideList e x st).map (fun i => st.posc.toNat + i)) = some a →
    halts s c .vl e 0x03 a (exec (.vldst f) s)) ∧
  (∀ (f : V3) (s : State) (c : Nat) (e : QEntry), begins s c .va e = true → sound (.vunpark f) s e = true →
    slotBad s c e.slot = true → halts s c .va e 0x0F 0 (exec (.vunpark f) s))

/-! ### Semaphores, barriers, fences, tokens, time -/

namespace Sys2Proof.Ob

/-- The strand's queues hold nothing and none is halted. -/
def quiet (s : State) : Bool := (s.th s.me).q.haltedQ.isNone && !(s.th s.me).q.busy

/-- No ring fault is pending (R189). -/
def ringOk (s : State) : Bool := !(s.th s.me).q.ringFault

/-- The strand's context. -/
def myCtx (s : State) : Nat := s.ctxOf s.me

/-- The strand is not to end at a kill point (R60). -/
def alive (s : State) : Bool := (killedStrand s s.me).isNone

/-- An entry of a barrier by itself: its key, and the entry. -/
def soleEntry (s : State) (key : Nat) (e : BarEntry) : Bool := decide ((s.bar key).entries = [e])

/-- The result codes of Table 3-4 as the numbers it gives. -/
def codes : List (Word × Int) := [(rBusy, -1), (rNoqueue, -2), (rBadscope, -3), (rBadchan, -4), (rNoticket, -5), (rNofree, -6),
  (rBaddesc, -7), (rBadsem, -8), (rBadbar, -9), (rNodie, -10)]

end Sys2Proof.Ob

/-- R326, R125, R255, R256 and R295: NOP only goes on. ISYNC goes on, what the loop buffers hold serves the rest of the current
pass only (R85), and the lines its core then holds are those of that rest, as they were fetched before or as they stand now (how lines are held is the model's, log entry 12), once those of
HOST-U memory have been requested (R273; that such a line is requested is the model's, log entry 14). FENCE and
LFENCE go on once the queues hold nothing, a FENCE above core scope as a release and an acquire (R248); with a queue halted they
take QFAULT (R295), and while one holds work they wait. -/
def Sys2Proof.Ob.fenceResult : Prop :=
  (∀ s : State, exec .nop s = .next (s.advance s.me 2)) ∧
  (∀ (s : State) (l : Nat), (restOfPass (s.th s.me).pos).find? (lineAsks s s.me) = some l →
    exec .isync s = .next (askCode s s.me (BitVec.ofNat 64 (128 * l)))) ∧
  (∀ s : State, (restOfPass (s.th s.me).pos).find? (lineAsks s s.me) = none →
    ∃ t, exec .isync s = .next t ∧ t.th s.me = (s.th s.me).advance 2 ∧ t.mem = s.mem ∧ SameOthers s t s.me ∧
    (t.core s.me).loop = (s.core s.me).loop.map (fun b => { b with last := true }) ∧
    (∀ x ∈ (t.core s.me).ahead, x.last = true ∧ x.line ∈ restOfPass (s.th s.me).pos ∧
      ((∃ y ∈ (s.core s.me).ahead, x = { y with last := true }) ∨
        (∃ y, fetchLine s s.me x.line = some y ∧ x = { y with last := true }))) ∧
    (∀ l ∈ restOfPass (s.th s.me).pos, (heldLineAt s s.me l).isSome ∨ (fetchLine s s.me l).isSome →
      ∃ x ∈ (t.core s.me).ahead, x.line = l)) ∧
  (∀ (scope : BitVec 3) (before after : BitVec 4) (s : State), quiet s = true →
    exec (.fence scope) s = .next ((if scope = 0 then s else acquireAll s s.me).advance s.me 2) ∧
    exec (.lfence before after) s = .next (s.advance s.me 2)) ∧
  (∀ (scope : BitVec 3) (before after : BitVec 4) (s : State) (v : VQ), (s.th s.me).q.haltedQ = some v →
    exec (.fence scope) s = .next (takeQfault s s.me (qCode v) false) ∧
    exec (.lfence before after) s = .next (takeQfault s s.me (qCode v) false)) ∧
  (∀ (scope : BitVec 3) (before after : BitVec 4) (s : State), (s.th s.me).q.haltedQ = none → (s.th s.me).q.busy = true →
    exec (.fence scope) s = .next s ∧ exec (.lfence before after) s = .next s) ∧
  (∀ (scope : BitVec 3) (s : State), (acquireAll s s.me).core s.me =
    { s.core s.me with banks := { (s.core s.me).banks with fifo := [] } } ∧ SameOthers s (acquireAll s s.me) s.me ∧
    (∀ t, exec (.fence scope) s = .next t → t.mem = s.mem ∧ (t.th s.me).regs = (s.th s.me).regs))

/-- R180 and R181: SEMW takes one and returns the count it found, or waits; SEMS adds to a count of its own or of a core of
its rectangle; what they refuse is a result code and changes nothing else, and a count with an uncorrectable error is ECC_UNCORR
(R304). -/
def Sys2Proof.Ob.semaphoreResult : Prop :=
  (∀ (f : R2) (s : State), noD s [f.ra] = true →
    let n := (reg s f.ra).toNat
    (n < 32 → semBad s s.me n = true → exec (.semw f) s = .next (takeTrap s s.me cEcc 0)) ∧
    (n < 32 → semBad s s.me n = false → semOf s s.me n ≠ 0 → exec (.semw f) s = .next (wrote (setSemOf s s.me n (semOf s s.me n - 1)) f.rd
      ((semOf s s.me n).zeroExtend 64) false 2)) ∧
    (n < 32 → semBad s s.me n = false → semOf s s.me n = 0 → alive s = true → exec (.semw f) s = .next s) ∧
    (32 ≤ n → exec (.semw f) s = .next (wrote s f.rd rBadsem false 2))) ∧
  (∀ (f : R3) (s : State), noD s [f.ra, f.rb] = true →
    let a := reg s f.ra
    let n := a.toNat % 32
    let v := (reg s f.rb).toNat
    (a &&& ~~~0x0F1F011F = 0 → 1 ≤ v → v ≤ 65535 → a.getLsbD 8 = false → semBad s s.me n = false → (semOf s s.me n).toNat + v ≤ 65535 →
      exec (.sems f) s = .next (wrote (setSemOf s s.me n (BitVec.ofNat 16 ((semOf s s.me n).toNat + v))) f.rd 0 false 2)) ∧
    (∀ p, a &&& ~~~0x0F1F011F = 0 → 1 ≤ v → v ≤ 65535 → a.getLsbD 8 = true →
      peerOf s s.me (a.extractLsb' 16 5).toNat (a.extractLsb' 24 4).toNat = some p →
      (semBad s p n = true → exec (.sems f) s = .next (takeTrap s s.me cEcc 0)) ∧
      (semBad s p n = false → 65535 < (semOf s p n).toNat + v → exec (.sems f) s = .next (wrote s f.rd rBusy false 2)) ∧
      (p ≠ s.me → semBad s p n = false → (semOf s p n).toNat + v ≤ 65535 → ∃ t, exec (.sems f) s = .next t ∧
        semOf t p n = BitVec.ofNat 16 ((semOf s p n).toNat + v) ∧ (t.th s.me).rdS f.rd = {} ∧
        (t.th s.me).job.restart = false ∧ t.mem = s.mem)) ∧
    (a &&& ~~~0x0F1F011F ≠ 0 ∨ v = 0 ∨ 65535 < v → exec (.sems f) s = .next (wrote s f.rd rBadsem false 2)))

/-- R326, R125, R255, R256 and R295: NOP only goes on. ISYNC goes on, what the loop buffers hold serves the rest of the
current pass only (R85), and the lines its core then holds are those of that rest, as they were fetched before or as they
stand now (how lines are held is the model's, log entry 12), once those of HOST-U memory have been requested (R273; that such
a line is requested is the model's, log entry 14). FENCE and LFENCE go on once the queues hold nothing, a FENCE above core
scope as a release and an acquire (R248); with a queue halted they take QFAULT (R295), and while one holds work they wait.
R180 and R181: SEMW takes one and returns the count it found, or waits; SEMS adds to a count of its own or of a core of its
rectangle; what they refuse is a result code and changes nothing else, and a count with an uncorrectable error is ECC_UNCORR
(R304). -/
def Obligations.FenceAndSemaphoreResult : Prop :=
  Sys2Proof.Ob.fenceResult ∧ Sys2Proof.Ob.semaphoreResult


/-- R259 and R260: BARI adds its entry, BARI.CLR empties the unit; the arrival that completes a barrier returns PHASE + 1 and
sets LEFT back; a released strand writes the word it was given. -/
def Obligations.BarrierResult : Prop :=
  (∀ (f : R3) (s : State) (key : Nat) (e : BarEntry), noD s [f.ra, f.rb] = true → barKey s s.me (reg s f.ra) = some key →
    bariEntry s s.me (reg s f.rb) = some e → (s.bar key).pending = false → (s.bar key).entries.length < 8 →
    (s.bar key).entries.all (fun x => x.scope != e.scope) = true →
    exec (.bari f) s = .next (wrote (s.setBar key { s.bar key with entries := (s.bar key).entries ++ [e] }) f.rd 0 false 2)) ∧
  (∀ (f : R2) (s : State) (key : Nat), noD s [f.ra] = true → barKey s s.me (reg s f.ra) = some key →
    exec (.bariClr f) s = .next (if (s.bar key).pending then wrote s f.rd rBusy false 2
      else wrote (s.setBar key { s.bar key with entries := [], reduced := false }) f.rd 0 false 2)) ∧
  (∀ (f : R2) (s : State) (v : Word), (s.th s.me).job.wait = .barDone v →
    exec (.bar f) s = .next (wrote (acquireAll (unwait s s.me) s.me) f.rd v false 2)) ∧
  (∀ (f : R2) (s : State) (key : Nat) (e : BarEntry), (s.th s.me).job.wait = .none → noD s [f.ra] = true →
    barKey s s.me (reg s f.ra) = some key → soleEntry s key e = true → (s.bar key).matching s (s.th s.me).job.osc.toNat = some e →
    accessesDone s s.me = true → e.broken = false → e.left = 1 →
    ∃ t, exec (.bar f) s = .next t ∧
      (t.bar key).phase = (s.bar key).phase + 1 ∧ (t.bar key).reduced = false ∧
      (t.bar key).entries = [{ e with left := e.count }] ∧ t.mem = s.mem ∧
      (f.rd ≠ 0 → ((t.th s.me).rdS f.rd).val = barWord ((s.bar key).phase + 1) false (s.bar key).reduced)) ∧
  (∀ (f : R2) (s : State) (key : Nat) (e : BarEntry), (s.th s.me).job.wait = .none → noD s [f.ra] = true →
    barKey s s.me (reg s f.ra) = some key → (s.bar key).matching s (s.th s.me).job.osc.toNat = some e →
    accessesDone s s.me = true → e.broken = true →
    exec (.bar f) s = .next (wrote (acquireAll (drainFifo s s.me) s.me) f.rd (barWord (s.bar key).phase true true) false 2))

/-- R67 and R68: TOKSEND puts a token with the die's causal stamp on its way; TOKWAIT takes the oldest token of a channel of its
die and merges the stamp. -/
def Sys2Proof.Ob.tokenResult : Prop :=
  (∀ (f : R3) (s : State) (key : Nat), noD s [f.ra, f.rb] = true → chanKey s s.me (reg s f.ra) = some key →
    (16 ≤ chanLoad s key → exec (.toksend f) s = .next (wrote s f.rd rBusy false 2)) ∧
    (chanLoad s key < 16 → accessesDone s s.me = true → ∃ t, exec (.toksend f) s = .next t ∧
      t.flight = s.flight ++ [{ chan := key, core := s.me, tok :=
        { payload := (reg s f.rb).extractLsb' 0 32, stamp := (s.die (s.me / 64)).stamp } }] ∧
      (t.th s.me).rdS f.rd = {} ∧ (t.th s.me).job.restart = false ∧ t.mem = s.mem)) ∧
  (∀ (f : R2) (s : State), noD s [f.ra] = true →
    let n := (reg s f.ra).toNat
    let key := s.me / 64 * 64 + n
    n < 64 → (s.chan key).ctx = some (myCtx s) →
    ((s.chan key).fifo = [] → alive s = true → exec (.tokwait f) s = .next s) ∧
    (∀ x xs, (s.chan key).fifo = x :: xs → exec (.tokwait f) s = .next (wrote (acquireAll (mergeStamp
      (s.setChan key { s.chan key with fifo := xs }) (s.me / 64) x.stamp) s.me) f.rd (x.payload.zeroExtend 64) false 2)))

/-- R74 and R75: TIMER reads GTIME; TIMEWAIT returns it once it has reached the time, under LOST takes TSYNC with ERR, and else
waits. -/
def Sys2Proof.Ob.timeResult : Prop :=
  (∀ (rd : BitVec 5) (s : State), exec (.timer rd) s = .next (wrote s rd (s.die (s.me / 64)).time.gtime false 2)) ∧
  (∀ (f : R2) (s : State), (s.th s.me).job.wait = .none → noD s [f.ra] = true →
    let d := (s.die (s.me / 64)).time
    (d.st = .lost → exec (.timewait f) s = .next (takeTrap s s.me 0x10 (d.err.zeroExtend 64))) ∧
    (d.st ≠ .lost → (reg s f.ra).toNat ≤ d.gtime.toNat → exec (.timewait f) s = .next (wrote s f.rd d.gtime false 2)) ∧
    (d.st ≠ .lost → d.gtime.toNat < (reg s f.ra).toNat →
      exec (.timewait f) s = .next (setWait s s.me (.timewait (reg s f.ra) none)))) ∧
  (∀ (f : R2) (s : State) (u : Word), (s.th s.me).job.wait = .timewait u none →
    u.toNat ≤ (s.die (s.me / 64)).time.gtime.toNat →
    exec (.timewait f) s = .next (wrote (unwait s s.me) f.rd (s.die (s.me / 64)).time.gtime false 2))

/-- R67 and R68: TOKSEND puts a token with the die's causal stamp on its way; TOKWAIT takes the oldest token of a channel of
its die and merges the stamp. R74 and R75: TIMER reads GTIME; TIMEWAIT returns it once it has reached the time, under LOST
takes TSYNC with ERR, and else waits. -/
def Obligations.TokenAndTimeResult : Prop :=
  Sys2Proof.Ob.tokenResult ∧ Sys2Proof.Ob.timeResult


/-- R267, R268 and R263: VDIE answers the physical die of a virtual one, HOPS and HOPS.MD the links between two dies, NODIE
where a number names none. -/
def Sys2Proof.Ob.dieResult : Prop :=
  (∀ (f : R2) (s : State), noD s [f.ra] = true → exec (.vdie f) s = .next (wrote s f.rd
    (match vdieOf (s.ctx (myCtx s)).vdmap (reg s f.ra).toNat with
    | some p => BitVec.ofNat 64 p
    | none => rNodie) false 2)) ∧
  (∀ (f : R3) (s : State) (p : Nat), noD s [f.ra, f.rb] = true → vdieOf (s.ctx (myCtx s)).vdmap (reg s f.ra).toNat = some p →
    (∀ q, vdieOf (s.ctx (myCtx s)).vdmap (reg s f.rb).toNat = some q → exec (.hops f) s = .next (wrote s f.rd
      (BitVec.ofNat 64 (((p % 4 : Int) - q % 4).natAbs + ((p / 4 : Int) - q / 4).natAbs)) false 2)) ∧
    (vdieOf (s.ctx (myCtx s)).vdmap (reg s f.rb).toNat = none → exec (.hops f) s = .next (wrote s f.rd rNodie false 2)) ∧
    ((reg s f.rb).toNat < 8 → exec (.hopsMd f) s = .next (wrote s f.rd
      (BitVec.ofNat 64 (hops p (reg s f.rb).toNat + 1)) false 2)) ∧
    (8 ≤ (reg s f.rb).toNat → exec (.hopsMd f) s = .next (wrote s f.rd rNodie false 2)))

/-- R46, R56, R63, R165, R180, R259 and R267: the result codes that they give are the negative numbers -1 to -10. -/
def Sys2Proof.Ob.resultCodes : Prop := ∀ p ∈ codes, p.1.toInt = p.2

/-! ### Ring, descriptors, tiles, banks, translations -/

/-- R183 and R184: MCMD never waits: it posts its record at the index it returns; the record is written at once, or, where local
order holds the write back behind earlier accesses (R251), once those are performed (the model's reading, log entry 58).
MRING.CFG, MRING.POST and MRING.STAT return what they found. -/
def Sys2Proof.Ob.ringResult : Prop :=
  (∀ (f : R3) (s : State), ringOk s = true → noD s [f.ra, f.rb] = true →
    let r := (s.core s.me).ring
    let key := spadKey s.me (r.base.toNat + 16 * (r.wr.toNat % 2 ^ r.logn.toNat))
    (r.cfg = false → exec (.mcmd f) s = .next (wrote s f.rd rBaddesc false 2)) ∧
    (r.cfg = true → (r.wr - r.rd).toNat = 2 ^ r.logn.toNat → exec (.mcmd f) s = .next (wrote s f.rd rBusy false 2)) ∧
    let v : BitVec 128 := reg s f.rb ++ reg s f.ra
    let held := heldBack s s.me (s.th s.me).q.seq (slotAddr key) 16
    let post : Posting := { idx := r.wr.toNat, seq := (s.th s.me).q.seq, late := if held then some v else none }
    (r.cfg = true → (r.wr - r.rd).toNat ≠ 2 ^ r.logn.toNat → ∃ t, exec (.mcmd f) s = .next t ∧
      t.mem = (if held then s.mem else s.mem.writeNat key 16 v.toNat) ∧
      (t.core s.me).ring = { r with wr := r.wr + 1, holds := r.holds ++ [post] } ∧
      (f.rd ≠ 0 → ((t.th s.me).rdS f.rd).val = r.wr))) ∧
  (∀ (f : R2) (s : State), ringOk s = true → noD s [f.ra] = true → ringDrained s s.me = true →
    exec (.mringCfg f) s = .next (match ringCfg s s.me (reg s f.ra) with
      | none => wrote s f.rd rBaddesc false 2
      | some r => wrote (setRing s s.me r) f.rd (ringWord (s.core s.me).ring) false 2)) ∧
  (∀ (f : R2) (s : State), ringOk s = true → noD s [f.ra] = true → accessesDone s s.me = true →
    let r := (s.core s.me).ring
    let v := (reg s f.ra).toNat
    r.cfg = true → r.wr.toNat ≤ v → v ≤ r.rd.toNat + 2 ^ r.logn.toNat → ∃ t, exec (.mringPost f) s = .next t ∧
      (t.core s.me).ring = { r with wr := reg s f.ra } ∧ (f.rd ≠ 0 → ((t.th s.me).rdS f.rd).val = r.wr) ∧ t.mem = s.mem) ∧
  (∀ (rd : BitVec 5) (s : State), ringOk s = true → exec (.mringStat rd) s = .next (wrote s rd
    ((s.core s.me).ring.rd.extractLsb' 0 32 ++ (s.core s.me).ring.wr.extractLsb' 0 32) false 2))

/-- R171 and R165: STCFG and CBCFG install the descriptor at the address, and return the old position or the old counts; a
malformed one is BADDESC and installs nothing; an uncorrectable error of the register or the counts that would be read is
ECC_UNCORR (R304), and one that is only overwritten is cleared: that a write of the place clears its error is the model's choice
(DESIGN CHOICE, log entry 16). -/
def Sys2Proof.Ob.descriptorResult : Prop :=
  (∀ (f : R2) (n : BitVec 4) (s : State) (key : Nat) (cls : Option Cls), fresh s = true → noD s [f.ra] = true →
    (s.th s.me).q.holding (QEntry.namesStream n.toNat) = [] → ringNames s s.me (fun _ l => l.contains n) = false →
    letThrough s .read false (reg s f.ra) 64 key cls = true →
    let raw := s.mem.readNat key 64
    let t := s.th s.me
    let mark : Nat × Nat := (5, n.toNat)
    exec (.stcfg f n) s = .next (if streamBad raw then wrote s f.rd rBaddesc false 2
      else if f.rd ≠ 0 ∧ mark ∈ t.marks then takeTrap s s.me cEcc 0
      else wrote (s.setTh s.me { t with strm := t.strm.setSt n.toNat (streamOf raw), marks := t.marks.filter (· != mark) }) f.rd
        ((t.strm.stAt n.toNat).posr ++ (t.strm.stAt n.toNat).posc) false 2)) ∧
  (∀ (f : R2) (n : BitVec 4) (s : State) (key : Nat) (cls : Option Cls), fresh s = true → noD s [f.ra] = true →
    (s.th s.me).q.holding (QEntry.namesBuf n.toNat) = [] → letThrough s .read false (reg s f.ra) 32 key cls = true →
    let raw := s.mem.readNat key 32
    let t := s.th s.me
    let old := t.strm.cbAt n.toNat
    let mark : Nat × Nat := (6, n.toNat)
    exec (.cbcfg f n) s = .next (if cbufBad (s.core s.me).banks.roleF raw then wrote s f.rd rBaddesc false 2
      else if f.rd ≠ 0 ∧ mark ∈ t.marks then takeTrap s s.me cEcc 0
      else wrote (s.tick.2.setTh s.me { t with strm := t.strm.setCb n.toNat (cbufOf raw (s.fresh + 1)),
                                                  marks := t.marks.filter (· != mark) }) f.rd
        (0#32 ++ old.filled ++ old.free) false 2))

/-- R183 and R184: MCMD never waits: it posts its record at the index it returns; the record is written at once, or, where
local order holds the write back behind earlier accesses (R251), once those are performed (the model's reading, log entry
58). MRING.CFG, MRING.POST and MRING.STAT return what they found. R171 and R165: STCFG and CBCFG install the descriptor at
the address, and return the old position or the old counts; a malformed one is BADDESC and installs nothing; an uncorrectable
error of the register or the counts that would be read is ECC_UNCORR (R304), and one that is only overwritten is cleared:
that a write of the place clears its error is the model's choice (DESIGN CHOICE, log entry 16). -/
def Obligations.RingAndDescriptorResult : Prop :=
  Sys2Proof.Ob.ringResult ∧ Sys2Proof.Ob.descriptorResult


/-- R207 and R203: OWNF gives the tiles their owner and OWNF.AUTO also marks them, where no old owner is at work on one;
a new owner of OWNF.AUTO other than Flume gives baddesc; BANKSYNC puts the pending roles in force and returns the old ones. -/
def Obligations.TileAndBankResult : Prop :=
  (∀ (f : R3) (owner : BitVec 2) (s : State) (w : BitVec 1024), noD s [f.ra, f.rb] = true →
    let off := (reg s f.ra).toNat
    let n := (reg s f.rb).toNat
    let b := (s.core s.me).banks
    off < 2 ^ 21 → off % 4096 = 0 → 1 ≤ n → off / 4096 + n ≤ 512 →
    allBetween (bankIsSpad b.roleF) (off / 2 ^ 16) ((off + 4096 * n - 1) / 2 ^ 16) = true →
    accessesDone s s.me = true → ownTiles s s.me owner (off / 4096) n b.owners = (w, true) →
    exec (.ownf f owner) s = .next (wrote (s.setCore s.me { s.core s.me with banks := { b with owners := w } }) f.rd 0 false 2) ∧
    (owner = 2 → exec (.ownfAuto f owner) s = .next (wrote (s.setCore s.me { s.core s.me with
      banks := { b with owners := w, auto := some (off / 4096, n) } }) f.rd 0 false 2))) ∧
  (∀ (f : R3) (owner : BitVec 2) (s : State), noD s [f.ra, f.rb] = true → owner ≠ 2 →
    exec (.ownfAuto f owner) s = .next (wrote s f.rd rBaddesc false 2)) ∧
  (∀ (rd : BitVec 5) (s : State), quiet s = true →
    let b := (s.core s.me).banks
    (leaving b (fun r => decide (r = 0))).all (fun j => !bankHeld s s.me j) = true → ∃ t, exec (.banksync rd) s = .next t ∧
      (t.core s.me).banks.roleF = b.roleP ∧ (rd ≠ 0 → ((t.th s.me).rdS rd).val = b.roleF) ∧
      ∀ j < 32, bankIsSpad b.roleP j = true → bankIsSpad b.roleF j = false → ∀ k < 65536,
        t.mem.readByte (spadKey s.me (j * 65536 + k)) = 0)

/-- R200: TQRY answers 0 where nothing is mapped and beyond 57 bits, the window's word in the local window, and else what the
leaf says, and changes nothing but rd. -/
def Sys2Proof.Ob.translationQuery : Prop :=
  ∀ (f : R2) (s : State), noD s [f.ra] = true →
    let a := reg s f.ra
    (inWindow a.toNat = true → exec (.tqry f) s = .next (wrote s f.rd 0x8000000000000002 false 2)) ∧
    (2 ^ 57 ≤ a.toNat → (∀ l, translateOn s (myCtx s) (s.me / 64) a.toNat ≠ .held l) →
      exec (.tqry f) s = .next (wrote s f.rd 0 false 2)) ∧
    (inWindow a.toNat = false → translateOn s (myCtx s) (s.me / 64) a.toNat = .absent ∨
        translateOn s (myCtx s) (s.me / 64) a.toNat = .ecc →
      exec (.tqry f) s = .next (wrote s f.rd 0 false 2)) ∧
    (∀ l, inWindow a.toNat = false → a.toNat < 2 ^ 57 → translateOn s (myCtx s) (s.me / 64) a.toNat = .ok l →
      ∃ v, exec (.tqry f) s = .next (wrote s f.rd v false 2) ∧ v.getLsbD 63 = true ∧ v.extractLsb' 60 3 = BitVec.ofNat 3 l.home ∧
        v.getLsbD 59 = l.hint ∧ v.getLsbD 2 = l.w ∧ v.getLsbD 3 = l.x ∧ v.extractLsb' 4 2 = l.cls.code ∧
        v.extractLsb' 6 2 = BitVec.ofNat 2 l.size ∧ v.extractLsb' 8 51 = 0 ∧ v.extractLsb' 0 2 = 0)

/-- R267, R268 and R263: VDIE answers the physical die of a virtual one, HOPS and HOPS.MD the links between two dies, NODIE
where a number names none. R46, R56, R63, R165, R180, R259 and R267: the result codes that they give are the negative numbers
-1 to -10. R200: TQRY answers 0 where nothing is mapped and beyond 57 bits, the window's word in the local window, and else
what the leaf says, and changes nothing but rd. -/
def Obligations.QueryResult : Prop :=
  Sys2Proof.Ob.dieResult ∧ Sys2Proof.Ob.resultCodes ∧ Sys2Proof.Ob.translationQuery


/-- R228 and R325: MWAIT ends at once with the value where the word differs, else it waits with its monitor armed; a re-read that
found the word different ends it as an acquire, one that failed, as one of a tile of the scratchpad that is not the thread's any
more, takes the trap of a load at the monitored address, and while the word is as it was, the strand stays at its MWAIT. -/
def Obligations.MonitorWait : Prop :=
  (∀ (f : R3) (s : State) (key : Nat) (cls : Option Cls), fresh s = true → noD s [f.ra, f.rb] = true →
    letThrough s .read false (reg s f.ra) 8 key cls = true →
    let v := BitVec.ofNat 64 (s.mem.readNat key 8)
    (v ≠ reg s f.rb → exec (.mwait f) s = .next (wrote (acquireAll (unwait s s.me) s.me) f.rd v false 2)) ∧
    (v = reg s f.rb → ∃ t, exec (.mwait f) s = .next t ∧ (t.th s.me).pos = (s.th s.me).pos ∧
      (t.th s.me).regs = (s.th s.me).regs ∧ t.mem = s.mem ∧
      (t.th s.me).job.wait = .mwait (reg s f.ra) key v false (s.die (s.me / 64)).time.gtime .none)) ∧
  (∀ (f : R3) (s : State) (key : Nat) (va ref last v : Word) (u : Bool),
    (s.th s.me).job.wait = .mwait va key ref u last (.value v) →
    exec (.mwait f) s = .next (wrote (acquireAll (unwait (spendHost s s.me) s.me) s.me) f.rd v false 2)) ∧
  (∀ (f : R3) (s : State) (key : Nat) (va ref last : Word) (u : Bool) (cause : BitVec 8),
    (s.th s.me).job.wait = .mwait va key ref u last (.bad cause) →
    exec (.mwait f) s = .next (takeTrap (clearHost (unwait s s.me) s.me) s.me cause va)) ∧
  (∀ (f : R3) (s : State) (key : Nat) (va ref last : Word) (u : Bool), (s.th s.me).job.wait = .mwait va key ref u last .none →
    (s.th s.me).job.host = .idle → hostWord key = false → s.mem.poisoned key 8 = false →
    (inWindow va.toNat = true → ∀ cause a, checkAccess s (s.whoThread s.me) .part va 8 ≠ .fault cause a) →
    let v := BitVec.ofNat 64 (s.mem.readNat key 8)
    (v ≠ ref → exec (.mwait f) s = .next (wrote (acquireAll (unwait s s.me) s.me) f.rd v false 2)) ∧
    (v = ref → alive s = true → ∃ t, exec (.mwait f) s = .next t ∧ (t.th s.me).pos = (s.th s.me).pos ∧
      (t.th s.me).regs = (s.th s.me).regs ∧ (t.th s.me).job = (s.th s.me).job ∧ t.mem = s.mem)) ∧
  (∀ (f : R3) (s : State) (key : Nat) (va ref last a : Word) (u : Bool) (cause : BitVec 8),
    (s.th s.me).job.wait = .mwait va key ref u last .none → (s.th s.me).job.host = .idle → hostWord key = false →
    inWindow va.toNat = true → checkAccess s (s.whoThread s.me) .part va 8 = .fault cause a →
    exec (.mwait f) s = .next (takeTrap (clearHost (unwait s s.me) s.me) s.me cause va))

/-! ### Queues, scopes, tasks -/

/-- R46, R212 and R49: LAUNCH and CPYQ claim the next slot of a queue that is not full, copy the packet under a release and
return the claim; CWAIT returns a status once it is written. A number that names no queue is NOQUEUE, a full queue BUSY. -/
def Obligations.QueueClaim : Prop :=
  (∀ (f : R3) (s : State) (key qk : Nat) (q : QRec) (cls : Option Cls), fresh s = true → noD s [f.ra, f.rb] = true →
    launchQueue s s.me (reg s f.rb) = some (qk, q) → queueFull s q = false →
    queueLine s qk q (widxOf s q) = none → letThrough s .read true (reg s f.ra) 64 key cls = true →
    ∃ t, exec (.launch f) s = .next t ∧ (f.rd ≠ 0 → ((t.th s.me).rdS f.rd).val = BitVec.ofNat 64 (widxOf s q)) ∧
      t.mem = ((s.mem.writeNat q.base 8 (widxOf s q + 1)).writeBytes (qslotKey qk q (widxOf s q))
        ((s.mem.readBytes key 64).take 56)).writeNat (qslotKey qk q (widxOf s q) + 56) 8 (widxOf s q) ∧
      (t.th s.me).job.restart = false) ∧
  (∀ (f : R3) (s : State) (key qk : Nat) (q : QRec) (cls : Option Cls), fresh s = true → noD s [f.ra, f.rb] = true →
    flumeQueue s s.me (reg s f.rb) = some (qk, q) → queueFull s q = false →
    queueLine s qk q (widxOf s q) = none → letThrough s .read true (reg s f.ra) 64 key cls = true →
    ∃ t, exec (.cpyq f) s = .next t ∧ (f.rd ≠ 0 → ((t.th s.me).rdS f.rd).val = BitVec.ofNat 64 (widxOf s q)) ∧
      t.mem = ((s.mem.writeNat q.base 8 (widxOf s q + 1)).writeBytes (qslotKey qk q (widxOf s q))
        ((s.mem.readBytes key 64).take 56)).writeNat (qslotKey qk q (widxOf s q) + 56) 8 (widxOf s q)) ∧
  (∀ (f : R3) (s : State), noD s [f.ra, f.rb] = true → (reg s f.ra).toNat % 64 = 0 →
    (launchQueue s s.me (reg s f.rb) = none → ∃ t, exec (.launch f) s = .next t ∧ t.mem = s.mem ∧
      (f.rd ≠ 0 → ((t.th s.me).rdS f.rd).val = rNoqueue)) ∧
    (flumeQueue s s.me (reg s f.rb) = none → ∃ t, exec (.cpyq f) s = .next t ∧ t.mem = s.mem ∧
      (f.rd ≠ 0 → ((t.th s.me).rdS f.rd).val = rNoqueue)) ∧
    (∀ qk q, flumeQueue s s.me (reg s f.rb) = some (qk, q) → (s.th s.me).job.park = .run → queueFull s q = true →
      ∃ t, exec (.cpyq f) s = .next t ∧ t.mem = s.mem ∧ (f.rd ≠ 0 → ((t.th s.me).rdS f.rd).val = rBusy))) ∧
  (∀ (f : R2) (s : State) (key : Nat) (cls : Option Cls), fresh s = true → noD s [f.ra] = true → (reg s f.ra).toNat % 8 = 0 →
    letThrough s .read false (reg s f.ra) 1 key cls = true → s.mem.readByte key ≠ 0 →
    exec (.cwait f) s = .next (wrote (acquireAll (goOn s s.me) s.me) f.rd ((s.mem.readByte key).zeroExtend 64) false 2))

/-- R57, R58 and R63: SCOPENEW makes a child scope of a LIVE parent within 64 levels; CANCEL sends its request under a release and
waits, by the number its request carries, for the ticket, which it then returns; SCOPEWAIT returns 1 once the cancellation has ended, NOTICKET for no ticket. -/
def Obligations.ScopeResult : Prop :=
  (∀ (f : R2) (s : State) (k : Nat), noD s [f.ra] = true →
    let n := (reg s f.ra).toNat
    n < 65536 → (s.scope n).st = .live → (s.scope n).ctx = myCtx s → (ancestors s n).length < 64 → lscOk s s.me n = true →
    pickScope s = some k → ∃ t, exec (.scopenew f) s = .next t ∧
      (f.rd ≠ 0 → ((t.th s.me).rdS f.rd).val = BitVec.ofNat 64 k) ∧ (t.scope k).st = .live ∧ (t.scope k).parent = some n ∧
      (t.scope k).ctx = myCtx s ∧ (t.scope k).home = (s.scope n).home ∧ (t.scope k).canc = false ∧
      (t.scope k).serial = (s.scope k).serial + 1 ∧ t.mem = s.mem) ∧
  (∀ (s : State) (k : Nat), pickScope s = some k → (s.scope k).st = .free ∧ k < 65536) ∧
  (∀ (f : R2) (s : State), (s.th s.me).job.wait = .none → noD s [f.ra] = true → accessesDone s s.me = true →
    let n := (reg s f.ra).toNat
    n < 65536 → (s.scope n).st ≠ .free → (s.scope n).ctx = myCtx s → lscOk s s.me n = true →
    let root := if (s.th s.me).pos.mode = .h then none else some (s.th s.me).job.lsc.toNat
    ∃ t, exec (.cancel f) s = .next t ∧
      t.hg.reqs = s.hg.reqs ++
        [{ scope := n, home := (s.scope n).home, by_ := .strand s.me s.fresh, ctx := myCtx s, root := root }] ∧
      (t.th s.me).job.wait = .cancel s.fresh ∧ (t.th s.me).pos = (s.th s.me).pos) ∧
  (∀ (f : R2) (s : State) (v : Word), (s.th s.me).job.wait = .cancelDone v →
    exec (.cancel f) s = .next (wrote (unwait s s.me) f.rd v false 2)) ∧
  (∀ (f : R2) (s : State), noD s [f.ra] = true →
    (ticketState s (reg s f.ra) = some true → exec (.scopewait f) s = .next (wrote (acquireAll s s.me) f.rd 1 false 2)) ∧
    (ticketState s (reg s f.ra) = none → exec (.scopewait f) s = .next (wrote s f.rd rNoticket false 2)) ∧
    (ticketState s (reg s f.ra) = some false → alive s = true → exec (.scopewait f) s = .next s))

/-- R84, R85 and R112: a header sets the block: LEN, RPT and the first pass, past its own two parcels; a header where none may stand is
ILLEGAL. Past the last parcel of a pass the next pass begins, past the last pass the parcel after the block must be a header. -/
def Obligations.BlockResult : Prop :=
  (∀ (len : BitVec 10) (rpt : BitVec 11) (s : State), (s.th s.me).pos.atHdr = true → alive s = true → 2 < len.toNat →
    let p := (s.th s.me).pos
    exec (.blk len rpt) s = .next (s.setTh s.me { s.th s.me with pos :=
      { p with hdr := p.pc, pc := p.pc + 4, len := len, rpt := rpt, atHdr := false, passStart := true } })) ∧
  (∀ (len : BitVec 10) (rpt : BitVec 11) (s : State) (w : BitVec 32), encodeTollum (.blk len rpt) = some w →
    (s.th s.me).pos.atHdr = false → exec (.blk len rpt) s = .next (takeTrap s s.me 0x01 (w.zeroExtend 64))) ∧
  (∀ (p : Pos) (n : Nat),
    (p.pc + BitVec.ofNat 64 (2 * n) ≠ p.ret → p.advance n = { p with pc := p.pc + BitVec.ofNat 64 (2 * n) }) ∧
    (p.pc + BitVec.ofNat 64 (2 * n) = p.ret → p.rpt ≠ 0 →
      p.advance n = { p with pc := p.hdr + 4, rpt := p.rpt - 1, passStart := true }) ∧
    (p.pc + BitVec.ofNat 64 (2 * n) = p.ret → p.rpt = 0 → (p.advance n).pc = p.ret ∧ (p.advance n).atHdr = true))

/-- R296, R43 and R41: SAFEPT and YIELD go on where nothing is pending for the strand and no fault is recorded, and in H mode
always; where a pre-emption is pending the strand stops there, and stands until every strand of its launch has stopped (R45: that its
first step is the whole launch's is the model's reading, log entry 100); TASKEND ends the step once its queues, commands and packets are done, and the core is free. -/
def Obligations.TaskResult : Prop :=
  (∀ (n : BitVec 8) (s : State), (s.th s.me).pos.mode = .h ∨
      ((s.th s.me).q.haltedQ = none ∧ ringOk s = true ∧ stopPending s s.me = false) →
    ((s.th s.me).job.run ≠ .stopped ∨ alive s = true → exec (.safept n) s = .next ((goOn s s.me).advance s.me 2)) ∧
    (alive s = true → exec .yield s = .next ((goOn s s.me).advance s.me 2))) ∧
  (∀ (n : BitVec 8) (s : State), (s.th s.me).pos.mode = .k → quiet s = true → ringOk s = true → ringBusy s s.me = false →
    (s.core s.me).bind.lendTo = none → (s.th s.me).job.run = .run → stopPending s s.me = true → saveFits s s.me n.toNat = true →
    let t := s.setTh s.me { s.th s.me with job := { (s.th s.me).job with run := .stopped } }
    allStopped t (s.th s.me).job.launch = false → exec (.safept n) s = .next t) ∧
  (∀ s : State, quiet s = true → ringOk s = true → commandsDone s s.me = true →
    packetsOpen s s.me = false → (s.launch (s.th s.me).job.launch).st ≠ .preempting →
    ∃ t, exec .taskend s = .next t ∧ (t.th s.me).job.run = .idle ∧ (t.core s.me).banks.auto = none ∧
      (t.core s.me).banks.fifo = [] ∧ (t.th s.me).regs = (s.th s.me).regs ∧ t.mem = s.mem ∧
      ((s.th s.me).trap.kind ≠ 1 → ∀ o, s.op (s.th s.me).job.op = some o →
        t.op (s.th s.me).job.op = some { o with left := o.left - 1 }))

/-! ### The matrix array -/

namespace Sys2Proof.Ob

/-- Array a of die d moves, leased to quad position q of core c, which is eligible and not cancelled; no command executes, and
none has begun with a request to the host (R273); the command's tile is the context's and not lent to parking, no access of the
strand earlier than its posting is held (R186, R189, R178, R94, R257), and no semaphore or stream that the command names has an uncorrectable error (R304). -/
def arrayBegins (s : State) (d n q : Nat) (m : MCmd) (strms : List (BitVec 4)) : Bool :=
  let a := d * 16 + n
  let c := quadCore a q
  decide (s.agent = .array d n) && decide ((s.array a).lease = some q) && decide ((s.array a).exec = none) &&
    (s.core c).ring.begun.isNone && eligible s c && (killedStrand s c).isNone && !commandHeld s c && !commandBad s c m strms &&
    decide ((s.core c).ring.park = .run) && (tileRule s a c m).isNone

/-- The array moves with a command that has begun with a request to the host (R273), for which `arrayBegins` still holds otherwise. -/
def arrayGoesOn (s : State) (d n q : Nat) (m : MCmd) (strms : List (BitVec 4)) : Bool :=
  let a := d * 16 + n
  let c := quadCore a q
  decide (s.agent = .array d n) && decide ((s.array a).lease = some q) && decide ((s.array a).exec = none) &&
    (s.core c).ring.begun.isSome && !commandBad s c m strms && decide ((s.core c).ring.park = .run) && (tileRule s a c m).isNone

/-- A value that a command's reads found, none of them in a HOST-U page; with what the host is asked for where some are (R273). -/
def found {α : Type} (x : MRd α) (v : α) : Prop := x = .ok v []
def foundAsking {α : Type} (x : MRd α) (v : α) (asks : List Word) : Prop := x = .ok v asks

/-- Words at their places, each converted to the format of the stream and written little-endian (Table 8-5, R2). -/
def outMem (et : Et) (m : Mem) : List (Nat × Nat) → Mem
  | [] => m
  | x :: xs => outMem et (m.writeNat x.1 et.width (convertEl (if et.isFloat then .fp32 else .i32) et .rne true x.2).bits) xs

/-- The word at (r, c) of a tile for each key of a grid of places. -/
def wordsAt (g : Sys2Proof.Machine.Array) (t : Nat) (keys : List (List Nat)) : List (Nat × Nat) :=
  keys.zipIdx.flatMap (fun p => p.1.zipIdx.map (fun q => (q.1, (smGet 0 (tileKey t p.2 q.2) g.tiles).toNat)))

/-- The words of the product of rows of x and columns of y (R191). -/
def productOf (s : State) (a c : Nat) (m : MCmd) (rows brows : List (List MCell)) (scales : List (List (Option Nat))) : MEff :=
  product s a m (strA s c m) (strB s c m) rows brows scales

end Sys2Proof.Ob

/-- R189, R191, R192 and R193: the command at the head of the ring of the lease's core begins where its tile, its formats and its
reads allow it: MZERO clears its tile; MMA and MCONV add the product of the rows they read; MACC sets widened elements; MOUT
writes the tile's words converted. Where reads or writes of an MOUT lie in HOST-U pages the host is asked for each, and the command
has its effect once all are answered; an error stops the ring (R190, R273). -/
def Obligations.MatrixResult : Prop :=
  (∀ (m : MCmd) (s : State) (d n q : Nat), arrayBegins s d n q m [] = true → ∃ e, exec (.mzero m) s =
      .next (mcmdDone s (d * 16 + n) (quadCore (d * 16 + n) q) m [] e) ∧
      e.mem.bytes = s.mem.bytes ∧ e.charge = none ∧
      ∀ r c, r < 128 → c < 128 → smGet 0 (tileKey m.acc.toNat r c) e.tiles = 0) ∧
  (∀ (m : MCmd) (s : State) (d n q : Nat) (rows brows : List (List MCell)) (scales : List (List (Option Nat))),
    arrayBegins s d n q m [m.sta, m.stb] = true →
    let a := d * 16 + n
    let c := quadCore a q
    let x := strA s c m
    let y := strB s c m
    let w := whoArray s c
    let count := m.nm1.toNat + 1
    pairRule m x y (decide (y.et ≠ .gq4) || y.baxis) = none → tileEcc s a m.acc.toNat (m.mm1.toNat + 1) count = false →
    found (readRows s w x (m.mm1.toNat + 1) m.k.toNat 0) rows → found (readRows s w y m.k.toNat count 0) brows →
    found (MRd.list (fun j => MRd.list (fun i => readScale s w y j i) count 0) (if y.et = .gq4 then m.k.toNat / 64 else 0) 0) scales →
    exec (.mma m) s = .next (mcmdDone s a c m [m.sta, m.stb] (productOf s a c m rows brows scales))) ∧
  (∀ (m : MCmd) (s : State) (d n q : Nat) (rows brows : List (List MCell)), arrayBegins s d n q m [m.sta, m.stb] = true →
    let a := d * 16 + n
    let c := quadCore a q
    let x := strA s c m
    let y := strB s c m
    let w := whoArray s c
    pairRule m x y (decide (x.kind = 1) && decide (y.kind = 1) && decide (y.et ≠ .gq4) && decide (y.ext1.toNat = x.ext0.toNat)) =
      none → tileEcc s a m.acc.toNat (m.mm1.toNat + 1) (m.nm1.toNat + 1) = false →
    found (MRd.list (fun i => MRd.list (fun k => convCell s w m x (convOf m x y) (s.core c).lease.mpad.toNat i k) m.k.toNat 0)
      (m.mm1.toNat + 1) 0) rows →
    found (readRows s w y m.k.toNat (m.nm1.toNat + 1) m.koff.toNat) brows →
    exec (.mconv m) s = .next (mcmdDone s a c m [m.sta, m.stb] (productOf s a c m rows brows []))) ∧
  (∀ (m : MCmd) (s : State) (d n q : Nat), arrayBegins s d n q m [m.sta] = true →
    let a := d * 16 + n
    let c := quadCore a q
    let x := strA s c m
    let w := whoArray s c
    plainRule m s c = none →
    (∀ keys, tileEcc s a m.acc.toNat (Nat.min (m.mm1.toNat + 1) x.rows) (Nat.min (m.nm1.toNat + 1) x.ext0.toNat) = false →
      found (MRd.list (fun r => outRow s w x (Nat.min (m.nm1.toNat + 1) x.ext0.toNat) r) (Nat.min (m.mm1.toNat + 1) x.rows) 0) keys →
      exec (.mout m) s = .next (mcmdDone s a c m [m.sta]
        { tiles := (s.array a).tiles,
          mem := outMem x.et s.mem (wordsAt (s.array a) m.acc.toNat keys),
          outs := outDies s w x keys })) ∧
    (∀ keys va vs, tileEcc s a m.acc.toNat (Nat.min (m.mm1.toNat + 1) x.rows) (Nat.min (m.nm1.toNat + 1) x.ext0.toNat) = false →
      foundAsking (MRd.list (fun r => outRow s w x (Nat.min (m.nm1.toNat + 1) x.ext0.toNat) r) (Nat.min (m.mm1.toNat + 1) x.rows) 0)
        keys (va :: vs) → (s.core c).ring.host = .idle → exec (.mout m) s = .next (askCommand s c va 0)) ∧
    (∀ rows, found (readRows s w x (m.mm1.toNat + 1) (m.nm1.toNat + 1) 0) rows →
      exec (.macc m) s = .next (mcmdDone s a c m [m.sta]
        { tiles := putRows m.acc.toNat 0 (rows.map (fun r => r.map (macc x.et))) (s.array a).tiles,
          mem := cleanWords s.mem a (tileKey m.acc.toNat 0 0) (m.mm1.toNat + 1) (m.nm1.toNat + 1) }))) ∧
  (∀ (m : MCmd) (s : State) (d n q : Nat) (keys : List (List Nat)) (va w : Word) (vs : List Word) (k : Nat) (ok : Bool),
    arrayGoesOn s d n q m [m.sta] = true →
    let a := d * 16 + n
    let c := quadCore a q
    let x := strA s c m
    plainRule m s c = none →
    tileEcc s a m.acc.toNat (Nat.min (m.mm1.toNat + 1) x.rows) (Nat.min (m.nm1.toNat + 1) x.ext0.toNat) = false →
    foundAsking (MRd.list (fun r => outRow s (whoArray s c) x (Nat.min (m.nm1.toNat + 1) x.ext0.toNat) r)
      (Nat.min (m.mm1.toNat + 1) x.rows) 0) keys (va :: vs) → (s.core c).ring.host = .answered w k ok →
    (ok = true → k = vs.length → exec (.mout m) s = .next (mcmdDone s a c m [m.sta]
      { tiles := (s.array a).tiles, mem := outMem x.et s.mem (wordsAt (s.array a) m.acc.toNat keys),
        outs := outDies s (whoArray s c) x keys })) ∧
    (∀ va', ok = true → vs[k]? = some va' → exec (.mout m) s = .next (askCommand s c va' (k + 1))) ∧
    (ok = false → exec (.mout m) s = .next (ringStop s a c 0x05 w)))

/-- R179, R182, R187, R188, R189, R195 and R273: a command that begins consumes AWAIT, with its effect or with its first request to the
host; it passes RD and executes with its RAISE, and its charge is added to what every halving that is due has left; LEASE_GRANT gives the lease to
the grantee; a completed command raises its semaphore unless that is 31, and is held while its count stands at 65,535; halving
halves the quad's charges once for each 16,000 ns. -/
def Obligations.MatrixEvents : Prop :=
  (∀ (s : State) (a c : Nat) (m : MCmd) (strms : List (BitVec 4)) (e : MEff),
    let t := mcmdDone s a c m strms e
    (t.core c).ring.rd = (s.core c).ring.rd + 1 ∧ (t.core c).ring.begun = none ∧ t.mem = e.mem ∧ (t.array a).tiles = e.tiles ∧
    (t.array a).exec = some { core := c, osc := (s.th c).job.osc, raise := m.raise, acc := m.acc, strms := strms,
                              word := recordNow s c } ∧
    ((s.core c).ring.begun = none → awaitOf s c ≠ 31 → semOf t c (awaitOf s c) = semOf s c (awaitOf s c) - 1) ∧
    ((s.core c).ring.begun ≠ none → ∀ j, semOf t c j = semOf s c j) ∧
    ((s.core c).ring.rd + 1 = (s.core c).ring.wr → (t.array a).lease = none)) ∧
  (∀ (s : State) (c n : Nat) (va : Word),
    let t := askCommand s c va n
    (t.core c).ring.begun = some (recordNow s c) ∧ (t.core c).ring.host = .sent va n ∧ (t.core c).ring.rd = (s.core c).ring.rd ∧
    t.mem = s.mem ∧ ((s.core c).ring.begun = none → awaitOf s c ≠ 31 → semOf t c (awaitOf s c) = semOf s c (awaitOf s c) - 1) ∧
    ((s.core c).ring.begun ≠ none → ∀ j, semOf t c j = semOf s c j)) ∧
  (∀ (s : State) (a q : Nat) (m : MCmd) (strms : List (BitVec 4)) (e : MEff) (x : Nat), a < 128 → q < 4 → e.charge = some x →
    let t := mcmdDone s a (quadCore a q) m strms e
    (t.core (quadCore a q)).lease.last = BitVec.ofNat 32 x ∧ (t.core (quadCore a q)).lease.charge =
      BitVec.ofNat 32 (Nat.min (2 ^ 32 - 1) ((chargeNow s (quadCore a q)).toNat + x))) ∧
  (∀ (d n q : Nat) (s : State), (s.array (d * 16 + n)).lease = none → grantee s (d * 16 + n) = some q →
    ∃ t, exec (.leaseGrant d n) s = .next t ∧ (t.array (d * 16 + n)).lease = some q ∧ (t.array (d * 16 + n)).begun = 0 ∧
      (t.array (d * 16 + n)).lastGrant = q ∧ t.mem = s.mem) ∧
  (∀ (d n : Nat) (s : State) (x : CmdRun), (s.array (d * 16 + n)).exec = some x →
    let k := x.raise.toNat
    let idle := fun (s : State) => s.setArray (d * 16 + n) { s.array (d * 16 + n) with exec := none }
    (k = 31 → exec (.matrixCommandComplete d n) s = .next (idle s)) ∧
    (k ≠ 31 → semOf s x.core k = 0xFFFF → exec (.matrixCommandComplete d n) s = .next s) ∧
    (k ≠ 31 → semOf s x.core k ≠ 0xFFFF → exec (.matrixCommandComplete d n) s =
      .next (idle (setSemOf s x.core k (semOf s x.core k + 1))))) ∧
  (∀ (d n : Nat) (s : State), (s.array (d * 16 + n)).halved < (s.die d).time.gtime.toNat / 16000 → n < 16 →
    ∃ t, exec (.leaseChargeHalve d n) s = .next t ∧ (t.array (d * 16 + n)).halved = (s.array (d * 16 + n)).halved + 1 ∧
      ∀ q < 4, (t.core (quadCore (d * 16 + n) q)).lease.charge = (s.core (quadCore (d * 16 + n) q)).lease.charge >>> 1)

/-! ### Records -/

namespace Sys2Proof.Ob

/-- The walker of launch l moves. -/
def walks (s : State) (l : Nat) : Bool := decide (s.agent = .walker l)

/-- Launch l at another record, walking. -/
def atRecord (s : State) (l : Nat) (pc : Word) : State := s.setLaunch l { s.launch l with pc := pc, walk := .run }

/-- The launch's stream walker. -/
def streamOf_ (l : Nat) : Walker := { l := l, f := none }

/-- The KEEP wait of a record is over (R357). -/
def kept (s : State) (l : Nat) (keep : BitVec 8) : Bool :=
  (s.launch l).walk == .keepDone || keepOver s (streamOf_ l) keep.toNat

end Sys2Proof.Ob

/-- R34, R353, R36, R284 and R312: JMP, SYNC, END, IFC, WHL, SIGH and CNCL on a launch's stream; every record but those that jump or
wait goes on to the next, 32 bytes on. -/
def Sys2Proof.Ob.recordResult : Prop :=
  ∀ (l : Nat) (s : State), walks s l = true →
    let x := s.launch l
    let w := streamOf_ l
    let next := atRecord s l (x.pc + 32)
    let at_ := fun (off : BitVec 32) => x.pc + 32 * off.signExtend 64
    (∀ off, exec (.jmp off) s = .next (atRecord s l (at_ off))) ∧
    exec .seqEnd s = .next (s.setLaunch l { x with walk := .ended }) ∧
    (∀ keep, exec (.sync keep) s = .next (if kept s l keep then next else s.setLaunch l { x with walk := .keep keep.toNat })) ∧
    (∀ off cwi keep v, kept s l keep = true → condRead s w cwi = .ok v →
      exec (.ifc off cwi keep) s =
        .next (atRecord (condAcquire s w cwi) l (if v = 0 then at_ off else x.pc + 32))) ∧
    (∀ off cwi keep bound v, kept s l keep = true → condRead s w cwi = .ok v → whileEntry x.pc x.whiles = none →
      x.whiles.length < 8 → bound ≠ 0 → ∃ t, exec (.whl off cwi keep bound) s = .next t ∧
        (v = 0 → (t.launch l).pc = at_ off ∧ (t.launch l).whiles = x.whiles) ∧
        (v ≠ 0 → (t.launch l).pc = x.pc + 32 ∧ (t.launch l).whiles = (x.pc, 1) :: x.whiles)) ∧
    (∀ keep value t, kept s l keep = true → postEvent s x.ctx value x.slot (shownQueue x.queue) 1 x.die = some t →
      exec (.sigh keep value) s = .next (nextRec t w)) ∧
    (∀ scope wait, (s.scope scope.toNat).st = .free → exec (.cncl scope wait) s = .next next) ∧
    (∀ (scope : BitVec 16) wait, inSubtree s scope.toNat x.pkt.scope.toNat = true → ∃ t, exec (.cncl scope wait) s = .next t ∧
      t.hg.reqs = s.hg.reqs ++ [{ scope := scope.toNat, home := (s.scope scope.toNat).home, by_ := .walker l, ctx := x.ctx,
                                  root := some x.pkt.scope.toNat }] ∧
      (t.launch l).walk = .cnclReq wait ∧ (t.launch l).pc = x.pc + 32)

/-- R34, R35, R354, R231 and R232: OPR and XFER enter the scoreboard with what their record and their OPB say; TNEW makes a record of
the descriptor, TDEL frees one that nothing uses, TPIN sets PIN. -/
def Sys2Proof.Ob.operatorRecordResult : Prop :=
  ∀ (l : Nat) (s : State), walks s l = true →
    let x := s.launch l
    let w := streamOf_ l
    (∀ (r : OprRec) v entry loops, boardFull s w = false → inSubtree s r.scope.toNat x.pkt.scope.toNat = true →
      rectValid s x.ctx r.rect = true → rectWithin r.rect x.pkt.rect = true → outsOk s w ([r.out0, r.out1].map normHandle) = true →
      handlesLive s x.ctx ([r.in0, r.in1, r.in2, r.in3].map normHandle ++ [r.out0, r.out1].map normHandle) = true →
      seqRead s x.ctx x.die 8 8 (x.pkt.opbtab + 64 * r.opbi.zeroExtend 64) = .ok v → readOpb v = some (entry, loops) →
      ∃ t o y, exec (.opr r) s = .next t ∧ t.op o = some y ∧ y.launch = l ∧ y.num = x.entered ∧ y.prio = r.prio ∧
        y.tclass = r.tclass ∧ y.rect = r.rect ∧ y.scope = r.scope ∧ y.entry = entry ∧ y.loops = loops ∧ y.issued = false ∧
        y.left = stepCount loops ∧ (t.launch l).entered = x.entered + 1 ∧ (t.launch l).pc = x.pc + 32 ∧ t.mem = s.mem) ∧
    (∀ (prio : BitVec 5) (tier : BitVec 3) (scope : BitVec 16) (h : BitVec 32), boardFull s w = false → tier.toNat < 3 →
      inSubtree s scope.toNat x.pkt.scope.toNat = true → (liveTensor s x.ctx h).isSome = true →
      ∃ t o y, exec (.xfer prio tier scope h) s = .next t ∧ t.op o = some y ∧ y.tier = some tier.toNat ∧ y.ins = [h] ∧
        y.launch = l ∧ y.prio = prio ∧ y.scope = scope ∧ (t.launch l).pc = x.pc + 32 ∧ t.mem = s.mem) ∧
    (∀ (h : BitVec 32) (desc : Word) v rs n, handleKey s x.ctx h = some n → nbits h.toNat 8 20 ≠ 0 → desc.toNat % 8 = 0 →
      seqRead s x.ctx x.die 8 8 desc = .ok v → descBad v = false → (tensorAt s n).st = .free →
      (tensorAt s n).gen = h.extractLsb' 0 8 → nbits v 10 1 = 1 →
      seqRead s x.ctx x.die 32 (nbits v 256 5) (BitVec.ofNat 64 (nbits v 192 64)) = .ok rs →
      ∃ t y, exec (.tnew h desc) s = .next t ∧ t.tensor n = some y ∧ y.st = .dropped ∧ y.ctx = x.ctx ∧
        y.gen = h.extractLsb' 0 8 ∧ y.desc = desc ∧ y.rlen = nbits v 256 5 ∧ (t.launch l).pc = x.pc + 32 ∧ t.mem = s.mem) ∧
    (∀ (h : BitVec 32), liveTensor s x.ctx h = none → exec (.tdel h) s = .next (atRecord s l (x.pc + 32))) ∧
    (∀ (h : BitVec 32) n, liveTensor s x.ctx h = some n → inUse s n = false → frameFor s n = none → (tensorAt s n).move = none →
      (dependents s n).filter (fun d => d ≠ n) = [] →
      exec (.tdel h) s = .next (nextRec (freeTensor (clearReaders s n) n) w)) ∧
    (∀ (h : BitVec 32) n, liveTensor s x.ctx h = some n → (tensorAt s n).st ≠ .dropped → ∀ pin,
      exec (.tpin h pin) s = .next (nextRec (s.setTensor n { tensorAt s n with pin := pin }) w))

/-- R34, R353, R36, R284 and R312: JMP, SYNC, END, IFC, WHL, SIGH and CNCL on a launch's stream; every record but those that
jump or wait goes on to the next, 32 bytes on. R34, R35, R354, R231 and R232: OPR and XFER enter the scoreboard with what
their record and their OPB say; TNEW makes a record of the descriptor, TDEL frees one that nothing uses, TPIN sets PIN. -/
def Obligations.StreamRecordResult : Prop :=
  Sys2Proof.Ob.recordResult ∧ Sys2Proof.Ob.operatorRecordResult


namespace Sys2Proof.Ob

/-- Loop j's word of an OPB's 512 bits. -/
def loopWord (v j : Nat) : Nat := nbits v (128 + 64 * j) 64

/-- The ORD fields of the first n loops. -/
def ords (v n : Nat) : List Nat := (List.range n).map (fun j => nbits (loopWord v j) 48 3)

end Sys2Proof.Ob

/-- R38: the cases in which an OPB is malformed; the words of loops from NLOOP on are ignored whole. -/
def Obligations.OpbMalformedCases : Prop :=
  (∀ v : Nat, v < 2 ^ 512 →
    let n := nbits v 64 3
    (readOpb v = none ↔ (nbits v 57 7 ≠ 0 ∨ nbits v 67 61 ≠ 0 ∨ ∃ j < n, nbits (loopWord v j) 51 13 ≠ 0) ∨ (n = 0 ∨ n = 7) ∨
      (∃ j < n, nbits (loopWord v j) 32 16 = 0 ∨ nbits (loopWord v j) 0 32 = 0) ∨ ¬ (ords v n).Perm (List.range n))) ∧
  (∀ u v : Nat, u % 2 ^ (128 + 64 * nbits v 64 3) = v % 2 ^ (128 + 64 * nbits v 64 3) → readOpb u = readOpb v)

/-! ### Flume packets -/

namespace Sys2Proof.Ob

/-- The packet waits for no answer of the host, and none of its requests has been refused (R273). -/
def answered (r : PRun) : Bool := match r.host with
  | .idle | .answered _ _ true => true
  | _ => false

/-- The engine of queue q moves with packet r, in the tests of its form, which is to stop at no kill point (R60) and waits for no answer. -/
def engine (s : State) (q : Nat) (r : PRun) : Bool :=
  decide (s.agent = .flume q) && decide (s.run q = some r) && decide (r.phase = .form) && decide (r.park = .run) &&
    answered r

/-- Packet r of queue q goes on at its next kill point: neither cancelled nor reset, not ended by its partners, not parked (R60). -/
def goesOn (s : State) (q : Nat) (r : PRun) : Bool := r.stopAs.isNone && !packetDead s q r && decide (r.park = .run)

/-- The packets with the test of their form. -/
def packetForms : List ((FPkt → Instr) × (State → Nat → PRun → FPkt → PTest)) := [
  (.flcopy, formTest), (.flfill, formTest), (.flred, formTest), (.flstmp, fun _ _ r _ => .pass r), (.flcoll, collForm)]

/-- The scope of a packet is open and its context's (R359). -/
def packetLive (s : State) (q : Nat) (p : FPkt) : Bool :=
  let x := s.scope p.scope.toNat
  decide (x.st = .live) && decide (x.ctx = qCtx s q)

/-- What each of the matched packets contributes, in order of position: its source where the operation reads it (R216, R217). -/
def contributions (s : State) (xs : List (Nat × PRun × FPkt × Claim)) : List (List Byte) :=
  (List.range xs.length).map (fun m => match xs[m]? with
    | some (_, _, p, c) => if collReads p m then s.mem.readBytes (collKey c p.src) p.len.toNat else []
    | none => [])

/-- The bytes that n elements of packet r bring into a slot: `ks` the places of their sources, `old` the bytes of the slot (R168,
R215). -/
def slotData (s : State) (r : PRun) (n : Nat) (ks : Nat → Option (List Nat)) (old : List Byte) : List Byte :=
  let w := r.dst.lay.width
  (List.range n).flatMap (fun i => newBytes r ((r.next + i) * w) w (readKeys s w (ks i)) ((old.drop (i * w)).take w))

end Sys2Proof.Ob

/-- R359, R76 and R116: a packet whose form and scope pass meets its not-before time: it waits for it, or goes on to its ranges (an
FLCOLL to its partners); one whose scope is FREE or another context's, or whose form fails, ends so whatever its partners have done, and only then do partners that
have ended end an FLCOLL; FLSTMP ends DONE. -/
def Obligations.PacketResult : Prop :=
  (∀ p ∈ packetForms, ∀ (k : FPkt) (s : State) (q : Nat) (r r' : PRun), engine s q r = true → r.reset = false →
    packetLive s q k = true → p.2 s q { r with ins := p.1 k } k = .pass r' → r'.reset = false → collEnded s q r' = none →
    ((s.gtime (qDie s q)).toNat < k.nbt.toNat → exec (p.1 k) s = .next (s.setRun q { r' with phase := .nbt })) ∧
    (k.nbt.toNat ≤ (s.gtime (qDie s q)).toNat → exec (p.1 k) s = .next (afterTime s q r' k))) ∧
  (∀ p ∈ packetForms, ∀ (k : FPkt) (s : State) (q : Nat) (r : PRun), engine s q r = true →
    ((s.scope k.scope.toNat).st = .free ∨ (s.scope k.scope.toNat).ctx ≠ qCtx s q) →
    exec (p.1 k) s = .next (cutPacket s q { r with ins := p.1 k } 3)) ∧
  (∀ p ∈ packetForms, ∀ (k : FPkt) (s : State) (q : Nat) (r r' : PRun) (st : BitVec 8), engine s q r = true →
    (s.scope k.scope.toNat).st ≠ .free → (s.scope k.scope.toNat).ctx = qCtx s q →
    (p.2 s q { r with ins := p.1 k } k = .stop st → exec (p.1 k) s = .next (cutPacket s q { r with ins := p.1 k } st)) ∧
    (p.2 s q { r with ins := p.1 k } k = .pass r' → collEnded s q r' = some st → exec (p.1 k) s = .next (endPacket s q r' st))) ∧
  (∀ (k : FPkt) (s : State) (q : Nat) (r : PRun), engine s q r = true → r.reset = false → packetLive s q k = true →
    k.nbt.toNat ≤ (s.gtime (qDie s q)).toNat → k.dc = false →
    tensorTests s q { r with ins := .flstmp k } k = .pass { r with ins := .flstmp k } →
    ∃ t y, exec (.flstmp k) s = .next t ∧ t.run q = some y ∧ y.phase = .complete ∧ y.status = 1 ∧ t.mem = s.mem)

/-- R76, R214, R60, R273, R217, R168: the events of a packet: its time comes; a unit moves, but not where the packet is cancelled
between units or the host refused a request; one that a host-held line stops inside is finished first (R229); partners that agree
form, each with the bytes it is to write, the concatenation for op 6 and the root's for op 7: that each contribution is read at
the forming is the model's reading (DEDUCED, log entry 36); a slot is delivered, with what a copy, a fill or a reduction brings
(that AUX[3:0] names the buffer of a fill or a reduction too: DEDUCED, log entry 67); a complete packet writes its count and its
stamp, for which it asks the host where they lie in HOST-U pages (that the stamp makes a host request of its own is the model's
reading: DEDUCED, log entry 14), and leaves; a refused request stops its queue. -/
def Obligations.PacketEvents : Prop :=
  (∀ (s : State) (q : Nat) (r : PRun) (p : FPkt), s.run q = some r → goesOn s q r = true → r.pkt = some p → r.phase = .nbt → exec (.notBeforeExpiry q) s =
      .next (if (s.gtime (qDie s q)).toNat < p.nbt.toNat then s else afterTime s q r p)) ∧
  (∀ (s : State) (q : Nat) (r : PRun) (p : FPkt), s.run q = some r → goesOn s q r = true ∨ (r.inUnit = true ∧ r.park = .run) →
    r.phase = .units →
    ((r.ins = .flcopy p ∨ r.ins = .flfill p ∨ r.ins = .flred p) → p.dc = false →
      ((r.host = .idle ∨ ∃ va n, r.host = .answered va n true) → exec (.packetUnitDone q) s = .next (moveUnit s q r)) ∧
      (∀ va n, r.host = .answered va n false → exec (.packetUnitDone q) s = .next (endPacket s q r 3))) ∧
    (r.ins = .flcoll p → exec (.packetUnitDone q) s = .next (collUnit s q r p))) ∧
  (∀ (s : State) (q : Nat) (r : PRun) (p : FPkt), s.run q = some r → packetDead s q r = true → r.stopAs = none → r.inUnit = false →
    r.phase = .units → r.host = .idle →
    ((r.ins = .flcopy p ∨ r.ins = .flfill p ∨ r.ins = .flred p) ∧ p.dc = false) ∨ r.ins = .flcoll p →
    exec (.packetUnitDone q) s = .next (cutPacket s q r 2)) ∧
  (∀ (s : State) (q : Nat) (r : PRun) (p : FPkt) (c : Claim) (xs : List (Nat × PRun × FPkt × Claim)), s.run q = some r →
    goesOn s q r = true → r.phase = .partners → r.ins = .flcoll p → r.claim = some c →
    (collPeers s q c p).all (fun x => collAgree p x.2.2) = true → collEnded s q r = none → collAll s q c p = some xs →
    (xs.map (fun x => x.1)).Nodup → xs.find? (fun x => packetDead s x.1 x.2.1) = none → collPoison s xs = false →
    ∃ t, exec (.collectiveForm q) s = .next t ∧ t.mem = s.mem ∧ t.cores = s.cores ∧ t.work.queues = s.work.queues ∧
      ∀ m k y p' d, xs[m]? = some (k, y, p', d) →
        t.run k = some { y with phase := .units, data := collResult p' m (contributions s xs) } ∧
        (collMem p' = false → collOp p' = 6 → collResult p' m (contributions s xs) = (contributions s xs).flatten) ∧
        (collMem p' = false → collOp p' = 7 →
          collResult p' m (contributions s xs) = (contributions s xs).getD (collRoot p') [])) ∧
  (∀ (s : State) (q : Nat) (r : PRun) (p : FPkt) (c off : Nat), s.run q = some r → goesOn s q r = true →
    r.phase = .units → r.host = .idle → r.pkt = some p → p.dc = true → r.done < r.total →
    windowTarget s (packetWho s q r none) p.dst.toNat = some (c, off) →
    let b := (s.th c).strm.cbAt (nbits p.aux.toNat 0 4)
    let key := slotKey c b b.wr 0
    b.inst = r.inst → b.count ≠ 0 → (6, nbits p.aux.toNat 0 4) ∉ (s.th c).marks → (b.free = 0 → exec (.cbSlotDeliver q) s = .next s) ∧
      (b.free ≠ 0 → ∀ (ks : Nat → Option (List Nat)) (n : Nat), n = b.slotBytes / r.dst.lay.width →
        (r.ins ≠ .flfill p → ∀ i < n, sideKeys s q r .read r.src (r.next + i) = .ok (ks i) []) →
        (r.ins = .flred p → s.mem.poisoned key b.slotBytes = false) →
        ∃ t, exec (.cbSlotDeliver q) s = .next t ∧ (t.th c).strm.cbAt (nbits p.aux.toNat 0 4) = b.advWr 1 ∧
          t.mem = s.mem.writeBytes key (slotData s r n ks (s.mem.readBytes key b.slotBytes)))) ∧
  (∀ (s : State) (q : Nat) (r : PRun) (p : FPkt) (x : QRec) (k0 k8 : Nat) (c0 c8 : Option Cls), s.run q = some r →
    s.queue q = some x → r.phase = .complete → r.pkt = some p → r.park = .run → r.reset = false → r.status ≠ 2 →
    packetCheck s q r none .write (p.stamp + 8) 8 = .ok k8 c8 → packetCheck s q r none .write p.stamp 8 = .ok k0 c0 →
    (answered r = true → hostAsk r (stampAsks p.stamp c8 c0) = none → ∃ t, exec (.packetComplete q) s = .next t ∧
      t.mem = (s.mem.writeNat k8 8 r.done).writeNat k0 8 (r.slot * 256 + r.status.toNat) ∧ t.run q = none) ∧
    (∀ va n, answered r = true → hostAsk r (stampAsks p.stamp c8 c0) = some (va, n) →
      exec (.packetComplete q) s = .next (s.setRun q { r with host := .sent va n })) ∧
    (∀ va n, r.host = .answered va n false → exec (.packetComplete q) s = .next (stampFails s q r x)))

/-! ### Events: time, clocks, power, waits -/

/-- R75, R325, R276, R273 and R209: an expiry, a poll, a wake, a snoop and a completion reach the wait they end; a HOST-U word is read
again by a request to the host; a block is filled, a HOST-U line of it requested first, and raises its semaphore. That code makes
requests of its own, completed after that of the strand's access, is the model's reading (DEDUCED, log entry 14). -/
def Sys2Proof.Ob.waitEvents : Prop :=
  (∀ (s : State) (c : Nat) (u : Word), (s.th c).job.wait = .timewait u none → u.toNat ≤ (gtimeOf s c).toNat →
    exec (.timewaitExpiry c) s = .next (setWait s c (.timewait u (some (gtimeOf s c))))) ∧
  (∀ (s : State) (c key : Nat) (va ref last : Word), (s.th c).job.wait = .mwait va key ref true last .none →
    (s.th c).job.host = .idle →
    (last.toNat + 1000 ≤ (gtimeOf s c).toNat → ∃ t, exec (.mwaitPoll c) s = .next t ∧ (t.th c).job.host = .sent va 0 ∧
      (t.th c).job.wait = .mwait va key ref true (gtimeOf s c) .none ∧ t.mem = s.mem) ∧
    ((gtimeOf s c).toNat < last.toNat + 1000 → exec (.mwaitPoll c) s = .next s)) ∧
  (∀ (s : State) (c key : Nat) (va ref last : Word), (s.th c).job.wait = .mwait va key ref false last .none →
    (hostWord key = false → exec (.mwaitWake c) s = .next (setWait s c (.mwait va key ref false last (mwaitRead s c va key ref)))) ∧
    (hostWord key = true → exec (.cxlCacheSnoop c ((key - hostKey 0) / 128)) s =
      .next (setWait s c (.mwait va key ref false last (mwaitRead s c va key ref))))) ∧
  (∀ (s : State) (c i n : Nat) (ok : Bool) (va : Word) (b : LoadBlock),
    let home := (s.ctx (s.ctxOf c)).home
    let end_ : HostSt := .answered va n (ok && s.portUp home)
    (∀ port, port ≠ home → exec (.cxlIoCompletion port (.strand c) ok) s = .next s) ∧
    ((s.th c).job.host = .sent va n → ∃ t, exec (.cxlIoCompletion home (.strand c) ok) s = .next t ∧ (t.th c).job.host = end_ ∧
      t.mem = s.mem) ∧
    ((s.th c).job.code = .sent va n → (∀ a k, (s.th c).job.host ≠ .sent a k) → ∃ t, exec (.cxlIoCompletion home (.strand c) ok) s = .next t ∧ (t.th c).job.code = end_ ∧
      t.mem = s.mem) ∧
    ((s.th c).q.vl.host = .sent va n → ∃ t, exec (.cxlIoCompletion home (.queue c 1) ok) s = .next t ∧ (t.th c).q.vl.host = end_ ∧
      t.mem = s.mem) ∧
    ((s.th c).q.vs.host = .sent va n → ∃ t, exec (.cxlIoCompletion home (.queue c 3) ok) s = .next t ∧ (t.th c).q.vs.host = end_ ∧
      t.mem = s.mem) ∧
    ((s.core c).ring.host = .sent va n → ∃ t, exec (.cxlIoCompletion home (.ring c) ok) s = .next t ∧
      (t.core c).ring.host = end_ ∧ t.mem = s.mem) ∧
    ((s.core c).banks.blocks[i]? = some b → b.host = .sent va n → ∃ t b', exec (.cxlIoCompletion home (.block c i) ok) s = .next t ∧
      (t.core c).banks.blocks[i]? = some b' ∧ b'.host = end_ ∧ t.mem = s.mem)) ∧
  (∀ (s : State) (q n : Nat) (ok : Bool) (va : Word) (r : PRun), s.run q = some r → r.host = .sent va n →
    exec (.cxlIoCompletion (s.ctx (qCtx s q)).home (.packet q) ok) s =
      .next (s.setRun q { r with host := .answered va n (ok && s.portUp (s.ctx (qCtx s q)).home) })) ∧
  (∀ (s : State) (c i : Nat) (b : LoadBlock), (s.core c).banks.blocks[i]? = some b → b.raised = false → b.bad = none →
    b.full = true → semBad s c b.sem.toNat = false → semOf s c b.sem.toNat ≠ 0xFFFF →
    exec (.loadblockFillDone c i) s = .next (setSemOf (setBlock s c i { b with raised := true }) c b.sem.toNat
      (semOf s c b.sem.toNat + 1))) ∧
  (∀ (s : State) (c i : Nat) (b : LoadBlock) (bs : List Byte), (s.core c).banks.blocks[i]? = some b → b.raised = false →
    b.bad = none → b.full = false → b.park = .run → b.host = .idle → fillLines s (s.whoThread c) 0 b.lines 0 b.va = .ok bs →
    ∃ t b', exec (.loadblockFillDone c i) s = .next t ∧ (t.core c).banks.blocks[i]? = some b' ∧ b'.full = true ∧ b'.data = bs ∧
      t.mem = s.mem) ∧
  (∀ (s : State) (c i k : Nat) (b : LoadBlock) (va : Word), (s.core c).banks.blocks[i]? = some b → b.raised = false →
    b.bad = none → b.full = false → b.park = .run → b.host = .idle → fillLines s (s.whoThread c) 0 b.lines 0 b.va = .ask va k →
    exec (.loadblockFillDone c i) s = .next (setBlock s c i { b with host := .sent va k }))

/-- R69 to R73: an exchange 1 ms on counts good ones and, at the twentieth, locks a die with ERR 4, wherever the clock it leaves keeps
the bound of R70; a millisecond without one adds to ERR, and above 16 the lock is lost and counted; 1 ms after the last the time
record takes GTIME, the PTM time and the bound, 40 ns wider by what ERR exceeds 4, and the causal stamp goes with it (R253). -/
def Sys2Proof.Ob.timeEvents : Prop :=
  (∀ (s : State) (d : Nat) (est : Int), d < 18 → (s.die d).time.exchAt.toNat + 1000000 ≤ (s.die d).time.gtime.toNat →
    timeOk (s.setDie d { s.die d with time := exchange (s.die d).time est }) = true →
    ∃ t, exec (.gtimeExchange d est) s = .next t ∧ t.mem = s.mem ∧
      let x := (s.die d).time
      let y := (t.die d).time
      (¬ (-4 ≤ est ∧ est ≤ 4) → y.good = 0 ∧ y.st = x.st ∧ y.err = x.err) ∧
      (-4 ≤ est → est ≤ 4 → x.good ≠ 255 → y.good = x.good + 1) ∧
      (-4 ≤ est → est ≤ 4 → x.st = .locked → y.err = 4 ∧ y.st = .locked ∧ y.gtime = x.gtime) ∧
      (-4 ≤ est → est ≤ 4 → x.st ≠ .locked → x.good.toNat < 19 → y.st = x.st ∧ y.gtime = x.gtime) ∧
      (-4 ≤ est → est ≤ 4 → x.st ≠ .locked → 19 ≤ x.good.toNat → y.st = .locked ∧ y.err = 4)) ∧
  (∀ (s : State) (d : Nat), d < 18 → (s.die d).time.errAt.toNat + 1000000 ≤ (s.die d).time.gtime.toNat →
    ∃ t, exec (.syncErrTick d) s = .next t ∧
      let x := (s.die d).time
      let y := (t.die d).time
      y.good = 0 ∧ (x.st = .free → y.err = x.err ∧ y.st = .free) ∧
      (x.st = .locked → x.err.toNat < 16 → y.err = x.err + 1 ∧ y.st = .locked) ∧
      (x.st = .locked → x.err.toNat = 16 → y.err = 17 ∧ y.st = .lost ∧ (x.losses ≠ 0xFFFF → y.losses = x.losses + 1))) ∧
  (∀ (s : State) (port : Port) (ptm : Word), s.mgmt.timerec ≠ 0 → port = (if s.mgmt.ptmctl.getLsbD 0 then .b else .a) →
    s.portUp port = true →
    s.mgmt.recAt.toNat + 1000000 ≤ (s.gtime 16).toNat → exec (.timeRecordWrite port ptm) s =
    .next { sendStamp s 16 (if port = .b then 17 else 16) with
      mem := ((s.mem.writeNat (hostKey s.mgmt.timerec.toNat) 8 (s.gtime 16).toNat).writeNat
        (hostKey s.mgmt.timerec.toNat + 8) 8 ptm.toNat).writeNat
          (hostKey s.mgmt.timerec.toNat + 16) 8 (40 + ((s.die 16).time.err.toNat - 4)),
      mgmt := { s.mgmt with recAt := s.gtime 16 } })

/-- R75, R325, R276, R273 and R209: an expiry, a poll, a wake, a snoop and a completion reach the wait they end; a HOST-U
word is read again by a request to the host; a block is filled, a HOST-U line of it requested first, and raises its
semaphore. That code makes requests of its own, completed after that of the strand's access, is the model's reading (DEDUCED,
log entry 14). R69 to R73: an exchange 1 ms on counts good ones and, at the twentieth, locks a die with ERR 4, wherever the
clock it leaves keeps the bound of R70; a millisecond without one adds to ERR, and above 16 the lock is lost and counted; 1
ms after the last the time record takes GTIME, the PTM time and the bound, 40 ns wider by what ERR exceeds 4, and the causal
stamp goes with it (R253). -/
def Obligations.WaitAndTimeEvents : Prop :=
  Sys2Proof.Ob.waitEvents ∧ Sys2Proof.Ob.timeEvents


/-- R16, R14, R15, R18, R19 and R304: every 10 µs HEADROOM follows BUDGET less the draw in steps of 64 mW, and FMAX; above its budget, or
above 105 °C, a core's loop lowers its clock, and above its budget an array's and a die's (by how much is a free value, log entry 64;
an I/O die's too is the model's choice there); a clock in its range and within what its
block may draw changes and completes (what an event carries: log entry 18; what an error poisons: log entry 16);
a sample and a scrub keep their periods; soft errors count on the die that holds them. -/
def Sys2Proof.Ob.powerEvents : Prop :=
  (∀ (s : State) (c draw fmax : Nat), c < 512 → (s.core c).power.headAt.toNat + 10000 ≤ (gtimeOf s c).toNat →
    columnDown s c = false → hot s c = false → draw ≤ (Config.budget c).toNat →
    ∃ t, exec (.headroomRefresh c draw fmax) s = .next t ∧ (t.core c).power.headAt = gtimeOf s c ∧
      (t.core c).power.head = BitVec.ofNat 16 ((Config.budget c).toNat - draw) ∧
      (t.core c).power.cls.toNat = Nat.min 15 (((Config.budget c).toNat - draw) / 64) ∧
      (600 ≤ fmax → fmax ≤ 2100 → (t.core c).power.fmax.toNat = fmax) ∧ t.mem = s.mem ∧ t.th c = s.th c) ∧
  (∀ (s : State) (c draw fmax : Nat), (gtimeOf s c).toNat < (s.core c).power.headAt.toNat + 10000 →
    exec (.headroomRefresh c draw fmax) s = .next s) ∧
  (∀ (s : State) (c draw fmax : Nat), c < 512 → (s.core c).power.headAt.toNat + 10000 ≤ (gtimeOf s c).toNat →
    columnDown s c = false → ((Config.budget c).toNat < draw ∨ hot s c = true) → (s.core c).power.change = none →
    600 < (s.core c).power.mhz → ∃ t m, exec (.headroomRefresh c draw fmax) s = .next t ∧ (t.core c).power.change = some m ∧
      600 ≤ m ∧ m < (s.core c).power.mhz ∧ t.mem = s.mem) ∧
  (∀ (s : State) (c mhz draw : Nat), c < 512 → 600 ≤ mhz → mhz ≤ 2100 → (s.core c).power.change = none → columnDown s c = false →
    (mhz ≤ (s.core c).power.mhz ∨
      (draw ≤ (Config.budget c).toNat ∧ hot s c = false ∧ mhz ≤ (s.core c).power.fmax.toNat)) →
    exec (.clockChange (.core c) { mhz := mhz, draw := draw }) s =
      .next (s.setCore c { s.core c with power := { (s.core c).power with change := some mhz } })) ∧
  (∀ (s : State) (c mhz draw : Nat), (s.core c).power.mhz < mhz →
    ((Config.budget c).toNat < draw ∨ hot s c = true ∨ (s.core c).power.fmax.toNat < mhz) →
    exec (.clockChange (.core c) { mhz := mhz, draw := draw }) s = .next s) ∧
  (∀ (s : State) (c mhz : Nat), (s.core c).power.change = some mhz → exec (.clockChangeDone (.core c)) s =
      .next (s.setCore c { s.core c with power := { (s.core c).power with mhz := mhz, change := none } })) ∧
  (∀ (s : State) (d n mhz draw : Nat), d < 8 → n < 16 → 600 ≤ mhz → mhz ≤ 2100 → (s.array (d * 16 + n)).change = none →
    arrayDown s (d * 16 + n) = false → ∃ t m, exec (.clockChange (.array d n) { mhz := mhz, draw := draw }) s = .next t ∧
      (t.array (d * 16 + n)).change = some m ∧ t.mem = s.mem ∧ t.cores = s.cores ∧
      ((mhz < (s.array (d * 16 + n)).mhz ∨ draw ≤ Config.arrayBudget (d * 16 + n)) → m = mhz) ∧
      (Config.arrayBudget (d * 16 + n) < draw → 600 < (s.array (d * 16 + n)).mhz → m < (s.array (d * 16 + n)).mhz ∧ 600 ≤ m)) ∧
  (∀ p ∈ ([(.mem, 8, 8, 1600), (.io, 2, 16, 1000)] : List ((Nat → Block) × Nat × Nat × Nat)), ∀ (s : State) (i mhz draw : Nat),
    let die := p.2.2.1 + i
    let x := s.die die
    i < p.2.1 → lowPoint die ≤ mhz → mhz ≤ p.2.2.2 → (p.2.1 = 2 → Config.dieBudget die < draw ∨ mhz = 1000) → x.change = none →
    x.sensors.any (fun y => y.inForce) = false →
    ∃ t m, exec (.clockChange (p.1 i) { mhz := mhz, draw := draw }) s = .next t ∧ (t.die die).change = some m ∧ t.mem = s.mem ∧
      t.cores = s.cores ∧ ((mhz < x.mhz ∨ draw ≤ Config.dieBudget die) → m = mhz) ∧
      (Config.dieBudget die < draw → lowPoint die < x.mhz → m < x.mhz ∧ lowPoint die ≤ m)) ∧
  (∀ d, d < 8 → (Config.stack d).foldl (· + ·) 0 ≤ 160000) ∧
  (∀ (s : State) (d : Nat) (temps : List Int) (powers : List Nat), d < 18 → temps.length = (s.die d).sensors.length →
    powers.length = (s.die d).sensors.length → (s.die d).sampleAt.toNat + 1000000 ≤ (s.die d).time.gtime.toNat →
    ∃ t, exec (.sensorSample d temps powers) s = .next t ∧ (t.die d).sampleAt = (s.die d).time.gtime ∧ t.mem = s.mem) ∧
  (∀ (s : State) (d : Nat), 8 ≤ d → d < 16 → (s.die d).scrubAt.toNat + 86400000000000 ≤ (s.die d).time.gtime.toNat →
    exec (.hbmScrub d) s = .next (s.setDie d { s.die d with scrubAt := (s.die d).time.gtime })) ∧
  (∀ (s : State) (d key : Nat), d < 18 →
    (∃ t, exec (.eccCorrected d) s = .next t ∧ t.mem = s.mem ∧ (t.die d).ue = (s.die d).ue ∧
      (t.die d).ce = (if (s.die d).ce = BitVec.allOnes 32 then (s.die d).ce else (s.die d).ce + 1)) ∧
    (key < 2 ^ 56 → eccAt s d key = true → ∃ t, exec (.eccUncorrectable d key) s = .next t ∧ t.mem.bytes = s.mem.bytes ∧
      (t.die d).ue = (if (s.die d).ue = BitVec.allOnes 32 then (s.die d).ue else (s.die d).ue + 1) ∧
      ∀ j, j / 128 = key / 128 → j ∈ t.mem.poison))

/-! ### Events: faults, verdicts, invalidations, the driver's registers -/

/-- R282, R283, R226 and R227: the oldest fault record is posted where its queue has room; a verdict on an open FID closes it and
settles its agent, on any other, or on the page of a context that does not exist, it is counted; an INVAL is acknowledged in
order, once no request to the host is open that used its translations, which are dropped, and armed monitors translate again; the host's registers take what is written. That a FID is open from the posting of its record is
the model's reading (log entry 31), and that TIMEREC drops the three low bits its choice (log entry 62). -/
def Obligations.FaultEvents : Prop :=
  (∀ (s : State) (d log : Nat) (f : FaultRec) (fs : List FaultRec), (s.die d).faults = f :: fs →
    let r := (s.ctx f.ctx).regs
    hostQueueLog r.fqbase = some log → (r.fqwr - r.fqrd).toNat < 2 ^ log → ∃ t, exec (.faultRecordPost d) s = .next t ∧
      t.mem = writeFault s.mem (hostQueueKey r.fqbase log r.fqwr.toNat) f (s.gtime d) ∧ (t.die d).faults = fs ∧
      t.work.fids = s.work.fids ++ [f] ∧ (t.ctx f.ctx).regs.fqwr = r.fqwr + 1) ∧
  (∀ (s : State) (port : Port) (ctx : Nat) (fid : BitVec 32) (x : FaultRec), verdictActs s port ctx = true →
    s.work.fids.find? (fun y => y.ctx == ctx && BitVec.ofNat 32 y.fid == fid) = some x →
    let t : State := { s with work := { s.work with fids := s.work.fids.filter (fun y => y.fid != x.fid) } }
    exec (.verdictRetry port ctx fid) s = .next (settleAgent t x none) ∧
    exec (.verdictUnresolvable port ctx fid) s = .next (settleAgent t x (some x.va))) ∧
  (∀ (s : State) (ctx : Nat) (fid : BitVec 32), verdictActs s .a ctx = true →
    s.work.fids.find? (fun y => y.ctx == ctx && BitVec.ofNat 32 y.fid == fid) = none →
    ∃ t, exec (.verdictRetry .a ctx fid) s = .next t ∧ t.work = s.work ∧
      t.mgmt.vrefA = (if s.mgmt.vrefA = 0xFFFF then s.mgmt.vrefA else s.mgmt.vrefA + 1)) ∧
  (∀ (s : State) (ctx : Nat) (val : Word), pageActs s ctx = true → exec (.inval ctx val) s =
    .next (s.setCtx ctx { s.ctx ctx with invals := (s.ctx ctx).invals ++ [val] })) ∧
  (∀ (s : State) (ctx : Nat) (v : Word) (vs : List Word), (s.ctx ctx).invals = v :: vs →
    ((openAsks s ctx).any (fun va => invalCovers v (va.toNat / 4096)) = true → exec (.invalidationAck ctx) s = .next s) ∧
    ((openAsks s ctx).any (fun va => invalCovers v (va.toNat / 4096)) = false → ∃ t, exec (.invalidationAck ctx) s = .next t ∧ (t.ctx ctx).invals = vs ∧
      (t.ctx ctx).regs.invdone = (s.ctx ctx).regs.invdone + 1 ∧ t.mem = s.mem ∧
      (∀ e ∈ t.tlb, e ∈ s.tlb ∧ (e.ctx = ctx → invalCovers v e.page = false)) ∧
      (∀ e ∈ s.tlb, e.ctx ≠ ctx → e ∈ t.tlb) ∧
      ∀ c, (t.th c).regs = (s.th c).regs ∧ (t.th c).pos = (s.th c).pos ∧
        ∀ va key ref u last, (s.th c).job.wait = .mwait va key ref u last .none → (s.core c).bind.ctx = some ctx →
          (t.th c).job.wait = (if inWindow va.toNat = false ∧ invalCovers v (va.toNat / 4096) = true then .none
            else .mwait va key ref u last .none))) ∧
  (∀ (s : State) (ctx : Nat) (h : BitVec 32), pageActs s ctx = true → exec (.trh ctx h) s =
    .next (setRegs s ctx { (s.ctx ctx).regs with trh := h })) ∧
  (∀ (s : State) (port : Port) (ctx : Nat) (val : Word), hostPort s port = true → pageActs s ctx = true →
    exec (.hostRegisterWrite port (.crbase ctx) val) s = .next (setRegs s ctx { (s.ctx ctx).regs with crbase := val }) ∧
    exec (.hostRegisterWrite port (.fqrd ctx) val) s = .next (setRegs s ctx { (s.ctx ctx).regs with fqrd := val }) ∧
    (s.mgmt.owner = some port → ∃ t, exec (.hostRegisterWrite port .timerec val) s = .next t ∧
      t.mgmt.timerec = val &&& ~~~7 ∧ t.mem = s.mem))

/-- R52, R53, R281 and R211: the driver's scope and queue commands answer in SCOPERES and QRES. What the two registers hold after a
command that creates nothing is the model's reading (log entries 23 and 24). -/
def Obligations.DriverEvents : Prop :=
  (∀ (s : State) (ctx home n : Nat), pageActs s ctx = true → inService s home = true →
    (selfDie (s.ctx ctx).vdmap home).isSome = true → (s.ctx ctx).dying = false → pickScope s = some n →
    ∃ t, exec (.scopecmdCreateRoot ctx home) s = .next t ∧ (t.ctx ctx).regs.scoperes = BitVec.ofNat 64 n ∧
      (t.scope n).st = .live ∧ (t.scope n).parent = none ∧ (t.scope n).ctx = ctx ∧ (t.scope n).home = home ∧
      (t.scope n).serial = (s.scope n).serial + 1 ∧ t.mem = s.mem) ∧
  (∀ (s : State) (ctx n : Nat) (parent : BitVec 16), pageActs s ctx = true → (s.scope parent.toNat).st = .live →
    (s.scope parent.toNat).ctx = ctx → (ancestors s parent.toNat).length < 64 → pickScope s = some n →
    ∃ t, exec (.scopecmdCreateChild ctx parent) s = .next t ∧ (t.ctx ctx).regs.scoperes = BitVec.ofNat 64 n ∧
      (t.scope n).st = .live ∧ (t.scope n).parent = some parent.toNat ∧ (t.scope n).ctx = ctx) ∧
  (∀ (s : State) (ctx : Nat) (scope : BitVec 16), pageActs s ctx = true → (s.scope scope.toNat).st ≠ .free →
    (s.scope scope.toNat).ctx = ctx → (s.scope scope.toNat).creator = .driver → exec (.scopecmdFree ctx scope) s =
      .next (setRegs (driverFree s scope.toNat) ctx
        { ((driverFree s scope.toNat).ctx ctx).regs with scoperes := BitVec.ofNat 64 scope.toNat })) ∧
  (∀ (s : State) (ctx logcap die n : Nat), pageActs s ctx = true → inService s die = true → (s.ctx ctx).dying = false →
    let base := (s.ctx ctx).regs.qbase.toNat
    base % 64 = 0 → base + (64 + 64 * 2 ^ logcap) ≤ 0xC000000000 → 2 ≤ logcap → logcap ≤ 16 →
    s.mem.heldLine base (64 + 64 * 2 ^ logcap) = none → pickQueue s = some n →
    (∃ t x, exec (.qcmdCreateLaunchQueue ctx logcap die) s = .next t ∧ t.queue n = some x ∧ x.kind = .launch ∧ x.ctx = ctx ∧
      x.die = die ∧ x.logcap = logcap ∧ x.base = base ∧ x.claims = [] ∧ x.stopped = false ∧
      (t.ctx ctx).regs.qres = BitVec.ofNat 64 n) ∧
    (∃ t x, exec (.qcmdCreateFlumeQueue ctx logcap die) s = .next t ∧ t.queue n = some x ∧ x.kind = .flume ∧ x.ctx = ctx ∧
      x.base = base ∧ (t.ctx ctx).regs.qres = BitVec.ofNat 64 n)) ∧
  (∀ (s : State) (ctx q : Nat) (x : QRec), pageActs s ctx = true → namedQueue s ctx q = some x → s.run q = none →
    (∃ t, exec (.qcmdDestroy ctx q) s = .next t ∧ (t.ctx ctx).regs.qres = BitVec.ofNat 64 q) ∧
    (s.mem.heldLine x.base (64 + 64 * x.cap) = none → ∃ t y, exec (.qcmdReset ctx q) s = .next t ∧ t.queue q = some y ∧
      y.claims = [] ∧ y.stopped = false ∧ y.base = x.base ∧ (t.ctx ctx).regs.qres = BitVec.ofNat 64 q))

/-! ### Events: the management page, firmware, the package -/

/-- R279, R280 and R264: the semaphore is taken where it is free and released by its owner; a port without it gets NOSEM and changes
nothing else; contexts, tables and assignments act for the owner. The tests of a command and the end of a context's destruction
are the model's reading (log entries 25 and 26), and no core keeps the context (R31). -/
def Obligations.ManagementEvents : Prop :=
  (∀ (s : State) (port : Port), hostPort s port = true →
    (s.mgmt.owner = none → ∃ t, exec (.mgmtSemAcquire port) s = .next t ∧ t.mgmt.owner = some port ∧ t.mgmt.last = 0) ∧
    (∀ p, s.mgmt.owner = some p → exec (.mgmtSemAcquire port) s = .next s) ∧
    (s.mgmt.owner = some port → ∃ t, exec (.mgmtSemRelease port) s = .next t ∧ t.mgmt.owner = none) ∧
    (s.mgmt.owner ≠ some port → exec (.mgmtSemRelease port) s = .next s)) ∧
  (∀ (s : State) (port : Port) (ctx : Nat) (vdmap : BitVec 32), hostPort s port = true → s.mgmt.owner ≠ some port →
    exec (.ctxcmdDestroy port ctx) s = .next { s with mgmt := { s.mgmt with last := 1 } } ∧
    exec (.ctxcmdSetVdmap port ctx vdmap) s = .next { s with mgmt := { s.mgmt with last := 1 } } ∧
    exec (.fwcmdActivate port) s = .next { s with mgmt := { s.mgmt with last := 1 } }) ∧
  (∀ (s : State) (port home : Port) (ctx : Nat) (vdmap : BitVec 32), hostPort s port = true → s.mgmt.owner = some port →
    (ctx < 64 → (s.ctx ctx).live = false → vdmapOk s.harvest vdmap = true → (home = .a ∨ home = .b) →
      exec (.ctxcmdCreate port ctx home vdmap) s = .next (s.setCtx ctx { live := true, home := home, vdmap := vdmap })) ∧
    ((s.ctx ctx).live = true → (s.ctx ctx).dying = false → ∃ t, exec (.ctxcmdDestroy port ctx) s = .next t ∧
      (t.ctx ctx).dying = true ∧ (t.ctx ctx).live = true ∧ t.mem = s.mem) ∧
    ((s.ctx ctx).live = true → vdmapOk s.harvest vdmap = true → ctxInUse s ctx = false →
      (ctxScopes s ctx).all (fun y => (selfDie vdmap y.2.home).isSome) = true →
      exec (.ctxcmdSetVdmap port ctx vdmap) s = .next (s.setCtx ctx { s.ctx ctx with vdmap := vdmap }))) ∧
  (∀ (s : State) (port : Port) (die unit ctx : Nat), hostPort s port = true → s.mgmt.owner = some port → die < 8 → ctx < 64 →
    (unit < 256 → (s.bar (die * 256 + unit)).ctx = none →
      exec (.assignBarrier port die unit ctx) s = .next (s.setBar (die * 256 + unit) { ctx := some ctx })) ∧
    (unit < 64 → (s.chan (die * 64 + unit)).ctx = none →
      exec (.assignTokenChannel port die unit ctx) s = .next (s.setChan (die * 64 + unit) { ctx := some ctx })) ∧
    (unit < 256 → (s.bar (die * 256 + unit)).ctx = some ctx → ∃ t, exec (.assignRelease port die unit ctx) s = .next t ∧
      t.bar (die * 256 + unit) = {})) ∧
  (∀ (s : State) (ctx : Nat), (s.ctx ctx).live = true → (s.ctx ctx).dying = true → ctxDone s ctx = true →
    ∃ t, exec (.contextDestroyDone ctx) s = .next t ∧ t.ctx ctx = {} ∧ (∀ e ∈ t.tlb, e.ctx ≠ ctx) ∧
      (∀ c, (t.core c).bind.ctx ≠ some ctx))

/-- R301, R302, R300 and R303: staging verifies the signature and the version; activation and maintenance mode answer in FWRES;
package reset keeps what lies outside; start-up ends READY; a request over DOE gets its response. That unwritten memory reads 0, what
the flash and package reset hold, the answers of FWCMD out of turn and those of DOE are the model's choices (log entries 4, 9,
27 and 28). -/
def Obligations.FirmwareEvents : Prop :=
  (∀ (s : State) (port : Port) (img : FwImage), hostPort s port = true → s.mgmt.owner = some port →
    ∃ t, exec (.fwcmdStage port img) s = .next t ∧
      (img.sigOk = false → t.mgmt.fwres = 2 ∧ t.mgmt.slots = s.mgmt.slots) ∧
      (img.sigOk = true → img.version.toNat < s.mgmt.rollback.toNat → t.mgmt.fwres = 3 ∧ t.mgmt.slots = s.mgmt.slots) ∧
      (img.sigOk = true → s.mgmt.rollback.toNat ≤ img.version.toNat → t.mgmt.fwres = 1 ∧ t.mgmt.staged = true)) ∧
  (∀ (s : State) (port : Port), hostPort s port = true → s.mgmt.owner = some port → s.mgmt.st ≠ .recovery →
    (∃ t, exec (.fwcmdActivate port) s = .next t ∧
      t.mgmt.fwres = (if s.mgmt.staged then 1 else 5) ∧ (s.mgmt.staged = true → t.mgmt.active = 1 - s.mgmt.slot)) ∧
    (ctxstat s = 0 → (s.mgmt.st = .ready ∨ s.mgmt.st = .maint) →
      (∃ t, exec (.fwcmdEnterMaint port) s = .next t ∧ t.mgmt.st = .maint ∧ t.mgmt.fwres = 1) ∧
      (∃ t, exec (.fwcmdLeaveMaint port) s = .next t ∧ t.mgmt.st = .ready ∧ t.mgmt.fwres = 1)) ∧
    (ctxstat s ≠ 0 → (∃ t, exec (.fwcmdEnterMaint port) s = .next t ∧ t.mgmt.st = s.mgmt.st ∧ t.mgmt.fwres = 4) ∧
      (∃ t, exec (.fwcmdLeaveMaint port) s = .next t ∧ t.mgmt.st = s.mgmt.st ∧ t.mgmt.fwres = 4))) ∧
  (∀ s : State, ∃ t, exec .packageReset s = .next t ∧ t.cores = [] ∧ t.arrays = [] ∧ t.ctxs = [] ∧ t.hg = {} ∧
    t.mgmt.slots = s.mgmt.slots ∧ t.mgmt.rollback = s.mgmt.rollback ∧ (t.mgmt.st = .boot ∨ t.mgmt.st = .recovery) ∧
    (∀ k, (2 ^ 56 ≤ k → k < 2 ^ 57 → t.mem.readByte k = s.mem.readByte k) ∧
      (k < 2 ^ 56 ∨ 2 ^ 57 ≤ k → t.mem.readByte k = 0))) ∧
  (∀ s : State, s.mgmt.st = .boot → allLocked s = true → s.portUp .a = true → s.portUp .b = true →
    ∃ t, exec .startUpReady s = .next t ∧ t.mgmt.st = .ready ∧ t.mem = s.mem ∧
      (s.mgmt.firstBoot = true → s.mgmt.rollback.toNat < s.mgmt.fwver.toNat → t.mgmt.rollback = s.mgmt.fwver) ∧
      (s.mgmt.firstBoot = false → t.mgmt.rollback = s.mgmt.rollback)) ∧
  (∀ (s : State) (port : Port) (nonce : Word), hostPort s port = true →
    let answers := fun (i : Instr) (a : Spdm) => exec i s =
      .next { s with mgmt := { s.mgmt with doe := s.mgmt.doe.setIfInBounds (portIdx port).val a } }
    answers (.getVersion port) .version ∧ answers (.getCapabilities port) .capabilities ∧
    answers (.negotiateAlgorithms port true true) .algorithms ∧ answers (.negotiateAlgorithms port false true) .error ∧
    answers (.getDigests port) .digests ∧ answers (.getCertificate port) .certificate ∧
    answers (.challenge port nonce) (.challengeAuth nonce (Config.challengeSig nonce)) ∧
    answers (.getMeasurements port 2) (.measurement 2 (Config.measureImage s.mgmt.fwver)))

/-- R274, R279, R287, R285, R276 and R277: ports train and go down, with the semaphore and with what is outstanding on them; an
expander is lost; the host takes a line, but not one owed to an access of the device, and gives it back to whoever asked; an
AtomicOp of the host performs nothing. -/
def Sys2Proof.Ob.portEvents : Prop :=
  (∀ (s : State) (port : Port) (x : Partner), x.flit256 = true → 32 ≤ x.rate → 8 ≤ x.width → ∃ t,
    exec (.portTrain port x) s = .next t ∧ t.portUp port = true ∧
    (t.mgmt.ports.get (portIdx port)).width = (if 16 ≤ x.width then 16 else 8)) ∧
  (∀ (s : State) (port : Port), ∃ t, exec (.portLinkDown port) s = .next t ∧ t.portUp port = false ∧
    t.mgmt.owner ≠ some port ∧ t.mem = s.mem ∧
    (∀ c va n, (s.th c).job.host = .sent va n → (s.ctx (s.ctxOf c)).home = port → (t.th c).job.host = .answered va n false)) ∧
  (∀ (s : State) (port : Port) (x : Partner), x.flit256 = false → ∃ t, exec (.portTrain port x) s = .next t ∧
    t.portUp port = false ∧ t.mgmt.owner ≠ some port) ∧
  (∀ (s : State), (∃ t, exec (.expanderRemoval .c) s = .next t ∧ (t.mem.exps.get 0).failed = true ∧ t.portUp .c = false) ∧
    (∃ t, exec (.expanderRemoval .d) s = .next t ∧ (t.mem.exps.get 1).failed = true ∧ t.portUp .d = false)) ∧
  (∀ (s : State) (pa : Nat), pa < 0xC000000000 → pa / 128 ∉ s.mem.held →
    ((∀ x ∈ s.mem.owed, x.1 ≠ pa / 128) → exec (.hostCxlMemRequest pa) s =
      .next { s with mem := { s.mem with held := pa / 128 :: s.mem.held } }) ∧
    ((∃ x ∈ s.mem.owed, x.1 = pa / 128) → exec (.hostCxlMemRequest pa) s = .next s)) ∧
  (∀ (s : State) (line : Nat) (dirty : Option (List (BitVec 8))), line ∈ s.mem.held → (∃ x ∈ s.mem.snooped, x.1 = line) →
    ∃ t, exec (.birsp line dirty) s = .next t ∧ line ∉ t.mem.held ∧ (∀ x ∈ t.mem.snooped, x.1 ≠ line) ∧
      (∀ x ∈ s.mem.snooped, x.1 = line → x ∈ t.mem.owed) ∧
      (dirty = none → t.mem.bytes = s.mem.bytes) ∧
      (∀ bs, dirty = some bs → t.mem.bytes = (s.mem.writeBytes (line * 128) (bs.take 128)).bytes)) ∧
  (∀ (s : State) (port : Port), exec (.hostAtomicopIo port) s = .next s)

/-- R16, R14, R15, R18, R19 and R304: every 10 µs HEADROOM follows BUDGET less the draw in steps of 64 mW, and FMAX; above
its budget, or above 105 °C, a core's loop lowers its clock, and above its budget an array's and a die's (by how much is a
free value, log entry 64; an I/O die's too is the model's choice there); a clock in its range and within what its block may
draw changes and completes (what an event carries: log entry 18; what an error poisons: log entry 16); a sample and a scrub
keep their periods; soft errors count on the die that holds them. R274, R279, R287, R285, R276 and R277: ports train and go
down, with the semaphore and with what is outstanding on them; an expander is lost; the host takes a line, but not one owed
to an access of the device, and gives it back to whoever asked; an AtomicOp of the host performs nothing. -/
def Obligations.PowerAndPortEvents : Prop :=
  Sys2Proof.Ob.powerEvents ∧ Sys2Proof.Ob.portEvents


/-! ### Events: scopes, launches, operators, tensors -/

/-- R58, R59, R62, R64 and R66: the home serves requests oldest first and answers with the ticket it marks under; a token is told to each
die once, which counts its handler strands; a die acknowledges once it holds none of the work, and TDONE is the home's time then;
the record of Table 3-7 is written where an area is registered, and leaves with DONE; a token reaches its channel in order. A
request for a scope that its asker may not cancel any more is answered BADSCOPE; a strand that no longer waits for that request takes
no answer. That CRBASE is a virtual address of the context,
and so where the record lies, is the model's reading (log entry 39, DEDUCED). -/
def Obligations.HeadgateEvents : Prop :=
  (∀ (s : State) (home : Nat), (reapScopes s).hg.reqs.find? (fun r => r.home == home) = none →
    exec (.cancelMark home) s = .next (reapScopes s)) ∧
  (∀ (s : State) (home : Nat) (r : CancelReq), (reapScopes s).hg.reqs.find? (fun r => r.home == home) = some r →
    cancelFits (reapScopes s) r = true → ((reapScopes s).scope r.scope).st = .live →
    let v := ticketOf (reapScopes s) r.scope
    ∃ t, exec (.cancelMark home) s = .next t ∧ t.hg.reqs = (reapScopes s).hg.reqs.erase r ∧
      (smFind v.toNat t.hg.cancels).isSome = true ∧ t.mem = s.mem ∧
      (t.scope r.scope).st = .cancelling ∧ (t.scope r.scope).canc = true ∧ (t.scope r.scope).ticket = v ∧
      ∀ c n, r.by_ = .strand c n → (s.th c).job.wait = .cancel n → (t.th c).job.wait = .cancelDone v) ∧
  (∀ (s : State) (home : Nat) (r : CancelReq), (reapScopes s).hg.reqs.find? (fun r => r.home == home) = some r →
    cancelFits (reapScopes s) r = false → ∃ t, exec (.cancelMark home) s = .next t ∧
      t.hg.reqs = (reapScopes s).hg.reqs.erase r ∧ t.hg.cancels = (reapScopes s).hg.cancels ∧
      (∀ n, t.scope n = (reapScopes s).scope n) ∧ t.mem = s.mem ∧
      ∀ c n, r.by_ = .strand c n → ((s.th c).job.wait = .cancel n → (t.th c).job.wait = .cancelDone rBadscope) ∧
        ((s.th c).job.wait ≠ .cancel n → t.th c = s.th c)) ∧
  (∀ (s : State) (die : Nat) (ticket : Word) (x : Cancel), smFind ticket.toNat s.hg.cancels = some x → die ∉ x.told →
    die ∈ ctxDies s x.ctx → ∃ t y, exec (.cancelToken die ticket) s = .next t ∧
      smFind ticket.toNat t.hg.cancels = some y ∧ die ∈ y.told ∧ y.marked = x.marked ∧
      y.hstrands = x.hstrands + handlersOn s die x.marked ∧ t.mem = s.mem) ∧
  (∀ (s : State) (die : Nat) (ticket : Word) (x : Cancel), smFind ticket.toNat s.hg.cancels = some x → die ∈ x.told →
    die ∉ x.acked → dieClear s die x.scope = true → exec (.cancelAck die ticket) s =
      .next ((sendStamp s die x.home).updCancel ticket.toNat (fun c => { c with acked := die :: c.acked, tdone := s.gtime x.home }))) ∧
  (∀ (s : State) (ticket : Word) (x : Cancel), smFind ticket.toNat s.hg.cancels = some x →
    (ctxDies s x.ctx).all (fun d => x.acked.contains d) = true →
    x.after.all (fun t => (smFind t.toNat s.hg.cancels).isNone) = true → recordLine s x = none →
    ∃ t, exec (.cancelDone ticket) s = .next t ∧ smFind ticket.toNat t.hg.cancels = none ∧
      (∀ m ∈ x.marked, (t.scope m).st = .done ∨ (t.scope m).st = .free) ∧
      ∀ key cls, let a := (s.ctx x.ctx).regs.crbase + BitVec.ofNat 64 (64 * x.scope)
        (s.ctx x.ctx).regs.crbase ≠ 0 → doneLaunches s ticket.toNat x.marked = s →
        seqCheck s x.ctx x.home .write a 64 = .ok key cls →
        t.mem = (cancelFields ticket x).foldl (fun m f => m.writeNat (key + f.1) f.2.1 f.2.2) s.mem) ∧
  (∀ (s : State) (i : Nat) (f : Flight), s.flight[i]? = some f →
    (s.flight.take i).all (fun g => !(g.chan == f.chan && g.core == f.core)) = true → ∃ t,
      exec (.tokenDeliver i) s = .next t ∧ t.flight = s.flight.eraseIdx i ∧
      (t.chan f.chan).fifo = (s.chan f.chan).fifo ++ [f.tok])

/-- R28, R30, R45, R29 and R49: a packet with its tag at the head is taken; a die binds its share after the lower ones; a head
pre-empts what it may, unless another launch is to be bound before it; a launch that has ended is stamped; lent cores go back,
once the child has its own lent cores back, and stay with a parent that runs or that is lent itself; while a lending is in force no pre-emption of its launches goes on (R305). That GEN restarts at every binding is the model's
reading (log entry 37). -/
def Obligations.LaunchEvents : Prop :=
  (∀ (s : State) (qk : Nat) (q : QRec), s.queue qk = some q → q.kind = .launch → q.stopped = false → headOf s qk = none →
    queueLine s qk q (ridxOf s q) = none → qk < 65536 → tagOf s qk q (ridxOf s q) = ridxOf s q →
    let k := ridxOf s q
    let v := s.mem.readNat (qslotKey qk q k) 64
    exec (.launchPacketTake qk) s = .next (takeLaunch s qk q k (q.claims.find? (fun c => c.slot == k))) ∧
    (q.claims.find? (fun c => c.slot == k) = none → s.mem.poisoned (qslotKey qk q k) 64 = false →
      launchOk s q.ctx v (launchFields v) none = true → scopeDead s q.die (launchFields v).scope = false →
      ∃ t, exec (.launchPacketTake qk) s = .next t ∧ (t.launch s.fresh).st = .binding ∧ (t.launch s.fresh).ctx = q.ctx ∧
        (t.launch s.fresh).queue = qk ∧ (t.launch s.fresh).slot = k ∧ (t.launch s.fresh).pkt = launchFields v ∧
        (t.launch s.fresh).pc = (launchFields v).stream)) ∧
  (∀ (s : State) (l die : Nat), (s.launch l).st = .binding → die ∈ launchDies s l → die ∉ (s.launch l).shares →
    scopeDead s (s.launch l).die (s.launch l).pkt.scope = false →
    ((launchDies s l).filter (fun d => decide (d < die))).all (fun d => (s.launch l).shares.contains d) = true →
    (s.launch l).lent = true ∨ heldByOther s l = false →
    (shareOf s l die).all (bindable s l) = true → ∃ t, exec (.gangBind l die) s = .next t ∧
      die ∈ (t.launch l).shares ∧ ∀ c ∈ shareOf s l die, (t.core c).bind.bound = some l ∧ (t.core c).bind.gen = 0 ∧
        (t.core c).bind.ctx = some (s.launch l).ctx) ∧
  (∀ (s : State) (q l : Nat), headOf s q = some l → heldByOther s l = false → (blockers s l).all (preemptible s (s.launch l).pkt.prio.toNat) = true →
    exec (.preemptRequest q) s = .next ((blockers s l).foldl preemptLaunch s)) ∧
  (∀ (s : State) (c l : Nat) (since : Word), (s.core c).bind.preempt = some since → (s.core c).bind.bound = some l →
    preempting s l = true → (s.th c).job.run ≠ .idle → (s.th c).job.run ≠ .stopped → fitWait ≤ readyFor s c since → exec (.preemptFallback c) s =
      .next (s.setCore c { s.core c with bind := { (s.core c).bind with fallback := true } })) ∧
  (∀ (s : State) (c : Nat), (∀ l, (s.core c).bind.bound = some l → preempting s l = false) → exec (.preemptFallback c) s = .next s) ∧
  (∀ (s : State) (l key : Nat) (cls : Option Cls), (s.launch l).handlers = [] → (s.launch l).st = .closing →
    (s.launch l).park = .run → (s.launch l).parked = [] →
    seqCheck s (s.launch l).ctx (s.launch l).die .write (s.launch l).pkt.stamp 8 = .ok key cls →
    ∃ t, exec (.launchComplete l) s = .next t ∧ (t.launch l).st = .stamped ∧
      t.mem = s.mem.writeNat key 8 ((s.launch l).slot * 256 + ((s.launch l).status.getD 1).toNat)) ∧
  (∀ (s : State) (l p : Nat), (s.launch l).lent = true → (s.launch l).parent = some p → (s.launch l).st = .stamped →
    s.work.launches.any (fun m => m.2.lent && m.2.parent == some l) = false →
    ∃ t, exec (.lendReturn l) s = .next t ∧ (t.launch l).lent = false ∧
      ((s.launch p).st ≠ .stamped ∨ (s.launch p).lent = true → (s.launch p).st ≠ .preempting → ∀ c ∈ launchCores s l, (s.core c).bind.bound = some l → (s.core c).bind.frames = [] →
        (t.core c).bind.bound = some p))

namespace Sys2Proof.Ob

/-- The rank of step n of an operator, where it is ready for a core: its own, or the one it shares with the steps not yet
dispatched. -/
def rankOf (x : Op) (k : OpCore) (n : Nat) : Option Rank :=
  if k.next % opWidth x ≠ n % opWidth x then none
  else match k.redo.find? (fun m => m.1 == n) with
    | some m => some m.2
    | none => if k.next ≤ n ∧ n < x.steps then some k.rank else none

/-- An event changes the rank of step n as `f` says, where the step is ready, and nothing else of the operator's cores. -/
def ranksChange (s : State) (i : Instr) (o n : Nat) (x : Op) (f : Nat → Rank → Rank) : Prop :=
  ∃ (t : State) (y : Op), exec i s = .next t ∧ t.op o = some y ∧ y.left = x.left ∧ y.steps = x.steps ∧ y.rect = x.rect ∧ t.cores = s.cores ∧
    y.cores.length = x.cores.length ∧ ∀ (j : Nat) (k : OpCore), x.cores[j]? = some k → ∃ k', y.cores[j]? = some k' ∧
      k'.core = k.core ∧ k'.next = k.next ∧ k'.redo.map (·.1) = k.redo.map (·.1) ∧
      (rankOf x k n = none → k' = k) ∧ ∀ r, rankOf x k n = some r → rankOf y k' n = some (f k.core r)

end Sys2Proof.Ob

/-- R34, R35, R40, R44, R354 and R357: an operator in order issues, with no step on a die that a cancellation of its scope has
told (R59); one with every step done completes and leaves the scoreboard, an XFER once its requests are served; a step
is dispatched to a free core, in K mode at its OPB's ENTRY with the OPB's address in s1, and a fault handler before it, in H mode at
FHE; a wait of 256 µs on a core bound to the launch and a passed-over step change the choice (log entry 63). -/
def Obligations.OperatorEvents : Prop :=
  (∀ (s : State) (o : Nat) (x : Op), s.op o = some x → x.issued = false → walking (s.launch x.launch) = true →
    scopeDead s (opDie s x) x.scope = false → orderHeld s x = false →
    (x.tier.isSome = true → exec (.operatorIssue o) s = .next (issueOp s o x)) ∧
    (x.tier = none → opWants s x = [] → (opIns s x ++ opOuts s x).all (fun t => (tensorAt s t).move.isNone) = true →
      ∃ t y, exec (.operatorIssue o) s = .next t ∧ t.op o = some y ∧ y.issued = true ∧
        (∀ k ∈ y.cores, scopeDead s (dieOfCore k.core) x.scope = false) ∧
        ((rectCores (s.ctx (s.launch x.launch).ctx).vdmap x.rect).all (fun c => !scopeDead s (dieOfCore c) x.scope) = true →
          y.left = x.left ∧ y.cores.length = (rectCores (s.ctx (s.launch x.launch).ctx).vdmap x.rect).length))) ∧
  (∀ (s : State) (o : Nat) (x : Op), s.op o = some x → x.issued = true → x.tier = none → x.left = 0 → x.held = [] →
    ∃ t, exec (.operatorComplete o) s = .next t ∧ t.op o = none ∧ t.mem = s.mem) ∧
  (∀ (s : State) (o k : Nat) (x : Op), s.op o = some x → x.issued = true → x.tier = some k →
    (s.weir.reqs.filter (fun r => r.2.by_ == .op o)).all (fun r => r.2.st == .ready) = true →
    ∃ t, exec (.xferComplete o) s = .next t ∧ t.op o = none) ∧
  (∀ (s : State) (c l : Nat) (r : Ready), (s.core c).bind.bound = some l → coreFree (s.core c) l = true →
    (s.launch l).handlers = [] → (s.launch l).st = .running ∨ ((s.launch l).st = .preempting ∧ lendingOf s l = true) →
    (readySteps s c l).find? (fun r => scopeDead s (dieOfCore c) r.x.scope) = none →
    (readySteps s c l).any (choiceDue s c) = false → bestReady s c (readySteps s c l) = some r → stepFits s c r = true →
    exec (.stepDispatch c) s = .next (dispatchStep (takeStep s c r) c l r.o r.n r.x r.rank) ∧
    ∃ t, exec (.stepDispatch c) s = .next t ∧ (t.th c).job.run = .run ∧ (t.th c).pos.pc = r.x.entry ∧ (t.th c).pos.mode = .k ∧
      (t.th c).job.osc = r.x.scope ∧ (t.th c).job.n = r.n ∧ ((t.th c).rdS 1).val = r.x.opb) ∧
  (∀ (s : State) (c l : Nat) (h : Handler) (hs : List Handler), (s.core c).bind.bound = some l → coreFree (s.core c) l = true →
    (s.launch l).handlers = h :: hs → handlerDue s c l = true → preempting s l = false →
    ∃ t, exec (.stepDispatch c) s = .next t ∧ (t.th c).job.run = .run ∧ (t.th c).pos.pc = (s.launch l).pkt.fhe ∧
      (t.th c).pos.mode = .h ∧ (t.th c).trap.cause = h.cause ∧ (t.th c).trap.tval = h.tval ∧ (t.launch l).hrun = true) ∧
  (∀ (s : State) (o n : Nat) (x : Op), s.op o = some x →
    Sys2Proof.Ob.ranksChange s (.fitTimeout o n) o n x (fun c r =>
      if (s.core c).bind.bound = some x.launch ∧ fitWait ≤ readyFor s c r.since then { r with fits := true } else r) ∧
    Sys2Proof.Ob.ranksChange s (.passoverRaise o n) o n x (fun _ r => { r with raised := Nat.max r.raised (r.passes / 64) })) ∧
  (∀ (s : State) (l n : Nat), (s.launch l).walk = .keep n → keepOver s (streamOf_ l) n = true →
    exec (.keepWaitEnd l) s = .next (s.setLaunch l { s.launch l with walk := .keepDone }))

/-- R240, R241, R243, R234 and R233: a request for a tensor that is there is ready; one that a chain of frames asks for of itself, or
beyond the depth of its context, is RECIPE_DEPTH (under a scope that is CANCELLING it waits for the token instead, the model's
reading, log entry 69); a frame whose operators are done, and whose scope is LIVE or freed by
the driver (R53), gives its tensor back; a ready request lets its requester go on; a move and a probe end. -/
def Obligations.WeirEvents : Prop :=
  (∀ (s : State) (r : Nat) (x : WReq), s.req r = some x → x.st = .pending → xferBehind s x = false → xferStale s x = false →
    scopeDead s (homeDie x.t) x.scope = false → walking (s.launch x.launch) = true →
    (tensorAt s x.t).st ≠ .dropped → x.place = none →
    exec (.recipeFramePush r) s = .next (s.setReq r { x with st := .ready })) ∧
  (∀ (s : State) (r : Nat) (x : WReq), s.req r = some x → x.st = .pending → xferBehind s x = false → xferStale s x = false →
    scopeDead s (homeDie x.t) x.scope = false → walking (s.launch x.launch) = true →
    (tensorAt s x.t).st = .dropped → xferOwn s r x = none →
    exec (.recipeFramePush r) s = .next (serveDropped s r x) ∧
    ((s.scope x.scope.toNat).st = .cancelling → exec (.recipeFramePush r) s = .next s) ∧
    ((s.scope x.scope.toNat).st ≠ .cancelling → cyclic s x = true →
      exec (.recipeFramePush r) s = .next (reportReq s r x cRecipeDepth)) ∧
    ((s.scope x.scope.toNat).st ≠ .cancelling → cyclic s x = false → frameFor s x.t = none → weirReg s (tensorAt s x.t).ctx 4 < x.depth + 1 →
      exec (.recipeFramePush r) s = .next (reportReq s r x cRecipeDepth))) ∧
  (∀ (s : State) (f : Nat) (x : Frame), s.frame f = some x → x.walk = .ended →
    ((s.scope x.scope.toNat).st = .live ∨ (s.scope x.scope.toNat).st = .free) →
    s.work.ops.all (fun o => !(o.2.frame == some f)) = true →
    ∃ t y, exec (.frameComplete f) s = .next t ∧ t.frame f = none ∧ t.tensor x.t = some y ∧ y.st = x.tier ∧ y.probe = true ∧
      t.mem = s.mem) ∧
  (∀ (s : State) (r l : Nat) (x : WReq), s.req r = some x → x.st = .ready → x.by_ = .walker l → (s.launch l).walk = .home r →
    ∃ t, exec (.requesterRelease r) s = .next t ∧ (t.launch l).walk = .run ∧ t.mem = s.mem) ∧
  (∀ (s : State) (n : Nat) (d : TSt), (tensorAt s n).move = some d →
    tierUsed s (homeDie n) (d.tier.getD .cis) false ≤ tierCap s (d.tier.getD .cis) →
    ∃ t y, exec (.victimMoveComplete n) s = .next t ∧ t.tensor n = some y ∧ y.st = d ∧ y.move = none) ∧
  (∀ (s : State) (n : Nat), (tensorAt s n).probe = true → (tensorAt s n).st.tier ≠ none → (tensorAt s n).move = none →
    (tensorAt s n).size ≠ 0 → s.work.ops.all (fun o => !(opOuts s o.2).contains n) = true → frameFor s n = none →
    ∃ t y, exec (.tensorProbe n) s = .next t ∧ t.tensor n = some y ∧ y.probe = false ∧
      y.cr = BitVec.ofNat 8 (probeCr s n (tensorAt s n)) ∧ t.mem = s.mem)

/-! ### The whole machine -/

namespace Sys2Proof.Ob

/-- What a strand's move does before its instruction: the schedule advances, the strand moves, a pass's test is done. -/
def moving (s : State) (ms : List Move) (c : Nat) : State := { s with sched := ms, agent := .strand c, cur := c }

/-- The 64 bytes of the slot a Flume queue's engine stands before. -/
def packetRaw (s : State) (l : Nat) (q : QRec) : BitVec 512 := BitVec.ofNat 512 (s.mem.readNat (qslotKey l q (ridxOf s q)) 64)

/-- Words written out from the encoding tables with the instructions they stand for. -/
def encodings : List (BitVec 32 × Instr) := [
  (0x00190A01, .add { rd := 3, ra := 4, rb := 5 }), (0x0118000B, .addi { rd := 3, ra := 0, imm := 5 }),
  (0x1638C001, .ldd { rd := 7, ra := 3, imm := 0 }), (0x1B20C001, .std { rd := 4, ra := 3, imm := 0 }),
  (0x21303FF5, .bne { ra := 6, rb := 0, off := BitVec.ofInt 13 (-6) }), (0x26800051, .jal true 40),
  (0x28003FF5, .loopr (BitVec.ofInt 13 (-6))), (0x0A190A81, .fadd { rd := 3, ra := 4, rb := 5 } 1),
  (0x1CA14801, .aadd { rd := 20, ra := 5, rb := 4 } 0 false), (0xE1214001, .tqry { rd := 4, ra := 5 }),
  (0xCC214001, .mwait { rd := 4, ra := 5, rb := 0 }), (0xC82A9601, .cpyq { rd := 5, ra := 10, rb := 11 })]

end Sys2Proof.Ob

/-- The state right after package reset (R300): the registers at the values the spec gives; nothing is bound, DEVSTAT.STATE is 0,
memory is in its canonical form and lists nothing (what it reads as then is the model's choice, log entry 4). -/
def Obligations.ResetState : Prop :=
  let s := State.reset
  s.Inv ∧ s.mem.bytes = [] ∧ s.mgmt.st = .reset ∧ s.mgmt.owner = none ∧ s.mgmt.fwres = 0 ∧ ctxstat s = 0 ∧
  (∀ c, (s.core c).bind.bound = none ∧ (s.th c).job.run = .idle) ∧
  (∀ d < 18, (s.die d).time.gtime = 0 ∧ (s.die d).time.st = .free ∧ (s.die d).time.err = 0xFFFF) ∧
  (∀ x, (s.ctx x).live = false) ∧ (∀ n, (s.scope n).st = .free) ∧ (∀ b, (s.bar b).ctx = none) ∧ (∀ k, (s.chan k).ctx = none)

/-- A step runs the instruction that its agent's bytes decode to (R84, R100, R112, R78, R182, R213): a strand the instruction at its
position, once nothing stands before it, as the loop buffers hold it where they do and fetched otherwise (R85; which instructions they hold is
the model's choice where R85 is silent, log entry 99); a queue its head; an array, an engine, a walker or a recipe frame the record it stands
before, where what R34, R251 and R304 put before it is done; an event itself. The step then ends what is owed to the agent (R276). -/
def Obligations.StepRunsDecoded : Prop :=
  (∀ (s : State) (ms : List Move) (c w : Nat) (i : Instr), s.sched = .strand c :: ms → c < 512 →
    let m := moving s ms c
    let t := m.th c
    t.job.run ≠ .idle → t.job.park = .run → t.job.code = .idle → t.pos.fw = false → badFetch t = none → beforeInstr m c = none →
    t.pos.pc.getLsbD 0 = false →
    let p := passTested m c
    fetchWord p c (p.th c).pos = .ok w → eccInstr p c i = false →
    ((t.pos.atHdr = false → pastBlock (p.th c).pos w = false →
      decodeTollum (BitVec.ofNat 32 w) (BitVec.ofNat 32 (w / 2 ^ 32)) = some i →
      step s = settled m (exec i (recordLoop p c i))) ∧
    (t.pos.atHdr = true → isHeader w = true → decodeTollum (BitVec.ofNat 32 w) 0 = some i →
      step s = settled m (exec i (recordLoop p c i))))) ∧
  (∀ (s : State) (c : Nat) (p : Pos),
    (∀ b r, (s.core c).loop = some b → b.hdr = blockAt p → b.recs.find? (fun r => r.at_ == parcelAt p) = some r →
      fetchWord s c p = .ok r.w) ∧
    ((∀ b, (s.core c).loop = some b → b.hdr = blockAt p → ∀ r ∈ b.recs, r.at_ ≠ parcelAt p) →
      fetchWord s c p = (if p.atHdr then readParcels s c 2 p.pc else readInstr s c p.pc))) ∧
  (∀ (s : State) (c : Nat) (i : Instr), let t := recordLoop s c i
    t.th c = s.th c ∧ t.mem = s.mem ∧ SameOutside s t ∧ SameOthers s t c ∧ fetchWord t c (s.th c).pos = fetchWord s c (s.th c).pos) ∧
  (∀ (s : State) (ms : List Move) (c : Nat) (v : VQ) (e : QEntry), s.sched = .queue c v :: ms → c < 512 →
    ((s.th c).q.get v).held.head? = some e → step s = settled { s with sched := ms, agent := .queue c v } (exec e.ins { s with sched := ms, agent := .queue c v })) ∧
  (∀ (s : State) (ms : List Move) (d n q : Nat) (i : Instr), s.sched = .array d n :: ms → d < 8 → n < 16 →
    let m : State := { s with sched := ms, agent := .array d n }
    let c := quadCore (d * 16 + n) q
    (m.array (d * 16 + n)).lease = some q → (m.array (d * 16 + n)).exec = none → (m.core c).ring.begun = none → eligible m c = true →
    killedStrand m c = none → commandHeld m c = false → recordFault m c = none →
    decodeCommand (ringRecord m c (m.core c).ring.rd.toNat) = some i → step s = settled m (exec i m)) ∧
  (∀ (s : State) (ms : List Move) (l : Nat) (i : Instr) (q : QRec), s.sched = .flume l :: ms →
    let m : State := { s with sched := ms, agent := .flume l }
    let k := ridxOf m q
    let t := takeStamps m q.die [q.atDie, q.slotDie l k]
    let p := wFPkt (packetRaw m l q)
    let r : PRun := { ins := .flstmp p, slot := k, claim := q.claims.find? (fun c => c.slot == k) }
    m.queue l = some q → m.run l = none → q.kind = .flume → q.stopped = false → queueLine m l q k = none →
    tagOf m l q k = k → stampBad t l r p.stamp = false → m.mem.poisoned (qslotKey l q k) 64 = false →
    decodePacket (packetRaw m l q) = some i →
    let u := putHdr t q 8 8 (k + 1)
    let y : PRun := { r with ins := i, pins := packetPins u l p }
    step s = settled m (exec i (u.setRun l (takeSpans u l y p)))) ∧
  (∀ (s : State) (ms : List Move) (l : Nat) (q : QRec) (r : PRun), s.sched = .flume l :: ms →
    let m : State := { s with sched := ms, agent := .flume l }
    m.queue l = some q → m.run l = some r → (r.phase = .form ∨ r.phase = .ranges) → step s = settled m (exec r.ins m)) ∧
  (∀ (s : State) (ms : List Move) (l v : Nat) (i : Instr), s.sched = .walker l :: ms →
    let m : State := { s with sched := ms, agent := .walker l }
    let x := m.launch l
    let w : Walker := { l := l, f := none }
    walking x = true → (x.walk = .run ∨ x.walk = .keepDone) → x.park = .run → scopeDead m x.die x.pkt.scope = false →
    boardFull m w = false → seqRead m (walkCtx m w) (walkDie m w) 32 1 (walkPc m w) = .ok v →
    decodeRecord (BitVec.ofNat 256 v) = some i → step s = settled m (exec i m)) ∧
  (∀ (s : State) (ms : List Move) (f v : Nat) (i : Instr) (x : Frame), s.sched = .frame f :: ms →
    let m : State := { s with sched := ms, agent := .frame f }
    let w : Walker := { l := x.launch, f := some f }
    m.frame f = some x → x.pushed = true → x.walk = .run → x.park = .run →
    seqRead m (walkCtx m w) (walkDie m w) 32 1 (walkPc m w) = .ok v → decodeRecord (BitVec.ofNat 256 v) = some i →
    step s = settled m (exec i m)) ∧
  (∀ (s : State) (ms : List Move) (i : Instr), s.sched = .event i :: ms → encode i = none →
    step s = settled { s with sched := ms, agent := .event i } (exec i { s with sched := ms, agent := .event i }))

/-- Words that the encoding tables give decode to the instructions they stand for, and encode back. -/
def Obligations.DecodeWords : Prop :=
  ∀ p ∈ encodings, decodeTollum p.1 0 = some p.2 ∧ encodeTollum p.2 = some p.1

/-- Decode and encode agree: every well-formed instruction that has an encoding is read back from it, with every operand at every
value the encoding admits. -/
def Obligations.RoundTrip : Prop :=
  ∀ i : Instr, i.WellFormed →
    (∀ w, encodeTollum i = some w → decodeTollum w i.literal = some i) ∧
    (∀ r, encodeRecord i = some r → decodeRecord r = some i) ∧
    (∀ r, encodeCommand i = some r → decodeCommand r = some i) ∧
    (∀ r, encodePacket i = some r → decodePacket r = some i)

/-- No value that the decoder answers is ill-formed: a reserved value in any field is refused (R101, R108, R112, R114, R116). -/
def Obligations.DecodedWellFormed : Prop :=
  (∀ (w next : BitVec 32) (i : Instr), decodeTollum w next = some i → i.WellFormed) ∧
  (∀ (r : BitVec 256) (i : Instr), decodeRecord r = some i → i.WellFormed) ∧
  (∀ (r : BitVec 128) (i : Instr), decodeCommand r = some i → i.WellFormed) ∧
  (∀ (r : BitVec 512) (i : Instr), decodePacket r = some i → i.WellFormed)

/-- Memory keeps its canonical form: from every state that has it, whatever moves, a step that goes on gives a state that has it. -/
def Obligations.StepKeepsMemory : Prop := ∀ s t : State, s.Inv → step s = .next t → t.Inv

/-- The machine never stops where its schedule names units of the package: ordinary data ends no run, in any mode, of any agent. -/
def Obligations.StepAlwaysGoes : Prop := ∀ s : State, s.schedOk = true → s.Goes
end

