-- ==== Sys2Proof/Laws/SMap.lean ====
section
/-! SUPPORT. Laws of sparse maps: reading after storing and deleting, and the canonical form that every store keeps. -/
namespace Sys2Proof.Machine
open Sys2Proof

variable {α : Type}

/-! ### Reading after a store -/

theorem smGet_smPut (d : α) (k j : Nat) (x : α) (m : SMap α) :
    smGet d j (smPut k x m) = if j = k then x else smGet d j m := by
  induction m with
  | nil => simp [smPut, smGet, eq_comm]
  | cons p m ih =>
    obtain ⟨i, y⟩ := p
    unfold smPut
    split
    · subst_vars; by_cases h : j = i <;> simp [smGet, h, Ne.symm]
    · split
      · by_cases h : j = k
        · simp [smGet, h]
        · simp [smGet, h, Ne.symm h]
      · rename_i h h'
        by_cases hk : j = k
        · subst hk; simp [smGet, h, ih]
        · simp [smGet, ih, hk]

@[simp] theorem smGet_smPut_self (d : α) (k : Nat) (x : α) (m : SMap α) : smGet d k (smPut k x m) = x := by
  simp [smGet_smPut]

theorem smGet_smPut_ne (d : α) {k j : Nat} (h : j ≠ k) (x : α) (m : SMap α) :
    smGet d j (smPut k x m) = smGet d j m := by simp [smGet_smPut, h]

theorem smFind_smPut (k j : Nat) (x : α) (m : SMap α) :
    smFind j (smPut k x m) = if j = k then some x else smFind j m := by
  induction m with
  | nil => simp [smPut, smFind, eq_comm]
  | cons p m ih =>
    obtain ⟨i, y⟩ := p
    unfold smPut
    split
    · subst_vars; by_cases h : j = i <;> simp [smFind, h, Ne.symm]
    · split
      · by_cases h : j = k
        · simp [smFind, h]
        · simp [smFind, h, Ne.symm h]
      · rename_i h h'
        by_cases hk : j = k
        · subst hk; simp [smFind, h, ih]
        · simp [smFind, ih, hk]

@[simp] theorem smFind_smPut_self (k : Nat) (x : α) (m : SMap α) : smFind k (smPut k x m) = some x := by
  simp [smFind_smPut]

theorem smFind_smPut_ne {k j : Nat} (h : j ≠ k) (x : α) (m : SMap α) : smFind j (smPut k x m) = smFind j m := by
  simp [smFind_smPut, h]

/-- A second store at one key replaces the first. -/
@[simp] theorem smPut_smPut (k : Nat) (x y : α) (m : SMap α) : smPut k y (smPut k x m) = smPut k y m := by
  induction m with
  | nil => simp [smPut]
  | cons p m ih =>
    obtain ⟨j, z⟩ := p
    by_cases h : j = k
    · simp [smPut, h]
    · by_cases h' : k < j
      · simp [smPut, h, h']
      · simp [smPut, h, h', ih]

/-! ### Reading after a deletion -/

theorem smGet_smDel (d : α) (k j : Nat) (m : SMap α) :
    smGet d j (smDel k m) = if j = k then d else smGet d j m := by
  induction m with
  | nil => simp [smDel, smGet]
  | cons p m ih =>
    obtain ⟨i, y⟩ := p
    unfold smDel
    split
    · subst_vars
      by_cases h : j = i
      · subst h; simpa using ih
      · simp [ih, h, smGet, Ne.symm h]
    · rename_i h
      by_cases hk : j = k
      · subst hk; simp [smGet, h, ih]
      · simp [smGet, ih, hk]

theorem smFind_smDel (k j : Nat) (m : SMap α) :
    smFind j (smDel k m) = if j = k then none else smFind j m := by
  induction m with
  | nil => simp [smDel, smFind]
  | cons p m ih =>
    obtain ⟨i, y⟩ := p
    unfold smDel
    split
    · subst_vars
      by_cases h : j = i
      · subst h; simpa using ih
      · simp [ih, h, smFind, Ne.symm h]
    · rename_i h
      by_cases hk : j = k
      · subst hk; simp [smFind, h, ih]
      · simp [smFind, ih, hk]

@[simp] theorem smFind_smDel_self (k : Nat) (m : SMap α) : smFind k (smDel k m) = none := by simp [smFind_smDel]

/-- A map without the keys that p excludes. -/
theorem smGet_filter (d : α) (p : Nat → Bool) (k : Nat) (m : SMap α) :
    smGet d k (m.filter (fun x => p x.1)) = if p k = true then smGet d k m else d := by
  induction m with
  | nil => simp [smGet]
  | cons q m ih =>
    obtain ⟨i, y⟩ := q
    by_cases h : p i = true
    · by_cases hk : i = k
      · subst hk; simp [List.filter, h, smGet]
      · simp [List.filter, h, smGet, hk, ih]
    · by_cases hk : i = k
      · subst hk; simp [List.filter, h, ih]
      · simp [List.filter, h, smGet, hk, ih]

/-! ### Canonical form -/

/-- A lower bound may be lowered. -/
theorem smSorted_mono {lo lo' : Nat} (h : lo' ≤ lo) {m : SMap α} (hm : smSorted (some lo) m = true) :
    smSorted (some lo') m = true := by
  cases m with
  | nil => simp [smSorted]
  | cons p m => simp [smSorted] at hm ⊢; exact ⟨by omega, hm.2⟩

theorem smSorted_none {lo : Nat} {m : SMap α} (hm : smSorted (some lo) m = true) : smSorted none m = true := by
  cases m with
  | nil => simp [smSorted]
  | cons p m => simp [smSorted] at hm ⊢; exact hm.2

theorem smSorted_smPut {lo k : Nat} (h : lo < k) (x : α) {m : SMap α} (hm : smSorted (some lo) m = true) :
    smSorted (some lo) (smPut k x m) = true := by
  induction m generalizing lo with
  | nil => simp [smPut, smSorted, h]
  | cons p m ih =>
    obtain ⟨j, y⟩ := p
    simp [smSorted] at hm
    unfold smPut
    split
    · subst_vars; simp [smSorted, hm]
    · split
      · simp [smSorted, h, hm]; assumption
      · simp [smSorted, hm.1]; exact ih (by omega) hm.2

theorem smSorted_smPut_none (k : Nat) (x : α) {m : SMap α} (hm : smSorted none m = true) :
    smSorted none (smPut k x m) = true := by
  cases m with
  | nil => simp [smPut, smSorted]
  | cons p m =>
    obtain ⟨j, y⟩ := p
    simp [smSorted] at hm
    unfold smPut
    split
    · subst_vars; simpa [smSorted] using hm
    · split
      · simp [smSorted, hm]; assumption
      · simpa [smSorted] using smSorted_smPut (by omega) x hm

theorem smSorted_smDel {lo : Nat} (k : Nat) {m : SMap α} (hm : smSorted (some lo) m = true) :
    smSorted (some lo) (smDel k m) = true := by
  induction m generalizing lo with
  | nil => simp [smDel, smSorted]
  | cons p m ih =>
    obtain ⟨j, y⟩ := p
    simp [smSorted] at hm
    unfold smDel
    split
    · exact smSorted_mono (by omega) (ih hm.2)
    · simp [smSorted, hm.1, ih hm.2]

theorem smSorted_smDel_none (k : Nat) {m : SMap α} (hm : smSorted none m = true) : smSorted none (smDel k m) = true := by
  cases m with
  | nil => simp [smDel, smSorted]
  | cons p m =>
    obtain ⟨j, y⟩ := p
    simp [smSorted] at hm
    unfold smDel
    split
    · exact smSorted_none (smSorted_smDel k hm)
    · simpa [smSorted] using smSorted_smDel k hm

variable [DecidableEq α]

/-- Reading after a canonical store. -/
theorem smGet_smSet (d : α) (k j : Nat) (x : α) (m : SMap α) :
    smGet d j (smSet d k x m) = if j = k then x else smGet d j m := by
  unfold smSet
  split
  · rename_i h; rw [h]; exact smGet_smDel d k j m
  · exact smGet_smPut d k j x m

@[simp] theorem smGet_smSet_self (d : α) (k : Nat) (x : α) (m : SMap α) : smGet d k (smSet d k x m) = x := by
  simp [smGet_smSet]

theorem smSorted_smSet (d : α) (k : Nat) (x : α) {m : SMap α} (hm : smSorted none m = true) :
    smSorted none (smSet d k x m) = true := by
  unfold smSet
  split
  · exact smSorted_smDel_none k hm
  · exact smSorted_smPut_none k x hm

theorem smNoDefault_smPut (d : α) (k : Nat) {x : α} (hx : x ≠ d) {m : SMap α} (hm : smNoDefault d m = true) :
    smNoDefault d (smPut k x m) = true := by
  induction m with
  | nil => simp [smPut, smNoDefault, hx]
  | cons p m ih =>
    obtain ⟨j, y⟩ := p
    simp [smNoDefault] at hm
    unfold smPut
    split
    · simp [smNoDefault, hx, hm.2]
    · split
      · simp [smNoDefault, hx, hm]
      · simp [smNoDefault, hm.1, ih hm.2]

theorem smNoDefault_smDel (d : α) (k : Nat) {m : SMap α} (hm : smNoDefault d m = true) : smNoDefault d (smDel k m) = true := by
  induction m with
  | nil => simp [smDel, smNoDefault]
  | cons p m ih =>
    obtain ⟨j, y⟩ := p
    simp [smNoDefault] at hm
    unfold smDel
    split
    · exact ih hm.2
    · simp [smNoDefault, hm.1, ih hm.2]

theorem smNoDefault_smSet (d : α) (k : Nat) (x : α) {m : SMap α} (hm : smNoDefault d m = true) :
    smNoDefault d (smSet d k x m) = true := by
  unfold smSet
  split
  · exact smNoDefault_smDel d k hm
  · exact smNoDefault_smPut d k ‹_› hm

/-! ### Filtering keeps the form -/

omit [DecidableEq α] in
theorem smSorted_filter (p : Nat × α → Bool) {lo : Nat} {m : SMap α} (hm : smSorted (some lo) m = true) :
    smSorted (some lo) (m.filter p) = true := by
  induction m generalizing lo with
  | nil => simp [smSorted]
  | cons q m ih =>
    obtain ⟨j, y⟩ := q
    simp [smSorted] at hm
    by_cases h : p (j, y)
    · simp [List.filter, h, smSorted, hm.1, ih hm.2]
    · simpa [List.filter, h] using ih (smSorted_mono (Nat.le_of_lt hm.1) hm.2)

omit [DecidableEq α] in
theorem smSorted_filter_none (p : Nat × α → Bool) {m : SMap α} (hm : smSorted none m = true) :
    smSorted none (m.filter p) = true := by
  cases m with
  | nil => simp [smSorted]
  | cons q m =>
    obtain ⟨j, y⟩ := q
    simp [smSorted] at hm
    by_cases h : p (j, y)
    · simpa [List.filter, h, smSorted] using smSorted_filter p hm
    · simpa [List.filter, h] using smSorted_none (smSorted_filter p hm)

theorem smNoDefault_filter (d : α) (p : Nat × α → Bool) {m : SMap α} (hm : smNoDefault d m = true) :
    smNoDefault d (m.filter p) = true := by
  induction m with
  | nil => simp [smNoDefault]
  | cons q m ih =>
    obtain ⟨j, y⟩ := q
    simp [smNoDefault] at hm
    by_cases h : p (j, y)
    · simp [List.filter, h, smNoDefault, hm.1, ih hm.2]
    · simpa [List.filter, h] using ih hm.2

end Sys2Proof.Machine
end

