-- ==== Sys2Proof/Laws/Memory.lean ====
section
/-! SUPPORT. Memory: reading after writing, what a write leaves alone, and that every operation keeps the canonical form. -/
namespace Sys2Proof.Machine
open Sys2Proof

/-! ### Reading after writing -/

/-- The device's own write of a byte. -/
theorem Mem.readByte_setByte (m : Mem) (k j : Nat) (b : Byte) :
    (m.setByte k b).readByte j = if j = k then b else m.readByte j :=
  smGet_smSet memDefault k j b m.bytes

/-- A byte reads what was written; one a queue header fixes reads as before (R3, R4). -/
theorem Mem.readByte_writeByte (m : Mem) (k j : Nat) (b : Byte) :
    (m.writeByte k b).readByte j = if j = k ∧ m.fixed k = false then b else m.readByte j := by
  unfold Mem.writeByte
  cases h : m.fixed k <;> simp [Mem.readByte_setByte]

theorem Mem.readByte_writeByte_self (m : Mem) {k : Nat} (h : m.fixed k = false) (b : Byte) :
    (m.writeByte k b).readByte k = b := by
  simp [Mem.readByte_writeByte, h]

theorem Mem.readByte_writeByte_ne (m : Mem) {k j : Nat} (h : j ≠ k) (b : Byte) :
    (m.writeByte k b).readByte j = m.readByte j := by
  simp [Mem.readByte_writeByte, h]

/-- No write changes which bytes queue headers fix. -/
@[simp] theorem Mem.fixed_writeByte (m : Mem) (k j : Nat) (b : Byte) : (m.writeByte k b).fixed j = m.fixed j := by
  unfold Mem.writeByte; split <;> rfl

/-- A byte that a queue header fixes reads as before, whatever is written. -/
theorem Mem.readByte_writeByte_fixed (m : Mem) {j : Nat} (h : m.fixed j = true) (k : Nat) (b : Byte) :
    (m.writeByte k b).readByte j = m.readByte j := by
  rw [Mem.readByte_writeByte]
  split
  · next hk => obtain ⟨rfl, hk⟩ := hk; rw [h] at hk; cases hk
  · rfl

/-- Bytes outside the n stored ones read as before. -/
theorem Mem.readByte_writeNat_out (n : Nat) (m : Mem) (key x j : Nat) (h : j < key ∨ key + n ≤ j) :
    (m.writeNat key n x).readByte j = m.readByte j := by
  induction n generalizing m key x with
  | zero => rfl
  | succ n ih =>
    rw [Mem.writeNat, ih _ _ _ (by omega), Mem.readByte_writeByte_ne _ (by omega)]

/-- Byte i of the n stored ones holds byte i of the value. -/
theorem Mem.readByte_writeNat_in (n : Nat) (m : Mem) (key x i : Nat) (h : i < n) (hf : m.fixed (key + i) = false) :
    (m.writeNat key n x).readByte (key + i) = BitVec.ofNat 8 (x / 256 ^ i) := by
  induction n generalizing m key x i with
  | zero => omega
  | succ n ih =>
    rw [Mem.writeNat]
    cases i with
    | zero => rw [Mem.readByte_writeNat_out _ _ _ _ _ (by omega), Nat.add_zero, Mem.readByte_writeByte_self _ (by simpa using hf)]; simp
    | succ i =>
      have e : key + (i + 1) = key + 1 + i := by omega
      rw [e, ih _ _ _ _ (by omega) (by simpa [← e] using hf), Nat.div_div_eq_div_mul, Nat.pow_succ, Nat.mul_comm]

/-- Two memories whose n bytes agree read the same value. -/
theorem Mem.readNat_congr (n : Nat) (m m' : Mem) (key : Nat)
    (h : ∀ j, key ≤ j → j < key + n → m.readByte j = m'.readByte j) : m.readNat key n = m'.readNat key n := by
  induction n generalizing key with
  | zero => rfl
  | succ n ih =>
    simp only [Mem.readNat]
    rw [h key (by omega) (by omega), ih (key + 1) (fun j h1 h2 => h j (by omega) (by omega))]

/-- A value read where it was written is its n low bytes (R2), where no queue header fixes one of them. -/
theorem Mem.readNat_writeNat (n : Nat) (m : Mem) (key x : Nat) (hf : ∀ j, key ≤ j → j < key + n → m.fixed j = false) :
    (m.writeNat key n x).readNat key n = x % 256 ^ n := by
  induction n generalizing m key x with
  | zero => simp [Mem.readNat, Nat.mod_one]
  | succ n ih =>
    simp only [Mem.readNat, Mem.writeNat]
    rw [Mem.readByte_writeNat_out _ _ _ _ _ (by omega), ih _ _ _ (fun j h1 h2 => by simpa using hf j (by omega) (by omega)),
      Mem.readByte_writeByte_self _ (hf key (by omega) (by omega)), Nat.pow_succ,
      Nat.mul_comm (256 ^ n) 256, Nat.mod_mul]
    simp

/-- A value elsewhere reads as before. -/
theorem Mem.readNat_writeNat_out (m : Mem) (key n x k' n' : Nat) (h : k' + n' ≤ key ∨ key + n ≤ k') :
    (m.writeNat key n x).readNat k' n' = m.readNat k' n' :=
  Mem.readNat_congr n' _ _ k' (fun j _ _ => Mem.readByte_writeNat_out n m key x j (by omega))

/-- Bytes outside those stored read as before. -/
theorem Mem.readByte_writeBytes_out (bs : List Byte) (m : Mem) (key j : Nat) (h : j < key ∨ key + bs.length ≤ j) :
    (m.writeBytes key bs).readByte j = m.readByte j := by
  induction bs generalizing m key with
  | nil => rfl
  | cons b bs ih =>
    simp only [List.length_cons] at h
    rw [Mem.writeBytes, ih _ _ (by omega), Mem.readByte_writeByte_ne _ (by omega)]

/-- The bytes read where they were written, where no queue header fixes one of them. -/
theorem Mem.readBytes_writeBytes (bs : List Byte) (m : Mem) (key : Nat)
    (hf : ∀ j, key ≤ j → j < key + bs.length → m.fixed j = false) : (m.writeBytes key bs).readBytes key bs.length = bs := by
  induction bs generalizing m key with
  | nil => rfl
  | cons b bs ih =>
    simp only [List.length_cons] at hf
    simp only [Mem.readBytes, Mem.writeBytes, List.length_cons]
    rw [Mem.readByte_writeBytes_out _ _ _ _ (by omega), Mem.readByte_writeByte_self _ (hf key (by omega) (by omega)),
      ih _ _ (fun j h1 h2 => by simpa using hf j (by omega) (by omega))]

/-- A cleared range reads as unlisted bytes do, the rest as before. -/
theorem Mem.readByte_clear (m : Mem) (key n j : Nat) :
    (m.clear key n).readByte j = if key ≤ j ∧ j < key + n then memDefault else m.readByte j := by
  simp only [Mem.readByte, Mem.clear]
  rw [smGet_filter memDefault (fun k => !(decide (key ≤ k) && decide (k < key + n))) j m.bytes]
  by_cases h : key ≤ j ∧ j < key + n
  · simp [h]
  · have : j < key ∨ key + n ≤ j := by omega
    simp [h, this]

/-- Keys outside the list read as before. -/
theorem readByte_writeKeys_out (xs : List (Nat × Byte)) (m : Mem) (j : Nat) (h : ∀ x ∈ xs, x.1 ≠ j) :
    (writeKeys m xs).readByte j = m.readByte j := by
  induction xs generalizing m with
  | nil => rfl
  | cons x xs ih =>
    rw [writeKeys, ih _ (fun y hy => h y (List.mem_cons_of_mem _ hy)),
      Mem.readByte_writeByte_ne _ (fun e => h x List.mem_cons_self e.symm)]

/-! ### The canonical form -/

/-- Memory is in its form where its bytes are. -/
theorem memWf_congr {m m' : Mem} (h : m'.bytes = m.bytes) (hm : memWf m) : memWf m' := by
  unfold memWf at *; rwa [h]

theorem memWf_setByte {m : Mem} (hm : memWf m) (k : Nat) (b : Byte) : memWf (m.setByte k b) :=
  ⟨smSorted_smSet memDefault k b hm.1, smNoDefault_smSet memDefault k b hm.2⟩

theorem memWf_writeByte {m : Mem} (hm : memWf m) (k : Nat) (b : Byte) : memWf (m.writeByte k b) := by
  unfold Mem.writeByte; split
  · exact hm
  · exact memWf_setByte hm k b

theorem memWf_setNat (n : Nat) {m : Mem} (hm : memWf m) (key x : Nat) : memWf (m.setNat key n x) := by
  induction n generalizing m key x with
  | zero => exact hm
  | succ n ih => exact ih (memWf_setByte hm _ _) _ _

theorem memWf_writeNat (n : Nat) {m : Mem} (hm : memWf m) (key x : Nat) : memWf (m.writeNat key n x) := by
  induction n generalizing m key x with
  | zero => exact hm
  | succ n ih => exact ih (memWf_writeByte hm _ _) _ _

theorem memWf_writeBytes (bs : List Byte) {m : Mem} (hm : memWf m) (key : Nat) : memWf (m.writeBytes key bs) := by
  induction bs generalizing m key with
  | nil => exact hm
  | cons b bs ih => exact ih (memWf_writeByte hm _ _) _

theorem memWf_writeKeys (xs : List (Nat × Byte)) {m : Mem} (hm : memWf m) : memWf (writeKeys m xs) := by
  induction xs generalizing m with
  | nil => exact hm
  | cons x xs ih => exact ih (memWf_writeByte hm _ _)

theorem memWf_outWords (et : Et) (xs : List (Nat × Nat)) {m : Mem} (hm : memWf m) : memWf (outWords et m xs) := by
  induction xs generalizing m with
  | nil => exact hm
  | cons x xs ih => exact ih (memWf_writeNat _ hm _ _)

theorem memWf_clear {m : Mem} (hm : memWf m) (key n : Nat) : memWf (m.clear key n) :=
  ⟨smSorted_filter_none _ hm.1, smNoDefault_filter memDefault _ hm.2⟩

/-- Any number of writes, one after another, keeps the form. -/
theorem memWf_foldl {β : Type} (f : Mem → β → Mem) (hf : ∀ m x, memWf m → memWf (f m x)) (xs : List β) {m : Mem}
    (hm : memWf m) : memWf (xs.foldl f m) := by
  induction xs generalizing m with
  | nil => exact hm
  | cons x xs ih => exact ih (hf _ _ hm)

theorem memWf_blank {m : Mem} (hm : memWf m) (key n : Nat) : memWf (m.blank key n) :=
  ⟨smSorted_filter_none _ hm.1, smNoDefault_filter memDefault _ hm.2⟩

theorem memWf_copy {m : Mem} (hm : memWf m) (src dst n : Nat) : memWf (m.copy src dst n) := by
  unfold Mem.copy
  exact memWf_congr rfl (memWf_foldl _ (fun _ _ h => memWf_writeByte h _ _) _ (memWf_blank hm dst n))

/-- The host's bytes alone are in the form (R300). -/
theorem memWf_hostBytes {m : Mem} (hm : memWf m) : memWf { bytes := hostBytes m } :=
  ⟨smSorted_filter_none _ hm.1, smNoDefault_filter memDefault _ hm.2⟩

/-- The memory after reset lists nothing. -/
theorem memWf_reset : memWf State.reset.mem := by decide

/-! ### Accesses -/

/-- The address check answers a key only for an address below 2^57 (R196). -/
theorem checkAccess_ok {s : State} {w : Who} {k : AccKind} {a : Word} {n key : Nat} {cls : Option Cls}
    (h : checkAccess s w k a n = .ok key cls) : a.toNat < 2 ^ 57 := by
  unfold checkAccess at h
  by_cases hx : 2 ^ 57 ≤ a.toNat
  · rw [if_pos hx] at h; cases h
  · omega

/-- Permission turns no failed translation into one that succeeds (R199). -/
theorem TRes.permit_ok {k : AccKind} {r : TRes} {l : Leaf} (h : r.permit k = .ok l) : r = .ok l := by
  cases r <;> cases k <;> simp only [TRes.permit] at h <;> first | exact h | (split at h <;> first | exact h | cases h)

end Sys2Proof.Machine
end

