-- ==== Sys2Proof/Laws/State.lean ====
section
/-! SUPPORT. One lemma for each field after each update of the state, and for each unit read after a unit is written. -/
namespace Sys2Proof.Machine
open Sys2Proof

@[simp] theorem State.setCore_mem (s : State) (c : Nat) (x : Core) : (s.setCore c x).mem = s.mem := rfl
@[simp] theorem State.setCore_dies (s : State) (c : Nat) (x : Core) : (s.setCore c x).dies = s.dies := rfl
@[simp] theorem State.setCore_arrays (s : State) (c : Nat) (x : Core) : (s.setCore c x).arrays = s.arrays := rfl
@[simp] theorem State.setCore_bars (s : State) (c : Nat) (x : Core) : (s.setCore c x).bars = s.bars := rfl
@[simp] theorem State.setCore_chans (s : State) (c : Nat) (x : Core) : (s.setCore c x).chans = s.chans := rfl
@[simp] theorem State.setCore_flight (s : State) (c : Nat) (x : Core) : (s.setCore c x).flight = s.flight := rfl
@[simp] theorem State.setCore_ctxs (s : State) (c : Nat) (x : Core) : (s.setCore c x).ctxs = s.ctxs := rfl
@[simp] theorem State.setCore_tlb (s : State) (c : Nat) (x : Core) : (s.setCore c x).tlb = s.tlb := rfl
@[simp] theorem State.setCore_hg (s : State) (c : Nat) (x : Core) : (s.setCore c x).hg = s.hg := rfl
@[simp] theorem State.setCore_work (s : State) (c : Nat) (x : Core) : (s.setCore c x).work = s.work := rfl
@[simp] theorem State.setCore_weir (s : State) (c : Nat) (x : Core) : (s.setCore c x).weir = s.weir := rfl
@[simp] theorem State.setCore_mgmt (s : State) (c : Nat) (x : Core) : (s.setCore c x).mgmt = s.mgmt := rfl
@[simp] theorem State.setCore_lives (s : State) (c : Nat) (x : Core) : (s.setCore c x).lives = s.lives := rfl
@[simp] theorem State.setCore_log (s : State) (c : Nat) (x : Core) : (s.setCore c x).log = s.log := rfl
@[simp] theorem State.setCore_harvest (s : State) (c : Nat) (x : Core) : (s.setCore c x).harvest = s.harvest := rfl
@[simp] theorem State.setCore_sched (s : State) (c : Nat) (x : Core) : (s.setCore c x).sched = s.sched := rfl
@[simp] theorem State.setCore_agent (s : State) (c : Nat) (x : Core) : (s.setCore c x).agent = s.agent := rfl
@[simp] theorem State.setCore_cur (s : State) (c : Nat) (x : Core) : (s.setCore c x).cur = s.cur := rfl
@[simp] theorem State.setCore_fresh (s : State) (c : Nat) (x : Core) : (s.setCore c x).fresh = s.fresh := rfl
@[simp] theorem State.setCore_me (s : State) (c : Nat) (x : Core) : (s.setCore c x).me = s.me := rfl
@[simp] theorem State.setCore_at_die (s : State) (c : Nat) (x : Core) (j : Nat) : (s.setCore c x).die j = s.die j := rfl
@[simp] theorem State.setCore_at_array (s : State) (c : Nat) (x : Core) (j : Nat) : (s.setCore c x).array j = s.array j := rfl
@[simp] theorem State.setCore_at_bar (s : State) (c : Nat) (x : Core) (j : Nat) : (s.setCore c x).bar j = s.bar j := rfl
@[simp] theorem State.setCore_at_chan (s : State) (c : Nat) (x : Core) (j : Nat) : (s.setCore c x).chan j = s.chan j := rfl
@[simp] theorem State.setCore_at_ctx (s : State) (c : Nat) (x : Core) (j : Nat) : (s.setCore c x).ctx j = s.ctx j := rfl
@[simp] theorem State.setCore_at_scope (s : State) (c : Nat) (x : Core) (j : Nat) : (s.setCore c x).scope j = s.scope j := rfl
@[simp] theorem State.setCore_at_launch (s : State) (c : Nat) (x : Core) (j : Nat) : (s.setCore c x).launch j = s.launch j := rfl
@[simp] theorem State.setCore_at_queue (s : State) (c : Nat) (x : Core) (j : Nat) : (s.setCore c x).queue j = s.queue j := rfl
@[simp] theorem State.setCore_at_op (s : State) (c : Nat) (x : Core) (j : Nat) : (s.setCore c x).op j = s.op j := rfl
@[simp] theorem State.setCore_at_run (s : State) (c : Nat) (x : Core) (j : Nat) : (s.setCore c x).run j = s.run j := rfl
@[simp] theorem State.setCore_at_tensor (s : State) (c : Nat) (x : Core) (j : Nat) : (s.setCore c x).tensor j = s.tensor j := rfl
@[simp] theorem State.setCore_at_req (s : State) (c : Nat) (x : Core) (j : Nat) : (s.setCore c x).req j = s.req j := rfl
@[simp] theorem State.setCore_at_frame (s : State) (c : Nat) (x : Core) (j : Nat) : (s.setCore c x).frame j = s.frame j := rfl

@[simp] theorem State.setTh_mem (s : State) (c : Nat) (x : Thread) : (s.setTh c x).mem = s.mem := rfl
@[simp] theorem State.setTh_dies (s : State) (c : Nat) (x : Thread) : (s.setTh c x).dies = s.dies := rfl
@[simp] theorem State.setTh_arrays (s : State) (c : Nat) (x : Thread) : (s.setTh c x).arrays = s.arrays := rfl
@[simp] theorem State.setTh_bars (s : State) (c : Nat) (x : Thread) : (s.setTh c x).bars = s.bars := rfl
@[simp] theorem State.setTh_chans (s : State) (c : Nat) (x : Thread) : (s.setTh c x).chans = s.chans := rfl
@[simp] theorem State.setTh_flight (s : State) (c : Nat) (x : Thread) : (s.setTh c x).flight = s.flight := rfl
@[simp] theorem State.setTh_ctxs (s : State) (c : Nat) (x : Thread) : (s.setTh c x).ctxs = s.ctxs := rfl
@[simp] theorem State.setTh_tlb (s : State) (c : Nat) (x : Thread) : (s.setTh c x).tlb = s.tlb := rfl
@[simp] theorem State.setTh_hg (s : State) (c : Nat) (x : Thread) : (s.setTh c x).hg = s.hg := rfl
@[simp] theorem State.setTh_work (s : State) (c : Nat) (x : Thread) : (s.setTh c x).work = s.work := rfl
@[simp] theorem State.setTh_weir (s : State) (c : Nat) (x : Thread) : (s.setTh c x).weir = s.weir := rfl
@[simp] theorem State.setTh_mgmt (s : State) (c : Nat) (x : Thread) : (s.setTh c x).mgmt = s.mgmt := rfl
@[simp] theorem State.setTh_lives (s : State) (c : Nat) (x : Thread) : (s.setTh c x).lives = s.lives := rfl
@[simp] theorem State.setTh_log (s : State) (c : Nat) (x : Thread) : (s.setTh c x).log = s.log := rfl
@[simp] theorem State.setTh_harvest (s : State) (c : Nat) (x : Thread) : (s.setTh c x).harvest = s.harvest := rfl
@[simp] theorem State.setTh_sched (s : State) (c : Nat) (x : Thread) : (s.setTh c x).sched = s.sched := rfl
@[simp] theorem State.setTh_agent (s : State) (c : Nat) (x : Thread) : (s.setTh c x).agent = s.agent := rfl
@[simp] theorem State.setTh_cur (s : State) (c : Nat) (x : Thread) : (s.setTh c x).cur = s.cur := rfl
@[simp] theorem State.setTh_fresh (s : State) (c : Nat) (x : Thread) : (s.setTh c x).fresh = s.fresh := rfl
@[simp] theorem State.setTh_me (s : State) (c : Nat) (x : Thread) : (s.setTh c x).me = s.me := rfl
@[simp] theorem State.setTh_at_die (s : State) (c : Nat) (x : Thread) (j : Nat) : (s.setTh c x).die j = s.die j := rfl
@[simp] theorem State.setTh_at_array (s : State) (c : Nat) (x : Thread) (j : Nat) : (s.setTh c x).array j = s.array j := rfl
@[simp] theorem State.setTh_at_bar (s : State) (c : Nat) (x : Thread) (j : Nat) : (s.setTh c x).bar j = s.bar j := rfl
@[simp] theorem State.setTh_at_chan (s : State) (c : Nat) (x : Thread) (j : Nat) : (s.setTh c x).chan j = s.chan j := rfl
@[simp] theorem State.setTh_at_ctx (s : State) (c : Nat) (x : Thread) (j : Nat) : (s.setTh c x).ctx j = s.ctx j := rfl
@[simp] theorem State.setTh_at_scope (s : State) (c : Nat) (x : Thread) (j : Nat) : (s.setTh c x).scope j = s.scope j := rfl
@[simp] theorem State.setTh_at_launch (s : State) (c : Nat) (x : Thread) (j : Nat) : (s.setTh c x).launch j = s.launch j := rfl
@[simp] theorem State.setTh_at_queue (s : State) (c : Nat) (x : Thread) (j : Nat) : (s.setTh c x).queue j = s.queue j := rfl
@[simp] theorem State.setTh_at_op (s : State) (c : Nat) (x : Thread) (j : Nat) : (s.setTh c x).op j = s.op j := rfl
@[simp] theorem State.setTh_at_run (s : State) (c : Nat) (x : Thread) (j : Nat) : (s.setTh c x).run j = s.run j := rfl
@[simp] theorem State.setTh_at_tensor (s : State) (c : Nat) (x : Thread) (j : Nat) : (s.setTh c x).tensor j = s.tensor j := rfl
@[simp] theorem State.setTh_at_req (s : State) (c : Nat) (x : Thread) (j : Nat) : (s.setTh c x).req j = s.req j := rfl
@[simp] theorem State.setTh_at_frame (s : State) (c : Nat) (x : Thread) (j : Nat) : (s.setTh c x).frame j = s.frame j := rfl

@[simp] theorem State.setDie_mem (s : State) (d : Nat) (x : Die) : (s.setDie d x).mem = s.mem := rfl
@[simp] theorem State.setDie_cores (s : State) (d : Nat) (x : Die) : (s.setDie d x).cores = s.cores := rfl
@[simp] theorem State.setDie_arrays (s : State) (d : Nat) (x : Die) : (s.setDie d x).arrays = s.arrays := rfl
@[simp] theorem State.setDie_bars (s : State) (d : Nat) (x : Die) : (s.setDie d x).bars = s.bars := rfl
@[simp] theorem State.setDie_chans (s : State) (d : Nat) (x : Die) : (s.setDie d x).chans = s.chans := rfl
@[simp] theorem State.setDie_flight (s : State) (d : Nat) (x : Die) : (s.setDie d x).flight = s.flight := rfl
@[simp] theorem State.setDie_ctxs (s : State) (d : Nat) (x : Die) : (s.setDie d x).ctxs = s.ctxs := rfl
@[simp] theorem State.setDie_tlb (s : State) (d : Nat) (x : Die) : (s.setDie d x).tlb = s.tlb := rfl
@[simp] theorem State.setDie_hg (s : State) (d : Nat) (x : Die) : (s.setDie d x).hg = s.hg := rfl
@[simp] theorem State.setDie_work (s : State) (d : Nat) (x : Die) : (s.setDie d x).work = s.work := rfl
@[simp] theorem State.setDie_weir (s : State) (d : Nat) (x : Die) : (s.setDie d x).weir = s.weir := rfl
@[simp] theorem State.setDie_mgmt (s : State) (d : Nat) (x : Die) : (s.setDie d x).mgmt = s.mgmt := rfl
@[simp] theorem State.setDie_lives (s : State) (d : Nat) (x : Die) : (s.setDie d x).lives = s.lives := rfl
@[simp] theorem State.setDie_log (s : State) (d : Nat) (x : Die) : (s.setDie d x).log = s.log := rfl
@[simp] theorem State.setDie_harvest (s : State) (d : Nat) (x : Die) : (s.setDie d x).harvest = s.harvest := rfl
@[simp] theorem State.setDie_sched (s : State) (d : Nat) (x : Die) : (s.setDie d x).sched = s.sched := rfl
@[simp] theorem State.setDie_agent (s : State) (d : Nat) (x : Die) : (s.setDie d x).agent = s.agent := rfl
@[simp] theorem State.setDie_cur (s : State) (d : Nat) (x : Die) : (s.setDie d x).cur = s.cur := rfl
@[simp] theorem State.setDie_fresh (s : State) (d : Nat) (x : Die) : (s.setDie d x).fresh = s.fresh := rfl
@[simp] theorem State.setDie_me (s : State) (d : Nat) (x : Die) : (s.setDie d x).me = s.me := rfl
@[simp] theorem State.setDie_at_core (s : State) (d : Nat) (x : Die) (j : Nat) : (s.setDie d x).core j = s.core j := rfl
@[simp] theorem State.setDie_at_th (s : State) (d : Nat) (x : Die) (j : Nat) : (s.setDie d x).th j = s.th j := rfl
@[simp] theorem State.setDie_at_ctxOf (s : State) (d : Nat) (x : Die) (j : Nat) : (s.setDie d x).ctxOf j = s.ctxOf j := rfl
@[simp] theorem State.setDie_at_array (s : State) (d : Nat) (x : Die) (j : Nat) : (s.setDie d x).array j = s.array j := rfl
@[simp] theorem State.setDie_at_bar (s : State) (d : Nat) (x : Die) (j : Nat) : (s.setDie d x).bar j = s.bar j := rfl
@[simp] theorem State.setDie_at_chan (s : State) (d : Nat) (x : Die) (j : Nat) : (s.setDie d x).chan j = s.chan j := rfl
@[simp] theorem State.setDie_at_ctx (s : State) (d : Nat) (x : Die) (j : Nat) : (s.setDie d x).ctx j = s.ctx j := rfl
@[simp] theorem State.setDie_at_scope (s : State) (d : Nat) (x : Die) (j : Nat) : (s.setDie d x).scope j = s.scope j := rfl
@[simp] theorem State.setDie_at_launch (s : State) (d : Nat) (x : Die) (j : Nat) : (s.setDie d x).launch j = s.launch j := rfl
@[simp] theorem State.setDie_at_queue (s : State) (d : Nat) (x : Die) (j : Nat) : (s.setDie d x).queue j = s.queue j := rfl
@[simp] theorem State.setDie_at_op (s : State) (d : Nat) (x : Die) (j : Nat) : (s.setDie d x).op j = s.op j := rfl
@[simp] theorem State.setDie_at_run (s : State) (d : Nat) (x : Die) (j : Nat) : (s.setDie d x).run j = s.run j := rfl
@[simp] theorem State.setDie_at_tensor (s : State) (d : Nat) (x : Die) (j : Nat) : (s.setDie d x).tensor j = s.tensor j := rfl
@[simp] theorem State.setDie_at_req (s : State) (d : Nat) (x : Die) (j : Nat) : (s.setDie d x).req j = s.req j := rfl
@[simp] theorem State.setDie_at_frame (s : State) (d : Nat) (x : Die) (j : Nat) : (s.setDie d x).frame j = s.frame j := rfl

@[simp] theorem State.setArray_mem (s : State) (a : Nat) (x : Array) : (s.setArray a x).mem = s.mem := rfl
@[simp] theorem State.setArray_cores (s : State) (a : Nat) (x : Array) : (s.setArray a x).cores = s.cores := rfl
@[simp] theorem State.setArray_dies (s : State) (a : Nat) (x : Array) : (s.setArray a x).dies = s.dies := rfl
@[simp] theorem State.setArray_bars (s : State) (a : Nat) (x : Array) : (s.setArray a x).bars = s.bars := rfl
@[simp] theorem State.setArray_chans (s : State) (a : Nat) (x : Array) : (s.setArray a x).chans = s.chans := rfl
@[simp] theorem State.setArray_flight (s : State) (a : Nat) (x : Array) : (s.setArray a x).flight = s.flight := rfl
@[simp] theorem State.setArray_ctxs (s : State) (a : Nat) (x : Array) : (s.setArray a x).ctxs = s.ctxs := rfl
@[simp] theorem State.setArray_tlb (s : State) (a : Nat) (x : Array) : (s.setArray a x).tlb = s.tlb := rfl
@[simp] theorem State.setArray_hg (s : State) (a : Nat) (x : Array) : (s.setArray a x).hg = s.hg := rfl
@[simp] theorem State.setArray_work (s : State) (a : Nat) (x : Array) : (s.setArray a x).work = s.work := rfl
@[simp] theorem State.setArray_weir (s : State) (a : Nat) (x : Array) : (s.setArray a x).weir = s.weir := rfl
@[simp] theorem State.setArray_mgmt (s : State) (a : Nat) (x : Array) : (s.setArray a x).mgmt = s.mgmt := rfl
@[simp] theorem State.setArray_lives (s : State) (a : Nat) (x : Array) : (s.setArray a x).lives = s.lives := rfl
@[simp] theorem State.setArray_log (s : State) (a : Nat) (x : Array) : (s.setArray a x).log = s.log := rfl
@[simp] theorem State.setArray_harvest (s : State) (a : Nat) (x : Array) : (s.setArray a x).harvest = s.harvest := rfl
@[simp] theorem State.setArray_sched (s : State) (a : Nat) (x : Array) : (s.setArray a x).sched = s.sched := rfl
@[simp] theorem State.setArray_agent (s : State) (a : Nat) (x : Array) : (s.setArray a x).agent = s.agent := rfl
@[simp] theorem State.setArray_cur (s : State) (a : Nat) (x : Array) : (s.setArray a x).cur = s.cur := rfl
@[simp] theorem State.setArray_fresh (s : State) (a : Nat) (x : Array) : (s.setArray a x).fresh = s.fresh := rfl
@[simp] theorem State.setArray_me (s : State) (a : Nat) (x : Array) : (s.setArray a x).me = s.me := rfl
@[simp] theorem State.setArray_at_core (s : State) (a : Nat) (x : Array) (j : Nat) : (s.setArray a x).core j = s.core j := rfl
@[simp] theorem State.setArray_at_th (s : State) (a : Nat) (x : Array) (j : Nat) : (s.setArray a x).th j = s.th j := rfl
@[simp] theorem State.setArray_at_ctxOf (s : State) (a : Nat) (x : Array) (j : Nat) : (s.setArray a x).ctxOf j = s.ctxOf j := rfl
@[simp] theorem State.setArray_at_die (s : State) (a : Nat) (x : Array) (j : Nat) : (s.setArray a x).die j = s.die j := rfl
@[simp] theorem State.setArray_at_bar (s : State) (a : Nat) (x : Array) (j : Nat) : (s.setArray a x).bar j = s.bar j := rfl
@[simp] theorem State.setArray_at_chan (s : State) (a : Nat) (x : Array) (j : Nat) : (s.setArray a x).chan j = s.chan j := rfl
@[simp] theorem State.setArray_at_ctx (s : State) (a : Nat) (x : Array) (j : Nat) : (s.setArray a x).ctx j = s.ctx j := rfl
@[simp] theorem State.setArray_at_scope (s : State) (a : Nat) (x : Array) (j : Nat) : (s.setArray a x).scope j = s.scope j := rfl
@[simp] theorem State.setArray_at_launch (s : State) (a : Nat) (x : Array) (j : Nat) : (s.setArray a x).launch j = s.launch j := rfl
@[simp] theorem State.setArray_at_queue (s : State) (a : Nat) (x : Array) (j : Nat) : (s.setArray a x).queue j = s.queue j := rfl
@[simp] theorem State.setArray_at_op (s : State) (a : Nat) (x : Array) (j : Nat) : (s.setArray a x).op j = s.op j := rfl
@[simp] theorem State.setArray_at_run (s : State) (a : Nat) (x : Array) (j : Nat) : (s.setArray a x).run j = s.run j := rfl
@[simp] theorem State.setArray_at_tensor (s : State) (a : Nat) (x : Array) (j : Nat) : (s.setArray a x).tensor j = s.tensor j := rfl
@[simp] theorem State.setArray_at_req (s : State) (a : Nat) (x : Array) (j : Nat) : (s.setArray a x).req j = s.req j := rfl
@[simp] theorem State.setArray_at_frame (s : State) (a : Nat) (x : Array) (j : Nat) : (s.setArray a x).frame j = s.frame j := rfl

@[simp] theorem State.setBar_mem (s : State) (b : Nat) (x : Barrier) : (s.setBar b x).mem = s.mem := rfl
@[simp] theorem State.setBar_cores (s : State) (b : Nat) (x : Barrier) : (s.setBar b x).cores = s.cores := rfl
@[simp] theorem State.setBar_dies (s : State) (b : Nat) (x : Barrier) : (s.setBar b x).dies = s.dies := rfl
@[simp] theorem State.setBar_arrays (s : State) (b : Nat) (x : Barrier) : (s.setBar b x).arrays = s.arrays := rfl
@[simp] theorem State.setBar_chans (s : State) (b : Nat) (x : Barrier) : (s.setBar b x).chans = s.chans := rfl
@[simp] theorem State.setBar_flight (s : State) (b : Nat) (x : Barrier) : (s.setBar b x).flight = s.flight := rfl
@[simp] theorem State.setBar_ctxs (s : State) (b : Nat) (x : Barrier) : (s.setBar b x).ctxs = s.ctxs := rfl
@[simp] theorem State.setBar_tlb (s : State) (b : Nat) (x : Barrier) : (s.setBar b x).tlb = s.tlb := rfl
@[simp] theorem State.setBar_hg (s : State) (b : Nat) (x : Barrier) : (s.setBar b x).hg = s.hg := rfl
@[simp] theorem State.setBar_work (s : State) (b : Nat) (x : Barrier) : (s.setBar b x).work = s.work := rfl
@[simp] theorem State.setBar_weir (s : State) (b : Nat) (x : Barrier) : (s.setBar b x).weir = s.weir := rfl
@[simp] theorem State.setBar_mgmt (s : State) (b : Nat) (x : Barrier) : (s.setBar b x).mgmt = s.mgmt := rfl
@[simp] theorem State.setBar_lives (s : State) (b : Nat) (x : Barrier) : (s.setBar b x).lives = s.lives := rfl
@[simp] theorem State.setBar_log (s : State) (b : Nat) (x : Barrier) : (s.setBar b x).log = s.log := rfl
@[simp] theorem State.setBar_harvest (s : State) (b : Nat) (x : Barrier) : (s.setBar b x).harvest = s.harvest := rfl
@[simp] theorem State.setBar_sched (s : State) (b : Nat) (x : Barrier) : (s.setBar b x).sched = s.sched := rfl
@[simp] theorem State.setBar_agent (s : State) (b : Nat) (x : Barrier) : (s.setBar b x).agent = s.agent := rfl
@[simp] theorem State.setBar_cur (s : State) (b : Nat) (x : Barrier) : (s.setBar b x).cur = s.cur := rfl
@[simp] theorem State.setBar_fresh (s : State) (b : Nat) (x : Barrier) : (s.setBar b x).fresh = s.fresh := rfl
@[simp] theorem State.setBar_me (s : State) (b : Nat) (x : Barrier) : (s.setBar b x).me = s.me := rfl
@[simp] theorem State.setBar_at_core (s : State) (b : Nat) (x : Barrier) (j : Nat) : (s.setBar b x).core j = s.core j := rfl
@[simp] theorem State.setBar_at_th (s : State) (b : Nat) (x : Barrier) (j : Nat) : (s.setBar b x).th j = s.th j := rfl
@[simp] theorem State.setBar_at_ctxOf (s : State) (b : Nat) (x : Barrier) (j : Nat) : (s.setBar b x).ctxOf j = s.ctxOf j := rfl
@[simp] theorem State.setBar_at_die (s : State) (b : Nat) (x : Barrier) (j : Nat) : (s.setBar b x).die j = s.die j := rfl
@[simp] theorem State.setBar_at_array (s : State) (b : Nat) (x : Barrier) (j : Nat) : (s.setBar b x).array j = s.array j := rfl
@[simp] theorem State.setBar_at_chan (s : State) (b : Nat) (x : Barrier) (j : Nat) : (s.setBar b x).chan j = s.chan j := rfl
@[simp] theorem State.setBar_at_ctx (s : State) (b : Nat) (x : Barrier) (j : Nat) : (s.setBar b x).ctx j = s.ctx j := rfl
@[simp] theorem State.setBar_at_scope (s : State) (b : Nat) (x : Barrier) (j : Nat) : (s.setBar b x).scope j = s.scope j := rfl
@[simp] theorem State.setBar_at_launch (s : State) (b : Nat) (x : Barrier) (j : Nat) : (s.setBar b x).launch j = s.launch j := rfl
@[simp] theorem State.setBar_at_queue (s : State) (b : Nat) (x : Barrier) (j : Nat) : (s.setBar b x).queue j = s.queue j := rfl
@[simp] theorem State.setBar_at_op (s : State) (b : Nat) (x : Barrier) (j : Nat) : (s.setBar b x).op j = s.op j := rfl
@[simp] theorem State.setBar_at_run (s : State) (b : Nat) (x : Barrier) (j : Nat) : (s.setBar b x).run j = s.run j := rfl
@[simp] theorem State.setBar_at_tensor (s : State) (b : Nat) (x : Barrier) (j : Nat) : (s.setBar b x).tensor j = s.tensor j := rfl
@[simp] theorem State.setBar_at_req (s : State) (b : Nat) (x : Barrier) (j : Nat) : (s.setBar b x).req j = s.req j := rfl
@[simp] theorem State.setBar_at_frame (s : State) (b : Nat) (x : Barrier) (j : Nat) : (s.setBar b x).frame j = s.frame j := rfl

@[simp] theorem State.setChan_mem (s : State) (b : Nat) (x : Channel) : (s.setChan b x).mem = s.mem := rfl
@[simp] theorem State.setChan_cores (s : State) (b : Nat) (x : Channel) : (s.setChan b x).cores = s.cores := rfl
@[simp] theorem State.setChan_dies (s : State) (b : Nat) (x : Channel) : (s.setChan b x).dies = s.dies := rfl
@[simp] theorem State.setChan_arrays (s : State) (b : Nat) (x : Channel) : (s.setChan b x).arrays = s.arrays := rfl
@[simp] theorem State.setChan_bars (s : State) (b : Nat) (x : Channel) : (s.setChan b x).bars = s.bars := rfl
@[simp] theorem State.setChan_flight (s : State) (b : Nat) (x : Channel) : (s.setChan b x).flight = s.flight := rfl
@[simp] theorem State.setChan_ctxs (s : State) (b : Nat) (x : Channel) : (s.setChan b x).ctxs = s.ctxs := rfl
@[simp] theorem State.setChan_tlb (s : State) (b : Nat) (x : Channel) : (s.setChan b x).tlb = s.tlb := rfl
@[simp] theorem State.setChan_hg (s : State) (b : Nat) (x : Channel) : (s.setChan b x).hg = s.hg := rfl
@[simp] theorem State.setChan_work (s : State) (b : Nat) (x : Channel) : (s.setChan b x).work = s.work := rfl
@[simp] theorem State.setChan_weir (s : State) (b : Nat) (x : Channel) : (s.setChan b x).weir = s.weir := rfl
@[simp] theorem State.setChan_mgmt (s : State) (b : Nat) (x : Channel) : (s.setChan b x).mgmt = s.mgmt := rfl
@[simp] theorem State.setChan_lives (s : State) (b : Nat) (x : Channel) : (s.setChan b x).lives = s.lives := rfl
@[simp] theorem State.setChan_log (s : State) (b : Nat) (x : Channel) : (s.setChan b x).log = s.log := rfl
@[simp] theorem State.setChan_harvest (s : State) (b : Nat) (x : Channel) : (s.setChan b x).harvest = s.harvest := rfl
@[simp] theorem State.setChan_sched (s : State) (b : Nat) (x : Channel) : (s.setChan b x).sched = s.sched := rfl
@[simp] theorem State.setChan_agent (s : State) (b : Nat) (x : Channel) : (s.setChan b x).agent = s.agent := rfl
@[simp] theorem State.setChan_cur (s : State) (b : Nat) (x : Channel) : (s.setChan b x).cur = s.cur := rfl
@[simp] theorem State.setChan_fresh (s : State) (b : Nat) (x : Channel) : (s.setChan b x).fresh = s.fresh := rfl
@[simp] theorem State.setChan_me (s : State) (b : Nat) (x : Channel) : (s.setChan b x).me = s.me := rfl
@[simp] theorem State.setChan_at_core (s : State) (b : Nat) (x : Channel) (j : Nat) : (s.setChan b x).core j = s.core j := rfl
@[simp] theorem State.setChan_at_th (s : State) (b : Nat) (x : Channel) (j : Nat) : (s.setChan b x).th j = s.th j := rfl
@[simp] theorem State.setChan_at_ctxOf (s : State) (b : Nat) (x : Channel) (j : Nat) : (s.setChan b x).ctxOf j = s.ctxOf j := rfl
@[simp] theorem State.setChan_at_die (s : State) (b : Nat) (x : Channel) (j : Nat) : (s.setChan b x).die j = s.die j := rfl
@[simp] theorem State.setChan_at_array (s : State) (b : Nat) (x : Channel) (j : Nat) : (s.setChan b x).array j = s.array j := rfl
@[simp] theorem State.setChan_at_bar (s : State) (b : Nat) (x : Channel) (j : Nat) : (s.setChan b x).bar j = s.bar j := rfl
@[simp] theorem State.setChan_at_ctx (s : State) (b : Nat) (x : Channel) (j : Nat) : (s.setChan b x).ctx j = s.ctx j := rfl
@[simp] theorem State.setChan_at_scope (s : State) (b : Nat) (x : Channel) (j : Nat) : (s.setChan b x).scope j = s.scope j := rfl
@[simp] theorem State.setChan_at_launch (s : State) (b : Nat) (x : Channel) (j : Nat) : (s.setChan b x).launch j = s.launch j := rfl
@[simp] theorem State.setChan_at_queue (s : State) (b : Nat) (x : Channel) (j : Nat) : (s.setChan b x).queue j = s.queue j := rfl
@[simp] theorem State.setChan_at_op (s : State) (b : Nat) (x : Channel) (j : Nat) : (s.setChan b x).op j = s.op j := rfl
@[simp] theorem State.setChan_at_run (s : State) (b : Nat) (x : Channel) (j : Nat) : (s.setChan b x).run j = s.run j := rfl
@[simp] theorem State.setChan_at_tensor (s : State) (b : Nat) (x : Channel) (j : Nat) : (s.setChan b x).tensor j = s.tensor j := rfl
@[simp] theorem State.setChan_at_req (s : State) (b : Nat) (x : Channel) (j : Nat) : (s.setChan b x).req j = s.req j := rfl
@[simp] theorem State.setChan_at_frame (s : State) (b : Nat) (x : Channel) (j : Nat) : (s.setChan b x).frame j = s.frame j := rfl

@[simp] theorem State.setCtx_mem (s : State) (k : Nat) (x : Context) : (s.setCtx k x).mem = s.mem := rfl
@[simp] theorem State.setCtx_cores (s : State) (k : Nat) (x : Context) : (s.setCtx k x).cores = s.cores := rfl
@[simp] theorem State.setCtx_dies (s : State) (k : Nat) (x : Context) : (s.setCtx k x).dies = s.dies := rfl
@[simp] theorem State.setCtx_arrays (s : State) (k : Nat) (x : Context) : (s.setCtx k x).arrays = s.arrays := rfl
@[simp] theorem State.setCtx_bars (s : State) (k : Nat) (x : Context) : (s.setCtx k x).bars = s.bars := rfl
@[simp] theorem State.setCtx_chans (s : State) (k : Nat) (x : Context) : (s.setCtx k x).chans = s.chans := rfl
@[simp] theorem State.setCtx_flight (s : State) (k : Nat) (x : Context) : (s.setCtx k x).flight = s.flight := rfl
@[simp] theorem State.setCtx_tlb (s : State) (k : Nat) (x : Context) : (s.setCtx k x).tlb = s.tlb := rfl
@[simp] theorem State.setCtx_hg (s : State) (k : Nat) (x : Context) : (s.setCtx k x).hg = s.hg := rfl
@[simp] theorem State.setCtx_work (s : State) (k : Nat) (x : Context) : (s.setCtx k x).work = s.work := rfl
@[simp] theorem State.setCtx_weir (s : State) (k : Nat) (x : Context) : (s.setCtx k x).weir = s.weir := rfl
@[simp] theorem State.setCtx_mgmt (s : State) (k : Nat) (x : Context) : (s.setCtx k x).mgmt = s.mgmt := rfl
@[simp] theorem State.setCtx_lives (s : State) (k : Nat) (x : Context) : (s.setCtx k x).lives = s.lives := rfl
@[simp] theorem State.setCtx_log (s : State) (k : Nat) (x : Context) : (s.setCtx k x).log = s.log := rfl
@[simp] theorem State.setCtx_harvest (s : State) (k : Nat) (x : Context) : (s.setCtx k x).harvest = s.harvest := rfl
@[simp] theorem State.setCtx_sched (s : State) (k : Nat) (x : Context) : (s.setCtx k x).sched = s.sched := rfl
@[simp] theorem State.setCtx_agent (s : State) (k : Nat) (x : Context) : (s.setCtx k x).agent = s.agent := rfl
@[simp] theorem State.setCtx_cur (s : State) (k : Nat) (x : Context) : (s.setCtx k x).cur = s.cur := rfl
@[simp] theorem State.setCtx_fresh (s : State) (k : Nat) (x : Context) : (s.setCtx k x).fresh = s.fresh := rfl
@[simp] theorem State.setCtx_me (s : State) (k : Nat) (x : Context) : (s.setCtx k x).me = s.me := rfl
@[simp] theorem State.setCtx_at_core (s : State) (k : Nat) (x : Context) (j : Nat) : (s.setCtx k x).core j = s.core j := rfl
@[simp] theorem State.setCtx_at_th (s : State) (k : Nat) (x : Context) (j : Nat) : (s.setCtx k x).th j = s.th j := rfl
@[simp] theorem State.setCtx_at_ctxOf (s : State) (k : Nat) (x : Context) (j : Nat) : (s.setCtx k x).ctxOf j = s.ctxOf j := rfl
@[simp] theorem State.setCtx_at_die (s : State) (k : Nat) (x : Context) (j : Nat) : (s.setCtx k x).die j = s.die j := rfl
@[simp] theorem State.setCtx_at_array (s : State) (k : Nat) (x : Context) (j : Nat) : (s.setCtx k x).array j = s.array j := rfl
@[simp] theorem State.setCtx_at_bar (s : State) (k : Nat) (x : Context) (j : Nat) : (s.setCtx k x).bar j = s.bar j := rfl
@[simp] theorem State.setCtx_at_chan (s : State) (k : Nat) (x : Context) (j : Nat) : (s.setCtx k x).chan j = s.chan j := rfl
@[simp] theorem State.setCtx_at_scope (s : State) (k : Nat) (x : Context) (j : Nat) : (s.setCtx k x).scope j = s.scope j := rfl
@[simp] theorem State.setCtx_at_launch (s : State) (k : Nat) (x : Context) (j : Nat) : (s.setCtx k x).launch j = s.launch j := rfl
@[simp] theorem State.setCtx_at_queue (s : State) (k : Nat) (x : Context) (j : Nat) : (s.setCtx k x).queue j = s.queue j := rfl
@[simp] theorem State.setCtx_at_op (s : State) (k : Nat) (x : Context) (j : Nat) : (s.setCtx k x).op j = s.op j := rfl
@[simp] theorem State.setCtx_at_run (s : State) (k : Nat) (x : Context) (j : Nat) : (s.setCtx k x).run j = s.run j := rfl
@[simp] theorem State.setCtx_at_tensor (s : State) (k : Nat) (x : Context) (j : Nat) : (s.setCtx k x).tensor j = s.tensor j := rfl
@[simp] theorem State.setCtx_at_req (s : State) (k : Nat) (x : Context) (j : Nat) : (s.setCtx k x).req j = s.req j := rfl
@[simp] theorem State.setCtx_at_frame (s : State) (k : Nat) (x : Context) (j : Nat) : (s.setCtx k x).frame j = s.frame j := rfl

@[simp] theorem State.setScope_mem (s : State) (n : Nat) (x : Scope) : (s.setScope n x).mem = s.mem := rfl
@[simp] theorem State.setScope_cores (s : State) (n : Nat) (x : Scope) : (s.setScope n x).cores = s.cores := rfl
@[simp] theorem State.setScope_dies (s : State) (n : Nat) (x : Scope) : (s.setScope n x).dies = s.dies := rfl
@[simp] theorem State.setScope_arrays (s : State) (n : Nat) (x : Scope) : (s.setScope n x).arrays = s.arrays := rfl
@[simp] theorem State.setScope_bars (s : State) (n : Nat) (x : Scope) : (s.setScope n x).bars = s.bars := rfl
@[simp] theorem State.setScope_chans (s : State) (n : Nat) (x : Scope) : (s.setScope n x).chans = s.chans := rfl
@[simp] theorem State.setScope_flight (s : State) (n : Nat) (x : Scope) : (s.setScope n x).flight = s.flight := rfl
@[simp] theorem State.setScope_ctxs (s : State) (n : Nat) (x : Scope) : (s.setScope n x).ctxs = s.ctxs := rfl
@[simp] theorem State.setScope_tlb (s : State) (n : Nat) (x : Scope) : (s.setScope n x).tlb = s.tlb := rfl
@[simp] theorem State.setScope_work (s : State) (n : Nat) (x : Scope) : (s.setScope n x).work = s.work := rfl
@[simp] theorem State.setScope_weir (s : State) (n : Nat) (x : Scope) : (s.setScope n x).weir = s.weir := rfl
@[simp] theorem State.setScope_mgmt (s : State) (n : Nat) (x : Scope) : (s.setScope n x).mgmt = s.mgmt := rfl
@[simp] theorem State.setScope_lives (s : State) (n : Nat) (x : Scope) : (s.setScope n x).lives = s.lives := rfl
@[simp] theorem State.setScope_log (s : State) (n : Nat) (x : Scope) : (s.setScope n x).log = s.log := rfl
@[simp] theorem State.setScope_harvest (s : State) (n : Nat) (x : Scope) : (s.setScope n x).harvest = s.harvest := rfl
@[simp] theorem State.setScope_sched (s : State) (n : Nat) (x : Scope) : (s.setScope n x).sched = s.sched := rfl
@[simp] theorem State.setScope_agent (s : State) (n : Nat) (x : Scope) : (s.setScope n x).agent = s.agent := rfl
@[simp] theorem State.setScope_cur (s : State) (n : Nat) (x : Scope) : (s.setScope n x).cur = s.cur := rfl
@[simp] theorem State.setScope_fresh (s : State) (n : Nat) (x : Scope) : (s.setScope n x).fresh = s.fresh := rfl
@[simp] theorem State.setScope_me (s : State) (n : Nat) (x : Scope) : (s.setScope n x).me = s.me := rfl
@[simp] theorem State.setScope_at_core (s : State) (n : Nat) (x : Scope) (j : Nat) : (s.setScope n x).core j = s.core j := rfl
@[simp] theorem State.setScope_at_th (s : State) (n : Nat) (x : Scope) (j : Nat) : (s.setScope n x).th j = s.th j := rfl
@[simp] theorem State.setScope_at_ctxOf (s : State) (n : Nat) (x : Scope) (j : Nat) : (s.setScope n x).ctxOf j = s.ctxOf j := rfl
@[simp] theorem State.setScope_at_die (s : State) (n : Nat) (x : Scope) (j : Nat) : (s.setScope n x).die j = s.die j := rfl
@[simp] theorem State.setScope_at_array (s : State) (n : Nat) (x : Scope) (j : Nat) : (s.setScope n x).array j = s.array j := rfl
@[simp] theorem State.setScope_at_bar (s : State) (n : Nat) (x : Scope) (j : Nat) : (s.setScope n x).bar j = s.bar j := rfl
@[simp] theorem State.setScope_at_chan (s : State) (n : Nat) (x : Scope) (j : Nat) : (s.setScope n x).chan j = s.chan j := rfl
@[simp] theorem State.setScope_at_ctx (s : State) (n : Nat) (x : Scope) (j : Nat) : (s.setScope n x).ctx j = s.ctx j := rfl
@[simp] theorem State.setScope_at_launch (s : State) (n : Nat) (x : Scope) (j : Nat) : (s.setScope n x).launch j = s.launch j := rfl
@[simp] theorem State.setScope_at_queue (s : State) (n : Nat) (x : Scope) (j : Nat) : (s.setScope n x).queue j = s.queue j := rfl
@[simp] theorem State.setScope_at_op (s : State) (n : Nat) (x : Scope) (j : Nat) : (s.setScope n x).op j = s.op j := rfl
@[simp] theorem State.setScope_at_run (s : State) (n : Nat) (x : Scope) (j : Nat) : (s.setScope n x).run j = s.run j := rfl
@[simp] theorem State.setScope_at_tensor (s : State) (n : Nat) (x : Scope) (j : Nat) : (s.setScope n x).tensor j = s.tensor j := rfl
@[simp] theorem State.setScope_at_req (s : State) (n : Nat) (x : Scope) (j : Nat) : (s.setScope n x).req j = s.req j := rfl
@[simp] theorem State.setScope_at_frame (s : State) (n : Nat) (x : Scope) (j : Nat) : (s.setScope n x).frame j = s.frame j := rfl

@[simp] theorem State.setLaunch_mem (s : State) (l : Nat) (x : Launch) : (s.setLaunch l x).mem = s.mem := rfl
@[simp] theorem State.setLaunch_cores (s : State) (l : Nat) (x : Launch) : (s.setLaunch l x).cores = s.cores := rfl
@[simp] theorem State.setLaunch_dies (s : State) (l : Nat) (x : Launch) : (s.setLaunch l x).dies = s.dies := rfl
@[simp] theorem State.setLaunch_arrays (s : State) (l : Nat) (x : Launch) : (s.setLaunch l x).arrays = s.arrays := rfl
@[simp] theorem State.setLaunch_bars (s : State) (l : Nat) (x : Launch) : (s.setLaunch l x).bars = s.bars := rfl
@[simp] theorem State.setLaunch_chans (s : State) (l : Nat) (x : Launch) : (s.setLaunch l x).chans = s.chans := rfl
@[simp] theorem State.setLaunch_flight (s : State) (l : Nat) (x : Launch) : (s.setLaunch l x).flight = s.flight := rfl
@[simp] theorem State.setLaunch_ctxs (s : State) (l : Nat) (x : Launch) : (s.setLaunch l x).ctxs = s.ctxs := rfl
@[simp] theorem State.setLaunch_tlb (s : State) (l : Nat) (x : Launch) : (s.setLaunch l x).tlb = s.tlb := rfl
@[simp] theorem State.setLaunch_hg (s : State) (l : Nat) (x : Launch) : (s.setLaunch l x).hg = s.hg := rfl
@[simp] theorem State.setLaunch_weir (s : State) (l : Nat) (x : Launch) : (s.setLaunch l x).weir = s.weir := rfl
@[simp] theorem State.setLaunch_mgmt (s : State) (l : Nat) (x : Launch) : (s.setLaunch l x).mgmt = s.mgmt := rfl
@[simp] theorem State.setLaunch_lives (s : State) (l : Nat) (x : Launch) : (s.setLaunch l x).lives = s.lives := rfl
@[simp] theorem State.setLaunch_log (s : State) (l : Nat) (x : Launch) : (s.setLaunch l x).log = s.log := rfl
@[simp] theorem State.setLaunch_harvest (s : State) (l : Nat) (x : Launch) : (s.setLaunch l x).harvest = s.harvest := rfl
@[simp] theorem State.setLaunch_sched (s : State) (l : Nat) (x : Launch) : (s.setLaunch l x).sched = s.sched := rfl
@[simp] theorem State.setLaunch_agent (s : State) (l : Nat) (x : Launch) : (s.setLaunch l x).agent = s.agent := rfl
@[simp] theorem State.setLaunch_cur (s : State) (l : Nat) (x : Launch) : (s.setLaunch l x).cur = s.cur := rfl
@[simp] theorem State.setLaunch_fresh (s : State) (l : Nat) (x : Launch) : (s.setLaunch l x).fresh = s.fresh := rfl
@[simp] theorem State.setLaunch_me (s : State) (l : Nat) (x : Launch) : (s.setLaunch l x).me = s.me := rfl
@[simp] theorem State.setLaunch_at_core (s : State) (l : Nat) (x : Launch) (j : Nat) : (s.setLaunch l x).core j = s.core j := rfl
@[simp] theorem State.setLaunch_at_th (s : State) (l : Nat) (x : Launch) (j : Nat) : (s.setLaunch l x).th j = s.th j := rfl
@[simp] theorem State.setLaunch_at_ctxOf (s : State) (l : Nat) (x : Launch) (j : Nat) : (s.setLaunch l x).ctxOf j = s.ctxOf j := rfl
@[simp] theorem State.setLaunch_at_die (s : State) (l : Nat) (x : Launch) (j : Nat) : (s.setLaunch l x).die j = s.die j := rfl
@[simp] theorem State.setLaunch_at_array (s : State) (l : Nat) (x : Launch) (j : Nat) : (s.setLaunch l x).array j = s.array j := rfl
@[simp] theorem State.setLaunch_at_bar (s : State) (l : Nat) (x : Launch) (j : Nat) : (s.setLaunch l x).bar j = s.bar j := rfl
@[simp] theorem State.setLaunch_at_chan (s : State) (l : Nat) (x : Launch) (j : Nat) : (s.setLaunch l x).chan j = s.chan j := rfl
@[simp] theorem State.setLaunch_at_ctx (s : State) (l : Nat) (x : Launch) (j : Nat) : (s.setLaunch l x).ctx j = s.ctx j := rfl
@[simp] theorem State.setLaunch_at_scope (s : State) (l : Nat) (x : Launch) (j : Nat) : (s.setLaunch l x).scope j = s.scope j := rfl
@[simp] theorem State.setLaunch_at_queue (s : State) (l : Nat) (x : Launch) (j : Nat) : (s.setLaunch l x).queue j = s.queue j := rfl
@[simp] theorem State.setLaunch_at_op (s : State) (l : Nat) (x : Launch) (j : Nat) : (s.setLaunch l x).op j = s.op j := rfl
@[simp] theorem State.setLaunch_at_run (s : State) (l : Nat) (x : Launch) (j : Nat) : (s.setLaunch l x).run j = s.run j := rfl
@[simp] theorem State.setLaunch_at_tensor (s : State) (l : Nat) (x : Launch) (j : Nat) : (s.setLaunch l x).tensor j = s.tensor j := rfl
@[simp] theorem State.setLaunch_at_req (s : State) (l : Nat) (x : Launch) (j : Nat) : (s.setLaunch l x).req j = s.req j := rfl
@[simp] theorem State.setLaunch_at_frame (s : State) (l : Nat) (x : Launch) (j : Nat) : (s.setLaunch l x).frame j = s.frame j := rfl

@[simp] theorem State.setQueue_mem (s : State) (q : Nat) (x : QRec) : (s.setQueue q x).mem = s.mem := rfl
@[simp] theorem State.setQueue_cores (s : State) (q : Nat) (x : QRec) : (s.setQueue q x).cores = s.cores := rfl
@[simp] theorem State.setQueue_dies (s : State) (q : Nat) (x : QRec) : (s.setQueue q x).dies = s.dies := rfl
@[simp] theorem State.setQueue_arrays (s : State) (q : Nat) (x : QRec) : (s.setQueue q x).arrays = s.arrays := rfl
@[simp] theorem State.setQueue_bars (s : State) (q : Nat) (x : QRec) : (s.setQueue q x).bars = s.bars := rfl
@[simp] theorem State.setQueue_chans (s : State) (q : Nat) (x : QRec) : (s.setQueue q x).chans = s.chans := rfl
@[simp] theorem State.setQueue_flight (s : State) (q : Nat) (x : QRec) : (s.setQueue q x).flight = s.flight := rfl
@[simp] theorem State.setQueue_ctxs (s : State) (q : Nat) (x : QRec) : (s.setQueue q x).ctxs = s.ctxs := rfl
@[simp] theorem State.setQueue_tlb (s : State) (q : Nat) (x : QRec) : (s.setQueue q x).tlb = s.tlb := rfl
@[simp] theorem State.setQueue_hg (s : State) (q : Nat) (x : QRec) : (s.setQueue q x).hg = s.hg := rfl
@[simp] theorem State.setQueue_weir (s : State) (q : Nat) (x : QRec) : (s.setQueue q x).weir = s.weir := rfl
@[simp] theorem State.setQueue_mgmt (s : State) (q : Nat) (x : QRec) : (s.setQueue q x).mgmt = s.mgmt := rfl
@[simp] theorem State.setQueue_lives (s : State) (q : Nat) (x : QRec) : (s.setQueue q x).lives = s.lives := rfl
@[simp] theorem State.setQueue_log (s : State) (q : Nat) (x : QRec) : (s.setQueue q x).log = s.log := rfl
@[simp] theorem State.setQueue_harvest (s : State) (q : Nat) (x : QRec) : (s.setQueue q x).harvest = s.harvest := rfl
@[simp] theorem State.setQueue_sched (s : State) (q : Nat) (x : QRec) : (s.setQueue q x).sched = s.sched := rfl
@[simp] theorem State.setQueue_agent (s : State) (q : Nat) (x : QRec) : (s.setQueue q x).agent = s.agent := rfl
@[simp] theorem State.setQueue_cur (s : State) (q : Nat) (x : QRec) : (s.setQueue q x).cur = s.cur := rfl
@[simp] theorem State.setQueue_fresh (s : State) (q : Nat) (x : QRec) : (s.setQueue q x).fresh = s.fresh := rfl
@[simp] theorem State.setQueue_me (s : State) (q : Nat) (x : QRec) : (s.setQueue q x).me = s.me := rfl
@[simp] theorem State.setQueue_at_core (s : State) (q : Nat) (x : QRec) (j : Nat) : (s.setQueue q x).core j = s.core j := rfl
@[simp] theorem State.setQueue_at_th (s : State) (q : Nat) (x : QRec) (j : Nat) : (s.setQueue q x).th j = s.th j := rfl
@[simp] theorem State.setQueue_at_ctxOf (s : State) (q : Nat) (x : QRec) (j : Nat) : (s.setQueue q x).ctxOf j = s.ctxOf j := rfl
@[simp] theorem State.setQueue_at_die (s : State) (q : Nat) (x : QRec) (j : Nat) : (s.setQueue q x).die j = s.die j := rfl
@[simp] theorem State.setQueue_at_array (s : State) (q : Nat) (x : QRec) (j : Nat) : (s.setQueue q x).array j = s.array j := rfl
@[simp] theorem State.setQueue_at_bar (s : State) (q : Nat) (x : QRec) (j : Nat) : (s.setQueue q x).bar j = s.bar j := rfl
@[simp] theorem State.setQueue_at_chan (s : State) (q : Nat) (x : QRec) (j : Nat) : (s.setQueue q x).chan j = s.chan j := rfl
@[simp] theorem State.setQueue_at_ctx (s : State) (q : Nat) (x : QRec) (j : Nat) : (s.setQueue q x).ctx j = s.ctx j := rfl
@[simp] theorem State.setQueue_at_scope (s : State) (q : Nat) (x : QRec) (j : Nat) : (s.setQueue q x).scope j = s.scope j := rfl
@[simp] theorem State.setQueue_at_launch (s : State) (q : Nat) (x : QRec) (j : Nat) : (s.setQueue q x).launch j = s.launch j := rfl
@[simp] theorem State.setQueue_at_op (s : State) (q : Nat) (x : QRec) (j : Nat) : (s.setQueue q x).op j = s.op j := rfl
@[simp] theorem State.setQueue_at_run (s : State) (q : Nat) (x : QRec) (j : Nat) : (s.setQueue q x).run j = s.run j := rfl
@[simp] theorem State.setQueue_at_tensor (s : State) (q : Nat) (x : QRec) (j : Nat) : (s.setQueue q x).tensor j = s.tensor j := rfl
@[simp] theorem State.setQueue_at_req (s : State) (q : Nat) (x : QRec) (j : Nat) : (s.setQueue q x).req j = s.req j := rfl
@[simp] theorem State.setQueue_at_frame (s : State) (q : Nat) (x : QRec) (j : Nat) : (s.setQueue q x).frame j = s.frame j := rfl

@[simp] theorem State.setOp_mem (s : State) (o : Nat) (x : Op) : (s.setOp o x).mem = s.mem := rfl
@[simp] theorem State.setOp_cores (s : State) (o : Nat) (x : Op) : (s.setOp o x).cores = s.cores := rfl
@[simp] theorem State.setOp_dies (s : State) (o : Nat) (x : Op) : (s.setOp o x).dies = s.dies := rfl
@[simp] theorem State.setOp_arrays (s : State) (o : Nat) (x : Op) : (s.setOp o x).arrays = s.arrays := rfl
@[simp] theorem State.setOp_bars (s : State) (o : Nat) (x : Op) : (s.setOp o x).bars = s.bars := rfl
@[simp] theorem State.setOp_chans (s : State) (o : Nat) (x : Op) : (s.setOp o x).chans = s.chans := rfl
@[simp] theorem State.setOp_flight (s : State) (o : Nat) (x : Op) : (s.setOp o x).flight = s.flight := rfl
@[simp] theorem State.setOp_ctxs (s : State) (o : Nat) (x : Op) : (s.setOp o x).ctxs = s.ctxs := rfl
@[simp] theorem State.setOp_tlb (s : State) (o : Nat) (x : Op) : (s.setOp o x).tlb = s.tlb := rfl
@[simp] theorem State.setOp_hg (s : State) (o : Nat) (x : Op) : (s.setOp o x).hg = s.hg := rfl
@[simp] theorem State.setOp_weir (s : State) (o : Nat) (x : Op) : (s.setOp o x).weir = s.weir := rfl
@[simp] theorem State.setOp_mgmt (s : State) (o : Nat) (x : Op) : (s.setOp o x).mgmt = s.mgmt := rfl
@[simp] theorem State.setOp_lives (s : State) (o : Nat) (x : Op) : (s.setOp o x).lives = s.lives := rfl
@[simp] theorem State.setOp_log (s : State) (o : Nat) (x : Op) : (s.setOp o x).log = s.log := rfl
@[simp] theorem State.setOp_harvest (s : State) (o : Nat) (x : Op) : (s.setOp o x).harvest = s.harvest := rfl
@[simp] theorem State.setOp_sched (s : State) (o : Nat) (x : Op) : (s.setOp o x).sched = s.sched := rfl
@[simp] theorem State.setOp_agent (s : State) (o : Nat) (x : Op) : (s.setOp o x).agent = s.agent := rfl
@[simp] theorem State.setOp_cur (s : State) (o : Nat) (x : Op) : (s.setOp o x).cur = s.cur := rfl
@[simp] theorem State.setOp_fresh (s : State) (o : Nat) (x : Op) : (s.setOp o x).fresh = s.fresh := rfl
@[simp] theorem State.setOp_me (s : State) (o : Nat) (x : Op) : (s.setOp o x).me = s.me := rfl
@[simp] theorem State.setOp_at_core (s : State) (o : Nat) (x : Op) (j : Nat) : (s.setOp o x).core j = s.core j := rfl
@[simp] theorem State.setOp_at_th (s : State) (o : Nat) (x : Op) (j : Nat) : (s.setOp o x).th j = s.th j := rfl
@[simp] theorem State.setOp_at_ctxOf (s : State) (o : Nat) (x : Op) (j : Nat) : (s.setOp o x).ctxOf j = s.ctxOf j := rfl
@[simp] theorem State.setOp_at_die (s : State) (o : Nat) (x : Op) (j : Nat) : (s.setOp o x).die j = s.die j := rfl
@[simp] theorem State.setOp_at_array (s : State) (o : Nat) (x : Op) (j : Nat) : (s.setOp o x).array j = s.array j := rfl
@[simp] theorem State.setOp_at_bar (s : State) (o : Nat) (x : Op) (j : Nat) : (s.setOp o x).bar j = s.bar j := rfl
@[simp] theorem State.setOp_at_chan (s : State) (o : Nat) (x : Op) (j : Nat) : (s.setOp o x).chan j = s.chan j := rfl
@[simp] theorem State.setOp_at_ctx (s : State) (o : Nat) (x : Op) (j : Nat) : (s.setOp o x).ctx j = s.ctx j := rfl
@[simp] theorem State.setOp_at_scope (s : State) (o : Nat) (x : Op) (j : Nat) : (s.setOp o x).scope j = s.scope j := rfl
@[simp] theorem State.setOp_at_launch (s : State) (o : Nat) (x : Op) (j : Nat) : (s.setOp o x).launch j = s.launch j := rfl
@[simp] theorem State.setOp_at_queue (s : State) (o : Nat) (x : Op) (j : Nat) : (s.setOp o x).queue j = s.queue j := rfl
@[simp] theorem State.setOp_at_run (s : State) (o : Nat) (x : Op) (j : Nat) : (s.setOp o x).run j = s.run j := rfl
@[simp] theorem State.setOp_at_tensor (s : State) (o : Nat) (x : Op) (j : Nat) : (s.setOp o x).tensor j = s.tensor j := rfl
@[simp] theorem State.setOp_at_req (s : State) (o : Nat) (x : Op) (j : Nat) : (s.setOp o x).req j = s.req j := rfl
@[simp] theorem State.setOp_at_frame (s : State) (o : Nat) (x : Op) (j : Nat) : (s.setOp o x).frame j = s.frame j := rfl

@[simp] theorem State.delOp_mem (s : State) (o : Nat) : (s.delOp o).mem = s.mem := rfl
@[simp] theorem State.delOp_cores (s : State) (o : Nat) : (s.delOp o).cores = s.cores := rfl
@[simp] theorem State.delOp_dies (s : State) (o : Nat) : (s.delOp o).dies = s.dies := rfl
@[simp] theorem State.delOp_arrays (s : State) (o : Nat) : (s.delOp o).arrays = s.arrays := rfl
@[simp] theorem State.delOp_bars (s : State) (o : Nat) : (s.delOp o).bars = s.bars := rfl
@[simp] theorem State.delOp_chans (s : State) (o : Nat) : (s.delOp o).chans = s.chans := rfl
@[simp] theorem State.delOp_flight (s : State) (o : Nat) : (s.delOp o).flight = s.flight := rfl
@[simp] theorem State.delOp_ctxs (s : State) (o : Nat) : (s.delOp o).ctxs = s.ctxs := rfl
@[simp] theorem State.delOp_tlb (s : State) (o : Nat) : (s.delOp o).tlb = s.tlb := rfl
@[simp] theorem State.delOp_hg (s : State) (o : Nat) : (s.delOp o).hg = s.hg := rfl
@[simp] theorem State.delOp_weir (s : State) (o : Nat) : (s.delOp o).weir = s.weir := rfl
@[simp] theorem State.delOp_mgmt (s : State) (o : Nat) : (s.delOp o).mgmt = s.mgmt := rfl
@[simp] theorem State.delOp_lives (s : State) (o : Nat) : (s.delOp o).lives = s.lives := rfl
@[simp] theorem State.delOp_log (s : State) (o : Nat) : (s.delOp o).log = s.log := rfl
@[simp] theorem State.delOp_harvest (s : State) (o : Nat) : (s.delOp o).harvest = s.harvest := rfl
@[simp] theorem State.delOp_sched (s : State) (o : Nat) : (s.delOp o).sched = s.sched := rfl
@[simp] theorem State.delOp_agent (s : State) (o : Nat) : (s.delOp o).agent = s.agent := rfl
@[simp] theorem State.delOp_cur (s : State) (o : Nat) : (s.delOp o).cur = s.cur := rfl
@[simp] theorem State.delOp_fresh (s : State) (o : Nat) : (s.delOp o).fresh = s.fresh := rfl
@[simp] theorem State.delOp_me (s : State) (o : Nat) : (s.delOp o).me = s.me := rfl
@[simp] theorem State.delOp_at_core (s : State) (o : Nat) (j : Nat) : (s.delOp o).core j = s.core j := rfl
@[simp] theorem State.delOp_at_th (s : State) (o : Nat) (j : Nat) : (s.delOp o).th j = s.th j := rfl
@[simp] theorem State.delOp_at_ctxOf (s : State) (o : Nat) (j : Nat) : (s.delOp o).ctxOf j = s.ctxOf j := rfl
@[simp] theorem State.delOp_at_die (s : State) (o : Nat) (j : Nat) : (s.delOp o).die j = s.die j := rfl
@[simp] theorem State.delOp_at_array (s : State) (o : Nat) (j : Nat) : (s.delOp o).array j = s.array j := rfl
@[simp] theorem State.delOp_at_bar (s : State) (o : Nat) (j : Nat) : (s.delOp o).bar j = s.bar j := rfl
@[simp] theorem State.delOp_at_chan (s : State) (o : Nat) (j : Nat) : (s.delOp o).chan j = s.chan j := rfl
@[simp] theorem State.delOp_at_ctx (s : State) (o : Nat) (j : Nat) : (s.delOp o).ctx j = s.ctx j := rfl
@[simp] theorem State.delOp_at_scope (s : State) (o : Nat) (j : Nat) : (s.delOp o).scope j = s.scope j := rfl
@[simp] theorem State.delOp_at_launch (s : State) (o : Nat) (j : Nat) : (s.delOp o).launch j = s.launch j := rfl
@[simp] theorem State.delOp_at_queue (s : State) (o : Nat) (j : Nat) : (s.delOp o).queue j = s.queue j := rfl
@[simp] theorem State.delOp_at_run (s : State) (o : Nat) (j : Nat) : (s.delOp o).run j = s.run j := rfl
@[simp] theorem State.delOp_at_tensor (s : State) (o : Nat) (j : Nat) : (s.delOp o).tensor j = s.tensor j := rfl
@[simp] theorem State.delOp_at_req (s : State) (o : Nat) (j : Nat) : (s.delOp o).req j = s.req j := rfl
@[simp] theorem State.delOp_at_frame (s : State) (o : Nat) (j : Nat) : (s.delOp o).frame j = s.frame j := rfl

@[simp] theorem State.setRun_mem (s : State) (q : Nat) (x : PRun) : (s.setRun q x).mem = s.mem := rfl
@[simp] theorem State.setRun_cores (s : State) (q : Nat) (x : PRun) : (s.setRun q x).cores = s.cores := rfl
@[simp] theorem State.setRun_dies (s : State) (q : Nat) (x : PRun) : (s.setRun q x).dies = s.dies := rfl
@[simp] theorem State.setRun_arrays (s : State) (q : Nat) (x : PRun) : (s.setRun q x).arrays = s.arrays := rfl
@[simp] theorem State.setRun_bars (s : State) (q : Nat) (x : PRun) : (s.setRun q x).bars = s.bars := rfl
@[simp] theorem State.setRun_chans (s : State) (q : Nat) (x : PRun) : (s.setRun q x).chans = s.chans := rfl
@[simp] theorem State.setRun_flight (s : State) (q : Nat) (x : PRun) : (s.setRun q x).flight = s.flight := rfl
@[simp] theorem State.setRun_ctxs (s : State) (q : Nat) (x : PRun) : (s.setRun q x).ctxs = s.ctxs := rfl
@[simp] theorem State.setRun_tlb (s : State) (q : Nat) (x : PRun) : (s.setRun q x).tlb = s.tlb := rfl
@[simp] theorem State.setRun_hg (s : State) (q : Nat) (x : PRun) : (s.setRun q x).hg = s.hg := rfl
@[simp] theorem State.setRun_weir (s : State) (q : Nat) (x : PRun) : (s.setRun q x).weir = s.weir := rfl
@[simp] theorem State.setRun_mgmt (s : State) (q : Nat) (x : PRun) : (s.setRun q x).mgmt = s.mgmt := rfl
@[simp] theorem State.setRun_lives (s : State) (q : Nat) (x : PRun) : (s.setRun q x).lives = s.lives := rfl
@[simp] theorem State.setRun_log (s : State) (q : Nat) (x : PRun) : (s.setRun q x).log = s.log := rfl
@[simp] theorem State.setRun_harvest (s : State) (q : Nat) (x : PRun) : (s.setRun q x).harvest = s.harvest := rfl
@[simp] theorem State.setRun_sched (s : State) (q : Nat) (x : PRun) : (s.setRun q x).sched = s.sched := rfl
@[simp] theorem State.setRun_agent (s : State) (q : Nat) (x : PRun) : (s.setRun q x).agent = s.agent := rfl
@[simp] theorem State.setRun_cur (s : State) (q : Nat) (x : PRun) : (s.setRun q x).cur = s.cur := rfl
@[simp] theorem State.setRun_fresh (s : State) (q : Nat) (x : PRun) : (s.setRun q x).fresh = s.fresh := rfl
@[simp] theorem State.setRun_me (s : State) (q : Nat) (x : PRun) : (s.setRun q x).me = s.me := rfl
@[simp] theorem State.setRun_at_core (s : State) (q : Nat) (x : PRun) (j : Nat) : (s.setRun q x).core j = s.core j := rfl
@[simp] theorem State.setRun_at_th (s : State) (q : Nat) (x : PRun) (j : Nat) : (s.setRun q x).th j = s.th j := rfl
@[simp] theorem State.setRun_at_ctxOf (s : State) (q : Nat) (x : PRun) (j : Nat) : (s.setRun q x).ctxOf j = s.ctxOf j := rfl
@[simp] theorem State.setRun_at_die (s : State) (q : Nat) (x : PRun) (j : Nat) : (s.setRun q x).die j = s.die j := rfl
@[simp] theorem State.setRun_at_array (s : State) (q : Nat) (x : PRun) (j : Nat) : (s.setRun q x).array j = s.array j := rfl
@[simp] theorem State.setRun_at_bar (s : State) (q : Nat) (x : PRun) (j : Nat) : (s.setRun q x).bar j = s.bar j := rfl
@[simp] theorem State.setRun_at_chan (s : State) (q : Nat) (x : PRun) (j : Nat) : (s.setRun q x).chan j = s.chan j := rfl
@[simp] theorem State.setRun_at_ctx (s : State) (q : Nat) (x : PRun) (j : Nat) : (s.setRun q x).ctx j = s.ctx j := rfl
@[simp] theorem State.setRun_at_scope (s : State) (q : Nat) (x : PRun) (j : Nat) : (s.setRun q x).scope j = s.scope j := rfl
@[simp] theorem State.setRun_at_launch (s : State) (q : Nat) (x : PRun) (j : Nat) : (s.setRun q x).launch j = s.launch j := rfl
@[simp] theorem State.setRun_at_queue (s : State) (q : Nat) (x : PRun) (j : Nat) : (s.setRun q x).queue j = s.queue j := rfl
@[simp] theorem State.setRun_at_op (s : State) (q : Nat) (x : PRun) (j : Nat) : (s.setRun q x).op j = s.op j := rfl
@[simp] theorem State.setRun_at_tensor (s : State) (q : Nat) (x : PRun) (j : Nat) : (s.setRun q x).tensor j = s.tensor j := rfl
@[simp] theorem State.setRun_at_req (s : State) (q : Nat) (x : PRun) (j : Nat) : (s.setRun q x).req j = s.req j := rfl
@[simp] theorem State.setRun_at_frame (s : State) (q : Nat) (x : PRun) (j : Nat) : (s.setRun q x).frame j = s.frame j := rfl

@[simp] theorem State.delRun_mem (s : State) (q : Nat) : (s.delRun q).mem = s.mem := rfl
@[simp] theorem State.delRun_cores (s : State) (q : Nat) : (s.delRun q).cores = s.cores := rfl
@[simp] theorem State.delRun_dies (s : State) (q : Nat) : (s.delRun q).dies = s.dies := rfl
@[simp] theorem State.delRun_arrays (s : State) (q : Nat) : (s.delRun q).arrays = s.arrays := rfl
@[simp] theorem State.delRun_bars (s : State) (q : Nat) : (s.delRun q).bars = s.bars := rfl
@[simp] theorem State.delRun_chans (s : State) (q : Nat) : (s.delRun q).chans = s.chans := rfl
@[simp] theorem State.delRun_flight (s : State) (q : Nat) : (s.delRun q).flight = s.flight := rfl
@[simp] theorem State.delRun_ctxs (s : State) (q : Nat) : (s.delRun q).ctxs = s.ctxs := rfl
@[simp] theorem State.delRun_tlb (s : State) (q : Nat) : (s.delRun q).tlb = s.tlb := rfl
@[simp] theorem State.delRun_hg (s : State) (q : Nat) : (s.delRun q).hg = s.hg := rfl
@[simp] theorem State.delRun_weir (s : State) (q : Nat) : (s.delRun q).weir = s.weir := rfl
@[simp] theorem State.delRun_mgmt (s : State) (q : Nat) : (s.delRun q).mgmt = s.mgmt := rfl
@[simp] theorem State.delRun_lives (s : State) (q : Nat) : (s.delRun q).lives = s.lives := rfl
@[simp] theorem State.delRun_log (s : State) (q : Nat) : (s.delRun q).log = s.log := rfl
@[simp] theorem State.delRun_harvest (s : State) (q : Nat) : (s.delRun q).harvest = s.harvest := rfl
@[simp] theorem State.delRun_sched (s : State) (q : Nat) : (s.delRun q).sched = s.sched := rfl
@[simp] theorem State.delRun_agent (s : State) (q : Nat) : (s.delRun q).agent = s.agent := rfl
@[simp] theorem State.delRun_cur (s : State) (q : Nat) : (s.delRun q).cur = s.cur := rfl
@[simp] theorem State.delRun_fresh (s : State) (q : Nat) : (s.delRun q).fresh = s.fresh := rfl
@[simp] theorem State.delRun_me (s : State) (q : Nat) : (s.delRun q).me = s.me := rfl
@[simp] theorem State.delRun_at_core (s : State) (q : Nat) (j : Nat) : (s.delRun q).core j = s.core j := rfl
@[simp] theorem State.delRun_at_th (s : State) (q : Nat) (j : Nat) : (s.delRun q).th j = s.th j := rfl
@[simp] theorem State.delRun_at_ctxOf (s : State) (q : Nat) (j : Nat) : (s.delRun q).ctxOf j = s.ctxOf j := rfl
@[simp] theorem State.delRun_at_die (s : State) (q : Nat) (j : Nat) : (s.delRun q).die j = s.die j := rfl
@[simp] theorem State.delRun_at_array (s : State) (q : Nat) (j : Nat) : (s.delRun q).array j = s.array j := rfl
@[simp] theorem State.delRun_at_bar (s : State) (q : Nat) (j : Nat) : (s.delRun q).bar j = s.bar j := rfl
@[simp] theorem State.delRun_at_chan (s : State) (q : Nat) (j : Nat) : (s.delRun q).chan j = s.chan j := rfl
@[simp] theorem State.delRun_at_ctx (s : State) (q : Nat) (j : Nat) : (s.delRun q).ctx j = s.ctx j := rfl
@[simp] theorem State.delRun_at_scope (s : State) (q : Nat) (j : Nat) : (s.delRun q).scope j = s.scope j := rfl
@[simp] theorem State.delRun_at_launch (s : State) (q : Nat) (j : Nat) : (s.delRun q).launch j = s.launch j := rfl
@[simp] theorem State.delRun_at_queue (s : State) (q : Nat) (j : Nat) : (s.delRun q).queue j = s.queue j := rfl
@[simp] theorem State.delRun_at_op (s : State) (q : Nat) (j : Nat) : (s.delRun q).op j = s.op j := rfl
@[simp] theorem State.delRun_at_tensor (s : State) (q : Nat) (j : Nat) : (s.delRun q).tensor j = s.tensor j := rfl
@[simp] theorem State.delRun_at_req (s : State) (q : Nat) (j : Nat) : (s.delRun q).req j = s.req j := rfl
@[simp] theorem State.delRun_at_frame (s : State) (q : Nat) (j : Nat) : (s.delRun q).frame j = s.frame j := rfl

@[simp] theorem State.setTensor_mem (s : State) (n : Nat) (x : Tensor) : (s.setTensor n x).mem = s.mem := rfl
@[simp] theorem State.setTensor_cores (s : State) (n : Nat) (x : Tensor) : (s.setTensor n x).cores = s.cores := rfl
@[simp] theorem State.setTensor_dies (s : State) (n : Nat) (x : Tensor) : (s.setTensor n x).dies = s.dies := rfl
@[simp] theorem State.setTensor_arrays (s : State) (n : Nat) (x : Tensor) : (s.setTensor n x).arrays = s.arrays := rfl
@[simp] theorem State.setTensor_bars (s : State) (n : Nat) (x : Tensor) : (s.setTensor n x).bars = s.bars := rfl
@[simp] theorem State.setTensor_chans (s : State) (n : Nat) (x : Tensor) : (s.setTensor n x).chans = s.chans := rfl
@[simp] theorem State.setTensor_flight (s : State) (n : Nat) (x : Tensor) : (s.setTensor n x).flight = s.flight := rfl
@[simp] theorem State.setTensor_ctxs (s : State) (n : Nat) (x : Tensor) : (s.setTensor n x).ctxs = s.ctxs := rfl
@[simp] theorem State.setTensor_tlb (s : State) (n : Nat) (x : Tensor) : (s.setTensor n x).tlb = s.tlb := rfl
@[simp] theorem State.setTensor_hg (s : State) (n : Nat) (x : Tensor) : (s.setTensor n x).hg = s.hg := rfl
@[simp] theorem State.setTensor_work (s : State) (n : Nat) (x : Tensor) : (s.setTensor n x).work = s.work := rfl
@[simp] theorem State.setTensor_mgmt (s : State) (n : Nat) (x : Tensor) : (s.setTensor n x).mgmt = s.mgmt := rfl
@[simp] theorem State.setTensor_lives (s : State) (n : Nat) (x : Tensor) : (s.setTensor n x).lives = s.lives := rfl
@[simp] theorem State.setTensor_log (s : State) (n : Nat) (x : Tensor) : (s.setTensor n x).log = s.log := rfl
@[simp] theorem State.setTensor_harvest (s : State) (n : Nat) (x : Tensor) : (s.setTensor n x).harvest = s.harvest := rfl
@[simp] theorem State.setTensor_sched (s : State) (n : Nat) (x : Tensor) : (s.setTensor n x).sched = s.sched := rfl
@[simp] theorem State.setTensor_agent (s : State) (n : Nat) (x : Tensor) : (s.setTensor n x).agent = s.agent := rfl
@[simp] theorem State.setTensor_cur (s : State) (n : Nat) (x : Tensor) : (s.setTensor n x).cur = s.cur := rfl
@[simp] theorem State.setTensor_fresh (s : State) (n : Nat) (x : Tensor) : (s.setTensor n x).fresh = s.fresh := rfl
@[simp] theorem State.setTensor_me (s : State) (n : Nat) (x : Tensor) : (s.setTensor n x).me = s.me := rfl
@[simp] theorem State.setTensor_at_core (s : State) (n : Nat) (x : Tensor) (j : Nat) : (s.setTensor n x).core j = s.core j := rfl
@[simp] theorem State.setTensor_at_th (s : State) (n : Nat) (x : Tensor) (j : Nat) : (s.setTensor n x).th j = s.th j := rfl
@[simp] theorem State.setTensor_at_ctxOf (s : State) (n : Nat) (x : Tensor) (j : Nat) : (s.setTensor n x).ctxOf j = s.ctxOf j := rfl
@[simp] theorem State.setTensor_at_die (s : State) (n : Nat) (x : Tensor) (j : Nat) : (s.setTensor n x).die j = s.die j := rfl
@[simp] theorem State.setTensor_at_array (s : State) (n : Nat) (x : Tensor) (j : Nat) : (s.setTensor n x).array j = s.array j := rfl
@[simp] theorem State.setTensor_at_bar (s : State) (n : Nat) (x : Tensor) (j : Nat) : (s.setTensor n x).bar j = s.bar j := rfl
@[simp] theorem State.setTensor_at_chan (s : State) (n : Nat) (x : Tensor) (j : Nat) : (s.setTensor n x).chan j = s.chan j := rfl
@[simp] theorem State.setTensor_at_ctx (s : State) (n : Nat) (x : Tensor) (j : Nat) : (s.setTensor n x).ctx j = s.ctx j := rfl
@[simp] theorem State.setTensor_at_scope (s : State) (n : Nat) (x : Tensor) (j : Nat) : (s.setTensor n x).scope j = s.scope j := rfl
@[simp] theorem State.setTensor_at_launch (s : State) (n : Nat) (x : Tensor) (j : Nat) : (s.setTensor n x).launch j = s.launch j := rfl
@[simp] theorem State.setTensor_at_queue (s : State) (n : Nat) (x : Tensor) (j : Nat) : (s.setTensor n x).queue j = s.queue j := rfl
@[simp] theorem State.setTensor_at_op (s : State) (n : Nat) (x : Tensor) (j : Nat) : (s.setTensor n x).op j = s.op j := rfl
@[simp] theorem State.setTensor_at_run (s : State) (n : Nat) (x : Tensor) (j : Nat) : (s.setTensor n x).run j = s.run j := rfl
@[simp] theorem State.setTensor_at_req (s : State) (n : Nat) (x : Tensor) (j : Nat) : (s.setTensor n x).req j = s.req j := rfl
@[simp] theorem State.setTensor_at_frame (s : State) (n : Nat) (x : Tensor) (j : Nat) : (s.setTensor n x).frame j = s.frame j := rfl

@[simp] theorem State.setReq_mem (s : State) (n : Nat) (x : WReq) : (s.setReq n x).mem = s.mem := rfl
@[simp] theorem State.setReq_cores (s : State) (n : Nat) (x : WReq) : (s.setReq n x).cores = s.cores := rfl
@[simp] theorem State.setReq_dies (s : State) (n : Nat) (x : WReq) : (s.setReq n x).dies = s.dies := rfl
@[simp] theorem State.setReq_arrays (s : State) (n : Nat) (x : WReq) : (s.setReq n x).arrays = s.arrays := rfl
@[simp] theorem State.setReq_bars (s : State) (n : Nat) (x : WReq) : (s.setReq n x).bars = s.bars := rfl
@[simp] theorem State.setReq_chans (s : State) (n : Nat) (x : WReq) : (s.setReq n x).chans = s.chans := rfl
@[simp] theorem State.setReq_flight (s : State) (n : Nat) (x : WReq) : (s.setReq n x).flight = s.flight := rfl
@[simp] theorem State.setReq_ctxs (s : State) (n : Nat) (x : WReq) : (s.setReq n x).ctxs = s.ctxs := rfl
@[simp] theorem State.setReq_tlb (s : State) (n : Nat) (x : WReq) : (s.setReq n x).tlb = s.tlb := rfl
@[simp] theorem State.setReq_hg (s : State) (n : Nat) (x : WReq) : (s.setReq n x).hg = s.hg := rfl
@[simp] theorem State.setReq_work (s : State) (n : Nat) (x : WReq) : (s.setReq n x).work = s.work := rfl
@[simp] theorem State.setReq_mgmt (s : State) (n : Nat) (x : WReq) : (s.setReq n x).mgmt = s.mgmt := rfl
@[simp] theorem State.setReq_lives (s : State) (n : Nat) (x : WReq) : (s.setReq n x).lives = s.lives := rfl
@[simp] theorem State.setReq_log (s : State) (n : Nat) (x : WReq) : (s.setReq n x).log = s.log := rfl
@[simp] theorem State.setReq_harvest (s : State) (n : Nat) (x : WReq) : (s.setReq n x).harvest = s.harvest := rfl
@[simp] theorem State.setReq_sched (s : State) (n : Nat) (x : WReq) : (s.setReq n x).sched = s.sched := rfl
@[simp] theorem State.setReq_agent (s : State) (n : Nat) (x : WReq) : (s.setReq n x).agent = s.agent := rfl
@[simp] theorem State.setReq_cur (s : State) (n : Nat) (x : WReq) : (s.setReq n x).cur = s.cur := rfl
@[simp] theorem State.setReq_fresh (s : State) (n : Nat) (x : WReq) : (s.setReq n x).fresh = s.fresh := rfl
@[simp] theorem State.setReq_me (s : State) (n : Nat) (x : WReq) : (s.setReq n x).me = s.me := rfl
@[simp] theorem State.setReq_at_core (s : State) (n : Nat) (x : WReq) (j : Nat) : (s.setReq n x).core j = s.core j := rfl
@[simp] theorem State.setReq_at_th (s : State) (n : Nat) (x : WReq) (j : Nat) : (s.setReq n x).th j = s.th j := rfl
@[simp] theorem State.setReq_at_ctxOf (s : State) (n : Nat) (x : WReq) (j : Nat) : (s.setReq n x).ctxOf j = s.ctxOf j := rfl
@[simp] theorem State.setReq_at_die (s : State) (n : Nat) (x : WReq) (j : Nat) : (s.setReq n x).die j = s.die j := rfl
@[simp] theorem State.setReq_at_array (s : State) (n : Nat) (x : WReq) (j : Nat) : (s.setReq n x).array j = s.array j := rfl
@[simp] theorem State.setReq_at_bar (s : State) (n : Nat) (x : WReq) (j : Nat) : (s.setReq n x).bar j = s.bar j := rfl
@[simp] theorem State.setReq_at_chan (s : State) (n : Nat) (x : WReq) (j : Nat) : (s.setReq n x).chan j = s.chan j := rfl
@[simp] theorem State.setReq_at_ctx (s : State) (n : Nat) (x : WReq) (j : Nat) : (s.setReq n x).ctx j = s.ctx j := rfl
@[simp] theorem State.setReq_at_scope (s : State) (n : Nat) (x : WReq) (j : Nat) : (s.setReq n x).scope j = s.scope j := rfl
@[simp] theorem State.setReq_at_launch (s : State) (n : Nat) (x : WReq) (j : Nat) : (s.setReq n x).launch j = s.launch j := rfl
@[simp] theorem State.setReq_at_queue (s : State) (n : Nat) (x : WReq) (j : Nat) : (s.setReq n x).queue j = s.queue j := rfl
@[simp] theorem State.setReq_at_op (s : State) (n : Nat) (x : WReq) (j : Nat) : (s.setReq n x).op j = s.op j := rfl
@[simp] theorem State.setReq_at_run (s : State) (n : Nat) (x : WReq) (j : Nat) : (s.setReq n x).run j = s.run j := rfl
@[simp] theorem State.setReq_at_tensor (s : State) (n : Nat) (x : WReq) (j : Nat) : (s.setReq n x).tensor j = s.tensor j := rfl
@[simp] theorem State.setReq_at_frame (s : State) (n : Nat) (x : WReq) (j : Nat) : (s.setReq n x).frame j = s.frame j := rfl

@[simp] theorem State.delReq_mem (s : State) (n : Nat) : (s.delReq n).mem = s.mem := rfl
@[simp] theorem State.delReq_cores (s : State) (n : Nat) : (s.delReq n).cores = s.cores := rfl
@[simp] theorem State.delReq_dies (s : State) (n : Nat) : (s.delReq n).dies = s.dies := rfl
@[simp] theorem State.delReq_arrays (s : State) (n : Nat) : (s.delReq n).arrays = s.arrays := rfl
@[simp] theorem State.delReq_bars (s : State) (n : Nat) : (s.delReq n).bars = s.bars := rfl
@[simp] theorem State.delReq_chans (s : State) (n : Nat) : (s.delReq n).chans = s.chans := rfl
@[simp] theorem State.delReq_flight (s : State) (n : Nat) : (s.delReq n).flight = s.flight := rfl
@[simp] theorem State.delReq_ctxs (s : State) (n : Nat) : (s.delReq n).ctxs = s.ctxs := rfl
@[simp] theorem State.delReq_tlb (s : State) (n : Nat) : (s.delReq n).tlb = s.tlb := rfl
@[simp] theorem State.delReq_hg (s : State) (n : Nat) : (s.delReq n).hg = s.hg := rfl
@[simp] theorem State.delReq_work (s : State) (n : Nat) : (s.delReq n).work = s.work := rfl
@[simp] theorem State.delReq_mgmt (s : State) (n : Nat) : (s.delReq n).mgmt = s.mgmt := rfl
@[simp] theorem State.delReq_lives (s : State) (n : Nat) : (s.delReq n).lives = s.lives := rfl
@[simp] theorem State.delReq_log (s : State) (n : Nat) : (s.delReq n).log = s.log := rfl
@[simp] theorem State.delReq_harvest (s : State) (n : Nat) : (s.delReq n).harvest = s.harvest := rfl
@[simp] theorem State.delReq_sched (s : State) (n : Nat) : (s.delReq n).sched = s.sched := rfl
@[simp] theorem State.delReq_agent (s : State) (n : Nat) : (s.delReq n).agent = s.agent := rfl
@[simp] theorem State.delReq_cur (s : State) (n : Nat) : (s.delReq n).cur = s.cur := rfl
@[simp] theorem State.delReq_fresh (s : State) (n : Nat) : (s.delReq n).fresh = s.fresh := rfl
@[simp] theorem State.delReq_me (s : State) (n : Nat) : (s.delReq n).me = s.me := rfl
@[simp] theorem State.delReq_at_core (s : State) (n : Nat) (j : Nat) : (s.delReq n).core j = s.core j := rfl
@[simp] theorem State.delReq_at_th (s : State) (n : Nat) (j : Nat) : (s.delReq n).th j = s.th j := rfl
@[simp] theorem State.delReq_at_ctxOf (s : State) (n : Nat) (j : Nat) : (s.delReq n).ctxOf j = s.ctxOf j := rfl
@[simp] theorem State.delReq_at_die (s : State) (n : Nat) (j : Nat) : (s.delReq n).die j = s.die j := rfl
@[simp] theorem State.delReq_at_array (s : State) (n : Nat) (j : Nat) : (s.delReq n).array j = s.array j := rfl
@[simp] theorem State.delReq_at_bar (s : State) (n : Nat) (j : Nat) : (s.delReq n).bar j = s.bar j := rfl
@[simp] theorem State.delReq_at_chan (s : State) (n : Nat) (j : Nat) : (s.delReq n).chan j = s.chan j := rfl
@[simp] theorem State.delReq_at_ctx (s : State) (n : Nat) (j : Nat) : (s.delReq n).ctx j = s.ctx j := rfl
@[simp] theorem State.delReq_at_scope (s : State) (n : Nat) (j : Nat) : (s.delReq n).scope j = s.scope j := rfl
@[simp] theorem State.delReq_at_launch (s : State) (n : Nat) (j : Nat) : (s.delReq n).launch j = s.launch j := rfl
@[simp] theorem State.delReq_at_queue (s : State) (n : Nat) (j : Nat) : (s.delReq n).queue j = s.queue j := rfl
@[simp] theorem State.delReq_at_op (s : State) (n : Nat) (j : Nat) : (s.delReq n).op j = s.op j := rfl
@[simp] theorem State.delReq_at_run (s : State) (n : Nat) (j : Nat) : (s.delReq n).run j = s.run j := rfl
@[simp] theorem State.delReq_at_tensor (s : State) (n : Nat) (j : Nat) : (s.delReq n).tensor j = s.tensor j := rfl
@[simp] theorem State.delReq_at_frame (s : State) (n : Nat) (j : Nat) : (s.delReq n).frame j = s.frame j := rfl

@[simp] theorem State.setFrame_mem (s : State) (n : Nat) (x : Frame) : (s.setFrame n x).mem = s.mem := rfl
@[simp] theorem State.setFrame_cores (s : State) (n : Nat) (x : Frame) : (s.setFrame n x).cores = s.cores := rfl
@[simp] theorem State.setFrame_dies (s : State) (n : Nat) (x : Frame) : (s.setFrame n x).dies = s.dies := rfl
@[simp] theorem State.setFrame_arrays (s : State) (n : Nat) (x : Frame) : (s.setFrame n x).arrays = s.arrays := rfl
@[simp] theorem State.setFrame_bars (s : State) (n : Nat) (x : Frame) : (s.setFrame n x).bars = s.bars := rfl
@[simp] theorem State.setFrame_chans (s : State) (n : Nat) (x : Frame) : (s.setFrame n x).chans = s.chans := rfl
@[simp] theorem State.setFrame_flight (s : State) (n : Nat) (x : Frame) : (s.setFrame n x).flight = s.flight := rfl
@[simp] theorem State.setFrame_ctxs (s : State) (n : Nat) (x : Frame) : (s.setFrame n x).ctxs = s.ctxs := rfl
@[simp] theorem State.setFrame_tlb (s : State) (n : Nat) (x : Frame) : (s.setFrame n x).tlb = s.tlb := rfl
@[simp] theorem State.setFrame_hg (s : State) (n : Nat) (x : Frame) : (s.setFrame n x).hg = s.hg := rfl
@[simp] theorem State.setFrame_work (s : State) (n : Nat) (x : Frame) : (s.setFrame n x).work = s.work := rfl
@[simp] theorem State.setFrame_mgmt (s : State) (n : Nat) (x : Frame) : (s.setFrame n x).mgmt = s.mgmt := rfl
@[simp] theorem State.setFrame_lives (s : State) (n : Nat) (x : Frame) : (s.setFrame n x).lives = s.lives := rfl
@[simp] theorem State.setFrame_log (s : State) (n : Nat) (x : Frame) : (s.setFrame n x).log = s.log := rfl
@[simp] theorem State.setFrame_harvest (s : State) (n : Nat) (x : Frame) : (s.setFrame n x).harvest = s.harvest := rfl
@[simp] theorem State.setFrame_sched (s : State) (n : Nat) (x : Frame) : (s.setFrame n x).sched = s.sched := rfl
@[simp] theorem State.setFrame_agent (s : State) (n : Nat) (x : Frame) : (s.setFrame n x).agent = s.agent := rfl
@[simp] theorem State.setFrame_cur (s : State) (n : Nat) (x : Frame) : (s.setFrame n x).cur = s.cur := rfl
@[simp] theorem State.setFrame_fresh (s : State) (n : Nat) (x : Frame) : (s.setFrame n x).fresh = s.fresh := rfl
@[simp] theorem State.setFrame_me (s : State) (n : Nat) (x : Frame) : (s.setFrame n x).me = s.me := rfl
@[simp] theorem State.setFrame_at_core (s : State) (n : Nat) (x : Frame) (j : Nat) : (s.setFrame n x).core j = s.core j := rfl
@[simp] theorem State.setFrame_at_th (s : State) (n : Nat) (x : Frame) (j : Nat) : (s.setFrame n x).th j = s.th j := rfl
@[simp] theorem State.setFrame_at_ctxOf (s : State) (n : Nat) (x : Frame) (j : Nat) : (s.setFrame n x).ctxOf j = s.ctxOf j := rfl
@[simp] theorem State.setFrame_at_die (s : State) (n : Nat) (x : Frame) (j : Nat) : (s.setFrame n x).die j = s.die j := rfl
@[simp] theorem State.setFrame_at_array (s : State) (n : Nat) (x : Frame) (j : Nat) : (s.setFrame n x).array j = s.array j := rfl
@[simp] theorem State.setFrame_at_bar (s : State) (n : Nat) (x : Frame) (j : Nat) : (s.setFrame n x).bar j = s.bar j := rfl
@[simp] theorem State.setFrame_at_chan (s : State) (n : Nat) (x : Frame) (j : Nat) : (s.setFrame n x).chan j = s.chan j := rfl
@[simp] theorem State.setFrame_at_ctx (s : State) (n : Nat) (x : Frame) (j : Nat) : (s.setFrame n x).ctx j = s.ctx j := rfl
@[simp] theorem State.setFrame_at_scope (s : State) (n : Nat) (x : Frame) (j : Nat) : (s.setFrame n x).scope j = s.scope j := rfl
@[simp] theorem State.setFrame_at_launch (s : State) (n : Nat) (x : Frame) (j : Nat) : (s.setFrame n x).launch j = s.launch j := rfl
@[simp] theorem State.setFrame_at_queue (s : State) (n : Nat) (x : Frame) (j : Nat) : (s.setFrame n x).queue j = s.queue j := rfl
@[simp] theorem State.setFrame_at_op (s : State) (n : Nat) (x : Frame) (j : Nat) : (s.setFrame n x).op j = s.op j := rfl
@[simp] theorem State.setFrame_at_run (s : State) (n : Nat) (x : Frame) (j : Nat) : (s.setFrame n x).run j = s.run j := rfl
@[simp] theorem State.setFrame_at_tensor (s : State) (n : Nat) (x : Frame) (j : Nat) : (s.setFrame n x).tensor j = s.tensor j := rfl
@[simp] theorem State.setFrame_at_req (s : State) (n : Nat) (x : Frame) (j : Nat) : (s.setFrame n x).req j = s.req j := rfl

@[simp] theorem State.delFrame_mem (s : State) (n : Nat) : (s.delFrame n).mem = s.mem := rfl
@[simp] theorem State.delFrame_cores (s : State) (n : Nat) : (s.delFrame n).cores = s.cores := rfl
@[simp] theorem State.delFrame_dies (s : State) (n : Nat) : (s.delFrame n).dies = s.dies := rfl
@[simp] theorem State.delFrame_arrays (s : State) (n : Nat) : (s.delFrame n).arrays = s.arrays := rfl
@[simp] theorem State.delFrame_bars (s : State) (n : Nat) : (s.delFrame n).bars = s.bars := rfl
@[simp] theorem State.delFrame_chans (s : State) (n : Nat) : (s.delFrame n).chans = s.chans := rfl
@[simp] theorem State.delFrame_flight (s : State) (n : Nat) : (s.delFrame n).flight = s.flight := rfl
@[simp] theorem State.delFrame_ctxs (s : State) (n : Nat) : (s.delFrame n).ctxs = s.ctxs := rfl
@[simp] theorem State.delFrame_tlb (s : State) (n : Nat) : (s.delFrame n).tlb = s.tlb := rfl
@[simp] theorem State.delFrame_hg (s : State) (n : Nat) : (s.delFrame n).hg = s.hg := rfl
@[simp] theorem State.delFrame_work (s : State) (n : Nat) : (s.delFrame n).work = s.work := rfl
@[simp] theorem State.delFrame_mgmt (s : State) (n : Nat) : (s.delFrame n).mgmt = s.mgmt := rfl
@[simp] theorem State.delFrame_lives (s : State) (n : Nat) : (s.delFrame n).lives = s.lives := rfl
@[simp] theorem State.delFrame_log (s : State) (n : Nat) : (s.delFrame n).log = s.log := rfl
@[simp] theorem State.delFrame_harvest (s : State) (n : Nat) : (s.delFrame n).harvest = s.harvest := rfl
@[simp] theorem State.delFrame_sched (s : State) (n : Nat) : (s.delFrame n).sched = s.sched := rfl
@[simp] theorem State.delFrame_agent (s : State) (n : Nat) : (s.delFrame n).agent = s.agent := rfl
@[simp] theorem State.delFrame_cur (s : State) (n : Nat) : (s.delFrame n).cur = s.cur := rfl
@[simp] theorem State.delFrame_fresh (s : State) (n : Nat) : (s.delFrame n).fresh = s.fresh := rfl
@[simp] theorem State.delFrame_me (s : State) (n : Nat) : (s.delFrame n).me = s.me := rfl
@[simp] theorem State.delFrame_at_core (s : State) (n : Nat) (j : Nat) : (s.delFrame n).core j = s.core j := rfl
@[simp] theorem State.delFrame_at_th (s : State) (n : Nat) (j : Nat) : (s.delFrame n).th j = s.th j := rfl
@[simp] theorem State.delFrame_at_ctxOf (s : State) (n : Nat) (j : Nat) : (s.delFrame n).ctxOf j = s.ctxOf j := rfl
@[simp] theorem State.delFrame_at_die (s : State) (n : Nat) (j : Nat) : (s.delFrame n).die j = s.die j := rfl
@[simp] theorem State.delFrame_at_array (s : State) (n : Nat) (j : Nat) : (s.delFrame n).array j = s.array j := rfl
@[simp] theorem State.delFrame_at_bar (s : State) (n : Nat) (j : Nat) : (s.delFrame n).bar j = s.bar j := rfl
@[simp] theorem State.delFrame_at_chan (s : State) (n : Nat) (j : Nat) : (s.delFrame n).chan j = s.chan j := rfl
@[simp] theorem State.delFrame_at_ctx (s : State) (n : Nat) (j : Nat) : (s.delFrame n).ctx j = s.ctx j := rfl
@[simp] theorem State.delFrame_at_scope (s : State) (n : Nat) (j : Nat) : (s.delFrame n).scope j = s.scope j := rfl
@[simp] theorem State.delFrame_at_launch (s : State) (n : Nat) (j : Nat) : (s.delFrame n).launch j = s.launch j := rfl
@[simp] theorem State.delFrame_at_queue (s : State) (n : Nat) (j : Nat) : (s.delFrame n).queue j = s.queue j := rfl
@[simp] theorem State.delFrame_at_op (s : State) (n : Nat) (j : Nat) : (s.delFrame n).op j = s.op j := rfl
@[simp] theorem State.delFrame_at_run (s : State) (n : Nat) (j : Nat) : (s.delFrame n).run j = s.run j := rfl
@[simp] theorem State.delFrame_at_tensor (s : State) (n : Nat) (j : Nat) : (s.delFrame n).tensor j = s.tensor j := rfl
@[simp] theorem State.delFrame_at_req (s : State) (n : Nat) (j : Nat) : (s.delFrame n).req j = s.req j := rfl

@[simp] theorem State.setCore_core_self (s : State) (c : Nat) (x : Core) : (s.setCore c x).core c = x := by simp [State.setCore, State.core]
theorem State.setCore_core_ne (s : State) {c j : Nat} (h : j ≠ c) (x : Core) : (s.setCore c x).core j = s.core j := by
  simp [State.setCore, State.core, smGet_smPut_ne _ h]
@[simp] theorem State.setCore_setCore (s : State) (c : Nat) (x y : Core) : (s.setCore c x).setCore c y = s.setCore c y := by simp [State.setCore]
@[simp] theorem State.setDie_die_self (s : State) (d : Nat) (x : Die) : (s.setDie d x).die d = x := by simp [State.setDie, State.die]
theorem State.setDie_die_ne (s : State) {d j : Nat} (h : j ≠ d) (x : Die) : (s.setDie d x).die j = s.die j := by
  simp [State.setDie, State.die, smGet_smPut_ne _ h]
@[simp] theorem State.setDie_setDie (s : State) (d : Nat) (x y : Die) : (s.setDie d x).setDie d y = s.setDie d y := by simp [State.setDie]
@[simp] theorem State.setArray_array_self (s : State) (a : Nat) (x : Array) : (s.setArray a x).array a = x := by simp [State.setArray, State.array]
theorem State.setArray_array_ne (s : State) {a j : Nat} (h : j ≠ a) (x : Array) : (s.setArray a x).array j = s.array j := by
  simp [State.setArray, State.array, smGet_smPut_ne _ h]
@[simp] theorem State.setArray_setArray (s : State) (a : Nat) (x y : Array) : (s.setArray a x).setArray a y = s.setArray a y := by simp [State.setArray]
@[simp] theorem State.setBar_bar_self (s : State) (b : Nat) (x : Barrier) : (s.setBar b x).bar b = x := by simp [State.setBar, State.bar]
theorem State.setBar_bar_ne (s : State) {b j : Nat} (h : j ≠ b) (x : Barrier) : (s.setBar b x).bar j = s.bar j := by
  simp [State.setBar, State.bar, smGet_smPut_ne _ h]
@[simp] theorem State.setBar_setBar (s : State) (b : Nat) (x y : Barrier) : (s.setBar b x).setBar b y = s.setBar b y := by simp [State.setBar]
@[simp] theorem State.setChan_chan_self (s : State) (b : Nat) (x : Channel) : (s.setChan b x).chan b = x := by simp [State.setChan, State.chan]
theorem State.setChan_chan_ne (s : State) {b j : Nat} (h : j ≠ b) (x : Channel) : (s.setChan b x).chan j = s.chan j := by
  simp [State.setChan, State.chan, smGet_smPut_ne _ h]
@[simp] theorem State.setChan_setChan (s : State) (b : Nat) (x y : Channel) : (s.setChan b x).setChan b y = s.setChan b y := by simp [State.setChan]
@[simp] theorem State.setCtx_ctx_self (s : State) (k : Nat) (x : Context) : (s.setCtx k x).ctx k = x := by simp [State.setCtx, State.ctx]
theorem State.setCtx_ctx_ne (s : State) {k j : Nat} (h : j ≠ k) (x : Context) : (s.setCtx k x).ctx j = s.ctx j := by
  simp [State.setCtx, State.ctx, smGet_smPut_ne _ h]
@[simp] theorem State.setCtx_setCtx (s : State) (k : Nat) (x y : Context) : (s.setCtx k x).setCtx k y = s.setCtx k y := by simp [State.setCtx]
@[simp] theorem State.setScope_scope_self (s : State) (n : Nat) (x : Scope) : (s.setScope n x).scope n = x := by simp [State.setScope, State.scope]
theorem State.setScope_scope_ne (s : State) {n j : Nat} (h : j ≠ n) (x : Scope) : (s.setScope n x).scope j = s.scope j := by
  simp [State.setScope, State.scope, smGet_smPut_ne _ h]
@[simp] theorem State.setScope_setScope (s : State) (n : Nat) (x y : Scope) : (s.setScope n x).setScope n y = s.setScope n y := by simp [State.setScope]
@[simp] theorem State.setLaunch_launch_self (s : State) (l : Nat) (x : Launch) : (s.setLaunch l x).launch l = x := by simp [State.setLaunch, State.launch]
theorem State.setLaunch_launch_ne (s : State) {l j : Nat} (h : j ≠ l) (x : Launch) : (s.setLaunch l x).launch j = s.launch j := by
  simp [State.setLaunch, State.launch, smGet_smPut_ne _ h]
@[simp] theorem State.setLaunch_setLaunch (s : State) (l : Nat) (x y : Launch) : (s.setLaunch l x).setLaunch l y = s.setLaunch l y := by simp [State.setLaunch]
@[simp] theorem State.setQueue_queue_self (s : State) (k : Nat) (x : QRec) : (s.setQueue k x).queue k = some x := by simp [State.setQueue, State.queue]
theorem State.setQueue_queue_ne (s : State) {k j : Nat} (h : j ≠ k) (x : QRec) : (s.setQueue k x).queue j = s.queue j := by
  simp [State.setQueue, State.queue, smFind_smPut_ne h]
@[simp] theorem State.setOp_op_self (s : State) (k : Nat) (x : Op) : (s.setOp k x).op k = some x := by simp [State.setOp, State.op]
theorem State.setOp_op_ne (s : State) {k j : Nat} (h : j ≠ k) (x : Op) : (s.setOp k x).op j = s.op j := by
  simp [State.setOp, State.op, smFind_smPut_ne h]
@[simp] theorem State.setRun_run_self (s : State) (k : Nat) (x : PRun) : (s.setRun k x).run k = some x := by simp [State.setRun, State.run]
theorem State.setRun_run_ne (s : State) {k j : Nat} (h : j ≠ k) (x : PRun) : (s.setRun k x).run j = s.run j := by
  simp [State.setRun, State.run, smFind_smPut_ne h]
@[simp] theorem State.setTensor_tensor_self (s : State) (k : Nat) (x : Tensor) : (s.setTensor k x).tensor k = some x := by simp [State.setTensor, State.tensor]
theorem State.setTensor_tensor_ne (s : State) {k j : Nat} (h : j ≠ k) (x : Tensor) : (s.setTensor k x).tensor j = s.tensor j := by
  simp [State.setTensor, State.tensor, smFind_smPut_ne h]
@[simp] theorem State.setReq_req_self (s : State) (k : Nat) (x : WReq) : (s.setReq k x).req k = some x := by simp [State.setReq, State.req]
theorem State.setReq_req_ne (s : State) {k j : Nat} (h : j ≠ k) (x : WReq) : (s.setReq k x).req j = s.req j := by
  simp [State.setReq, State.req, smFind_smPut_ne h]
@[simp] theorem State.setFrame_frame_self (s : State) (k : Nat) (x : Frame) : (s.setFrame k x).frame k = some x := by simp [State.setFrame, State.frame]
theorem State.setFrame_frame_ne (s : State) {k j : Nat} (h : j ≠ k) (x : Frame) : (s.setFrame k x).frame j = s.frame j := by
  simp [State.setFrame, State.frame, smFind_smPut_ne h]

/-! ### The strand of a core -/

@[simp] theorem State.setTh_th_self (s : State) (c : Nat) (t : Thread) : (s.setTh c t).th c = t := by simp [State.setTh, State.th]
theorem State.setTh_th_ne (s : State) {c j : Nat} (h : j ≠ c) (t : Thread) : (s.setTh c t).th j = s.th j := by
  simp [State.setTh, State.th, State.setCore_core_ne s h]
@[simp] theorem State.setTh_core_self (s : State) (c : Nat) (t : Thread) : (s.setTh c t).core c = { s.core c with th := t } := by
  simp [State.setTh]
theorem State.setTh_core_ne (s : State) {c j : Nat} (h : j ≠ c) (t : Thread) : (s.setTh c t).core j = s.core j := by
  simp [State.setTh, State.setCore_core_ne s h]
@[simp] theorem State.setCore_th_self (s : State) (c : Nat) (x : Core) : (s.setCore c x).th c = x.th := by simp [State.th]
theorem State.setCore_th_ne (s : State) {c j : Nat} (h : j ≠ c) (x : Core) : (s.setCore c x).th j = s.th j := by
  simp [State.th, State.setCore_core_ne s h]
@[simp] theorem State.setTh_setTh (s : State) (c : Nat) (t u : Thread) : (s.setTh c t).setTh c u = s.setTh c u := by
  simp [State.setTh]
@[simp] theorem State.setCore_setTh (s : State) (c : Nat) (x : Core) (t : Thread) :
    (s.setCore c x).setTh c t = s.setCore c { x with th := t } := by simp [State.setTh]
@[simp] theorem State.setTh_setCore (s : State) (c : Nat) (t : Thread) (x : Core) : (s.setTh c t).setCore c x = s.setCore c x := by
  simp [State.setTh]
/-- Writing a strand leaves every context binding. -/
@[simp] theorem State.setTh_ctxOf (s : State) (c : Nat) (t : Thread) (j : Nat) : (s.setTh c t).ctxOf j = s.ctxOf j := by
  unfold State.ctxOf
  by_cases h : j = c
  · subst h; simp
  · rw [State.setTh_core_ne s h]
/-- A strand written to a core changes only the cores. -/
theorem State.setTh_outside (s : State) (c : Nat) (t : Thread) : s.setTh c t = { s with cores := (s.setTh c t).cores } := rfl
theorem State.setCore_outside (s : State) (c : Nat) (x : Core) : s.setCore c x = { s with cores := (s.setCore c x).cores } := rfl

/-! ### Scalar registers -/

@[simp] theorem Thread.rdS_zero (t : Thread) : t.rdS 0#5 = {} := rfl
@[simp] theorem Thread.wrS_zero (t : Thread) (v : Word) (d : Bool) : t.wrS 0#5 v d = t := rfl
theorem Thread.rdS_wrS_self (t : Thread) {n : BitVec 5} (h : n ≠ 0#5) (v : Word) (d : Bool) :
    (t.wrS n v d).rdS n = { val := v, d := d } := by
  simp only [Thread.wrS, Thread.rdS, h, if_false]
  exact Vector.getElem_set_self n.isLt
theorem Thread.rdS_wrS_ne (t : Thread) {n m : BitVec 5} (h : m ≠ n) (v : Word) (d : Bool) : (t.wrS n v d).rdS m = t.rdS m := by
  by_cases hn : n = 0#5
  · simp [Thread.wrS, hn]
  · by_cases hm : m = 0#5
    · simp [Thread.rdS, hm]
    · simp only [Thread.wrS, Thread.rdS, hn, hm, if_false]
      exact Vector.getElem_set_ne n.isLt m.isLt (fun e => h (BitVec.eq_of_toNat_eq e.symm))
@[simp] theorem Thread.wrS_csr (t : Thread) (n : BitVec 5) (v : Word) (d : Bool) : (t.wrS n v d).csr = t.csr := by
  unfold Thread.wrS; split <;> rfl
@[simp] theorem Thread.wrS_pos (t : Thread) (n : BitVec 5) (v : Word) (d : Bool) : (t.wrS n v d).pos = t.pos := by
  unfold Thread.wrS; split <;> rfl
@[simp] theorem Thread.wrS_trap (t : Thread) (n : BitVec 5) (v : Word) (d : Bool) : (t.wrS n v d).trap = t.trap := by
  unfold Thread.wrS; split <;> rfl
@[simp] theorem Thread.wrS_strm (t : Thread) (n : BitVec 5) (v : Word) (d : Bool) : (t.wrS n v d).strm = t.strm := by
  unfold Thread.wrS; split <;> rfl
@[simp] theorem Thread.wrS_q (t : Thread) (n : BitVec 5) (v : Word) (d : Bool) : (t.wrS n v d).q = t.q := by
  unfold Thread.wrS; split <;> rfl
@[simp] theorem Thread.wrS_job (t : Thread) (n : BitVec 5) (v : Word) (d : Bool) : (t.wrS n v d).job = t.job := by
  unfold Thread.wrS; split <;> rfl
/-- A scalar write touches the scalar registers only. -/
theorem Thread.wrS_regs (t : Thread) (n : BitVec 5) (v : Word) (d : Bool) :
    (t.wrS n v d).regs = { t.regs with s := (t.wrS n v d).regs.s } := by
  unfold Thread.wrS; split <;> rfl
@[simp] theorem Thread.advance_regs (t : Thread) (n : Nat) : (t.advance n).regs = t.regs := rfl
@[simp] theorem Thread.branch_regs (t : Thread) (a : Word) : (t.branch a).regs = t.regs := rfl
@[simp] theorem Thread.advance_strm (t : Thread) (n : Nat) : (t.advance n).strm = t.strm := rfl
@[simp] theorem Thread.branch_strm (t : Thread) (a : Word) : (t.branch a).strm = t.strm := rfl
@[simp] theorem Thread.advance_csr (t : Thread) (n : Nat) : (t.advance n).csr = t.csr := rfl
@[simp] theorem Thread.branch_csr (t : Thread) (a : Word) : (t.branch a).csr = t.csr := rfl
@[simp] theorem Thread.advance_trap (t : Thread) (n : Nat) : (t.advance n).trap = t.trap := rfl
@[simp] theorem Thread.branch_trap (t : Thread) (a : Word) : (t.branch a).trap = t.trap := rfl
@[simp] theorem Thread.advance_q (t : Thread) (n : Nat) : (t.advance n).q = t.q := rfl
@[simp] theorem Thread.branch_q (t : Thread) (a : Word) : (t.branch a).q = t.q := rfl
@[simp] theorem Thread.advance_job (t : Thread) (n : Nat) : (t.advance n).job = t.job := rfl
@[simp] theorem Thread.branch_job (t : Thread) (a : Word) : (t.branch a).job = t.job := rfl
@[simp] theorem Thread.rdS_advance (t : Thread) (n : Nat) (r : BitVec 5) : (t.advance n).rdS r = t.rdS r := rfl
@[simp] theorem Thread.rdS_branch (t : Thread) (a : Word) (r : BitVec 5) : (t.branch a).rdS r = t.rdS r := rfl
@[simp] theorem Pos.branch_pc (p : Pos) (a : Word) : (p.branch a).pc = a := rfl
@[simp] theorem Pos.branch_atHdr (p : Pos) (a : Word) : (p.branch a).atHdr = true := rfl
@[simp] theorem Pos.branch_mode (p : Pos) (a : Word) : (p.branch a).mode = p.mode := rfl
@[simp] theorem Pos.advance_mode (p : Pos) (n : Nat) : (p.advance n).mode = p.mode := by
  unfold Pos.advance; simp only; split
  · split <;> rfl
  · rfl

end Sys2Proof.Machine
end

