-- ==== Sys2Proof/Laws/Ops.lean ====
section
/-! SUPPORT. What the shared operations of a core can answer: registers, position, traps, waits, accesses, and the head of a
queue. -/
namespace Sys2Proof.Machine
open Sys2Proof

/-! ### Registers -/


/-- A scalar register reads what was last written to it; the others are as before (R86). -/
theorem Thread.rdS_wrS (t : Thread) (n m : BitVec 5) (v : Word) (d : Bool) :
    (t.wrS n v d).rdS m = if m = n ∧ n ≠ 0#5 then { val := v, d := d } else t.rdS m := by
  by_cases hm : m = n
  · subst hm
    by_cases h0 : m = 0#5
    · simp [h0]
    · simp [h0, Thread.rdS_wrS_self t h0]
  · simp [hm, Thread.rdS_wrS_ne t hm]

@[simp] theorem Regs.rdP_zero (r : Regs) : r.rdP 0 = { val := BitVec.allOnes 256 } := rfl
@[simp] theorem Regs.wrP_zero (r : Regs) (x : PCell) : r.wrP 0 x = r := rfl
@[simp] theorem Regs.wrP_s (r : Regs) (n : BitVec 5) (x : PCell) : (r.wrP n x).s = r.s := by
  unfold Regs.wrP; split <;> [rfl; (split <;> rfl)]
@[simp] theorem Regs.wrV_s (r : Regs) (n : BitVec 6) (x : VCell) : (r.wrV n x).s = r.s := by
  unfold Regs.wrV; split <;> [rfl; (split <;> [rfl; (split <;> rfl)])]

/-! ### Position -/

@[simp] theorem State.advance_mem (s : State) (c n : Nat) : (s.advance c n).mem = s.mem := rfl

/-! ### Ending a strand and taking a trap -/

@[simp] theorem withdrawArrival_mem (s : State) (t : Thread) : (withdrawArrival s t).mem = s.mem := by
  unfold withdrawArrival; split <;> rfl

@[simp] theorem endJob_mem (s : State) (t : Thread) : (endJob s t).mem = s.mem := by
  unfold endJob
  split
  · rfl
  · split <;> rfl

@[simp] theorem updCancel_mem (s : State) (k : Nat) (f : Cancel → Cancel) : (s.updCancel k f).mem = s.mem := by
  unfold State.updCancel; split <;> rfl

/-- A stamp on its way changes the dies only (R253). -/
@[simp] theorem sendStamp_mem (s : State) (src dst : Nat) : (sendStamp s src dst).mem = s.mem := by
  unfold sendStamp; split <;> rfl

@[simp] theorem askCancel_mem (s : State) (die n : Nat) (w : Asker) (ctx : Nat) (root : Option Nat) :
    (askCancel s die n w ctx root).mem = s.mem := by simp [askCancel]

@[simp] theorem endStrand_mem (s : State) (c : Nat) : (endStrand s c).mem = s.mem := by
  simp [endStrand]

@[simp] theorem killStrand_mem (s : State) (c k : Nat) : (killStrand s c k).mem = s.mem := by simp [killStrand]

@[simp] theorem failLaunch_mem (s : State) (l : Nat) : (failLaunch s l).mem = s.mem := by
  simp [failLaunch, State.setLaunch]

@[simp] theorem abortStep_mem (s : State) (c t : Nat) : (abortStep s c t).mem = s.mem := by
  unfold abortStep; split
  · simp
  · simp only [State.setCore_mem]; split <;> simp

@[simp] theorem doubleTrap_mem (s : State) (c : Nat) (cause : BitVec 8) (a : Word) : (doubleTrap s c cause a).mem = s.mem := by
  simp [doubleTrap]

/-- In K mode a precise trap writes the trap registers and the position of its thread, and nothing else (R290). -/
theorem takeTrapAt_k {s : State} {c : Nat} (h : (s.th c).pos.mode = .k) (p : Pos) (cause : BitVec 8) (v : Word) (r : Bool)
    (q : BitVec 3 := 0) : takeTrapAt s c p cause v r q =
      s.setCore c { s.core c with th := trapThread (s.th c) (s.core c).tvec p cause v r q } := by
  simp only [takeTrapAt]
  have h' : (s.core c).th.pos.mode = .k := h
  rw [h']; rfl

/-- In H mode a precise trap ends the strand, once nothing that it has begun waits for the host (R61, R292). -/
theorem takeTrapAt_h {s : State} {c : Nat} (h : (s.th c).pos.mode = .h) (p : Pos) (cause : BitVec 8) (v : Word) (r : Bool)
    (q : BitVec 3 := 0) : takeTrapAt s c p cause v r q = if (s.core c).sending then s else doubleTrap s c cause p.pc := by
  simp only [takeTrapAt]
  have h' : (s.core c).th.pos.mode = .h := h
  rw [h']

@[simp] theorem takeTrapAt_mem (s : State) (c : Nat) (p : Pos) (cause : BitVec 8) (v : Word) (r : Bool)
    (q : BitVec 3) : (takeTrapAt s c p cause v r q).mem = s.mem := by
  simp only [takeTrapAt]; split
  · split <;> simp
  · rfl

@[simp] theorem takeTrap_mem (s : State) (c : Nat) (cause : BitVec 8) (v : Word) : (takeTrap s c cause v).mem = s.mem := by
  simp [takeTrap]

@[simp] theorem takeQfault_mem (s : State) (c : Nat) (q : BitVec 3) (r : Bool) : (takeQfault s c q r).mem = s.mem := by
  simp [takeQfault]

@[simp] theorem takeSubn_mem (s : State) (c : Nat) (r : Bool) : (takeSubn s c r).mem = s.mem := by simp [takeSubn]

@[simp] theorem haltQueue_mem (s : State) (c : Nat) (v : VQ) (cause : BitVec 8) (a : Word) :
    (haltQueue s c v cause a).mem = s.mem := rfl

@[simp] theorem postFault_mem (s : State) (ctx : Nat) (va : Word) (ag : BitVec 8) (k : AccKind) (die : Nat)
    (unit : BitVec 16) (who sub : Nat) : (postFault s ctx va ag k die unit who sub).2.mem = s.mem := rfl

@[simp] theorem parkStrand_mem (s : State) (c : Nat) (va : Word) (k : AccKind) : (parkStrand s c va k).mem = s.mem := rfl
@[simp] theorem clearHost_mem (s : State) (c : Nat) : (clearHost s c).mem = s.mem := rfl
@[simp] theorem drainFifo_mem (s : State) (c : Nat) : (drainFifo s c).mem = s.mem := rfl
@[simp] theorem mergeStamp_mem (s : State) (die : Nat) (x : Vector (BitVec 48) 18) : (mergeStamp s die x).mem = s.mem := rfl

/-- An acquire merges stamps and changes no byte (R253). -/
@[simp] theorem takeStamps_mem (s : State) (die : Nat) (hs : List Nat) : (takeStamps s die hs).mem = s.mem := by
  induction hs generalizing s with
  | nil => rfl
  | cons h hs ih => exact (ih _).trans (mergeStamp_mem _ _ _)
@[simp] theorem acquireAll_mem (s : State) (c : Nat) : (acquireAll s c).mem = s.mem := by simp [acquireAll, acquireFrom]

/-- A store of the strand writes its bytes and no others. -/
@[simp] theorem storeBytes_mem (s : State) (c : Nat) (a : Word) (key : Nat) (cls : Option Cls) (bs : List Byte) :
    (storeBytes s c a key cls bs).mem = s.mem.writeBytes key bs := rfl

/-! ### Guards and waits: what they can answer -/

/-- With no D bit set the guarded part runs (R92). -/
theorem guardD_run {s : State} {rs : List (BitVec 5)} (h : firstD (s.th s.me) rs = none) (k : State → Out) :
    guardD s rs k = k s := by simp [guardD, h]

/-- Either a D bit raises DFAULT or the guarded part runs (R92, R306). -/
theorem guardD_cases (s : State) (rs : List (BitVec 5)) (k : State → Out) :
    (∃ n, firstD (s.th s.me) rs = some n ∧ guardD s rs k = .next (takeTrap s s.me cDfault (dCode 0 n))) ∨
    (firstD (s.th s.me) rs = none ∧ guardD s rs k = k s) := by
  unfold guardD
  cases h : firstD (s.th s.me) rs with
  | none => exact .inr ⟨rfl, rfl⟩
  | some n => exact .inl ⟨n, rfl, rfl⟩

/-- No register of the list has D set. -/
theorem firstD_none {t : Thread} {rs : List (BitVec 5)} : firstD t rs = none ↔ ∀ r ∈ rs, (t.rdS r).d = false := by
  induction rs with
  | nil => simp [firstD]
  | cons r rs ih =>
    cases h : (t.rdS r).d <;> simp [firstD, h, ih]

/-- A kill point passes where the scope is not cancelled (R60). -/
theorem killPoint_run {s : State} {c : Nat} (h : killedStrand s c = none) (k : State → Out) : killPoint s c k = k s := by
  simp [killPoint, h]

@[simp] theorem killAt_mem (s : State) (c k : Nat) : (killAt s c k).mem = s.mem := by
  unfold killAt; split <;> simp

theorem killPoint_cases (s : State) (c : Nat) (k : State → Out) :
    (∃ n, killedStrand s c = some n ∧ killPoint s c k = .next (killAt s c n)) ∨
    (killedStrand s c = none ∧ killPoint s c k = k s) := by
  unfold killPoint
  cases h : killedStrand s c with
  | none => exact .inr ⟨rfl, rfl⟩
  | some n => exact .inl ⟨n, rfl, rfl⟩

/-- A queue that goes on without a TRET is not stuck (R295). -/
theorem goesOn_not_stuck {s : State} {c n : Nat} {v : VQ} (h : goesOn s c n v = true) : (s.th c).stuck v = false := by
  cases n with
  | zero => simp [goesOn] at h
  | succ n =>
    unfold goesOn at h
    split at h
    · cases h
    · simp only [Bool.and_eq_true, Bool.not_eq_true'] at h; exact h.1

/-- Where no queue stands halted by a fault, a wait for queues finds none to blame (R295). -/
theorem blocker_none {s : State} {c : Nat} (vs : List VQ) (h : (s.th c).q.haltedQ = none) : blocker s c vs = none := by
  have hf : ∀ v, (s.th c).q.faulted v = false := by
    unfold Queues.haltedQ at h
    split at h
    · cases h
    · split at h
      · cases h
      · split at h
        · cases h
        · intro v; cases v <;> simp_all
  unfold blocker
  rw [show vs.find? (fun v => (s.th c).q.faulted v) = none from by simp [hf]]
  simp [h]

/-- A control core held by queues takes QFAULT or waits (R83, R295). -/
theorem heldBy_cases (s : State) (c : Nat) (vs : List VQ) (r : Bool) :
    (∃ v, blocker s c vs = some v ∧ heldBy s c vs r = .next (takeQfault s c (qCode v) r)) ∨
    (∃ v, blocker s c vs = none ∧ (s.th c).deadlock = some v ∧
      heldBy s c vs r = .next (takeQfault (haltQueue s c v cTokStall 0) c (qCode v) r)) ∨
    (blocker s c vs = none ∧ (s.th c).deadlock = none ∧ heldBy s c vs r = .next s) := by
  unfold heldBy awaitQueues
  cases h : blocker s c vs with
  | some v => exact .inl ⟨v, rfl, rfl⟩
  | none =>
    cases h' : (s.th c).deadlock with
    | some v => exact .inr (.inl ⟨v, rfl, rfl, rfl⟩)
    | none => exact .inr (.inr ⟨rfl, rfl, rfl⟩)

/-- A control core that waits for queues in a way R83 does not name takes QFAULT or waits (R295). -/
theorem awaitQueues_cases (s : State) (c : Nat) (vs : List VQ) (r : Bool) :
    (∃ v, blocker s c vs = some v ∧ awaitQueues s c vs r = .next (takeQfault s c (qCode v) r)) ∨
    (blocker s c vs = none ∧ awaitQueues s c vs r = .next s) := by
  unfold awaitQueues
  cases h : blocker s c vs with
  | some v => exact .inl ⟨v, rfl, rfl⟩
  | none => exact .inr ⟨rfl, rfl⟩

/-- Whatever such a wait comes to, it goes on, and memory is as before. -/
theorem awaitQueues_next (s : State) (c : Nat) (vs : List VQ) (r : Bool) :
    ∃ t, awaitQueues s c vs r = .next t ∧ t.mem = s.mem := by
  rcases awaitQueues_cases s c vs r with ⟨v, _, h⟩ | ⟨_, h⟩ <;> exact ⟨_, h, by simp⟩

/-- Whatever holds the control core, it goes on, and memory is as before. -/
theorem heldBy_next (s : State) (c : Nat) (vs : List VQ) (r : Bool) : ∃ t, heldBy s c vs r = .next t ∧ t.mem = s.mem := by
  rcases heldBy_cases s c vs r with ⟨v, _, h⟩ | ⟨v, _, _, h⟩ | ⟨_, _, h⟩ <;> exact ⟨_, h, by simp⟩

theorem waitQueues_run {s : State} {c : Nat} {p : QEntry → Bool} (h : (s.th c).q.holding p = []) (k : State → Out) :
    waitQueues s c p k = k s := by simp [waitQueues, h]

theorem waitQueues_cases (s : State) (c : Nat) (p : QEntry → Bool) (k : State → Out) :
    (waitQueues s c p k = heldBy s c ((s.th c).q.holding p) false) ∨
    ((s.th c).q.holding p = [] ∧ waitQueues s c p k = k s) := by
  unfold waitQueues
  cases h : (s.th c).q.holding p with
  | nil => exact .inr ⟨rfl, rfl⟩
  | cons v vs => exact .inl rfl

/-- A wait for accesses that queues hold is QFAULT or goes on waiting (R249, R295). -/
theorem orderWait_cases (s : State) (c : Nat) (vs : List VQ) :
    (∃ v, (s.th c).q.haltedQ.isSome = true ∧ orderWait s c vs = .next (takeQfault s c (qCode v) false)) ∨
    orderWait s c vs = .next s := by
  simp only [orderWait]
  split
  · next h => exact .inl ⟨_, by simp [h], rfl⟩
  · exact .inr rfl

/-- Whatever such a wait comes to, it goes on, and memory is as before. -/
theorem orderWait_next (s : State) (c : Nat) (vs : List VQ) : ∃ t, orderWait s c vs = .next t ∧ t.mem = s.mem := by
  rcases orderWait_cases s c vs with ⟨v, _, h⟩ | h <;> exact ⟨_, h, by simp⟩

/-- A release waits for the strand's earlier accesses, then writes back the dirty lines (R248, R249). -/
theorem releaseWait_cases (s : State) (c : Nat) (k : State → Out) :
    (accessesDone s c = true ∧ releaseWait s c k = k (drainFifo s c)) ∨
    (accessesDone s c = false ∧ releaseWait s c k = awaitAccesses s c) := by
  unfold releaseWait
  cases h : accessesDone s c
  · exact .inr ⟨rfl, by simp⟩
  · exact .inl ⟨rfl, by simp⟩

/-- An access that is let through goes on with its key. -/
theorem coreAccess_run {s s' : State} {c : Nat} {k : AccKind} {rel : Bool} {a : Word} {w key : Nat} {cls : Option Cls}
    (hp : (s.th c).job.park = .run) (h : coreCheck s c k rel a w = .ok key cls s') (go : Nat → Option Cls → State → Out) :
    coreAccess s c k rel a w go = go key cls s' := by
  simp [coreAccess, hp, h]

/-- What an access of the control core can come to (R226, R289, R306). -/
theorem coreAccess_cases (s : State) (c : Nat) (k : AccKind) (rel : Bool) (a : Word) (w : Nat)
    (go : Nat → Option Cls → State → Out) :
    (∃ key cls s', coreCheck s c k rel a w = .ok key cls s' ∧ coreAccess s c k rel a w go = go key cls s') ∨
    (∃ cause va s', coreAccess s c k rel a w go = .next (takeTrap s' c cause va) ∧ s'.mem = s.mem) ∨
    (∃ va, coreAccess s c k rel a w go = .next (parkStrand s c va k)) ∨
    (∃ s', coreCheck s c k rel a w = .wait s' ∧ coreAccess s c k rel a w go = .next s') ∨
    (coreCheck s c k rel a w = .behind ∧ ∃ s', coreAccess s c k rel a w go = .next s' ∧ s'.mem = s.mem) ∨
    coreAccess s c k rel a w go = killPoint s c (fun s => .next s) := by
  simp only [coreAccess]
  cases hp : (s.th c).job.park with
  | wait n => exact .inr (.inr (.inr (.inr (.inr rfl))))
  | bad va => exact .inr (.inl ⟨cPageFault, va, _, rfl, rfl⟩)
  | run =>
    cases h : coreCheck s c k rel a w with
    | ok key cls s' => exact .inl ⟨key, cls, s', rfl, rfl⟩
    | fault cause va => exact .inr (.inl ⟨cause, va, _, rfl, rfl⟩)
    | absent va => exact .inr (.inr (.inl ⟨va, rfl⟩))
    | wait s' => exact .inr (.inr (.inr (.inl ⟨s', rfl, rfl⟩)))
    | behind => exact .inr (.inr (.inr (.inr (.inl ⟨rfl, orderWait_next s c _⟩))))

/-- The check of an access changes no byte of memory. -/
theorem coreCheck_ok_mem {s s' : State} {c : Nat} {k : AccKind} {rel : Bool} {a : Word} {w key : Nat} {cls : Option Cls}
    (h : coreCheck s c k rel a w = .ok key cls s') : s'.mem = s.mem := by
  simp only [coreCheck] at h
  split at h
  · cases h
  · split at h
    · cases h
    · cases h
    · cases h
    · split at h
      · cases h
      · split at h
        · split at h
          · cases h
          · cases h
          · split at h <;> cases h; rfl
        · cases h; rfl

/-! ### The head of a queue -/

@[simp] theorem completeHead_mem (s : State) (c : Nat) (v : VQ) (e : QEntry) : (completeHead s c v e).mem = s.mem := rfl
@[simp] theorem endHeld_mem (s : State) (c : Nat) (v : VQ) (e : QEntry) : (endHeld s c v e).mem = s.mem := by
  simp only [endHeld]
  split <;> rfl
@[simp] theorem subnHead_mem (s : State) (c : Nat) (v : VQ) (e : QEntry) (n : Nat) (x : Srcs) :
    (subnHead s c v e n x).mem = s.mem := rfl
@[simp] theorem parkHead_mem (s : State) (c : Nat) (v : VQ) (va : Word) (k : AccKind) : (parkHead s c v va k).mem = s.mem := rfl
@[simp] theorem discardHeld_mem (s : State) (c : Nat) (v : VQ) : (discardHeld s c v).mem = s.mem := rfl
@[simp] theorem takePops_mem (s : State) (c : Nat) (v : VQ) (e : QEntry) : (takePops s c v e).mem = s.mem := by
  simp only [takePops]; split <;> rfl
@[simp] theorem keepSrcs_mem (s : State) (c : Nat) (v : VQ) (e : QEntry) : (keepSrcs s c v e).mem = s.mem := by
  simp [keepSrcs]
@[simp] theorem spendFill_mem (s : State) (c : Nat) (f : FillFault) : (spendFill s c f).mem = s.mem := rfl
@[simp] theorem routed_mem (s : State) (c : Nat) (i : Instr) (spec : VSpec) (f : V3) (x : RouteRule) :
    (routed s c i spec f x).mem = s.mem := rfl

/-- What the outcome of performing a head makes of the state. -/
def headOutcome (s : State) (c : Nat) (v : VQ) (e : QEntry) : VOut → State
  | .wait s => waitHead s c v e
  | .fault cause addr => haltQueue (keepSrcs s c v e) c v cause addr
  | .park va k => parkHead s c v va k
  | .done s => completeHead s c v e
  | .subn low src => subnHead s c v e low src

/-- A move of a queue performs its head, or does without it what leaves memory as it is (R60, R82, R209, R226). -/
theorem queueMove_cases (s : State) (c : Nat) (v : VQ) (perform : QEntry → State → VOut) :
    (∃ e r, ((s.th c).q.get v).held = e :: r ∧
      queueMove s c v perform = .next (headOutcome s c v e (perform e s))) ∨
    (∃ t, queueMove s c v perform = .next t ∧ t.mem = s.mem) := by
  simp only [queueMove]
  cases hq : ((s.th c).q.get v).held with
  | nil => exact .inr ⟨s, rfl, rfl⟩
  | cons e r =>
    simp only
    split
    · exact .inr ⟨_, rfl, rfl⟩
    · split
      · exact .inr ⟨_, rfl, by split <;> simp⟩
      · split
        · exact .inr ⟨_, rfl, rfl⟩
        · split
          · exact .inr ⟨_, rfl, rfl⟩
          · exact .inr ⟨_, rfl, by simp⟩
          · split
            · exact .inr ⟨_, rfl, by simp⟩
            · split
              · exact .inr ⟨_, rfl, rfl⟩
              · refine .inl ⟨e, r, rfl, ?_⟩
                cases perform e s <;> rfl

/-- The wait of R81 for the vector VEXTR reads lets routing go on, or holds the control core. -/
theorem awaitWriter_cases (s : State) (c : Nat) (x : RouteRule) (k : State → Out) :
    (∃ vs, vroute.awaitWriter s c x k = heldBy s c vs false) ∨ vroute.awaitWriter s c x k = k s := by
  unfold vroute.awaitWriter
  split
  · exact .inr rfl
  · simp only []
    rcases waitQueues_cases s c _ k with h | ⟨_, h⟩
    · exact .inl ⟨_, h⟩
    · exact .inr h

/-- Routing goes on in every state and changes no byte of memory (R78, R79). -/
theorem vroute_next (i : Instr) (spec : VSpec) (f : V3) (x : RouteRule) (s : State) :
    ∃ t, vroute i spec f x s = .next t ∧ t.mem = s.mem := by
  simp only [vroute]
  split
  · exact ⟨_, rfl, by simp⟩
  · split
    · exact ⟨_, rfl, by simp⟩
    · split
      · exact ⟨_, rfl, by simp⟩
      · rcases guardD_cases s x.base _ with ⟨n, _, h⟩ | ⟨_, h⟩
        · exact ⟨_, h, by simp⟩
        · rw [h]
          rcases awaitWriter_cases s s.me x _ with ⟨vs, h⟩ | h
          · rw [h]; exact heldBy_next _ _ _ _
          · rw [h]
            split
            · exact ⟨_, rfl, by simp⟩
            · split
              · exact heldBy_next _ _ _ _
              · exact ⟨_, rfl, by simp⟩

/-- The wait for a value goes on in every state and changes no byte of memory (R110). -/
theorem vwaitStep_next (s : State) (c : Nat) (w : VWait) (i : Instr) : ∃ t, vwaitStep s c w i = .next t ∧ t.mem = s.mem := by
  simp only [vwaitStep]
  split
  · exact ⟨_, rfl, by simp⟩
  · split
    · split
      · exact ⟨_, rfl, by simp⟩
      · split
        · exact awaitQueues_next _ _ _ _
        · exact heldBy_next _ _ _ _
    · rcases killPoint_cases s c (fun s => .next (s.setTh c { s.th c with job := { (s.th c).job with wait := .none } }))
        with ⟨n, _, h⟩ | ⟨_, h⟩
      · exact ⟨_, h, by simp⟩
      · exact ⟨_, h, by simp⟩

end Sys2Proof.Machine
end

