-- ==== Sys2Proof/Tests/Slice0.lean ====
section
/-! SUPPORT. Tests: terms that the well-formedness checks refuse, words written out from the spec's encodings, single steps
with results the spec states, and for every statement with hypotheses a state and operands that meet them, clause by clause. -/
open Sys2Proof Sys2Proof.Machine Sys2Proof.Ob

namespace Sys2Proof.Test
set_option Elab.async false

/-! ### Ill-formed terms are refused, one for each check -/

def v3 (a b c : BitVec 6) : V3 := { tok := 0, a := a, b := b, c := c, ps := 0, lit := 0 }
def mc : MCmd :=
  { koff := 0, stb := 0, sta := 0, acc := 0, raise := 31, await := 31, pl := 0, pt := 0, dw := 0, dh := 0, sw := 0, sh := 0,
    row0 := 0, k := 0, nm1 := 0, mm1 := 0 }
def fp : FPkt :=
  { dc := false, lp := false, dh := false, sh := false, scope := 0, prio := 0, src := 0, dst := 0, len := 1, stamp := 0,
    nbt := 0, aux := 0, tag := 0 }

theorem test_wf_scalar : ([.bp 24 0 0, .bp 0 3 0, .chkd 3 0 0, .chkd 0 32 0, .chkd 1 57 0, .chkd 2 24 0, .fence 5, .blk 1 0,
    .lfence 0 1, .lfence 1 0] : List Instr).all (fun i => !i.wf) = true := by decide +kernel

theorem test_wf_command : ([.mzero { mc with koff := 1 }, .mzero { mc with sta := 1 }, .mzero { mc with stb := 1 },
    .mzero { mc with k := 1 }, .mzero { mc with nm1 := 1 }, .mzero { mc with mm1 := 1 }, .mma mc, .mma { mc with k := 4097 },
    .mma { mc with k := 16, row0 := 1 }, .mconv mc, .mout { mc with stb := 1 }, .mout { mc with k := 1 }, .mout { mc with pl := 1 },
    .macc { mc with stb := 1 }, .macc { mc with k := 1 }, .macc { mc with sh := 1 }] : List Instr).all (fun i => !i.wf) = true := by
  decide +kernel

theorem test_wf_packet : ([.flcopy { fp with len := 0 }, .flcopy { fp with lp := true, len := 32 }, .flcopy { fp with sh := true },
    .flcopy { fp with dh := true, lp := true, len := 64, dst := 0x100000000 }, .flcopy { fp with aux := 1 },
    .flcopy { fp with dc := true, aux := 16 }, .flfill { fp with src := 1 },
    .flred { fp with aux := 256 }, .flred { fp with aux := 6 }, .flred { fp with aux := 0xA0 },
    .flstmp fp, .flstmp { fp with len := 0, aux := 1 }, .flstmp { fp with len := 0, dst := 1 }, .flcoll fp,
    .flcoll { fp with aux := 0x10008 }, .flcoll { fp with aux := 0x10016 }, .flcoll { fp with aux := 0x4010007 },
    .flcoll { fp with aux := 0x10040 }] : List Instr).all (fun i => !i.wf) = true := by decide +kernel

theorem test_wf_vector : ([.vadd (v3 58 0 0), .vadd (v3 0 59 0), .vst (v3 56 0 0), .vld (v3 58 0 0), .vadds (v3 0 0 32), .pand (v3 24 0 0),
    .pand { v3 1 1 1 with ps := 2 }, .vcvt (v3 0 0 10), .vred (v3 0 0 48), .vqnt (v3 0 0 1), .vld { v3 0 0 0 with tok := 4 },
    .vst { v3 0 0 0 with tok := 8 }, .vadd { v3 0 0 0 with lit := 1 }, .sbal (v3 8 0 0), .sbal (v3 0 1 0)] : List Instr).all
    (fun i => !i.wf) = true := by decide +kernel

/-! ### Words that the spec writes out (its reference entries and tables) -/

theorem test_decode_scalar : ([
    (0x00190A91, .fshr { rd := 3, ra := 4, rb := 5 } 8), (0x27050031, .jalr { rd := 0, ra := 20, imm := 24 }),
    (0x29480011, .bp 9 0 8), (0x2AA08051, .chkd 1 20 40), (0x39204001, .liu 9 0x2000), (0x3D678111, .fli 11 0x3C088),
    (0x0C300061, .csrr 6 0x030), (0x0C07D041, .csrw { rd := 0, ra := 31 } 0x020), (0x0C05D103, .csrw { rd := 0, ra := 23 } 0x081),
    (0x0A190009, .fsqrt { rd := 3, ra := 4 } 0), (0x0B190A01, .fma { rd := 3, ra := 4, rb := 5 } 0),
    (0x1512_0001, .ldwu { rd := 2, ra := 8, imm := 0 }), (0x1A20C001, .stw { rd := 4, ra := 3, imm := 0 }),
    (0x1C094097, .ldaq { rd := 1, ra := 5 } false), (0x1C0940D7, .ldaq { rd := 1, ra := 5 } true),
    (0x1C320FC5, .acas { rd := 6, ra := 8, rb := 7 } 3 true), (0x1CDB4815, .afadd { rd := 27, ra := 13, rb := 4 } 0),
    (0xFF00C00F, .blk 12 7), (0xFF01C001, .blk 28 0)] : List (BitVec 32 × Instr)).all
    (fun p => decodeTollum p.1 0 == some p.2 && encodeTollum p.2 == some p.1) = true := by decide +kernel

theorem test_decode_system : ([
    (0xC0000001, .nop), (0xC110C001, .semw { rd := 2, ra := 3 }), (0xC210C801, .sems { rd := 2, ra := 3, rb := 4 }),
    (0xC3A82801, .bari { rd := 21, ra := 0, rb := 20 }), (0xC3A80003, .bariClr { rd := 21, ra := 0 }),
    (0xC4F00001, .bar { rd := 30, ra := 0 }), (0xC5298E01, .mcmd { rd := 5, ra := 6, rb := 7 }),
    (0xC6214001, .mringCfg { rd := 4, ra := 5 }), (0xC6024003, .mringPost { rd := 0, ra := 9 }), (0xC6300005, .mringStat 6),
    (0xC704C001, .kld { rd := 0, ra := 19 }), (0xC9018E03, .ownf { rd := 0, ra := 6, rb := 7 } 1),
    (0xCA214005, .stcfg { rd := 4, ra := 5 } 2), (0xCB214007, .cbcfg { rd := 4, ra := 5 } 3), (0xCD000009, .fence 4),
    (0xCE000049, .lfence 4 2), (0xCE0001FF, .lfence 15 15), (0xCF000001, .isync),
    (0xD0088601, .toksend { rd := 1, ra := 2, rb := 3 }), (0xD1214001, .tokwait { rd := 4, ra := 5 }), (0xD2380001, .timer 7),
    (0xD3424001, .timewait { rd := 8, ra := 9 }), (0xD4214001, .vdie { rd := 4, ra := 5 }),
    (0xD5214C01, .hops { rd := 4, ra := 5, rb := 6 }), (0xD5214C03, .hopsMd { rd := 4, ra := 5, rb := 6 }),
    (0xD62A9601, .launch { rd := 5, ra := 10, rb := 11 }), (0xD7330001, .cwait { rd := 6, ra := 12 }), (0xD8000001, .taskend),
    (0xDA20C001, .scopenew { rd := 4, ra := 3 }), (0xDB2A8001, .cancel { rd := 5, ra := 10 }),
    (0xDC314001, .scopewait { rd := 6, ra := 5 }), (0xDD000007, .safept 3), (0xDE00000B, .trap 5), (0xDF000001, .tret),
    (0xE0200001, .banksync 4)] : List (BitVec 32 × Instr)).all
    (fun p => decodeTollum p.1 0 == some p.2 && encodeTollum p.2 == some p.1) = true := by decide +kernel

theorem test_decode_vector : ([
    (0x402AA809, .vadd { v3 21 20 1 with tok := 1 }), (0x40018211, .vadd (v3 3 1 2)), (0x4E018221, .vadds (v3 3 1 4)),
    (0x5A018211, .vxor (v3 3 1 2)), (0x4C2A0263, .vmads { v3 20 1 12 with tok := 1, ps := 1 }),
    (0x4A0B022B, .vmadk { v3 22 1 5 with ps := 1 }), (0x72010209, .vslide (v3 2 1 1)), (0x720407F9, .vslide (v3 8 3 63)),
    (0x6004123B, .vfsh { v3 8 9 7 with ps := 1 }), (0x6C0206B1, .vred (v3 4 3 22)), (0x71669061, .vperm { v3 13 8 12 with tok := 11 }),
    (0x68018213, .vsel { v3 3 1 2 with ps := 1 }), (0x86A6BC11, .vstm { v3 13 30 2 with tok := 5 }),
    (0x90018201, .cbadvRptr (v3 3 1 0)), (0x92002803, .spush { v3 0 20 0 with ps := 1 }), (0x940A8049, .spop (v3 21 0 9)),
    (0x96000001, .sbal (v3 0 0 0)), (0x98008431, .pset (v3 1 2 6)), (0x9A048211, .pand (v3 9 1 2)), (0xA0051201, .pnot (v3 10 9 0)),
    (0xA2021201, .pcnt (v3 4 9 0)), (0xA40A1601, .vbcast (v3 20 11 0)), (0xA8028621, .vins (v3 5 3 4)), (0xAA002801, .vpark (v3 0 20 0)),
    (0xAC0A8001, .vunpark (v3 21 0 0)), (0xAE028679, .vldb (v3 5 3 15))] : List (BitVec 32 × Instr)).all
    (fun p => decodeTollum p.1 0 == some p.2 && encodeTollum p.2 == some p.1) = true := by decide +kernel

/-- 05_encoding.md, the example of a literal: `vmad v20, v21, =0x3E2A_AAAB | +n`. -/
theorem test_decode_literal : decodeTollum 0x470A2BD1 0x3E2AAAAB =
    some (.vmad { v3 20 21 58 with tok := 8, lit := 0x3E2AAAAB }) := by decide +kernel

/-- The example of R114: `mma a2, st1, st2, #128, #64, #256, await=3, raise=4`. -/
theorem test_decode_command : decodeCommand 0x0000000000401FFF0000000021088302 =
    some (.mma { mc with acc := 2, sta := 1, stb := 2, mm1 := 127, nm1 := 63, k := 256, await := 3, raise := 4 }) := by
  decide +kernel

/-- Reserved opcodes are refused. -/
theorem test_decode_record_reserved : decodeRecord 0 = none ∧ decodePacket 0 = none ∧ decodeCommand 0 = none := by
  decide +kernel

/-- The encoded OPR record of 02_launch, its 32 bytes as one number. -/
theorem test_decode_record : decodeRecord 0x0000000010012401000000000000000000000000000123050007004124886C01 =
    some (.opr { prio := 12, tclass := 3, rect := 0x1244, scope := 0x41, opbi := 7, in0 := 0x00012305, in1 := 0, in2 := 0,
                 in3 := 0, out0 := 0x10012401, out1 := 0 }) := by decide +kernel

/-- Table 5-11: an FLFILL of 256 bytes at 0x4000 with a pattern, in scope 0x41 at priority 5. -/
theorem test_decode_packet : decodePacket (BitVec.ofNat 512 (0x00410502 + 0x4000 * 2 ^ 128 + 256 * 2 ^ 192 + 0x8000 * 2 ^ 256 +
      0xAB * 2 ^ 384 + 3 * 2 ^ 448)) =
    some (.flfill { fp with scope := 0x41, prio := 5, dst := 0x4000, len := 256, stamp := 0x8000, aux := 0xAB, tag := 3 }) := by
  decide +kernel

theorem test_decode_statement : Obligations.DecodeWords := by
  unfold Obligations.DecodeWords; decide +kernel

/-! ### Small states -/

/-- The package after reset, context 0 with virtual die 0 on die 0, the strand of core 0 moving. -/
def base : State := { State.reset with agent := .strand 0, ctxs := [(0, { live := true, vdmap := 0x8 })] }

/-- The same with a core 0. -/
def onCore (k : Core) : State := { base with cores := [(0, k)] }
def coreOf (t : Thread) : Core := { th := t, bind := { ctx := some 0 } }
def onTh (t : Thread) : State := onCore (coreOf t)
def thS (xs : List (BitVec 5 × Word)) : Thread := xs.foldl (fun t x => t.wrS x.1 x.2 false) {}
def thD (xs : List (BitVec 5)) : Thread := xs.foldl (fun t x => t.wrS x 0 true) {}

/-- A core whose scalar registers hold these values. -/
def withS (xs : List (BitVec 5 × Word)) : State := onTh (thS xs)

/-- An own-scratchpad address of the local window. -/
def spadVa (off : Nat) : Word := BitVec.ofNat 64 (0x00FFFF8000000000 + off)

/-- The step goes on. -/
def goes : Out → Bool
  | .next _ => true
  | _ => false

/-- A scalar register of core 0 after the step. -/
def after (o : Out) (r : BitVec 5) : Option Word :=
  match o with
  | .next t => some ((t.th 0).rdS r).val
  | _ => none

def r3 : R3 := { rd := 3, ra := 4, rb := 5 }
def r2 : R2 := { rd := 3, ra := 4 }

/-! ### Results that the spec states -/

/-- The example of FSHR in its reference entry. -/
theorem test_fshr : after (exec (.fshr r3 8) (withS [(4, 0x11), (5, 0xAABBCCDDEEFF0011)])) 3 = some 0x11AABBCCDDEEFF00 := by
  decide +kernel

/-- The examples of LIU and FLI in their reference entries. -/
theorem test_constants : after (exec (.liu 9 0x2000) base) 9 = some 0x04000000 ∧ after (exec (.fli 11 0x3C088) base) 11 = some 0x3C088000 := by
  decide +kernel

/-- R139: division by zero, and the one quotient that overflows. -/
theorem test_div : after (exec (.div r3) (withS [(4, 7)])) 3 = some 0xFFFFFFFFFFFFFFFF ∧
    after (exec (.rem r3) (withS [(4, 7)])) 3 = some 7 ∧
    after (exec (.div r3) (withS [(4, 0x8000000000000000), (5, 0xFFFFFFFFFFFFFFFF)])) 3 = some 0x8000000000000000 ∧
    after (exec (.rem r3) (withS [(4, 0x8000000000000000), (5, 0xFFFFFFFFFFFFFFFF)])) 3 = some 0 := by decide +kernel

/-- The listing of 06_numbers: c5 x + c4 at x = 1 is 0x3D4C_CCCD, and the exact tie 0x3F37_7778 rounds to even. -/
theorem test_fma : after (exec (.fma r3 0) (withS [(3, 0x3D2AAAAB), (4, 0x3C088889), (5, 0x3F800000)])) 3 = some 0x3D4CCCCD ∧
    after (exec (.fma r3 0) (withS [(3, 0x3F000000), (4, 0x3E5DDDDE), (5, 0x3F800000)])) 3 = some 0x3F377778 := by decide +kernel

/-- R132: the quiet NaN is 0x7FC0_0000. -/
theorem test_fsqrt_nan : after (exec (.fsqrt r2 0) (withS [(4, 0xBF800000)])) 3 = some 0x7FC00000 := by decide +kernel

/-- A source that is also the destination, wrapping. -/
theorem test_add_wraps : after (exec (.add { rd := 4, ra := 4, rb := 4 }) (withS [(4, 0x8000000000000001)])) 4 = some 2 := by
  decide +kernel

/-! ### Witnesses: scalar operations -/

theorem witness_ScalarConstantResult : ([5, 6, 7] : List (BitVec 6)).all (fun op => ([64, 8191] : List (BitVec 13)).all (fun n =>
    decide (64 ≤ n.toNat) && (decodeTollum (encSI op 3 4 n) 0).isNone)) = true := by decide +kernel

theorem witness_ScalarFrameAndZero : (regOps.all (fun p => goes (exec (p.1 { r3 with rd := 0 }) base)) &&
    regOps.all (fun p => goes (exec (p.1 r3) base)) && immOps.all (fun p => goes (exec (p.1 { rd := 3, ra := 4, imm := 5 }) base)) &&
    shiftOps.all (fun p => goes (exec (p.1 r2 63) base)) && fpSelOps.all (fun p => goes (exec (p.1 r3) base)) &&
    fpUnOps.all (fun p => goes (exec (p.1 r2) base))) = true := by decide +kernel

/-- Operands with a tiny result for each of FADD, FSUB, FMUL and FDIV. -/
def tinyPairs : List (Nat × Nat) := [(1, 1), (0x00800001, 0x00800000), (0x00800000, 0x3F000000), (0x00800000, 0x40000000)]

theorem witness_FpuRoundingResult :
    (fpOps.all (fun p => !(p.2 .rne 0x3F800000 0x3F800000).tiny) && !(fpSqrt .rne 0x3F800000).tiny &&
      !(fpFma .rne 0x3F800000 0x3F800000 0).tiny && (fpFma .rne 0x00800000 0x3F000000 0).tiny &&
      (fpOps.zip tinyPairs).all (fun p => (p.1.2 .rne p.2.1 p.2.2).tiny &&
        (let s := withS [(4, BitVec.ofNat 64 p.2.1), (5, BitVec.ofNat 64 p.2.2)]
         (p.1.2 (Rm.ofBits 0) (fbits s 4) (fbits s 5)).tiny && decide ((s.th s.me).csr.ftz = false) &&
           decide ((s.th s.me).pos.mode = .k))) &&
      (let s := onTh { csr := { ftz := true } }
       let h := onTh { pos := { mode := .h } }
       (s.th s.me).csr.ftz && decide ((h.th h.me).pos.mode = .h))) = true := by decide +kernel

/-! ### Witnesses: control flow -/

theorem witness_BranchAndJumpResult :
    (branchOps.all (fun p => [(0, 0), (0, 1), (1, 0)].any (fun x =>
        let s := withS [(1, x.1), (2, x.2)]
        noD s [1, 2] && p.2 (reg s 1) (reg s 2)) && [(0, 0), (0, 1), (1, 0)].any (fun x =>
        let s := withS [(1, x.1), (2, x.2)]
        noD s [1, 2] && !p.2 (reg s 1) (reg s 2))) &&
      noD base [4] && !(reg base 4 + (0 : BitVec 13).signExtend 64).getLsbD 0 &&
      (reg base 4 + (8191 : BitVec 13).signExtend 64).getLsbD 0) = true := by decide +kernel

/-- The strand's queues hold nothing. -/
def holdsNone (s : State) (p : QEntry → Bool) : Bool := ((s.th s.me).q.holding p).isEmpty

theorem witness_LoopAndTestBranchResult :
    (let s1 := onTh { csr := { trips := 1 } }
     let s2 := onTh { csr := { drain := 1 } }
     let clear := fun (s : State) => holdsNone s (fun e => e.writesP.contains (mapP 1 8).toNat || e.readsP.contains (mapP 1 8).toNat)
     decide ((s1.th 0).csr.trips ≠ 0) && clear s1 && decide ((s2.th 0).csr.trips = 0) && decide ((s2.th 0).csr.drain ≠ 0) && clear s2 &&
       decide ((base.th 0).csr.trips = 0) && decide ((base.th 0).csr.drain = 0) &&
       holdsNone base (fun e => e.writesP.contains 9) && decide (((base.th 0).regs.rdP 9).d = false) &&
       decide (((base.th 0).regs.rdP 9).ecc = false) && decide (((base.th 0).regs.rdP 9).val = 0) &&
       decide (((base.th 0).regs.rdP 0).val = BitVec.allOnes 256) && holdsNone base (fun e => e.writesV.contains 20)) = true := by
  decide +kernel

/-! ### Witnesses: accesses -/

/-- s4 holds an own-scratchpad address, s5 a value. -/
def sMem : State := withS [(4, spadVa 0), (5, 0xF00D)]

/-- s4 holds the address of the last word of the scratchpad. -/
def sTop (w : Nat) : State := withS [(4, spadVa (2 ^ 21 - w))]

theorem witness_LoadAndStoreResult :
    (loadOps.all (fun p => fresh (sTop p.2.1) && noD (sTop p.2.1) [4] &&
        letThrough (sTop p.2.1) .read false (reg (sTop p.2.1) 4 + (0 : BitVec 13).signExtend 64) p.2.1 (spadKey 0 (2 ^ 21 - p.2.1)) none) &&
      letThrough sMem .read false (reg sMem 4 + BitVec.ofNat 64 24) 8 (spadKey 0 24) none &&
      letThrough sMem .read false (reg sMem 4) 4 (spadKey 0 0) none && letThrough sMem .read false (reg sMem 4) 8 (spadKey 0 0) none &&
      letThrough sMem .read false (reg sMem 4) 256 (spadKey 0 0) none &&
      storeOps.all (fun p => fresh (sTop p.2) && noD (sTop p.2) [5, 4] &&
        letThrough (sTop p.2) .write false (reg (sTop p.2) 4 + (0 : BitVec 13).signExtend 64) p.2 (spadKey 0 (2 ^ 21 - p.2)) none) &&
      letThrough sMem .write false (reg sMem 4 + BitVec.ofNat 64 24) 8 (spadKey 0 24) none &&
      letThrough sMem .write true (reg sMem 4) 8 (spadKey 0 0) none && letThrough sMem .write true (reg sMem 4) 4 (spadKey 0 0) none &&
      fresh sMem && noD sMem [4, 5]) = true := by decide +kernel

/-- Virtual memory: context 0's table maps the first GiB, s4 holds an address in it. -/
def sVirt : State :=
  let s := placeCtx base
  { s with cores := [(0, coreOf (thS [(4, 0x100000)]))] }

theorem witness_LoadAndStoreResult_virtual :
    (letThrough sVirt .read false (reg sVirt 4) 8 0x100000 (some .dev) && letThrough sVirt .write true (reg sVirt 4) 8 0x100000 (some .dev) &&
      fresh sVirt && noD sVirt [4, 5]) = true := by decide +kernel

theorem witness_AmoResult : amoOps.all (fun p => [0, 1, 2, 3].all (fun order => [true, false].all (fun dbl =>
      fresh sMem && noD sMem (amoRegs (p.1 r3 order dbl) r3) &&
        letThrough sMem .atomic (order.getLsbD 1) (reg sMem 4) (if dbl then 8 else 4) (spadKey 0 0) none))) = true := by decide +kernel

/-- A store and a load in one small state each (R332, R322: little-endian, sign extension). -/
theorem test_store_load :
    (match exec (.std { rd := 5, ra := 4, imm := 8 }) (withS [(4, spadVa 0), (5, 0x8182838485868788)]) with
    | .next t => t.mem.readByte (spadKey 0 8) == 0x88 && t.mem.readByte (spadKey 0 15) == 0x81 &&
        after (exec (.ldh { rd := 6, ra := 4, imm := 8 }) t) 6 == some 0xFFFFFFFFFFFF8788 &&
        after (exec (.ldwu { rd := 6, ra := 4, imm := 12 }) t) 6 == some 0x81828384
    | _ => false) = true := by decide +kernel

theorem test_misaligned_traps :
    (match exec (.ldd { rd := 6, ra := 4, imm := 4 }) sMem with
    | .next t => (t.th 0).trap.cause == 4 && (t.th 0).trap.tval == spadVa 4 && (t.th 0).pos.mode == .h
    | _ => false) = true := by decide +kernel

/-! ### Witnesses: control registers, traps -/

theorem witness_CsrAndVmodeResult :
    (readCsr base 0 0x011 == some 0 && csrAllowed base 0x011 && csrFree base 0x011 && csrOps.all (fun p => !p.2.1 4 || noD base [4]) &&
      noD base [4]) = true := by decide +kernel

theorem witness_CsrPrivilege :
    ((encodeTollum (.csrr 3 0x080)).isSome && (encodeTollum (.csrw r2 0x080)).isSome && (encodeTollum (.csrs r2 0x080)).isSome &&
      (encodeTollum (.csrc r2 0x080)).isSome && decide ((base.th base.me).pos.mode = .k) && csrOnlyH 0x080 &&
      (readCsr base base.me 0x7FF).isNone && (encodeTollum (.csrr 3 0x7FF)).isSome) = true := by decide +kernel

/-- A strand in H mode. -/
def sH : State := onTh { pos := { mode := .h }, trap := { cause := 0x0E, boff := 2 } }

theorem witness_TrapTaking : ((base.th 0).pos.mode == .k && (sH.th 0).pos.mode == .h) = true := by decide +kernel

theorem witness_TrapAndReturnResult :
    ((base.th base.me).pos.mode == .k && (base.th base.me).q.haltedQ == none && !(base.th base.me).q.ringFault &&
      (sH.th sH.me).pos.mode == .h && (sH.th sH.me).trap.kind != 1 && (sH.th sH.me).q.faults == [] && (sH.th sH.me).trap.cause != 8 &&
      !(sH.th sH.me).trap.routed && !(sH.th sH.me).trap.moved && decide (2 ≤ (sH.th sH.me).trap.boff.toNat) &&
      (encodeTollum .tret).isSome &&
      (sH.th sH.me).trap.boff != (sH.th sH.me).trap.tlen &&
      ([(2, 0), (2, 1), (0, 0)] : List (BitVec 10 × BitVec 11)).all (fun p =>
        let s := onTh { pos := { mode := .h }, trap := { boff := p.1, tlen := 2, rptl := p.2 } }
        (s.th s.me).pos.mode == .h && (s.th s.me).trap.kind != 1 && (s.th s.me).q.faults == [] && (s.th s.me).trap.cause != 8 &&
          !(s.th s.me).trap.routed && !(s.th s.me).trap.moved && (s.th s.me).trap.boff == p.1 && (s.th s.me).trap.rptl == p.2) &&
      (let s := onTh { pos := { mode := .h }, trap := { kind := 1 } }
       (s.th s.me).trap.kind == 1)) = true := by decide +kernel

/-- s4 has its D bit set. -/
def sD : State := onTh (thD [4])

theorem witness_AccessTraps :
    (fresh sD && regD sD 4 && !regD sD 5 &&
      loadOps.all (fun p => p.2.1 == 1 || (let s := withS [(4, spadVa 1)]
        fresh s && !regD s 4 && decide ((reg s 4).toNat % p.2.1 ≠ 0))) &&
      storeOps.all (fun p => p.2 == 1 || (let s := withS [(4, spadVa 1)]
        fresh s && noD s [5, 4] && decide ((reg s 4).toNat % p.2 ≠ 0))) &&
      (loadOps.map (·.2.1) ++ storeOps.map (·.2)).all (fun w => let s := withS [(4, 0x0200000000000000)]
        fresh s && noD s [5, 4] && decide ((reg s 4).toNat % w = 0) &&
          decide (checkAccess s (s.whoThread s.me) .read (reg s 4) w = .fault 0x05 (reg s 4)) &&
          decide (checkAccess s (s.whoThread s.me) .write (reg s 4) w = .fault 0x05 (reg s 4))) &&
      decide (checkAccess base (base.whoThread base.me) .read (reg base 4) 8 = .absent 0)) = true := by decide +kernel

theorem witness_MemoryFrame :
    (storeOps.all (fun p => goes (exec (p.1 { rd := 5, ra := 4, imm := 0 }) sMem)) &&
      loadOps.all (fun p => goes (exec (p.1 { rd := 5, ra := 4, imm := 0 }) sMem)) &&
      amoOps.all (fun p => goes (exec (p.1 r3 3 true) sMem)) &&
      decide (checkAccess sMem (sMem.whoThread sMem.me) .write (reg sMem 4) 8 = .ok (spadKey 0 0) none) &&
      decide (checkAccess sMem (sMem.whoThread sMem.me) .atomic (reg sMem 4) 8 = .ok (spadKey 0 0) none) &&
      decide (checkAccess base (base.whoThread base.me) .write (reg base 4) 8 = .absent 0)) = true := by decide +kernel

/-! ### Witnesses: vector instructions -/

/-- An entry of a queue, as routing leaves it, in FP32. -/
def ent (i : Instr) (f : V3) : QEntry :=
  { ins := i, f := f, seq := 0, idx := 0, vmode := 9, ftz := false, hmode := false, pa := f.a, pb := f.b, pc := f.c, gov := 0,
    sb := {}, sc := {}, k0 := 0, k1 := 0, slot := 0, popped := false, done := false, kept := none }

/-- Queue v of core 0 moves with one entry; the rest of the strand is t, of the core k. -/
def sQ (v : VQ) (e : QEntry) (t : Thread) (banks : Banks) : State :=
  { onCore { coreOf { t with q := t.q.set v { held := [e] } } with banks := banks } with agent := .queue 0 v }

/-- An instruction at the head of a queue, everything else at its reset value. -/
def sHead (v : VQ) (i : Instr) (f : V3) : State := sQ v (ent i f) {} {}

/-- The head begins and reads no register with an error. -/
def ready (s : State) (v : VQ) (e : QEntry) : Bool := begins s 0 v e && sound e.ins s e

/-- A strand with a stream on the scratchpad, a buffer with a filled and a free slot, and the tokens of VL and VS. -/
def tStrm : Thread :=
  { strm := { st := (Vector.replicate 16 { base := 0x00FFFF8000001000, ext0 := 64, ext1 := 1, fmt := 9, rstr := 256 }),
              cb := (Vector.replicate 16 { base := 0x2000, count := 2, free := 1, filled := 1 }) } }

/-- One tile lent to parking with one register parked, bank 31 an operand buffer. -/
def bStrm : Banks := { ptiles := 1, depth := 1, roleF := 0x8000000000000000 }

theorem witness_VectorRoutingResult :
    (let s := onCore { coreOf tStrm with banks := bStrm }
     routeRows.all (fun p => routes s (p.1 (v3 1 1 1)) p.2.1 (v3 1 1 1) (p.2.2 (v3 1 1 1) s) ||
       routes s (p.1 (v3 1 1 0)) p.2.1 (v3 1 1 0) (p.2.2 (v3 1 1 0) s))) = true := by
  decide +kernel

/-- FP32 registers of 64 equal elements. -/
def splat (x : BitVec 32) : VCell := { val := litVec x }
def tVec (b c : BitVec 32) : Thread := { regs := ((({} : Regs).wrV 1 (splat b)).wrV 2 (splat c)) }

theorem witness_VectorResult_rows : vaRows.all (fun p =>
    let e := ent (p.1 (v3 3 1 2)) (v3 3 1 2)
    let s := sHead .va (p.1 (v3 3 1 2)) (v3 3 1 2)
    ready s .va e && (p.2.1 e.mode e (srcsOf s 0 e)).tiny.isNone) = true := by decide +kernel

theorem witness_VectorResult_numbered : vnRows.all (fun p =>
    let e := ent (p.1 (v3 3 1 1)) (v3 3 1 1)
    let s := sQ .va e (tVec 0x3F800000 0) {}
    ready s .va e && (p.2 1 e.mode e (srcsOf s 0 e)).tiny.isNone) = true := by decide +kernel

theorem witness_VectorResult_tiny :
    (let e := ent (.vmul (v3 3 1 2)) (v3 3 1 2)
     let s := sQ .va e (tVec 0x00800000 0x3F000000) {}
     ready s .va e && (valBin .mul e.mode e (srcsOf s 0 e)).tiny == some 0) = true := by decide +kernel

theorem witness_VectorElements :
    (decide (63 < elemCount Et.fp32.width) && decide (255 < elemCount Et.i8.width) && !Et.i8.isFloat && decide (Et.i8 ≠ .gq4)) = true := by
  decide +kernel

/-- The example of PSET: element size 4, s6 = 8 sets bits 0-31. -/
theorem test_pset :
    (let e := { ent (.pset (v3 1 2 6)) (v3 1 2 6) with sc := { val := 8 } }
     match exec (.pset (v3 1 2 6)) (sQ .va e {} {}) with
     | .next t => ((t.th 0).regs.rdP 1).val == 0xFFFFFFFF && (t.th 0).q.va.held.isEmpty
     | _ => false) = true := by decide +kernel

/-- R347: 8-bit integers wrap, element by element; lr takes the result (R88). -/
theorem test_vadd :
    (let e := { ent (.vadd (v3 3 1 2)) (v3 3 1 2) with vmode := 1 }
     match exec (.vadd (v3 3 1 2)) (sQ .va e (tVec 0x80FF01FE 0x80020304) {}) with
     | .next t => ((t.th 0).regs.rdV 3 0).val == litVec 0x00010402 && (t.th 0).regs.lr.val == litVec 0x00010402
     | _ => false) = true := by decide +kernel

theorem witness_PredicateAndScalarResult :
    (cmpRows.all (fun p => ready (sHead .va (p.1 (v3 3 1 2)) (v3 3 1 2)) .va (ent (p.1 (v3 3 1 2)) (v3 3 1 2))) &&
      pRows.all (fun p => ready (sHead .va (p.1 (v3 3 1 2)) (v3 3 1 2)) .va (ent (p.1 (v3 3 1 2)) (v3 3 1 2))) &&
      ([.pset, .pcnt, .vextr] : List (V3 → Instr)).all (fun p =>
        ready (sHead .va (p (v3 3 1 2)) (v3 3 1 2)) .va (ent (p (v3 3 1 2)) (v3 3 1 2))) &&
      (let s := onTh { job := { wait := .vwait { idx := 0, rd := 3, value := some {} } } }
       s.agent == .strand s.me && (s.th s.me).job.wait == .vwait { idx := 0, rd := 3, value := some {} })) = true := by decide +kernel

theorem witness_ParkSlots :
    (([.vpark, .vunpark] : List (V3 → Instr)).all (fun p =>
        ready (sHead .va (p (v3 3 1 0)) (v3 3 1 0)) .va (ent (p (v3 3 1 0)) (v3 3 1 0))) &&
      decide ((ent (.vpark (v3 0 1 0)) (v3 0 1 0)).slot < 512) && decide (255 < 256 * popN 2 (1 : BitVec 2).toNat) &&
      decide (511 < 256 * popN 2 (3 : BitVec 2).toNat)) = true := by decide +kernel

/-- The checks of an entry's pieces find places for them all. -/
def placedAt (s : State) (v : VQ) (e : QEntry) (k : AccKind) (ps : List (Word × Nat)) : Bool :=
  match checkPieces s (s.whoThread 0) k ps with
  | .ok ks => placed s 0 v e k ps ks
  | _ => false

/-- An entry with an address in field B. -/
def entA (i : Instr) (f : V3) (a : Word) (d : Bool) : QEntry := { ent i f with sb := { val := a, d := d } }

theorem witness_VectorLoadResult :
    (let f := v3 3 1 0
     let vld := entA (.vld f) f (spadVa 0) false
     let s1 := sQ .vl vld {} {}
     let bad := fun (a : Word) (d : Bool) => sQ .vl (entA (.vlds f) f a d) {} {}
     let ldx := entA (.vldx (v3 3 1 2)) (v3 3 1 2) (spadVa 0) false
     let s3 := sQ .vl ldx {} {}
     let ldc := ent (.vldc (v3 3 1 1)) (v3 3 1 1)
     let s4 := sQ .vl ldc tStrm {}
     let key4 := slotKey 0 ((s4.th 0).strm.cbAt 1) 0 0
     let st := ent (.vldst (v3 3 1 0)) (v3 3 1 0)
     let s5 := sQ .vl st tStrm {}
     let is := insideList st (srcsOf s5 0 st) (tStrm.strm.stAt 1)
     ready s1 .vl vld && decide ((vldAddr vld).toNat % 256 = 0) && placedAt s1 .vl vld .part [(vldAddr vld, 256)] && !vld.sb.d && !vld.sb.ecc &&
       !activeBad s1 vld (srcsOf s1 0 vld) (vldAddr vld) (spadKey 0 0) &&
       sound (.vlds f) s1 vld && ready (bad 0 true) .vl (entA (.vlds f) f 0 true) && ready (bad 8 false) .vl (entA (.vlds f) f 8 false) &&
       ready (bad 0x0200000000000000 false) .vl (entA (.vlds f) f 0x0200000000000000 false) &&
       decide (checkAccess (bad 0x0200000000000000 false) ((bad 0x0200000000000000 false).whoThread 0) .part 0x0200000000000000 256 =
         .fault 0x05 0x0200000000000000) &&
       ready (bad 0 false) .vl (entA (.vlds f) f 0 false) && decide (checkAccess (bad 0 false) ((bad 0 false).whoThread 0) .part 0 256 = .absent 0) &&
       ready s3 .vl ldx && !(srcsOf s3 0 ldx).c.d && decide (ldx.sb.val.toNat % ldx.et.width = 0) &&
       placedAt s3 .vl ldx .read ((activeList ldx (srcsOf s3 0 ldx)).map (fun i => (elAddr ldx (srcsOf s3 0 ldx) i, ldx.et.width))) &&
       ready s4 .vl ldc && (s4.th 0).strm.slotsReady ldc && !heldBack s4 0 ldc.seq (slotAddr key4) 256 &&
       !activeBad s4 ldc (srcsOf s4 0 ldc) (slotAddr key4) key4 &&
       ready s5 .vl st && decide (is.length = 64) &&
       (layerSpan (tStrm.strm.stAt 1) 0 is).isNone &&
       placedAt s5 .vl st .read (is.flatMap (fun i => (tStrm.strm.stAt 1).pieces 0 i))) = true := by decide +kernel

/-- The uncorrectable errors that VLDS defers: in its base, in its governing predicate, in a byte that it reads. -/
theorem witness_VectorLoadResult_deferred :
    (let f := v3 3 1 0
     let g : V3 := { f with ps := 1 }
     let e1 : QEntry := { entA (.vlds f) f (spadVa 0) false with sb := { val := spadVa 0, ecc := true } }
     let e2 : QEntry := { entA (.vlds g) g (spadVa 0) false with gov := 1 }
     let e3 := entA (.vlds f) f (spadVa 0) false
     let s2 := sQ .vl e2 { regs := ({} : Regs).wrP 1 { ecc := true } } {}
     let s3 : State := let s := sQ .vl e3 {} {}; { s with mem := { s.mem with poison := [spadKey 0 255] } }
     begins (sQ .vl e1 {} {}) 0 .vl e1 && begins s2 0 .vl e2 && !sound (.vlds g) s2 e2 && begins s3 0 .vl e3 &&
       placedAt s3 .vl e3 .part [(vldAddr e3, 256)] && activeBad s3 e3 (srcsOf s3 0 e3) (vldAddr e3) (spadKey 0 0)) = true := by
  decide +kernel

theorem witness_VectorStoreResult :
    (let f := v3 3 1 0
     let vst := entA (.vst f) f (spadVa 0) false
     let s1 := sQ .vs vst {} {}
     let stx := entA (.vstx (v3 3 1 2)) (v3 3 1 2) (spadVa 0) false
     let s2 := sQ .vs stx {} {}
     let stc := ent (.vstc (v3 3 1 1)) (v3 3 1 1)
     let s3 := sQ .vs stc tStrm {}
     let stst := ent (.vstst f) f
     let s5 := sQ .vs stst tStrm {}
     let is := insideList stst (srcsOf s5 0 stst) (tStrm.strm.stAt 1)
     ready s1 .vs vst && !(srcsOf s1 0 vst).a.d && decide ((vldAddr vst).toNat % 256 = 0) &&
       placedAt s1 .vs vst .write [(vldAddr vst, 256)] && ready s2 .vs stx && !(srcsOf s2 0 stx).a.d && !(srcsOf s2 0 stx).c.d &&
       decide (stx.sb.val.toNat % stx.et.width = 0) &&
       placedAt s2 .vs stx .write ((activeList stx (srcsOf s2 0 stx)).map (fun i => (elAddr stx (srcsOf s2 0 stx) i, stx.et.width))) &&
       ready s3 .vs stc && (s3.th 0).strm.slotsReady stc && !(srcsOf s3 0 stc).a.d &&
       !heldBack s3 0 stc.seq (slotAddr (slotKey 0 ((s3.th 0).strm.cbAt 1) 0 0)) 256 && ready s5 .vs stst && !(srcsOf s5 0 stst).a.d &&
       decide (is.length = 64) && (layerSpan (tStrm.strm.stAt 1) 0 is).isNone &&
       placedAt s5 .vs stst .write (is.flatMap (fun i => (tStrm.strm.stAt 1).pieces 0 i)) &&
       ([.vst, .vstm, .vstx, .vstst] : List (V3 → Instr)).all (fun p =>
         let e := ent (p f) f
         let s := sQ .vs e { regs := ({} : Regs).wrV 3 { d := true } } {}
         ready s .vs e && (srcsOf s 0 e).a.d)) = true := by decide +kernel

theorem witness_VectorStoreResult_masked :
    (let f := v3 3 1 1
     let e := entA (.vstm f) f (spadVa 0) false
     let s := fun (m : PReg) => sQ .vs e { regs := ({} : Regs).wrP 1 { val := m } } {}
     let m : PReg := (1 : PReg) <<< 255 ||| 1
     ready (s 0) .vs e && decide (((s 0).th 0).regs.rdP 1 = {}) && ready (s m) .vs e && !(srcsOf (s m) 0 e).a.d &&
       lowSet m 256 0 == some 0 && highSet m 256 == some 255 && inWindow (e.sb.val + BitVec.ofNat 64 0).toNat &&
       decide ((e.sb.val + BitVec.ofNat 64 255).toNat < 2 ^ 57) && decide (e.sb.val.toNat + 256 < 2 ^ 57) &&
       placedAt (s m) .vs e .write [(e.sb.val + BitVec.ofNat 64 0, 256)]) = true := by decide +kernel

theorem witness_StreamQueueResult :
    (let rp := ent (.cbadvRptr (v3 1 1 0)) (v3 1 1 0)
     let wp := ent (.cbadvWptr (v3 1 1 1)) (v3 1 1 1)
     let push := ent (.spush (v3 0 1 0)) (v3 0 1 0)
     let pop := ent (.spop (v3 1 0 1)) (v3 1 0 1)
     let sbal := ent (.sbal (v3 0 0 0)) (v3 0 0 0)
     let ldb := entA (.vldb (v3 5 1 0)) (v3 5 1 0) 0x4000 false
     ready (sQ .vl rp tStrm {}) .vl rp && (((sQ .vl rp tStrm {}).th 0).strm.slotsReady rp) &&
       ready (sQ .vs wp tStrm {}) .vs wp && (((sQ .vs wp tStrm {}).th 0).strm.slotsReady wp) &&
       ready (sQ .vs push {} {}) .vs push && !(srcsOf (sQ .vs push {} {}) 0 push).b.d && ready (sQ .vl pop {} {}) .vl pop &&
       ready (sQ .va sbal {} {}) .va sbal && sbalCores (sQ .va sbal {} {}) 0 == [0] && ready (sQ .vl ldb {} bStrm) .vl ldb &&
       decide (0x4000 % 128 = 0) && decide (0x4000 + 128 ≤ windowBase)) = true := by decide +kernel

/-- Two cores of a quad at their first SBAL: 300 bytes and none. -/
def sSbal : State :=
  let e := ent (.sbal (v3 0 0 0)) (v3 0 0 0)
  let t := fun (bs : List Byte) => coreOf { q := { va := { held := [e] } }, job := { run := .run, rect := 0x0200 }, strm := ({} : Streams).setCq 0 bs }
  let s := onCore (t (List.replicate 300 1))
  { s.setCore 1 (t []) with agent := .queue 0 .va }

theorem witness_StreamQueueResult_partners :
    (let e := ent (.sbal (v3 0 0 0)) (v3 0 0 0)
     ready sSbal .va e && sbalCores sSbal 0 == [0, 1] && (sbalHead sSbal 0 0 0).isSome && (sbalHead sSbal 0 0 1).isSome &&
       decide (((sSbal.th 0).strm.cqAt 0).length = 300)) = true := by decide +kernel

/-- R162: the second chunk of the joined bytes goes to the second participant. -/
theorem test_sbal_deals :
    (match exec (.sbal (v3 0 0 0)) sSbal with
     | .next t => ((t.th 0).strm.cqAt 0).length == 256 && ((t.th 1).strm.cqAt 0).length == 44 && (t.th 1).q.va.held.isEmpty
     | _ => false) = true := by decide +kernel

theorem witness_VectorFrame : (vecCtors ++ predCtors).all (fun p =>
    goes (exec (p (v3 3 1 2)) (sHead .va (p (v3 3 1 2)) (v3 3 1 2)))) = true := by decide +kernel

theorem witness_QueueFaultHalts :
    (let f := v3 3 1 0
     let out : Word := 0x0200000000000000
     let e1 := entA (.vld f) f 8 false
     let e2 := entA (.vst f) f out false
     let e3 := entA (.vld f) f out false
     let e4 := entA (.vld f) f (spadVa 0) false
     let s4 : State := let s := sQ .vl e4 {} {}; { s with mem := { s.mem with poison := [spadKey 0 255] } }
     let e5 := entA (.vst f) f 8 false
     ready (sQ .vl e1 {} {}) .vl e1 && decide ((vldAddr e1).toNat % 256 ≠ 0) && ready (sQ .vs e2 {} {}) .vs e2 &&
       !(srcsOf (sQ .vs e2 {} {}) 0 e2).a.d && decide ((vldAddr e2).toNat % 256 = 0) &&
       decide (checkAccess (sQ .vs e2 {} {}) ((sQ .vs e2 {} {}).whoThread 0) .write (vldAddr e2) 256 = .fault 0x05 out) &&
       ready (sQ .vl e3 {} {}) .vl e3 &&
       decide (checkAccess (sQ .vl e3 {} {}) ((sQ .vl e3 {} {}).whoThread 0) .part (vldAddr e3) 256 = .fault 0x05 out) &&
       ready s4 .vl e4 && placedAt s4 .vl e4 .part [(vldAddr e4, 256)] &&
       activeBad s4 e4 (srcsOf s4 0 e4) (vldAddr e4) (spadKey 0 0) && ready (sQ .vs e5 {} {}) .vs e5 &&
       decide ((vldAddr e5).toNat % 256 ≠ 0)) = true := by decide +kernel

/-- A head with an error in its first source, for each row of the first clause. -/
theorem witness_QueueFaultHalts_sources : ([(.vadd, .va), (.vsub, .va), (.vmul, .va), (.vmin, .va), (.vfma, .va), (.vred, .va), (.vsel, .va),
    (.vst, .vs), (.vldx, .vl), (.vstx, .vs), (.spush, .vs)] : List ((V3 → Instr) × VQ)).all (fun p =>
      let f := v3 3 1 2
      let e := ent (p.1 f) f
      let bad : VCell := { ecc := true }
      let s := sQ p.2 e { regs := ((({} : Regs).wrV 1 bad).wrV 2 bad).wrV 3 bad } {}
      begins s 0 p.2 e && !sound (p.1 f) s e) = true := by decide +kernel

theorem witness_QueueFaultHalts_predicates : ([(.pand (v3 3 1 2), .va), (.vld { v3 3 1 0 with ps := 1 }, .vl)] :
    List (Instr × VQ)).all (fun p =>
      let f := match p.1 with
        | .pand f | .vld f => f
        | _ => v3 0 0 0
      let e : QEntry := { ent p.1 f with gov := 1 }
      let s := sQ p.2 e { regs := ({} : Regs).wrP 1 { ecc := true } } {}
      begins s 0 p.2 e && !sound p.1 s e) = true := by decide +kernel

/-- The head is parked at a page that the host has refused. -/
theorem witness_QueueFaultHalts_refused : ([(.vld, .vl), (.vst, .vs), (.vldx, .vl), (.vstx, .vs), (.vldst, .vl), (.vstst, .vs),
    (.vstm, .vs)] : List ((V3 → Instr) × VQ)).all (fun p =>
      let f := v3 3 1 0
      let e := ent (p.1 f) f
      let s := sQ p.2 e { q := {} } {}
      let t := s.th 0
      let s := s.setTh 0 { t with q := t.q.set p.2 { t.q.get p.2 with park := .bad 8 } }
      s.agent == .queue 0 p.2 && ((s.th 0).q.get p.2).held.head? == some e && (killedStrand s 0).isNone &&
        ((s.th 0).q.get p.2).park == .bad 8) = true := by decide +kernel

theorem witness_QueueFaultHalts_others :
    (let push := ent (.spush (v3 0 1 0)) (v3 0 1 0)
     let s1 := sQ .vs push { strm := ({} : Streams).setCq 0 (List.replicate 1024 0) } {}
     let ldb := fun (a : Word) => entA (.vldb (v3 5 1 0)) (v3 5 1 0) a false
     let st := ent (.vldst (v3 3 1 0)) (v3 3 1 0)
     let tl : Thread := { strm := { st := (Vector.replicate 16
       { base := 0x00FFFF7FFFFFFF80, ext0 := 64, ext1 := 1, fmt := 9, rstr := 256 : Stream }) } }
     let s5 := sQ .vl st tl {}
     let un := ent (.vunpark (v3 3 1 0)) (v3 3 1 0)
     let s6 : State := let s := sQ .va un {} bStrm
       { s with mem := { s.mem with poison := [2 ^ 120 + parkKey 1 0 0 63] } }
     ready s1 .vs push && !(srcsOf s1 0 push).b.d && decide (((s1.th 0).strm.cqAt 0).length = 1024) &&
       decide (0 < (activeList push (srcsOf s1 0 push)).length) &&
       ready (sQ .vl (ldb 8) {} bStrm) .vl (ldb 8) && ready (sQ .vl (ldb (spadVa 0)) {} bStrm) .vl (ldb (spadVa 0)) &&
       inWindow (spadVa 0).toNat && ready s5 .vl st &&
       (layerSpan (tl.strm.stAt 1) 0 ((insideList st (srcsOf s5 0 st) (tl.strm.stAt 1)).map (fun i => 0 + i))).isSome &&
       ready s6 .va un && slotBad s6 0 un.slot) = true := by decide +kernel

/-! ### Witnesses: synchronisation, tokens, time -/

/-- A strand in scope 5 with scalar registers; scope 5 LIVE, barrier 0 and channel 0 of die 0 assigned to its context. -/
def sys (xs : List (BitVec 5 × Word)) : State :=
  { onTh { thS xs with job := { lsc := 5, osc := 5 } } with
    hg := { scopes := [(5, { st := .live })] }, bars := [(0, { ctx := some 0 })], chans := [(0, { ctx := some 0 })] }

/-- Every semaphore of core 0 holds 1; its rectangle is two cores wide. -/
def sSem (xs : List (BitVec 5 × Word)) : State :=
  onTh { thS xs with strm := { sem := Vector.replicate 32 1 }, job := { rect := 0x200 } }

/-- VL stands halted by a fault. -/
def sHalted : State := onTh { q := { vl := { halted := true }, faults := [{ q := 1, cause := 4, index := 0, addr := 0 }] } }

theorem witness_FenceAndSemaphoreResult :
    (quiet base && (sHalted.th sHalted.me).q.haltedQ == some .vl && goes (exec (.fence 4) base) &&
      (let s := sQ .vl (entA (.vld (v3 3 1 0)) (v3 3 1 0) (spadVa 0) false) {} {}
       (s.th s.me).q.haltedQ == none && (s.th s.me).q.busy) &&
      (let held : FetchLine := { line := 0, data := [], bad := none, last := false }
       let s := onCore { coreOf { pos := { pc := 4, len := 4 } } with ahead := [held] }
       restOfPass (s.th s.me).pos == [0] && heldLineAt s s.me 0 == some held) &&
      (let s := sSem [(4, 31)]
       noD s [4] && decide ((reg s 4).toNat < 32) && !semBad s s.me 31 && decide (semOf s s.me 31 ≠ 0) &&
         semBad (s.setTh 0 { s.th 0 with marks := [(7, 31)] }) 0 31) &&
      (let s := withS [(4, 31)]
       decide (semOf s s.me 31 = 0) && !semBad s s.me 31 && alive s) && decide (32 ≤ (reg (withS [(4, 32)]) 4).toNat) &&
      (let s := withS [(4, 31), (5, 65535)]
       noD s [4, 5] && decide (reg s 4 &&& ~~~0x0F1F011F = 0) && decide ((reg s 5).toNat ≤ 65535) && !(reg s 4).getLsbD 8 && !semBad s s.me 31 &&
         decide ((semOf s s.me 31).toNat + 65535 ≤ 65535)) &&
      (let s := sSem [(4, 0x10100), (5, 65535)]
       decide (reg s 4 &&& ~~~0x0F1F011F = 0) && (reg s 4).getLsbD 8 && peerOf s s.me 1 0 == some 1 && peerOf s s.me 0 0 == some 0 &&
         decide ((1 : Nat) ≠ s.me) && !semBad s 0 0 && !semBad s 1 0 &&
         semBad (s.setTh 1 { s.th 1 with marks := [(7, 0)] }) 1 0 && decide ((semOf s 1 0).toNat + 65535 ≤ 65535) && decide (65535 < (semOf s 0 0).toNat + 65535))) = true := by
  decide +kernel

/-- A barrier entry of scope 5 for two strands, one of which has arrived. -/
def entry5 : BarEntry := { scope := 5, count := 2, left := 1 }

theorem witness_BarrierResult :
    (let s := sys [(4, 0), (5, 0x50002)]
     let s1 := { s with bars := [(0, { ctx := some 0, entries := [entry5] })] }
     let s2 := { s with bars := [(0, { ctx := some 0, entries := [{ entry5 with broken := true }] })] }
     noD s [4, 5] && barKey s s.me (reg s 4) == some 0 && bariEntry s s.me (reg s 5) == some { scope := 5, count := 2, left := 2 } &&
       !(s.bar 0).pending && decide ((s.bar 0).entries.length < 8) && (s1.bar 0).pending &&
       (let w := onTh { job := { wait := .barDone 7 } }
        (w.th w.me).job.wait == .barDone 7) &&
       (s1.th s1.me).job.wait == .none && soleEntry s1 0 entry5 && (s1.bar 0).matching s1 (s1.th s1.me).job.osc.toNat == some entry5 &&
       accessesDone s1 s1.me && !entry5.broken && decide (entry5.left = 1) && barKey s1 s1.me (reg s1 4) == some 0 &&
       (s2.bar 0).matching s2 (s2.th s2.me).job.osc.toNat == some { entry5 with broken := true }) = true := by decide +kernel

def token : Token := { payload := 7, stamp := Vector.replicate 18 0 }

theorem witness_TokenAndTimeResult :
    (let s := sys [(4, 0), (5, 1)]
     let full := { s with chans := [(0, { ctx := some 0, fifo := List.replicate 16 token })] }
     let timed := fun (st : SyncSt) (r : Word) => ({ withS [(4, r)] with dies := [(0, { time := { gtime := 5, st := st } })] } : State)
     noD s [4, 5] && chanKey s s.me (reg s 4) == some 0 && decide (chanLoad s 0 < 16) && accessesDone s s.me &&
       chanKey full full.me (reg full 4) == some 0 && decide (16 ≤ chanLoad full 0) && (s.chan 0).ctx == some (myCtx s) &&
       (s.chan 0).fifo == [] && alive s && !(full.chan 0).fifo.isEmpty && decide ((reg s 4).toNat < 64) &&
       decide (((timed .lost 5).die 0).time.st = .lost) && decide (((timed .free 5).die 0).time.st ≠ .lost) &&
       decide ((reg (timed .free 5) 4).toNat ≤ 5) && decide (5 < (reg (timed .free 6) 4).toNat) &&
       (let w := onTh { job := { wait := .timewait 0 none } }
        (w.th w.me).job.wait == .timewait 0 none && decide (0 ≤ (w.die 0).time.gtime.toNat))) = true := by decide +kernel

/-! ### Witnesses: queries, ring, descriptors, tiles -/

theorem witness_QueryResult :
    (let s := withS [(4, 0), (5, 1)]
     noD s [4, 5] && vdieOf (s.ctx (myCtx s)).vdmap (reg s 4).toNat == some 0 && vdieOf (s.ctx (myCtx s)).vdmap (reg s 5).toNat == none &&
       decide ((reg (withS [(5, 7)]) 5).toNat < 8) && decide (8 ≤ (reg (withS [(5, 8)]) 5).toNat) &&
       inWindow (reg sMem 4).toNat && (let h := withS [(4, 0x0200000000000000)]
         decide (2 ^ 57 ≤ (reg h 4).toNat) && decide (translateOn h (myCtx h) (h.me / 64) (reg h 4).toNat = .absent)) &&
       !inWindow (reg base 4).toNat && decide (translateOn base (myCtx base) (base.me / 64) (reg base 4).toNat = .absent) &&
       !inWindow (reg sVirt 4).toNat && decide ((reg sVirt 4).toNat < 2 ^ 57) &&
       (match translateOn sVirt (myCtx sVirt) (sVirt.me / 64) (reg sVirt 4).toNat with
        | .ok _ => true
        | _ => false)) = true := by decide +kernel

/-- A configured ring with 16 records, `wr` posted. -/
def sRing (wr : Word) (xs : List (BitVec 5 × Word)) : State :=
  onCore { coreOf (thS xs) with ring := { cfg := true, logn := 4, wr := wr } }

theorem witness_RingAndDescriptorResult :
    (ringOk base && noD base [4, 5] && !(base.core base.me).ring.cfg &&
      (let s := sRing 16 []
       ringOk s && (s.core s.me).ring.cfg && decide (((s.core s.me).ring.wr - (s.core s.me).ring.rd).toNat = 2 ^ (s.core s.me).ring.logn.toNat)) &&
      (let s := sRing 15 []
       ringOk s && decide (((s.core s.me).ring.wr - (s.core s.me).ring.rd).toNat ≠ 2 ^ (s.core s.me).ring.logn.toNat) &&
         !heldBack s s.me (s.th s.me).q.seq (slotAddr (spadKey s.me 0)) 16) &&
      heldBack (sQ .vs (entA (.vst (v3 3 1 0)) (v3 3 1 0) (spadVa 0) false) {} {}) 0 1 (slotAddr (spadKey 0 0)) 16 &&
      ringDrained base base.me && (ringCfg (withS [(4, 0x4000100)]) 0 0x4000100).isSome && (ringCfg base 0 1).isNone &&
      (let s := sRing 15 [(4, 16)]
       accessesDone s s.me && decide ((s.core s.me).ring.wr.toNat ≤ (reg s 4).toNat) &&
         decide ((reg s 4).toNat ≤ (s.core s.me).ring.rd.toNat + 16)) &&
      fresh sMem && holdsNone sMem (QEntry.namesStream 15) && holdsNone sMem (QEntry.namesBuf 15) &&
      !ringNames sMem sMem.me (fun _ l => l.contains 15) && letThrough sMem .read false (reg sMem 4) 64 (spadKey 0 0) none &&
      letThrough sMem .read false (reg sMem 4) 32 (spadKey 0 0) none) = true := by decide +kernel

theorem witness_TileAndBankResult :
    (let s := withS [(4, 0x1FF000), (5, 1)]
     let b := (s.core s.me).banks
     noD s [4, 5] && decide ((reg s 4).toNat < 2 ^ 21) && decide ((reg s 4).toNat % 4096 = 0) &&
       decide ((reg s 4).toNat / 4096 + (reg s 5).toNat ≤ 512) &&
       allBetween (bankIsSpad b.roleF) ((reg s 4).toNat / 2 ^ 16) (((reg s 4).toNat + 4096 * 1 - 1) / 2 ^ 16) &&
       accessesDone s s.me && (ownTiles s s.me 2 511 1 b.owners).2 &&
       (let t := onCore { coreOf {} with banks := { roleF := 4, roleP := 1 } }
        let b := (t.core t.me).banks
        quiet t && (leaving b (fun r => decide (r = 0))) == [0] && !bankHeld t t.me 0 && bankIsSpad b.roleP 1 && !bankIsSpad b.roleF 1)) = true := by
  decide +kernel

theorem witness_MonitorWait :
    (let s := withS [(4, spadVa 0), (5, 1)]
     let w := fun (r : Reread) => onTh { job := { wait := .mwait 0 (spadKey 0 0) 1 false 0 r } }
     let n := { w .none with mem := ({} : Mem).writeNat (spadKey 0 0) 8 1 }
     let win := fun (owners : BitVec 1024) => let t : Thread := { job := { wait := .mwait (spadVa 0) (spadKey 0 0) 1 false 0 .none } }
       onCore { coreOf t with banks := { owners := owners } }
     let reads := fun (s : State) => checkAccess s (s.whoThread s.me) .part (spadVa 0) 8
     fresh s && noD s [4, 5] && letThrough s .read false (reg s 4) 8 (spadKey 0 0) none &&
       decide (BitVec.ofNat 64 (s.mem.readNat (spadKey 0 0) 8) ≠ reg s 5) &&
       decide (BitVec.ofNat 64 (s.mem.readNat (spadKey 0 0) 8) = reg (withS [(4, spadVa 0)]) 5) &&
       letThrough (withS [(4, spadVa 0)]) .read false (spadVa 0) 8 (spadKey 0 0) none &&
       [Reread.value 7, .bad 5, .none].all (fun r => ((w r).th (w r).me).job.wait == .mwait 0 (spadKey 0 0) 1 false 0 r) &&
       [w .none, n].all (fun s => (s.th s.me).job.host == .idle && !hostWord (spadKey 0 0) && !s.mem.poisoned (spadKey 0 0) 8 && alive s) &&
       decide (BitVec.ofNat 64 ((w .none).mem.readNat (spadKey 0 0) 8) ≠ 1) &&
       decide (BitVec.ofNat 64 (n.mem.readNat (spadKey 0 0) 8) = 1) && !inWindow (0 : Word).toNat && inWindow (spadVa 0).toNat &&
       [0, 1].all (fun o => ((win o).th 0).job.wait == .mwait (spadVa 0) (spadKey 0 0) 1 false 0 .none &&
         ((win o).th 0).job.host == .idle) &&
       decide (reads (win 0) = .ok (spadKey 0 0) none) &&
       (match reads (win 1) with
        | .fault _ _ => true
        | _ => false)) = true := by decide +kernel

/-! ### Witnesses: queues, scopes, tasks -/

/-- Flume queue 3 of context 0 at 0x8000, four slots, `w` claimed. -/
def sQueue (w : Nat) (xs : List (BitVec 5 × Word)) : State :=
  let s := withS xs
  { s with mem := s.mem.writeNat 0x8000 8 w,
           work := { s.work with queues := smPut 3 { kind := .flume, base := 0x8000, logcap := 2 } s.work.queues } }

theorem witness_QueueClaim :
    (let s := withS [(4, spadVa 0), (5, 65536)]
     let t := sQueue 3 [(4, spadVa 0), (5, 3)]
     let full := sQueue 4 [(4, spadVa 0), (5, 3)]
     let none_ := withS [(4, spadVa 0), (5, 9)]
     let byte : State := { sMem with mem := sMem.mem.writeByte (spadKey 0 0) 1 }
     let free := fun (s : State) (q : Option (Nat × QRec)) => match q with
       | some (k, q) => !queueFull s q && (queueLine s k q (widxOf s q)).isNone
       | none => false
     fresh s && noD s [4, 5] && free s (launchQueue s s.me (reg s 5)) && letThrough s .read true (reg s 4) 64 (spadKey 0 0) none &&
       fresh t && noD t [4, 5] && free t (flumeQueue t t.me (reg t 5)) && letThrough t .read true (reg t 4) 64 (spadKey 0 0) none &&
       decide ((reg none_ 4).toNat % 64 = 0) && (launchQueue none_ none_.me (reg none_ 5)).isNone &&
       (flumeQueue none_ none_.me (reg none_ 5)).isNone && (full.th full.me).job.park == .run &&
       (match flumeQueue full full.me (reg full 5) with
        | some (_, q) => queueFull full q
        | none => false) &&
       fresh byte && noD byte [4] && decide ((reg byte 4).toNat % 8 = 0) && letThrough byte .read false (reg byte 4) 1 (spadKey 0 0) none &&
       decide (byte.mem.readByte (spadKey 0 0) ≠ 0)) = true := by decide +kernel

/-- With scope 5 in use a number is still free, whichever the hint names. -/
theorem witness_pickScope (xs : List (BitVec 5 × Word)) : ∃ k, pickScope (sys xs) = some k := by
  have h : freeFrom (sys xs) 65536 0 = some 0 := rfl
  simp only [pickScope, h]
  split <;> exact ⟨_, rfl⟩

theorem witness_ScopeResult :
    (let s := sys [(4, 5)]
     let ticket := fun (x : Scope) => { s with hg := { scopes := [(5, x)] } }
     noD s [4] && decide ((s.scope 5).st = .live) && decide ((s.scope 5).ctx = myCtx s) && decide ((ancestors s 5).length < 64) &&
       lscOk s s.me 5 && (s.th s.me).job.wait == .none && accessesDone s s.me && decide ((s.scope 5).st ≠ .free) &&
       (let w := onTh { job := { wait := .cancelDone 7 } }
        (w.th w.me).job.wait == .cancelDone 7) &&
       ticketState (ticket { st := .live, serial := 1 }) 5 == some true && ticketState s 5 == none &&
       ticketState (ticket { st := .cancelling, canc := true }) 5 == some false && alive (ticket { st := .cancelling, canc := true })) = true := by
  decide +kernel

theorem witness_BlockResult :
    (let p : Pos := { pc := 4, len := 4 }
     let s := onTh { pos := { atHdr := false } }
     (base.th base.me).pos.atHdr && alive base && (encodeTollum (.blk 3 0)).isSome && !(s.th s.me).pos.atHdr &&
       decide (p.pc + BitVec.ofNat 64 (2 * 1) ≠ p.ret) && decide (p.pc + BitVec.ofNat 64 (2 * 2) = p.ret) && decide (p.rpt = 0) &&
       decide (({ p with rpt := 2047 } : Pos).rpt ≠ 0)) = true := by decide +kernel

theorem witness_TaskResult :
    (let s : State := { base with work := { base.work with ops := [(0, { launch := 0, num := 0, left := 1 })] } }
     decide ((sH.th sH.me).pos.mode = .h) && (base.th base.me).q.haltedQ == none && ringOk base && !stopPending base base.me &&
       alive base && quiet s && ringOk s && commandsDone s s.me && !packetsOpen s s.me && decide ((s.launch (s.th s.me).job.launch).st ≠ .preempting) &&
       decide ((s.th s.me).trap.kind ≠ 1) && (s.op (s.th s.me).job.op).isSome) = true := by decide +kernel

/-- Two strands of launch 0, which is being pre-empted: that of core 0 stands at a safe point while that of core 1 still runs. -/
def sStop : State :=
  let k : Core := { coreOf { job := { run := .run } } with
    bind := { ctx := some 0, bound := some 0, preempt := some 0 }, banks := { roleF := 1 } }
  let s := placeCtx base
  { s with cores := [(0, k), (1, k)],
           work := { s.work with launches := [(0, { st := .preempting, walk := .run, pkt := { savea := 0x100000 } })] } }

theorem witness_TaskResult_stop :
    (let s := sStop
     decide ((s.th s.me).pos.mode = .k) && quiet s && ringOk s && !ringBusy s s.me && (s.core s.me).bind.lendTo.isNone &&
       decide ((s.th s.me).job.run = .run) && stopPending s s.me && saveFits s s.me (255 : BitVec 8).toNat &&
       !allStopped (s.setTh s.me { s.th s.me with job := { (s.th s.me).job with run := .stopped } }) 0) = true := by decide +kernel

/-! ### Witnesses: the matrix array -/

/-- Array 0 of die 0 moves, leased to core 0, whose ring holds a command with AWAIT 0 and whose streams lie in
its scratchpad, in tiles that the array owns. -/
def sArr (fmt : BitVec 4) : State :=
  { onCore { coreOf { strm := { st := (Vector.replicate 16 { base := 0x00FFFF8000001000, ext0 := 64, ext1 := 64, fmt := fmt, rstr := 256 }),
                                sem := Vector.replicate 32 1 }, job := { run := .run } } with
      ring := { cfg := true, base := 0x8000, logn := 4, wr := 1 }, banks := { owners := BitVec.ofNat 1024 ((2 ^ 1024 - 1) / 3) } } with
    agent := .array 0 0, arrays := [(0, { lease := some 0, ctxs := Vector.replicate 4 (some 0) })] }

def isOk {α : Type} : MRd α → Bool
  | .ok _ [] => true
  | _ => false

theorem witness_MatrixResult :
    (let m : MCmd := { mc with k := 32, mm1 := 1, nm1 := 1, stb := 1 }
     let s := sArr 7
     let x := strA s 0 m
     let y := strB s 0 m
     let w := whoArray s 0
     arrayBegins s 0 0 0 m [m.sta, m.stb] && arrayBegins s 0 0 0 m [m.sta] && arrayBegins s 0 0 0 m [] &&
       (pairRule m x y (decide (y.et ≠ .gq4) || y.baxis)).isNone && !tileEcc s 0 0 2 2 &&
       isOk (readRows s w x 2 32 0) && isOk (readRows s w y 32 2 0) && (plainRule m s 0).isNone &&
       isOk (MRd.list (fun r => outRow s w x (Nat.min 2 x.ext0.toNat) r) (Nat.min 2 x.rows) 0) && isOk (readRows s w x 2 2 0)) = true := by
  decide +kernel

/-- For MCONV both streams are four-dimensional, B with as many rows as A has channels. -/
def sConv : State :=
  let s := sArr 7
  let x : Stream := { base := 0x00FFFF8000001000, ext0 := 32, ext1 := 32, ext2 := 1, ext3 := 1, kind := 1, fmt := 7, rstr := 64 }
  s.setTh 0 { s.th 0 with strm := { (s.th 0).strm with st := Vector.replicate 16 x } }

theorem witness_MatrixResult_conv :
    (let m : MCmd := { mc with k := 32, mm1 := 1, nm1 := 1, stb := 1 }
     let s := sConv
     let x := strA s 0 m
     let y := strB s 0 m
     let w := whoArray s 0
     arrayBegins s 0 0 0 m [m.sta, m.stb] && !tileEcc s 0 0 2 2 &&
       (pairRule m x y (decide (x.kind = 1) && decide (y.kind = 1) && decide (y.et ≠ .gq4) && decide (y.ext1.toNat = x.ext0.toNat))).isNone &&
       isOk (MRd.list (fun i => MRd.list (fun k => convCell s w m x (convOf m x y) (s.core 0).lease.mpad.toNat i k) 32 0) 2 0) &&
       isOk (readRows s w y 32 2 0)) = true := by decide +kernel

/-- The same with streams in a HOST-U page. -/
def sHostArr (r : Ring → Ring) : State :=
  let s := placeCtx (sArr 7)
  let x : Stream := { base := 0x100000, ext0 := 64, ext1 := 64, fmt := 7, rstr := 256 }
  let k := s.core 0
  { s with mem := s.mem.writeNat 0x3000 8 0x6F,
           cores := [(0, { k with th := { k.th with strm := { k.th.strm with st := Vector.replicate 16 x } }, ring := r k.ring })] }

theorem witness_MatrixResult_asks :
    (let m : MCmd := { mc with k := 32, mm1 := 0, nm1 := 0 }
     let wait := fun (n : Nat) (ok : Bool) => sHostArr (fun r => { r with begun := some 0, host := .answered 0x100000 n ok })
     let keys := fun (s : State) => MRd.list (fun r => outRow s (whoArray s 0) (strA s 0 m) 1 r) 1 0
     arrayBegins (sHostArr id) 0 0 0 m [m.sta] && ((sHostArr id).core 0).ring.host == .idle && (plainRule m (sHostArr id) 0).isNone &&
       !tileEcc (sHostArr id) 0 0 1 1 && keys (sHostArr id) == .ok [[hostKey 0x100000]] [0x100000] &&
       [true, false].all (fun ok => arrayGoesOn (wait 0 ok) 0 0 0 m [m.sta] && keys (wait 0 ok) == .ok [[hostKey 0x100000]] [0x100000] &&
         (plainRule m (wait 0 ok) 0).isNone && !tileEcc (wait 0 ok) 0 0 1 1 && ((wait 0 ok).core 0).ring.host == .answered 0x100000 0 ok)) = true := by
  decide +kernel

/-- Two words in HOST-U pages: the second is asked for once the first is answered. -/
theorem witness_MatrixResult_next :
    (let m : MCmd := { mc with k := 32, mm1 := 0, nm1 := 1 }
     let s := sHostArr (fun r => { r with begun := some 0, host := .answered 0x100000 0 true })
     arrayGoesOn s 0 0 0 m [m.sta] && !tileEcc s 0 0 1 2 && (match MRd.list (fun r => outRow s (whoArray s 0) (strA s 0 m) 2 r) 1 0 with
       | .ok _ [a, b] => a == 0x100000 && decide (b ≠ a)
       | _ => false)) = true := by decide +kernel

theorem witness_MatrixEvents :
    (let s := { sArr 7 with arrays := [(0, { ctxs := Vector.replicate 4 (some 0) })] }
     let run := fun (r : BitVec 5) => { sArr 7 with arrays := [(0, { exec := some { core := 0, osc := 0, raise := r, acc := 0, strms := [] } })] }
     let top := (run 30).setTh 0 { (run 30).th 0 with strm := { sem := Vector.replicate 32 0xFFFF } }
     (s.array 0).lease == none && grantee s 0 == some 0 && ((run 31).array 0).exec.isSome && decide (semOf top 0 30 = 0xFFFF) &&
       decide (semOf (run 30) 0 30 ≠ 0xFFFF) &&
       (let h : State := { s with dies := [(0, { time := { gtime := 16000 } })] }
        decide ((h.array 0).halved < (h.die 0).time.gtime.toNat / 16000))) = true := by decide +kernel

/-! ### Witnesses: records -/

/-- Launch 0 walks in scope 5 of context 0, whose table maps the first GiB; tensors 0x123 and 0x124 of die 0 are in HBM; an OPB
lies at 0x200000, a descriptor with a recipe at 0x230000; the event queue has room. -/
def sWalk : State :=
  let s := placeCtx base
  let c := s.ctx 0
  let m := (s.mem.writeNat 0x200000 64 (0x4000 + 2 ^ 64 + 2 ^ 128 * (8 + 4 * 2 ^ 32))).writeNat 0x230000 64
    (9 + 16 + 1024 + 2 ^ 64 * 4 + 2 ^ 192 * 0x240000 + 2 ^ 256)
  { s with
    mem := m.writeNat 0x210004 4 1, agent := .walker 0, hg := { scopes := [(5, { st := .live })] },
    ctxs := [(0, { c with regs := { c.regs with eqbase := 6 } })],
    work := { s.work with launches := [(0, { pkt := { scope := 5, opbtab := 0x200000, condb := 0x210000 }, walk := .run, st := .running,
                                             pc := 0x220000 })] },
    weir := { tensors := [(0x123, { st := .hbm, gen := 5 }), (0x124, { st := .hbm, gen := 1 })] } }

def opr : OprRec :=
  { prio := 12, tclass := 3, rect := 0, scope := 5, opbi := 0, in0 := 0x00012305, in1 := 0, in2 := 0, in3 := 0, out0 := 0x00012401,
    out1 := 0 }

theorem witness_StreamRecordResult :
    (let s := sWalk
     let w := streamOf_ 0
     walks s 0 && kept s 0 0 && condRead s w 0 == .ok 0 && condRead s w 1 == .ok 1 && (whileEntry 0x220000 (s.launch 0).whiles).isNone &&
       (postEvent s 0 7 0 (shownQueue 0) 1 0).isSome && decide ((s.scope 9).st = .free) && inSubtree s 5 (s.launch 0).pkt.scope.toNat) = true := by
  decide +kernel

theorem witness_StreamRecordResult_operators :
    (let s := sWalk
     let w := streamOf_ 0
     let x := s.launch 0
     !boardFull s w && rectValid s x.ctx opr.rect && rectWithin opr.rect x.pkt.rect && outsOk s w ([opr.out0, opr.out1].map normHandle) &&
       handlesLive s x.ctx ([opr.in0, opr.in1, opr.in2, opr.in3].map normHandle ++ [opr.out0, opr.out1].map normHandle) &&
       (match seqRead s x.ctx x.die 8 8 (x.pkt.opbtab + 64 * opr.opbi.zeroExtend 64) with
        | .ok v => (readOpb v).isSome
        | _ => false) &&
       (liveTensor s x.ctx 0x00012305).isSome && handleKey s x.ctx 0x00012500 == some 0x125 &&
       (match seqRead s x.ctx x.die 8 8 0x230000 with
        | .ok v => !descBad v && decide (nbits v 10 1 = 1) && (match seqRead s x.ctx x.die 32 (nbits v 256 5) (BitVec.ofNat 64 (nbits v 192 64)) with
          | .ok _ => true
          | _ => false)
        | _ => false) &&
       decide ((tensorAt s 0x125).st = .free) && decide ((tensorAt s 0x125).gen = 0) && (liveTensor s x.ctx 0x00012500).isNone &&
       !inUse s 0x123 && (frameFor s 0x123).isNone && (tensorAt s 0x123).move.isNone && (dependents s 0x123).isEmpty &&
       decide ((tensorAt s 0x123).st ≠ .dropped)) = true := by decide +kernel

/-- A descriptor of an OPB: R38's cases at their edges. -/
theorem test_opb : ((readOpb (2 ^ 64 + 2 ^ 128 * (1 + 2 ^ 32))).isSome && (readOpb (2 ^ 128 * (1 + 2 ^ 32))).isNone &&
    (readOpb (7 * 2 ^ 64 + 2 ^ 128 * (1 + 2 ^ 32))).isNone && (readOpb (2 ^ 64 + 2 ^ 128 * (2 ^ 32))).isNone &&
    (readOpb (2 ^ 64 + 2 ^ 128 * (1 + 2 ^ 32 + 2 ^ 48))).isNone && (readOpb (2 ^ 64 + 2 ^ 57 + 2 ^ 128 * (1 + 2 ^ 32))).isNone) = true := by
  decide +kernel

/-- Two numbers that agree below the words of NLOOP = 1 and differ above. -/
theorem witness_OpbMalformedCases : decide ((2 ^ 64 + 2 ^ 200) % 2 ^ (128 + 64 * nbits (2 ^ 64 + 2 ^ 200) 64 3) = 2 ^ 64 % 2 ^ 192) = true ∧
    (2 ^ 64 : Nat) < 2 ^ 512 := by decide +kernel

/-! ### Witnesses: packets -/

/-- Flume queue 3 of context 0 on die 0 with a packet in execution; tiles of core 0 are the Flume's or the collective's by `o`. -/
def sPkt (o : Nat) (r : PRun) (t : Thread) : State :=
  { sWalk with
    agent := .flume 3, cores := [(0, { coreOf t with banks := { owners := BitVec.ofNat 1024 ((2 ^ 1024 - 1) / 3 * o) } })],
    work := { sWalk.work with queues := [(3, { kind := .flume, base := 0x8000, logcap := 2 })], runs := [(3, r)] } }

def claim0 : Claim := { slot := 0, core := 0, launch := 0, op := 0, n := 0, rect := 0, osc := 5 }
def pk : FPkt := { fp with scope := 5, src := 0x100000, dst := 0x101000, len := 256, stamp := 0x102000 }

def collP : FPkt := { pk with src := spadVa 0, dst := spadVa 4096, aux := 0x10090 }

/-- The forms with a packet each that passes its test. -/
def forms : List ((FPkt → Instr) × (State → Nat → PRun → FPkt → PTest) × FPkt) := [
  (.flcopy, formTest, pk), (.flfill, formTest, { pk with src := 0 }), (.flred, formTest, { pk with aux := 0x90 }),
  (.flstmp, fun _ _ r _ => .pass r, { pk with src := 0, dst := 0, len := 0 }),
  (.flcoll, collForm, collP)]

theorem witness_PacketResult :
    (forms.all (fun x =>
      let r : PRun := { ins := x.1 x.2.2, slot := 0, claim := some claim0 }
      let s := sPkt 3 r {}
      engine s 3 r && !r.reset && packetLive s 3 x.2.2 &&
        (match x.2.1 s 3 r x.2.2 with
         | .pass r' => !r'.reset && (collEnded s 3 r').isNone
         | _ => false) &&
        decide ((s.gtime (qDie s 3)).toNat < 1) && decide ((0 : Nat) ≤ (s.gtime (qDie s 3)).toNat)) &&
      (let p : FPkt := { fp with scope := 9, len := 0 }
       let q : FPkt := { fp with scope := 5, len := 0 }
       let r : PRun := { ins := .flstmp q, slot := 0, claim := none }
       let s := sPkt 2 r {}
       decide ((s.scope p.scope.toNat).st = .free) && engine s 3 r && packetLive s 3 q && !q.dc &&
         (match tensorTests s 3 r q with
          | .pass r' => r' == r
          | _ => false))) = true := by decide +kernel

/-- A packet of each outcome of the tests of form and of partners: a layout pair at a misaligned address, and a partner that has stamped. -/
theorem witness_PacketResult_ends :
    (let p : FPkt := { pk with aux := 0x90 }
     let r : PRun := { ins := .flcopy p, slot := 0, claim := some claim0 }
     let s := sPkt 3 r {}
     let y : PRun := { ins := .flcoll collP, slot := 0, claim := some claim0 }
     let u := sPkt 3 y {}
     let u : State := u.setLaunch 0 { u.launch 0 with deadColls := [(0, collGroup collP, claim0.seq, 2)] }
     engine s 3 r && decide ((s.scope 5).st ≠ .free) && decide ((s.scope 5).ctx = qCtx s 3) &&
       (match formTest s 3 r { p with lp := true, len := 4 } with
        | .stop _ => true
        | _ => false) &&
       engine u 3 y && (match collForm u 3 y collP with
        | .pass y' => collEnded u 3 y' == some 2
        | _ => false)) = true := by decide +kernel

theorem witness_PacketEvents :
    (let at_ := fun (p : PPhase) (i : Instr) => ({ ins := i, slot := 0, claim := some claim0, phase := p } : PRun)
     let live := fun (r : PRun) => let s := sPkt 3 r {}
       decide (s.run 3 = some r) && goesOn s 3 r
     let coll := collP
     live (at_ .nbt (.flcopy pk)) && ([.flcopy, .flfill, .flred, .flcoll] : List (FPkt → Instr)).all (fun i => live (at_ .units (i pk))) &&
       ([.flcopy, .flfill, .flred] : List (FPkt → Instr)).all (fun i => [true, false].all (fun ok =>
         live { at_ .units (i pk) with host := .answered 0x100000 0 ok })) &&
       ([.flcopy pk, .flfill pk, .flred pk, .flcoll coll] : List Instr).all (fun i =>
         let r : PRun := { at_ .units i with reset := true }
         let s := sPkt 3 r {}
         decide (s.run 3 = some r) && packetDead s 3 r && r.stopAs.isNone && !r.inUnit && !goesOn s 3 r &&
           !goesOn s 3 { at_ .units i with stopAs := some 3 }) &&
       [0x10090, 0x10006, 0x10007].all (fun aux =>
         let p : FPkt := { coll with aux := aux }
         let r := at_ .partners (.flcoll p)
         let s := sPkt 3 r {}
         live r && (collEnded s 3 r).isNone && (collPeers s 3 claim0 p).all (fun x => collAgree p x.2.2) && !collMem p &&
           (match collAll s 3 claim0 p with
            | some xs => decide (xs.map (fun x => x.1)).Nodup && !xs.isEmpty &&
                (xs.find? (fun x => packetDead s x.1 x.2.1)).isNone && !collPoison s xs
            | none => false))) = true := by decide +kernel

/-- A packet that delivers a slot of 256 bytes to buffer 0, with `n` slots free. -/
def dcPkt : FPkt := { pk with dc := true, src := spadVa 8192, dst := spadVa 0, aux := 0x90 }

def sSlot (i : Instr) (n : BitVec 16) : State :=
  sPkt 2 { ins := i, slot := 0, claim := some claim0, phase := .units, src := { base := spadVa 8192, lay := linear 64 2 },
           dst := { base := spadVa 0, lay := linear 64 2 }, total := 256 }
    { strm := { cb := Vector.replicate 16 { base := 0x2000, count := 1, free := n } } }

/-- The packet can deliver its slot, or waits for one. -/
def delivers (s : State) (n : BitVec 16) : Bool :=
  (match s.run 3 with
      | some r => goesOn s 3 r && !(s.th 0).marks.contains (6, 0) && decide (r.done < r.total) && windowTarget s (packetWho s 3 r none) (spadVa 0).toNat == some (0, 0) &&
          (let b := (s.th 0).strm.cbAt 0
           r.pkt == some dcPkt && decide (b.inst = r.inst) && decide (b.count ≠ 0) && decide (b.free = n) &&
             !s.mem.poisoned (slotKey 0 b b.wr 0) b.slotBytes &&
             (List.range (b.slotBytes / r.dst.lay.width)).all (fun i => match sideKeys s 3 r .read r.src (r.next + i) with
               | .ok _ [] => true
               | _ => false))
      | none => false)

theorem witness_PacketEvents_slot : (([.flcopy, .flfill, .flred] : List (FPkt → Instr)).all (fun i =>
    [0, 1].all (fun n => delivers (sSlot (i dcPkt) n) n))) = true := by decide +kernel

theorem witness_PacketEvents_complete :
    (let r : PRun := { ins := .flcopy pk, slot := 0, claim := some claim0, phase := .complete }
     let s := sPkt 3 r {}
     let u : State := { s with mem := s.mem.writeNat 0x3000 8 0x6F }
     let a : PRun := { r with host := .answered 0x102008 0 true }
     answered r && answered a && (hostAsk r (stampAsks pk.stamp (some .dev) (some .dev))).isNone &&
       decide (packetCheck u 3 r none .write (pk.stamp + 8) 8 = .ok (hostKey 0x102008) (some .hostU)) &&
       decide (packetCheck u 3 r none .write pk.stamp 8 = .ok (hostKey 0x102000) (some .hostU)) &&
       hostAsk r (stampAsks pk.stamp (some .hostU) (some .hostU)) == some (0x102008, 0) &&
       hostAsk a (stampAsks pk.stamp (some .hostU) (some .hostU)) == some (0x102000, 1) &&
     decide (s.run 3 = some r) && (s.queue 3).isSome && !r.reset && decide (r.status ≠ 2) &&
       decide (packetCheck s 3 r none .write (pk.stamp + 8) 8 = .ok 0x102008 (some .dev)) &&
       decide (packetCheck s 3 r none .write pk.stamp 8 = .ok 0x102000 (some .dev))) = true := by decide +kernel

/-! ### Witnesses: waits, time, power -/

theorem witness_WaitAndTimeEvents_waits :
    (let w := fun (x : WaitSt) => onTh { job := { wait := x } }
     let late : State := { w (.mwait 0 0 0 true 0 .none) with dies := [(0, { time := { gtime := 1000 } })] }
     let early := w (.mwait 0 0 0 true 1 .none)
     let sent : HostSt := .sent 8 0
     let blk := onCore { coreOf {} with banks := { blocks := [{ va := 0, lines := 64, sem := 31, host := sent }] }, ring := { host := sent } }
     let r : PRun := { ins := .flcopy pk, slot := 0, claim := none, phase := .units, host := sent }
     ((w (.timewait 0 none)).th 0).job.wait == .timewait 0 none && decide (0 ≤ (gtimeOf (w (.timewait 0 none)) 0).toNat) &&
       (late.th 0).job.wait == .mwait 0 0 0 true 0 .none && (late.th 0).job.host == .idle && decide (0 + 1000 ≤ (gtimeOf late 0).toNat) &&
       (early.th 0).job.wait == .mwait 0 0 0 true 1 .none && (early.th 0).job.host == .idle && decide ((gtimeOf early 0).toNat < 1 + 1000) &&
       ((w (.mwait 0 0 0 false 0 .none)).th 0).job.wait == .mwait 0 0 0 false 0 .none && !hostWord 0 && hostWord (2 ^ 56) &&
       hostWord (2 ^ 57 - 1) && ((onTh { job := { code := sent } }).th 0).job.code == sent &&
       ((onTh { job := { code := sent } }).th 0).job.host == .idle && ((onTh { job := { host := sent } }).th 0).job.host == sent &&
       ((onTh { q := { vl := { host := sent } } }).th 0).q.vl.host == sent &&
       ((onTh { q := { vs := { host := sent } } }).th 0).q.vs.host == sent &&
       (blk.core 0).ring.host == sent && ((blk.core 0).banks.blocks[0]?).any (fun b => b.host == sent) &&
       (sPkt 3 r {}).run 3 == some r) = true := by decide +kernel

theorem witness_WaitAndTimeEvents_blocks :
    (let b : LoadBlock := { va := 0x100000, lines := 64, sem := 31 }
     let s := fun (b : LoadBlock) => { sVirt with cores := [(0, { coreOf {} with banks := { blocks := [b] } })] }
     let full : LoadBlock := { b with full := true }
     ((s full).core 0).banks.blocks[0]? == some full && !full.raised && full.bad.isNone && decide (semOf (s full) 0 31 ≠ 0xFFFF) &&
       ((s b).core 0).banks.blocks[0]? == some b && !b.full && b.park == .run &&
       b.host == .idle &&
       (match fillLines (s b) ((s b).whoThread 0) 0 64 0 0x100000 with
        | .ok _ => true
        | _ => false)) = true := by decide +kernel

/-- Die 0's time record is t; the grandmaster reads the same time, port A is up. -/
def sTime (t : DieTime) : State :=
  { base with dies := [(0, { time := t }), (16, { time := { gtime := t.gtime } })],
              mgmt := { base.mgmt with timerec := 8, ports := Vector.replicate 4 { up := true } } }

/-- The time that an exchange leaves keeps the bound of R70. -/
def exchangeOk (t : DieTime) (est : Int) : Bool :=
  let s := sTime t
  timeOk (s.setDie 0 { s.die 0 with time := exchange (s.die 0).time est })

theorem witness_WaitAndTimeEvents_time :
    (let due := fun (t : DieTime) => decide (((sTime t).die 0).time.exchAt.toNat + 1000000 ≤ ((sTime t).die 0).time.gtime.toNat) &&
       decide (((sTime t).die 0).time.errAt.toNat + 1000000 ≤ ((sTime t).die 0).time.gtime.toNat)
     let lost : DieTime := { gtime := 1000000, good := 19, st := .lost }
     let locked : DieTime := { gtime := 1000000, st := .locked, err := 15 }
     due { gtime := 1000000, good := 18 } && exchangeOk { gtime := 1000000, good := 18 } (-4) && exchangeOk { gtime := 1000000 } 5 &&
       due lost && exchangeOk lost 4 && due locked && exchangeOk locked (-4) && due { locked with err := 16 } &&
       (let s := sTime locked
        decide (s.mgmt.timerec ≠ 0) && s.portUp .a && !s.mgmt.ptmctl.getLsbD 0 && decide (s.mgmt.recAt.toNat + 1000000 ≤ (s.gtime 16).toNat))) = true := by decide +kernel

/-- R72 at its edge: ERR at 16 loses the lock with ERR 17; the twentieth good exchange locks with ERR 4. -/
theorem test_sync :
    ((match exec (.syncErrTick 0) (sTime { gtime := 1000000, st := .locked, err := 16 }) with
      | .next t => (t.die 0).time.st == .lost && (t.die 0).time.err == 17 && (t.die 0).time.losses == 1
      | _ => false) &&
     (match exec (.gtimeExchange 0 4) (sTime { gtime := 1000000, good := 19, st := .lost }) with
      | .next t => (t.die 0).time.st == .locked && (t.die 0).time.err == 4
      | _ => false)) = true := by decide +kernel

/-- Core 0 runs at `mhz`, its column at `t` hundredths of a degree, its last refresh 10 µs ago. -/
def sWarm (mhz : Nat) (t : Int) : State :=
  { base with cores := [(0, { power := { mhz := mhz, fmax := 1800 } })],
              dies := [(0, { sensors := [{ temps := [t] }], time := { gtime := 10000 } })] }

theorem witness_PowerAndPortEvents_loops :
    ([10500, 10501].all (fun t =>
      let s := sWarm 700 t
      decide ((s.core 0).power.headAt.toNat + 10000 ≤ (gtimeOf s 0).toNat) && !columnDown s 0 && (s.core 0).power.change.isNone &&
        decide (600 < (s.core 0).power.mhz) && decide (hot s 0 = decide (t = 10501))) &&
      decide ((gtimeOf base 0).toNat < (base.core 0).power.headAt.toNat + 10000) &&
      decide (600 ≤ ((sWarm 700 0).core 0).power.mhz) && decide (1800 ≤ ((sWarm 700 0).core 0).power.fmax.toNat) &&
      decide (((sWarm 700 0).core 0).power.fmax.toNat < 1801) && decide (600 ≤ (base.array 0).mhz) &&
      eccAt base 8 0 && eccAt base 0 (spadKey 0 0) && decide (spadKey 0 0 ≥ 2 ^ 56)) = true ∧
    0 ≤ (Config.budget 0).toNat ∧ 0 ≤ Config.arrayBudget 0 ∧ lowPoint 8 ≤ 1600 ∧ lowPoint 16 ≤ 1000 ∧
    (let s : State := { base with dies := [(8, { mhz := 1600 })] }
     1600 ≤ (s.die 8).mhz ∧ (s.die 8).change = none ∧ (s.die 8).sensors.any (fun x => x.inForce) = false ∧
       (s.die 16).change = none ∧ (s.die 16).sensors.any (fun x => x.inForce) = false) :=
  ⟨by decide +kernel, Nat.zero_le _, Nat.zero_le _, Nat.min_le_right _ _, Nat.min_le_right _ _, by decide +kernel⟩

theorem witness_PowerAndPortEvents_power :
    (let s : State := { State.reset with dies := [(0, { sensors := List.replicate 8 {}, time := { gtime := 1000000 } }),
       (8, { time := { gtime := 86400000000000 } })] }
     !columnDown s 511 && (s.core 0).power.change.isNone && (s.array 15).change.isNone && !arrayDown s 15 &&
       (let c := onCore { power := { change := some 2100 } }
        (c.core 0).power.change == some 2100) &&
       decide ((List.replicate 8 (0 : Int)).length = (s.die 0).sensors.length) &&
       decide ((s.die 0).sampleAt.toNat + 1000000 ≤ (s.die 0).time.gtime.toNat) &&
       decide ((s.die 8).scrubAt.toNat + 86400000000000 ≤ (s.die 8).time.gtime.toNat)) = true := by decide +kernel

theorem witness_PowerAndPortEvents_ports :
    (let x : Partner := { rate := 32, flit256 := true, adv128 := false, altProto := true, width := 8, capacity := 0 }
     let s : State := { base with mem := { held := [6442450943], snooped := [(6442450943, .strand 0)] } }
     let owed : State := { base with mem := { owed := [(0, .strand 0)] } }
     let out : State := { onTh { job := { host := .sent 8 0 } } with ctxs := [(0, { live := true })] }
     (out.th 0).job.host == .sent 8 0 && (out.ctx (out.ctxOf 0)).home == .a && owed.mem.owed.any (fun x => x.1 == 0) &&
       base.mem.owed.isEmpty && !{ x with flit256 := false }.flit256 &&
     x.flit256 && decide (32 ≤ x.rate) && decide (8 ≤ x.width) && !base.mem.held.contains (0xBFFFFFFFFF / 128) &&
       s.mem.held.contains (0xBFFFFFFFFF / 128) && s.mem.snooped.any (fun x => x.1 == 0xBFFFFFFFFF / 128)) = true := by decide +kernel

/-! ### Witnesses: faults, the driver, the management page -/

/-- Host ports up, port A the owner of the management semaphore, context 0 with its queues. -/
def sHost : State :=
  { base with
    mgmt := { base.mgmt with owner := some .a, st := .ready, ports := Vector.replicate 4 { up := true } },
    ctxs := [(0, { live := true, vdmap := 0x8, regs := { fqbase := 6, qbase := 0x8000 } })],
    hg := { scopes := [(5, { st := .live, creator := .driver })] } }

def fault0 : FaultRec :=
  { fid := 0, ctx := 0, va := 0, agent := 0, access := 0, die := 0, unit := 0, who := 0, sub := 0 }

theorem witness_FaultEvents :
    (let s : State := { sHost with dies := [(0, { faults := [fault0] })] }
     let r := (s.ctx 0).regs
     let v : State := { sHost with work := { sHost.work with fids := [fault0] } }
     let i : State := { sHost with ctxs := [(0, { live := true, vdmap := 0x8, invals := [1] })] }
     let ask := onTh { job := { host := .sent 0x1000 0 } }
     (s.die 0).faults == [fault0] && hostQueueLog r.fqbase == some 6 && decide ((r.fqwr - r.fqrd).toNat < 2 ^ 6) && hostPort v .a &&
       hostPort v .b && verdictActs v .a 0 && verdictActs v .b 0 && verdictActs v .a 63 && !(v.ctx 63).live && pageActs v 0 && v.work.fids.find? (fun y => y.ctx == 0 && BitVec.ofNat 32 y.fid == 0) == some fault0 &&
       (sHost.work.fids.find? (fun y => y.ctx == 0 && BitVec.ofNat 32 y.fid == 0)).isNone && (i.ctx 0).invals == [1] &&
       (openAsks i 0).isEmpty && (openAsks { i with cores := ask.cores } 0).any (fun va => invalCovers 1 (va.toNat / 4096)) &&
       (let w : WaitSt := .mwait 0x1000 0x1000 0 false 0 .none
        ((onTh { job := { wait := w } }).th 0).job.wait == w && invalCovers 1 1 && !inWindow 0x1000) &&
       sHost.mgmt.owner == some .a) = true := by decide +kernel

theorem witness_pickScope_host : ∃ k, pickScope sHost = some k := by
  have h : freeFrom sHost 65536 0 = some 0 := rfl
  simp only [pickScope, h]
  split <;> exact ⟨_, rfl⟩

theorem witness_pickQueue : ∃ k, pickQueue sHost = some k := by
  have h : freeQueue sHost 65536 0 = some 0 := rfl
  simp only [pickQueue, h]
  split <;> exact ⟨_, rfl⟩

theorem witness_DriverEvents :
    (let q : State := { sHost with work := { sHost.work with queues := [(3, { kind := .flume, base := 0x8000, logcap := 2 })] } }
     pageActs sHost 0 && inService sHost 0 && (selfDie (sHost.ctx 0).vdmap 0).isSome && !(sHost.ctx 0).dying &&
       decide ((sHost.scope 5).st = .live) && decide ((sHost.scope 5).ctx = 0) && decide ((ancestors sHost 5).length < 64) &&
       decide ((sHost.scope 5).creator = .driver) && decide ((sHost.ctx 0).regs.qbase.toNat % 64 = 0) &&
       decide ((sHost.ctx 0).regs.qbase.toNat + (64 + 64 * 2 ^ 16) ≤ 0xC000000000) &&
       (sHost.mem.heldLine 0x8000 (64 + 64 * 2 ^ 16)).isNone && (namedQueue q 0 3).isSome && (q.run 3).isNone &&
       (q.mem.heldLine 0x8000 (64 + 64 * 4)).isNone) = true := by decide +kernel

theorem witness_ManagementEvents :
    (let free : State := { sHost with mgmt := { sHost.mgmt with owner := none } }
     let dead : State := { sHost with ctxs := [(0, { live := true, dying := true })], hg := {} }
     let bar : State := { sHost with bars := [(255, { ctx := some 63 })] }
     hostPort sHost .a && hostPort sHost .b && free.mgmt.owner == none && sHost.mgmt.owner != some .b && !(sHost.ctx 63).live &&
       vdmapOk sHost.harvest 0xFEDCBA98 && (sHost.ctx 0).live && !(sHost.ctx 0).dying && !ctxInUse sHost 0 &&
       (ctxScopes sHost 0).all (fun y => (selfDie 0x8 y.2.home).isSome) && (sHost.bar 2047).ctx.isNone && (sHost.chan 511).ctx.isNone &&
       (bar.bar 255).ctx == some 63 && (dead.ctx 0).live && (dead.ctx 0).dying && ctxDone dead 0) = true := by decide +kernel

theorem witness_FirmwareEvents :
    (let idle : State := { sHost with ctxs := [] }
     let maint : State := { idle with mgmt := { idle.mgmt with st := .maint } }
     let boot : State := { sHost with mgmt := { sHost.mgmt with st := .boot, firstBoot := true, fwver := 1 },
                                      dies := (List.range 18).map (fun d => (d, { time := { st := .locked } })) }
     hostPort sHost .a && decide ((0 : Nat) < ({ sHost.mgmt with rollback := 1 } : Mgmt).rollback.toNat) && decide (sHost.mgmt.rollback.toNat ≤ 0) &&
       decide (sHost.mgmt.st ≠ .recovery) && decide (ctxstat idle = 0) && decide (idle.mgmt.st = .ready) && decide (maint.mgmt.st = .maint) &&
       decide (ctxstat sHost ≠ 0) && decide (boot.mgmt.st = .boot) && allLocked boot && boot.portUp .a && boot.portUp .b &&
       boot.mgmt.firstBoot && decide (boot.mgmt.rollback.toNat < boot.mgmt.fwver.toNat)) = true := by decide +kernel

/-! ### Witnesses: scopes, launches, operators, tensors -/

/-- A cancellation of scope 5 under ticket 5, told to the dies `told` and acknowledged by `acked`. -/
def sCancel (told acked : List Nat) : State :=
  { sHost with hg := { scopes := [(5, { st := .cancelling, canc := true, ticket := 5, creator := .driver })],
                       cancels := [(5, { scope := 5, marked := [5], told := told, acked := acked })] } }

theorem witness_HeadgateEvents :
    (let ask : State := { sHost with hg := { sHost.hg with reqs := [{ scope := 5, home := 0, by_ := .strand 0 9, ctx := 0, root := some 5 }] },
                                     cores := [(0, coreOf { job := { wait := .cancel 9 } })] }
     let all := ctxDies sHost 0
     let f : Flight := { chan := 0, core := 0, tok := token }
     let fly : State := { sHost with flight := [f, { f with core := 1 }] }
     ((reapScopes sHost).hg.reqs.find? (fun r => r.home == 0)).isNone &&
       (reapScopes ask).hg.reqs.find? (fun r => r.home == 0) ==
         some { scope := 5, home := 0, by_ := .strand 0 9, ctx := 0, root := some 5 } &&
       cancelFits (reapScopes ask) { scope := 5, home := 0, by_ := .strand 0 9, ctx := 0, root := some 5 } &&
       !cancelFits (reapScopes ask) { scope := 5, home := 0, by_ := .strand 0 9, ctx := 1, root := some 5 } &&
       decide (((reapScopes ask).scope 5).st = .live) && (ask.th 0).job.wait == .cancel 9 && (base.th 0).job.wait != .cancel 9 &&
       (smFind 5 (sCancel [] []).hg.cancels).isSome && all.contains 17 &&
       ((smFind 5 (sCancel [17] []).hg.cancels).map (fun x => x.told)) == some [17] && dieClear (sCancel [17] []) 17 5 &&
       (match smFind 5 (sCancel all all).hg.cancels with
        | some x => (ctxDies (sCancel all all) x.ctx).all (fun d => x.acked.contains d) &&
            x.after.all (fun t => (smFind t.toNat (sCancel all all).hg.cancels).isNone) && (recordLine (sCancel all all) x).isNone
        | none => false) &&
       (let s := { placeCtx (sCancel all all) with hg := (sCancel all all).hg }
        let s := setRegs s 0 { (s.ctx 0).regs with crbase := 0x100000 }
        match smFind 5 s.hg.cancels with
        | some x => decide ((s.ctx x.ctx).regs.crbase ≠ 0) && decide (doneLaunches s 5 x.marked = s) && (recordLine s x).isNone &&
            decide (seqCheck s x.ctx x.home .write ((s.ctx x.ctx).regs.crbase + BitVec.ofNat 64 (64 * x.scope)) 64 =
              .ok (0x100000 + 64 * 5) (some .dev))
        | none => false) &&
       fly.flight[1]? == some { f with core := 1 } && (fly.flight.take 1).all (fun g => !(g.chan == 0 && g.core == 1))) = true := by decide +kernel

/-- Launch 0 in a state, of rectangle (0, 0, 1, 1) in scope 5, its stamp at 0x102000. -/
def sLaunch (x : Launch) (k : Core) : State :=
  let s := placeCtx base
  { s with cores := [(0, k)], hg := { scopes := [(5, { st := .live })] },
           work := { s.work with launches := [(0, { x with pkt := { x.pkt with scope := 5, stamp := 0x102000 } })] } }

theorem witness_LaunchEvents :
    (let q : State := { base with work := { base.work with queues := [(3, { base := 0x8000, logcap := 2 })] } }
     let bind := sLaunch { st := .binding, queue := 3 } {}
     let pre : State := sLaunch { st := .binding, queue := 3, pkt := { prio := 1 } } { bind := { bound := some 1 } }
     let pre := { pre with work := { pre.work with launches := pre.work.launches ++ [(1, { st := .running, pkt := { savea := 8 } })] } }
     let wait : State := { sLaunch { st := .preempting } { coreOf { job := { run := .run } } with bind := { bound := some 0, preempt := some 0 } } with
       dies := [(0, { time := { gtime := 256000 } })] }
     let close := sLaunch { st := .closing } {}
     (match q.queue 3 with
      | some x => decide (x.kind = .launch) && !x.stopped && (headOf q 3).isNone && (queueLine q 3 x (ridxOf q x)).isNone &&
          decide (tagOf q 3 x (ridxOf q x) = ridxOf q x)
      | none => false) &&
       (let v := 1 + 5 * 2 ^ 16 + 0x102000 * 2 ^ 256
        let m : State := { sLaunch {} {} with mgmt := { base.mgmt with st := .ready } }
        let m : State := { m with mem := m.mem.writeNat (0x8000 + 64) 64 v, work := q.work }
        match m.queue 3 with
        | some x => let k := ridxOf m x
            decide (k = 0) && (x.claims.find? (fun c => c.slot == k)).isNone && !m.mem.poisoned (qslotKey 3 x k) 64 &&
              launchOk m x.ctx (m.mem.readNat (qslotKey 3 x k) 64) (launchFields (m.mem.readNat (qslotKey 3 x k) 64)) none &&
              !scopeDead m x.die 5
        | none => false) &&
       decide ((bind.launch 0).st = .binding) && (launchDies bind 0).contains 0 && !(bind.launch 0).shares.contains 0 &&
       !scopeDead bind 0 5 && ((launchDies bind 0).filter (fun d => decide (d < 0))).isEmpty &&
       !heldByOther bind 0 && !heldByOther pre 0 &&
       (shareOf bind 0 0).all (bindable bind 0) && headOf bind 3 == some 0 && headOf pre 3 == some 0 && blockers pre 0 == [1] &&
       (blockers pre 0).all (preemptible pre (pre.launch 0).pkt.prio.toNat) &&
       (wait.core 0).bind.preempt == some 0 && (wait.core 0).bind.bound == some 0 && decide ((wait.th 0).job.run = .run) &&
       preempting wait 0 && !preempting bind 0 &&
       decide (fitWait ≤ readyFor wait 0 0) &&
       (close.launch 0).handlers.isEmpty && decide ((close.launch 0).st = .closing) && decide ((close.launch 0).park = .run) &&
       (close.launch 0).parked.isEmpty &&
       decide (seqCheck close 0 0 .write 0x102000 8 = .ok 0x102000 (some .dev))) = true := by decide +kernel

theorem witness_LaunchEvents_lend :
    (let s := sLaunch { st := .running } { bind := { bound := some 1 } }
     let s : State := { s with work := { s.work with launches := s.work.launches ++ [(1, { st := .stamped, lent := true, parent := some 0 })] } }
     let nested : State := { s with work := { s.work with launches := [(0, { st := .stamped, lent := true, parent := some 2 }),
       (1, { st := .stamped, lent := true, parent := some 0 })] } }
     !s.work.launches.any (fun m => m.2.lent && m.2.parent == some 1) && !nested.work.launches.any (fun m => m.2.lent && m.2.parent == some 1) &&
       (nested.launch 1).lent && (nested.launch 1).parent == some 0 && decide ((nested.launch 1).st = .stamped) && (nested.launch 0).lent &&
       (launchCores nested 1).contains 0 && (nested.core 0).bind.bound == some 1 && (nested.core 0).bind.frames.isEmpty &&
     (s.launch 1).lent && (s.launch 1).parent == some 0 && decide ((s.launch 1).st = .stamped) && decide ((s.launch 0).st = .running) &&
       (launchCores s 1).contains 0 && (s.core 0).bind.bound == some 1 && (s.core 0).bind.frames.isEmpty) = true := by decide +kernel

/-- Operator 0 of launch 0, with one step for core 0. -/
def sOp (x : Op) : State :=
  let s := sLaunch { st := .running, walk := .keep 0 } { bind := { bound := some 0 } }
  { s with work := { s.work with ops := [(0, x)] },
           weir := { tensors := [(0x123, { st := .hbm, gen := 5 })] } }

theorem witness_OperatorEvents :
    (let o : Op := { launch := 0, num := 0, scope := 5, left := 1, steps := 1, ins := [0x00012305] }
     let new := sOp o
     let xfer := sOp { o with tier := some 1 }
     let done := sOp { o with issued := true, left := 0 }
     let moved := sOp { o with issued := true, tier := some 1 }
     let req : WReq := { t := 0x123, by_ := .op 0, launch := 0, depth := 0, frame := none, scope := 5, prio := 0, st := .ready, place := some .hbm }
     let moved : State := { moved with weir := { moved.weir with reqs := [(0, req)] } }
     let told : State := { new with hg := (sCancel [0] []).hg }
     let told := told.setLaunch 0 { told.launch 0 with die := 1 }
     let go := sOp { o with issued := true, cores := [{ core := 0, next := 0 }] }
     (new.op 0).isSome && walking (new.launch 0) && !scopeDead new (opDie new o) 5 && !orderHeld new o &&
       !orderHeld xfer { o with tier := some 1 } && opWants new o == [] &&
       (opIns new o ++ opOuts new o).all (fun t => (tensorAt new t).move.isNone) && (done.op 0).isSome && (moved.op 0).isSome &&
       (rectCores (new.ctx (new.launch 0).ctx).vdmap o.rect).all (fun c => !scopeDead new (dieOfCore c) 5) &&
       !scopeDead told (opDie told o) 5 && scopeDead told 0 5 && walking (told.launch 0) && !orderHeld told o && opWants told o == [] &&
       (moved.weir.reqs.filter (fun r => r.2.by_ == .op 0)).map (fun r => r.2.st) == [.ready] &&
       (go.core 0).bind.bound == some 0 && coreFree (go.core 0) 0 && (go.launch 0).handlers.isEmpty && decide ((go.launch 0).st = .running) &&
       ((readySteps go 0 0).find? (fun r => scopeDead go 0 r.x.scope)).isNone && !(readySteps go 0 0).any (choiceDue go 0) &&
       (match bestReady go 0 (readySteps go 0 0) with
        | some r => stepFits go 0 r
        | none => false) &&
       (let h : Handler := { cause := 0x10, tval := 0, src := .walker }
        let s := go.setLaunch 0 { go.launch 0 with handlers := [h] }
        (s.core 0).bind.bound == some 0 && coreFree (s.core 0) 0 && (s.launch 0).handlers == [h] && handlerDue s 0 0 && !preempting s 0) &&
       (let s := (go.setLaunch 0 { go.launch 0 with st := .preempting }).setLaunch 1 { parent := some 0, lent := true, st := .running }
        coreFree (s.core 0) 0 && decide ((s.launch 0).st = .preempting) && lendingOf s 0 && (match bestReady s 0 (readySteps s 0 0) with
         | some r => stepFits s 0 r && !(readySteps s 0 0).any (choiceDue s 0)
         | none => false)) &&
       (new.launch 0).walk == .keep 0 && keepOver new (streamOf_ 0) 0) = true := by decide +kernel

/-- A request for tensor 0x123 of die 0 by walker 0, and a frame that rebuilds it. -/
def sWeir (x : WReq) (t : Tensor) (fs : SMap Frame) : State :=
  let s := sLaunch { st := .running, walk := .home 0 } {}
  { s with weir := { tensors := [(0x123, t)], reqs := [(0, x)], frames := fs } }

theorem witness_WeirEvents :
    (let r : WReq := { t := 0x123, by_ := .walker 0, launch := 0, depth := 0, frame := none, scope := 5, prio := 0 }
     let f : Frame := { t := 0x123, launch := 0, die := 0, depth := 0, parent := none, scope := 5, prio := 0, tier := .cis, pc := 0, left := 0,
                        walk := .ended }
     let here := sWeir r { st := .hbm } []
     let gone := sWeir r { st := .dropped } []
     let frame := sWeir r { st := .dropped } [(7, f)]
     let ready := sWeir { r with st := .ready } { st := .hbm } []
     let moving := sWeir r { st := .hbm, move := some .cis } []
     let probe := sWeir r { st := .hbm, probe := true, size := 1 } []
     let own : WReq := { r with by_ := .op 0, frame := some 7, depth := 1 }
     let loop : State := { (sWeir own { st := .dropped } [(7, f)]) with work :=
       { frame.work with ops := [(0, { launch := 0, num := 0, scope := 5, frame := some 7, ins := [0x00012305] })] } }
     let deep : WReq := { r with depth := 65536 }
     let past := sWeir deep { st := .dropped } []
     decide ((loop.scope 5).st ≠ .cancelling) && decide ((past.scope 5).st ≠ .cancelling) && cyclic loop own && loop.req 0 == some own && (xferOwn loop 0 own).isNone && !xferBehind loop own && !xferStale loop own &&
       !scopeDead loop 0 5 && walking (loop.launch 0) && decide ((tensorAt loop 0x123).st = .dropped) &&
       past.req 0 == some deep && !cyclic past deep && (frameFor past 0x123).isNone && (xferOwn past 0 deep).isNone &&
       decide (weirReg past (tensorAt past 0x123).ctx 4 < deep.depth + 1) && here.req 0 == some r && !xferBehind here r && !xferStale here r && !scopeDead here 0 5 && walking (here.launch 0) &&
       decide ((tensorAt here 0x123).st ≠ .dropped) && gone.req 0 == some r && decide ((tensorAt gone 0x123).st = .dropped) &&
       frame.frame 7 == some f && decide ((frame.scope 5).st = .live) && decide ((frame.scope 6).st = .free) && frame.work.ops.all (fun o => !(o.2.frame == some 7)) && (ready.req 0).map (fun x => x.st) == some .ready &&
       decide ((ready.launch 0).walk = .home 0) && (tensorAt moving 0x123).move == some .cis &&
       decide (tierUsed moving 0 .cis false ≤ tierCap moving .cis) && (tensorAt probe 0x123).probe &&
       (tensorAt probe 0x123).st.tier == some .hbm && (tensorAt probe 0x123).move.isNone && decide ((tensorAt probe 0x123).size ≠ 0) &&
       probe.work.ops.all (fun o => !(opOuts probe o.2).contains 0x123) && (frameFor probe 0x123).isNone) = true := by decide +kernel

/-! ### Witnesses: the whole machine -/

/-- The strand of core 0 stands before the word of ADD in a block, fetched through context 0's table. -/
def sAdd : State := State.reset.withFetchWord 32 0x00190A01

/-- The strand of core 0 stands before a block header. -/
def sBlk : State := State.reset.withFetchWord 32 0xFF00C00F

theorem witness_StepRunsDecoded :
    (let m := moving sAdd [] 0
     let b := moving sBlk [] 0
     sAdd.sched == [.strand 0] && decide ((m.th 0).job.run ≠ .idle) && decide ((m.th 0).job.park = .run) && decide ((m.th 0).job.code = .idle) &&
       !(m.th 0).pos.fw &&
       (badFetch (m.th 0)).isNone && (badFetch (b.th 0)).isNone && (beforeInstr m 0).isNone && !(m.th 0).pos.pc.getLsbD 0 && !(m.th 0).pos.atHdr &&
       (match fetchWord (passTested m 0) 0 ((passTested m 0).th 0).pos with
        | .ok w => !pastBlock (((passTested m 0).th 0).pos) w &&
            decodeTollum (BitVec.ofNat 32 w) (BitVec.ofNat 32 (w / 2 ^ 32)) == some (.add r3) && !eccInstr (passTested m 0) 0 (.add r3)
        | _ => false) &&
       sBlk.sched == [.strand 0] && (beforeInstr b 0).isNone && (b.th 0).pos.atHdr &&
       (match fetchWord (passTested b 0) 0 ((passTested b 0).th 0).pos with
        | .ok w => isHeader w && decodeTollum (BitVec.ofNat 32 w) 0 == some (.blk 12 7) && !eccInstr (passTested b 0) 0 (.blk 12 7)
        | _ => false) &&
       (encode .packageReset).isNone) = true := by decide +kernel

/-- An array, an engine, a walker and a recipe frame stand before a command, a packet and a record. -/
theorem witness_StepRunsDecoded_array :
    (let m : State := { State.reset.withFetchWord 128 0x0000000000401FFF0000000021088302 with sched := [], agent := .array 0 0 }
     let c := quadCore 0 0
     (m.array 0).lease == some 0 && (m.array 0).exec.isNone && (m.core c).ring.begun.isNone && eligible m c && (killedStrand m c).isNone && !commandHeld m c &&
       (recordFault m c).isNone &&
       (decodeCommand (ringRecord m c (m.core c).ring.rd.toNat)).isSome) = true := by decide +kernel

theorem witness_StepRunsDecoded_engine :
    (let m : State := { State.reset.withFetchWord 512 (0x00410504 + 0x100000 * 2 ^ 256 + 3 * 2 ^ 448) with sched := [], agent := .flume 0 }
     let t : State := m.setRun 0 { ins := .flstmp fp, slot := 3, claim := none }
     (t.run 0).any (fun r => decide (r.phase = .form ∨ r.phase = .ranges)) &&
     match m.queue 0 with
     | none => false
     | some q =>
       let k := ridxOf m q
       let r : PRun := { ins := .flstmp (wFPkt (packetRaw m 0 q)), slot := k, claim := q.claims.find? (fun c => c.slot == k) }
       (m.run 0).isNone && q.kind == .flume && !q.stopped && (queueLine m 0 q k).isNone && tagOf m 0 q k == k &&
         !stampBad (takeStamps m q.die [q.atDie, q.slotDie 0 k]) 0 r (wFPkt (packetRaw m 0 q)).stamp && !m.mem.poisoned (qslotKey 0 q k) 64 && (decodePacket (packetRaw m 0 q)).isSome) = true := by decide +kernel

def sRecord : State := State.reset.withFetchWord 256 0x0C

def goodRead (r : SRd) : Bool :=
  match r with
  | .ok v => (decodeRecord (BitVec.ofNat 256 v)).isSome
  | _ => false

theorem witness_StepRunsDecoded_walker :
    (let m : State := { sRecord with sched := [], agent := .walker 0 }
     let x := m.launch 0
     let w : Walker := { l := 0, f := none }
     walking x && x.walk == .run && x.park == .run && !scopeDead m x.die x.pkt.scope && !boardFull m w &&
       goodRead (seqRead m (walkCtx m w) (walkDie m w) 32 1 (walkPc m w))) = true := by decide +kernel

theorem witness_StepRunsDecoded_frame :
    (let y : Frame := { t := 0, launch := 0, die := 0, depth := 1, parent := none, scope := 0, prio := 0, tier := .cis, pc := 0x100000, left := 1 }
     let x := { y with pushed := true }
     let m : State := { sRecord.setFrame 5 x with sched := [], agent := .frame 5 }
     let w : Walker := { l := 0, f := some 5 }
     m.frame 5 == some x && x.walk == .run && x.park == .run && goodRead (seqRead m (walkCtx m w) (walkDie m w) 32 1 (walkPc m w))) = true := by decide +kernel

theorem witness_StepRunsDecoded_queue :
    (let q : State := { sHead .va (.vadd (v3 3 1 2)) (v3 3 1 2) with sched := [.queue 0 .va] }
     ((q.th 0).q.get .va).held.head?.isSome) = true := by decide +kernel

/-- A repeat pass of a block executes what the loop buffers hold (R85): after a store over the word, ADD is still what they replay. -/
theorem witness_StepRunsDecoded_loop :
    (let m := moving sAdd [] 0
     let s := recordLoop (passTested m 0) 0 (.add r3)
     let p := (s.th 0).pos
     let old := (sAdd.core 0).loop
     let t : State := { s with mem := {} }
     (match (t.core 0).loop with
      | some b => decide (b.hdr = blockAt p) && (b.recs.find? (fun r => r.at_ == parcelAt p)).any (fun r => r.w == 0x00190A01)
      | none => false) && old.isNone && fetchWord t 0 p == .ok 0x00190A01 && decide (readInstr t 0 p.pc ≠ .ok 0x00190A01)) = true := by
  decide +kernel

/-- The first step after reset with ADD placed runs it: s3 takes 0, the position goes on by two parcels. -/
theorem test_first_step :
    (match step sAdd with
     | .next t => (t.th 0).pos.pc == 0x100004 && t.sched == []
     | _ => false) = true := by decide +kernel

theorem witness_RoundTrip :
    ((Instr.add r3).wf && (encodeTollum (.add r3)).isSome && (Instr.seqEnd).wf && (encodeRecord .seqEnd).isSome &&
      (Instr.mzero mc).wf && (encodeCommand (.mzero mc)).isSome && (Instr.flcopy fp).wf && (encodePacket (.flcopy fp)).isSome) = true := by
  decide +kernel

theorem witness_DecodedWellFormed :
    ((decodeTollum 0x00190A01 0).isSome && (decodeRecord 0x0C).isSome && (decodeCommand 0x0000000000401FFF0000000021088302).isSome &&
      (decodePacket (0x00410504 : BitVec 512)).isSome) = true := by decide +kernel

theorem witness_StepKeepsMemory : sAdd.Inv ∧ goes (step sAdd) = true := by
  unfold State.Inv; decide +kernel

theorem witness_StepAlwaysGoes : sAdd.schedOk = true ∧ State.reset.schedOk = true := by decide +kernel

end Sys2Proof.Test
end

/-! ## Control registers: what a write makes each CSR read (R3, Tables 4-8 and 13-2) -/

namespace Sys2Proof.Machine
open Sys2Proof Sys2Proof.Ob

/-! ### Words by fields -/

/-- The field x at bit j of a register holds what a write of v makes of the field a, where the mask m has the bits that a write
sets (R3). -/
def FieldMerged {w : Nat} (m v : Word) (j : Nat) (a x : BitVec w) : Prop :=
  ∀ i (h : i < w), x[i] = if m.getLsbD (j + i) then v.getLsbD (j + i) else a[i]

theorem FieldMerged.append {w₁ w₂ : Nat} {m v : Word} {j : Nat} {a x : BitVec w₁} {b y : BitVec w₂}
    (hx : FieldMerged m v (j + w₂) a x) (hy : FieldMerged m v j b y) : FieldMerged m v j (a ++ b) (x ++ y) := by
  intro i hi
  by_cases h : i < w₂
  · simp [BitVec.getElem_append, h, hy i h]
  · have e : j + w₂ + (i - w₂) = j + i := by omega
    simp [BitVec.getElem_append, h, hx (i - w₂) (by omega), e]

/-- A field outside the mask keeps what it held. -/
theorem FieldMerged.kept {w : Nat} {m v : Word} {j : Nat} {a : BitVec w} (hm : m.extractLsb' j w = 0#w) :
    FieldMerged m v j a a := by
  intro i hi
  have h : m.getLsbD (j + i) = false := by simpa [hi] using congrArg (fun x => BitVec.getLsbD x i) hm
  simp [h]

/-- A field inside the mask takes the bits written to its place. -/
theorem FieldMerged.written {w : Nat} {m v : Word} {j : Nat} {a : BitVec w} (hm : m.extractLsb' j w = BitVec.allOnes w) :
    FieldMerged m v j a (v.extractLsb' j w) := by
  intro i hi
  have h : m.getLsbD (j + i) = true := by simpa [hi] using congrArg (fun x => BitVec.getLsbD x i) hm
  simp [h]

/-- A flag inside the mask takes the bit written to its place. -/
theorem FieldMerged.flag {m v : Word} {j : Nat} {a : BitVec 1} (hm : m.getLsbD j = true) :
    FieldMerged m v j a (BitVec.ofBool (v.getLsbD j)) := by
  intro i hi
  obtain rfl : i = 0 := by omega
  simp [hm]

/-- A word whose fields are merged is the old word outside the mask and the written one inside. -/
theorem FieldMerged.word {m v o x : Word} (h : FieldMerged m v 0 o x) : x = (o &&& ~~~m) ||| (v &&& m) := by
  ext i hi
  rw [h i hi]
  cases hm : m[i] <;> simp [hi, hm]

/-- A register with nothing outside the mask reads the written bits alone. -/
theorem FieldMerged.plain {m v z x : Word} (h : FieldMerged m v 0 z x) (hz : z = 0#64) : x = v &&& m := by
  rw [h.word, hz]; simp

/-- A field of the upper part of a word lies as much higher as the lower part is wide. -/
theorem extractLsb'_append_above {w₁ w₂ j k : Nat} {x : BitVec w₁} {y : BitVec w₂} {f : BitVec k}
    (h : x.extractLsb' j k = f) : (x ++ y).extractLsb' (j + w₂) k = f := by
  rw [BitVec.extractLsb'_append_eq_of_le (by omega), Nat.add_sub_cancel, h]

/-- A two-bit field shifted to its place fills that field and no other. -/
theorem extractLsb'_shiftLeft_field (f : BitVec 2) {b j : Nat} (hj : j < 32) :
    (f.zeroExtend 64 <<< (2 * j)).extractLsb' (2 * b) 2 = if b = j then f else 0#2 := by
  ext i hi
  obtain h | rfl | h := Nat.lt_trichotomy b j
  · have hlow : 2 * b + i < 2 * j := by omega
    simp [hlow, h.ne]
  · have hword : 2 * b + i < 64 := by omega
    simp [hword, BitVec.getLsbD_eq_getElem, hi]
  · have hhigh : f.getLsbD (2 * b + i - 2 * j) = false := BitVec.getLsbD_of_ge f _ (by omega)
    simp [hhigh, h.ne']

/-! ### The register words after a write -/

theorem low5_masked (v : Word) : 0#59 ++ v.extractLsb' 0 5 = v &&& 0x1F :=
  FieldMerged.plain (z := 0#59 ++ 0#5) (.append (.kept (by decide)) (.written (by decide))) (by decide)

theorem low8_masked (v : Word) : 0#56 ++ v.extractLsb' 0 8 = v &&& 0xFF :=
  FieldMerged.plain (z := 0#56 ++ 0#8) (.append (.kept (by decide)) (.written (by decide))) (by decide)

theorem low57_masked (v : Word) : 0#7 ++ v.extractLsb' 0 57 = v &&& 0x01FFFFFFFFFFFFFF :=
  FieldMerged.plain (z := 0#7 ++ 0#57) (.append (.kept (by decide)) (.written (by decide))) (by decide)

/-- ROT holds VB and PB, and nothing else (Table 4-5). -/
theorem rotWord_written (r : Csrs) (v : Word) :
    rotWord { r with vb := v.extractLsb' 0 5, pb := v.extractLsb' 8 4 } = v &&& 0xF1F :=
  FieldMerged.plain (z := 0#52 ++ 0#4 ++ 0#3 ++ 0#5)
    (.append (.append (.append (.kept (by decide)) (.written (by decide))) (.kept (by decide))) (.written (by decide)))
    (by decide)

/-- Of QSTAT a write sets the three SLIP fields (Table 4-1). -/
theorem qstatWord_written (t : Thread) (v : Word) :
    qstatWord { t with
      csr := { t.csr with slipL := v.extractLsb' 0 4, slipA := v.extractLsb' 4 4, slipS := v.extractLsb' 8 4 } } =
      (qstatWord t &&& ~~~(0xFFF : Word)) ||| (v &&& (0xFFF : Word)) :=
  FieldMerged.word
    (.append (.append (.append (.kept (by decide)) (.written (by decide))) (.written (by decide))) (.written (by decide)))

/-- Of ASSIST a write sets FTZ (Table 6-5). -/
theorem assistWord_written (r : Csrs) (v : Word) :
    assistWord { r with ftz := v.getLsbD 0 } = (assistWord r &&& ~~~(1 : Word)) ||| (v &&& (1 : Word)) :=
  FieldMerged.word (.append (.kept (by decide)) (.flag (by decide)))

/-- Of TSTAT a write sets RPTLEFT, MOVED, ROUTED and BOFF (Table 13-2). -/
theorem tstatWord_written (r : TrapRegs) (v : Word) :
    tstatWord { r with
      rptl := v.extractLsb' 53 11, moved := v.getLsbD 52, routed := v.getLsbD 49, boff := v.extractLsb' 0 10 } =
      (tstatWord r &&& ~~~(0xFFF20000000003FF : Word)) ||| (v &&& (0xFFF20000000003FF : Word)) :=
  FieldMerged.word (.append (.append (.append (.append (.append (.written (by decide)) (.flag (by decide)))
    (.kept (by decide))) (.flag (by decide))) (.kept (by decide))) (.written (by decide)))

/-- Setting MOVED sets bit 52 of TSTAT. -/
theorem tstatWord_moved (r : TrapRegs) : tstatWord { r with moved := true } = tstatWord r ||| (1 <<< 52 : Word) := by
  have h : FieldMerged (1 <<< 52) (1 <<< 52) 0 (tstatWord r) (tstatWord { r with moved := true }) :=
    .append (.append (.append (.append (.append (.kept (by decide)) (.flag (by decide))) (.kept (by decide)))
      (.kept (by decide))) (.kept (by decide))) (.kept (by decide))
  rw [h.word]
  ext i hi
  simp only [BitVec.getElem_or, BitVec.getElem_and, BitVec.getElem_not]
  cases (tstatWord r)[i] <;> cases (1 <<< 52 : Word)[i] <;> rfl

/-- Of QFSTAT a write sets ACT, whether or not it shows a fault (Table 13-3). -/
theorem qfstatWord_written (t : Thread) (v : Word) :
    qfstatWord { t with trap := { t.trap with act := v.extractLsb' 56 2 } } =
      (qfstatWord t &&& ~~~(3 <<< 56 : Word)) ||| (v &&& (3 <<< 56 : Word)) := by
  have hs : Thread.shown { t with trap := { t.trap with act := v.extractLsb' 56 2 } } = t.shown := rfl
  apply FieldMerged.word
  unfold qfstatWord
  rw [hs]
  cases t.shown with
  | none => exact .append (.append (.kept (by decide)) (.written (by decide))) (.kept (by decide))
  | some f =>
    exact .append (.append (.append (.append (.append (.kept (by decide)) (.kept (by decide))) (.written (by decide)))
      (.kept (by decide))) (.kept (by decide))) (.kept (by decide))

/-- R97 and Table 4-7: a masked write of VMODE, field by field. -/
theorem vmodeWrite_fields (old new : Word) (mask : BitVec 5) :
    (vmodeWrite old new mask).extractLsb' 0 4 =
      (if mask.getLsbD 0 ∧ (new.extractLsb' 0 4).toNat ≤ 10 then new.extractLsb' 0 4 else old.extractLsb' 0 4) ∧
    (vmodeWrite old new mask).extractLsb' 4 2 = (if mask.getLsbD 1 then new.extractLsb' 4 2 else old.extractLsb' 4 2) ∧
    (vmodeWrite old new mask).extractLsb' 8 5 =
      (if mask.getLsbD 2 ∧ (new.extractLsb' 8 5).toNat ≤ 23 then new.extractLsb' 8 5 else old.extractLsb' 8 5) ∧
    (vmodeWrite old new mask).extractLsb' 16 5 =
      (if mask.getLsbD 3 ∧ (new.extractLsb' 16 5).toNat ≤ 23 then new.extractLsb' 16 5 else old.extractLsb' 16 5) ∧
    (vmodeWrite old new mask).extractLsb' 24 1 = (if mask.getLsbD 4 then new.extractLsb' 24 1 else old.extractLsb' 24 1) := by
  have low {w₁ w₂ : Nat} {x : BitVec w₁} {y : BitVec w₂} : (x ++ y).extractLsb' 0 w₂ = y :=
    BitVec.extractLsb'_append_eq_right
  have up {w₁ w₂ j k : Nat} {x : BitVec w₁} {y : BitVec w₂} {f : BitVec k} := @extractLsb'_append_above w₁ w₂ j k x y f
  simp only [vmodeWrite, Bool.and_eq_true, decide_eq_true_eq]
  exact ⟨low, up low, up (up (up low)), up (up (up (up (up low)))), up (up (up (up (up (up (up low))))))⟩

theorem leaseWord_mpad (l : Lease) : (leaseWord l).extractLsb' 32 32 = l.mpad :=
  extractLsb'_append_above BitVec.extractLsb'_append_eq_left

theorem leaseWord_run (l : Lease) : (leaseWord l).extractLsb' 0 7 = l.run := BitVec.extractLsb'_append_eq_right

theorem parkstWord_depth (b : Banks) : (parkstWord b).extractLsb' 0 10 = b.depth := BitVec.extractLsb'_append_eq_right

theorem parkstWord_ptiles (b : Banks) : (parkstWord b).extractLsb' 32 2 = b.ptiles :=
  extractLsb'_append_above (extractLsb'_append_above (extractLsb'_append_above (extractLsb'_append_above
    BitVec.extractLsb'_append_eq_right)))

theorem parkWrite_roleP (b : Banks) (v : Word) : (parkWrite b v).roleP = b.roleP := by
  unfold parkWrite; dsimp only; split <;> rfl

theorem parkWrite_depth (b : Banks) (v : Word) : (parkWrite b v).depth = b.depth := by
  unfold parkWrite; dsimp only; split <;> rfl

theorem parkWrite_ptiles (b : Banks) (v : Word) :
    (parkWrite b v).ptiles =
      if 256 * popN 2 (v.extractLsb' 32 2).toNat < b.depth.toNat then b.ptiles else v.extractLsb' 32 2 := by
  unfold parkWrite; dsimp only; split <;> rfl

/-- The pending role of bank b after BANKROLE is written (R201). -/
def roleField (old new : Word) (b : Nat) : BitVec 2 :=
  if new.extractLsb' (2 * b) 2 = 3#2 then old.extractLsb' (2 * b) 2 else new.extractLsb' (2 * b) 2

/-- `roleWrite` puts the new roles of the j lowest banks over what the accumulator holds. -/
theorem roleWrite_field (old new : Word) (j : Nat) (acc : Word) (b : Nat) (hj : j ≤ 32) :
    (roleWrite old new j acc).extractLsb' (2 * b) 2 =
      acc.extractLsb' (2 * b) 2 ||| (if b < j then roleField old new b else 0#2) := by
  induction j generalizing acc with
  | zero => simp [roleWrite]
  | succ j ih =>
    have hstep : roleWrite old new (j + 1) acc =
      roleWrite old new j (acc ||| ((roleField old new j).zeroExtend 64 <<< (2 * j))) := rfl
    rw [hstep, ih _ (by omega), BitVec.extractLsb'_or, extractLsb'_shiftLeft_field _ (by omega), BitVec.or_assoc]
    congr 1
    obtain h | rfl | h := Nat.lt_trichotomy b j
    · have hb : b < j + 1 := by omega
      simp [h, hb, h.ne]
    · simp
    · have hb : ¬ b < j ∧ ¬ b < j + 1 := by omega
      simp [hb, h.ne']

/-! ### The other CSRs -/

/-- Every register that CSR m of a core shows is the same in k' as in k (Table 4-8). -/
structure CsrKept (m : Nat) (k k' : Core) : Prop where
  bind : k'.bind = k.bind := by rfl
  power : k'.power = k.power := by rfl
  job : k'.th.job = k.th.job := by rfl
  charge : k'.lease.charge = k.lease.charge := by rfl
  toggle : k'.lease.last = k.lease.last := by rfl
  vmode : m = 0x010 → k'.th.csr.vmode = k.th.csr.vmode := by intro _; rfl
  rot : m = 0x011 → rotWord k'.th.csr = rotWord k.th.csr := by intro _; rfl
  trips : m = 0x012 → k'.th.csr.trips = k.th.csr.trips := by intro _; rfl
  drain : m = 0x013 → k'.th.csr.drain = k.th.csr.drain := by intro _; rfl
  qstat : m = 0x020 → qstatWord k'.th = qstatWord k.th := by intro _; rfl
  qfstat : m = 0x021 → qfstatWord k'.th = qfstatWord k.th := by intro _; rfl
  bankrole : m = 0x060 → k'.banks.roleP = k.banks.roleP := by intro _; rfl
  parkst : m = 0x062 → parkstWord k'.banks = parkstWord k.banks := by intro _; rfl
  assist : m = 0x070 → assistWord k'.th.csr = assistWord k.th.csr := by intro _; rfl
  fstat : m = 0x071 → k'.th.csr.fstat = k.th.csr.fstat := by intro _; rfl
  tcause : m = 0x080 → k'.th.trap.cause = k.th.trap.cause := by intro _; rfl
  tpc : m = 0x081 → k'.th.trap.tpc = k.th.trap.tpc := by intro _; rfl
  tval : m = 0x082 → k'.th.trap.tval = k.th.trap.tval := by intro _; rfl
  tstat : m = 0x083 → tstatWord k'.th.trap = tstatWord k.th.trap := by intro _; rfl
  tvec : m = 0x084 → k'.tvec = k.tvec := by intro _; rfl
  leasecfg : m = 0x090 → leaseWord k'.lease = leaseWord k.lease := by intro _; rfl

/-- A CSR reads the same after its core is written, where the registers it shows are the same. -/
theorem readCsr_setCore {s : State} {c m : Nat} {k : Core} (h : CsrKept m (s.core c) k) :
    readCsr (s.setCore c k) c m = readCsr s c m := by
  have hctx : (s.setCore c k).ctxOf c = s.ctxOf c := by unfold State.ctxOf; rw [State.setCore_core_self, h.bind]
  have hcharge : chargeNow (s.setCore c k) c = chargeNow s c := by
    unfold chargeNow dueHalvings
    simp only [State.setCore_core_self, State.setCore_at_die, State.setCore_at_array, h.charge]
  unfold readCsr
  simp only [State.setCore_core_self, State.setCore_at_ctx, State.setCore_at_die, hctx, hcharge, h.bind, h.power, h.job,
    h.toggle]
  split
  · rfl
  · split
    · rfl
    · split <;> simp only [h.vmode, h.rot, h.trips, h.drain, h.qstat, h.qfstat, h.bankrole, h.parkst, h.assist, h.fstat,
        h.tcause, h.tpc, h.tval, h.tstat, h.tvec, h.leasecfg]

/-- A write of a Weir register of the core's context changes no other CSR. -/
theorem readCsr_setCtx_weir (s : State) (c : Nat) {i m : Nat} (w : Word) (hm : m ≠ 0x0B0 + i) :
    readCsr (s.setCtx (s.ctxOf c)
      { s.ctx (s.ctxOf c) with weir := (s.ctx (s.ctxOf c)).weir.setIfInBounds i w }) c m = readCsr s c m := by
  unfold readCsr
  simp only [State.setCtx_at_core, State.setCtx_at_ctxOf, State.setCtx_ctx_self]
  split
  · rfl
  · split
    · have hi : i ≠ m - 0x0B0 := by omega
      simp [List.getD_eq_getElem?_getD, hi]
    · rfl

/-- A write of one CSR changes no other, but TPC's changes TSTAT (R290). -/
theorem readCsr_writeCsr_ne (s : State) (c : Nat) (v : Word) {n m : Nat} (hne : m ≠ n) (htpc : ¬ (n = 0x081 ∧ m = 0x083)) :
    readCsr (writeCsr s c n v) c m = readCsr s c m := by
  unfold writeCsr
  dsimp only
  split
  · exact readCsr_setCtx_weir s c _ (by omega)
  · split
    · exact readCsr_setCore { vmode := (absurd · hne) }
    · exact readCsr_setCore { rot := (absurd · hne) }
    · exact readCsr_setCore { trips := (absurd · hne) }
    · exact readCsr_setCore { drain := (absurd · hne) }
    · exact readCsr_setCore { qstat := (absurd · hne) }
    · split
      · exact readCsr_setCore { qfstat := (absurd · hne) }
      · rfl
    · exact readCsr_setCore { bankrole := (absurd · hne) }
    · exact readCsr_setCore { parkst := (absurd · hne), bankrole := fun _ => parkWrite_roleP _ v }
    · exact readCsr_setCore { assist := (absurd · hne) }
    · exact readCsr_setCore { fstat := (absurd · hne) }
    · exact readCsr_setCore { tcause := (absurd · hne) }
    · exact readCsr_setCore { tpc := (absurd · hne), tstat := fun h => absurd ⟨rfl, h⟩ htpc }
    · exact readCsr_setCore { tval := (absurd · hne) }
    · exact readCsr_setCore { tstat := (absurd · hne) }
    · exact readCsr_setCore { tvec := (absurd · hne) }
    · exact readCsr_setCore { leasecfg := (absurd · hne) }
    · rfl

@[simp] theorem writeCsr_mem (s : State) (c n : Nat) (v : Word) : (writeCsr s c n v).mem = s.mem := by
  unfold writeCsr
  dsimp only
  split
  · rfl
  · split
    case h_6 => split <;> rfl
    all_goals rfl

/-! ### The CSR written -/

/-- The CSRs that are read-only as a whole (Table 4-8). -/
def readOnlyCsrs : List Nat :=
  [0x001, 0x030, 0x031, 0x032, 0x033, 0x034, 0x035, 0x040, 0x041, 0x042, 0x050, 0x061, 0x091, 0x092, 0x0A0, 0x0A1]

theorem writeCsr_readOnly (s : State) (c : Nat) (v : Word) {n : Nat} (hn : n ∈ readOnlyCsrs) : writeCsr s c n v = s := by
  fin_cases hn <;> rfl

/-- TRIPS, DRAIN and TVAL hold all 64 bits. -/
theorem readCsr_writeCsr_full (s : State) (c : Nat) (v : Word) {n : Nat} (hn : n ∈ [0x012, 0x013, 0x082]) :
    readCsr (writeCsr s c n v) c n = some v := by
  fin_cases hn <;> simp [readCsr, writeCsr]

/-- TPC and TVEC hold an address of 57 bits. -/
theorem readCsr_writeCsr_addr (s : State) (c : Nat) (v : Word) {n : Nat} (hn : n ∈ [0x081, 0x084]) :
    readCsr (writeCsr s c n v) c n = some (v &&& 0x01FFFFFFFFFFFFFF) := by
  fin_cases hn <;> simp [readCsr, writeCsr, low57_masked]

theorem readCsr_writeCsr_weir (s : State) (c : Nat) (v : Word) {i : Nat} (hi : i < 6) :
    readCsr (writeCsr s c (0x0B0 + i) v) c (0x0B0 + i) = some (weirValue i v) := by
  have hstep : ¬ 0x0B0 + i ≤ 0x035 := by omega
  have hweir : 0x0B0 + i ≤ 0x0B5 := by omega
  simp [readCsr, writeCsr, hstep, hweir, hi, List.getD_eq_getElem?_getD]

theorem readCsr_writeCsr_plain (s : State) (c : Nat) (v : Word) {p : Nat × Word} (hp : p ∈ plainCsrs) :
    readCsr (writeCsr s c p.1 v) c p.1 = some (v &&& p.2) := by
  have hcases : ∀ p ∈ plainCsrs, p = (0x011, 0xF1F) ∨ p = (0x071, 0x1F) ∨ p = (0x080, 0xFF) ∨
      (p.1 ∈ [0x012, 0x013, 0x082] ∧ p.2 = BitVec.allOnes 64) ∨ (p.1 ∈ [0x081, 0x084] ∧ p.2 = 0x01FFFFFFFFFFFFFF) ∨
      ∃ i < 6, p = (0x0B0 + i, if i = 4 then 7 else 0xFFFFFFFF) := by decide
  obtain rfl | rfl | rfl | ⟨hn, hmask⟩ | ⟨hn, hmask⟩ | ⟨i, hi, rfl⟩ := hcases p hp
  · simp [readCsr, writeCsr, rotWord_written]
  · simp [readCsr, writeCsr, low5_masked]
  · simp [readCsr, writeCsr, low8_masked]
  · rw [readCsr_writeCsr_full s c v hn, hmask, BitVec.and_allOnes]
  · rw [readCsr_writeCsr_addr s c v hn, hmask]
  · rw [readCsr_writeCsr_weir s c v hi]
    unfold weirValue
    split <;> rfl

theorem readCsr_writeCsr_mixed (s : State) (c : Nat) (v o : Word) {p : Nat × Word} (hp : p ∈ mixedCsrs)
    (ho : readCsr s c p.1 = some o) : readCsr (writeCsr s c p.1 v) c p.1 = some ((o &&& ~~~p.2) ||| (v &&& p.2)) := by
  have hcases : ∀ p ∈ mixedCsrs, (p.1 ∈ readOnlyCsrs ∧ p.2 = 0#64) ∨ p = (0x020, 0xFFF) ∨ p = (0x070, 1) ∨
      p = (0x083, 0xFFF20000000003FF) := by decide
  obtain ⟨hro, hmask⟩ | rfl | rfl | rfl := hcases p hp
  · rw [writeCsr_readOnly s c v hro, ho, hmask, BitVec.not_zero, BitVec.and_allOnes, BitVec.and_zero, BitVec.or_zero]
  · obtain rfl : qstatWord (s.th c) = o := Option.some.inj ho
    rw [← qstatWord_written]; simp [readCsr, writeCsr, State.th]
  · obtain rfl : assistWord (s.th c).csr = o := Option.some.inj ho
    rw [← assistWord_written]; simp [readCsr, writeCsr, State.th]
  · obtain rfl : tstatWord (s.th c).trap = o := Option.some.inj ho
    rw [← tstatWord_written]; simp [readCsr, writeCsr, State.th]

/-- R290: a write of TPC sets TSTAT.MOVED. -/
theorem readCsr_writeCsr_tpc_tstat (s : State) (c : Nat) (v o : Word) (ho : readCsr s c 0x083 = some o) :
    readCsr (writeCsr s c 0x081 v) c 0x083 = some (o ||| (1 <<< 52 : Word)) := by
  obtain rfl : tstatWord (s.th c).trap = o := Option.some.inj ho
  rw [← tstatWord_moved]; simp [readCsr, writeCsr, State.th, tstatWord]

/-! ### The CSRs with values that a field does not take -/

theorem heldField_vmode (h : Bool) (v o : Word) : heldField 0x010 h v o (vmodeWrite o v 0x1F) := by
  simpa [heldField] using vmodeWrite_fields o v 0x1F

theorem heldField_bankrole (h : Bool) (v o : Word) : heldField 0x060 h v o (roleWrite o v 32 0) := by
  intro b hb
  have hzero : (0 : Word).extractLsb' (2 * b) 2 = 0#2 := BitVec.extractLsb'_zero
  rw [roleWrite_field o v 32 0 b le_rfl, if_pos hb, hzero, BitVec.zero_or]
  rfl

theorem heldField_parkst (h : Bool) (v : Word) (b : Banks) :
    heldField 0x062 h v (parkstWord b) (parkstWord (parkWrite b v)) :=
  ⟨by rw [parkstWord_depth, parkstWord_depth, parkWrite_depth],
    by rw [parkstWord_ptiles, parkstWord_ptiles, parkstWord_depth, parkWrite_ptiles]⟩

theorem heldField_leasecfg (h : Bool) (v : Word) (l : Lease) :
    heldField 0x090 h v (leaseWord l) (leaseWord (leaseWrite l v)) :=
  ⟨leaseWord_mpad _, by rw [leaseWord_run, leaseWord_run]; rfl⟩

/-- QFSTAT.ACT is written in H mode only. -/
theorem heldField_qfstat (t : Thread) (v : Word) :
    heldField 0x021 (t.pos.mode == .h) v (qfstatWord t)
      (qfstatWord (if t.pos.mode = .h then { t with trap := { t.trap with act := v.extractLsb' 56 2 } } else t)) := by
  by_cases hm : t.pos.mode = .h
  · rw [if_pos hm, qfstatWord_written]; simp [heldField, hm]
  · rw [if_neg hm]; simp [heldField, hm]

theorem readCsr_writeCsr_qfstat (s : State) (c : Nat) (v : Word) :
    readCsr (writeCsr s c 0x021 v) c 0x021 = some (qfstatWord (if (s.th c).pos.mode = .h then
      { s.th c with trap := { (s.th c).trap with act := v.extractLsb' 56 2 } } else s.th c)) := by
  by_cases hm : (s.core c).th.pos.mode = .h <;> simp [readCsr, writeCsr, State.th, hm]

theorem readCsr_writeCsr_held (s : State) (c : Nat) (v o : Word) {n : Nat}
    (hn : n ∈ ([0x010, 0x021, 0x060, 0x062, 0x090] : List Nat)) (ho : readCsr s c n = some o) :
    ∃ x, readCsr (writeCsr s c n v) c n = some x ∧ heldField n ((s.th c).pos.mode == .h) v o x := by
  simp only [List.mem_cons, List.not_mem_nil, or_false] at hn
  obtain rfl | rfl | rfl | rfl | rfl := hn
  · obtain rfl : (s.th c).csr.vmode = o := Option.some.inj ho
    exact ⟨_, by simp [readCsr, writeCsr, State.th], heldField_vmode _ v _⟩
  · obtain rfl : qfstatWord (s.th c) = o := Option.some.inj ho
    exact ⟨_, readCsr_writeCsr_qfstat s c v, heldField_qfstat (s.th c) v⟩
  · obtain rfl : (s.core c).banks.roleP = o := Option.some.inj ho
    exact ⟨_, by simp [readCsr, writeCsr], heldField_bankrole _ v _⟩
  · obtain rfl : parkstWord (s.core c).banks = o := Option.some.inj ho
    exact ⟨_, by simp [readCsr, writeCsr], heldField_parkst _ v _⟩
  · obtain rfl : leaseWord (s.core c).lease = o := Option.some.inj ho
    exact ⟨_, by simp [readCsr, writeCsr], heldField_leasecfg _ v _⟩

/-- Settles O10: the words of each CSR by fields, and the registers that each CSR shows. -/
theorem csrReadBack : Obligations.CsrReadBack :=
  ⟨fun _ hp c s v => readCsr_writeCsr_plain s c v hp,
    fun _ hp c s v o ho => readCsr_writeCsr_mixed s c v o hp ho,
    fun _ hn c s v o ho => readCsr_writeCsr_held s c v o hn ho,
    fun _ _ c s v hne htpc => readCsr_writeCsr_ne s c v hne htpc,
    fun c s v o ho => readCsr_writeCsr_tpc_tstat s c v o ho,
    fun n c s v => writeCsr_mem s c n v⟩

end Sys2Proof.Machine

/-! ## Power, clocks, sensors, soft errors and ports (R14 to R21, R274 to R287, R304) -/

namespace Sys2Proof.Machine
open Sys2Proof Sys2Proof.Ob

/-! ### Folds that keep a part of the state -/

/-- What every step of a fold leaves alone, the fold leaves alone. -/
theorem foldl_keeps {β γ : Type} (g : State → γ) {f : State → β → State} (hf : ∀ s x, g (f s x) = g s) (xs : List β)
    (s : State) : g (xs.foldl f s) = g s := by
  induction xs generalizing s with
  | nil => rfl
  | cons x xs ih => exact (ih (f s x)).trans (hf s x)

/-! ### Local budgets (R15) -/

/-- Figures cut to a maximum do not exceed it together. -/
theorem sum_capSum_le (cap : Nat) (xs : List Nat) : (capSum cap xs).sum ≤ cap := by
  induction xs generalizing cap with
  | nil => exact Nat.zero_le cap
  | cons x xs ih =>
    have hrest := ih (cap - x)
    have hfirst : Nat.min x cap = min x cap := rfl
    simp only [capSum, List.sum_cons, hfirst]
    omega

/-- R15: the budgets of a compute stack stay within its 160 W. -/
theorem stack_within (d : Nat) : (Config.stack d).foldl (· + ·) 0 ≤ 160000 := by
  rw [← List.sum_eq_foldl_nat]
  exact sum_capSum_le _ _

/-! ### What a loop lowers a clock to (R15) -/

theorem lowerPoint_bounds (v : Nat) {low mhz : Nat} (h : low < mhz) :
    low ≤ lowerPoint v low mhz ∧ lowerPoint v low mhz < mhz := by
  have hmod : v % (mhz - low) < mhz - low := Nat.mod_lt _ (by omega)
  rw [lowerPoint, if_neg (by omega)]
  omega

/-- A loop sets the clock asked for where that lowers it, or where its block draws no more than its budget. -/
theorem loopPoint_asked {v low cur budget : Nat} {x : ClockSet} (h : x.mhz < cur ∨ x.draw ≤ budget) :
    loopPoint v low cur budget x = x.mhz := if_neg (by omega)

/-- The loop of a block above its budget lowers its clock, down to its lowest point at most. -/
theorem loopPoint_lowers {v low cur budget : Nat} {x : ClockSet} (hover : budget < x.draw) (hcur : low < cur)
    (hlow : low ≤ x.mhz) : loopPoint v low cur budget x < cur ∧ low ≤ loopPoint v low cur budget x := by
  by_cases h : cur ≤ x.mhz
  · rw [loopPoint, if_pos ⟨hover, h⟩]
    exact (lowerPoint_bounds v hcur).symm
  · rw [loopPoint_asked (by omega)]
    omega

/-! ### HEADROOM (R16) -/

/-- A core's readings at a refresh that finds its column up, and its loop where the core is above its budget or above 105 °C. -/
def refreshPower (s : State) (c draw fmax : Nat) : Power :=
  let p := refreshed { (s.core c).power with headAt := gtimeOf s c } (Config.budget c) draw fmax
  if (Config.budget c).toNat < draw || hot s c then throttled p (Config.freeWord s.fresh).toNat (hot s c) else p

/-- 10 µs after the last one, a refresh changes the power record of its core and takes a free value. -/
theorem exec_headroomRefresh_due {s : State} {c : Nat} (draw fmax : Nat) (hc : c < 512)
    (hdue : (s.core c).power.headAt.toNat + 10000 ≤ (gtimeOf s c).toNat) (hup : columnDown s c = false) :
    exec (.headroomRefresh c draw fmax) s =
      .next (s.tick.2.setCore c { s.core c with power := refreshPower s c draw fmax }) := by
  have hearly : ¬ (512 ≤ c ∨ (gtimeOf s c).toNat < (s.core c).power.headAt.toNat + 10000) := by omega
  change execHeadroomRefresh c draw fmax s = _
  simp only [execHeadroomRefresh, hearly, hup, if_false, Bool.false_eq_true]
  rfl

theorem exec_headroomRefresh_early {s : State} {c : Nat} (draw fmax : Nat)
    (h : (gtimeOf s c).toNat < (s.core c).power.headAt.toNat + 10000) : exec (.headroomRefresh c draw fmax) s = .next s :=
  if_pos (Or.inr h)

/-- Within its budget and not hot, a core shows its readings and keeps its clock. -/
theorem refreshPower_within {s : State} {c draw : Nat} (fmax : Nat) (hhot : hot s c = false)
    (hdraw : draw ≤ (Config.budget c).toNat) : refreshPower s c draw fmax =
      refreshed { (s.core c).power with headAt := gtimeOf s c } (Config.budget c) draw fmax := by
  simp [refreshPower, hhot, hdraw]

/-- Above its budget or hot, a core whose clock is not changing starts a change to a lower one. -/
theorem refreshPower_above {s : State} {c draw : Nat} (fmax : Nat) (h : (Config.budget c).toNat < draw ∨ hot s c = true)
    (hchange : (s.core c).power.change = none) : (refreshPower s c draw fmax).change =
      some (lowerPoint (Config.freeWord s.fresh).toNat 600 (s.core c).power.mhz) := by
  simp [refreshPower, h, throttled, refreshed, hchange]

/-- The class of HEADROOM counts its steps of 64 mW, up to 15. -/
theorem refreshed_cls (p : Power) (budget : BitVec 16) (draw fmax : Nat) :
    (refreshed p budget draw fmax).cls.toNat = Nat.min 15 ((budget.toNat - draw) / 64) := by
  have hle : Nat.min 15 ((budget.toNat - draw) / 64) ≤ 15 := Nat.min_le_left _ _
  simp only [refreshed, BitVec.toNat_ofNat]
  omega

/-- FMAX shows a clock in the range of a core's fast layer as it is. -/
theorem refreshed_fmax (p : Power) (budget : BitVec 16) (draw : Nat) {fmax : Nat} (hlow : 600 ≤ fmax) (htop : fmax ≤ 2100) :
    (refreshed p budget draw fmax).fmax.toNat = fmax := by
  have hmin : Nat.min 2100 fmax = fmax := Nat.min_eq_right htop
  have hmax : Nat.max 600 fmax = fmax := Nat.max_eq_right hlow
  simp only [refreshed, BitVec.toNat_ofNat, hmin, hmax]
  omega

/-! ### Clocks of cores and arrays (R14) -/

/-- A change is refused above the clock that runs where the core is above its budget, hot, or held by FMAX. -/
theorem exec_clockChange_core_refused {s : State} {c : Nat} {x : ClockSet} (hup : (s.core c).power.mhz < x.mhz)
    (h : (Config.budget c).toNat < x.draw ∨ hot s c = true ∨ (s.core c).power.fmax.toNat < x.mhz) :
    exec (.clockChange (.core c) x) s = .next s := by
  change execClockChange (.core c) x s = _
  have hmay : (decide (x.mhz ≤ (s.core c).power.mhz) ||
      (decide (x.draw ≤ (Config.budget c).toNat) && !hot s c && decide (x.mhz ≤ (s.core c).power.fmax.toNat))) = false := by
    obtain h | h | h := h <;> simp [h, hup]
  simp [execClockChange, hmay]

theorem exec_clockChange_core {s : State} {c : Nat} {x : ClockSet} (hc : c < 512) (hlow : 600 ≤ x.mhz) (htop : x.mhz ≤ 2100)
    (hchange : (s.core c).power.change = none) (hup : columnDown s c = false)
    (hmay : x.mhz ≤ (s.core c).power.mhz ∨
      (x.draw ≤ (Config.budget c).toNat ∧ hot s c = false ∧ x.mhz ≤ (s.core c).power.fmax.toNat)) :
    exec (.clockChange (.core c) x) s =
      .next (s.setCore c { s.core c with power := { (s.core c).power with change := some x.mhz } }) := by
  change execClockChange (.core c) x s = _
  have hmay' : (decide (x.mhz ≤ (s.core c).power.mhz) ||
      (decide (x.draw ≤ (Config.budget c).toNat) && !hot s c && decide (x.mhz ≤ (s.core c).power.fmax.toNat))) = true := by
    obtain h | ⟨hdraw, hhot, hfmax⟩ := hmay
    · simp [h]
    · simp [hdraw, hhot, hfmax]
  simp [execClockChange, hmay', inRange, hlow, htop, hchange, hup, Nat.not_le.mpr hc]

theorem exec_clockChangeDone_core {s : State} {c mhz : Nat} (h : (s.core c).power.change = some mhz) :
    exec (.clockChangeDone (.core c)) s =
      .next (s.setCore c { s.core c with power := { (s.core c).power with mhz := mhz, change := none } }) := by
  change execClockChangeDone (.core c) s = _
  simp [execClockChangeDone, h]

/-- An array's loop starts a change to its loop point. -/
theorem exec_clockChange_array {s : State} {d n : Nat} {x : ClockSet} (hd : d < 8) (hn : n < 16) (hlow : 600 ≤ x.mhz)
    (htop : x.mhz ≤ 2100) (hchange : (s.array (d * 16 + n)).change = none) (hup : arrayDown s (d * 16 + n) = false) :
    exec (.clockChange (.array d n) x) s = .next (s.tick.2.setArray (d * 16 + n) { s.array (d * 16 + n) with
      change := some (loopPoint (Config.freeWord s.fresh).toNat 600 (s.array (d * 16 + n)).mhz
        (Config.arrayBudget (d * 16 + n)) x) }) := by
  change execClockChange (.array d n) x s = _
  simp [execClockChange, inRange, hlow, htop, hchange, hup, Nat.not_le.mpr hd, Nat.not_le.mpr hn, State.tick]

/-- The change that an array's loop starts lowers the array's clock where the array is above its budget. -/
theorem exec_clockChange_array_lowers {s : State} {d n : Nat} {x : ClockSet} (hd : d < 8) (hn : n < 16) (hlow : 600 ≤ x.mhz)
    (htop : x.mhz ≤ 2100) (hchange : (s.array (d * 16 + n)).change = none) (hup : arrayDown s (d * 16 + n) = false) :
    ∃ t m, exec (.clockChange (.array d n) x) s = .next t ∧ (t.array (d * 16 + n)).change = some m ∧ t.mem = s.mem ∧
      t.cores = s.cores ∧
      ((x.mhz < (s.array (d * 16 + n)).mhz ∨ x.draw ≤ Config.arrayBudget (d * 16 + n)) → m = x.mhz) ∧
      (Config.arrayBudget (d * 16 + n) < x.draw → 600 < (s.array (d * 16 + n)).mhz →
        m < (s.array (d * 16 + n)).mhz ∧ 600 ≤ m) :=
  ⟨_, _, exec_clockChange_array hd hn hlow htop hchange hup, by rw [State.setArray_array_self], rfl, rfl, loopPoint_asked,
    fun hover hcur => loopPoint_lowers hover hcur hlow⟩

/-! ### Clocks of memory and I/O dies (R14, R15) -/

/-- The loop of a memory or an I/O die, no sensor of which has failed, starts a change to its loop point. -/
theorem dieClock_starts {s : State} {die top : Nat} {x : ClockSet} (hlow : lowPoint die ≤ x.mhz) (htop : x.mhz ≤ top)
    (hchange : (s.die die).change = none) (hup : (s.die die).sensors.any (fun y => y.inForce) = false) :
    dieClock s die top x = s.tick.2.setDie die { s.die die with
      change := some (loopPoint (Config.freeWord s.fresh).toNat (lowPoint die) (s.die die).mhz (Config.dieBudget die) x) } := by
  have hrange : ¬ (x.mhz < lowPoint die ∨ top < x.mhz ∨ (s.die die).change.isSome = true ∨
      (s.die die).sensors.any (fun y => y.inForce) = true) := by
    simp only [hchange, hup, Option.isSome_none, Bool.false_eq_true, or_false]
    omega
  simp only [dieClock, if_neg hrange]
  rfl

theorem exec_clockChange_mem {s : State} {i : Nat} (hi : i < 8) (x : ClockSet) :
    exec (.clockChange (.mem i) x) s = .next (dieClock s (8 + i) 1600 x) := if_neg (by omega)

/-- An I/O die's clock leaves 1.0 GHz only while the die draws more than its budget. -/
theorem exec_clockChange_io {s : State} {i : Nat} {x : ClockSet} (hi : i < 2)
    (h : Config.dieBudget (16 + i) < x.draw ∨ x.mhz = 1000) :
    exec (.clockChange (.io i) x) s = .next (dieClock s (16 + i) 1000 x) := if_neg (by omega)

/-- An event that has the loop of a die start a change lowers the die's clock where the die is above its budget. -/
theorem dieClock_lowers {s : State} {ev : Instr} {die top : Nat} {x : ClockSet}
    (hexec : exec ev s = .next (dieClock s die top x)) (hlow : lowPoint die ≤ x.mhz) (htop : x.mhz ≤ top)
    (hchange : (s.die die).change = none) (hup : (s.die die).sensors.any (fun y => y.inForce) = false) :
    ∃ t m, exec ev s = .next t ∧ (t.die die).change = some m ∧ t.mem = s.mem ∧ t.cores = s.cores ∧
      ((x.mhz < (s.die die).mhz ∨ x.draw ≤ Config.dieBudget die) → m = x.mhz) ∧
      (Config.dieBudget die < x.draw → lowPoint die < (s.die die).mhz → m < (s.die die).mhz ∧ lowPoint die ≤ m) := by
  rw [dieClock_starts hlow htop hchange hup] at hexec
  exact ⟨_, _, hexec, by rw [State.setDie_die_self], rfl, rfl, loopPoint_asked,
    fun hover hcur => loopPoint_lowers hover hcur hlow⟩

/-! ### Sensors (R19, R21) -/

@[simp] theorem logEv_mem (s : State) (name : String) (args : List Nat) : (logEv s name args).mem = s.mem := rfl
@[simp] theorem logEv_at_die (s : State) (name : String) (args : List Nat) (d : Nat) :
    (logEv s name args).die d = s.die d := rfl

/-- A failure that comes into force writes its die, whose time it leaves, and cores and arrays (R21). -/
theorem bringDown_keeps {γ : Type} (g : State → γ) {s : State} {die : Nat}
    (hdie : ∀ x : Die, x.time = (s.die die).time → g (s.setDie die x) = g s) (hcore : ∀ s c k, g (State.setCore s c k) = g s)
    (harray : ∀ s a x, g (State.setArray s a x) = g s) : g (bringDown s die) = g s := by
  simp only [bringDown]
  split
  · rfl
  · split
    · exact hdie _ rfl
    · refine ((foldl_keeps g ?arrays _ _).trans (foldl_keeps g ?cores _ _)).trans (hdie _ rfl)
      case arrays => exact fun _ _ => harray _ _ _
      case cores => exact fun _ _ => hcore _ _ _

@[simp] theorem bringDown_mem (s : State) (die : Nat) : (bringDown s die).mem = s.mem :=
  bringDown_keeps State.mem (fun _ _ => rfl) (fun _ _ _ => rfl) (fun _ _ _ => rfl)

@[simp] theorem bringDown_time (s : State) (die : Nat) : ((bringDown s die).die die).time = (s.die die).time :=
  bringDown_keeps (fun t => (t.die die).time) (fun x hx => (congrArg Die.time (State.setDie_die_self s die x)).trans hx)
    (fun _ _ _ => rfl) (fun _ _ _ => rfl)

/-- A sample 1 ms on keeps its period from the die's time, and changes no memory. -/
theorem exec_sensorSample {s : State} {d : Nat} {temps : List Int} {powers : List Nat} (hd : d < 18)
    (htemps : temps.length = (s.die d).sensors.length) (hpowers : powers.length = (s.die d).sensors.length)
    (hdue : (s.die d).sampleAt.toNat + 1000000 ≤ (s.die d).time.gtime.toNat) :
    ∃ t, exec (.sensorSample d temps powers) s = .next t ∧ (t.die d).sampleAt = (s.die d).time.gtime ∧ t.mem = s.mem := by
  have hgo : ¬ (dieCount ≤ d ∨ (s.die d).time.gtime.toNat < (s.die d).sampleAt.toNat + 1000000 ∨
      temps.length ≠ (s.die d).sensors.length ∨ powers.length ≠ (s.die d).sensors.length) := by
    simp only [dieCount, htemps, hpowers, ne_eq, not_true_eq_false, or_false]
    omega
  refine ⟨_, if_neg hgo, ?_, ?_⟩
  · refine (congrArg Die.sampleAt (foldl_keeps (fun t => t.die d) (fun _ _ => by rfl) _ _)).trans ?_
    simp
  · refine (foldl_keeps State.mem (fun _ _ => by rfl) _ _).trans ?_
    simp

/-! ### Soft errors and scrubbing (R304) -/

theorem exec_hbmScrub_due {s : State} {d : Nat} (hlow : 8 ≤ d) (htop : d < 16)
    (hdue : (s.die d).scrubAt.toNat + 86400000000000 ≤ (s.die d).time.gtime.toNat) :
    exec (.hbmScrub d) s = .next (s.setDie d { s.die d with scrubAt := (s.die d).time.gtime }) := if_neg (by omega)

theorem exec_eccCorrected {s : State} {d : Nat} (hd : d < 18) :
    exec (.eccCorrected d) s = .next (s.setDie d { s.die d with ce := sat32 (s.die d).ce }) :=
  congrArg Host.Outcome.next (if_neg (Nat.not_le.mpr hd))

/-- An uncorrectable error in a byte that has an address is counted on its die and poisons the bytes of its line. -/
theorem exec_eccUncorrectable_mem {s : State} {d key : Nat} (hd : d < 18) (hkey : key < 2 ^ 56) (hat : eccAt s d key = true) :
    exec (.eccUncorrectable d key) s = .next { s.setDie d { s.die d with ue := sat32 (s.die d).ue } with
      mem := { s.mem with poison := (poisonKeys key).filter (fun k => !s.mem.poison.contains k) ++ s.mem.poison } } := by
  have hgo : ¬ (dieCount ≤ d ∨ (!eccAt s d key) = true) := by
    simp [hat, dieCount, hd]
  have hrecord : ¬ 2 ^ 130 ≤ key := by omega
  have hreg : ¬ 2 ^ 125 ≤ key := by omega
  change execEccUncorrectable d key s = _
  simp only [execEccUncorrectable, if_neg hgo, if_neg hrecord, if_neg hreg]
  rfl

/-- An error at an address poisons all 128 bytes of its line. -/
theorem mem_poisonKeys {key j : Nat} (hkey : key < 2 ^ 56) (hline : j / 128 = key / 128) : j ∈ poisonKeys key := by
  have hlow : ¬ (2 ^ 120 ≤ key ∧ key < 2 ^ 125) := by omega
  have hspad : ¬ (2 ^ 57 ≤ key ∧ key < 2 ^ 58) := by omega
  simp only [poisonKeys, if_neg hlow, if_neg hspad, List.mem_map, List.mem_range]
  exact ⟨j % 128, by omega, by omega⟩

/-- Poisoned keys are listed, whether or not they were before. -/
theorem mem_filter_append_of_mem {k : Nat} {ks ps : List Nat} (h : k ∈ ks) :
    k ∈ ks.filter (fun x => !ps.contains x) ++ ps := by
  by_cases hp : k ∈ ps <;> simp [h, hp]

/-! ### Ports (R274, R279, R287) -/

theorem setPort_ports_self (s : State) (p : Port) (x : PortSt) : (setPort s p x).mgmt.ports.get (portIdx p) = x := by
  simp [setPort, setMgmt, Vector.get_eq_getElem]

@[simp] theorem setPort_portUp_self (s : State) (p : Port) (x : PortSt) : (setPort s p x).portUp p = x.up :=
  congrArg PortSt.up (setPort_ports_self s p x)

@[simp] theorem setPort_mem (s : State) (p : Port) (x : PortSt) : (setPort s p x).mem = s.mem := rfl

@[simp] theorem setPort_owner (s : State) (p : Port) (x : PortSt) : (setPort s p x).mgmt.owner = s.mgmt.owner := rfl
@[simp] theorem setPort_at_th (s : State) (p : Port) (x : PortSt) (c : Nat) : (setPort s p x).th c = s.th c := rfl

@[simp] theorem setExpander_mgmt (s : State) (p : Port) (x : Expander) : (setExpander s p x).mgmt = s.mgmt := by
  cases p <;> rfl

@[simp] theorem setExpander_portUp (s : State) (p q : Port) (x : Expander) : (setExpander s p x).portUp q = s.portUp q := by
  simp [State.portUp]

/-- An expander that fails is the one of its port. -/
theorem setExpander_c (s : State) (x : Expander) : (setExpander s .c x).mem.exps.get 0 = x := by
  simp [setExpander, Vector.get_eq_getElem]

theorem setExpander_d (s : State) (x : Expander) : (setExpander s .d x).mem.exps.get 1 = x := by
  simp [setExpander, Vector.get_eq_getElem]

/-- A partner with 256-byte flits, at least 32 GT/s and at least eight lanes trains to sixteen lanes or to eight (Table 12-6). -/
theorem trained_up {x : Partner} (hflit : x.flit256 = true) (hrate : 32 ≤ x.rate) (hwidth : 8 ≤ x.width) :
    ∃ rate, trained x = some (rate, if 16 ≤ x.width then 16 else 8) := by
  obtain ⟨rate, hsome, hne⟩ : ∃ rate, (if x.adv128 && x.altProto then 128 else if 64 ≤ x.rate then 64 else
      if 32 ≤ x.rate then 32 else 0) = rate ∧ rate ≠ 0 := by
    refine ⟨_, rfl, ?_⟩
    split_ifs <;> decide
  have hlanes : (if 16 ≤ x.width then 16 else if 8 ≤ x.width then 8 else 0) = if 16 ≤ x.width then 16 else 8 := by
    rw [if_pos hwidth]
  have hlanes0 : (if 16 ≤ x.width then 16 else 8) ≠ 0 := by split_ifs <;> decide
  refine ⟨rate, ?_⟩
  simp only [trained, hsome, hlanes]
  simp [hflit, hne, hlanes0]

/-- Without 256-byte flits a port stays down (Table 12-6). -/
theorem trained_down {x : Partner} (h : x.flit256 = false) : trained x = none := by
  simp [trained, h]

theorem exec_portTrain_up {s : State} {p : Port} {x : Partner} {rate width : Nat} (h : trained x = some (rate, width)) :
    exec (.portTrain p x) s =
      .next (setExpander (setPort s p { up := true, rate := rate, width := width }) p { cap := x.capacity }) := by
  change execPortTrain p x s = _
  simp only [execPortTrain, h]

theorem exec_portTrain_down {s : State} {p : Port} {x : Partner} (h : trained x = none) :
    exec (.portTrain p x) s = .next (logEv (linkDown s p) "PORT_DOWN" [(portIdx p).val]) := by
  change execPortTrain p x s = _
  simp only [execPortTrain, h]

/-! ### The semaphore leaves with its port's link (R279) -/

@[simp] theorem releaseSem_mem (s : State) (p : Port) : (releaseSem s p).mem = s.mem := by
  unfold releaseSem; split <;> rfl
@[simp] theorem releaseSem_at_th (s : State) (p : Port) (c : Nat) : (releaseSem s p).th c = s.th c := by
  unfold releaseSem; split <;> rfl
@[simp] theorem releaseSem_at_ctx (s : State) (p : Port) (x : Nat) : (releaseSem s p).ctx x = s.ctx x := by
  unfold releaseSem; split <;> rfl
@[simp] theorem releaseSem_at_ctxOf (s : State) (p : Port) (c : Nat) : (releaseSem s p).ctxOf c = s.ctxOf c := by
  unfold releaseSem; split <;> rfl

/-- A port that released the semaphore does not own it. -/
theorem releaseSem_owner (s : State) (p : Port) : (releaseSem s p).mgmt.owner ≠ some p := by
  unfold releaseSem
  split
  · exact nofun
  · assumption

/-! ### What is outstanding on a port that goes down fails (R287) -/

/-- A completion writes a core or a packet in execution. -/
theorem completeHost_keeps {γ : Type} (g : State → γ) (hcore : ∀ s c k, g (State.setCore s c k) = g s)
    (hrun : ∀ s q x, g (State.setRun s q x) = g s) (s : State) (r : HostReq) (ok : Bool) : g (completeHost s r ok) = g s := by
  cases r with
  | strand c => exact hcore _ _ _
  | queue c n => exact hcore _ _ _
  | block c i =>
    simp only [completeHost]
    split
    · exact hcore _ _ _
    · rfl
  | ring c => exact hcore _ _ _
  | packet q =>
    simp only [completeHost]
    split
    · exact hrun _ _ _
    · rfl

/-- A core written with the strand it had leaves every strand as it was. -/
theorem setCore_at_th_of_eq (s : State) {c : Nat} {k : Core} (h : k.th = s.th c) (j : Nat) : (s.setCore c k).th j = s.th j := by
  by_cases hj : j = c
  · rw [hj, State.setCore_th_self, h]
  · rw [State.setCore_th_ne s hj]

theorem setBlock_at_th (s : State) (c i : Nat) (b : LoadBlock) (j : Nat) : (setBlock s c i b).th j = s.th j :=
  setCore_at_th_of_eq s (by rfl) j

theorem setRing_at_th (s : State) (c : Nat) (r : Ring) (j : Nat) : (setRing s c r).th j = s.th j :=
  setCore_at_th_of_eq s (by rfl) j

/-- A strand written with the request it had leaves every strand its request. -/
theorem setTh_at_host_of_eq (s : State) {c : Nat} {t : Thread} (h : t.job.host = (s.th c).job.host) (j : Nat) :
    ((s.setTh c t).th j).job.host = (s.th j).job.host := by
  by_cases hj : j = c
  · rw [hj, State.setTh_th_self, h]
  · rw [State.setTh_th_ne s hj]

/-- An answer to a strand reaches the request of its access. -/
theorem completeHost_strand_host (s : State) (c : Nat) (ok : Bool) :
    ((completeHost s (.strand c) ok).th c).job.host = (s.th c).job.host.complete ok := by
  simp only [completeHost, State.setTh_th_self]
  cases (s.th c).job.host <;> rfl

/-- An answer to anyone else leaves a strand's request. -/
theorem completeHost_host_of_ne (s : State) {r : HostReq} {c : Nat} (h : r ≠ .strand c) (ok : Bool) :
    ((completeHost s r ok).th c).job.host = (s.th c).job.host := by
  cases r with
  | strand d =>
    have hne : c ≠ d := fun e => h (by rw [e])
    simp only [completeHost, State.setTh_th_ne s hne]
  | queue d n => exact setTh_at_host_of_eq s (by rfl) c
  | block d i =>
    simp only [completeHost]
    split
    · rw [setBlock_at_th]
    · rfl
  | ring d => rw [completeHost, setRing_at_th]
  | packet q => simp only [completeHost]; split <;> rfl

/-- A request is answered once. -/
theorem HostSt.complete_complete (h : HostSt) (ok : Bool) : (h.complete ok).complete ok = h.complete ok := by
  cases h <;> rfl

/-- Of the answers to several requests, those to a strand complete its request, and no others. -/
theorem foldl_completeHost_host (rs : List HostReq) (s : State) (c : Nat) (ok : Bool) :
    ((rs.foldl (fun s r => completeHost s r ok) s).th c).job.host =
      if .strand c ∈ rs then (s.th c).job.host.complete ok else (s.th c).job.host := by
  induction rs generalizing s with
  | nil => rfl
  | cons r rs ih =>
    rw [List.foldl_cons, ih]
    by_cases hr : r = .strand c
    · rw [hr, completeHost_strand_host, HostSt.complete_complete]
      simp
    · rw [completeHost_host_of_ne s hr]
      simp [Ne.symm hr]

/-- A value other than the default is listed. -/
theorem exists_mem_of_smGet_ne {α : Type} {d : α} {k : Nat} {m : SMap α} (h : smGet d k m ≠ d) : ∃ x, (k, x) ∈ m := by
  induction m with
  | nil => exact absurd rfl h
  | cons p m ih =>
    obtain ⟨j, y⟩ := p
    by_cases hj : j = k
    · exact ⟨y, by simp [hj]⟩
    · obtain ⟨x, hx⟩ := ih (by simpa [smGet, hj] using h)
      exact ⟨x, List.mem_cons_of_mem _ hx⟩

/-- A strand whose request is out is among those a port may answer. -/
theorem strand_mem_hostReqs {s : State} {c n : Nat} {va : Word} (h : (s.th c).job.host = .sent va n) :
    .strand c ∈ hostReqs s := by
  have hlisted : s.core c ≠ {} := fun e => by simp [State.th, e] at h
  obtain ⟨k, hk⟩ := exists_mem_of_smGet_ne hlisted
  exact List.mem_append_left _ (List.mem_flatMap.mpr ⟨(c, k), hk, List.mem_append_left _ List.mem_cons_self⟩)

@[simp] theorem refuseOn_mem (s : State) (p : Port) : (refuseOn s p).mem = s.mem :=
  foldl_keeps State.mem (completeHost_keeps State.mem (fun _ _ _ => rfl) (fun _ _ _ => rfl) · · false) _ s

@[simp] theorem refuseOn_mgmt (s : State) (p : Port) : (refuseOn s p).mgmt = s.mgmt :=
  foldl_keeps State.mgmt (completeHost_keeps State.mgmt (fun _ _ _ => rfl) (fun _ _ _ => rfl) · · false) _ s

/-- The request of a strand whose context has its home there is answered with an error. -/
theorem refuseOn_host {s : State} {p : Port} {c n : Nat} {va : Word} (h : (s.th c).job.host = .sent va n)
    (hhome : (s.ctx (s.ctxOf c)).home = p) : ((refuseOn s p).th c).job.host = .answered va n false := by
  have hout : .strand c ∈ (hostReqs s).filter (fun r => (s.ctx (reqCtx s r)).home == p) :=
    List.mem_filter.mpr ⟨strand_mem_hostReqs h, beq_iff_eq.mpr hhome⟩
  rw [refuseOn, foldl_completeHost_host, if_pos hout, h, HostSt.complete]

/-! ### A port without its link (R279, R287) -/

theorem linkDown_portUp (s : State) (p : Port) : (linkDown s p).portUp p = false := by simp [linkDown]

theorem linkDown_owner (s : State) (p : Port) : (linkDown s p).mgmt.owner ≠ some p := by
  simpa [linkDown] using releaseSem_owner s p

theorem linkDown_mem (s : State) (p : Port) : (linkDown s p).mem = s.mem := by simp [linkDown]

theorem linkDown_host {s : State} {p : Port} {c n : Nat} {va : Word} (h : (s.th c).job.host = .sent va n)
    (hhome : (s.ctx (s.ctxOf c)).home = p) : ((linkDown s p).th c).job.host = .answered va n false := by
  rw [linkDown, setPort_at_th]
  exact refuseOn_host (by simpa using h) (by simpa using hhome)

/-! ### Lines of the host (R276) -/

theorem exec_hostCxlMemRequest_taken {s : State} {pa : Nat} (hpa : pa < 0xC000000000) (hheld : pa / 128 ∉ s.mem.held)
    (howed : ∀ x ∈ s.mem.owed, x.1 ≠ pa / 128) :
    exec (.hostCxlMemRequest pa) s = .next { s with mem := { s.mem with held := pa / 128 :: s.mem.held } } := by
  refine if_neg ?_
  simp only [List.contains_iff_mem, List.any_eq_true, beq_iff_eq, not_or, not_exists, not_and]
  exact ⟨by omega, hheld, howed⟩

/-- A line owed to an access of the device stays the device's. -/
theorem exec_hostCxlMemRequest_owed {s : State} {pa : Nat} (howed : ∃ x ∈ s.mem.owed, x.1 = pa / 128) :
    exec (.hostCxlMemRequest pa) s = .next s := by
  refine if_pos (Or.inr (Or.inr ?_))
  simpa using howed

/-- A write of bytes changes only bytes and poison. -/
theorem writeBytes_outside (bs : List Byte) (m : Mem) (key : Nat) : m.writeBytes key bs =
    { m with bytes := (m.writeBytes key bs).bytes, poison := (m.writeBytes key bs).poison } := by
  induction bs generalizing m key with
  | nil => rfl
  | cons b bs ih =>
    rw [Mem.writeBytes]
    refine (ih (m.writeByte key b) (key + 1)).trans ?_
    unfold Mem.writeByte
    split <;> rfl

/-- Memory with the bytes of a line that the host returns dirty. -/
def returnedBytes (m : Mem) (line : Nat) : Option (List Byte) → Mem
  | some bs => m.writeBytes (line * 128) (bs.take 128)
  | none => m

/-- A line that comes back after a BISnp is no longer the host's, nor waited for, and is owed to whoever asked. -/
theorem exec_birsp {s : State} {line : Nat} (dirty : Option (List Byte)) (hheld : line ∈ s.mem.held)
    (hasked : ∃ x ∈ s.mem.snooped, x.1 = line) : exec (.birsp line dirty) s = .next { s with mem :=
      { returnedBytes s.mem line dirty with
        held := s.mem.held.filter (fun l => l != line)
        snooped := s.mem.snooped.filter (fun x => x.1 != line)
        owed := s.mem.owed ++ s.mem.snooped.filter (fun x => x.1 == line) } } := by
  have hgo : ¬ (!(s.mem.held.contains line && s.mem.snooped.any (fun x => x.1 == line))) = true := by
    simpa [hheld] using hasked
  change execBirsp line dirty s = _
  cases dirty with
  | none => simp only [execBirsp, if_neg hgo, returnedBytes]
  | some bs => simp only [execBirsp, if_neg hgo, returnedBytes]; rw [writeBytes_outside]

/-! ### The two parts of the statement -/

/-- R16, R14, R15, R18, R19, R304: what HEADROOM, clocks, sensors, scrubbing and soft errors do. -/
theorem powerEvents_hold : powerEvents := by
  refine ⟨?refreshed, fun s c draw fmax => exec_headroomRefresh_early draw fmax, ?throttled, ?core, ?refused, ?coreDone, ?array,
    ?die, fun d _ => stack_within d, fun s d temps powers => exec_sensorSample, fun s d => exec_hbmScrub_due,
    fun s d key hd => ⟨?corrected, ?uncorrectable⟩⟩
  case refreshed =>
    intro s c draw fmax hc hdue hup hhot hdraw
    refine ⟨_, exec_headroomRefresh_due draw fmax hc hdue hup, ?_⟩
    rw [refreshPower_within fmax hhot hdraw, State.setCore_core_self, State.setCore_th_self]
    exact ⟨rfl, rfl, refreshed_cls _ _ _ _, refreshed_fmax _ _ _, rfl, rfl⟩
  case throttled =>
    intro s c draw fmax hc hdue hup habove hchange hclock
    obtain ⟨hlow, hless⟩ := lowerPoint_bounds (Config.freeWord s.fresh).toNat hclock
    refine ⟨_, _, exec_headroomRefresh_due draw fmax hc hdue hup, ?_, hlow, hless, rfl⟩
    rw [State.setCore_core_self]
    exact refreshPower_above fmax habove hchange
  case core => exact fun s c mhz draw hc hlow htop hchange hup =>
    exec_clockChange_core (x := ⟨mhz, draw⟩) hc hlow htop hchange hup
  case refused => exact fun s c mhz draw hup => exec_clockChange_core_refused (x := ⟨mhz, draw⟩) hup
  case coreDone => exact fun s c mhz => exec_clockChangeDone_core
  case array => exact fun s d n mhz draw hd hn => exec_clockChange_array_lowers (x := ⟨mhz, draw⟩) hd hn
  case die =>
    intro p hp s i mhz draw
    simp only [List.mem_cons, List.not_mem_nil, or_false] at hp
    obtain rfl | rfl := hp
    · exact fun hi hlow htop _ hchange hup => dieClock_lowers (exec_clockChange_mem hi ⟨mhz, draw⟩) hlow htop hchange hup
    · exact fun hi hlow htop hio hchange hup =>
        dieClock_lowers (exec_clockChange_io (x := ⟨mhz, draw⟩) hi (hio rfl)) hlow htop hchange hup
  case corrected =>
    exact ⟨_, exec_eccCorrected hd, rfl, by rw [State.setDie_die_self], by rw [State.setDie_die_self]; rfl⟩
  case uncorrectable =>
    intro hkey hat
    refine ⟨_, exec_eccUncorrectable_mem hd hkey hat, rfl, ?_, fun j hline =>
      mem_filter_append_of_mem (mem_poisonKeys hkey hline)⟩
    exact congrArg Die.ue (State.setDie_die_self s d _)

/-- R274, R279, R287, R285, R276, R277: what ports, expanders and the host's lines do. -/
theorem portEvents_hold : portEvents := by
  refine ⟨?up, fun s p => ⟨_, rfl, linkDown_portUp s p, linkDown_owner s p, linkDown_mem s p, fun c va n => linkDown_host⟩,
    fun s p x hflit => ⟨_, exec_portTrain_down (trained_down hflit), linkDown_portUp s p, linkDown_owner s p⟩, ?removal,
    fun s pa hpa hheld => ⟨exec_hostCxlMemRequest_taken hpa hheld, exec_hostCxlMemRequest_owed⟩, ?birsp, fun s p => rfl⟩
  case up =>
    intro s p x hflit hrate hwidth
    obtain ⟨rate, htrained⟩ := trained_up hflit hrate hwidth
    refine ⟨_, exec_portTrain_up htrained, ?_, ?_⟩
    · rw [setExpander_portUp, setPort_portUp_self]
    · rw [setExpander_mgmt, setPort_ports_self]
  case removal =>
    intro s
    refine ⟨⟨_, rfl, ?_, ?_⟩, ⟨_, rfl, ?_, ?_⟩⟩
    · rw [setExpander_c]
    · rw [setExpander_portUp, setPort_portUp_self]
    · rw [setExpander_d]
    · rw [setExpander_portUp, setPort_portUp_self]
  case birsp =>
    intro s line dirty hheld hasked
    refine ⟨_, exec_birsp dirty hheld hasked, by simp, by simp, fun x hx hline => ?_, ?_, ?_⟩
    · exact List.mem_append_right _ (List.mem_filter.mpr ⟨hx, beq_iff_eq.mpr hline⟩)
    · rintro rfl; rfl
    · rintro bs rfl; rfl

/-- Settles O49: HEADROOM, clocks, sensors, scrubbing and soft errors; ports, expanders and the host's lines. -/
theorem powerAndPortEvents : Obligations.PowerAndPortEvents := ⟨powerEvents_hold, portEvents_hold⟩

end Sys2Proof.Machine

/-! ## Operator parameter blocks (R37, R38) -/

namespace Sys2Proof.Machine
open Sys2Proof Sys2Proof.Ob

/-- Bits below place K are those of the number's lowest K bits. -/
theorem nbits_mod_two_pow {lo n K : Nat} (h : lo + n ≤ K) (v : Nat) : nbits (v % 2 ^ K) lo n = nbits v lo n := by
  refine Nat.eq_of_testBit_eq fun i => ?_
  simp only [nbits, Nat.testBit_mod_two_pow, Nat.testBit_shiftRight]
  by_cases hi : i < n
  · have hk : lo + i < K := by omega
    simp [hi, hk]
  · simp [hi]

/-- What loop j's word says, where it is not malformed. -/
def opbLoopOf (v j : Nat) : Loop :=
  { ord := nbits (loopWord v j) 48 3, tile := nbits (loopWord v j) 32 16, extent := nbits (loopWord v j) 0 32 }

/-- Loop j's word is that of a loop of an OPB of n loops (R38). -/
def opbLoopFits (v n j : Nat) : Prop :=
  nbits (loopWord v j) 51 13 = 0 ∧ (opbLoopOf v j).tile ≠ 0 ∧ (opbLoopOf v j).extent ≠ 0 ∧ (opbLoopOf v j).ord < n

theorem opbLoop_fits {v n j : Nat} (h : opbLoopFits v n j) : opbLoop v n j = some (opbLoopOf v j) := by
  obtain ⟨hz, ht, he, ho⟩ := h
  exact if_neg (by rintro (h | h | h | h) <;> [exact h hz; exact ht h; exact he h; exact absurd ho (Nat.not_lt.mpr h)])

theorem opbLoop_unfit {v n j : Nat} (h : ¬ opbLoopFits v n j) : opbLoop v n j = none := by
  refine if_pos ?_
  by_contra hn
  simp only [not_or, not_not, Nat.not_le] at hn
  exact h hn

theorem opbLoops_fit {v n : Nat} (k j : Nat) (h : ∀ i, j ≤ i → i < j + k → opbLoopFits v n i) :
    opbLoops v n k j = some ((List.range' j k).map (opbLoopOf v)) := by
  induction k generalizing j with
  | zero => rfl
  | succ k ih =>
    rw [opbLoops, opbLoop_fits (h j (by omega) (by omega)), ih (j + 1) fun i _ _ => h i (by omega) (by omega)]
    rfl

theorem opbLoops_unfit {v n : Nat} (k j : Nat) {i : Nat} (hj : j ≤ i) (hk : i < j + k) (h : ¬ opbLoopFits v n i) :
    opbLoops v n k j = none := by
  induction k generalizing j with
  | zero => omega
  | succ k ih =>
    rw [opbLoops]
    obtain rfl | hne := Nat.eq_or_lt_of_le hj
    · rw [opbLoop_unfit h]
    · rw [ih (j + 1) (by omega) (by omega)]
      cases opbLoop v n j <;> rfl

/-- n numbers below n that leave out none of them are those numbers in some order. -/
theorem perm_range_iff {xs : List Nat} {n : Nat} (hlen : xs.length = n) : xs.Perm (List.range n) ↔
    (∀ x ∈ xs, x < n) ∧ ∀ k < n, k ∈ xs := by
  constructor
  · intro h
    exact ⟨fun x hx => List.mem_range.mp (h.mem_iff.mp hx), fun k hk => h.mem_iff.mpr (List.mem_range.mpr hk)⟩
  · rintro ⟨-, hall⟩
    have hsub : List.Subperm (List.range n) xs := List.nodup_range.subperm fun k hk => hall k (List.mem_range.mp hk)
    exact (hsub.perm_of_length_le (by simp [hlen])).symm

/-- The bits outside the loops' words that must be clear, and NLOOP. -/
def opbHeadOk (v : Nat) : Prop := nbits v 57 7 = 0 ∧ nbits v 67 61 = 0 ∧ nbits v 64 3 ≠ 0 ∧ nbits v 64 3 ≠ 7

/-- An OPB is read where its head and each of its loops fit and the loops' orders are all those below NLOOP. -/
theorem readOpb_eq_none_iff (v : Nat) : readOpb v = none ↔
    ¬ (opbHeadOk v ∧ (∀ j < nbits v 64 3, opbLoopFits v (nbits v 64 3) j) ∧ ∀ k < nbits v 64 3, k ∈ ords v (nbits v 64 3)) := by
  unfold readOpb
  extract_lets n
  by_cases hhead : opbHeadOk v
  · obtain ⟨h57, h67, h0, h7⟩ := id hhead
    rw [if_neg (by simp_all [n])]
    by_cases hfit : ∀ j < n, opbLoopFits v n j
    · rw [opbLoops_fit n 0 fun i _ hi => hfit i (by omega)]
      have hcover : ((List.range n).all fun k => ((List.range' 0 n).map (opbLoopOf v)).any fun l => l.ord == k) = true ↔
          ∀ k < n, k ∈ ords v n := by
        simp [← List.range_eq_range', ords, opbLoopOf]
      simp only [hcover, ite_eq_right_iff, reduceCtorEq, imp_false, not_and]
      exact ⟨fun h _ _ => h, fun h => h hhead hfit⟩
    · push Not at hfit
      obtain ⟨j, hj, hunfit⟩ := hfit
      rw [opbLoops_unfit n 0 (Nat.zero_le j) (by omega) hunfit]
      exact iff_of_true rfl fun ⟨_, hfit, _⟩ => hunfit (hfit j hj)
  · rw [if_pos (by simp only [opbHeadOk] at hhead; tauto)]
    exact iff_of_true rfl fun ⟨h, _⟩ => hhead h

theorem loopWord_mod_two_pow {v j K : Nat} (h : 128 + 64 * (j + 1) ≤ K) : loopWord (v % 2 ^ K) j = loopWord v j :=
  nbits_mod_two_pow (by omega) v

/-- Only the bits up to the last loop's word of an OPB are read (R38). -/
theorem readOpb_mod_two_pow {v K : Nat} (h : 128 + 64 * nbits v 64 3 ≤ K) : readOpb (v % 2 ^ K) = readOpb v := by
  have hloops (k j : Nat) (hk : j + k ≤ nbits v 64 3) :
      opbLoops (v % 2 ^ K) (nbits v 64 3) k j = opbLoops v (nbits v 64 3) k j := by
    induction k generalizing j with
    | zero => rfl
    | succ k ih =>
      have hword : opbLoop (v % 2 ^ K) (nbits v 64 3) j = opbLoop v (nbits v 64 3) j := by
        simp only [opbLoop, nbits_mod_two_pow (v := v) (show 128 + 64 * j + 64 ≤ K by omega)]
      rw [opbLoops, opbLoops, hword, ih (j + 1) (by omega)]
  have hlow (lo n : Nat) (hl : lo + n ≤ 128) : nbits (v % 2 ^ K) lo n = nbits v lo n := nbits_mod_two_pow (by omega) v
  simp only [readOpb, hlow 64 3 (by omega), hlow 57 7 (by omega), hlow 67 61 (by omega), hlow 0 57 (by omega),
    hloops _ 0 (Nat.le_of_eq (Nat.zero_add _))]

/-- Settles O41: an OPB is malformed where its head or one of its loops does not fit or the orders leave one out; the words from
NLOOP on lie above every bit that is read. -/
theorem opbMalformedCases : Obligations.OpbMalformedCases := by
  refine ⟨fun v _ => ?malformed, fun u v huv => ?ignored⟩
  case malformed =>
    intro n
    rw [readOpb_eq_none_iff, perm_range_iff (by simp [ords])]
    have hord : (∀ x ∈ ords v n, x < n) ↔ ∀ j < n, (opbLoopOf v j).ord < n := by simp [ords, opbLoopOf]
    rw [hord, ← not_iff_not]
    simp only [opbHeadOk, opbLoopFits, opbLoopOf, n]
    push Not
    constructor
    · rintro ⟨⟨h57, h67, h0, h7⟩, hfit, hall⟩
      exact ⟨⟨h57, h67, fun j hj => (hfit j hj).1⟩, ⟨h0, h7⟩, fun j hj => ⟨(hfit j hj).2.1, (hfit j hj).2.2.1⟩,
        fun j hj => (hfit j hj).2.2.2, hall⟩
    · rintro ⟨⟨h57, h67, hz⟩, ⟨h0, h7⟩, hpos, hord, hall⟩
      exact ⟨⟨h57, h67, h0, h7⟩, fun j hj => ⟨hz j hj, (hpos j hj).1, (hpos j hj).2, hord j hj⟩, hall⟩
  case ignored =>
    have hn : nbits u 64 3 = nbits v 64 3 := by
      have h := congrArg (fun x => nbits x 64 3) huv
      simpa only [nbits_mod_two_pow (show 64 + 3 ≤ 128 + 64 * nbits v 64 3 by omega)] using h
    rw [← readOpb_mod_two_pow (Nat.le_of_eq (congrArg (128 + 64 * ·) hn)), huv, readOpb_mod_two_pow le_rfl]

end Sys2Proof.Machine

/-! ## Queues: LAUNCH, CPYQ and CWAIT (R46, R49, R212) -/

namespace Sys2Proof.Machine
open Sys2Proof Sys2Proof.Ob

/-! ### Results, operands and accesses of the control core -/

/-- An instruction that answers with a result puts it in rd and changes neither memory nor the strand's job. -/
theorem result_next (s : State) (c : Nat) (rd : BitVec 5) (v : Word) : ∃ t, result s c rd v = .next t ∧
    (rd ≠ 0 → ((t.th c).rdS rd).val = v) ∧ t.mem = s.mem ∧ (t.th c).job = (s.th c).job := by
  refine ⟨_, rfl, fun hrd => ?_, rfl, by simp⟩
  rw [State.setTh_th_self, Thread.rdS_advance, Thread.rdS_wrS_self _ hrd]

/-- With D clear in the operands, the guarded part runs. -/
theorem guardD_of_noD {s : State} {rs : List (BitVec 5)} (h : noD s rs = true) (k : State → Out) : guardD s rs k = k s :=
  guardD_run (firstD_none.mpr fun r hr => by simpa [regD] using List.all_eq_true.mp h r hr) k

/-- A check that lets an access through at once leaves the state as it is. -/
theorem coreCheck_of_letThrough {s : State} {k : AccKind} {rel : Bool} {a : Word} {w key : Nat} {cls : Option Cls}
    (h : letThrough s k rel a w key cls = true) : coreCheck s s.me k rel a w = .ok key cls s := by
  simp only [letThrough, Bool.and_eq_true, decide_eq_true_eq, Bool.not_eq_true', Bool.or_eq_true] at h
  obtain ⟨⟨⟨⟨haligned, hcheck⟩, hcls⟩, hback⟩, hrel⟩ := h
  have horder : (rel && !accessesDone s s.me) = false := by
    rcases hrel with h | h <;> simp [h]
  simp [coreCheck, aligned, haligned, hcheck, hback, horder, hcls]

/-- A strand that stands at its instruction with nothing of it done makes an access that is let through. -/
theorem coreAccess_of_letThrough {s : State} {k : AccKind} {rel : Bool} {a : Word} {w key : Nat} {cls : Option Cls}
    (hfresh : fresh s = true) (h : letThrough s k rel a w key cls = true) (go : Nat → Option Cls → State → Out) :
    coreAccess s s.me k rel a w go = go key cls s := by
  simp only [fresh, freshPoint, Bool.and_eq_true, decide_eq_true_eq] at hfresh
  exact coreAccess_run hfresh.1.2 (coreCheck_of_letThrough h) go

theorem aligned_of_letThrough {s : State} {k : AccKind} {rel : Bool} {a : Word} {w key : Nat} {cls : Option Cls}
    (h : letThrough s k rel a w key cls = true) : aligned a w = true := by
  simp only [letThrough, Bool.and_eq_true] at h
  exact h.1.1.1.1

/-! ### Stamps -/

/-- An acquire changes the dies only (R253). -/
theorem takeStamps_keeps {γ : Type} (g : State → γ) (hdie : ∀ s d x, g (State.setDie s d x) = g s) (s : State) (die : Nat)
    (hs : List Nat) : g (takeStamps s die hs) = g s :=
  foldl_keeps (f := fun s h => mergeStamp s die (s.die h).seen) g (fun s _ => hdie s die _) hs s

/-- A stamp on its way changes the dies only (R253). -/
theorem sendStamp_keeps {γ : Type} (g : State → γ) (hdie : ∀ s d x, g (State.setDie s d x) = g s) (s : State) (src dst : Nat) :
    g (sendStamp s src dst) = g s := by
  unfold sendStamp
  split
  · rfl
  · exact (hdie _ _ _).trans (hdie _ _ _)

theorem sendStamp_outside (s : State) (src dst : Nat) : sendStamp s src dst = { s with dies := (sendStamp s src dst).dies } := by
  unfold sendStamp; split <;> rfl

/-- Stamps of writes to a queue change the dies only. -/
theorem stampSlots_keeps {γ : Type} (g : State → γ) (hdie : ∀ s d x, g (State.setDie s d x) = g s) (s : State)
    (src qk : Nat) (q : QRec) (ks : List Nat) : g (stampSlots s src qk q ks) = g s :=
  foldl_keeps g (fun s d => sendStamp_keeps g hdie s src d) _ s

@[simp] theorem stampSlots_mem (s : State) (src qk : Nat) (q : QRec) (ks : List Nat) : (stampSlots s src qk q ks).mem = s.mem :=
  stampSlots_keeps State.mem (fun _ _ _ => rfl) s src qk q ks

@[simp] theorem stampSlots_at_core (s : State) (src qk : Nat) (q : QRec) (ks : List Nat) (c : Nat) :
    (stampSlots s src qk q ks).core c = s.core c :=
  stampSlots_keeps (fun s => s.core c) (fun _ _ _ => rfl) s src qk q ks

/-! ### Slots -/

/-- The memory in which slot k of a queue is claimed and holds the bytes of a packet and its tag (R46, R212). -/
def slotPlaced (m : Mem) (qk : Nat) (q : QRec) (bytes : List Byte) (k : Nat) : Mem :=
  ((m.writeNat q.base 8 (k + 1)).writeBytes (qslotKey qk q k) (bytes.take 56)).writeNat (qslotKey qk q k + 56) 8 k

@[simp] theorem placeSlot_mem (s : State) (qk : Nat) (q : QRec) (bytes : List Byte) (claim : Claim) :
    (placeSlot s qk q bytes claim).mem = slotPlaced s.mem qk q bytes claim.slot := by
  cases hstop : q.stopped <;> simp [placeSlot, slotPlaced, hstop]

@[simp] theorem placeSlot_cores (s : State) (qk : Nat) (q : QRec) (bytes : List Byte) (claim : Claim) :
    (placeSlot s qk q bytes claim).cores = s.cores := by
  cases hstop : q.stopped <;> simp [placeSlot, hstop]

@[simp] theorem placeSlot_at_th (s : State) (qk : Nat) (q : QRec) (bytes : List Byte) (claim : Claim) (c : Nat) :
    (placeSlot s qk q bytes claim).th c = s.th c := by simp [State.th, State.core]

@[simp] theorem returnTiles_mem (s : State) (c : Nat) (r : Option (Nat × Nat)) : (returnTiles s c r).mem = s.mem := by
  unfold returnTiles; split <;> rfl

@[simp] theorem packetPlaced_mem (s : State) (c : Nat) (q : QRec) (raw : BitVec 512) (auto : Option (Nat × Nat)) :
    (packetPlaced s c q raw auto).mem = s.mem := by
  simp only [packetPlaced, State.setCore_mem]
  split
  · rw [returnTiles_mem]; split <;> rfl
  · split <;> rfl

/-! ### LAUNCH and CPYQ -/

theorem exec_launch_claims {f : R3} {s : State} {key qk : Nat} {q : QRec} {cls : Option Cls} (hfresh : fresh s = true)
    (hd : noD s [f.ra, f.rb] = true) (hq : launchQueue s s.me (reg s f.rb) = some (qk, q)) (hfull : queueFull s q = false)
    (hline : queueLine s qk q (widxOf s q) = none) (hread : letThrough s .read true (reg s f.ra) 64 key cls = true) :
    ∃ t, exec (.launch f) s = .next t ∧ (f.rd ≠ 0 → ((t.th s.me).rdS f.rd).val = BitVec.ofNat 64 (widxOf s q)) ∧
      t.mem = slotPlaced s.mem qk q (s.mem.readBytes key 64) (widxOf s q) ∧ (t.th s.me).job.restart = false := by
  change ∃ t, execLaunch f s = _ ∧ _
  have haligned : aligned ((s.th s.me).rdS f.ra).val 64 = true := aligned_of_letThrough hread
  have hq' : launchQueue s s.me ((s.th s.me).rdS f.rb).val = some (qk, q) := hq
  rw [execLaunch, guardD_of_noD hd]
  simp only [haligned, hq', hfull, hline, slotRead, Bool.not_true, Bool.and_false, Bool.false_and, Bool.false_eq_true, if_false]
  rw [show ((s.th s.me).rdS f.ra).val = reg s f.ra from rfl, coreAccess_of_letThrough hfresh hread]
  obtain ⟨t, ht, hrd, hmem, hjob⟩ := result_next (s := _) (c := s.me) (rd := f.rd) (v := BitVec.ofNat 64 (widxOf s q))
  refine ⟨t, ht, hrd, ?_, ?_⟩
  · rw [hmem]; simp [claimOf, drainFifo]
  · rw [hjob]; simp [clearRestart]

theorem exec_cpyq_claims {f : R3} {s : State} {key qk : Nat} {q : QRec} {cls : Option Cls} (hfresh : fresh s = true)
    (hd : noD s [f.ra, f.rb] = true) (hq : flumeQueue s s.me (reg s f.rb) = some (qk, q)) (hfull : queueFull s q = false)
    (hline : queueLine s qk q (widxOf s q) = none) (hread : letThrough s .read true (reg s f.ra) 64 key cls = true) :
    ∃ t, exec (.cpyq f) s = .next t ∧ (f.rd ≠ 0 → ((t.th s.me).rdS f.rd).val = BitVec.ofNat 64 (widxOf s q)) ∧
      t.mem = slotPlaced s.mem qk q (s.mem.readBytes key 64) (widxOf s q) := by
  change ∃ t, execCpyq f s = _ ∧ _
  have haligned : aligned ((s.th s.me).rdS f.ra).val 64 = true := aligned_of_letThrough hread
  have hq' : flumeQueue s s.me ((s.th s.me).rdS f.rb).val = some (qk, q) := hq
  rw [execCpyq, guardD_of_noD hd]
  simp only [haligned, hq', hfull, hline, slotRead, Bool.not_true, Bool.and_false, Bool.false_eq_true, if_false]
  rw [show ((s.th s.me).rdS f.ra).val = reg s f.ra from rfl, coreAccess_of_letThrough hfresh hread]
  obtain ⟨t, ht, hrd, hmem, -⟩ := result_next (s := _) (c := s.me) (rd := f.rd) (v := BitVec.ofNat 64 (widxOf s q))
  refine ⟨t, ht, hrd, ?_⟩
  rw [hmem, packetPlaced_mem, placeSlot_mem, stampSlots_mem]; rfl

/-- What an access that is given up before it is made answers changes no byte of memory. -/
theorem result_clearHost (s : State) (rd : BitVec 5) (v : Word) : ∃ t, result (clearHost s s.me) s.me rd v = .next t ∧
    t.mem = s.mem ∧ (rd ≠ 0 → ((t.th s.me).rdS rd).val = v) := by
  obtain ⟨t, ht, hrd, hmem, -⟩ := result_next (clearHost s s.me) s.me rd v
  exact ⟨t, ht, hmem.trans (clearHost_mem _ _), hrd⟩

theorem exec_launch_noqueue {f : R3} {s : State} (hd : noD s [f.ra, f.rb] = true) (ha : aligned (reg s f.ra) 64 = true)
    (hq : launchQueue s s.me (reg s f.rb) = none) :
    exec (.launch f) s = result (clearHost s s.me) s.me f.rd rNoqueue := by
  change execLaunch f s = _
  unfold reg at ha hq
  rw [execLaunch, guardD_of_noD hd]
  simp [ha, hq]

theorem exec_cpyq_noqueue {f : R3} {s : State} (hd : noD s [f.ra, f.rb] = true) (ha : aligned (reg s f.ra) 64 = true)
    (hq : flumeQueue s s.me (reg s f.rb) = none) : exec (.cpyq f) s = result (clearHost s s.me) s.me f.rd rNoqueue := by
  change execCpyq f s = _
  unfold reg at ha hq
  rw [execCpyq, guardD_of_noD hd]
  simp [ha, hq]

theorem exec_cpyq_busy {f : R3} {s : State} {qk : Nat} {q : QRec} (hd : noD s [f.ra, f.rb] = true)
    (ha : aligned (reg s f.ra) 64 = true) (hq : flumeQueue s s.me (reg s f.rb) = some (qk, q))
    (hpark : (s.th s.me).job.park = .run) (hfull : queueFull s q = true) :
    exec (.cpyq f) s = result (clearHost s s.me) s.me f.rd rBusy := by
  change execCpyq f s = _
  unfold reg at ha hq
  rw [execCpyq, guardD_of_noD hd]
  simp [ha, hq, hpark, hfull]

theorem exec_cwait_status {f : R2} {s : State} {key : Nat} {cls : Option Cls} (hfresh : fresh s = true)
    (hd : noD s [f.ra] = true) (ha : aligned (reg s f.ra) 8 = true)
    (hread : letThrough s .read false (reg s f.ra) 1 key cls = true) (hv : s.mem.readByte key ≠ 0) :
    exec (.cwait f) s = result (acquireAll (goOn s s.me) s.me) s.me f.rd ((s.mem.readByte key).zeroExtend 64) := by
  have hne : (s.mem.readByte key).zeroExtend 64 ≠ 0 := fun h => hv (by simpa using congrArg (BitVec.setWidth 8) h)
  change execCwait f s = _
  unfold reg at ha hread
  rw [execCwait, guardD_of_noD hd]
  simp only [ha, Bool.not_true, Bool.false_eq_true, if_false]
  rw [coreAccess_of_letThrough hfresh hread]
  exact if_neg hne

@[simp] theorem takeStamps_agent (s : State) (die : Nat) (hs : List Nat) : (takeStamps s die hs).agent = s.agent :=
  takeStamps_keeps State.agent (fun _ _ _ => rfl) s die hs

@[simp] theorem acquireAll_me (s : State) (c : Nat) : (acquireAll s c).me = s.me := by
  simp [acquireAll, acquireFrom, State.me, drainFifo]

@[simp] theorem goOn_me (s : State) (c : Nat) : (goOn s c).me = s.me := by
  simp only [goOn]; split <;> rfl

/-- Settles O34: the claims of LAUNCH and CPYQ, their answers where there is no queue or it is full, and CWAIT's status. -/
theorem queueClaim : Obligations.QueueClaim := by
  refine ⟨fun f s key qk q cls hfresh hd hq hfull hline hread => exec_launch_claims hfresh hd hq hfull hline hread,
    fun f s key qk q cls hfresh hd hq hfull hline hread => exec_cpyq_claims hfresh hd hq hfull hline hread,
    fun f s hd ha => ?refused, fun f s key cls hfresh hd ha hread hv => ?status⟩
  case refused =>
    have haligned : aligned (reg s f.ra) 64 = true := decide_eq_true ha
    refine ⟨fun hq => ?_, fun hq => ?_, fun qk q hq hpark hfull => ?_⟩
    · rw [exec_launch_noqueue hd haligned hq]; exact result_clearHost s f.rd _
    · rw [exec_cpyq_noqueue hd haligned hq]; exact result_clearHost s f.rd _
    · rw [exec_cpyq_busy hd haligned hq hpark hfull]; exact result_clearHost s f.rd _
  case status =>
    rw [exec_cwait_status hfresh hd (decide_eq_true ha) hread hv]
    simp [result, wrote]

end Sys2Proof.Machine

/-! ## The records of a launch's stream (R34 to R36, R231, R232, R312, R353, R354, R357) -/

namespace Sys2Proof.Machine
open Sys2Proof Sys2Proof.Ob

/-! ### The walk of a launch's stream -/

theorem walkerOf_walks {s : State} {l : Nat} (h : walks s l = true) : walkerOf s = some (streamOf_ l) := by
  rw [walkerOf, of_decide_eq_true h]; rfl

theorem anyStream_walks {s : State} {l : Nat} (h : walks s l = true) (k : Walker → Out) : anyStream s k = k (streamOf_ l) := by
  rw [anyStream, walkerOf_walks h]

theorem streamOnly_walks {s : State} {l : Nat} (h : walks s l = true) (k : Walker → Out) : streamOnly s k = k (streamOf_ l) := by
  rw [streamOnly, walkerOf_walks h]; rfl

@[simp] theorem streamOf_l (l : Nat) : (streamOf_ l).l = l := rfl
@[simp] theorem streamOf_f (l : Nat) : (streamOf_ l).f = none := rfl
@[simp] theorem walkPc_stream (s : State) (l : Nat) : walkPc s (streamOf_ l) = (s.launch l).pc := rfl
@[simp] theorem walkDie_stream (s : State) (l : Nat) : walkDie s (streamOf_ l) = (s.launch l).die := rfl
@[simp] theorem walkCtx_stream (s : State) (l : Nat) : walkCtx s (streamOf_ l) = (s.launch l).ctx := rfl
@[simp] theorem walkEntered_stream (s : State) (l : Nat) : walkEntered s (streamOf_ l) = (s.launch l).entered := rfl
@[simp] theorem goTo_stream (s : State) (l : Nat) (pc : Word) : goTo s (streamOf_ l) pc = atRecord s l pc := rfl
@[simp] theorem nextRec_stream (s : State) (l : Nat) : nextRec s (streamOf_ l) = atRecord s l ((s.launch l).pc + 32) := rfl
@[simp] theorem setWalk_stream (s : State) (l : Nat) (x : WalkSt) :
    setWalk s (streamOf_ l) x = s.setLaunch l { s.launch l with walk := x } := rfl

@[simp] theorem atRecord_launch_self (s : State) (l : Nat) (pc : Word) :
    (atRecord s l pc).launch l = { s.launch l with pc := pc, walk := .run } := State.setLaunch_launch_self s l _
@[simp] theorem atRecord_mem (s : State) (l : Nat) (pc : Word) : (atRecord s l pc).mem = s.mem := rfl
@[simp] theorem atRecord_hg (s : State) (l : Nat) (pc : Word) : (atRecord s l pc).hg = s.hg := rfl
@[simp] theorem atRecord_at_scope (s : State) (l : Nat) (pc : Word) (n : Nat) : (atRecord s l pc).scope n = s.scope n := rfl
@[simp] theorem atRecord_at_op (s : State) (l : Nat) (pc : Word) (o : Nat) : (atRecord s l pc).op o = s.op o := rfl
@[simp] theorem atRecord_at_tensor (s : State) (l : Nat) (pc : Word) (t : Nat) : (atRecord s l pc).tensor t = s.tensor t := rfl

theorem kept_eq (s : State) (l : Nat) (keep : BitVec 8) : kept s l keep =
    (decide (walkState s (streamOf_ l) = .keepDone) || keepOver s (streamOf_ l) keep.toNat) := rfl

/-- A record whose KEEP wait is over has its effect (R357). -/
theorem keepWait_kept {s : State} {l : Nat} {keep : BitVec 8} (h : kept s l keep = true) (k : Out) :
    keepWait s (streamOf_ l) keep k = k := if_pos (kept_eq s l keep ▸ h)

theorem keepWait_waits {s : State} {l : Nat} {keep : BitVec 8} (h : kept s l keep = false) (k : Out) :
    keepWait s (streamOf_ l) keep k = .next (setWalk s (streamOf_ l) (.keep keep.toNat)) :=
  (if_neg (Bool.eq_false_iff.mp (kept_eq s l keep ▸ h))).trans (if_neg Bool.false_ne_true)

/-- The read of a condition word merges stamps on a die and changes nothing else. -/
theorem condAcquire_at_launch (s : State) (w : Walker) (cwi : BitVec 16) (l : Nat) : (condAcquire s w cwi).launch l = s.launch l := by
  simp only [condAcquire]
  split
  · exact takeStamps_keeps (fun s => s.launch l) (fun _ _ _ => rfl) s _ _
  · rfl

/-! ### JMP, SYNC, END, IFC, WHL, SIGH and CNCL -/

theorem exec_ifc {s : State} {l : Nat} {cwi : BitVec 16} {keep : BitVec 8} {v : Nat} (hw : walks s l = true)
    (hkept : kept s l keep = true) (hread : condRead s (streamOf_ l) cwi = .ok v) (off : BitVec 32) :
    exec (.ifc off cwi keep) s = .next (atRecord (condAcquire s (streamOf_ l) cwi) l
      (if v = 0 then (s.launch l).pc + 32 * off.signExtend 64 else (s.launch l).pc + 32)) := by
  change streamOnly s _ = _
  rw [streamOnly_walks hw, keepWait_kept hkept, hread]
  simp only [walkRead, goTo_stream, nextRec_stream, walkPc_stream, condAcquire_at_launch]
  split <;> rfl

theorem exec_whl_first {s : State} {l : Nat} {cwi : BitVec 16} {keep : BitVec 8} {v : Nat} (hw : walks s l = true)
    (hkept : kept s l keep = true) (hread : condRead s (streamOf_ l) cwi = .ok v)
    (hfirst : whileEntry (s.launch l).pc (s.launch l).whiles = none) (hroom : (s.launch l).whiles.length < 8) (off : BitVec 32)
    {bound : BitVec 32} (hbound : bound ≠ 0) : exec (.whl off cwi keep bound) s =
      let t := condAcquire s (streamOf_ l) cwi
      let x := s.launch l
      .next (if v = 0 then atRecord (t.setLaunch l x) l (x.pc + 32 * off.signExtend 64)
        else atRecord (t.setLaunch l { x with whiles := (x.pc, 1) :: x.whiles }) l (x.pc + 32)) := by
  have hcount : ¬ bound.toNat < 1 := by
    have : bound.toNat ≠ 0 := fun h => hbound (BitVec.eq_of_toNat_eq h)
    omega
  change streamOnly s _ = _
  rw [streamOnly_walks hw, if_neg hbound, keepWait_kept hkept, hread]
  have hfull : decide (8 ≤ (s.launch l).whiles.length) = false := decide_eq_false (Nat.not_le.mpr hroom)
  simp only [walkRead, walkPc_stream, streamOf_l, condAcquire_at_launch, hfirst, Option.getD_none, Option.isNone_none, hfull,
    Bool.and_false, Bool.false_eq_true, hcount, or_false, if_false]
  split
  · rfl
  · simp

theorem exec_sigh {s t : State} {l : Nat} {keep : BitVec 8} {value : Word} (hw : walks s l = true) (hkept : kept s l keep = true)
    (hpost : postEvent s (s.launch l).ctx value (s.launch l).slot (shownQueue (s.launch l).queue) 1 (s.launch l).die = some t) :
    exec (.sigh keep value) s = .next (nextRec t (streamOf_ l)) := by
  change streamOnly s _ = _
  rw [streamOnly_walks hw, keepWait_kept hkept]
  simp only [streamOf_l, hpost]

/-- A request to cancel a scope joins those on their way to its home and changes nothing else but stamps (R58). -/
theorem askCancel_outside (s : State) (die n : Nat) (w : Asker) (ctx : Nat) (root : Option Nat) :
    ∃ ds, askCancel s die n w ctx root = { s with
      dies := ds, hg := { s.hg with reqs := s.hg.reqs ++
        [{ scope := n, home := (s.scope n).home, by_ := w, ctx := ctx, root := root }] } } := by
  have hstamp := sendStamp_outside s die (s.scope n).home
  exact ⟨(sendStamp s die (s.scope n).home).dies, by rw [askCancel, hstamp]⟩

theorem exec_cncl_free {s : State} {l : Nat} {scope : BitVec 16} (wait : Bool) (hw : walks s l = true)
    (hfree : (s.scope scope.toNat).st = .free) : exec (.cncl scope wait) s = .next (nextRec s (streamOf_ l)) := by
  change streamOnly s _ = _
  rw [streamOnly_walks hw]
  simp only [hfree, if_true]

theorem exec_cncl_asks {s : State} {l : Nat} {scope : BitVec 16} (wait : Bool) (hw : walks s l = true)
    (hin : inSubtree s scope.toNat (s.launch l).pkt.scope.toNat = true) : exec (.cncl scope wait) s =
      .next (setWalk (askCancel (nextRec s (streamOf_ l)) (s.launch l).die scope.toNat (.walker l) (s.launch l).ctx
        (some (s.launch l).pkt.scope.toNat)) (streamOf_ l) (.cnclReq wait)) := by
  have hst : (s.scope scope.toNat).st ≠ .free := by
    simp only [inSubtree, Bool.and_eq_true, decide_eq_true_eq] at hin
    exact hin.1
  change streamOnly s _ = _
  rw [streamOnly_walks hw]
  simp only [hst, if_false, streamOf_l, hin, Bool.not_true, Bool.false_eq_true, walkDie_stream]

theorem recordResult_holds : recordResult := by
  intro l s hw
  extract_lets x w next at_
  refine ⟨fun off => ?jmp, ?seqEnd, fun keep => ?sync, fun off cwi keep v hkept hread => exec_ifc hw hkept hread off,
    fun off cwi keep bound v hkept hread hfirst hroom hbound => ?whl, fun keep value t hkept hpost => exec_sigh hw hkept hpost,
    fun scope wait hfree => exec_cncl_free wait hw hfree, fun scope wait hin => ?cncl⟩
  case jmp => exact streamOnly_walks hw _
  case seqEnd => exact streamOnly_walks hw _
  case sync =>
    change anyStream s _ = _
    rw [anyStream_walks hw]
    cases hkept : kept s l keep
    · exact keepWait_waits hkept _
    · exact keepWait_kept hkept _
  case whl =>
    refine ⟨_, exec_whl_first hw hkept hread hfirst hroom off hbound, fun hv => ?_, fun hv => ?_⟩
    · rw [if_pos hv]; simp [at_, x]
    · rw [if_neg hv]; simp [x]
  case cncl =>
    obtain ⟨ds, hask⟩ := askCancel_outside (nextRec s w) x.die scope.toNat (.walker l) x.ctx (some x.pkt.scope.toNat)
    refine ⟨_, (exec_cncl_asks wait hw hin).trans (by rw [hask]), ?_, ?_, ?_⟩
    · rfl
    · simp [w]
    · rw [setWalk_stream, State.setLaunch_launch_self]
      exact congrArg Launch.pc (atRecord_launch_self s l _)

/-! ### OPR and XFER -/

/-- Noting which launch names a record changes tensor records only. -/
theorem noteUses_keeps {γ : Type} (g : State → γ) (hg : ∀ s n x, g (State.setTensor s n x) = g s) (s : State) (l : Nat)
    (ts : List Nat) : g (noteUses s l ts) = g s :=
  foldl_keeps (f := fun s t => if (tensorAt s t).byLoader then s.setTensor t { tensorAt s t with refl := some l } else s) g
    (fun s t => by dsimp only; split <;> [exact hg _ _ _; rfl]) ts s

@[simp] theorem noteUses_mem (s : State) (l : Nat) (ts : List Nat) : (noteUses s l ts).mem = s.mem :=
  noteUses_keeps State.mem (fun _ _ _ => rfl) s l ts

@[simp] theorem noteUses_at_launch (s : State) (l : Nat) (ts : List Nat) (j : Nat) : (noteUses s l ts).launch j = s.launch j :=
  noteUses_keeps (fun s => s.launch j) (fun _ _ _ => rfl) s l ts

/-- An operator of a launch's stream enters the scoreboard under a fresh number, and the walk goes on (R34). -/
theorem enterOp_stream (s : State) (l : Nat) (x : Op) (opr : Bool) :
    (enterOp s (streamOf_ l) x opr).op s.fresh = some { x with launch := l, frame := none, num := (s.launch l).entered } ∧
    ((enterOp s (streamOf_ l) x opr).launch l).entered = (s.launch l).entered + 1 ∧
    ((enterOp s (streamOf_ l) x opr).launch l).pc = (s.launch l).pc + 32 ∧
    (enterOp s (streamOf_ l) x opr).mem = s.mem := by
  refine ⟨?_, ?_, ?_, rfl⟩
  · simp only [enterOp, State.tick, streamOf_f, streamOf_l, nextRec_stream, atRecord_at_op]
    exact State.setOp_op_self _ _ _
  · simp only [enterOp, State.tick, streamOf_f, streamOf_l, nextRec_stream, atRecord_launch_self, State.setLaunch_launch_self]
    rfl
  · simp only [enterOp, State.tick, streamOf_f, streamOf_l, nextRec_stream, atRecord_launch_self, State.setLaunch_launch_self]
    rfl

/-- The walk of a launch's stream waits at an XFER or goes on; either way the record that follows is next, and the scoreboard and
memory are as they were. -/
theorem waitXfer_stream (s : State) (l o : Nat) (b : Bool) : ∃ t, (if b then setWalk s (streamOf_ l) (.xfer o) else s) = t ∧
    t.op = s.op ∧ (t.launch l).pc = (s.launch l).pc ∧ t.mem = s.mem := by
  cases b
  · exact ⟨s, rfl, rfl, rfl, rfl⟩
  · exact ⟨_, rfl, rfl, by simp, rfl⟩

theorem recScope_stream {s : State} {l : Nat} {scope : BitVec 16} (h : inSubtree s scope.toNat (s.launch l).pkt.scope.toNat = true) :
    recScope s (streamOf_ l) scope = some scope := if_pos h

/-- The operator that an OPR record of launch l's stream enters, with what its OPB says. -/
def streamOp (s : State) (l : Nat) (r : OprRec) (entry : Word) (loops : List Loop) : Op :=
  { launch := l, num := 0, prio := r.prio, tclass := r.tclass, rect := r.rect, scope := r.scope,
    opb := (s.launch l).pkt.opbtab + 64 * r.opbi.zeroExtend 64, entry := entry, loops := loops,
    ins := [r.in0, r.in1, r.in2, r.in3].map normHandle, outs := [r.out0, r.out1].map normHandle,
    steps := stepCount loops, left := stepCount loops }

theorem exec_opr {s : State} {l : Nat} {r : OprRec} {v : Nat} {entry : Word} {loops : List Loop} (hw : walks s l = true)
    (hroom : boardFull s (streamOf_ l) = false) (hscope : inSubtree s r.scope.toNat (s.launch l).pkt.scope.toNat = true)
    (hrect : rectValid s (s.launch l).ctx r.rect = true) (hwithin : rectWithin r.rect (s.launch l).pkt.rect = true)
    (houts : outsOk s (streamOf_ l) ([r.out0, r.out1].map normHandle) = true)
    (hlive : handlesLive s (s.launch l).ctx
      ([r.in0, r.in1, r.in2, r.in3].map normHandle ++ [r.out0, r.out1].map normHandle) = true)
    (hread : seqRead s (s.launch l).ctx (s.launch l).die 8 8 ((s.launch l).pkt.opbtab + 64 * r.opbi.zeroExtend 64) = .ok v)
    (hopb : readOpb v = some (entry, loops)) :
    exec (.opr r) s = .next (enterOp (noteUses s l (opIns s (streamOp s l r entry loops) ++ opOuts s (streamOp s l r entry loops)))
      (streamOf_ l) (streamOp s l r entry loops) true) := by
  change anyStream s _ = _
  rw [anyStream_walks hw]
  simp only [hroom, recScope_stream hscope, streamOf_l, hrect, hwithin, houts, hlive, Bool.not_true, Bool.or_self,
    Bool.false_eq_true, if_false, walkDie_stream]
  rw [hread]
  simp only [walkRead, hopb]
  rfl

theorem exec_xfer {s : State} {l : Nat} {prio : BitVec 5} {tier : BitVec 3} {scope : BitVec 16} {h : BitVec 32}
    (hw : walks s l = true) (hroom : boardFull s (streamOf_ l) = false) (htier : tier.toNat < 3)
    (hscope : inSubtree s scope.toNat (s.launch l).pkt.scope.toNat = true) (hlive : (liveTensor s (s.launch l).ctx h).isSome = true) :
    ∃ b : Bool, exec (.xfer prio tier scope h) s =
      let t := enterOp s (streamOf_ l)
        { launch := l, num := 0, tier := some tier.toNat, prio := prio, scope := scope, ins := [h] } false
      .next (if b then setWalk t (streamOf_ l) (.xfer s.fresh) else t) := by
  have hnone : (liveTensor s (s.launch l).ctx h).isNone = false := by
    rw [Option.isNone_eq_false_iff]; exact hlive
  change ∃ b : Bool, anyStream s _ = _
  rw [anyStream_walks hw]
  simp only [hroom, recScope_stream hscope, streamOf_l, walkCtx_stream, hnone, Nat.not_le.mpr htier, or_self,
    Bool.false_eq_true, if_false]
  exact ⟨_, rfl⟩

/-! ### TNEW, TDEL and TPIN -/

theorem exec_tnew_lazy {s : State} {l n v rs : Nat} {h : BitVec 32} {desc : Word} (hw : walks s l = true)
    (hkey : handleKey s (s.launch l).ctx h = some n) (hidx : nbits h.toNat 8 20 ≠ 0) (hdesc : desc.toNat % 8 = 0)
    (hread : seqRead s (s.launch l).ctx (s.launch l).die 8 8 desc = .ok v) (hgood : descBad v = false)
    (hfree : (tensorAt s n).st = .free) (hgen : (tensorAt s n).gen = h.extractLsb' 0 8) (hlazy : nbits v 10 1 = 1)
    (hrecipe : seqRead s (s.launch l).ctx (s.launch l).die 32 (nbits v 256 5) (BitVec.ofNat 64 (nbits v 192 64)) = .ok rs) :
    exec (.tnew h desc) s = .next (nextRec (s.setTensor n (descTensor (s.launch l).ctx h desc v
      (recipeInputs rs (nbits v 256 5)).eraseDups l)) (streamOf_ l)) := by
  change streamOnly s _ = _
  rw [streamOnly_walks hw]
  simp only [walkCtx_stream, walkDie_stream, hkey, hidx, hdesc, hread, walkRead, hgood, hfree, hgen, hrecipe, createTensor, hlazy,
    streamOf_l, ne_eq, not_true_eq_false, or_self, Bool.false_eq_true, if_false, if_true]

theorem exec_tdel_stale {s : State} {l : Nat} {h : BitVec 32} (hw : walks s l = true)
    (hlive : liveTensor s (s.launch l).ctx h = none) : exec (.tdel h) s = .next (nextRec s (streamOf_ l)) := by
  change streamOnly s _ = _
  rw [streamOnly_walks hw]
  simp only [walkCtx_stream, hlive]

theorem exec_tdel_unused {s : State} {l n : Nat} {h : BitVec 32} (hw : walks s l = true)
    (hlive : liveTensor s (s.launch l).ctx h = some n) (huse : inUse s n = false) (hframe : frameFor s n = none)
    (hmove : (tensorAt s n).move = none) (hdeps : (dependents s n).filter (fun d => d ≠ n) = []) :
    exec (.tdel h) s = .next (nextRec (freeTensor (clearReaders s n) n) (streamOf_ l)) := by
  change streamOnly s _ = _
  rw [streamOnly_walks hw]
  simp only [walkCtx_stream, hlive, huse, hframe, hmove, hdeps, Option.isSome_none, Bool.or_self, Bool.false_eq_true, if_false]

theorem exec_tpin_placed {s : State} {l n : Nat} {h : BitVec 32} (hw : walks s l = true)
    (hlive : liveTensor s (s.launch l).ctx h = some n) (hst : (tensorAt s n).st ≠ .dropped) (pin : Bool) :
    exec (.tpin h pin) s = .next (nextRec (s.setTensor n { tensorAt s n with pin := pin }) (streamOf_ l)) := by
  have hst' : (tensorAt (s.setTensor n { tensorAt s n with pin := pin }) n).st ≠ .dropped := by
    rw [tensorAt, State.setTensor_tensor_self]; exact hst
  change streamOnly s _ = _
  rw [streamOnly_walks hw]
  simp only [walkCtx_stream, hlive, hst', and_false, if_false]

theorem operatorRecordResult_holds : operatorRecordResult := by
  intro l s hw
  extract_lets x w
  refine ⟨fun r v entry loops hroom hscope hrect hwithin houts hlive hread hopb => ?opr,
    fun prio tier scope h hroom htier hscope hlive => ?xfer,
    fun h desc v rs n hkey hidx hdesc hread hgood hfree hgen hlazy hrecipe => ?tnew,
    fun h hlive => exec_tdel_stale hw hlive,
    fun h n hlive huse hframe hmove hdeps => exec_tdel_unused hw hlive huse hframe hmove hdeps,
    fun h n hlive hst pin => exec_tpin_placed hw hlive hst pin⟩
  case opr =>
    obtain ⟨hop, hentered, hpc, hmem⟩ := enterOp_stream
      (noteUses s l (opIns s (streamOp s l r entry loops) ++ opOuts s (streamOp s l r entry loops))) l (streamOp s l r entry loops) true
    rw [noteUses_at_launch] at hop hentered hpc
    exact ⟨_, _, _, exec_opr hw hroom hscope hrect hwithin houts hlive hread hopb, hop, rfl, rfl, rfl, rfl, rfl, rfl, rfl, rfl, rfl,
      rfl, hentered, hpc, hmem.trans (noteUses_mem _ _ _)⟩
  case xfer =>
    obtain ⟨b, hexec⟩ := exec_xfer (prio := prio) hw hroom htier hscope hlive
    obtain ⟨t, ht, hop', hpc', hmem'⟩ := waitXfer_stream (enterOp s (streamOf_ l)
        { launch := l, num := 0, tier := some tier.toNat, prio := prio, scope := scope, ins := [h] } false) l s.fresh b
    obtain ⟨hop, -, hpc, hmem⟩ := enterOp_stream s l
      { launch := l, num := 0, tier := some tier.toNat, prio := prio, scope := scope, ins := [h] } false
    exact ⟨t, _, _, hexec.trans (congrArg _ ht), (congrFun hop' _).trans hop, rfl, rfl, rfl, rfl, rfl, hpc'.trans hpc,
      hmem'.trans hmem⟩
  case tnew =>
    exact ⟨_, _, exec_tnew_lazy hw hkey hidx hdesc hread hgood hfree hgen hlazy hrecipe, State.setTensor_tensor_self _ _ _,
      rfl, rfl, rfl, rfl, rfl, by simp [x], rfl⟩

/-- Settles O40: what the records of a launch's stream do. -/
theorem streamRecordResult : Obligations.StreamRecordResult := ⟨recordResult_holds, operatorRecordResult_holds⟩

end Sys2Proof.Machine

/-! ## Launches (R28 to R30, R45, R49, R299, R305) -/

namespace Sys2Proof.Machine
open Sys2Proof Sys2Proof.Ob

/-! ### What the shared operations leave alone -/

/-- A fold that makes Q of P at item j, and loses neither at the other items, makes Q of P where j is among its items. -/
theorem foldl_reaches {β : Type} {f : State → β → State} {P Q : State → Prop} {j : β} (hat : ∀ s, P s → Q (f s j))
    (hpass : ∀ s x, x ≠ j → P s → P (f s x)) (hstay : ∀ s x, Q s → Q (f s x)) {xs : List β} (hj : j ∈ xs) {s : State} (h : P s) :
    Q (xs.foldl f s) := by
  have hrest (ys : List β) (t : State) (ht : Q t) : Q (ys.foldl f t) := by
    induction ys generalizing t with
    | nil => exact ht
    | cons y ys ih => exact ih _ (hstay t y ht)
  induction xs generalizing s with
  | nil => cases hj
  | cons x xs ih =>
    by_cases hx : x = j
    · subst hx; exact hrest xs _ (hat s h)
    · exact ih ((List.mem_cons.mp hj).resolve_left (Ne.symm hx)) (hpass s x hx h)

theorem unbindLaunch_keeps {γ : Type} (g : State → γ) (hcore : ∀ s c k, g (State.setCore s c k) = g s) (s : State) (l : Nat) :
    g (unbindLaunch s l) = g s :=
  foldl_keeps (f := fun s (x : Nat × Core) => unbindCore s x.1) g (fun s x => hcore s x.1 _) _ s

theorem discardLines_keeps {γ : Type} (g : State → γ) {c : Nat} (hcore : ∀ s k, g (State.setCore s c k) = g s)
    (hdie : ∀ s d x, g (State.setDie s d x) = g s) (s : State) (p : FetchLine → Bool) :
    g (discardLines s c p) = g s := by
  simp only [discardLines]
  split
  · rfl
  · split
    · exact hcore _ _
    · exact (hdie _ _ _).trans (hcore _ _)

theorem putPark_keeps {γ : Type} (g : State → γ) {c : Nat} (hcore : ∀ s k, g (State.setCore s c k) = g s)
    (harray : ∀ s a x, g (State.setArray s a x) = g s) (xs : List VCell) (s : State) (j : Nat) : g (putPark s c j xs) = g s := by
  induction xs generalizing s j with
  | nil => rfl
  | cons x xs ih => exact (ih _ _).trans ((hcore _ _).trans (harray _ _ _))

theorem readyNow_keeps {γ : Type} (g : State → γ) (hop : ∀ s o x, g (State.setOp s o x) = g s) (s : State) (l c : Nat) :
    g (readyNow s l c) = g s :=
  foldl_keeps g (fun s y => by dsimp only; split <;> [exact hop _ _ _; rfl]) _ s

theorem releaseSteps_keeps {γ : Type} (g : State → γ) (hop : ∀ s o x, g (State.setOp s o x) = g s) (s : State) (t : Nat) :
    g (releaseSteps s t) = g s :=
  foldl_keeps g (fun s y => by dsimp only; split <;> [exact hop _ _ _; rfl]) _ s

theorem dropReq_keeps {γ : Type} (g : State → γ) (hop : ∀ s o x, g (State.setOp s o x) = g s)
    (hreq : ∀ s r, g (State.delReq s r) = g s) (s : State) (r t : Nat) : g (dropReq s r t) = g s := by
  simp only [dropReq]
  split
  · exact hreq s r
  · exact (releaseSteps_keeps g hop _ t).trans (hreq s r)

/-- The end of a scope changes the Headgate only (R53). -/
theorem reapScopes_keeps {γ : Type} (g : State → γ) (hscope : ∀ s n x, g (State.setScope s n x) = g s) (s : State) :
    g (reapScopes s) = g s :=
  foldl_keeps g (fun s x => by
    split
    · exact foldl_keeps g (fun s n => hscope s n _) _ s
    · rfl) _ s

theorem checkVirtual_congr {s t : State} (hmem : t.mem = s.mem) (htlb : t.tlb = s.tlb) (hctx : ∀ n, t.ctx n = s.ctx n)
    (w : Who) (k : AccKind) (a n : Nat) : checkVirtual t w k a n = checkVirtual s w k a n := by
  simp only [checkVirtual, translateOn, cachedLeaf, hmem, htlb, hctx]

/-- The check of an access by the sequencer looks at memory, the contexts' tables and the translations held, and nothing else. -/
theorem seqCheck_congr {s t : State} (hmem : t.mem = s.mem) (htlb : t.tlb = s.tlb) (hctx : ∀ n, t.ctx n = s.ctx n)
    (ctx die : Nat) (k : AccKind) (a : Word) (n : Nat) : seqCheck t ctx die k a n = seqCheck s ctx die k a n := by
  unfold seqCheck
  split
  · rfl
  · next hwin => simp only [checkAccess, checkVirtual_congr hmem htlb hctx, if_neg hwin]

/-! ### Taking a packet -/

/-- Whether a scope's work goes on is told by the Headgate alone. -/
theorem scopeDead_congr {s t : State} (h : t.hg = s.hg) (die : Nat) (n : BitVec 16) : scopeDead t die n = scopeDead s die n := by
  unfold scopeDead cancelledOn State.scope
  rw [h]

/-- A taken packet whose scope is not cancelled, of a launch that is not parked in its parent, waits for binding. -/
theorem startTaken_binding {s : State} {x : Launch} (hlive : scopeDead s x.die x.pkt.scope = false) :
    (startTaken s x false).launch s.fresh = { x with st := .binding } := by
  have hlive' : scopeDead s.tick.2 x.die x.pkt.scope = false := hlive
  simp only [startTaken, hlive', Bool.false_eq_true, if_false]
  exact State.setLaunch_launch_self _ _ _

theorem launchOk_congr {s t : State} (hscopes : ∀ n, t.scope n = s.scope n) (hctx : ∀ n, t.ctx n = s.ctx n)
    (hmgmt : t.mgmt = s.mgmt) (ctx v : Nat) (k : LaunchPkt) : launchOk t ctx v k none = launchOk s ctx v k none := by
  simp only [launchOk, rectValid, hscopes, hctx, hmgmt]

/-- A packet that no claim of a strand stands for, accepted and of a scope that is not cancelled, becomes a launch that waits for
binding (R28). -/
theorem takeLaunch_accepted {s : State} {qk k : Nat} {q : QRec} (hsound : s.mem.poisoned (qslotKey qk q k) 64 = false)
    (hok : launchOk s q.ctx (s.mem.readNat (qslotKey qk q k) 64) (launchFields (s.mem.readNat (qslotKey qk q k) 64)) none = true)
    (hlive : scopeDead s q.die (launchFields (s.mem.readNat (qslotKey qk q k) 64)).scope = false) :
    (takeLaunch s qk q k none).launch s.fresh =
      let pkt := launchFields (s.mem.readNat (qslotKey qk q k) 64)
      { ctx := q.ctx, queue := qk, slot := k, die := q.die, pkt := pkt, st := .binding, pc := pkt.stream, walk := .run } := by
  have hkeeps {γ : Type} (g : State → γ) (hdie : ∀ s d x, g (State.setDie s d x) = g s) := takeStamps_keeps g hdie s q.die
    [q.atDie, q.slotDie qk k]
  unfold takeLaunch
  generalize takeStamps s q.die [q.atDie, q.slotDie qk k] = t at hkeeps
  have hmem : t.mem = s.mem := hkeeps State.mem fun _ _ _ => rfl
  have hok' := (launchOk_congr (fun n => hkeeps (fun s => s.scope n) fun _ _ _ => rfl)
    (fun n => hkeeps (fun s => s.ctx n) fun _ _ _ => rfl) (hkeeps State.mgmt fun _ _ _ => rfl) _ _ _).trans hok
  simp only [hmem, Option.map_none, Option.getD_none, Bool.false_and, Bool.and_false, hsound, hok', Bool.not_false, Bool.and_true,
    Bool.false_eq_true, if_false, if_true]
  have hput {γ : Type} (g : State → γ) (hdie : ∀ s d x, g (State.setDie s d x) = g s) :
      g (putHdr t q 8 8 (k + 1)) = g { t with mem := t.mem.setNat (q.base + 8) 8 (k + 1) } := sendStamp_keeps g hdie _ _ _
  have hfresh : (putHdr t q 8 8 (k + 1)).fresh = s.fresh :=
    (hput State.fresh fun _ _ _ => rfl).trans (hkeeps State.fresh fun _ _ _ => rfl)
  have hhg : (putHdr t q 8 8 (k + 1)).hg = s.hg := (hput State.hg fun _ _ _ => rfl).trans (hkeeps State.hg fun _ _ _ => rfl)
  rw [← hfresh]
  exact startTaken_binding (s := (putHdr t q 8 8 (k + 1)).setQueue _ _) ((scopeDead_congr hhg _ _).trans hlive)

theorem exec_launchPacketTake {s : State} {qk : Nat} {q : QRec} (hq : s.queue qk = some q) (hkind : q.kind = .launch)
    (hgoes : q.stopped = false) (hhead : headOf s qk = none) (hline : queueLine s qk q (ridxOf s q) = none) (hqk : qk < 65536)
    (htag : tagOf s qk q (ridxOf s q) = ridxOf s q) : exec (.launchPacketTake qk) s =
      .next (takeLaunch s qk q (ridxOf s q) (q.claims.find? (fun c => c.slot == ridxOf s q))) := by
  change execLaunchPacketTake qk s = _
  simp only [execLaunchPacketTake, hq, hkind, hgoes, hhead, hline, htag, Nat.not_le.mpr hqk, Option.isSome_none, ne_eq,
    not_true_eq_false, Bool.false_eq_true, or_self, if_false, if_true]

/-! ### Binding -/

/-- The clearing of a core before a binding leaves what it is bound to (R31). -/
theorem clearCore_bind (s : State) (c ctx j : Nat) : ((clearCore s c ctx).core j).bind = (s.core j).bind := by
  by_cases h : j = c
  · subst h; simp only [clearCore, State.setCore_core_self]; rfl
  · simp only [clearCore, State.setCore_core_ne _ h]; rfl

theorem clearCore_at_launch (s : State) (c ctx l : Nat) : (clearCore s c ctx).launch l = s.launch l := rfl

theorem bindCore_at_launch (s : State) (l c j : Nat) : (bindCore s l c).launch j = s.launch j := by
  simp only [bindCore, State.setCore_at_launch]
  rw [readyNow_keeps (fun s => s.launch j) fun _ _ _ => rfl]
  split <;> rfl

/-- Core j is bound to launch l, in its context, and GEN counts from here (R30, R208). -/
def boundTo (s : State) (l j : Nat) : Prop :=
  (s.core j).bind.bound = some l ∧ (s.core j).bind.gen = 0 ∧ (s.core j).bind.ctx = some (s.launch l).ctx

theorem bindCore_binds (s : State) (l c : Nat) : boundTo (bindCore s l c) l c := by
  refine ⟨?_, ?_, ?_⟩
  · simp [bindCore]
  · simp [bindCore]
  · rw [bindCore_at_launch]; simp [bindCore]

theorem bindCore_bind_ne (s : State) (l : Nat) {c j : Nat} (h : j ≠ c) : ((bindCore s l c).core j).bind = (s.core j).bind := by
  simp only [bindCore, State.setCore_core_ne _ h]
  rw [readyNow_keeps (fun s => s.core j) fun _ _ _ => rfl]
  split
  · rfl
  · exact clearCore_bind s c _ j

/-- Binding further cores leaves a bound one bound. -/
theorem bindCore_boundTo {s : State} {l j : Nat} (h : boundTo s l j) (c : Nat) : boundTo (bindCore s l c) l j := by
  by_cases hj : j = c
  · subst hj; exact bindCore_binds s l j
  · unfold boundTo
    rwa [bindCore_bind_ne s l hj, bindCore_at_launch]

/-- What a GANG_BIND of a die's share makes of the state, where the launch is not pre-empted. -/
def shareBound (s : State) (l die : Nat) : State :=
  let t := (shareOf s l die).foldl (fun s c => bindCore s l c) s
  t.setLaunch l { s.launch l with shares := (s.launch l).shares ++ [die] }

theorem shareBound_boundTo {s : State} {l die c : Nat} (h : c ∈ shareOf s l die) : boundTo (shareBound s l die) l c := by
  obtain ⟨hbound, hgen, hctx⟩ := foldl_reaches (P := fun _ => True) (Q := fun s => boundTo s l c)
    (f := fun s c => bindCore s l c) (fun s _ => bindCore_binds s l c) (fun _ _ _ _ => trivial)
    (fun s j hb => bindCore_boundTo hb j) h (s := s) trivial
  refine ⟨hbound, hgen, hctx.trans ?_⟩
  rw [foldl_keeps (fun s => s.launch l) (fun s c => bindCore_at_launch s l c l)]
  simp [shareBound]

/-- A launch that is not pre-empted and whose last share is bound starts (R30). -/
theorem startLaunch_first {s : State} {l : Nat} (h : (s.launch l).st ≠ .preempted) :
    startLaunch s l = s.setLaunch l { s.launch l with st := .running } := if_neg h

theorem exec_gangBind {s : State} {l die : Nat} (hst : (s.launch l).st = .binding) (hdie : die ∈ launchDies s l)
    (hnew : die ∉ (s.launch l).shares) (hlive : scopeDead s (s.launch l).die (s.launch l).pkt.scope = false)
    (hlower : ((launchDies s l).filter (fun d => decide (d < die))).all (fun d => (s.launch l).shares.contains d) = true)
    (hother : (s.launch l).lent = true ∨ heldByOther s l = false) (hcores : (shareOf s l die).all (bindable s l) = true) :
    exec (.gangBind l die) s =
      let t := shareBound s l die
      .next (if (launchDies s l).all (fun d => (t.launch l).shares.contains d) then startLaunch t l else t) := by
  have hdie' : (launchDies s l).contains die = true := List.contains_iff_mem.mpr hdie
  have hnew' : (s.launch l).shares.contains die = false := by simpa using hnew
  have hother' : ¬ ((!(s.launch l).lent) = true ∧ heldByOther s l = true) := by
    rintro ⟨hlent, hheld⟩
    rcases hother with h | h
    · simp [h] at hlent
    · simp [h] at hheld
  have hlaunch (cs : List Nat) : (cs.foldl (fun s c => bindCore s l c) s).launch l = s.launch l :=
    foldl_keeps (fun s => s.launch l) (fun s c => bindCore_at_launch s l c l) cs s
  change execGangBind l die s = _
  simp only [execGangBind, hst, hdie', hnew', hlive, hlower, hother', hcores, hlaunch, shareBound, ne_eq, not_true_eq_false,
    reduceCtorEq, not_false_eq_true, Bool.not_true, Bool.false_eq_true, and_true, or_self, if_false]

theorem gangBind_holds (s : State) (l die : Nat) (hst : (s.launch l).st = .binding) (hdie : die ∈ launchDies s l)
    (hnew : die ∉ (s.launch l).shares) (hlive : scopeDead s (s.launch l).die (s.launch l).pkt.scope = false)
    (hlower : ((launchDies s l).filter (fun d => decide (d < die))).all (fun d => (s.launch l).shares.contains d) = true)
    (hother : (s.launch l).lent = true ∨ heldByOther s l = false) (hcores : (shareOf s l die).all (bindable s l) = true) :
    ∃ t, exec (.gangBind l die) s = .next t ∧ die ∈ (t.launch l).shares ∧
      ∀ c ∈ shareOf s l die, (t.core c).bind.bound = some l ∧ (t.core c).bind.gen = 0 ∧
        (t.core c).bind.ctx = some (s.launch l).ctx := by
  have hexec := exec_gangBind hst hdie hnew hlive hlower hother hcores
  have hx : (shareBound s l die).launch l = { s.launch l with shares := (s.launch l).shares ++ [die] } := by simp [shareBound]
  have hbound (c : Nat) (hc : c ∈ shareOf s l die) := shareBound_boundTo hc
  simp only [boundTo, hx] at hbound
  refine ⟨_, hexec, ?_⟩
  split
  · rw [startLaunch_first (by simp [hx, hst])]
    exact ⟨by simp [hx], hbound⟩
  · exact ⟨by simp [hx], hbound⟩

/-! ### Pre-emption -/

theorem exec_preemptRequest {s : State} {q l : Nat} (hhead : headOf s q = some l) (hother : heldByOther s l = false)
    (hmay : (blockers s l).all (preemptible s (s.launch l).pkt.prio.toNat) = true) :
    exec (.preemptRequest q) s = .next ((blockers s l).foldl preemptLaunch s) := by
  change execPreemptRequest q s = _
  simp only [execPreemptRequest, hhead]
  exact if_pos ⟨hmay, by simp [hother]⟩

theorem exec_preemptFallback {s : State} {c l : Nat} {since : Word} (hpre : (s.core c).bind.preempt = some since)
    (hbound : (s.core c).bind.bound = some l) (hgoes : preempting s l = true) (hbusy : (s.th c).job.run ≠ .idle)
    (hruns : (s.th c).job.run ≠ .stopped) (hwaited : fitWait ≤ readyFor s c since) : exec (.preemptFallback c) s =
      .next (s.setCore c { s.core c with bind := { (s.core c).bind with fallback := true } }) := by
  unfold State.th at hbusy hruns
  change execPreemptFallback c s = _
  simp only [execPreemptFallback, hbound, hgoes, hbusy, hruns, hpre, Bool.not_true, Bool.false_eq_true, or_self, if_false]
  exact if_pos (decide_eq_true hwaited)

theorem exec_preemptFallback_none {s : State} {c : Nat} (h : ∀ l, (s.core c).bind.bound = some l → preempting s l = false) :
    exec (.preemptFallback c) s = .next s := by
  change execPreemptFallback c s = _
  cases hbound : (s.core c).bind.bound with
  | none => simp only [execPreemptFallback, hbound]
  | some l => simp only [execPreemptFallback, hbound, h l hbound, Bool.not_false, true_or, if_true]

end Sys2Proof.Machine

/-! ## Completion of a launch and the return of lent cores (R29, R49, R50) -/

namespace Sys2Proof.Machine
open Sys2Proof Sys2Proof.Ob

/-! ### The end of a launch -/

/-- A launch but for whether it is lent its cores, which the end of its parent may take back (R50). -/
def Launch.unlent (x : Launch) : Launch := { x with lent := false }

theorem Launch.unlent_of_parked_nil {x : Launch} (h : x.parked = []) : ({ x with parked := [] } : Launch).unlent = x.unlent := by
  rw [← h]

theorem unlend_keeps {γ : Type} (g : State → γ) (hcore : ∀ s c k, g (State.setCore s c k) = g s)
    (hlaunch : ∀ s n x, g (State.setLaunch s n x) = g s) (s : State) (child : Nat) : g (unlend s child) = g s :=
  (hlaunch _ _ _).trans (foldl_keeps (f := fun s (c : Nat × Core) =>
    s.setCore c.1 { s.core c.1 with bind := { (s.core c.1).bind with lendTo := none } }) g (fun s c => hcore s c.1 _) _ s)

theorem unlend_launch (s : State) (child l : Nat) : ((unlend s child).launch l).unlent = (s.launch l).unlent := by
  have hcores (n : Nat) := foldl_keeps (f := fun s (c : Nat × Core) =>
    s.setCore c.1 { s.core c.1 with bind := { (s.core c.1).bind with lendTo := none } }) (fun s => s.launch n) (fun _ _ => rfl)
    (s.cores.filter (fun c => c.2.bind.lendTo == some child)) s
  dsimp only at hcores
  simp only [unlend]
  by_cases h : l = child
  · subst h; rw [State.setLaunch_launch_self, hcores]; rfl
  · rw [State.setLaunch_launch_ne _ h, hcores]

theorem startParked_keeps {γ : Type} (g : State → γ) (hcore : ∀ s c k, g (State.setCore s c k) = g s)
    (hlaunch : ∀ s n x, g (State.setLaunch s n x) = g s) (s : State) (l : Nat) : g (startParked s l) = g s :=
  (hlaunch _ _ _).trans ((foldl_keeps (f := fun s j => s.setLaunch j { s.launch j with st := .binding }) g
    (fun s j => hlaunch s j _) _ _).trans (foldl_keeps (f := fun s (x : Nat × Launch) => unlend s x.1) g
    (fun s x => unlend_keeps g hcore hlaunch s x.1) _ s))

theorem startParked_launch {s : State} {l : Nat} (h : (s.launch l).parked = []) :
    ((startParked s l).launch l).unlent = (s.launch l).unlent := by
  have hunlend := foldl_keeps (f := fun s (x : Nat × Launch) => unlend s x.1) (fun s => (s.launch l).unlent)
    (fun s x => unlend_launch s x.1 l)
    (s.work.launches.filter (fun x => x.2.parent == some l && x.2.lent && x.2.st == .binding)) s
  have hparked := (congrArg Launch.parked hunlend).trans h
  rw [startParked, State.setLaunch_launch_self]
  exact (Launch.unlent_of_parked_nil hparked).trans hunlend

theorem closeLaunch_keeps {γ : Type} (g : State → γ) (hcore : ∀ s c k, g (State.setCore s c k) = g s)
    (hlaunch : ∀ s n x, g (State.setLaunch s n x) = g s) (s : State) (l : Nat) (v : BitVec 8) : g (closeLaunch s l v) = g s := by
  refine (startParked_keeps g hcore hlaunch _ l).trans ?_
  split
  · exact hlaunch _ _ _
  · exact (unbindLaunch_keeps g hcore _ l).trans (hlaunch _ _ _)

theorem closeLaunch_launch {s : State} {l : Nat} (h : (s.launch l).parked = []) (v : BitVec 8) :
    ((closeLaunch s l v).launch l).unlent = ({ s.launch l with st := .closing, status := some v } : Launch).unlent := by
  have hopen : ((if (s.launch l).lent then s.setLaunch l { s.launch l with st := .closing, status := some v } else
      unbindLaunch (s.setLaunch l { s.launch l with st := .closing, status := some v }) l).launch l) =
      { s.launch l with st := .closing, status := some v } := by
    split
    · exact State.setLaunch_launch_self _ _ _
    · exact (unbindLaunch_keeps (fun s => s.launch l) (fun _ _ _ => rfl) _ l).trans (State.setLaunch_launch_self _ _ _)
  refine (startParked_launch ?_).trans ?_
  · rw [hopen]; exact h
  · rw [hopen]

theorem endReq_keeps {γ : Type} (g : State → γ) (hop : ∀ s o x, g (State.setOp s o x) = g s)
    (hreq : ∀ s r, g (State.delReq s r) = g s) (hrun : ∀ s q x, g (State.setRun s q x) = g s)
    (hlaunch : ∀ s n x, g (State.setLaunch s n x) = g s) (s : State) (r : Nat) (x : WReq) : g (endReq s r x) = g s := by
  refine Eq.trans ?_ (dropReq_keeps g hop hreq s r x.t)
  simp only [endReq]
  cases x.by_ with
  | op o => rfl
  | shard => rfl
  | packet q =>
    dsimp only
    split
    · split
      · exact hrun _ _ _
      · rfl
    · rfl
  | walker l =>
    dsimp only
    split
    · exact hlaunch _ _ _
    · rfl

@[simp] theorem dropReports_mem (s : State) (l : Nat) : (dropReports s l).mem = s.mem :=
  foldl_keeps (f := fun s (r : Nat × WReq) => endReq s r.1 r.2) State.mem
    (fun s r => endReq_keeps State.mem (fun _ _ _ => rfl) (fun _ _ => rfl) (fun _ _ _ => rfl) (fun _ _ _ => rfl) s r.1 r.2) _ s

/-- A launch whose stamp can be written is stamped with its slot and status (R29). -/
theorem stampLaunch_writes {s : State} {l key : Nat} {cls : Option Cls} (hpark : (s.launch l).park = .run)
    (hcheck : seqCheck s (s.launch l).ctx (s.launch l).die .write (s.launch l).pkt.stamp 8 = .ok key cls) :
    ((stampLaunch s l).launch l).st = .stamped ∧
      (stampLaunch s l).mem = s.mem.writeNat key 8 ((s.launch l).slot * 256 + ((s.launch l).status.getD 1).toNat) := by
  simp only [stampLaunch, hpark, hcheck]
  constructor
  · rw [reapScopes_keeps (fun s => s.launch l) fun _ _ _ => rfl, State.setLaunch_launch_self]
  · rw [reapScopes_keeps State.mem fun _ _ _ => rfl, State.setLaunch_mem, dropReports_mem, sendStamp_mem]

theorem exec_launchComplete_closing {s : State} {l : Nat} (hhandlers : (s.launch l).handlers = [])
    (hst : (s.launch l).st = .closing) :
    exec (.launchComplete l) s = .next (stampLaunch (closeLaunch s l ((s.launch l).status.getD 1)) l) := by
  change execLaunchComplete l s = _
  simp only [execLaunchComplete, hhandlers, hst, List.isEmpty_nil, Bool.not_true, Bool.false_eq_true, if_false]

theorem launchComplete_holds (s : State) (l key : Nat) (cls : Option Cls) (hhandlers : (s.launch l).handlers = [])
    (hst : (s.launch l).st = .closing) (hpark : (s.launch l).park = .run) (hparked : (s.launch l).parked = [])
    (hcheck : seqCheck s (s.launch l).ctx (s.launch l).die .write (s.launch l).pkt.stamp 8 = .ok key cls) :
    ∃ t, exec (.launchComplete l) s = .next t ∧ (t.launch l).st = .stamped ∧
      t.mem = s.mem.writeNat key 8 ((s.launch l).slot * 256 + ((s.launch l).status.getD 1).toNat) := by
  refine ⟨_, exec_launchComplete_closing hhandlers hst, ?_⟩
  have hkeeps {γ : Type} (g : State → γ) (hcore : ∀ s c k, g (State.setCore s c k) = g s)
      (hlaunch : ∀ s n x, g (State.setLaunch s n x) = g s) :=
    closeLaunch_keeps g hcore hlaunch s l ((s.launch l).status.getD 1)
  have hclosed {γ : Type} (f : Launch → γ) := congrArg f (closeLaunch_launch hparked ((s.launch l).status.getD 1))
  generalize closeLaunch s l ((s.launch l).status.getD 1) = t at hkeeps hclosed
  have hmem : t.mem = s.mem := hkeeps State.mem (fun _ _ _ => rfl) (fun _ _ _ => rfl)
  have hctx : (t.launch l).ctx = (s.launch l).ctx := hclosed Launch.ctx
  have hdie : (t.launch l).die = (s.launch l).die := hclosed Launch.die
  have hpkt : (t.launch l).pkt = (s.launch l).pkt := hclosed Launch.pkt
  have hslot : (t.launch l).slot = (s.launch l).slot := hclosed Launch.slot
  have hpark' : (t.launch l).park = .run := (hclosed Launch.park).trans hpark
  have hstatus : (t.launch l).status = some ((s.launch l).status.getD 1) := hclosed Launch.status
  have hcheck' : seqCheck t (t.launch l).ctx (t.launch l).die .write (t.launch l).pkt.stamp 8 = .ok key cls := by
    rw [hctx, hdie, hpkt, seqCheck_congr hmem (hkeeps State.tlb (fun _ _ _ => rfl) (fun _ _ _ => rfl))
      (fun n => hkeeps (fun s => s.ctx n) (fun _ _ _ => rfl) (fun _ _ _ => rfl)), hcheck]
  obtain ⟨hstamped, hwritten⟩ := stampLaunch_writes hpark' hcheck'
  refine ⟨hstamped, ?_⟩
  rw [hwritten, hmem, hslot, hstatus, Option.getD_some]

/-! ### The end of a pre-emption -/

theorem bankPages_keeps {γ : Type} (g : State → γ) (hmem : ∀ (s : State) m, g { s with mem := m } = g s) (s : State)
    (c ctx base : Nat) (role : BitVec 64) (save : Bool) : g (bankPages s c ctx base role save) = g s :=
  foldl_keeps g (fun s j => by
    split
    · split
      · split <;> exact hmem _ _
      · rfl
    · rfl) _ s

theorem putFields_keeps {γ : Type} (g : State → γ) (hmem : ∀ (s : State) m, g { s with mem := m } = g s) (fs : List SaveField)
    (s : State) (ctx base : Nat) : g (putFields s ctx base fs) = g s := by
  induction fs generalizing s with
  | nil => rfl
  | cons f fs ih =>
    refine (ih _).trans ?_
    split
    · exact hmem _ _
    · rfl

theorem stampFrame_keeps {γ : Type} (g : State → γ) (hdie : ∀ s d x, g (State.setDie s d x) = g s) (s : State)
    (die ctx base : Nat) : g (stampFrame s die ctx base) = g s :=
  foldl_keeps g (fun s d => sendStamp_keeps g hdie s die d) _ s

theorem sendSnoop_at_launch (s : State) (line l : Nat) : (sendSnoop s line).launch l = s.launch l := by
  simp only [sendSnoop]; split <;> rfl

theorem unowe_at_launch (s : State) (a : Agent) (l : Nat) : (s.unowe a).launch l = s.launch l := by
  unfold State.unowe; split <;> rfl

theorem failLaunch_at_launch_ne {l p : Nat} (h : l ≠ p) (s : State) : (failLaunch s p).launch l = s.launch l := by
  obtain ⟨ds, hask⟩ := askCancel_outside (s.setLaunch p { s.launch p with status := some 0x03 }) (s.launch p).die
    (s.launch p).pkt.scope.toNat .machine (s.launch p).ctx none
  rw [failLaunch, hask]
  exact State.setLaunch_launch_ne s h _

theorem unbindPre_at_launch_ne {l p : Nat} (h : l ≠ p) (s : State) (c : Nat) : (unbindPre s p c).launch l = s.launch l := by
  simp only [unbindPre]
  split
  · rfl
  · exact State.setLaunch_launch_ne _ h _

theorem saveBare_at_launch_ne {l p : Nat} (h : l ≠ p) (s : State) (c : Nat) : (saveBare s p c).launch l = s.launch l := by
  simp only [saveBare]
  split
  · exact sendSnoop_at_launch _ _ l
  · rw [unbindPre_at_launch_ne h]
    have hsaved (t : State) (die ctx base : Nat) (role : BitVec 64) (fs : List SaveField) :
        (putFields (bankPages (stampFrame t die ctx base) c ctx base role true) ctx base fs).launch l = t.launch l := by
      rw [putFields_keeps (fun s => s.launch l) (fun _ _ => rfl), bankPages_keeps (fun s => s.launch l) (fun _ _ => rfl),
        stampFrame_keeps (fun s => s.launch l) (fun _ _ _ => rfl)]
    split
    · rw [failLaunch_at_launch_ne h, hsaved]; exact unowe_at_launch s _ l
    · rw [hsaved]; exact unowe_at_launch s _ l

theorem settlePre_at_launch_ne {l p : Nat} (h : l ≠ p) (s : State) : (settlePre s p).launch l = s.launch l := by
  unfold settlePre
  split
  · exact foldl_keeps (f := fun s c => saveBare s p c) (fun s => s.launch l) (fun s c => saveBare_at_launch_ne h s c) _ s
  · rfl

/-- Where a launch is not being pre-empted, there is nothing to settle. -/
theorem settlePre_of_not_preempting {s : State} {p : Nat} (h : (s.launch p).st ≠ .preempting) : settlePre s p = s := by
  refine if_neg ?_
  simp [allStopped, preempting, h]

/-! ### The return of lent cores -/

theorem returnStrand_keeps {γ : Type} (g : State → γ) {c : Nat} (hcore : ∀ s k, g (State.setCore s c k) = g s)
    (hdie : ∀ s d x, g (State.setDie s d x) = g s) (harray : ∀ s a x, g (State.setArray s a x) = g s) (s : State) (f : LendFrame) :
    g (returnStrand s c f) = g s :=
  (putPark_keeps g hcore harray _ _ _).trans ((hcore _ _).trans (discardLines_keeps g hcore hdie s _))

theorem returnCore_keeps {γ : Type} (g : State → γ) {c : Nat} (hcore : ∀ s k, g (State.setCore s c k) = g s)
    (hop : ∀ s o x, g (State.setOp s o x) = g s) (hdie : ∀ s d x, g (State.setDie s d x) = g s)
    (harray : ∀ s a x, g (State.setArray s a x) = g s) (s : State) (l p : Nat) : g (returnCore s l p c) = g s := by
  have hback (k : Core) : g (if (s.core c).bind.bound = some l then readyNow (s.setCore c k) p c else s) = g s := by
    split
    · exact (readyNow_keeps g hop _ p c).trans (hcore s k)
    · rfl
  unfold returnCore
  extract_lets k y pre b t
  have ht : g t = g s := hback _
  clear_value t
  split
  · split
    · exact ht
    · split
      · exact (returnStrand_keeps g hcore hdie harray t _).trans ht
      · exact (hcore t _).trans ht
  · exact ht

theorem returnCore_at_launch (s : State) (l p c n : Nat) : (returnCore s l p c).launch n = s.launch n :=
  returnCore_keeps (fun s => s.launch n) (fun _ _ => rfl) (fun _ _ _ => rfl) (fun _ _ _ => rfl) (fun _ _ _ => rfl) s l p

theorem returnCore_at_core_ne {c j : Nat} (h : j ≠ c) (s : State) (l p : Nat) : (returnCore s l p c).core j = s.core j :=
  returnCore_keeps (fun s => s.core j) (fun s k => State.setCore_core_ne s h k) (fun _ _ _ => rfl) (fun _ _ _ => rfl)
    (fun _ _ _ => rfl) s l p

/-- Core j is bound to launch m and keeps no suspended strand. -/
def bareCore (s : State) (m j : Nat) : Prop := (s.core j).bind.bound = some m ∧ (s.core j).bind.frames = []

/-- A core lent without a strand goes back to its parent (R49). -/
theorem returnCore_lent {s : State} {l c : Nat} (p : Nat) (h : bareCore s l c) : bareCore (returnCore s l p c) p c := by
  obtain ⟨hbound, hframes⟩ := h
  have hcore (k : Core) : (readyNow (s.setCore c k) p c).core c = k :=
    (readyNow_keeps (fun s => s.core c) (fun _ _ _ => rfl) _ p c).trans (State.setCore_core_self s c k)
  simp only [bareCore, returnCore, hbound, if_true, hcore, hframes, and_self]

theorem returnCore_own {s : State} {l p c : Nat} (hne : p ≠ l) (h : bareCore s p c) : bareCore (returnCore s l p c) p c := by
  obtain ⟨hbound, hframes⟩ := h
  have hother : ¬ some p = some l := fun e => hne (Option.some.inj e)
  simp only [bareCore, returnCore, hbound, hother, if_false, hframes, and_self]

theorem returnCore_bare_ne {s : State} {m c j : Nat} (hj : j ≠ c) (l p : Nat) (h : bareCore s m j) :
    bareCore (returnCore s l p c) m j := by
  unfold bareCore
  rwa [returnCore_at_core_ne hj]

/-- The return of a child's cores gives its parent those that held no suspended strand. -/
theorem foldl_returnCore_bare {s : State} {l p j : Nat} (hne : p ≠ l) {cs : List Nat} (hj : j ∈ cs) (h : bareCore s l j) :
    bareCore (cs.foldl (fun s c => returnCore s l p c) s) p j := by
  refine foldl_reaches (P := fun s => bareCore s l j) (Q := fun s => bareCore s p j) (f := fun s c => returnCore s l p c)
    (fun s h => returnCore_lent p h) (fun s c hc h => returnCore_bare_ne (Ne.symm hc) l p h) (fun s c h => ?_) hj h
  by_cases hc : j = c
  · subst hc; exact returnCore_own hne h
  · exact returnCore_bare_ne hc l p h

/-- A value that is not the default is listed. -/
theorem mem_of_smGet_ne {α : Type} {d : α} {k : Nat} {m : SMap α} (h : smGet d k m ≠ d) : (k, smGet d k m) ∈ m := by
  induction m with
  | nil => exact absurd rfl h
  | cons p m ih =>
    obtain ⟨j, y⟩ := p
    by_cases hj : j = k
    · subst hj; simp [smGet]
    · simp only [smGet, hj, if_false] at h ⊢
      exact List.mem_cons_of_mem _ (ih h)

/-- A child that is lent cores and to which none lends is not its own parent. -/
theorem parent_ne_of_lent {s : State} {l p : Nat} (hlent : (s.launch l).lent = true) (hparent : (s.launch l).parent = some p)
    (hnone : s.work.launches.any (fun m => m.2.lent && m.2.parent == some l) = false) : p ≠ l := by
  rintro rfl
  have hlisted : (p, s.launch p) ∈ s.work.launches := mem_of_smGet_ne fun h => by
    rw [State.launch, h] at hlent
    cases hlent
  have hany := List.any_eq_false.mp hnone _ hlisted
  simp [hlent, hparent] at hany

theorem exec_lendReturn {s : State} {l p : Nat} (hlent : (s.launch l).lent = true) (hparent : (s.launch l).parent = some p)
    (hst : (s.launch l).st = .stamped) (hnone : s.work.launches.any (fun m => m.2.lent && m.2.parent == some l) = false) :
    exec (.lendReturn l) s =
      let t := (launchCores s l).foldl (fun s c => returnCore s l p c) (s.setLaunch l { s.launch l with lent := false })
      .next (if (t.launch p).st = .stamped ∧ !(t.launch p).lent then unbindLaunch t p else settlePre t p) := by
  change execLendReturn l s = _
  simp only [execLendReturn, hlent, hparent, hst, hnone, ne_eq, not_true_eq_false, Bool.false_eq_true, or_self, if_false]

theorem lendReturn_holds (s : State) (l p : Nat) (hlent : (s.launch l).lent = true) (hparent : (s.launch l).parent = some p)
    (hst : (s.launch l).st = .stamped) (hnone : s.work.launches.any (fun m => m.2.lent && m.2.parent == some l) = false) :
    ∃ t, exec (.lendReturn l) s = .next t ∧ (t.launch l).lent = false ∧
      ((s.launch p).st ≠ .stamped ∨ (s.launch p).lent = true → (s.launch p).st ≠ .preempting → ∀ c ∈ launchCores s l,
        (s.core c).bind.bound = some l → (s.core c).bind.frames = [] → (t.core c).bind.bound = some p) := by
  have hne := parent_ne_of_lent hlent hparent hnone
  have hexec := exec_lendReturn hlent hparent hst hnone
  have hreturned (j : Nat) (hj : j ∈ launchCores s l) := foldl_returnCore_bare
    (s := s.setLaunch l { s.launch l with lent := false }) hne hj
  have hlaunch (n : Nat) : ((launchCores s l).foldl (fun s c => returnCore s l p c)
      (s.setLaunch l { s.launch l with lent := false })).launch n = (s.setLaunch l { s.launch l with lent := false }).launch n :=
    foldl_keeps (fun s => s.launch n) (fun s c => returnCore_at_launch s l p c n) _ _
  have hl := hlaunch l
  have hp := (hlaunch p).trans (State.setLaunch_launch_ne s hne _)
  rw [State.setLaunch_launch_self] at hl
  simp only [bareCore, State.setLaunch_at_core] at hreturned
  generalize (launchCores s l).foldl (fun s c => returnCore s l p c) (s.setLaunch l { s.launch l with lent := false }) = t
    at hexec hreturned hl hp
  refine ⟨_, hexec, ?_, fun hover hpre c hc hbound hframes => ?_⟩
  · split
    · rw [unbindLaunch_keeps (fun s => s.launch l) fun _ _ _ => rfl, hl]
    · rw [settlePre_at_launch_ne hne.symm, hl]
  · rw [hp, if_neg, settlePre_of_not_preempting (by rwa [hp])]
    · exact (hreturned c hc ⟨hbound, hframes⟩).1
    · rintro ⟨hstamped, hnotlent⟩
      rcases hover with h | h
      · exact h hstamped
      · simp [h] at hnotlent

/-- Settles O51: taking, binding, pre-empting, stamping, and the return of lent cores. -/
theorem launchEvents : Obligations.LaunchEvents := by
  refine ⟨fun s qk q hq hkind hgoes hhead hline hqk htag => ?take, gangBind_holds,
    fun s q l hhead hother hmay => exec_preemptRequest hhead hother hmay,
    fun s c l since hpre hbound hgoes hbusy hruns hwaited => exec_preemptFallback hpre hbound hgoes hbusy hruns hwaited,
    fun s c h => exec_preemptFallback_none h, launchComplete_holds, lendReturn_holds⟩
  case take =>
    have hexec := exec_launchPacketTake hq hkind hgoes hhead hline hqk htag
    refine ⟨hexec, fun hclaim hsound hok hlive => ⟨_, hexec, ?_⟩⟩
    rw [hclaim, takeLaunch_accepted hsound hok hlive]
    exact ⟨rfl, rfl, rfl, rfl, rfl, rfl⟩

end Sys2Proof.Machine

/-! ## Operators and their steps (R34, R35, R39, R40, R44, R354, R357) -/

namespace Sys2Proof.Machine
open Sys2Proof Sys2Proof.Ob

/-! ### Issue -/

theorem exec_operatorIssue_xfer {s : State} {o : Nat} {x : Op} (hop : s.op o = some x) (hnew : x.issued = false)
    (hwalks : walking (s.launch x.launch) = true) (hlive : scopeDead s (opDie s x) x.scope = false)
    (hfirst : orderHeld s x = false) (htier : x.tier.isSome = true) :
    exec (.operatorIssue o) s = .next (issueOp s o x) := by
  change execOperatorIssue o s = _
  simp only [execOperatorIssue, hop, hnew, hwalks, hlive, hfirst, htier, Bool.not_true, Bool.false_eq_true, or_self, if_false,
    if_true]

theorem exec_operatorIssue_steps {s : State} {o : Nat} {x : Op} (hop : s.op o = some x) (hnew : x.issued = false)
    (hwalks : walking (s.launch x.launch) = true) (hlive : scopeDead s (opDie s x) x.scope = false)
    (hfirst : orderHeld s x = false) (htier : x.tier = none) (hwants : opWants s x = [])
    (hstill : (opIns s x ++ opOuts s x).all (fun t => (tensorAt s t).move.isNone) = true) :
    exec (.operatorIssue o) s = .next (issueOp s o x) := by
  have hmoves : (opIns s x ++ opOuts s x).any (fun t => (tensorAt s t).move.isSome) = false := by
    rw [List.any_eq_false]
    intro t ht
    simpa using List.all_eq_true.mp hstill t ht
  change execOperatorIssue o s = _
  simp only [execOperatorIssue, hop, hnew, hwalks, hlive, hfirst, htier, hwants, hmoves, Option.isSome_none, Bool.not_true,
    Bool.false_eq_true, or_self, if_false]

/-- The operator that an issue leaves on the scoreboard has the cores of its rectangle on whose dies its scope lives, and where that
is all of them every step (R59). -/
theorem issueOp_steps {s : State} {o : Nat} {x : Op} (htier : x.tier = none) : ∃ y, (issueOp s o x).op o = some y ∧ y.issued = true ∧
    y.cores = (opCores s x).filter (fun k => !scopeDead s (dieOfCore k.core) x.scope) ∧
    ((opCores s x).all (fun k => !scopeDead s (dieOfCore k.core) x.scope) = true → y.left = x.left) := by
  simp only [issueOp, htier, Option.isSome_none, Bool.false_eq_true, if_false]
  refine ⟨_, State.setOp_op_self _ _ _, rfl, rfl, fun hall => ?_⟩
  have hgone : (opCores s x).filter (fun k => scopeDead s (dieOfCore k.core) x.scope) = [] := by
    rw [List.filter_eq_nil_iff]
    intro k hk
    simpa using List.all_eq_true.mp hall k hk
  change x.left - (((opCores s x).filter (fun k => scopeDead s (dieOfCore k.core) x.scope)).map _).foldl (· + ·) 0 = x.left
  rw [hgone]
  rfl

theorem opCores_core (s : State) (x : Op) :
    (opCores s x).map (·.core) = rectCores (s.ctx (s.launch x.launch).ctx).vdmap x.rect := by
  refine List.ext_getElem (by simp [opCores]) fun j _ hj => ?_
  simp [opCores, hj]

/-! ### Completion -/

theorem exec_operatorComplete {s : State} {o : Nat} {x : Op} (hop : s.op o = some x) (hissued : x.issued = true)
    (htier : x.tier = none) (hleft : x.left = 0) (hheld : x.held = []) :
    ∃ t, exec (.operatorComplete o) s = .next t ∧ t.op o = none ∧ t.mem = s.mem := by
  change ∃ t, execOperatorComplete o s = _ ∧ _
  simp only [execOperatorComplete, hop, hissued, htier, hleft, hheld, Option.isSome_none, List.isEmpty_nil, Bool.not_true, ne_eq,
    not_true_eq_false, Bool.false_eq_true, or_self, if_false]
  refine ⟨_, rfl, ?_, ?_⟩
  · rw [reapScopes_keeps (fun s => s.op o) fun _ _ _ => rfl]
    exact smFind_smDel_self _ _
  · rw [reapScopes_keeps State.mem fun _ _ _ => rfl, State.delOp_mem]
    exact foldl_keeps State.mem (fun s t => by split <;> rfl) _ s

theorem exec_xferComplete {s : State} {o k : Nat} {x : Op} (hop : s.op o = some x) (hissued : x.issued = true)
    (htier : x.tier = some k) (hready : (s.weir.reqs.filter (fun r => r.2.by_ == .op o)).all (fun r => r.2.st == .ready) = true) :
    ∃ t, exec (.xferComplete o) s = .next t ∧ t.op o = none := by
  change ∃ t, execXferComplete o s = _ ∧ _
  simp only [execXferComplete, hop, hissued, htier, hready, true_or, if_true]
  refine ⟨_, rfl, ?_⟩
  rw [reapScopes_keeps (fun s => s.op o) fun _ _ _ => rfl]
  exact smFind_smDel_self _ _

/-! ### Dispatch -/

theorem exec_stepDispatch {s : State} {c l : Nat} {r : Ready} (hbound : (s.core c).bind.bound = some l)
    (hfree : coreFree (s.core c) l = true) (hhandlers : (s.launch l).handlers = [])
    (hst : (s.launch l).st = .running ∨ ((s.launch l).st = .preempting ∧ lendingOf s l = true))
    (hlive : (readySteps s c l).find? (fun r => scopeDead s (dieOfCore c) r.x.scope) = none)
    (hdue : (readySteps s c l).any (choiceDue s c) = false) (hbest : bestReady s c (readySteps s c l) = some r)
    (hfits : stepFits s c r = true) :
    exec (.stepDispatch c) s = .next (dispatchStep (takeStep s c r) c l r.o r.n r.x r.rank) := by
  have hgoes : preempting s l = false := by
    rcases hst with h | ⟨-, h⟩ <;> simp [preempting, h]
  have hdispatches : ¬ ((s.launch l).st ≠ .running ∧ (s.launch l).st ≠ .preempting) := by
    rcases hst with h | ⟨h, -⟩ <;> simp [h]
  change execStepDispatch c s = _
  simp only [execStepDispatch, hbound, hfree, hgoes, hhandlers, hdispatches, hlive, hdue, hbest, hfits, Bool.not_true,
    Bool.or_self, Bool.false_eq_true, if_false, if_true]

/-- Scalar 1 of a strand just dispatched holds the second value it was given. -/
theorem rdS_one_of_argRegs {t : Thread} {vals : List Word} (h : t.regs.s = argRegs vals) : (t.rdS 1).val = vals.getD 1 0 := by
  rw [Thread.rdS, if_neg (by decide), h, argRegs, Vector.get_ofFn]
  rfl

/-- A dispatched step runs in K mode at its OPB's ENTRY, with the OPB's address in s1 (R40). -/
theorem dispatchStep_thread (s : State) (c l o n : Nat) (x : Op) (rank : Rank) :
    let t := (dispatchStep s c l o n x rank).th c
    t.job.run = .run ∧ t.pos.pc = x.entry ∧ t.pos.mode = .k ∧ t.job.osc = x.scope ∧ t.job.n = n ∧ (t.rdS 1).val = x.opb := by
  have hregs : ((dispatchStep s c l o n x rank).th c).regs.s = argRegs ([0, x.opb] ++ x.ins.map (·.zeroExtend 64) ++
      x.outs.map (·.zeroExtend 64) ++ [BitVec.ofNat 64 n, (s.launch l).pkt.condb]) := by
    simp only [dispatchStep, State.setCore_th_self, dispatched]
  have hs1 : (((dispatchStep s c l o n x rank).th c).rdS 1).val = x.opb := rdS_one_of_argRegs hregs
  simpa only [dispatchStep, State.setCore_th_self, dispatched, true_and] using hs1

theorem exec_stepDispatch_handler {s : State} {c l : Nat} {h : Handler} {hs : List Handler}
    (hbound : (s.core c).bind.bound = some l) (hfree : coreFree (s.core c) l = true) (hhandlers : (s.launch l).handlers = h :: hs)
    (hdue : handlerDue s c l = true) (hgoes : preempting s l = false) :
    exec (.stepDispatch c) s = .next (dispatchHandler (passReady s c l) c l h) := by
  change execStepDispatch c s = _
  simp only [execStepDispatch, hbound, hfree, hgoes, hhandlers, hdue, Bool.not_true, Bool.or_self, Bool.false_eq_true, if_false]

theorem passReady_at_launch (s : State) (c l m : Nat) : (passReady s c l).launch m = s.launch m :=
  foldl_keeps (fun s => s.launch m) (fun s y => by split <;> rfl) _ s

/-- A dispatched fault handler runs in H mode at FHE with the cause and the value of the fault (R35). -/
theorem dispatchHandler_thread (s : State) (c l : Nat) (h : Handler) :
    let u := dispatchHandler s c l h
    let t := u.th c
    t.job.run = .run ∧ t.pos.pc = (s.launch l).pkt.fhe ∧ t.pos.mode = .h ∧ t.trap.cause = h.cause ∧ t.trap.tval = h.tval ∧
      (u.launch l).hrun = true := by
  simp only [dispatchHandler, State.setLaunch_at_th, State.setCore_th_self, dispatched, State.setLaunch_launch_self, and_self]

/-! ### Ranks -/

/-- An operator's steps on one core, the rank of step n changed where the step is ready (R44). -/
def reRank (x : Op) (n : Nat) (f : Nat → Rank → Rank) (k : OpCore) : OpCore :=
  if k.next % opWidth x ≠ n % opWidth x then k
  else if k.redo.any (fun m => m.1 == n) then
    { k with redo := k.redo.map (fun m => if m.1 = n then (m.1, f k.core m.2) else m) }
  else if k.next ≤ n ∧ n < x.steps then { k with rank := f k.core k.rank }
  else k

theorem updRank_eq {s : State} {o : Nat} {x : Op} (h : s.op o = some x) (n : Nat) (f : Op → Nat → Rank → Rank) :
    updRank s o n f = s.setOp o { x with cores := x.cores.map (reRank x n (f x)) } := by
  rw [updRank, h]; rfl

/-- A change of ranks leaves the core and which steps it is to dispatch. -/
theorem reRank_keeps (x : Op) (n : Nat) (f : Nat → Rank → Rank) (k : OpCore) :
    (reRank x n f k).core = k.core ∧ (reRank x n f k).next = k.next ∧
      (reRank x n f k).redo.map (·.1) = k.redo.map (·.1) := by
  unfold reRank
  split
  · exact ⟨rfl, rfl, rfl⟩
  · split
    · refine ⟨rfl, rfl, ?_⟩
      rw [List.map_map]
      exact List.map_congr_left fun m _ => by dsimp only [Function.comp]; split <;> rfl
    · split <;> exact ⟨rfl, rfl, rfl⟩

/-- The first entry of step n, where its entries are changed, is the first entry of before, changed. -/
theorem find?_map_step (ms : List (Nat × Rank)) (n : Nat) (f : Rank → Rank) :
    (ms.map (fun m => if m.1 = n then (m.1, f m.2) else m)).find? (fun m => m.1 == n) =
      (ms.find? (fun m => m.1 == n)).map (fun m => (m.1, f m.2)) := by
  induction ms with
  | nil => rfl
  | cons m ms ih =>
    by_cases h : m.1 = n
    · simp [h]
    · simpa [h] using ih

/-- The rank of step n is changed where the step is ready, and a core for which it is not is left as it was. -/
theorem rankOf_reRank (x : Op) (n : Nat) (f : Nat → Rank → Rank) (k : OpCore) :
    (rankOf x k n = none → reRank x n f k = k) ∧ rankOf x (reRank x n f k) n = (rankOf x k n).map (f k.core) := by
  unfold rankOf reRank
  split
  · exact ⟨fun _ => rfl, rfl⟩
  · next hmine =>
    cases hfind : k.redo.find? (fun m => m.1 == n) with
    | some m =>
      have hany : k.redo.any (fun m => m.1 == n) = true := by
        rw [List.any_eq_true]
        exact ⟨m, List.mem_of_find?_eq_some hfind, by simpa using List.find?_some hfind⟩
      simp only [hany, if_true, hmine, if_false, find?_map_step, hfind, Option.map_some]
      simp
    | none =>
      have hany : k.redo.any (fun m => m.1 == n) = false := by
        rw [List.any_eq_false]
        exact List.find?_eq_none.mp hfind
      by_cases hready : k.next ≤ n ∧ n < x.steps
      · simp [hany, hmine, hfind, hready]
      · simp [hany, hmine, hfind, hready]

/-- An event that changes the ranks of step n changes them as it says, and nothing else of the operator. -/
theorem ranksChange_of_updRank {s : State} {o n : Nat} {x : Op} {i : Instr} {g : Op → Nat → Rank → Rank} (hop : s.op o = some x)
    (hexec : exec i s = .next (updRank s o n g)) : ranksChange s i o n x (g x) := by
  rw [updRank_eq hop] at hexec
  refine ⟨_, _, hexec, State.setOp_op_self _ _ _, rfl, rfl, rfl, rfl, by simp, fun j k hk => ?_⟩
  obtain ⟨hcore, hnext, hredo⟩ := reRank_keeps x n (g x) k
  obtain ⟨hsame, hrank⟩ := rankOf_reRank x n (g x) k
  refine ⟨reRank x n (g x) k, by simp [hk], hcore, hnext, hredo, hsame, fun r hr => ?_⟩
  rw [hr] at hrank
  exact hrank

theorem exec_keepWaitEnd {s : State} {l n : Nat} (hwalk : (s.launch l).walk = .keep n) (hover : keepOver s (streamOf_ l) n = true) :
    exec (.keepWaitEnd l) s = .next (s.setLaunch l { s.launch l with walk := .keepDone }) := by
  change execKeepWaitEnd l s = _
  rw [streamOf_] at hover
  simp only [execKeepWaitEnd, hwalk, hover, if_true]

/-- Settles O52: issue, completion, dispatch, and the ranks of steps. -/
theorem operatorEvents : Obligations.OperatorEvents := by
  refine ⟨fun s o x hop hnew hwalks hlive hfirst => ⟨fun htier => exec_operatorIssue_xfer hop hnew hwalks hlive hfirst htier,
      fun htier hwants hstill => ?issue⟩,
    fun s o x hop hissued htier hleft hheld => exec_operatorComplete hop hissued htier hleft hheld,
    fun s o k x hop hissued htier hready => exec_xferComplete hop hissued htier hready,
    fun s c l r hbound hfree hhandlers hst hlive hdue hbest hfits => ?step,
    fun s c l h hs hbound hfree hhandlers hdue hgoes => ?handler,
    fun s o n x hop => ⟨ranksChange_of_updRank (g := fun x c r =>
        if (s.core c).bind.bound = some x.launch ∧ fitWait ≤ readyFor s c r.since then { r with fits := true } else r) hop rfl,
      ranksChange_of_updRank (g := fun _ _ r => { r with raised := Nat.max r.raised (r.passes / 64) }) hop rfl⟩,
    fun s l n hwalk hover => exec_keepWaitEnd hwalk hover⟩
  case issue =>
    obtain ⟨y, hy, hissued, hcores, hleft⟩ := issueOp_steps (s := s) (o := o) htier
    refine ⟨_, y, exec_operatorIssue_steps hop hnew hwalks hlive hfirst htier hwants hstill, hy, hissued, fun k hk => ?_,
      fun hall => ?_⟩
    · rw [hcores, List.mem_filter] at hk
      simpa using hk.2
    · have hall' : (opCores s x).all (fun k => !scopeDead s (dieOfCore k.core) x.scope) = true := by
        rw [← opCores_core, List.all_map] at hall
        exact hall
      refine ⟨hleft hall', ?_⟩
      rw [hcores, List.filter_eq_self.mpr (List.all_eq_true.mp hall'), ← opCores_core, List.length_map]
  case step =>
    have hexec := exec_stepDispatch hbound hfree hhandlers hst hlive hdue hbest hfits
    exact ⟨hexec, _, hexec, dispatchStep_thread _ c l r.o r.n r.x r.rank⟩
  case handler =>
    refine ⟨_, exec_stepDispatch_handler hbound hfree hhandlers hdue hgoes, ?_⟩
    rw [← passReady_at_launch s c l l]
    exact dispatchHandler_thread _ c l h

end Sys2Proof.Machine

/-! ## Tokens and time: TOKSEND, TOKWAIT, TIMER and TIMEWAIT (R67, R68, R74, R75) -/

namespace Sys2Proof.Machine
open Sys2Proof Sys2Proof.Ob

/-! ### Tokens (R67, R68) -/

/-- A release that waits for no access has its effect at once (R248). -/
theorem releaseWait_run {s : State} {c : Nat} (h : accessesDone s c = true) (k : State → Out) :
    releaseWait s c k = k (drainFifo s c) := by simp [releaseWait, h]

/-- A release leaves every strand as it is. -/
@[simp] theorem drainFifo_at_th (s : State) (c j : Nat) : (drainFifo s c).th j = s.th j := setCore_at_th_of_eq s (by rfl) j

@[simp] theorem drainFifo_at_ctxOf (s : State) (c : Nat) : (drainFifo s c).ctxOf c = s.ctxOf c := by
  simp [State.ctxOf, drainFifo]

@[simp] theorem mergeStamp_me (s : State) (die : Nat) (v : Vector (BitVec 48) 18) : (mergeStamp s die v).me = s.me := rfl

/-- After the result 0 the register reads as 0 with D clear, s0 too. -/
theorem rdS_wrote_zero (s : State) (c : Nat) (rd : BitVec 5) (n : Nat) :
    ((s.setTh c (((s.th c).wrS rd 0 false).advance n)).th c).rdS rd = {} := by
  rw [State.setTh_th_self, Thread.rdS_advance, Thread.rdS_wrS]
  split
  · rfl
  · next h => simp_all [Thread.rdS]

theorem exec_toksend_busy {f : R3} {s : State} {key : Nat} (hd : noD s [f.ra, f.rb] = true)
    (hkey : chanKey s s.me (reg s f.ra) = some key) (hfull : 16 ≤ chanLoad s key) :
    exec (.toksend f) s = .next (wrote s f.rd rBusy false 2) := by
  change execToksend f s = _
  unfold reg at hkey
  rw [execToksend, guardD_of_noD hd]
  simp only [hkey, if_pos hfull]
  rfl

theorem exec_toksend_sends {f : R3} {s : State} {key : Nat} (hd : noD s [f.ra, f.rb] = true)
    (hkey : chanKey s s.me (reg s f.ra) = some key) (hroom : chanLoad s key < 16) (hdone : accessesDone s s.me = true) :
    ∃ t, exec (.toksend f) s = .next t ∧
      t.flight = s.flight ++ [{ chan := key, core := s.me, tok :=
        { payload := (reg s f.rb).extractLsb' 0 32, stamp := (s.die (s.me / 64)).stamp } }] ∧
      (t.th s.me).rdS f.rd = {} ∧ (t.th s.me).job.restart = false ∧ t.mem = s.mem := by
  change ∃ t, execToksend f s = _ ∧ _
  unfold reg at hkey
  rw [execToksend, guardD_of_noD hd]
  simp only [hkey, if_neg (Nat.not_le.mpr hroom), releaseWait_run hdone]
  refine ⟨_, rfl, ?_, ?_, ?_, ?_⟩
  · simp [drainFifo, reg, State.th, dieOfCore]
  · exact rdS_wrote_zero _ _ _ _
  · rw [State.setTh_th_self, Thread.advance_job, Thread.wrS_job]
    exact congrArg (fun t : Thread => t.job.restart) (State.setTh_th_self (drainFifo s s.me) s.me (clearRestart _))
  · simp

theorem exec_tokwait {f : R2} {s : State} (hd : noD s [f.ra] = true) (hn : (reg s f.ra).toNat < 64)
    (hctx : (s.chan (s.me / 64 * 64 + (reg s f.ra).toNat)).ctx = some (myCtx s)) : exec (.tokwait f) s =
      match (s.chan (s.me / 64 * 64 + (reg s f.ra).toNat)).fifo with
      | [] => killPoint s s.me (fun s => .next s)
      | x :: xs => result (acquireAll (mergeStamp (s.setChan (s.me / 64 * 64 + (reg s f.ra).toNat)
          { s.chan (s.me / 64 * 64 + (reg s f.ra).toNat) with fifo := xs }) (s.me / 64) x.stamp) s.me) s.me f.rd
          (x.payload.zeroExtend 64) := by
  change execTokwait f s = _
  have hok : ¬ (64 ≤ (reg s f.ra).toNat ∨ (s.chan (s.me / 64 * 64 + (reg s f.ra).toNat)).ctx ≠ some (s.ctxOf s.me)) := by
    rintro (h | h)
    · omega
    · exact h hctx
  rw [execTokwait, guardD_of_noD hd]
  exact if_neg hok

theorem tokenResult_holds : tokenResult := by
  refine ⟨fun f s key hd hkey => ⟨fun hfull => exec_toksend_busy hd hkey hfull, fun hroom hdone => exec_toksend_sends hd hkey hroom hdone⟩,
    fun f s hd => ?_⟩
  intro n key hn hctx
  refine ⟨fun hnil halive => ?_, fun x xs hfifo => ?_⟩
  · rw [exec_tokwait hd hn hctx, hnil]
    exact killPoint_run (by simpa [alive] using halive) _
  · rw [exec_tokwait hd hn hctx, hfifo]
    simp [result, wrote, n, key]

/-! ### Time (R74, R75) -/

theorem exec_timewait_first {f : R2} {s : State} (hwait : (s.th s.me).job.wait = .none) (hd : noD s [f.ra] = true) :
    exec (.timewait f) s =
      let d := (s.die (s.me / 64)).time
      if d.st = .lost then .next (takeTrap s s.me cTsync (d.err.zeroExtend 64))
      else if (reg s f.ra).toNat ≤ d.gtime.toNat then result s s.me f.rd d.gtime
      else .next (setWait s s.me (.timewait (reg s f.ra) none)) := by
  change execTimewait f s = _
  simp only [execTimewait, hwait, guardD_of_noD hd]
  rfl

theorem exec_timewait_waited {f : R2} {s : State} {u : Word} (hwait : (s.th s.me).job.wait = .timewait u none)
    (hover : u.toNat ≤ (s.die (s.me / 64)).time.gtime.toNat) : exec (.timewait f) s =
      result (unwait s s.me) s.me f.rd (s.die (s.me / 64)).time.gtime := by
  change execTimewait f s = _
  simp only [execTimewait, hwait]
  exact if_pos hover

theorem timeResult_holds : timeResult := by
  refine ⟨fun rd s => rfl, fun f s hwait hd => ?_, fun f s u hwait hover => exec_timewait_waited hwait hover⟩
  rw [exec_timewait_first hwait hd]
  refine ⟨fun hlost => if_pos hlost, fun hkeeps hdue => ?_, fun hkeeps hearly => ?_⟩
  · exact (if_neg hkeeps).trans (if_pos hdue)
  · exact (if_neg hkeeps).trans (if_neg (Nat.not_le.mpr hearly))

/-- Settles O29: TOKSEND, TOKWAIT, TIMER and TIMEWAIT. -/
theorem tokenAndTimeResult : Obligations.TokenAndTimeResult := ⟨tokenResult_holds, timeResult_holds⟩

end Sys2Proof.Machine

/-! ## Scopes: SCOPENEW, CANCEL and SCOPEWAIT (R57, R58, R63) -/

namespace Sys2Proof.Machine
open Sys2Proof Sys2Proof.Ob

/-! ### The scope tree -/

/-- A search for a FREE number finds one of those it looks at (R57). -/
theorem freeFrom_spec {s : State} {n k m : Nat} (h : freeFrom s n k = some m) : (s.scope m).st = .free ∧ m < k + n := by
  induction n generalizing k with
  | zero => cases h
  | succ n ih =>
    unfold freeFrom at h
    split at h
    · next hfree => cases h; exact ⟨hfree, by omega⟩
    · obtain ⟨hst, hlt⟩ := ih h
      exact ⟨hst, by omega⟩

theorem pickScope_spec {s : State} {k : Nat} (h : pickScope s = some k) : (s.scope k).st = .free ∧ k < 65536 := by
  simp only [pickScope] at h
  split at h
  · cases h
  · next m hm =>
    split at h
    · next hfree => cases h; exact ⟨hfree, (Config.scopeHint s.fresh).isLt⟩
    · cases h; simpa using freeFrom_spec hm

/-- The record of a scope that is created (R52, R53, R63). -/
theorem allocScope_scope_self (s : State) (n ctx : Nat) (parent : Option Nat) (home : Nat) (by_ : Creator) :
    (allocScope s n ctx parent home by_).scope n =
      { ctx := ctx, parent := parent, home := home, st := .live, serial := (s.scope n).serial + 1, canc := false, ticket := 0,
        markFree := false, creator := by_ } := State.setScope_scope_self s n _

@[simp] theorem allocScope_mem (s : State) (n ctx : Nat) (parent : Option Nat) (home : Nat) (by_ : Creator) :
    (allocScope s n ctx parent home by_).mem = s.mem := rfl

theorem exec_scopenew {f : R2} {s : State} {k : Nat} (hd : noD s [f.ra] = true) (hn : (reg s f.ra).toNat < 65536)
    (hst : (s.scope (reg s f.ra).toNat).st = .live) (hctx : (s.scope (reg s f.ra).toNat).ctx = myCtx s)
    (hdepth : (ancestors s (reg s f.ra).toNat).length < 64) (hlsc : lscOk s s.me (reg s f.ra).toNat = true)
    (hk : pickScope s = some k) : exec (.scopenew f) s =
      result (allocScope s k (myCtx s) (some (reg s f.ra).toNat) (s.scope (reg s f.ra).toNat).home
        (.launch (s.th s.me).job.launch)) s.me f.rd (BitVec.ofNat 64 k) := by
  change execScopenew f s = _
  unfold reg at *
  unfold myCtx at *
  rw [execScopenew, guardD_of_noD hd]
  simp [hst, hctx, hlsc, hk, Nat.not_le.mpr hn, Nat.not_le.mpr hdepth]

theorem exec_cancel_asks {f : R2} {s : State} (hwait : (s.th s.me).job.wait = .none) (hd : noD s [f.ra] = true)
    (hdone : accessesDone s s.me = true) (hn : (reg s f.ra).toNat < 65536) (hst : (s.scope (reg s f.ra).toNat).st ≠ .free)
    (hctx : (s.scope (reg s f.ra).toNat).ctx = myCtx s) (hlsc : lscOk s s.me (reg s f.ra).toNat = true) :
    exec (.cancel f) s = .next (setWait (askCancel (drainFifo s s.me).tick.2 (s.me / 64) (reg s f.ra).toNat
      (.strand s.me s.fresh) (myCtx s) (if (s.th s.me).pos.mode = .h then none else some (s.th s.me).job.lsc.toNat)) s.me
      (.cancel s.fresh)) := by
  change execCancel f s = _
  unfold reg at *
  unfold myCtx at *
  simp only [execCancel, hwait, guardD_of_noD hd, releaseWait_run hdone]
  simp only [scopeOpen, hst, hctx, hlsc, Nat.not_le.mpr hn, ne_eq, not_false_eq_true, decide_true, Bool.not_true, Bool.false_eq_true,
    not_true_eq_false, or_self, if_false]
  rw [← drainFifo_at_ctxOf s s.me]
  rfl

theorem exec_cancel_answered {f : R2} {s : State} {v : Word} (hwait : (s.th s.me).job.wait = .cancelDone v) :
    exec (.cancel f) s = result (unwait s s.me) s.me f.rd v := by
  change execCancel f s = _
  simp only [execCancel, hwait]

theorem exec_scopewait {f : R2} {s : State} (hd : noD s [f.ra] = true) : exec (.scopewait f) s =
    match ticketState s (reg s f.ra) with
    | none => result s s.me f.rd rNoticket
    | some true => result (acquireAll s s.me) s.me f.rd 1
    | some false => killPoint s s.me fun s => .next s := by
  change execScopewait f s = _
  rw [execScopewait, guardD_of_noD hd]
  rfl

@[simp] theorem setWait_th_self (s : State) (c : Nat) (w : WaitSt) :
    (setWait s c w).th c = { s.th c with job := { (s.th c).job with wait := w } } := State.setTh_th_self s c _

/-- Settles O35: SCOPENEW, the request and the answer of CANCEL, and what SCOPEWAIT finds. -/
theorem scopeResult : Obligations.ScopeResult := by
  refine ⟨fun f s k hd => ?new, fun s k hk => pickScope_spec hk, fun f s hwait hd hdone => ?asks,
    fun f s v hwait => exec_cancel_answered hwait, fun f s hd => ?waits⟩
  case new =>
    intro n hn hst hctx hdepth hlsc hk
    obtain ⟨t, ht, hrd, hmem, -⟩ := result_next (allocScope s k (myCtx s) (some n) (s.scope n).home
      (.launch (s.th s.me).job.launch)) s.me f.rd (BitVec.ofNat 64 k)
    have hscope : t.scope k = (allocScope s k (myCtx s) (some n) (s.scope n).home (.launch (s.th s.me).job.launch)).scope k := by
      injection ht with ht
      rw [← ht]; rfl
    rw [allocScope_scope_self] at hscope
    refine ⟨t, (exec_scopenew hd hn hst hctx hdepth hlsc hk).trans ht, hrd, ?_, ?_, ?_, ?_, ?_, ?_, hmem⟩ <;> rw [hscope]
  case asks =>
    intro n hn hst hctx hlsc root
    obtain ⟨ds, hask⟩ := askCancel_outside (drainFifo s s.me).tick.2 (s.me / 64) n (.strand s.me s.fresh) (myCtx s) root
    refine ⟨_, (exec_cancel_asks hwait hd hdone hn hst hctx hlsc).trans (by rw [hask]), rfl, ?_, ?_⟩
    · rw [setWait_th_self]
    · rw [setWait_th_self]
      change ((drainFifo s s.me).th s.me).pos = _
      rw [drainFifo_at_th]
  case waits =>
    rw [exec_scopewait hd]
    refine ⟨fun hended => ?_, fun hno => ?_, fun hgoes halive => ?_⟩
    · rw [hended]; simp [result, wrote]
    · rw [hno]; rfl
    · rw [hgoes]; exact killPoint_run (by simpa [alive] using halive) _

end Sys2Proof.Machine

/-! ## The driver's scope and queue commands (R52, R53, R211, R281) -/

namespace Sys2Proof.Machine
open Sys2Proof Sys2Proof.Ob

/-! ### Answers in SCOPERES and QRES -/

theorem setRegs_regs_self (s : State) (ctx : Nat) (r : CtxRegs) : ((setRegs s ctx r).ctx ctx).regs = r := by
  rw [setRegs, State.setCtx_ctx_self]

@[simp] theorem setRegs_mem (s : State) (ctx : Nat) (r : CtxRegs) : (setRegs s ctx r).mem = s.mem := rfl
@[simp] theorem setRegs_at_scope (s : State) (ctx : Nat) (r : CtxRegs) (n : Nat) : (setRegs s ctx r).scope n = s.scope n := rfl
@[simp] theorem setRegs_at_queue (s : State) (ctx : Nat) (r : CtxRegs) (q : Nat) : (setRegs s ctx r).queue q = s.queue q := rfl

/-- A command answers in SCOPERES and changes no scope, no queue and no byte of memory by that. -/
theorem scopeRes_next (s : State) (ctx : Nat) (v : Word) : ∃ t, scopeRes s ctx v = .next t ∧ (t.ctx ctx).regs.scoperes = v ∧
    (∀ n, t.scope n = s.scope n) ∧ t.mem = s.mem := by
  refine ⟨_, rfl, ?_, fun _ => rfl, rfl⟩
  rw [setRegs_regs_self]

/-- A command answers in QRES and changes no queue by that. -/
theorem queueRes_next (s : State) (ctx : Nat) (v : Word) : ∃ t, queueRes s ctx v = .next t ∧ (t.ctx ctx).regs.qres = v ∧
    ∀ q, t.queue q = s.queue q := by
  refine ⟨_, rfl, ?_, fun _ => rfl⟩
  rw [setRegs_regs_self]

/-! ### Scopes -/

/-- The driver's new scope takes the number that is picked, LIVE under its parent, and SCOPERES shows it (R52). -/
theorem driverScope_next {s : State} {n : Nat} (hn : pickScope s = some n) (ctx : Nat) (parent : Option Nat) (home : Nat) :
    ∃ t, driverScope s ctx parent home = .next t ∧ (t.ctx ctx).regs.scoperes = BitVec.ofNat 64 n ∧ (t.scope n).st = .live ∧
      (t.scope n).parent = parent ∧ (t.scope n).ctx = ctx ∧ (t.scope n).home = home ∧
      (t.scope n).serial = (s.scope n).serial + 1 ∧ t.mem = s.mem := by
  obtain ⟨t, ht, hres, hscope, hmem⟩ := scopeRes_next (allocScope s n ctx parent home .driver) ctx (BitVec.ofNat 64 n)
  refine ⟨t, by rw [driverScope, hn]; exact ht, hres, ?_, ?_, ?_, ?_, ?_, hmem⟩ <;> rw [hscope, allocScope_scope_self]

theorem exec_scopecmdCreateRoot {s : State} {ctx home : Nat} (hpage : pageActs s ctx = true) (hserv : inService s home = true)
    (hbound : (selfDie (s.ctx ctx).vdmap home).isSome = true) (hstays : (s.ctx ctx).dying = false) :
    exec (.scopecmdCreateRoot ctx home) s = driverScope s ctx none home := by
  change execScopecmdCreateRoot ctx home s = _
  simp [execScopecmdCreateRoot, hpage, hserv, hstays, Option.isSome_iff_ne_none.mp hbound]

theorem exec_scopecmdCreateChild {s : State} {ctx : Nat} {parent : BitVec 16} (hpage : pageActs s ctx = true)
    (hst : (s.scope parent.toNat).st = .live) (hctx : (s.scope parent.toNat).ctx = ctx)
    (hdepth : (ancestors s parent.toNat).length < 64) : exec (.scopecmdCreateChild ctx parent) s =
      driverScope s ctx (some parent.toNat) (s.scope parent.toNat).home := by
  change execScopecmdCreateChild ctx parent s = _
  simp [execScopecmdCreateChild, hpage, hst, hctx, Nat.not_le.mpr hdepth]

theorem exec_scopecmdFree {s : State} {ctx : Nat} {scope : BitVec 16} (hpage : pageActs s ctx = true)
    (hst : (s.scope scope.toNat).st ≠ .free) (hctx : (s.scope scope.toNat).ctx = ctx)
    (hby : (s.scope scope.toNat).creator = .driver) : exec (.scopecmdFree ctx scope) s =
      scopeRes (driverFree s scope.toNat) ctx (BitVec.ofNat 64 scope.toNat) := by
  change execScopecmdFree ctx scope s = _
  simp [execScopecmdFree, hpage, scopeOpen, hst, hctx, hby]

/-! ### Queues -/

@[simp] theorem resetHeader_queue_self (s : State) (qk : Nat) (q : QRec) :
    (resetHeader s qk q).queue qk = some { q with claims := [], stopped := false } := State.setQueue_queue_self _ _ _

/-- The queue that a create makes of the base in QBASE (R211, R281). -/
def newQueue (s : State) (kind : QKind) (ctx logcap die : Nat) : QRec :=
  { kind := kind, ctx := ctx, die := die, logcap := logcap, base := (s.ctx ctx).regs.qbase.toNat }

theorem createQueue_creates {s : State} {ctx logcap die n : Nat} (kind : QKind) (hpage : pageActs s ctx = true)
    (hserv : inService s die = true) (hstays : (s.ctx ctx).dying = false) (halign : (s.ctx ctx).regs.qbase.toNat % 64 = 0)
    (hroom : (s.ctx ctx).regs.qbase.toNat + (64 + 64 * 2 ^ logcap) ≤ 0xC000000000) (hlow : 2 ≤ logcap) (htop : logcap ≤ 16)
    (hline : s.mem.heldLine (s.ctx ctx).regs.qbase.toNat (64 + 64 * 2 ^ logcap) = none) (hn : pickQueue s = some n) :
    ∃ t, createQueue kind ctx logcap die s = .next t ∧
      t.queue n = some { newQueue s kind ctx logcap die with claims := [], stopped := false } ∧
      (t.ctx ctx).regs.qres = BitVec.ofNat 64 n := by
  have hgood : ¬ ((s.ctx ctx).regs.qbase.toNat % 64 ≠ 0 ∨ 0xC000000000 < (s.ctx ctx).regs.qbase.toNat + (64 + 64 * 2 ^ logcap) ∨
      logcap < 2 ∨ 16 < logcap ∨ !inService s die ∨ (s.ctx ctx).dying) := by
    simp [hserv, hstays, halign, hroom, show 1 < logcap from hlow, htop]
  obtain ⟨t, ht, hres, hqueue⟩ := queueRes_next (resetHeader s.tick.2 n (newQueue s kind ctx logcap die)) ctx (BitVec.ofNat 64 n)
  refine ⟨t, ?_, by rw [hqueue, resetHeader_queue_self], hres⟩
  simp only [createQueue, hpage, Bool.not_true, Bool.false_eq_true, if_false, if_neg hgood, hline, hn]
  exact ht

/-- Returns of tiles change cores only (R207). -/
theorem foldl_returnTiles_queue (cs : List Claim) (s : State) (q : Nat) :
    (cs.foldl (fun s c => returnTiles s c.core c.auto) s).queue q = s.queue q :=
  foldl_keeps (fun s => s.queue q) (fun s c => by unfold returnTiles; split <;> rfl) cs s

theorem resetQueue_queue_self (s : State) (qk : Nat) (q : QRec) :
    (resetQueue s qk q).queue qk = some { q with claims := [], stopped := false } := by
  rw [resetQueue, foldl_returnTiles_queue, resetHeader_queue_self]

theorem exec_qcmdDestroy {s : State} {ctx q : Nat} {x : QRec} (hpage : pageActs s ctx = true) (hx : namedQueue s ctx q = some x)
    (hidle : s.run q = none) : exec (.qcmdDestroy ctx q) s = queueRes (deleteQueue s q x) ctx (BitVec.ofNat 64 q) := by
  change execQcmdDestroy ctx q s = _
  simp [execQcmdDestroy, hpage, hx, hidle]

theorem exec_qcmdReset {s : State} {ctx q : Nat} {x : QRec} (hpage : pageActs s ctx = true) (hx : namedQueue s ctx q = some x)
    (hidle : s.run q = none) (hline : s.mem.heldLine x.base (64 + 64 * x.cap) = none) :
    exec (.qcmdReset ctx q) s = queueRes (reapScopes (resetQueue s q x)) ctx (BitVec.ofNat 64 q) := by
  change execQcmdReset ctx q s = _
  simp [execQcmdReset, hpage, hx, hidle, hline]

/-- Settles O46: the driver's scope and queue commands and their answers in SCOPERES and QRES. -/
theorem driverEvents : Obligations.DriverEvents := by
  refine ⟨fun s ctx home n hpage hserv hbound hstays hn => ?root, fun s ctx n parent hpage hst hctx hdepth hn => ?child,
    fun s ctx scope hpage hst hctx hby => exec_scopecmdFree hpage hst hctx hby,
    fun s ctx logcap die n hpage hserv hstays => ?create, fun s ctx q x hpage hx hidle => ⟨?destroy, fun hline => ?reset⟩⟩
  case root =>
    rw [exec_scopecmdCreateRoot hpage hserv hbound hstays]
    exact driverScope_next hn ctx none home
  case child =>
    rw [exec_scopecmdCreateChild hpage hst hctx hdepth]
    obtain ⟨t, ht, hres, hlive, hparent, hctx', -⟩ := driverScope_next hn ctx (some parent.toNat) (s.scope parent.toNat).home
    exact ⟨t, ht, hres, hlive, hparent, hctx'⟩
  case create =>
    intro base halign hroom hlow htop hline hn
    obtain ⟨t, ht, hqueue, hres⟩ := createQueue_creates .launch hpage hserv hstays halign hroom hlow htop hline hn
    obtain ⟨u, hu, hqueue', hres'⟩ := createQueue_creates .flume hpage hserv hstays halign hroom hlow htop hline hn
    exact ⟨⟨t, _, ht, hqueue, rfl, rfl, rfl, rfl, rfl, rfl, rfl, hres⟩, u, _, hu, hqueue', rfl, rfl, rfl, hres'⟩
  case destroy =>
    rw [exec_qcmdDestroy hpage hx hidle]
    obtain ⟨t, ht, hres, -⟩ := queueRes_next (deleteQueue s q x) ctx (BitVec.ofNat 64 q)
    exact ⟨t, ht, hres⟩
  case reset =>
    rw [exec_qcmdReset hpage hx hidle hline]
    obtain ⟨t, ht, hres, hqueue⟩ := queueRes_next (reapScopes (resetQueue s q x)) ctx (BitVec.ofNat 64 q)
    refine ⟨t, { x with claims := [], stopped := false }, ht, ?_, rfl, rfl, rfl, hres⟩
    rw [hqueue, reapScopes_keeps (fun s => s.queue q) (fun _ _ _ => rfl), resetQueue_queue_self]

end Sys2Proof.Machine

/-! ## The Headgate: marking, tokens, acknowledgements, DONE, and the delivery of tokens (R58, R59, R62, R64, R66) -/

namespace Sys2Proof.Machine
open Sys2Proof Sys2Proof.Ob

/-! ### Marking (R58) -/

theorem mem_ancestors_self (s : State) (n : Nat) : n ∈ ancestors s n := by
  unfold ancestors chain
  split <;> simp

/-- An open scope lies in its own subtree. -/
theorem mem_subtree_self {s : State} {n : Nat} (h : (s.scope n).st ≠ .free) : n ∈ subtree s n := by
  have hlisted : (n, s.scope n) ∈ s.hg.scopes := mem_of_smGet_ne fun heq => by
    rw [State.scope, heq] at h
    exact h rfl
  have hin : inSubtree s n n = true := by
    simp [inSubtree, h, mem_ancestors_self]
  exact List.mem_map_of_mem (f := fun x : Nat × Scope => x.1) (List.mem_filter.mpr ⟨hlisted, hin⟩)

/-- The home marks one scope under a ticket. -/
def markOne (v : Word) (s : State) (m : Nat) : State :=
  s.setScope m { s.scope m with st := .cancelling, canc := true, ticket := v }

/-- The scopes that a mark of scope n reaches: the LIVE ones of its subtree. -/
def liveBelow (s : State) (n : Nat) : List Nat := (subtree s n).filter (fun m => (s.scope m).st == .live)

/-- The record that a mark of scope n opens (R58). -/
def markRecord (s : State) (n : Nat) : Cancel :=
  let x := s.scope n
  { ctx := x.ctx, home := x.home, scope := n, marked := liveBelow s n,
    after := (((subtree s n).filter (fun m => (s.scope m).st == .cancelling)).map (fun m => (s.scope m).ticket)).eraseDups,
    tstart := s.gtime x.home }

theorem markScope_eq (s : State) (n : Nat) : markScope s n =
    let t := (liveBelow s n).foldl (markOne (ticketOf s n)) s
    { t with hg := { t.hg with cancels := smPut (ticketOf s n).toNat (markRecord s n) t.hg.cancels } } := rfl

/-- A mark changes scopes and cancellations only. -/
theorem markScope_keeps {γ : Type} (g : State → γ) (hscope : ∀ s n x, g (State.setScope s n x) = g s)
    (hcancels : ∀ s cs, g { s with hg := { s.hg with cancels := cs } } = g s) (s : State) (n : Nat) : g (markScope s n) = g s :=
  (hcancels _ _).trans (foldl_keeps (f := markOne (ticketOf s n)) g (fun s m => hscope s m _) _ s)

theorem markScope_cancels (s : State) (n : Nat) :
    smFind (ticketOf s n).toNat (markScope s n).hg.cancels = some (markRecord s n) := smFind_smPut_self _ _ _

/-- Scope n is marked under ticket v. -/
def markedUnder (v : Word) (n : Nat) (s : State) : Prop :=
  (s.scope n).st = .cancelling ∧ (s.scope n).canc = true ∧ (s.scope n).ticket = v

theorem markOne_marks (v : Word) (s : State) (n : Nat) : markedUnder v n (markOne v s n) := by
  simp [markedUnder, markOne]

theorem markOne_markedUnder {v : Word} {n : Nat} {s : State} (h : markedUnder v n s) (m : Nat) : markedUnder v n (markOne v s m) := by
  by_cases hm : n = m
  · subst hm; exact markOne_marks v s n
  · simpa only [markedUnder, markOne, State.setScope_scope_ne _ hm] using h

theorem markScope_marks {s : State} {n : Nat} (h : (s.scope n).st = .live) : markedUnder (ticketOf s n) n (markScope s n) := by
  have hlive : n ∈ liveBelow s n := List.mem_filter.mpr ⟨mem_subtree_self (by rw [h]; decide), by simp [h]⟩
  exact foldl_reaches (f := markOne (ticketOf s n)) (P := fun _ => True) (Q := markedUnder (ticketOf s n) n)
    (fun s _ => markOne_marks _ s n) (fun _ _ _ h => h) (fun _ m h => markOne_markedUnder h m) hlive trivial

/-- A reply of a home changes strands, launches and stamps only. -/
theorem replyCancel_keeps {γ : Type} (g : State → γ) (hcore : ∀ s c k, g (State.setCore s c k) = g s)
    (hlaunch : ∀ s n x, g (State.setLaunch s n x) = g s) (hdie : ∀ s d x, g (State.setDie s d x) = g s) (s : State) (home : Nat)
    (who : Asker) (v : Word) : g (replyCancel s home who v) = g s := by
  cases who with
  | machine => rfl
  | strand c n =>
    simp only [replyCancel]
    split
    · exact (hcore _ _ _).trans (sendStamp_keeps g hdie s _ _)
    · exact sendStamp_keeps g hdie s _ _
  | walker l =>
    simp only [replyCancel]
    split
    · exact (hlaunch _ _ _).trans (sendStamp_keeps g hdie s _ _)
    · exact sendStamp_keeps g hdie s _ _

theorem replyCancel_hg (s : State) (home : Nat) (who : Asker) (v : Word) : (replyCancel s home who v).hg = s.hg :=
  replyCancel_keeps State.hg (fun _ _ _ => rfl) (fun _ _ _ => rfl) (fun _ _ _ => rfl) s home who v

theorem replyCancel_mem (s : State) (home : Nat) (who : Asker) (v : Word) : (replyCancel s home who v).mem = s.mem :=
  replyCancel_keeps State.mem (fun _ _ _ => rfl) (fun _ _ _ => rfl) (fun _ _ _ => rfl) s home who v

theorem replyCancel_at_scope (s : State) (home : Nat) (who : Asker) (v : Word) (n : Nat) :
    (replyCancel s home who v).scope n = s.scope n :=
  replyCancel_keeps (fun s => s.scope n) (fun _ _ _ => rfl) (fun _ _ _ => rfl) (fun _ _ _ => rfl) s home who v

@[simp] theorem sendStamp_at_th (s : State) (src dst c : Nat) : (sendStamp s src dst).th c = s.th c :=
  sendStamp_keeps (fun s => s.th c) (fun _ _ _ => rfl) s src dst

/-- The strand that waits for its request takes the answer; one that no longer does takes none. -/
theorem replyCancel_strand (s : State) (home c n : Nat) (v : Word) :
    ((s.th c).job.wait = .cancel n → ((replyCancel s home (.strand c n) v).th c).job.wait = .cancelDone v) ∧
      ((s.th c).job.wait ≠ .cancel n → (replyCancel s home (.strand c n) v).th c = s.th c) := by
  simp only [replyCancel, sendStamp_at_th]
  refine ⟨fun h => ?_, fun h => ?_⟩
  · rw [if_pos h, setWait_th_self]
  · rw [if_neg h, sendStamp_at_th]

/-- The home takes a request from those on their way to it (R58). -/
def takeReq (s : State) (r : CancelReq) : State := { s with hg := { s.hg with reqs := s.hg.reqs.erase r } }

theorem exec_cancelMark_none {s : State} {home : Nat} (h : (reapScopes s).hg.reqs.find? (fun r => r.home == home) = none) :
    exec (.cancelMark home) s = .next (reapScopes s) := by
  change execCancelMark home s = _
  simp only [execCancelMark, h]

theorem exec_cancelMark {s : State} {home : Nat} {r : CancelReq}
    (h : (reapScopes s).hg.reqs.find? (fun r => r.home == home) = some r) :
    exec (.cancelMark home) s = .next (serveCancel (takeReq (reapScopes s) r) r) := by
  change execCancelMark home s = _
  simp only [execCancelMark, h, takeReq]

theorem serveCancel_marks {s : State} {r : CancelReq} (hfits : cancelFits s r = true) (hlive : (s.scope r.scope).st = .live) :
    serveCancel s r = replyCancel (markScope s r.scope) r.home r.by_ (ticketOf s r.scope) := by
  simp [serveCancel, hfits, hlive]

theorem serveCancel_refuses {s : State} {r : CancelReq} (hfits : cancelFits s r = false) :
    serveCancel s r = replyCancel s r.home r.by_ rBadscope := by
  simp [serveCancel, hfits]

theorem reapScopes_at_th (s : State) (c : Nat) : (reapScopes s).th c = s.th c := reapScopes_keeps (fun s => s.th c) (fun _ _ _ => rfl) s
@[simp] theorem reapScopes_mem (s : State) : (reapScopes s).mem = s.mem := reapScopes_keeps State.mem (fun _ _ _ => rfl) s

/-! ### A token reaches a die (R59, R61) -/

/-- What the fates of a die's work leave of a state: its memory and, of cancellation v, who was told, what is marked and the count of
its handler strands. -/
def tokenView (v : Nat) (s : State) : Mem × Option (List Nat × List Nat × Nat) :=
  (s.mem, (smFind v s.hg.cancels).map (fun x => (x.told, x.marked, x.hstrands)))

/-- A count in another field of a cancellation's record leaves the view. -/
theorem tokenView_updCancel {v : Nat} {f : Cancel → Cancel} (s : State) (k : Nat)
    (hf : ∀ x, ((f x).told, (f x).marked, (f x).hstrands) = (x.told, x.marked, x.hstrands)) :
    tokenView v (s.updCancel k f) = tokenView v s := by
  unfold State.updCancel
  split
  · rfl
  · next x hx =>
    by_cases hk : v = k
    · subst hk; simpa [tokenView, hx] using hf x
    · simp [tokenView, smFind_smPut_ne hk]

theorem completeBar_tokenView (v : Nat) (s : State) (key : Nat) : tokenView v (completeBar s key) = tokenView v s := by
  simp only [completeBar]
  split <;> rfl

theorem cancelBarrier_tokenView (v : Nat) (s : State) (marked : List Nat) (root ticket key : Nat) :
    tokenView v (cancelBarrier s marked root ticket key) = tokenView v s := by
  simp only [cancelBarrier]
  split
  · rfl
  · refine (tokenView_updCancel _ _ ?_).trans (completeBar_tokenView v _ key)
    exact fun _ => rfl

theorem abandonTensor_tokenView (v : Nat) (s : State) (t : Nat) : tokenView v (abandonTensor s t) = tokenView v s := by
  unfold abandonTensor
  split <;> rfl

theorem discardFrame_tokenView (v : Nat) (s : State) (marked : List Nat) (f : Nat) (x : Frame) :
    tokenView v (discardFrame s marked f x) = tokenView v s := by
  have hreqs (rs : List (Nat × WReq)) (s : State) : tokenView v (rs.foldl (fun s r =>
      if marked.contains r.2.scope.toNat then dropReq s r.1 x.t else s.setReq r.1 { r.2 with st := .pending }) s) = tokenView v s :=
    foldl_keeps (tokenView v) (fun s r => by
      split
      · exact dropReq_keeps (tokenView v) (fun _ _ _ => rfl) (fun _ _ => rfl) s r.1 x.t
      · rfl) rs s
  have hops (xs : List (Nat × Op)) (s : State) : tokenView v (xs.foldl (fun s o => s.delOp o.1) s) = tokenView v s :=
    foldl_keeps (tokenView v) (fun _ _ => by rfl) xs s
  exact (hreqs _ _).trans ((hops _ _).trans (abandonTensor_tokenView v _ x.t))

theorem cancelOp_tokenView (v : Nat) (s : State) (die ticket : Nat) (marked : List Nat) (o : Nat) (x : Op) :
    tokenView v (if !marked.contains x.scope.toNat then s
      else if x.issued then discardSteps s die ticket o x
      else if (s.launch x.launch).die = die then dropOp s o x else s) = tokenView v s := by
  split
  · rfl
  · split
    · exact tokenView_updCancel _ _ fun _ => rfl
    · split <;> rfl

theorem dropSuspended_tokenView (v : Nat) (s : State) (j : Job) : tokenView v (dropSuspended s j) = tokenView v s := by
  unfold dropSuspended
  split <;> rfl

theorem cancelSaved_tokenView (v : Nat) (s : State) (die : Nat) (marked : List Nat) :
    tokenView v (cancelSaved s die marked) = tokenView v s :=
  foldl_keeps (tokenView v) (fun s x => by
    dsimp only
    split
    · rfl
    · exact foldl_keeps (f := fun s (y : SavedStrand) => dropSuspended s y.job) (tokenView v)
        (fun s y => dropSuspended_tokenView v s y.job) _ s) _ s

theorem cancelLent_tokenView (v : Nat) (s : State) (die : Nat) (marked : List Nat) :
    tokenView v (cancelLent s die marked) = tokenView v s :=
  foldl_keeps (tokenView v) (fun s x => by
    exact foldl_keeps (f := fun s (f : LendFrame) => dropSuspended s f.th.job) (tokenView v)
      (fun s f => dropSuspended_tokenView v s f.th.job) _ s) _ s

theorem cancelLaunch_tokenView (v : Nat) (s : State) (l : Nat) : tokenView v (cancelLaunch s l) = tokenView v s := by
  have hlent (cs : List (Nat × Core)) (s : State) : tokenView v (cs.foldl (fun s c =>
      s.setCore c.1 { s.core c.1 with bind := { (s.core c.1).bind with lendTo := none } }) s) = tokenView v s :=
    foldl_keeps (tokenView v) (fun _ _ => by rfl) cs s
  refine (hlent _ _).trans ?_
  split
  · split <;> rfl
  · refine (unbindLaunch_keeps (tokenView v) (fun _ _ _ => rfl) _ l).trans ?_
    split <;> rfl

theorem freeShares_tokenView (v : Nat) (s : State) (l : Nat) : tokenView v (freeShares s l) = tokenView v s := by
  simp only [freeShares]
  split
  · exact unbindLaunch_keeps (tokenView v) (fun _ _ _ => rfl) _ l
  · rfl

theorem cancelOne_tokenView (v : Nat) (s : State) (ticket l : Nat) (x : Launch) :
    tokenView v (cancelOne s ticket l x) = tokenView v s := by
  have hcount (s : State) : tokenView v (s.updCancel ticket (fun c => { c with launches := c.launches + 1 })) = tokenView v s :=
    tokenView_updCancel s ticket fun _ => rfl
  simp only [cancelOne]
  cases x.st with
  | parked => exact (hcount _).trans (cancelLaunch_tokenView v s l)
  | binding => exact (hcount _).trans (cancelLaunch_tokenView v s l)
  | running => exact freeShares_tokenView v s l
  | preempting => exact freeShares_tokenView v s l
  | preempted => exact freeShares_tokenView v s l
  | _ => rfl

/-- The fates of the work that a die holds for the marked scopes (R61). -/
def tokenFates (s : State) (die v : Nat) (x : Cancel) : State :=
  let s := cancelBarriers s die x.ctx x.marked x.scope v
  let s := cancelFrames s die v x.marked
  let s := cancelOps s die v x.marked
  let s := cancelSaved (cancelLent s die x.marked) die x.marked
  cancelLaunches s die v x.marked

theorem tokenFates_tokenView (s : State) (die v : Nat) (x : Cancel) : tokenView v (tokenFates s die v x) = tokenView v s := by
  have hlaunches (s : State) : tokenView v (cancelLaunches s die v x.marked) = tokenView v s :=
    foldl_keeps (tokenView v) (fun s y => by exact cancelOne_tokenView v s v y.1 y.2) _ s
  have hops (s : State) : tokenView v (cancelOps s die v x.marked) = tokenView v s :=
    foldl_keeps (tokenView v) (fun s o => by exact cancelOp_tokenView v s die v x.marked o.1 o.2) _ s
  have hframes (s : State) : tokenView v (cancelFrames s die v x.marked) = tokenView v s :=
    foldl_keeps (tokenView v) (fun s y => by
      refine (tokenView_updCancel _ _ ?_).trans (discardFrame_tokenView v s x.marked y.1 y.2)
      exact fun _ => rfl) _ s
  have hbars (s : State) : tokenView v (cancelBarriers s die x.ctx x.marked x.scope v) = tokenView v s :=
    foldl_keeps (tokenView v) (fun s y => by exact cancelBarrier_tokenView v s x.marked x.scope v y.1) _ s
  simp only [tokenFates]
  rw [hlaunches, cancelSaved_tokenView, cancelLent_tokenView, hops, hframes, hbars]

/-- A token told to die `die`: it counts as told, and its handler strands are counted (R59, R64). -/
def tellDie (s : State) (die v : Nat) (x : Cancel) : State :=
  let s := sendStamp s x.home die
  s.updCancel v (fun c => { c with told := die :: c.told, hstrands := c.hstrands + handlersOn s die x.marked })

theorem updCancel_self {s : State} {v : Nat} {x : Cancel} (h : smFind v s.hg.cancels = some x) (f : Cancel → Cancel) :
    smFind v (s.updCancel v f).hg.cancels = some (f x) := by
  simp [State.updCancel, h]

theorem sendStamp_hg (s : State) (src dst : Nat) : (sendStamp s src dst).hg = s.hg :=
  sendStamp_keeps State.hg (fun _ _ _ => rfl) s src dst

theorem handlersOn_sendStamp (s : State) (src dst die : Nat) (marked : List Nat) :
    handlersOn (sendStamp s src dst) die marked = handlersOn s die marked :=
  sendStamp_keeps (fun s => handlersOn s die marked) (fun _ _ _ => rfl) s src dst

theorem tellDie_tokenView {s : State} {v : Nat} {x : Cancel} (h : smFind v s.hg.cancels = some x) (die : Nat) :
    tokenView v (tellDie s die v x) = (s.mem, some (die :: x.told, x.marked, x.hstrands + handlersOn s die x.marked)) := by
  have h' : smFind v (sendStamp s x.home die).hg.cancels = some x := by rw [sendStamp_hg, h]
  simp only [tokenView, tellDie, updCancel_self h', handlersOn_sendStamp, updCancel_mem, sendStamp_mem, Option.map_some]

theorem exec_cancelToken {s : State} {die : Nat} {ticket : Word} {x : Cancel} (hx : smFind ticket.toNat s.hg.cancels = some x)
    (hnew : die ∉ x.told) (hdie : die ∈ ctxDies s x.ctx) :
    exec (.cancelToken die ticket) s = .next (tokenFates (tellDie s die ticket.toNat x) die ticket.toNat x) := by
  change execCancelToken die ticket s = _
  have hgo : ¬ (x.told.contains die ∨ !(ctxDies s x.ctx).contains die) := by simp [hnew, hdie]
  simp only [execCancelToken, hx, if_neg hgo, tokenFates, tellDie]

theorem cancelToken_tells {s : State} {die : Nat} {ticket : Word} {x : Cancel} (hx : smFind ticket.toNat s.hg.cancels = some x)
    (hnew : die ∉ x.told) (hdie : die ∈ ctxDies s x.ctx) : ∃ t y, exec (.cancelToken die ticket) s = .next t ∧
      smFind ticket.toNat t.hg.cancels = some y ∧ die ∈ y.told ∧ y.marked = x.marked ∧
      y.hstrands = x.hstrands + handlersOn s die x.marked ∧ t.mem = s.mem := by
  have hview := (tokenFates_tokenView (tellDie s die ticket.toNat x) die ticket.toNat x).trans (tellDie_tokenView hx die)
  obtain ⟨hmem, hcancel⟩ := Prod.mk.inj hview
  obtain ⟨y, hy, hfields⟩ := Option.map_eq_some_iff.mp hcancel
  simp only [Prod.mk.injEq] at hfields
  obtain ⟨htold, hmarked, hstrands⟩ := hfields
  exact ⟨_, y, exec_cancelToken hx hnew hdie, hy, htold ▸ List.mem_cons_self, hmarked, hstrands, hmem⟩

theorem cancelMark_marks {s : State} {home : Nat} {r : CancelReq}
    (hr : (reapScopes s).hg.reqs.find? (fun r => r.home == home) = some r) (hfits : cancelFits (reapScopes s) r = true)
    (hlive : ((reapScopes s).scope r.scope).st = .live) :
    let v := ticketOf (reapScopes s) r.scope
    ∃ t, exec (.cancelMark home) s = .next t ∧ t.hg.reqs = (reapScopes s).hg.reqs.erase r ∧
      (smFind v.toNat t.hg.cancels).isSome = true ∧ t.mem = s.mem ∧
      (t.scope r.scope).st = .cancelling ∧ (t.scope r.scope).canc = true ∧ (t.scope r.scope).ticket = v ∧
      ∀ c n, r.by_ = .strand c n → (s.th c).job.wait = .cancel n → (t.th c).job.wait = .cancelDone v := by
  intro v
  let m := markScope (takeReq (reapScopes s) r) r.scope
  have hexec : exec (.cancelMark home) s = .next (replyCancel m r.home r.by_ v) :=
    (exec_cancelMark hr).trans (congrArg _ (serveCancel_marks (s := takeReq (reapScopes s) r) hfits hlive))
  obtain ⟨hst, hcanc, hticket⟩ := markScope_marks (s := takeReq (reapScopes s) r) hlive
  refine ⟨_, hexec, ?_, ?_, ?_, ?_, ?_, ?_, fun c n hby hwait => ?_⟩
  · rw [replyCancel_hg]
    exact markScope_keeps (fun s => s.hg.reqs) (fun _ _ _ => rfl) (fun _ _ => rfl) _ _
  · rw [replyCancel_hg]
    exact Option.isSome_of_eq_some (markScope_cancels (takeReq (reapScopes s) r) r.scope)
  · rw [replyCancel_mem]
    exact (markScope_keeps State.mem (fun _ _ _ => rfl) (fun _ _ => rfl) _ _).trans (reapScopes_mem s)
  · rw [replyCancel_at_scope]; exact hst
  · rw [replyCancel_at_scope]; exact hcanc
  · rw [replyCancel_at_scope]; exact hticket
  · have hth : m.th c = s.th c :=
      (markScope_keeps (fun s => s.th c) (fun _ _ _ => rfl) (fun _ _ => rfl) _ _).trans (reapScopes_at_th s c)
    rw [hby]
    exact (replyCancel_strand m r.home c n v).1 (by rw [hth]; exact hwait)

theorem cancelMark_refuses {s : State} {home : Nat} {r : CancelReq}
    (hr : (reapScopes s).hg.reqs.find? (fun r => r.home == home) = some r) (hfits : cancelFits (reapScopes s) r = false) :
    ∃ t, exec (.cancelMark home) s = .next t ∧
      t.hg.reqs = (reapScopes s).hg.reqs.erase r ∧ t.hg.cancels = (reapScopes s).hg.cancels ∧
      (∀ n, t.scope n = (reapScopes s).scope n) ∧ t.mem = s.mem ∧
      ∀ c n, r.by_ = .strand c n → ((s.th c).job.wait = .cancel n → (t.th c).job.wait = .cancelDone rBadscope) ∧
        ((s.th c).job.wait ≠ .cancel n → t.th c = s.th c) := by
  have hexec : exec (.cancelMark home) s = .next (replyCancel (takeReq (reapScopes s) r) r.home r.by_ rBadscope) :=
    (exec_cancelMark hr).trans (congrArg _ (serveCancel_refuses (s := takeReq (reapScopes s) r) hfits))
  refine ⟨_, hexec, ?_, ?_, fun n => ?_, ?_, fun c n hby => ?_⟩
  · rw [replyCancel_hg]; rfl
  · rw [replyCancel_hg]; rfl
  · rw [replyCancel_at_scope]; rfl
  · rw [replyCancel_mem]; exact reapScopes_mem s
  · rw [hby, ← reapScopes_at_th s c]
    exact replyCancel_strand (takeReq (reapScopes s) r) r.home c n rBadscope

/-! ### Acknowledgement and DONE (R59, R62) -/

theorem exec_cancelAck {s : State} {die : Nat} {ticket : Word} {x : Cancel} (hx : smFind ticket.toNat s.hg.cancels = some x)
    (htold : die ∈ x.told) (hnew : die ∉ x.acked) (hclear : dieClear s die x.scope = true) : exec (.cancelAck die ticket) s =
      .next ((sendStamp s die x.home).updCancel ticket.toNat
        (fun c => { c with acked := die :: c.acked, tdone := s.gtime x.home })) := by
  change execCancelAck die ticket s = _
  simp [execCancelAck, hx, htold, hnew, hclear]

/-- Scope n has ended. -/
def endedScope (n : Nat) (s : State) : Prop := (s.scope n).st = .done ∨ (s.scope n).st = .free

theorem freeScope_ended {s : State} {n : Nat} (h : endedScope n s) (m : Nat) : endedScope n (freeScope s m) := by
  by_cases hm : n = m
  · subst hm; exact .inr (by simp [freeScope])
  · simpa only [endedScope, freeScope, State.setScope_scope_ne _ hm] using h

/-- A scope that has ended stays so while others, or it, are freed. -/
theorem reapScopes_ended {s : State} {n : Nat} (h : endedScope n s) : endedScope n (reapScopes s) :=
  List.foldlRecOn (motive := endedScope n) _ _ h fun s hs x _ => by
    split
    · exact List.foldlRecOn (motive := endedScope n) _ _ hs fun s hs m _ => freeScope_ended hs m
    · exact hs

theorem doneScopes_keeps {γ : Type} (g : State → γ) (hscope : ∀ s n x, g (State.setScope s n x) = g s) (s : State) (x : Cancel) :
    g (doneScopes s x) = g s :=
  (foldl_keeps g (fun s m => by
    split
    · exact hscope s m _
    · rfl) _ _).trans (foldl_keeps g (fun s m => by exact hscope s m _) _ s)

theorem doneScopes_ended {s : State} {x : Cancel} {n : Nat} (h : n ∈ x.marked) : endedScope n (doneScopes s x) := by
  have hdone : endedScope n (x.marked.foldl (fun s m => s.setScope m { s.scope m with st := .done }) s) :=
    foldl_reaches (P := fun _ => True) (Q := endedScope n) (fun s _ => .inl (by simp)) (fun _ _ _ h => h)
      (fun s m hs => by
        by_cases hm : n = m
        · subst hm; exact .inl (by simp)
        · simpa only [endedScope, State.setScope_scope_ne _ hm] using hs) h trivial
  exact List.foldlRecOn (motive := endedScope n) _ _ hdone fun s hs m _ => by
    split
    · exact freeScope_ended hs m
    · exact hs

/-- The state in which the record of a cancellation that is DONE has been written, with its last counts (R62). -/
def recordWritten (s : State) (ticket : Word) (x : Cancel) : State :=
  writeCancel (doneLaunches s ticket.toNat x.marked) ticket
    ((smFind ticket.toNat (doneLaunches s ticket.toNat x.marked).hg.cancels).getD x)

/-- A cancellation leaves with DONE. -/
def leaveCancel (s : State) (v : Nat) : State := { s with hg := { s.hg with cancels := smDel v s.hg.cancels } }

theorem exec_cancelDone {s : State} {ticket : Word} {x : Cancel} (hx : smFind ticket.toNat s.hg.cancels = some x)
    (hacked : (ctxDies s x.ctx).all (fun d => x.acked.contains d) = true)
    (hafter : x.after.all (fun t => (smFind t.toNat s.hg.cancels).isNone) = true) (hline : recordLine s x = none) :
    exec (.cancelDone ticket) s =
      .next (reapScopes (doneScopes (leaveCancel (recordWritten s ticket x) ticket.toNat) x)) := by
  change execCancelDone ticket s = _
  have hnone : x.after.any (fun t => (smFind t.toNat s.hg.cancels).isSome) = false := by
    simpa using hafter
  simp only [execCancelDone, hx, hacked, hnone, Bool.not_true, Bool.false_eq_true, or_self, if_false, hline]
  rfl

theorem writeCancel_mem {s : State} {x : Cancel} {key : Nat} {cls : Option Cls} (ticket : Word)
    (harea : (s.ctx x.ctx).regs.crbase ≠ 0)
    (hcheck : seqCheck s x.ctx x.home .write ((s.ctx x.ctx).regs.crbase + BitVec.ofNat 64 (64 * x.scope)) 64 = .ok key cls) :
    (writeCancel s ticket x).mem =
      (cancelFields ticket x).foldl (fun m f => m.writeNat (key + f.1) f.2.1 f.2.2) s.mem := by
  simp only [writeCancel, if_neg harea, hcheck, sendStamp_mem]

theorem cancelDone_ends {s : State} {ticket : Word} {x : Cancel} (hx : smFind ticket.toNat s.hg.cancels = some x)
    (hacked : (ctxDies s x.ctx).all (fun d => x.acked.contains d) = true)
    (hafter : x.after.all (fun t => (smFind t.toNat s.hg.cancels).isNone) = true) (hline : recordLine s x = none) :
    ∃ t, exec (.cancelDone ticket) s = .next t ∧ smFind ticket.toNat t.hg.cancels = none ∧
      (∀ m ∈ x.marked, (t.scope m).st = .done ∨ (t.scope m).st = .free) ∧
      ∀ key cls, let a := (s.ctx x.ctx).regs.crbase + BitVec.ofNat 64 (64 * x.scope)
        (s.ctx x.ctx).regs.crbase ≠ 0 → doneLaunches s ticket.toNat x.marked = s →
        seqCheck s x.ctx x.home .write a 64 = .ok key cls →
        t.mem = (cancelFields ticket x).foldl (fun m f => m.writeNat (key + f.1) f.2.1 f.2.2) s.mem := by
  refine ⟨_, exec_cancelDone hx hacked hafter hline, ?_, fun m hm => reapScopes_ended (doneScopes_ended hm), ?_⟩
  · rw [reapScopes_keeps (fun s => smFind ticket.toNat s.hg.cancels) (fun _ _ _ => rfl),
      doneScopes_keeps (fun s => smFind ticket.toNat s.hg.cancels) (fun _ _ _ => rfl)]
    exact smFind_smDel_self _ _
  · intro key cls a harea hnone hcheck
    rw [reapScopes_mem, doneScopes_keeps State.mem (fun _ _ _ => rfl)]
    change (recordWritten s ticket x).mem = _
    rw [recordWritten, hnone, hx]
    exact writeCancel_mem ticket harea hcheck

/-! ### The delivery of tokens (R66) -/

theorem exec_tokenDeliver {s : State} {i : Nat} {f : Flight} (hf : s.flight[i]? = some f)
    (hfirst : (s.flight.take i).all (fun g => !(g.chan == f.chan && g.core == f.core)) = true) :
    exec (.tokenDeliver i) s = .next (({ s with flight := s.flight.eraseIdx i } : State).setChan f.chan
      { s.chan f.chan with fifo := (s.chan f.chan).fifo ++ [f.tok] }) := by
  change execTokenDeliver i s = _
  have hnone : (s.flight.take i).any (fun g => g.chan == f.chan && g.core == f.core) = false := by
    rw [List.any_eq_false]
    exact fun g hg hsame => by simpa [hsame] using List.all_eq_true.mp hfirst g hg
  simp only [execTokenDeliver, hf, hnone, Bool.false_eq_true, if_false]

/-- Settles O50: marking, tokens, acknowledgements, DONE, and the delivery of tokens. -/
theorem headgateEvents : Obligations.HeadgateEvents :=
  ⟨fun _ _ hnone => exec_cancelMark_none hnone,
    fun _ _ _ hr hfits hlive => cancelMark_marks hr hfits hlive,
    fun _ _ _ hr hfits => cancelMark_refuses hr hfits,
    fun _ _ _ _ hx hnew hdie => cancelToken_tells hx hnew hdie,
    fun _ _ _ _ hx htold hnew hclear => exec_cancelAck hx htold hnew hclear,
    fun _ _ _ hx hacked hafter hline => cancelDone_ends hx hacked hafter hline,
    fun _ _ _ hf hfirst => ⟨_, exec_tokenDeliver hf hfirst, rfl, by rw [State.setChan_chan_self]⟩⟩

end Sys2Proof.Machine

/-! ## Waits of strands and load-blocks, and the exchanges of GTIME (R69 to R75, R209, R273, R276, R325) -/

namespace Sys2Proof.Machine
open Sys2Proof Sys2Proof.Ob

/-! ### The ends of TIMEWAIT and MWAIT (R75, R325) -/

theorem exec_timewaitExpiry_due {s : State} {c : Nat} {u : Word} (hwait : (s.th c).job.wait = .timewait u none)
    (hdue : u.toNat ≤ (gtimeOf s c).toNat) :
    exec (.timewaitExpiry c) s = .next (setWait s c (.timewait u (some (gtimeOf s c)))) := by
  change execTimewaitExpiry c s = _
  simp only [execTimewaitExpiry, hwait, if_pos hdue]

theorem exec_mwaitPoll {s : State} {c key : Nat} {va ref last : Word}
    (hwait : (s.th c).job.wait = .mwait va key ref true last .none) (hidle : (s.th c).job.host = .idle) :
    exec (.mwaitPoll c) s = .next (if last.toNat + 1000 ≤ (gtimeOf s c).toNat then monitorPoll s c va key ref (gtimeOf s c) else s) := by
  change execMwaitPoll c s = _
  simp only [execMwaitPoll, hwait, hidle]

/-- A poll's request leaves, and the wait notes when. -/
theorem monitorPoll_th (s : State) (c : Nat) (va : Word) (key : Nat) (ref now : Word) :
    (monitorPoll s c va key ref now).th c =
      { s.th c with job := { (s.th c).job with wait := .mwait va key ref true now .none, host := .sent va 0 } } :=
  State.setTh_th_self s c _

theorem exec_mwaitWake {s : State} {c key : Nat} {va ref last : Word}
    (hwait : (s.th c).job.wait = .mwait va key ref false last .none) (hown : hostWord key = false) :
    exec (.mwaitWake c) s = .next (monitorRead s c va key ref false last) := by
  change execMwaitWake c s = _
  simp only [execMwaitWake, hwait, hown, Bool.false_eq_true, if_false]

theorem exec_cxlCacheSnoop {s : State} {c key : Nat} {va ref last : Word}
    (hwait : (s.th c).job.wait = .mwait va key ref false last .none) (hhost : hostWord key = true) :
    exec (.cxlCacheSnoop c ((key - hostKey 0) / 128)) s = .next (monitorRead s c va key ref false last) := by
  change execCxlCacheSnoop c _ s = _
  simp only [execCxlCacheSnoop, hwait, hhost, and_self, if_true]

/-! ### Completions of requests to the host (R273) -/

theorem exec_cxlIoCompletion_home (s : State) (who : HostReq) (ok : Bool) :
    exec (.cxlIoCompletion (s.ctx (reqCtx s who)).home who ok) s =
      .next (completeHost s who (ok && s.portUp (s.ctx (reqCtx s who)).home)) := congrArg _ (if_pos rfl)

theorem exec_cxlIoCompletion_other {s : State} {port : Port} {who : HostReq} (h : port ≠ (s.ctx (reqCtx s who)).home) (ok : Bool) :
    exec (.cxlIoCompletion port who ok) s = .next s := congrArg _ (if_neg h)

@[simp] theorem completeHost_mem (s : State) (r : HostReq) (ok : Bool) : (completeHost s r ok).mem = s.mem :=
  completeHost_keeps State.mem (fun _ _ _ => rfl) (fun _ _ _ => rfl) s r ok

/-- Of a strand's two requests that of its access is completed first (log entry 14). -/
theorem completeHost_strand_access {s : State} {c n : Nat} {va : Word} (h : (s.th c).job.host = .sent va n) (ok : Bool) :
    ((completeHost s (.strand c) ok).th c).job.host = .answered va n ok := by
  rw [completeHost_strand_host, h]; rfl

theorem completeHost_strand_code {s : State} {c n : Nat} {va : Word} (h : (s.th c).job.code = .sent va n)
    (hno : ∀ a k, (s.th c).job.host ≠ .sent a k) (ok : Bool) :
    ((completeHost s (.strand c) ok).th c).job.code = .answered va n ok := by
  cases hhost : (s.th c).job.host with
  | sent a k => exact absurd hhost (hno a k)
  | idle => simp [completeHost, hhost, h, HostSt.complete]
  | answered a k b => simp [completeHost, hhost, h, HostSt.complete]

theorem completeHost_vl {s : State} {c n : Nat} {va : Word} (h : (s.th c).q.vl.host = .sent va n) (ok : Bool) :
    ((completeHost s (.queue c 1) ok).th c).q.vl.host = .answered va n ok := by
  simp [completeHost, Queues.get, Queues.set, h, HostSt.complete]

theorem completeHost_vs {s : State} {c n : Nat} {va : Word} (h : (s.th c).q.vs.host = .sent va n) (ok : Bool) :
    ((completeHost s (.queue c 3) ok).th c).q.vs.host = .answered va n ok := by
  simp [completeHost, Queues.get, Queues.set, h, HostSt.complete]

theorem completeHost_ring {s : State} {c n : Nat} {va : Word} (h : (s.core c).ring.host = .sent va n) (ok : Bool) :
    ((completeHost s (.ring c) ok).core c).ring.host = .answered va n ok := by
  simp [completeHost, setRing, h, HostSt.complete]

theorem setBlock_blocks (s : State) (c i : Nat) (b : LoadBlock) :
    ((setBlock s c i b).core c).banks.blocks = (s.core c).banks.blocks.set i b := by simp [setBlock]

/-- A block that is replaced is found in its place. -/
theorem setBlock_self {s : State} {c i : Nat} {b : LoadBlock} (h : (s.core c).banks.blocks[i]? = some b) (b' : LoadBlock) :
    ((setBlock s c i b').core c).banks.blocks[i]? = some b' := by
  rw [setBlock_blocks, List.getElem?_set_self (List.getElem?_eq_some_iff.mp h).1]

theorem completeHost_block {s : State} {c i n : Nat} {va : Word} {b : LoadBlock} (h : (s.core c).banks.blocks[i]? = some b)
    (hsent : b.host = .sent va n) (ok : Bool) :
    ((completeHost s (.block c i) ok).core c).banks.blocks[i]? = some { b with host := .answered va n ok } := by
  simp only [completeHost, h, setBlock_self h, hsent, HostSt.complete]

theorem completeHost_packet {s : State} {q n : Nat} {va : Word} {r : PRun} (h : s.run q = some r) (hsent : r.host = .sent va n)
    (ok : Bool) : completeHost s (.packet q) ok = s.setRun q { r with host := .answered va n ok } := by
  simp only [completeHost, h, hsent, HostSt.complete]

/-! ### Load-blocks (R209) -/

theorem exec_loadblockFillDone_full {s : State} {c i : Nat} {b : LoadBlock} (hb : (s.core c).banks.blocks[i]? = some b)
    (hraised : b.raised = false) (hgood : b.bad = none) (hfull : b.full = true) (hsem : semBad s c b.sem.toNat = false)
    (hroom : semOf s c b.sem.toNat ≠ 0xFFFF) : exec (.loadblockFillDone c i) s =
      .next (setSemOf (setBlock s c i { b with raised := true }) c b.sem.toNat (semOf s c b.sem.toNat + 1)) := by
  change execLoadblockFillDone c i s = _
  simp only [execLoadblockFillDone, hb, hraised, hgood, hfull, Bool.false_eq_true, Option.isSome_none, or_self, if_false, if_true,
    raiseBlock, hsem, hroom]

theorem exec_loadblockFillDone_fills {s : State} {c i : Nat} {b : LoadBlock} (hb : (s.core c).banks.blocks[i]? = some b)
    (hraised : b.raised = false) (hgood : b.bad = none) (hfull : b.full = false) :
    exec (.loadblockFillDone c i) s = .next (fillBlock s c i b) := by
  change execLoadblockFillDone c i s = _
  simp only [execLoadblockFillDone, hb, hraised, hgood, hfull, Bool.false_eq_true, Option.isSome_none, or_self, if_false]

/-- A fill of which no request has left, and that finds its lines, is full and raises its semaphore. -/
theorem fillBlock_filled {s : State} {c i : Nat} {b : LoadBlock} {bs : List Byte} (hpark : b.park = .run) (hidle : b.host = .idle)
    (hfill : fillLines s (s.whoThread c) 0 b.lines 0 b.va = .ok bs) : fillBlock s c i b =
      raiseBlock (setBlock s c i { b with full := true, data := bs, host := .idle }) c i
        { b with full := true, data := bs, host := .idle } := by
  simp only [fillBlock, hpark, hidle, hfill]

/-- A line of it in HOST-U memory is requested first (R273). -/
theorem fillBlock_asks {s : State} {c i k : Nat} {b : LoadBlock} {va : Word} (hpark : b.park = .run) (hidle : b.host = .idle)
    (hfill : fillLines s (s.whoThread c) 0 b.lines 0 b.va = .ask va k) :
    fillBlock s c i b = setBlock s c i { b with host := .sent va k } := by
  simp only [fillBlock, hpark, hidle, hfill]

/-- What becomes of the semaphore of a full block, the block stays full with its bytes, and no byte of memory changes. -/
theorem raiseBlock_full {s : State} {c i : Nat} {b : LoadBlock} (hb : (s.core c).banks.blocks[i]? = some b) (hfull : b.full = true) :
    ∃ b', ((raiseBlock s c i b).core c).banks.blocks[i]? = some b' ∧ b'.full = true ∧ b'.data = b.data ∧
      (raiseBlock s c i b).mem = s.mem := by
  simp only [raiseBlock]
  split
  · exact ⟨_, setBlock_self hb _, hfull, rfl, rfl⟩
  · split
    · exact ⟨b, hb, hfull, rfl, rfl⟩
    · refine ⟨{ b with raised := true }, ?_, hfull, rfl, rfl⟩
      rw [setSemOf, State.setTh_core_self]
      exact setBlock_self hb _

theorem waitEvents_hold : waitEvents := by
  refine ⟨fun s c u hwait hdue => exec_timewaitExpiry_due hwait hdue, fun s c key va ref last hwait hidle => ?poll,
    fun s c key va ref last hwait => ⟨fun hown => exec_mwaitWake hwait hown, fun hhost => exec_cxlCacheSnoop hwait hhost⟩,
    fun s c i n ok va b => ?completes,
    fun s q n ok va r hr hsent => (exec_cxlIoCompletion_home s (.packet q) ok).trans (congrArg _ (completeHost_packet hr hsent _)),
    fun s c i b hb hraised hgood hfull hsem hroom => exec_loadblockFillDone_full hb hraised hgood hfull hsem hroom,
    fun s c i b bs hb hraised hgood hfull hpark hidle hfill => ?fills,
    fun s c i k b va hb hraised hgood hfull hpark hidle hfill => ?asks⟩
  case poll =>
    rw [exec_mwaitPoll hwait hidle]
    refine ⟨fun hdue => ?_, fun hearly => ?_⟩
    · rw [if_pos hdue]
      refine ⟨_, rfl, ?_, ?_, rfl⟩ <;> rw [monitorPoll_th]
    · rw [if_neg (Nat.not_le.mpr hearly)]
  case completes =>
    intro home end_
    exact ⟨fun port hport => exec_cxlIoCompletion_other (who := .strand c) hport ok,
      fun h => ⟨_, exec_cxlIoCompletion_home s (.strand c) ok, completeHost_strand_access h _, completeHost_mem _ _ _⟩,
      fun h hno => ⟨_, exec_cxlIoCompletion_home s (.strand c) ok, completeHost_strand_code h hno _, completeHost_mem _ _ _⟩,
      fun h => ⟨_, exec_cxlIoCompletion_home s (.queue c 1) ok, completeHost_vl h _, completeHost_mem _ _ _⟩,
      fun h => ⟨_, exec_cxlIoCompletion_home s (.queue c 3) ok, completeHost_vs h _, completeHost_mem _ _ _⟩,
      fun h => ⟨_, exec_cxlIoCompletion_home s (.ring c) ok, completeHost_ring h _, completeHost_mem _ _ _⟩,
      fun hb h => ⟨_, _, exec_cxlIoCompletion_home s (.block c i) ok, completeHost_block hb h _, rfl, completeHost_mem _ _ _⟩⟩
  case fills =>
    have hexec := (exec_loadblockFillDone_fills hb hraised hgood hfull).trans (congrArg _ (fillBlock_filled hpark hidle hfill))
    obtain ⟨b', hb', hfull', hdata, hmem⟩ := raiseBlock_full (setBlock_self hb _)
      (show ({ b with full := true, data := bs, host := .idle } : LoadBlock).full = true from rfl)
    exact ⟨_, b', hexec, hb', hfull', hdata, hmem⟩
  case asks =>
    exact (exec_loadblockFillDone_fills hb hraised hgood hfull).trans (congrArg _ (fillBlock_asks hpark hidle hfill))

/-! ### Exchanges (R69 to R72) -/

/-- An exchange that is due, and whose clock keeps the bound of R70, happens. -/
theorem exec_gtimeExchange {s : State} {d : Nat} {est : Int} (hd : d < 18)
    (hdue : (s.die d).time.exchAt.toNat + 1000000 ≤ (s.die d).time.gtime.toNat)
    (hbound : timeOk (s.setDie d { s.die d with time := exchange (s.die d).time est }) = true) :
    exec (.gtimeExchange d est) s = .next (s.setDie d { s.die d with time := exchange (s.die d).time est }) := by
  change execGtimeExchange d est s = _
  simp [execGtimeExchange, dieCount, Nat.not_le.mpr hd, Nat.not_lt.mpr hdue, keepTime, hbound]

/-- The estimate of an exchange is good. -/
def goodEst (est : Int) : Bool := decide (-4 ≤ est) && decide (est ≤ 4)

theorem exchange_good (x : DieTime) (est : Int) : (exchange x est).good = goodNext x (goodEst est) := by
  simp only [exchange, goodEst]
  split
  · split <;> rfl
  · split <;> rfl
  · split <;> rfl

/-- A bad exchange counts from 0 again and leaves the state and ERR. -/
theorem exchange_bad {x : DieTime} {est : Int} (h : goodEst est = false) :
    (exchange x est).good = 0 ∧ (exchange x est).st = x.st ∧ (exchange x est).err = x.err := by
  refine ⟨by rw [exchange_good, h]; rfl, ?_⟩
  unfold goodEst at h
  simp only [exchange, h, goodNext]
  cases x.st <;> simp

theorem goodNext_rises {x : DieTime} (h : x.good ≠ 255) : goodNext x true = x.good + 1 := if_neg h

/-- A good exchange of a LOCKED die sets ERR back to 4 (R72). -/
theorem exchange_locked {x : DieTime} {est : Int} (hgood : goodEst est = true) (hst : x.st = .locked) :
    (exchange x est).err = 4 ∧ (exchange x est).st = .locked ∧ (exchange x est).gtime = x.gtime := by
  unfold goodEst at hgood
  simp only [exchange, hgood, hst, if_true, and_self]

/-- Before the twentieth good exchange a die that is not LOCKED stays as it is (R72). -/
theorem exchange_counting {x : DieTime} {est : Int} (hst : x.st ≠ .locked) (h : (goodNext x (goodEst est)).toNat < 20) :
    (exchange x est).st = x.st ∧ (exchange x est).gtime = x.gtime := by
  unfold goodEst at h
  simp only [exchange]
  cases hx : x.st with
  | locked => exact absurd hx hst
  | lost => simp [Nat.not_le.mpr h]
  | free => simp [Nat.not_le.mpr h]

/-- The twentieth locks it with ERR 4 (R72). -/
theorem exchange_locks {x : DieTime} {est : Int} (hst : x.st ≠ .locked) (h : 20 ≤ (goodNext x (goodEst est)).toNat) :
    (exchange x est).st = .locked ∧ (exchange x est).err = 4 := by
  unfold goodEst at h
  simp only [exchange]
  cases hx : x.st with
  | locked => exact absurd hx hst
  | lost => simp [h]
  | free => simp [h]

/-- The count of good exchanges is below 20 until the twentieth, and from then on not, as it saturates. -/
theorem goodNext_lt_twenty (x : DieTime) : (goodNext x true).toNat < 20 ↔ x.good.toNat < 19 := by
  by_cases h : x.good = 255
  · simp [goodNext, h]
  · have hne : x.good.toNat ≠ 255 := fun e => h (BitVec.eq_of_toNat_eq e)
    rw [goodNext_rises h, BitVec.toNat_add]
    have hlt := x.good.isLt
    change (x.good.toNat + 1) % 256 < 20 ↔ _
    omega

/-! ### A millisecond without a good exchange (R72) -/

theorem missed_good (x : DieTime) : (missed x).good = 0 := by
  unfold missed
  extract_lets e err
  split
  · rfl
  · split <;> rfl

theorem missed_free {x : DieTime} (h : x.st = .free) : (missed x).err = x.err ∧ (missed x).st = .free := by
  simp [missed, h]

/-- ERR rises by one while it has room. -/
theorem err_rises {x : DieTime} (h : x.err.toNat ≤ 16) : x.err ≠ 0xFFFF ∧ (x.err + 1).toNat = x.err.toNat + 1 := by
  refine ⟨fun e => ?_, ?_⟩
  · rw [e] at h; exact absurd h (by decide)
  · rw [BitVec.toNat_add]
    change (x.err.toNat + 1) % 65536 = _
    omega

/-- The clock of a LOCKED die after a millisecond without a good exchange, ERR with room to rise. -/
theorem missed_of_locked {x : DieTime} (hst : x.st = .locked) (herr : x.err.toNat ≤ 16) :
    (missed x).err = x.err + 1 ∧
      (missed x).st = (if 16 < x.err.toNat + 1 then .lost else .locked) ∧
      (16 < x.err.toNat + 1 → x.losses ≠ 0xFFFF → (missed x).losses = x.losses + 1) := by
  obtain ⟨hroom, hnext⟩ := err_rises herr
  have hrise : (if x.err = 0xFFFF#16 then x.err else x.err + 1) = x.err + 1 := if_neg hroom
  simp only [missed, hst, reduceCtorEq, if_false, true_and, hrise, hnext]
  split
  · exact ⟨rfl, rfl, fun _ hlosses => if_neg hlosses⟩
  · next hstay => exact ⟨rfl, rfl, fun hlost => absurd hlost hstay⟩

theorem missed_locked {x : DieTime} (hst : x.st = .locked) (herr : x.err.toNat < 16) :
    (missed x).err = x.err + 1 ∧ (missed x).st = .locked := by
  obtain ⟨herr', hst', -⟩ := missed_of_locked hst (Nat.le_of_lt herr)
  exact ⟨herr', hst'.trans (if_neg (by omega))⟩

theorem missed_loses {x : DieTime} (hst : x.st = .locked) (herr : x.err.toNat = 16) :
    (missed x).err = 17 ∧ (missed x).st = .lost ∧ (x.losses ≠ 0xFFFF → (missed x).losses = x.losses + 1) := by
  obtain ⟨herr', hst', hlosses⟩ := missed_of_locked hst (Nat.le_of_eq herr)
  have h16 : x.err = 16 := BitVec.eq_of_toNat_eq herr
  exact ⟨herr'.trans (by rw [h16]; rfl), hst'.trans (if_pos (by omega)), hlosses (by omega)⟩

/-- A die that is written with the time it had leaves every die its time. -/
theorem setDie_time_of_eq (s : State) {d : Nat} {x : Die} (h : x.time = (s.die d).time) (j : Nat) :
    ((s.setDie d x).die j).time = (s.die j).time := by
  by_cases hj : j = d
  · rw [hj, State.setDie_die_self, h]
  · rw [State.setDie_die_ne s hj]

theorem sendStamp_time (s : State) (src dst j : Nat) : ((sendStamp s src dst).die j).time = (s.die j).time := by
  simp only [sendStamp]
  split
  · rfl
  · exact (setDie_time_of_eq _ (by rfl) j).trans (setDie_time_of_eq s (by rfl) j)

/-- An event posted to the host leaves every die its time. -/
theorem postEvent_time {s t : State} {ctx slot queue kind die : Nat} {value : Word}
    (h : postEvent s ctx value slot queue kind die = some t) (j : Nat) : (t.die j).time = (s.die j).time := by
  simp only [postEvent] at h
  split at h
  · cases h
  · split at h
    · cases h
    · obtain ⟨m, x, ht⟩ : ∃ m x, t = raiseVector ((sendStamp { s with mem := m } die (hostDie s ctx)).setCtx ctx x) ctx :=
        ⟨_, _, (Option.some.inj h).symm⟩
      rw [ht]
      exact sendStamp_time { s with mem := m } die (hostDie s ctx) j

theorem postLoss_time (s : State) (value : Word) (die ctx j : Nat) : ((postLoss s value die ctx).die j).time = (s.die j).time := by
  simp only [postLoss]
  split
  · next t ht => exact postEvent_time ht j
  · rfl

theorem exec_syncErrTick {s : State} {d : Nat} (hd : d < 18)
    (hdue : (s.die d).time.errAt.toNat + 1000000 ≤ (s.die d).time.gtime.toNat) :
    ∃ t, exec (.syncErrTick d) s = .next t ∧ (t.die d).time = missed (s.die d).time := by
  change ∃ t, execSyncErrTick d s = _ ∧ _
  have hgo : ¬ (dieCount ≤ d ∨ (s.die d).time.gtime.toNat < (s.die d).time.errAt.toNat + 1000000) := by
    simp only [dieCount]; omega
  simp only [execSyncErrTick, if_neg hgo]
  split
  · refine ⟨_, rfl, ?_⟩
    rw [foldl_keeps (fun s => (s.die d).time) (fun s c => postLoss_time s _ d c d), logEv_at_die, State.setDie_die_self]
  · exact ⟨_, rfl, by rw [State.setDie_die_self]⟩

/-! ### The time record (R73) -/

theorem exec_timeRecordWrite {s : State} {port : Port} {ptm : Word} (hrec : s.mgmt.timerec ≠ 0) (hport : port = ptmPort s.mgmt)
    (hup : s.portUp port = true) (hdue : s.mgmt.recAt.toNat + 1000000 ≤ (s.gtime 16).toNat) :
    exec (.timeRecordWrite port ptm) s = .next { sendStamp s 16 (if port = .b then 17 else 16) with
      mem := ((s.mem.writeNat (hostKey s.mgmt.timerec.toNat) 8 (s.gtime 16).toNat).writeNat
        (hostKey s.mgmt.timerec.toNat + 8) 8 ptm.toNat).writeNat (hostKey s.mgmt.timerec.toNat + 16) 8 (hostBound s),
      mgmt := { s.mgmt with recAt := s.gtime 16 } } := by
  change execTimeRecordWrite port ptm s = _
  have hgo : ¬ (s.mgmt.timerec.toNat = 0 ∨ port ≠ ptmPort s.mgmt ∨ !s.portUp port ∨
      (s.gtime 16).toNat < s.mgmt.recAt.toNat + 1000000) := by
    have hne : s.mgmt.timerec.toNat ≠ 0 := fun e => hrec (BitVec.eq_of_toNat_eq e)
    simp [hne, ← hport, hup, Nat.not_lt.mpr hdue]
  exact if_neg hgo

theorem timeEvents_hold : timeEvents := by
  refine ⟨fun s d est hd hdue hbound => ⟨_, exec_gtimeExchange hd hdue hbound, rfl, ?exchange⟩, fun s d hd hdue => ?tick,
    fun s port ptm hrec hport hup hdue => exec_timeRecordWrite hrec hport hup hdue⟩
  case exchange =>
    intro x y
    have hy : y = exchange x est := congrArg Die.time (State.setDie_die_self s d _)
    have hgood (hlow : -4 ≤ est) (htop : est ≤ 4) : goodEst est = true := by simp [goodEst, hlow, htop]
    rw [hy]
    refine ⟨fun hbad => exchange_bad (by simpa [goodEst] using hbad), fun hlow htop hroom => ?_,
      fun hlow htop hst => exchange_locked (hgood hlow htop) hst, fun hlow htop hst hfew => ?_, fun hlow htop hst hmany => ?_⟩
    · rw [exchange_good, hgood hlow htop, goodNext_rises hroom]
    · exact exchange_counting hst (by rw [hgood hlow htop, goodNext_lt_twenty]; exact hfew)
    · exact exchange_locks hst (by
        rw [hgood hlow htop, ← Nat.not_lt, goodNext_lt_twenty]
        exact Nat.not_lt.mpr hmany)
  case tick =>
    obtain ⟨t, ht, htime⟩ := exec_syncErrTick hd hdue
    refine ⟨t, ht, ?_⟩
    intro x y
    change (t.die d).time.good = 0 ∧ _
    rw [show y = missed x from htime, htime]
    exact ⟨missed_good x, fun hst => missed_free hst, fun hst herr => missed_locked hst herr, fun hst herr => missed_loses hst herr⟩

/-- Settles O44: the ends of waits, completions, load-blocks, exchanges and the time record. -/
theorem waitAndTimeEvents : Obligations.WaitAndTimeEvents := ⟨waitEvents_hold, timeEvents_hold⟩

end Sys2Proof.Machine

/-! ## Flume packets: their time, units, collectives, buffers and completion (R60, R76, R168, R214, R217, R229, R273) -/

namespace Sys2Proof.Machine
open Sys2Proof Sys2Proof.Ob

/-! ### Kill points (R60, R229, R273) -/

theorem packetPoint_run {s : State} {q : Nat} {r : PRun} (h : Ob.goesOn s q r = true) (k : PRun → Out) : packetPoint s q r k = k r := by
  simp only [Ob.goesOn, Bool.and_eq_true, Option.isNone_iff_eq_none, Bool.not_eq_true', decide_eq_true_eq] at h
  obtain ⟨⟨hstop, halive⟩, hpark⟩ := h
  simp [packetPoint, hstop, halive, hpark]

theorem packetPoint_dead {s : State} {q : Nat} {r : PRun} (hstop : r.stopAs = none) (hdead : packetDead s q r = true)
    (k : PRun → Out) : packetPoint s q r k = .next (cutPacket s q r 2) := by
  simp [packetPoint, hstop, hdead]

/-- Within a unit there is no kill point, and between units a packet that goes on passes it (R214). -/
theorem unitPoint_run {s : State} {q : Nat} {r : PRun} (h : Ob.goesOn s q r = true ∨ (r.inUnit = true ∧ r.park = .run))
    (k : PRun → Out) : unitPoint s q r k = k r := by
  unfold unitPoint
  split
  · rfl
  · next hbetween =>
    refine packetPoint_run (h.resolve_right fun ⟨hin, hpark⟩ => hbetween ?_) k
    simp [hin, hpark]

theorem unitPoint_between {s : State} {q : Nat} {r : PRun} (h : r.inUnit = false) (k : PRun → Out) :
    unitPoint s q r k = packetPoint s q r k := by
  simp [unitPoint, h]

theorem hostPoint_idle {s : State} {q : Nat} {r : PRun} (h : r.host = .idle) (k : PRun → Out) :
    hostPoint s q r k = unitPoint s q r k := by
  simp only [hostPoint, h]

theorem hostPoint_answered {s : State} {q n : Nat} {va : Word} {r : PRun} {ok : Bool} (h : r.host = .answered va n ok)
    (k : PRun → Out) : hostPoint s q r k = if ok then k r else .next (endPacket s q r 3) := by
  simp only [hostPoint, h]

/-! ### The time and the units of a packet (R76, R214) -/

theorem exec_notBeforeExpiry {s : State} {q : Nat} {r : PRun} {p : FPkt} (hr : s.run q = some r) (hgoes : Ob.goesOn s q r = true)
    (hpkt : r.pkt = some p) (hphase : r.phase = .nbt) : exec (.notBeforeExpiry q) s =
      .next (if (s.gtime (qDie s q)).toNat < p.nbt.toNat then s else afterTime s q r p) := by
  change execNotBeforeExpiry q s = _
  simp only [execNotBeforeExpiry, hr, hphase, hpkt, packetPoint_run hgoes]

/-- The packets that move bytes: FLCOPY, FLFILL and FLRED. -/
def movesBytes (r : PRun) (p : FPkt) : Prop := r.ins = .flcopy p ∨ r.ins = .flfill p ∨ r.ins = .flred p

theorem exec_packetUnitDone_moves {s : State} {q : Nat} {r : PRun} {p : FPkt} (hr : s.run q = some r) (hphase : r.phase = .units)
    (hins : movesBytes r p) (hdc : p.dc = false) :
    exec (.packetUnitDone q) s = hostPoint s q r fun r => .next (moveUnit s q r) := by
  change execPacketUnitDone q s = _
  rcases hins with hins | hins | hins <;> simp [execPacketUnitDone, hr, hphase, hins, packetOf, hdc]

theorem exec_packetUnitDone_coll {s : State} {q : Nat} {r : PRun} {p : FPkt} (hr : s.run q = some r) (hphase : r.phase = .units)
    (hins : r.ins = .flcoll p) : exec (.packetUnitDone q) s = unitPoint s q r fun r => .next (collUnit s q r p) := by
  change execPacketUnitDone q s = _
  simp only [execPacketUnitDone, hr, hphase, hins]

/-- A packet that is cancelled, or whose queue is reset, between units ends there (R229). -/
theorem packetUnitDone_cut {s : State} {q : Nat} {r : PRun} {p : FPkt} (hr : s.run q = some r) (hdead : packetDead s q r = true)
    (hstop : r.stopAs = none) (hbetween : r.inUnit = false) (hphase : r.phase = .units) (hidle : r.host = .idle)
    (hins : (movesBytes r p ∧ p.dc = false) ∨ r.ins = .flcoll p) :
    exec (.packetUnitDone q) s = .next (cutPacket s q r 2) := by
  rcases hins with ⟨hins, hdc⟩ | hins
  · rw [exec_packetUnitDone_moves hr hphase hins hdc, hostPoint_idle hidle, unitPoint_between hbetween, packetPoint_dead hstop hdead]
  · rw [exec_packetUnitDone_coll hr hphase hins, unitPoint_between hbetween, packetPoint_dead hstop hdead]

/-! ### Forming a collective (R217) -/

/-- Packet m of the matched ones goes on to its units with the bytes it is to write. -/
def formOne (s₀ : State) (xs : List (Nat × PRun × FPkt × Claim)) (s : State) (m : Nat) : State :=
  match xs[m]? with
  | some (k, y, p, _) => s.setRun k { y with phase := .units, data := collResult p m (contributions s₀ xs) }
  | none => s

theorem exec_collectiveForm {s : State} {q : Nat} {r : PRun} {p : FPkt} {c : Claim} {xs : List (Nat × PRun × FPkt × Claim)}
    (hr : s.run q = some r) (hgoes : Ob.goesOn s q r = true) (hphase : r.phase = .partners) (hins : r.ins = .flcoll p)
    (hclaim : r.claim = some c) (hagree : (collPeers s q c p).all (fun x => collAgree p x.2.2) = true)
    (hended : collEnded s q r = none) (hall : collAll s q c p = some xs)
    (halive : xs.find? (fun x => packetDead s x.1 x.2.1) = none) (hsound : collPoison s xs = false) :
    exec (.collectiveForm q) s = .next ((List.range xs.length).foldl (formOne s xs) s) := by
  change execCollectiveForm q s = _
  simp only [execCollectiveForm, hr, hphase, hins, hclaim, packetPoint_run hgoes, hagree, if_true, hended, hall, halive, hsound,
    Bool.false_eq_true, if_false]
  rfl

theorem formOne_keeps {γ : Type} (g : State → γ) (hrun : ∀ s q x, g (State.setRun s q x) = g s) (s₀ : State)
    (xs : List (Nat × PRun × FPkt × Claim)) (s : State) (m : Nat) : g (formOne s₀ xs s m) = g s := by
  unfold formOne
  split
  · exact hrun _ _ _
  · rfl

/-- Each matched packet holds its own bytes once all have formed, as no two are of one queue. -/
theorem formed_run (s : State) {xs : List (Nat × PRun × FPkt × Claim)} (hnodup : (xs.map (fun x => x.1)).Nodup) {m k : Nat}
    {y : PRun} {p : FPkt} {d : Claim} (hm : xs[m]? = some (k, y, p, d)) :
    ((List.range xs.length).foldl (formOne s xs) s).run k =
      some { y with phase := .units, data := collResult p m (contributions s xs) } := by
  have hlt : m < xs.length := (List.getElem?_eq_some_iff.mp hm).1
  have hat (t : State) : (formOne s xs t m).run k = some { y with phase := .units, data := collResult p m (contributions s xs) } := by
    simp only [formOne, hm, State.setRun_run_self]
  have hother (t : State) (j : Nat) (hj : j ≠ m) : (formOne s xs t j).run k = t.run k := by
    unfold formOne
    split
    · next k' y' p' d' hx =>
      refine State.setRun_run_ne t (fun hk => hj ?_) _
      have hjlt : j < (xs.map (fun x => x.1)).length := by
        rw [List.length_map]; exact (List.getElem?_eq_some_iff.mp hx).1
      refine (List.Nodup.getElem_inj_iff hnodup (hi := hjlt) (hj := by rwa [List.length_map])).mp ?_
      simp [(List.getElem?_eq_some_iff.mp hx).2, (List.getElem?_eq_some_iff.mp hm).2, hk]
    · rfl
  exact foldl_reaches (P := fun _ => True)
    (Q := fun t => t.run k = some { y with phase := .units, data := collResult p m (contributions s xs) })
    (fun t _ => hat t) (fun _ _ _ h => h)
    (fun t j ht => by
      by_cases hj : j = m
      · subst hj; exact hat t
      · exact (hother t j hj).trans ht) (List.mem_range.mpr hlt) trivial

theorem collResult_concatenates {p : FPkt} (hmem : collMem p = false) (hop : collOp p = 6) (m : Nat) (srcs : List (List Byte)) :
    collResult p m srcs = srcs.flatten := by
  simp [collResult, hmem, hop]

theorem collResult_broadcasts {p : FPkt} (hmem : collMem p = false) (hop : collOp p = 7) (m : Nat) (srcs : List (List Byte)) :
    collResult p m srcs = srcs.getD (collRoot p) [] := by
  simp [collResult, hmem, hop]

/-! ### A slot of a circular buffer (R168) -/

/-- A buffer that is set is read back. -/
theorem cbAt_setCb_self (r : Streams) {n : Nat} (hn : n < 16) (b : CBuf) : (r.setCb n b).cbAt n = b := by
  simp [Streams.cbAt, Streams.setCb, hn]

/-- A fill takes its bytes from the packet and not from a source. -/
theorem newBytes_fill {r : PRun} {p : FPkt} (h : r.ins = .flfill p) (i w : Nat) (src src' dst : List Byte) :
    newBytes r i w src dst = newBytes r i w src' dst := by
  simp only [newBytes, h]

/-- The places of element n's source are found at once, or the packet, a fill, reads none. -/
def sourceFound (s : State) (q : Nat) (r : PRun) (n : Nat) (ks : Option (List Nat)) : Prop :=
  (∃ p, r.ins = .flfill p) ∨ sideKeys s q r .read r.src n = .ok ks []

/-- What element n of a slot reads: a fill reads no source. -/
def slotSource (s : State) (q : Nat) (r : PRun) (n : Nat) : KRd :=
  match r.ins with
  | .flfill _ => .ok none []
  | _ => sideKeys s q r .read r.src n

theorem slotSource_found {s : State} {q n : Nat} {r : PRun} {ks : Option (List Nat)} (h : sourceFound s q r n ks) :
    ∃ ks', slotSource s q r n = .ok ks' [] ∧
      ∀ i w dst, newBytes r i w (readKeys s w ks') dst = newBytes r i w (readKeys s w ks) dst := by
  unfold slotSource
  split
  · next p hins => exact ⟨none, rfl, fun _ _ _ => newBytes_fill hins _ _ _ _ _⟩
  · next hno => exact ⟨ks, h.resolve_left fun ⟨p, hins⟩ => hno p hins, fun _ _ _ => rfl⟩

theorem slotEls_succ {s : State} {q n : Nat} {r : PRun} {ks : Option (List Nat)} (h : sourceFound s q r n ks) (m : Nat)
    (old acc : List Byte) (asks : List Word) (k : List Byte → List Word → MoveRes) :
    slotEls s q r (m + 1) n old acc asks k = slotEls s q r m (n + 1) (old.drop r.dst.lay.width)
      (acc ++ newBytes r (n * r.dst.lay.width) r.dst.lay.width (readKeys s r.dst.lay.width ks) (old.take r.dst.lay.width)) asks k := by
  obtain ⟨ks', hks, hbytes⟩ := slotSource_found h
  change (slotSource s q r n).bind _ = _
  rw [hks, KRd.bind, hbytes, List.append_nil]

/-- The bytes of m elements, element by element. -/
theorem slotEls_found {s : State} {q : Nat} {r : PRun} (m : Nat) {n : Nat} {ks : Nat → Option (List Nat)}
    (h : ∀ i < m, sourceFound s q r (n + i) (ks i)) (old acc : List Byte) (asks : List Word)
    (k : List Byte → List Word → MoveRes) : slotEls s q r m n old acc asks k =
      k (acc ++ (List.range m).flatMap (fun i => newBytes r ((n + i) * r.dst.lay.width) r.dst.lay.width
        (readKeys s r.dst.lay.width (ks i)) ((old.drop (i * r.dst.lay.width)).take r.dst.lay.width))) asks := by
  induction m generalizing n ks old acc with
  | zero => simp [slotEls]
  | succ m ih =>
    have hrest : ∀ i < m, sourceFound s q r (n + 1 + i) (ks (i + 1)) := fun i hi => by
      have := h (i + 1) (by omega)
      rwa [show n + (i + 1) = n + 1 + i by omega] at this
    have hfirst : sourceFound s q r n (ks 0) := h 0 (by omega)
    rw [slotEls_succ hfirst, ih hrest, List.range_succ_eq_map, List.flatMap_cons, List.flatMap_map, List.append_assoc]
    simp only [Nat.add_zero, Nat.zero_mul, List.drop_zero, List.drop_drop, Nat.succ_eq_add_one, Nat.add_mul, Nat.one_mul,
      Nat.add_comm, Nat.add_left_comm]

/-- Slot n of core c's buffer takes the bytes, and the packet goes on, or ends with its last slot (R168). -/
def deliverSlot (s : State) (q : Nat) (r : PRun) (c n : Nat) (bs : List Byte) : State :=
  let b := (s.th c).strm.cbAt n
  let t : State := { s with mem := s.mem.writeBytes (slotKey c b b.wr 0) bs }
  let t := sendStamp t (qDie t q) (dieOfCore c)
  let t := t.setTh c { t.th c with strm := (t.th c).strm.setCb n (b.advWr 1) }
  let r := { r with next := r.next + b.slotBytes / r.dst.lay.width, done := r.done + b.slotBytes, host := .idle }
  if r.total ≤ r.done then endUnits t q r else t.setRun q r

/-- The end of a packet changes launches and packets in execution only. -/
theorem endPacket_keeps {γ : Type} (g : State → γ) (hlaunch : ∀ s n x, g (State.setLaunch s n x) = g s)
    (hrun : ∀ s q x, g (State.setRun s q x) = g s) (s : State) (q : Nat) (r : PRun) (st : BitVec 8) :
    g (endPacket s q r st) = g s := by
  refine (hrun _ _ _).trans ?_
  split
  · exact hlaunch _ _ _
  · rfl

theorem deliverSlot_keeps {γ : Type} (g : State → γ) (hlaunch : ∀ s n x, g (State.setLaunch s n x) = g s)
    (hrun : ∀ s q x, g (State.setRun s q x) = g s) (s : State) (q : Nat) (r : PRun) (c n : Nat) (bs : List Byte) :
    g (deliverSlot s q r c n bs) =
      let b := (s.th c).strm.cbAt n
      let t := sendStamp { s with mem := s.mem.writeBytes (slotKey c b b.wr 0) bs } (qDie s q) (dieOfCore c)
      g (t.setTh c { t.th c with strm := (t.th c).strm.setCb n (b.advWr 1) }) := by
  simp only [deliverSlot]
  split
  · exact endPacket_keeps g hlaunch hrun _ _ _ _
  · exact hrun _ _ _

theorem deliverSlot_mem (s : State) (q : Nat) (r : PRun) (c n : Nat) (bs : List Byte) : (deliverSlot s q r c n bs).mem =
    s.mem.writeBytes (slotKey c ((s.th c).strm.cbAt n) ((s.th c).strm.cbAt n).wr 0) bs := by
  rw [deliverSlot_keeps State.mem (fun _ _ _ => rfl) (fun _ _ _ => rfl)]
  simp

theorem deliverSlot_cbAt (s : State) (q : Nat) (r : PRun) (c : Nat) {n : Nat} (hn : n < 16) (bs : List Byte) :
    ((deliverSlot s q r c n bs).th c).strm.cbAt n = ((s.th c).strm.cbAt n).advWr 1 := by
  rw [deliverSlot_keeps (fun s => (s.th c).strm.cbAt n) (fun _ _ _ => rfl) (fun _ _ _ => rfl)]
  simp only [State.setTh_th_self, cbAt_setCb_self _ hn]

theorem hostAsk_nil (r : PRun) : hostAsk r [] = none := rfl

theorem nbits_lt (x lo n : Nat) : nbits x lo n < 2 ^ n := Nat.mod_lt _ (Nat.two_pow_pos n)

/-- Packet r of queue q is to fill the next slot of buffer b of core c, which is the one it was installed with (R168). -/
structure FillsSlot (s : State) (q : Nat) (r : PRun) (p : FPkt) (c : Nat) (b : CBuf) : Prop where
  run : s.run q = some r
  goes : Ob.goesOn s q r = true
  phase : r.phase = .units
  idle : r.host = .idle
  pkt : r.pkt = some p
  dc : p.dc = true
  left : r.done < r.total
  win : ∃ off, windowTarget s (packetWho s q r none) p.dst.toNat = some (c, off)
  buf : (s.th c).strm.cbAt (nbits p.aux.toNat 0 4) = b
  inst : b.inst = r.inst
  count : b.count ≠ 0
  mark : (6, nbits p.aux.toNat 0 4) ∉ (s.th c).marks

theorem exec_cbSlotDeliver_waits {s : State} {q : Nat} {r : PRun} {p : FPkt} {c : Nat} {b : CBuf} (h : FillsSlot s q r p c b)
    (hfull : b.free = 0) : exec (.cbSlotDeliver q) s = .next s := by
  obtain ⟨hr, hgoes, hphase, hidle, hpkt, hdc, hleft, ⟨off, hwin⟩, rfl, hinst, hcount, hmark⟩ := h
  change execCbSlotDeliver q s = _
  simp only [execCbSlotDeliver, hr, hphase, hpkt, hdc, Bool.not_true, Bool.false_eq_true, if_false, hostPoint_idle hidle,
    unitPoint_run (.inl hgoes), if_neg (Nat.not_le.mpr hleft), hwin, hinst, ne_eq, not_true_eq_false, hcount, hmark, hfull,
    List.contains_iff_mem, or_self, if_true]

theorem exec_cbSlotDeliver {s : State} {q : Nat} {r : PRun} {p : FPkt} {c : Nat} {b : CBuf} (h : FillsSlot s q r p c b)
    {ks : Nat → Option (List Nat)} (hfree : b.free ≠ 0)
    (hsrc : ∀ i < b.slotBytes / r.dst.lay.width, sourceFound s q r (r.next + i) (ks i))
    (hsound : (r.combines && s.mem.poisoned (slotKey c b b.wr 0) b.slotBytes) = false) :
    exec (.cbSlotDeliver q) s = .next (deliverSlot s q r c (nbits p.aux.toNat 0 4)
      (slotData s r (b.slotBytes / r.dst.lay.width) ks (s.mem.readBytes (slotKey c b b.wr 0) b.slotBytes))) := by
  obtain ⟨hr, hgoes, hphase, hidle, hpkt, hdc, hleft, ⟨off, hwin⟩, rfl, hinst, hcount, hmark⟩ := h
  change execCbSlotDeliver q s = _
  simp only [execCbSlotDeliver, hr, hphase, hpkt, hdc, Bool.not_true, Bool.false_eq_true, if_false, hostPoint_idle hidle,
    unitPoint_run (.inl hgoes), if_neg (Nat.not_le.mpr hleft), hwin, hinst, ne_eq, not_true_eq_false, hcount, hmark, hfree,
    List.contains_iff_mem, or_self, hsound, slotEls_found _ hsrc, hostAsk_nil, List.nil_append, deliverSlot, slotData]

/-- What a packet that combines is: a reduction. -/
theorem combines_of_pkt {r : PRun} {p : FPkt} (hpkt : r.pkt = some p) (h : r.combines = true) : r.ins = .flred p := by
  unfold PRun.combines at h
  split at h
  · next p' hins =>
    rw [PRun.pkt, hins] at hpkt
    rw [hins, Option.some.inj hpkt]
  · cases h

/-- What a packet brings into a slot that is free, the buffer's write position past it (R168). -/
theorem cbSlotDeliver_delivers {s : State} {q : Nat} {r : PRun} {p : FPkt} {c : Nat} {b : CBuf} (h : FillsSlot s q r p c b)
    (hfree : b.free ≠ 0) (ks : Nat → Option (List Nat)) (n : Nat) (hn : n = b.slotBytes / r.dst.lay.width)
    (hsrc : r.ins ≠ .flfill p → ∀ i < n, sideKeys s q r .read r.src (r.next + i) = .ok (ks i) [])
    (hsound : r.ins = .flred p → s.mem.poisoned (slotKey c b b.wr 0) b.slotBytes = false) :
    ∃ t, exec (.cbSlotDeliver q) s = .next t ∧ (t.th c).strm.cbAt (nbits p.aux.toNat 0 4) = b.advWr 1 ∧
      t.mem = s.mem.writeBytes (slotKey c b b.wr 0) (slotData s r n ks (s.mem.readBytes (slotKey c b b.wr 0) b.slotBytes)) := by
  subst hn
  have hfound : ∀ i < b.slotBytes / r.dst.lay.width, sourceFound s q r (r.next + i) (ks i) := fun i hi => by
    by_cases hins : r.ins = .flfill p
    · exact .inl ⟨p, hins⟩
    · exact .inr (hsrc hins i hi)
  have hread : (r.combines && s.mem.poisoned (slotKey c b b.wr 0) b.slotBytes) = false := by
    cases hcomb : r.combines
    · rfl
    · exact hsound (combines_of_pkt h.pkt hcomb)
  refine ⟨_, exec_cbSlotDeliver h hfree hfound hread, ?_, ?_⟩
  · rw [deliverSlot_cbAt _ _ _ _ (nbits_lt _ 0 4), h.buf]
  · rw [deliverSlot_mem, h.buf]

/-! ### Completion (R214) -/

/-- A packet that is to be stamped and waits for no answer of the host. -/
theorem answered_cases {r : PRun} (h : answered r = true) : r.host = .idle ∨ ∃ va n, r.host = .answered va n true := by
  unfold answered at h
  split at h
  · next hidle => exact .inl hidle
  · next va n hans => exact .inr ⟨va, n, hans⟩
  · cases h

/-- The tiles of a packet's claim, where it has one, are returned. -/
def returnClaim (s : State) (r : PRun) : State :=
  match r.claim with
  | some c => returnTiles s c.core c.auto
  | none => s

@[simp] theorem returnClaim_mem (s : State) (r : PRun) : (returnClaim s r).mem = s.mem := by
  unfold returnClaim
  split
  · exact returnTiles_mem _ _ _
  · rfl

/-- The count and the stamp of a packet are written, and the stamp's causal stamp goes with it (R214). -/
def writeStamp (s : State) (q : Nat) (r : PRun) (p : FPkt) (k8 k0 : Nat) : State :=
  sendStamp { s with mem := (s.mem.writeNat k8 8 r.done).writeNat k0 8 (r.slot * 256 + r.status.toNat) }
    (qDie s q) (targetDie s (packetWho s q r none) p.stamp k0)

/-- The count and the stamp of a packet are written, and it leaves its queue (R214). -/
def stampPacket (s : State) (q : Nat) (r : PRun) (x : QRec) (p : FPkt) (k8 k0 : Nat) : State :=
  closePacket (countCancelled (writeStamp (returnClaim s r) q r p k8 k0) r) q r x

/-- Only a packet stamped CANCELLED is counted by a cancellation (R62). -/
theorem countCancelled_of_ne (s : State) {r : PRun} (h : r.status ≠ 2) : countCancelled s r = s := if_pos h

theorem closePacket_of_not_reset (s : State) (q : Nat) {r : PRun} (h : r.reset = false) (x : QRec) : closePacket s q r x =
    reapScopes ((s.delRun q).setQueue q { x with claims := x.claims.filter (fun c => c.slot != r.slot) }) := by
  simp [closePacket, h]

theorem closePacket_mem (s : State) (q : Nat) {r : PRun} (h : r.reset = false) (x : QRec) : (closePacket s q r x).mem = s.mem := by
  rw [closePacket_of_not_reset s q h, reapScopes_mem, State.setQueue_mem, State.delRun_mem]

theorem closePacket_run (s : State) (q : Nat) {r : PRun} (h : r.reset = false) (x : QRec) : (closePacket s q r x).run q = none := by
  rw [closePacket_of_not_reset s q h, reapScopes_keeps (fun s => s.run q) (fun _ _ _ => rfl), State.setQueue_at_run]
  exact smFind_smDel_self _ _

theorem stampPacket_mem (s : State) (q : Nat) {r : PRun} (hstatus : r.status ≠ 2) (hreset : r.reset = false) (x : QRec) (p : FPkt)
    (k8 k0 : Nat) : (stampPacket s q r x p k8 k0).mem =
      (s.mem.writeNat k8 8 r.done).writeNat k0 8 (r.slot * 256 + r.status.toNat) := by
  rw [stampPacket, countCancelled_of_ne _ hstatus, closePacket_mem _ _ hreset]
  simp only [writeStamp, sendStamp_mem, returnClaim_mem]

section
variable {s : State} {q : Nat} {r : PRun} {p : FPkt} {x : QRec} {k0 k8 : Nat} {c0 c8 : Option Cls} (hr : s.run q = some r)
  (hx : s.queue q = some x) (hphase : r.phase = .complete) (hpkt : r.pkt = some p) (hpark : r.park = .run)
include hr hx hphase hpkt hpark

theorem exec_packetComplete_refused {va : Word} {n : Nat} (hhost : r.host = .answered va n false) :
    exec (.packetComplete q) s = .next (stampFails s q r x) := by
  change execPacketComplete q s = _
  simp only [execPacketComplete, hr, hx, hphase, hpkt, hpark, hhost]

variable (h8 : packetCheck s q r none .write (p.stamp + 8) 8 = .ok k8 c8) (h0 : packetCheck s q r none .write p.stamp 8 = .ok k0 c0)
  (hans : answered r = true)
include h8 h0 hans

theorem exec_packetComplete_asks {va : Word} {n : Nat} (hask : hostAsk r (stampAsks p.stamp c8 c0) = some (va, n)) :
    exec (.packetComplete q) s = .next (s.setRun q { r with host := .sent va n }) := by
  change execPacketComplete q s = _
  rcases answered_cases hans with hhost | ⟨a, k, hhost⟩
  all_goals simp only [execPacketComplete, hr, hx, hphase, hpkt, hpark, hhost, h8, h0, hask]

theorem exec_packetComplete_stamps (hask : hostAsk r (stampAsks p.stamp c8 c0) = none) :
    exec (.packetComplete q) s = .next (stampPacket s q r x p k8 k0) := by
  change execPacketComplete q s = _
  rcases answered_cases hans with hhost | ⟨a, k, hhost⟩ <;> cases hclaim : r.claim
  all_goals simp only [execPacketComplete, hr, hx, hphase, hpkt, hpark, hhost, h8, h0, hask, hclaim,
    stampPacket, returnClaim, writeStamp]

end

/-- Settles O43: an event of a packet passes its kill point and does what its phase is to do. -/
theorem packetEvents : Obligations.PacketEvents := by
  unfold Obligations.PacketEvents
  refine ⟨fun s q r p hr hgoes hpkt hphase => exec_notBeforeExpiry hr hgoes hpkt hphase,
    fun s q r p hr hgoes hphase => ⟨fun hins hdc => ⟨?_, ?_⟩, fun hins => ?_⟩,
    fun s q r p hr hdead hstop hbetween hphase hidle hins => packetUnitDone_cut hr hdead hstop hbetween hphase hidle hins,
    fun s q r p c xs hr hgoes hphase hins hclaim hagree hended hall hnodup halive hsound => ?_,
    fun s q r p c off hr hgoes hphase hidle hpkt hdc hleft hwin => ?_,
    fun s q r p x k0 k8 c0 c8 hr hx hphase hpkt hpark hreset hstatus h8 h0 => ⟨fun hans hask => ?_, fun va n hans hask => ?_,
      fun va n hhost => exec_packetComplete_refused hr hx hphase hpkt hpark hhost⟩⟩
  · rintro (hidle | ⟨va, n, hanswer⟩)
    · rw [exec_packetUnitDone_moves hr hphase hins hdc, hostPoint_idle hidle, unitPoint_run hgoes]
    · rw [exec_packetUnitDone_moves hr hphase hins hdc, hostPoint_answered hanswer, if_pos rfl]
  · intro va n hanswer
    rw [exec_packetUnitDone_moves hr hphase hins hdc, hostPoint_answered hanswer]
    rfl
  · rw [exec_packetUnitDone_coll hr hphase hins, unitPoint_run hgoes]
  · refine ⟨_, exec_collectiveForm hr hgoes hphase hins hclaim hagree hended hall halive hsound,
      foldl_keeps State.mem (fun s m => by exact formOne_keeps State.mem (fun _ _ _ => rfl) _ _ _ _) _ _,
      foldl_keeps State.cores (fun s m => by exact formOne_keeps State.cores (fun _ _ _ => rfl) _ _ _ _) _ _,
      foldl_keeps (fun s => s.work.queues) (fun s m => by exact formOne_keeps (fun s => s.work.queues) (fun _ _ _ => rfl) _ _ _ _) _ _,
      fun m k y p' d hm => ⟨formed_run s hnodup hm, fun hmem hop => collResult_concatenates hmem hop m _,
        fun hmem hop => collResult_broadcasts hmem hop m _⟩⟩
  · intro b key hinst hcount hmark
    have h : FillsSlot s q r p c b := ⟨hr, hgoes, hphase, hidle, hpkt, hdc, hleft, ⟨off, hwin⟩, rfl, hinst, hcount, hmark⟩
    exact ⟨exec_cbSlotDeliver_waits h, cbSlotDeliver_delivers h⟩
  · exact ⟨_, exec_packetComplete_stamps hr hx hphase hpkt hpark h8 h0 hans hask, stampPacket_mem s q hstatus hreset x p k8 k0,
      closePacket_run _ q hreset x⟩
  · exact exec_packetComplete_asks hr hx hphase hpkt hpark h8 h0 hans hask

end Sys2Proof.Machine

/-! ## Scalar register s0, and what the scalar groups leave unchanged (R86, R306, R308, R309, R314) -/

namespace Sys2Proof.Machine
open Sys2Proof Sys2Proof.Ob

/-! ### What an instruction of these groups writes -/

theorem exec_regOps_wrote {p : (R3 → Instr) × (Word → Word → Word)} (hp : p ∈ regOps) (f : R3) (s : State) :
    ∃ v d, exec (p.1 f) s = .next (wrote s f.rd v d 2) := by
  fin_cases hp <;> exact ⟨_, _, rfl⟩

theorem exec_immOps_wrote {p : (RI → Instr) × (Word → Word → Word)} (hp : p ∈ immOps) (f : RI) (s : State) :
    ∃ v d, exec (p.1 f) s = .next (wrote s f.rd v d 2) := by
  fin_cases hp <;> exact ⟨_, _, rfl⟩

theorem exec_shiftOps_wrote {p : (R2 → BitVec 6 → Instr) × (Word → Nat → Word)} (hp : p ∈ shiftOps) (f : R2) (n : BitVec 6)
    (s : State) : ∃ v d, exec (p.1 f n) s = .next (wrote s f.rd v d 2) := by
  fin_cases hp <;> exact ⟨_, _, rfl⟩

/-- A result that is never tiny is written with its flags (R133). -/
theorem fpu3_of_not_tiny {g : Nat → Nat → FRes} (h : ∀ a b, (g a b).tiny = false) (f : R3) (s : State) :
    ∃ v fl d, fpu3 f g s = .next (wroteF s f.rd v fl d) := by
  let r := g (fbits s f.ra) (fbits s f.rb)
  refine ⟨BitVec.ofNat 64 r.bits, r.flags, regD s f.ra || regD s f.rb, ?_⟩
  simp only [fpu3, fpWrite, fpDeliver, h, Bool.false_eq_true, if_false]
  rfl

theorem exec_fpSelOps {p : (R3 → Instr) × (Nat → Nat → FRes)} (hp : p ∈ fpSelOps) :
    (∀ a b, (p.2 a b).tiny = false) ∧ ∀ f s, exec (p.1 f) s = fpu3 f p.2 s := by
  fin_cases hp <;> exact ⟨fun _ _ => rfl, fun _ _ => rfl⟩

theorem exec_fpSelOps_wroteF {p : (R3 → Instr) × (Nat → Nat → FRes)} (hp : p ∈ fpSelOps) (f : R3) (s : State) :
    ∃ v fl d, exec (p.1 f) s = .next (wroteF s f.rd v fl d) := by
  obtain ⟨htiny, hexec⟩ := exec_fpSelOps hp
  rw [hexec f s]
  exact fpu3_of_not_tiny htiny f s

theorem exec_fpUnOps_wroteF {p : (R2 → Instr) × (Nat → Word × Flags)} (hp : p ∈ fpUnOps) (f : R2) (s : State) :
    ∃ v fl d, exec (p.1 f) s = .next (wroteF s f.rd v fl d) := by
  fin_cases hp <;> exact ⟨_, _, _, rfl⟩

/-! ### What those writes leave unchanged -/

theorem wrote_zero (s : State) (v : Word) (d : Bool) (n : Nat) : wrote s 0 v d n = s.advance s.me n := by
  simp [wrote, State.advance]

/-- A strand that differs in one scalar register, its position and FSTAT is the frame of the scalar groups. -/
theorem onlyScalar_setTh {s : State} {t : Thread} {rd : BitVec 5} {p : Pos} {f : BitVec 5} {flags : Bool}
    (ht : t = { s.th s.me with
      pos := p, regs := { (s.th s.me).regs with s := t.regs.s }, csr := { (s.th s.me).csr with fstat := f } })
    (hflags : flags = false → t.csr.fstat = (s.th s.me).csr.fstat) (hregs : ∀ r, r ≠ rd → t.rdS r = (s.th s.me).rdS r) :
    OnlyScalar s (s.setTh s.me t) rd flags := by
  refine ⟨State.setTh_outside s s.me t, fun j hj => State.setTh_core_ne s hj t, ⟨p, f, ?_⟩, ?_, fun r hr => ?_⟩
  · rw [State.setTh_core_self, State.setTh_th_self, ← ht]
  · rwa [State.setTh_th_self]
  · rw [State.setTh_th_self, hregs r hr]

/-- A strand that writes a scalar register and goes on differs in the scalar registers and its position alone. -/
theorem Thread.wrS_advance (t : Thread) (rd : BitVec 5) (v : Word) (d : Bool) (n : Nat) :
    (t.wrS rd v d).advance n =
      { t with pos := t.pos.advance n, regs := { t.regs with s := ((t.wrS rd v d).advance n).regs.s } } := by
  unfold Thread.wrS; split <;> rfl

theorem onlyScalar_wrote (s : State) (rd : BitVec 5) (v : Word) (d : Bool) (n : Nat) :
    OnlyScalar s (wrote s rd v d n) rd false :=
  onlyScalar_setTh (Thread.wrS_advance (s.th s.me) rd v d n) (fun _ => by simp) fun r hr => by
    rw [Thread.rdS_advance, Thread.rdS_wrS_ne _ hr]

theorem onlyScalar_wroteF (s : State) (rd : BitVec 5) (v : Word) (fl : Flags) (d : Bool) :
    OnlyScalar s (wroteF s rd v fl d) rd true :=
  onlyScalar_setTh (Thread.wrS_advance ((s.th s.me).merge fl) rd v d 2) nofun fun r hr => by
    rw [Thread.rdS_advance, Thread.rdS_wrS_ne _ hr]
    rfl

theorem registerZero_holds : registerZero := by
  refine ⟨fun s => ⟨rfl, rfl⟩, wrote_zero, fun p hp f s hrd => ?_⟩
  obtain ⟨v, d, h⟩ := exec_regOps_wrote hp f s
  rw [h, hrd, wrote_zero]

theorem scalarFrame_holds : scalarFrame := by
  refine ⟨fun p hp f s t ht => ?_, fun p hp f s t ht => ?_, fun p hp f n s t ht => ?_, fun p hp f s t ht => ?_,
    fun p hp f s t ht => ?_⟩
  · obtain ⟨v, d, h⟩ := exec_regOps_wrote hp f s
    cases h.symm.trans ht; exact onlyScalar_wrote s f.rd v d 2
  · obtain ⟨v, d, h⟩ := exec_immOps_wrote hp f s
    cases h.symm.trans ht; exact onlyScalar_wrote s f.rd v d 2
  · obtain ⟨v, d, h⟩ := exec_shiftOps_wrote hp f n s
    cases h.symm.trans ht; exact onlyScalar_wrote s f.rd v d 2
  · obtain ⟨v, fl, d, h⟩ := exec_fpSelOps_wroteF hp f s
    cases h.symm.trans ht; exact onlyScalar_wroteF s f.rd v fl d
  · obtain ⟨v, fl, d, h⟩ := exec_fpUnOps_wroteF hp f s
    cases h.symm.trans ht; exact onlyScalar_wroteF s f.rd v fl d

/-- Settles O3: each instruction of these groups writes rd, with the FPU's flags, and goes on, and that write has the frame. -/
theorem scalarFrameAndZero : Obligations.ScalarFrameAndZero := ⟨registerZero_holds, scalarFrame_holds⟩

end Sys2Proof.Machine

/-! ## Privileged control registers (R99) -/

namespace Sys2Proof.Machine
open Sys2Proof Sys2Proof.Ob

theorem illegal_of_encoded {i : Instr} {w : BitVec 32} (h : encodeTollum i = some w) (s : State) :
    illegal s i = .next (takeTrap s s.me 0x01 (w.zeroExtend 64)) := by
  simp only [illegal, h]; rfl

theorem csrBad_iff {s : State} {c n : Nat} :
    csrBad s c n = true ↔ ((s.th c).pos.mode = .k ∧ csrOnlyH n = true) ∨ readCsr s c n = none := by
  simp [csrBad, or_comm]

theorem csrOp_of_bad {s : State} {csr : BitVec 11} (h : csrBad s s.me csr.toNat = true) (i : Instr) (rd ra : BitVec 5)
    (writes : Bool) (val : Word → Word → Word) : csrOp i rd ra csr writes val s = illegal s i := if_pos h

/-- Every form of a CSR access is a `csrOp` of itself (R313). -/
theorem exec_csr {i : Instr} {csr : BitVec 11}
    (hi : (∃ rd, i = .csrr rd csr) ∨ (∃ f, i = .csrw f csr ∨ i = .csrs f csr ∨ i = .csrc f csr)) (s : State) :
    ∃ rd ra writes val, exec i s = csrOp i rd ra csr writes val s := by
  obtain ⟨rd, rfl⟩ | ⟨f, rfl | rfl | rfl⟩ := hi
  · exact ⟨rd, 0, false, fun old _ => old, rfl⟩
  · exact ⟨f.rd, f.ra, true, fun _ a => a, rfl⟩
  · exact ⟨f.rd, f.ra, decide (f.ra ≠ 0#5), fun old a => old ||| a, rfl⟩
  · exact ⟨f.rd, f.ra, decide (f.ra ≠ 0#5), fun old a => old &&& ~~~a, rfl⟩

/-- Settles O12: a CSR access looks first at whether the strand's mode has the CSR. -/
theorem csrPrivilege : Obligations.CsrPrivilege := by
  intro i csr w s hi hw hbad
  obtain ⟨rd, ra, writes, val, h⟩ := exec_csr hi s
  rw [h, csrOp_of_bad (csrBad_iff.mpr hbad), illegal_of_encoded hw]

end Sys2Proof.Machine

/-! ## Block headers and the ends of passes (R84, R85, R112) -/

namespace Sys2Proof.Machine
open Sys2Proof Sys2Proof.Ob

/-- The strand stands at a header it is to execute: the block begins past the header's two parcels. -/
theorem exec_blk_begins {len : BitVec 10} {rpt : BitVec 11} {s : State} (hhdr : (s.th s.me).pos.atHdr = true)
    (halive : alive s = true) (hlen : 2 < len.toNat) :
    exec (.blk len rpt) s = .next (s.setTh s.me { s.th s.me with pos :=
      { (s.th s.me).pos with hdr := (s.th s.me).pos.pc, pc := (s.th s.me).pos.pc + 4, len := len, rpt := rpt, atHdr := false,
                             passStart := true } }) := by
  have hlow : ¬ len.toNat < 2 := by omega
  have hne : len ≠ 2#10 := by rintro rfl; exact absurd hlen (by decide)
  change execBlk len rpt s = _
  simp only [execBlk, hhdr, Bool.not_true, Bool.false_eq_true, if_false, killPoint_run (Option.isNone_iff_eq_none.mp halive),
    if_neg hlow, if_neg hne]

theorem exec_blk_inside {len : BitVec 10} {rpt : BitVec 11} {s : State} (hhdr : (s.th s.me).pos.atHdr = false) :
    exec (.blk len rpt) s = illegal s (.blk len rpt) := by
  change execBlk len rpt s = _
  simp [execBlk, hhdr]

theorem Pos.advance_within {p : Pos} {n : Nat} (h : p.pc + BitVec.ofNat 64 (2 * n) ≠ p.ret) :
    p.advance n = { p with pc := p.pc + BitVec.ofNat 64 (2 * n) } := if_neg h

theorem Pos.advance_next_pass {p : Pos} {n : Nat} (h : p.pc + BitVec.ofNat 64 (2 * n) = p.ret) (hrpt : p.rpt ≠ 0) :
    p.advance n = { p with pc := p.hdr + 4, rpt := p.rpt - 1, passStart := true } := (if_pos h).trans (if_neg hrpt)

theorem Pos.advance_leaves {p : Pos} {n : Nat} (h : p.pc + BitVec.ofNat 64 (2 * n) = p.ret) (hrpt : p.rpt = 0) :
    p.advance n = { p with pc := p.ret, atHdr := true } := by
  rw [← h]; exact (if_pos h).trans (if_pos hrpt)

/-- Settles O36: a header begins its block, and the end of a pass begins the next one or leaves the block. -/
theorem blockResult : Obligations.BlockResult := by
  refine ⟨fun len rpt s hhdr halive hlen => exec_blk_begins hhdr halive hlen,
    fun len rpt s w hw hhdr => (exec_blk_inside hhdr).trans (illegal_of_encoded hw s),
    fun p n => ⟨Pos.advance_within, Pos.advance_next_pass, fun h hrpt => ?_⟩⟩
  rw [Pos.advance_leaves h hrpt]
  exact ⟨rfl, rfl⟩

end Sys2Proof.Machine

/-! ## The rotating loop and the branches on predicates and D bits (R90, R93, R311) -/

namespace Sys2Proof.Machine
open Sys2Proof Sys2Proof.Ob

theorem target_eq {n : Nat} (p : Pos) (off : BitVec n) : target p off = p.pc + 2 * off.signExtend 64 := by
  rw [target, BitVec.shiftLeft_eq_mul_twoPow, BitVec.mul_comm]
  rfl

/-! ### LOOPR -/

/-- The predicate that a pass of LOOPR writes: the new logical p8 (R89, R90). -/
def nextP8 (r : Csrs) : BitVec 5 := mapP (r.pb + 1) 8

/-- A held instruction reads or writes the predicate that a pass of LOOPR writes (R81). -/
def namesP8 (r : Csrs) (e : QEntry) : Bool := e.writesP.contains (nextP8 r).toNat || e.readsP.contains (nextP8 r).toNat

section
variable {off : BitVec 13} {s : State}

theorem exec_loopr_falls_through (htrips : (s.th s.me).csr.trips = 0) (hdrain : (s.th s.me).csr.drain = 0) :
    exec (.loopr off) s = .next (s.advance s.me 2) := if_pos ⟨htrips, hdrain⟩

theorem exec_loopr_pass (hclear : (s.th s.me).q.holding (namesP8 (s.th s.me).csr) = [])
    (hmore : ¬ ((s.th s.me).csr.trips = 0 ∧ (s.th s.me).csr.drain = 0)) :
    exec (.loopr off) s = if (s.th s.me).csr.trips ≠ 0 then
        .next (s.setTh s.me (looprPass (s.th s.me) { (s.th s.me).csr with trips := (s.th s.me).csr.trips - 1 } true off))
      else .next (s.setTh s.me (looprPass (s.th s.me) { (s.th s.me).csr with drain := (s.th s.me).csr.drain - 1 } false off)) :=
  (if_neg hmore).trans (waitQueues_run hclear _)

end

theorem loopResult_holds : loopResult := by
  intro off s c t r p8 clear pass
  refine ⟨fun htrips hclear => ?_, fun htrips hdrain hclear => ?_, exec_loopr_falls_through⟩
  · rw [exec_loopr_pass hclear fun h => htrips h.1, if_pos htrips, looprPass, target_eq]
    rfl
  · rw [exec_loopr_pass hclear fun h => hdrain h.2, if_neg (not_not.mpr htrips), looprPass, target_eq]
    rfl

/-! ### BP and CHKD -/

theorem bpTest_iff (test : BitVec 2) (x : PReg) :
    bpTest test x = true ↔ if test = 0#2 then x ≠ 0 else if test = 1#2 then x = 0 else x = BitVec.allOnes 256 := by
  obtain ⟨n, hn⟩ := test
  interval_cases n <;> simp [bpTest]

theorem exec_bp {p : BitVec 5} {test : BitVec 2} {off : BitVec 13} {s : State}
    (hclear : (s.th s.me).q.holding (fun e => e.writesP.contains (mapP (s.th s.me).csr.pb p).toNat) = [])
    (hecc : ((s.th s.me).regs.rdP (mapP (s.th s.me).csr.pb p)).ecc = false)
    (hd : ((s.th s.me).regs.rdP (mapP (s.th s.me).csr.pb p)).d = false) :
    exec (.bp p test off) s = if bpTest test ((s.th s.me).regs.rdP (mapP (s.th s.me).csr.pb p)).val then
      .next (s.setTh s.me ((s.th s.me).branch (target (s.th s.me).pos off))) else .next (s.advance s.me 2) := by
  change execBp p test off s = _
  simp only [execBp, waitQueues_run hclear, hecc, hd, Bool.false_eq_true, if_false]
  rfl

theorem chkdBranch_eq (s : State) (c : Nat) (d : Bool) (off : BitVec 13) :
    chkdBranch s c d off = .next (if d then s.setTh c ((s.th c).branch ((s.th c).pos.pc + 2 * off.signExtend 64))
      else s.advance c 2) := by
  rw [← target_eq]
  cases d <;> rfl

theorem exec_chkd_vector {n : BitVec 6} {off : BitVec 13} {s : State}
    (hclear : (s.th s.me).q.holding (fun e => e.writesV.contains (mapV (s.th s.me).csr.vb n).toNat) = []) :
    exec (.chkd 1 n off) s = chkdBranch s s.me ((s.th s.me).regs.rdV (mapV (s.th s.me).csr.vb n) 0).d off := by
  change execChkd 1 n off s = _
  unfold execChkd
  exact waitQueues_run hclear _

theorem predicateAndDeferredBranch_holds : predicateAndDeferredBranch := by
  refine ⟨?_, ?_, ?_⟩
  · intro p test off s t n x hclear hd hecc holds
    rw [exec_bp hclear hecc hd, target_eq]
    exact ⟨fun h => if_pos ((bpTest_iff test _).mpr h), fun h => if_neg ((bpTest_iff test _).not.mpr h)⟩
  · intro n off s
    exact chkdBranch_eq s s.me _ off
  · intro n off s t v hclear
    rw [exec_chkd_vector hclear, chkdBranch_eq]

/-- Settles O7: each of the three forms passes its wait and branches by its test. -/
theorem loopAndTestBranchResult : Obligations.LoopAndTestBranchResult := ⟨loopResult_holds, predicateAndDeferredBranch_holds⟩

end Sys2Proof.Machine

/-! ## Routing a vector instruction (R78, R79, R81, R95, R110) -/

namespace Sys2Proof.Machine
open Sys2Proof Sys2Proof.Ob

/-! ### Queues by name -/

@[simp] theorem Queues.get_set_self (q : Queues) (v : VQ) (x : VQueue) : (q.set v x).get v = x := by cases v <;> rfl

theorem Queues.get_set_ne (q : Queues) {u v : VQ} (h : u ≠ v) (x : VQueue) : (q.set v x).get u = q.get u := by
  cases u <;> cases v <;> first | rfl | exact absurd rfl h

@[simp] theorem Queues.get_with_seq (q : Queues) (n : Nat) (v : VQ) : ({ q with seq := n } : Queues).get v = q.get v := by
  cases v <;> rfl

/-! ### The forms of a vector instruction -/

/-- The strand routes a vector instruction where it waits for nothing. -/
theorem vexec_routes {s : State} {c : Nat} (hagent : s.agent = .strand c) (hwait : (s.th s.me).job.wait = .none) (i : Instr)
    (spec : VSpec) (f : V3) (x : RouteRule) (perform : QEntry → State → VOut) :
    vexec i spec f x perform s = vroute i spec f x s := by
  simp only [vexec, hagent, hwait]

/-- Every vector instruction is a `vexec` under its own row and rule. -/
theorem exec_routeRows {p : (V3 → Instr) × VSpec × (V3 → State → RouteRule)} (hp : p ∈ routeRows) (f : V3) (s : State) :
    ∃ perform, exec (p.1 f) s = vexec (p.1 f) p.2.1 f (p.2.2 f s) perform s := by
  fin_cases hp <;> exact ⟨_, rfl⟩

/-! ### The instruction joins its queue -/

theorem awaitWriter_run {s : State} {x : RouteRule} (h : writersDone s x = true) (k : State → Out) :
    vroute.awaitWriter s s.me x k = k s := by
  unfold vroute.awaitWriter
  unfold writersDone at h
  cases hreads : x.reads with
  | none => rfl
  | some n =>
    simp only [hreads] at h ⊢
    exact waitQueues_run (List.isEmpty_iff.mp h) k

theorem routes_stands {i : Instr} {spec : VSpec} {f : V3} {x : RouteRule} {s : State} (h : routes s i spec f x = true) :
    s.agent = .strand s.me ∧ (s.th s.me).job.wait = .none := by
  simp only [routes, Bool.and_eq_true, decide_eq_true_eq] at h
  obtain ⟨⟨⟨⟨⟨⟨⟨⟨⟨hagent, hwait⟩, -⟩, -⟩, -⟩, -⟩, -⟩, -⟩, -⟩, -⟩ := h
  exact ⟨hagent, hwait⟩

theorem vroute_of_routes {i : Instr} {spec : VSpec} {f : V3} {x : RouteRule} {s : State} (h : routes s i spec f x = true) :
    vroute i spec f x s = .next (routed s s.me i spec f x) := by
  simp only [routes, Bool.and_eq_true, Bool.or_eq_true, decide_eq_true_eq, Bool.not_eq_true'] at h
  obtain ⟨⟨⟨⟨⟨⟨⟨⟨-, hbad⟩, hfault⟩, hecc⟩, hbase⟩, hwriters⟩, hpush⟩, hpop⟩, hroom⟩ := h
  have hpark : ¬ ((x.park = .push ∧ vroute.parkLeft (s.core s.me).banks = 0) ∨ (x.park = .pop ∧ (s.core s.me).banks.depth = 0)) := by
    rintro (⟨hx, hfull⟩ | ⟨hx, hempty⟩)
    · have hdepth := hpush.resolve_left (not_not.mpr hx)
      unfold vroute.parkLeft at hfull
      omega
    · exact hpop.resolve_left (not_not.mpr hx) hempty
  dsimp only [vroute]
  rw [hbad, hfault, if_neg Bool.false_ne_true, if_neg Bool.false_ne_true, if_neg, guardD_of_noD hbase, awaitWriter_run hwriters,
    if_neg hpark, if_neg (Nat.not_le.mpr hroom)]
  rcases hecc with hquiet | hclean
  · simp [hquiet]
  · simp only [hclean, Bool.and_false, Bool.false_eq_true, not_false_eq_true]

theorem vectorRouting_holds : vectorRouting := by
  intro p hp f s h
  obtain ⟨perform, hexec⟩ := exec_routeRows hp f s
  obtain ⟨hagent, hwait⟩ := routes_stands h
  rw [hexec, vexec_routes hagent hwait, vroute_of_routes h]

/-! ### What joining changes -/

theorem routed_outside (s : State) (c : Nat) (i : Instr) (spec : VSpec) (f : V3) (x : RouteRule) :
    SameOutside s (routed s c i spec f x) := State.setCore_outside s c _

theorem routed_others (s : State) (c : Nat) (i : Instr) (spec : VSpec) (f : V3) (x : RouteRule) :
    SameOthers s (routed s c i spec f x) c := fun _ hj => State.setCore_core_ne s hj _

/-- The strand's queues, and its position where it waits for no value; of the strand nothing else but that wait changes. -/
theorem routed_th (s : State) (c : Nat) (i : Instr) (spec : VSpec) (f : V3) (x : RouteRule) : ∃ slot job,
    (routed s c i spec f x).th c = { s.th c with
      q := { (s.th c).q.set spec.queue (((s.th c).q.get spec.queue).append (routeEntry (s.th c) i spec f slot)) with
        seq := (s.th c).q.seq + 1 },
      pos := if x.scalar then (s.th c).pos else (s.th c).pos.advance i.parcels, job := job } := by
  unfold routed
  rw [State.setCore_th_self]
  cases x.scalar <;> exact ⟨_, _, rfl⟩

theorem routed_banks (s : State) (c : Nat) (i : Instr) (spec : VSpec) (f : V3) (x : RouteRule) :
    ((routed s c i spec f x).core c).banks.depth = match x.park with
      | .none => (s.core c).banks.depth
      | .push => (s.core c).banks.depth + 1
      | .pop => (s.core c).banks.depth - 1 := by
  unfold routed
  rw [State.setCore_core_self]
  cases x.park <;> rfl

theorem vectorRoutingEffect_holds : vectorRoutingEffect := by
  intro s c i spec f x t th
  obtain ⟨slot, job, h⟩ := routed_th s c i spec f x
  have hth : t.th c = _ := h
  refine ⟨⟨routeEntry (s.th c) i spec f slot, ?_, rfl, rfl, rfl, rfl, rfl, rfl, rfl, rfl, rfl, rfl, rfl⟩, fun v hv => ?_, ?_, ?_, ?_,
    ?_, ?_, routed_banks s c i spec f x, routed_outside s c i spec f x, routed_others s c i spec f x⟩
  · rw [hth, Queues.get_with_seq, Queues.get_set_self]
    rfl
  · rw [hth, Queues.get_with_seq, Queues.get_set_ne _ hv]
  all_goals rw [hth]

/-- Settles O17: what `routes` asks passes every test of routing, and routing adds one entry to one queue. -/
theorem vectorRoutingResult : Obligations.VectorRoutingResult := ⟨vectorRouting_holds, vectorRoutingEffect_holds⟩

end Sys2Proof.Machine

/-! ## Element-wise results (R91, R127, R335, R347) -/

namespace Sys2Proof.Machine
open Sys2Proof Sys2Proof.Ob

/-! ### The elements of a vector under construction -/

theorem elemOf_lt (v w i : Nat) : elemOf v w i < 2 ^ (8 * w) := Nat.mod_lt _ (Nat.two_pow_pos _)

/-- Bits put at element i leave the elements below it. -/
theorem elemOf_add_below {w i k : Nat} (h : k < i) (v b : Nat) : elemOf (v + b <<< (8 * w * i)) w k = elemOf v w k := by
  have hi : 8 * w * i = 8 * w * k + (8 * w + 8 * w * (i - k - 1)) := by
    obtain ⟨j, rfl⟩ := Nat.exists_eq_add_of_lt h
    rw [show k + j + 1 - k - 1 = j by omega]
    ring
  unfold elemOf
  rw [Nat.shiftRight_eq_div_pow, Nat.shiftRight_eq_div_pow, Nat.shiftLeft_eq, hi, Nat.pow_add, Nat.pow_add,
    Nat.mul_left_comm, Nat.add_mul_div_left _ _ (Nat.two_pow_pos _), Nat.mul_left_comm, Nat.add_mul_mod_self_left]

/-- Bits put at element i are element i. -/
theorem elemOf_add_at {w i v b : Nat} (hv : v < 2 ^ (8 * w * i)) (hb : b < 2 ^ (8 * w)) :
    elemOf (v + b <<< (8 * w * i)) w i = b := by
  unfold elemOf
  rw [Nat.shiftRight_eq_div_pow, Nat.shiftLeft_eq, Nat.add_mul_div_right _ _ (Nat.two_pow_pos _), Nat.div_eq_of_lt hv,
    Nat.zero_add, Nat.mod_eq_of_lt hb]

theorem add_shiftLeft_lt {w i v b : Nat} (hv : v < 2 ^ (8 * w * i)) (hb : b < 2 ^ (8 * w)) :
    v + b <<< (8 * w * i) < 2 ^ (8 * w * (i + 1)) := by
  calc v + b <<< (8 * w * i) < (b + 1) * 2 ^ (8 * w * i) := by
        rw [Nat.shiftLeft_eq, Nat.add_one_mul b, Nat.add_comm v]
        exact Nat.add_lt_add_left hv _
    _ ≤ 2 ^ (8 * w) * 2 ^ (8 * w * i) := Nat.mul_le_mul_right _ hb
    _ = 2 ^ (8 * w * (i + 1)) := by rw [← Nat.pow_add, Nat.mul_add_one, Nat.add_comm]

/-- The bits that element i of a result takes: those of its operation, or the old ones (R91). -/
def newBits (old : Nat) (r : Option FRes) : Nat := (r.map FRes.bits).getD old

theorem VAcc.push_val (w i old : Nat) (acc : VAcc) (r : Option FRes) :
    (acc.push w i old r).val = acc.val + newBits old r <<< (8 * w * i) := by cases r <;> rfl

section
variable {w old : Nat} {g : Nat → Option FRes}

theorem elemOf_buildEl_below (n : Nat) {i k : Nat} (h : k < i) (acc : VAcc) :
    elemOf (buildEl w old g n i acc).val w k = elemOf acc.val w k := by
  induction n generalizing i acc with
  | zero => rfl
  | succ n ih => rw [buildEl, ih (by omega), VAcc.push_val, elemOf_add_below h]

theorem elemOf_buildEl (hg : ∀ i, newBits (elemOf old w i) (g i) < 2 ^ (8 * w)) (n : Nat) {i k : Nat} (hi : i ≤ k) (hk : k < i + n)
    {acc : VAcc} (hacc : acc.val < 2 ^ (8 * w * i)) :
    elemOf (buildEl w old g n i acc).val w k = newBits (elemOf old w k) (g k) := by
  induction n generalizing i acc with
  | zero => omega
  | succ n ih =>
    rw [buildEl]
    obtain rfl | hlt := Nat.eq_or_lt_of_le hi
    · rw [elemOf_buildEl_below n (Nat.lt_succ_self i), VAcc.push_val, elemOf_add_at hacc (hg i)]
    · refine ih hlt (by omega) ?_
      rw [VAcc.push_val]
      exact add_shiftLeft_lt hacc (hg i)

end

/-- R91: an element takes its result where it is active, and keeps the old destination where it is not. -/
theorem elemOf_mapEl {w old i : Nat} {active : Nat → Bool} {f : Nat → FRes} (hf : ∀ i, (f i).bits < 2 ^ (8 * w))
    (hi : i < elemCount w) : elemOf (mapEl w old active f).val w i = if active i then (f i).bits else elemOf old w i := by
  rw [mapEl, elemOf_buildEl (fun j => ?_) _ (Nat.zero_le i) (by omega) (by simp)]
  · cases active i <;> rfl
  · cases active j
    · exact elemOf_lt old w j
    · exact hf j

/-! ### Integers that wrap -/

/-- An integer read from n bits is congruent to those bits. -/
theorem toIntOf_emod (signed : Bool) (n x : Nat) : toIntOf signed n x % ((2 ^ n : Nat) : Int) = (x : Int) % ((2 ^ n : Nat) : Int) := by
  unfold toIntOf
  split
  · rw [Int.sub_emod_right]
  · rfl

theorem wrapInt_add (signed : Bool) (n a b : Nat) : wrapInt n (toIntOf signed n a + toIntOf signed n b) = (a + b) % 2 ^ n := by
  rw [wrapInt, Int.add_emod, toIntOf_emod, toIntOf_emod, ← Int.add_emod]
  rfl

theorem wrapInt_sub (signed : Bool) {n b : Nat} (a : Nat) (hb : b < 2 ^ n) :
    wrapInt n (toIntOf signed n a - toIntOf signed n b) = (a + 2 ^ n - b) % 2 ^ n := by
  have h : ((a + 2 ^ n - b : Nat) : Int) = (a : Int) - b + (2 ^ n : Nat) := by omega
  rw [wrapInt, Int.sub_emod, toIntOf_emod, toIntOf_emod, ← Int.sub_emod, ← Int.add_emod_right, ← h]
  rfl

/-! ### The operations -/

section
variable {m : ElMode} (hfloat : m.et.isFloat = false) (hsat : m.sat = false)
include hfloat hsat

theorem elBin_add_wraps (b c : Nat) : (elBin .add m b c).bits = (b + c) % 2 ^ (8 * m.et.width) := by
  simp only [elBin, hfloat, Bool.false_eq_true, if_false, ElMode.red, redInt, hsat, ElMode.int]
  exact wrapInt_add _ _ b c

theorem elBin_sub_wraps (b : Nat) {c : Nat} (hc : c < 2 ^ (8 * m.et.width)) :
    (elBin .sub m b c).bits = (b + 2 ^ (8 * m.et.width) - c) % 2 ^ (8 * m.et.width) := by
  simp only [elBin, hfloat, Bool.false_eq_true, if_false, ElMode.red, redInt, hsat, ElMode.int]
  exact wrapInt_sub _ b hc

end

/-- Settles O19: the element of a result is that of its operation where active, whose bits fit the element. -/
theorem vectorElements : Obligations.VectorElements := by
  intro m e x i _ hi w el keep
  have hbits (v : VCell) : el v < 2 ^ (8 * w) := elemOf_lt _ _ _
  have hmod (v : Nat) : v % 2 ^ (8 * w) < 2 ^ (8 * w) := Nat.mod_lt _ (Nat.two_pow_pos _)
  refine ⟨elemOf_mapEl (fun j => ?_) hi, elemOf_mapEl (fun j => ?_) hi, elemOf_mapEl (fun j => ?_) hi,
    elemOf_mapEl (fun j => elemOf_lt _ _ _) hi, fun hfloat hsat => ⟨?_, ?_⟩⟩
  · exact Nat.lt_of_le_of_lt Nat.and_le_left (elemOf_lt _ _ _)
  · exact Nat.or_lt_two_pow (elemOf_lt _ _ _) (elemOf_lt _ _ _)
  · exact Nat.xor_lt_two_pow (elemOf_lt _ _ _) (elemOf_lt _ _ _)
  · rw [← elBin_add_wraps hfloat hsat]
    refine elemOf_mapEl (fun j => ?_) hi
    rw [elBin_add_wraps hfloat hsat]
    exact hmod _
  · rw [← elBin_sub_wraps hfloat hsat _ (hbits x.c)]
    refine elemOf_mapEl (fun j => ?_) hi
    rw [elBin_sub_wraps hfloat hsat _ (elemOf_lt _ _ _)]
    exact hmod _

end Sys2Proof.Machine

/-! ## The head of a vector queue, and the park slots (R79, R82, R94, R95, R304) -/

namespace Sys2Proof.Machine
open Sys2Proof Sys2Proof.Ob

/-! ### The head begins and is performed -/

theorem vexec_performs {s : State} {c : Nat} {v : VQ} (hagent : s.agent = .queue c v) (i : Instr) (spec : VSpec) (f : V3)
    (x : RouteRule) (perform : QEntry → State → VOut) : vexec i spec f x perform s =
      queueMove s c v (fun e s => if e.ecc || (!x.quiet && eccHead spec e s) then .fault cEcc 0 else perform e s) := by
  simp only [vexec, hagent]

/-- A head that begins is performed, and its queue takes the outcome (R79, R82). -/
theorem queueMove_of_begins {s : State} {c : Nat} {v : VQ} {e : QEntry} (h : begins s c v e = true)
    (perform : QEntry → State → VOut) : queueMove s c v perform = .next (headOutcome s c v e (perform e s)) := by
  simp only [begins, Bool.and_eq_true, decide_eq_true_eq, Bool.not_eq_true', Option.isNone_iff_eq_none] at h
  obtain ⟨⟨⟨⟨⟨⟨⟨-, hhead⟩, hhalted⟩, hdone⟩, hkill⟩, hpark⟩, hfill⟩, hpop⟩ := h
  obtain ⟨r, hheld⟩ := List.head?_eq_some_iff.mp hhead
  have hgo : (!e.popped && !(s.th c).q.canPop v e.f.tok) = false := by
    rcases Bool.or_eq_true _ _ ▸ hpop with hp | hp <;> simp [hp]
  simp only [queueMove, hheld, hhalted, hdone, hkill, hpark, hfill, hgo, Option.isSome_none, Bool.false_and, Bool.false_eq_true,
    if_false]
  cases perform e s <;> rfl

theorem agent_of_begins {s : State} {c : Nat} {v : VQ} {e : QEntry} (h : begins s c v e = true) : s.agent = .queue c v := by
  simp only [begins, Bool.and_eq_true, decide_eq_true_eq] at h
  obtain ⟨⟨⟨⟨⟨⟨⟨hagent, -⟩, -⟩, -⟩, -⟩, -⟩, -⟩, -⟩ := h
  exact hagent

theorem me_of_queue {s : State} {c : Nat} {v : VQ} (h : s.agent = .queue c v) : s.me = c := by
  unfold State.me
  rw [h]
  rfl

theorem eccHead_of_sound {i : Instr} {spec : VSpec} {f : V3} (hspec : vspec i = some (spec, f)) {s : State} {e : QEntry}
    (h : sound i s e = true) : e.ecc = false ∧ eccHead spec e s = false := by
  have hhead : eccHead spec e s = false := by simpa [sound, hspec] using h
  refine ⟨?_, hhead⟩
  simp only [eccHead, Bool.or_eq_false_iff] at hhead
  obtain ⟨⟨⟨⟨⟨hecc, -⟩, -⟩, -⟩, -⟩, -⟩ := hhead
  exact hecc

/-- A sound head that begins is performed. -/
theorem vexec_of_begins {i : Instr} {spec : VSpec} {f : V3} (hspec : vspec i = some (spec, f)) {s : State} {c : Nat} {v : VQ}
    {e : QEntry} (h : begins s c v e = true) (hsound : sound i s e = true) (x : RouteRule) (perform : QEntry → State → VOut) :
    vexec i spec f x perform s = .next (headOutcome s c v e (perform e s)) := by
  obtain ⟨hecc, hhead⟩ := eccHead_of_sound hspec hsound
  rw [vexec_performs (agent_of_begins h), queueMove_of_begins h]
  simp only [hecc, hhead, Bool.and_false, Bool.or_false, Bool.false_eq_true, if_false]

/-! ### The words of a park slot -/

theorem parkKey_word_inj {ptiles : BitVec 2} {q j i l : Nat} (h : parkKey ptiles q j i = parkKey ptiles q j l) : i = l := by
  unfold parkKey tileKey at h
  omega

/-- Distinct slots of a core have no word in common. -/
theorem parkKey_slot_inj {ptiles : BitVec 2} {q j k i l : Nat} (hj : j < 256 * popN 2 ptiles.toNat)
    (hk : k < 256 * popN 2 ptiles.toNat) (hi : i < 64) (hl : l < 64) (h : parkKey ptiles q j i = parkKey ptiles q k l) : j = k := by
  unfold parkKey tileKey at h
  have htile : parkTile ptiles q j = parkTile ptiles q k ∧ j % 256 = k % 256 := by omega
  obtain ⟨htile, hrow⟩ := htile
  have hlent : (j < 256 ∧ k < 256) ∨ (ptiles.getLsbD 0 = true ∧ j < 512 ∧ k < 512) := by
    obtain ⟨n, hn⟩ := ptiles
    interval_cases n <;> simp [popN] at hj hk ⊢ <;> omega
  obtain ⟨hj, hk⟩ | ⟨hlow, hj, hk⟩ := hlent
  · omega
  · simp only [parkTile, hlow, and_true] at htile
    split at htile <;> split at htile <;> omega

section
variable {ptiles : BitVec 2} {q : Nat}

theorem smGet_parkWords_out {j key : Nat} (n : Nat) {i : Nat} (h : ∀ l, i ≤ l → l < i + n → key ≠ parkKey ptiles q j l) (v : Nat)
    (m : SMap (BitVec 32)) : smGet 0 key (parkWords ptiles q j n i v m) = smGet 0 key m := by
  induction n generalizing i v m with
  | zero => rfl
  | succ n ih =>
    rw [parkWords, ih fun l hl hn => h l (by omega) (by omega), smGet_smSet, if_neg (h i le_rfl (by omega))]

theorem unparkWords_congr {j : Nat} (n : Nat) {i : Nat} {m m' : SMap (BitVec 32)}
    (h : ∀ l, i ≤ l → l < i + n → smGet 0 (parkKey ptiles q j l) m' = smGet 0 (parkKey ptiles q j l) m) :
    unparkWords ptiles q j m' n i = unparkWords ptiles q j m n i := by
  induction n generalizing i with
  | zero => rfl
  | succ n ih => rw [unparkWords, unparkWords, h i le_rfl (by omega), ih fun l hl hn => h l (by omega) (by omega)]

theorem unparkWords_parkWords_self (j n i v : Nat) (m : SMap (BitVec 32)) :
    unparkWords ptiles q j (parkWords ptiles q j n i v m) n i = v % 2 ^ (32 * n) := by
  induction n generalizing i v m with
  | zero => simp [unparkWords, Nat.mod_one]
  | succ n ih =>
    have hout : ∀ l, i + 1 ≤ l → l < i + 1 + n → parkKey ptiles q j i ≠ parkKey ptiles q j l := fun l hl _ hkey => by
      have := parkKey_word_inj hkey
      omega
    rw [parkWords, unparkWords, ih, smGet_parkWords_out n hout, smGet_smSet_self, BitVec.toNat_ofNat, Nat.mul_add_one,
      Nat.pow_add, Nat.mul_comm (2 ^ (32 * n)), Nat.mod_mul]

end

theorem parkRoundTrip_holds : parkRoundTrip := by
  intro ptiles q j v m hj
  have hself := unparkWords_parkWords_self (ptiles := ptiles) (q := q) j 64 0 v m
  rw [show 32 * 64 = 2048 from rfl] at hself
  refine ⟨hself, fun k hk hne => unparkWords_congr 64 fun l _ hl => ?_⟩
  exact smGet_parkWords_out 64 (fun i _ hi hkey => hne (parkKey_slot_inj hk hj (by omega) (by omega) hkey)) v m

/-! ### VPARK and VUNPARK -/

/-- The D bits of a core's slots after slot n takes d. -/
theorem getLsbD_parkD {n : Nat} (h : n < 512) (x : BitVec 512) (d : Bool) :
    (if d then x ||| BitVec.ofNat 512 (2 ^ n) else x &&& ~~~BitVec.ofNat 512 (2 ^ n)).getLsbD n = d := by
  have hbit : (BitVec.ofNat 512 (2 ^ n)).getLsbD n = true := by
    rw [BitVec.getLsbD_ofNat, Nat.testBit_two_pow_self, decide_eq_true h]
    rfl
  cases d
  · simp only [Bool.false_eq_true, if_false, BitVec.getLsbD_and, BitVec.getLsbD_not, hbit, Bool.not_true, Bool.and_false]
  · simp only [if_true, BitVec.getLsbD_or, hbit, Bool.or_true]

theorem exec_vpark {f : V3} {s : State} {c : Nat} {e : QEntry} (h : begins s c .va e = true) (hsound : sound (.vpark f) s e = true) :
    exec (.vpark f) s = .next (headOutcome s c .va e (performVpark e s)) := vexec_of_begins rfl h hsound _ performVpark

theorem exec_vunpark {f : V3} {s : State} {c : Nat} {e : QEntry} (h : begins s c .va e = true)
    (hsound : sound (.vunpark f) s e = true) :
    exec (.vunpark f) s = .next (headOutcome s c .va e (performVunpark e s)) := vexec_of_begins rfl h hsound _ performVunpark

theorem parkResult_holds : parkResult := by
  refine ⟨fun f s c e h hsound => ?_, fun f s c e h hsound hgood => ?_⟩
  · obtain rfl := me_of_queue (agent_of_begins h)
    refine ⟨_, exec_vpark h hsound, rfl, ?_, ?_, fun hslot => ?_⟩
    · rw [State.setCore_th_self]; rfl
    · rw [State.setCore_at_array, State.setArray_array_self]
    · rw [State.setCore_core_self]
      exact getLsbD_parkD hslot _ _
  · obtain rfl := me_of_queue (agent_of_begins h)
    unfold completes
    rw [exec_vunpark h hsound]
    simp only [performVunpark, hgood, Bool.false_eq_true, if_false]
    rfl

/-- Settles O21: a slot's words are its own, and the two instructions move them and the slot's D bit. -/
theorem parkSlots : Obligations.ParkSlots := ⟨parkResult_holds, parkRoundTrip_holds⟩

end Sys2Proof.Machine

/-! ## What a move of VA leaves unchanged (R88, R91) -/

namespace Sys2Proof.Machine
open Sys2Proof Sys2Proof.Ob

/-! ### Registers of one class after a write to another -/

@[simp] theorem Regs.wrV_k (r : Regs) (n : BitVec 6) (x : VCell) : (r.wrV n x).k = r.k := by
  unfold Regs.wrV; split <;> [rfl; (split <;> [rfl; (split <;> rfl)])]

@[simp] theorem Regs.wrP_k (r : Regs) (n : BitVec 5) (x : PCell) : (r.wrP n x).k = r.k := by
  unfold Regs.wrP; split <;> [rfl; (split <;> rfl)]

@[simp] theorem Regs.rdP_wrV (r : Regs) (n : BitVec 6) (x : VCell) (m : BitVec 5) : (r.wrV n x).rdP m = r.rdP m := by
  unfold Regs.wrV; split <;> [rfl; (split <;> [rfl; (split <;> rfl)])]

@[simp] theorem Regs.rdV_wrP (r : Regs) (n : BitVec 5) (x : PCell) (m : BitVec 6) (lit : BitVec 32) :
    (r.wrP n x).rdV m lit = r.rdV m lit := by
  unfold Regs.wrP; split <;> [rfl; (split <;> rfl)]

theorem Regs.rdP_wrP_ne (r : Regs) {n m : BitVec 5} (h : m ≠ n) (x : PCell) : (r.wrP n x).rdP m = r.rdP m := by
  have hnat : n.toNat ≠ m.toNat := fun e => h (BitVec.eq_of_toNat_eq e.symm)
  unfold Regs.wrP
  split
  · rfl
  · split
    · unfold Regs.rdP
      split
      · rfl
      · split
        · exact Vector.getElem_set_ne (by assumption) (by assumption) hnat
        · rfl
    · rfl

/-- lr is read by its own code alone. -/
theorem Regs.rdV_with_lr (r : Regs) {m : BitVec 6} (h : m ≠ 56) (x : VCell) (lit : BitVec 32) :
    ({ r with lr := x } : Regs).rdV m lit = r.rdV m lit := by
  have hnat : m.toNat ≠ 56 := fun e => h (BitVec.eq_of_toNat_eq e)
  simp only [Regs.rdV, if_neg hnat]

theorem Regs.rdV_wrV_ne (r : Regs) {n m : BitVec 6} (h : m ≠ n) (x : VCell) (lit : BitVec 32) :
    (r.wrV n x).rdV m lit = r.rdV m lit := by
  have hnat : n.toNat ≠ m.toNat := fun e => h (BitVec.eq_of_toNat_eq e.symm)
  unfold Regs.wrV
  split
  · unfold Regs.rdV
    split
    · exact Vector.getElem_set_ne (by assumption) (by assumption) hnat
    · rfl
  · split
    · unfold Regs.rdV
      split
      · rfl
      · split
        · exact Vector.getElem_set_ne (by omega) (by omega) (by omega)
        · rfl
    · split
      · next hlr => exact Regs.rdV_with_lr r (fun e => h (BitVec.eq_of_toNat_eq (by rw [e, hlr]; rfl))) x lit
      · rfl

/-! ### VA's own part of its core -/

/-- The queues other than VA. -/
def Queues.beside (q : Queues) : VQueue × VQueue := (q.vl, q.vs)

@[simp] theorem Queues.beside_set (q : Queues) (x : VQueue) : (q.set .va x).beside = q.beside := rfl

@[simp] theorem Queues.beside_pop (q : Queues) (tok : BitVec 4) : (q.pop .va tok).beside = q.beside := by
  simp only [Queues.pop]; split <;> split <;> rfl

@[simp] theorem Queues.beside_push (q : Queues) (tok : BitVec 4) : (q.push .va tok).beside = q.beside := by
  simp only [Queues.push]; split <;> split <;> rfl

/-- From s to t, nothing of the state changes but queue VA of core c, the strand's tokens and recorded faults, and the park
stack. -/
structure VaOnly (s t : State) (c : Nat) : Prop where
  outside : SameOutside s t
  others : SameOthers s t c
  th : ∃ q : Queues, t.th c = { s.th c with q := q } ∧ q.beside = (s.th c).q.beside

theorem sameOutside_trans {s t u : State} (h : SameOutside s t) (h' : SameOutside t u) : SameOutside s u :=
  h'.trans (congrArg (fun x : State => { x with cores := u.cores }) h)

theorem VaOnly.refl (s : State) (c : Nat) : VaOnly s s c := ⟨rfl, fun _ _ => rfl, _, rfl, rfl⟩

theorem VaOnly.trans {s t u : State} {c : Nat} (h : VaOnly s t c) (h' : VaOnly t u c) : VaOnly s u c := by
  obtain ⟨hout, hothers, q, hth, hq⟩ := h
  obtain ⟨hout', hothers', q', hth', hq'⟩ := h'
  refine ⟨sameOutside_trans hout hout', fun j hj => (hothers' j hj).trans (hothers j hj), q', ?_, ?_⟩
  · rw [hth', hth]
  · rw [hq', hth, hq]

theorem vaOnly_setTh {s : State} {c : Nat} {q : Queues} (h : q.beside = (s.th c).q.beside) :
    VaOnly s (s.setTh c { s.th c with q := q }) c :=
  ⟨State.setTh_outside s c _, fun _ hj => State.setTh_core_ne s hj _, q, State.setTh_th_self s c _, h⟩

theorem completeHead_vaOnly (s : State) (c : Nat) (e : QEntry) : VaOnly s (completeHead s c .va e) c := by
  dsimp only [completeHead]
  refine vaOnly_setTh ?_
  split <;> split <;> simp

theorem endHeld_vaOnly (s : State) (c : Nat) (e : QEntry) : VaOnly s (endHeld s c .va e) c := by
  dsimp only [endHeld]
  split
  · exact completeHead_vaOnly s c e
  · exact vaOnly_setTh rfl

theorem discardHeld_vaOnly (s : State) (c : Nat) : VaOnly s (discardHeld s c .va) c :=
  ⟨State.setCore_outside s c _, fun _ hj => State.setCore_core_ne s hj _, _, State.setCore_th_self s c _, rfl⟩

theorem haltQueue_vaOnly (s : State) (c : Nat) (cause : BitVec 8) (addr : Word) : VaOnly s (haltQueue s c .va cause addr) c :=
  vaOnly_setTh rfl

theorem subnHead_vaOnly (s : State) (c : Nat) (e : QEntry) (low : Nat) (src : Srcs) : VaOnly s (subnHead s c .va e low src) c := by
  refine vaOnly_setTh ?_
  cases e.popped
  · exact Queues.beside_pop (s.th c).q e.f.tok
  · rfl

theorem takePops_vaOnly (s : State) (c : Nat) (e : QEntry) : VaOnly s (takePops s c .va e) c := by
  unfold takePops
  dsimp only
  split
  · exact VaOnly.refl s c
  · exact vaOnly_setTh (by simp)

theorem keepSrcs_vaOnly (s : State) (c : Nat) (e : QEntry) : VaOnly s (keepSrcs s c .va e) c :=
  (takePops_vaOnly s c e).trans (vaOnly_setTh rfl)

/-- The head halts VA, with the sources it read. -/
theorem haltHead_vaOnly (s : State) (c : Nat) (e : QEntry) (cause : BitVec 8) (addr : Word) :
    VaOnly s (haltQueue (keepSrcs s c .va e) c .va cause addr) c :=
  (keepSrcs_vaOnly s c e).trans (haltQueue_vaOnly _ c cause addr)

/-- A move of VA takes the outcome of its head, or touches VA alone (R60, R82, R226). -/
theorem queueMove_va_cases {s t : State} {c : Nat} {e : QEntry} (hhead : (s.th c).q.va.held.head? = some e)
    {perform : QEntry → State → VOut} (ht : queueMove s c .va perform = .next t) :
    VaOnly s t c ∨ t = headOutcome s c .va e (perform e s) := by
  obtain ⟨r, hheld⟩ := List.head?_eq_some_iff.mp hhead
  have hget : ((s.th c).q.get .va).held = e :: r := hheld
  have hfill : fillFault s c .va e = none := rfl
  simp only [queueMove, hget, hfill] at ht
  split at ht
  · cases ht; exact .inl (VaOnly.refl s c)
  split at ht
  · cases ht
    split
    · exact .inl (endHeld_vaOnly s c e)
    · exact .inl (completeHead_vaOnly s c e)
  split at ht
  · cases ht; exact .inl (discardHeld_vaOnly s c)
  split at ht
  · cases ht; exact .inl (VaOnly.refl s c)
  · cases ht; exact .inl (haltHead_vaOnly s c e _ _)
  split at ht
  · cases ht; exact .inl (VaOnly.refl s c)
  · right
    cases hp : perform e s <;> rw [hp] at ht <;> cases ht <;> rfl

/-- A head of VA that faults, asks for the assist or has its effect: besides that effect, its move touches VA alone. -/
theorem vexec_va_cases {i : Instr} {spec : VSpec} {f : V3} {x : RouteRule} {perform : QEntry → State → VOut} {s t : State}
    {c : Nat} {e : QEntry} (hagent : s.agent = .queue c .va) (hhead : (s.th c).q.va.held.head? = some e)
    (hperform : (∃ low src, perform e s = .subn low src) ∨ ∃ u, perform e s = .done u)
    (ht : vexec i spec f x perform s = .next t) : ∃ u, (u = s ∨ perform e s = .done u) ∧ VaOnly u t c := by
  rw [vexec_performs hagent] at ht
  obtain h | rfl := queueMove_va_cases hhead ht
  · exact ⟨s, .inl rfl, h⟩
  split
  · exact ⟨s, .inl rfl, haltHead_vaOnly s c e _ _⟩
  · obtain ⟨low, src, h⟩ | ⟨u, h⟩ := hperform <;> rw [h]
    · exact ⟨s, .inl rfl, subnHead_vaOnly s c e low src⟩
    · exact ⟨u, .inr rfl, completeHead_vaOnly u c e⟩

/-! ### The frame of a result -/

/-- What a result of VA leaves unchanged, whatever its destination. -/
def VaRest (s t : State) (c : Nat) : Prop :=
  SameOutside s t ∧ SameOthers s t c ∧ (t.th c).regs.s = (s.th c).regs.s ∧ (t.th c).regs.k = (s.th c).regs.k ∧
  (t.th c).strm = (s.th c).strm ∧ (t.th c).csr = { (s.th c).csr with fstat := (t.th c).csr.fstat } ∧
  (t.th c).trap = (s.th c).trap ∧ (t.th c).q.vl = (s.th c).q.vl ∧ (t.th c).q.vs = (s.th c).q.vs ∧ (t.th c).pos = (s.th c).pos

theorem VaOnly.regs {s t : State} {c : Nat} (h : VaOnly s t c) : (t.th c).regs = (s.th c).regs := by
  obtain ⟨q, hth, -⟩ := h.th
  rw [hth]

theorem VaRest.then {s t u : State} {c : Nat} (h : VaRest s u c) (h' : VaOnly u t c) : VaRest s t c := by
  obtain ⟨hout, hothers, hs, hk, hstrm, hcsr, htrap, hvl, hvs, hpos⟩ := h
  obtain ⟨hout', hothers', q, hth, hq⟩ := h'
  obtain ⟨hvl', hvs'⟩ := Prod.mk.inj hq
  refine ⟨sameOutside_trans hout hout', fun j hj => (hothers' j hj).trans (hothers j hj), ?_⟩
  rw [hth]
  exact ⟨hs, hk, hstrm, hcsr, htrap, hvl'.trans hvl, hvs'.trans hvs, hpos⟩

theorem VaRest.refl (s : State) (c : Nat) : VaRest s s c := ⟨rfl, fun _ _ => rfl, rfl, rfl, rfl, rfl, rfl, rfl, rfl, rfl⟩

/-- Registers of other classes and flags are written. -/
theorem vaRest_setTh {s : State} {c : Nat} {r : Regs} (hs : r.s = (s.th c).regs.s) (hk : r.k = (s.th c).regs.k) (fl : Flags) :
    VaRest s (s.setTh c { s.th c with regs := r, csr := (s.th c).csr.merge fl }) c := by
  refine ⟨State.setTh_outside s c _, fun _ hj => State.setTh_core_ne s hj _, ?_⟩
  rw [State.setTh_th_self]
  exact ⟨hs, hk, rfl, rfl, rfl, rfl, rfl, rfl⟩

/-! ### Vector destinations -/

/-- What a vector result leaves unchanged besides. -/
def VecFrame (s t : State) (c : Nat) (pa : BitVec 6) : Prop :=
  VaRest s t c ∧ (∀ n, n ≠ pa → n ≠ 56 → ∀ lit, (t.th c).regs.rdV n lit = (s.th c).regs.rdV n lit) ∧
    ∀ n, (t.th c).regs.rdP n = (s.th c).regs.rdP n

/-- R88: a vector result is written to its destination and to lr. -/
theorem finishVA_frame (s : State) (c : Nat) (e : QEntry) (v : Nat) (d : Bool) (fl : Flags) :
    VecFrame s (finishVA s c e v d fl) c e.pa := by
  refine ⟨vaRest_setTh ?_ ?_ fl, fun n hpa hlr lit => ?_, fun n => ?_⟩
  · exact Regs.wrV_s _ _ _
  · exact Regs.wrV_k _ _ _
  · rw [finishVA, State.setTh_th_self, Regs.rdV_with_lr _ hlr, Regs.rdV_wrV_ne _ hpa]
  · rw [finishVA, State.setTh_th_self]
    exact Regs.rdP_wrV _ _ _ n

theorem performVA_cases (val : ElMode → QEntry → Srcs → VAcc) (d : QEntry → Srcs → Bool) (e : QEntry) (s : State) :
    (∃ low src, performVA val d e s = .subn low src) ∨ ∃ u, performVA val d e s = .done u ∧ VecFrame s u s.me e.pa := by
  unfold performVA
  dsimp only
  split
  · exact .inl ⟨_, _, rfl⟩
  · exact .inr ⟨_, rfl, finishVA_frame _ _ _ _ _ _⟩

theorem exec_vecCtors {p : V3 → Instr} (hp : p ∈ vecCtors) (f : V3) (s : State) :
    ∃ spec x val d, exec (p f) s = vexec (p f) spec f x (performVA val d) s := by
  fin_cases hp <;> exact ⟨_, _, _, _, rfl⟩

/-! ### Predicate destinations -/

/-- What a predicate result leaves unchanged besides. -/
def PredFrame (s t : State) (c : Nat) (pa : BitVec 6) : Prop :=
  VaRest s t c ∧ (∀ n lit, (t.th c).regs.rdV n lit = (s.th c).regs.rdV n lit) ∧
    ∀ n, n ≠ pa.truncate 5 → (t.th c).regs.rdP n = (s.th c).regs.rdP n

/-- R88: a predicate result is written to its destination, and lr is unchanged. -/
theorem finishP_frame (s : State) (c : Nat) (pa : BitVec 6) (v : Nat) (d : Bool) (fl : Flags) :
    PredFrame s (finishP s c pa v d fl) c pa := by
  refine ⟨vaRest_setTh (Regs.wrP_s _ _ _) (Regs.wrP_k _ _ _) fl, fun n lit => ?_, fun n hn => ?_⟩
  · rw [finishP, State.setTh_th_self, Regs.rdV_wrP]
  · rw [finishP, State.setTh_th_self, Regs.rdP_wrP_ne _ hn]

theorem exec_predCtors {p : V3 → Instr} (hp : p ∈ predCtors) (f : V3) (s : State) : ∃ spec x perform,
    exec (p f) s = vexec (p f) spec f x perform s ∧ ∀ e, ∃ v d fl, perform e s = .done (finishP s s.me e.pa v d fl) := by
  fin_cases hp <;> exact ⟨_, _, _, rfl, fun e => ⟨_, _, _, rfl⟩⟩

/-- Settles O25: a move of VA writes at most one result and its flags, and touches VA alone besides. -/
theorem vectorFrame : Obligations.VectorFrame := by
  refine ⟨fun p hp f s t c e hagent hhead _ ht => ?_, fun p hp f s t c e hagent hhead _ ht => ?_⟩
  · obtain rfl := me_of_queue hagent
    obtain ⟨spec, x, val, d, hexec⟩ := exec_vecCtors hp f s
    have hcases := performVA_cases val d e s
    obtain ⟨u, hu, h⟩ := vexec_va_cases hagent hhead (hcases.imp_right fun ⟨u, hu, _⟩ => ⟨u, hu⟩) (hexec ▸ ht)
    have hframe : VecFrame s u s.me e.pa := by
      obtain rfl | hdone := hu
      · exact ⟨VaRest.refl _ _, fun _ _ _ _ => rfl, fun _ => rfl⟩
      · obtain ⟨low, src, hsubn⟩ | ⟨u', hdone', hframe⟩ := hcases
        · cases hdone.symm.trans hsubn
        · cases hdone.symm.trans hdone'; exact hframe
    obtain ⟨hrest, hvec, hpred⟩ := hframe
    exact ⟨hrest.then h, by rwa [h.regs], by rwa [h.regs]⟩
  · obtain rfl := me_of_queue hagent
    obtain ⟨spec, x, perform, hexec, hperform⟩ := exec_predCtors hp f s
    obtain ⟨v, d, fl, hdone'⟩ := hperform e
    obtain ⟨u, hu, h⟩ := vexec_va_cases hagent hhead (.inr ⟨_, hdone'⟩) (hexec ▸ ht)
    have hframe : PredFrame s u s.me e.pa := by
      obtain rfl | hdone := hu
      · exact ⟨VaRest.refl _ _, fun _ _ => rfl, fun _ _ => rfl⟩
      · cases hdone.symm.trans hdone'; exact finishP_frame s s.me e.pa v d fl
    obtain ⟨hrest, hvec, hpred⟩ := hframe
    exact ⟨hrest.then h, by rwa [h.regs], by rwa [h.regs]⟩

end Sys2Proof.Machine

/-! ## A step runs what its agent's bytes decode to (R78, R84, R85, R100, R112, R182, R213) -/

namespace Sys2Proof.Machine
open Sys2Proof Sys2Proof.Ob

/-! ### The loop buffers (R85) -/

theorem fetchWord_replays {s : State} {c : Nat} {p : Pos} {b : LoopBuf} {r : LoopRec} (hb : (s.core c).loop = some b)
    (hhdr : b.hdr = blockAt p) (hr : b.recs.find? (fun r => r.at_ == parcelAt p) = some r) : fetchWord s c p = .ok r.w := by
  simp [fetchWord, replayed, hb, hhdr, hr]

theorem fetchWord_of_replayed {s : State} {c : Nat} {p : Pos} {w : Nat} (h : replayed s c p = some w) : fetchWord s c p = .ok w := by
  simp only [fetchWord, h]

theorem fetchWord_fetches {s : State} {c : Nat} {p : Pos} (h : replayed s c p = none) :
    fetchWord s c p = if p.atHdr then readParcels s c 2 p.pc else readInstr s c p.pc := by
  simp only [fetchWord, h]

theorem replayed_eq_none_iff {s : State} {c : Nat} {p : Pos} : replayed s c p = none ↔
    ∀ b, (s.core c).loop = some b → b.hdr = blockAt p → ∀ r ∈ b.recs, r.at_ ≠ parcelAt p := by
  unfold replayed
  cases (s.core c).loop with
  | none => simp
  | some b => by_cases hhdr : b.hdr = blockAt p <;> simp [hhdr]

/-- What is replayed was recorded for the position. -/
theorem replayed_recorded {s : State} {c : Nat} {p : Pos} {w : Nat} {b : LoopBuf} (hb : (s.core c).loop = some b)
    (h : replayed s c p = some w) : ∃ r ∈ b.recs, r.at_ = parcelAt p ∧ r.w = w := by
  simp only [replayed, hb, Option.bind_some, Option.ite_none_right_eq_some, Option.map_eq_some_iff] at h
  obtain ⟨-, r, hfind, hw⟩ := h
  exact ⟨r, List.mem_of_find?_eq_some hfind, by simpa using List.find?_some hfind, hw⟩

/-- The check of an access looks at memory, the contexts, the translations held and the banks, and nothing else. -/
theorem checkAccess_congr {s t : State} (hmem : t.mem = s.mem) (htlb : t.tlb = s.tlb) (hctx : ∀ n, t.ctx n = s.ctx n)
    (hbanks : ∀ j, (t.core j).banks = (s.core j).banks) (w : Who) (k : AccKind) (a : Word) (n : Nat) :
    checkAccess t w k a n = checkAccess s w k a n := by
  simp only [checkAccess, checkVirtual_congr hmem htlb hctx, checkWindow, windowTarget, hctx, hbanks, hmem]

/-- The state in which core c's loop buffers hold b. -/
def withLoop (s : State) (c : Nat) (b : LoopBuf) : State := s.setCore c { s.core c with loop := some b }

section
variable (s : State) (c : Nat) (b : LoopBuf)

@[simp] theorem withLoop_core_self : (withLoop s c b).core c = { s.core c with loop := some b } := State.setCore_core_self s c _

@[simp] theorem withLoop_at_th_self : (withLoop s c b).th c = s.th c := State.setCore_th_self s c _

theorem withLoop_banks (j : Nat) : ((withLoop s c b).core j).banks = (s.core j).banks := by
  by_cases hj : j = c
  · rw [hj, withLoop_core_self]
  · rw [withLoop, State.setCore_core_ne s hj]

/-- What the loop buffers hold is no part of what a fetch past them reads. -/
theorem readParcel_withLoop (a : Word) : readParcel (withLoop s c b) c a = readParcel s c a := by
  have hwho : (withLoop s c b).whoThread c = s.whoThread c := by simp [State.whoThread, State.ctxOf]
  have hcheck : checkAccess (withLoop s c b) (s.whoThread c) .fetch a 2 = checkAccess s (s.whoThread c) .fetch a 2 :=
    checkAccess_congr (s := s) (t := withLoop s c b) rfl rfl (fun _ => rfl) (withLoop_banks s c b) _ _ _ _
  simp only [readParcel, heldLineAt, withLoop_core_self, hwho, hcheck]
  rfl

theorem readParcels_withLoop (n : Nat) (a : Word) : readParcels (withLoop s c b) c n a = readParcels s c n a := by
  induction n generalizing a with
  | zero => rfl
  | succ n ih => simp only [readParcels, readParcel_withLoop, ih]

theorem readInstr_withLoop (a : Word) : readInstr (withLoop s c b) c a = readInstr s c a := by
  simp only [readInstr, readParcel_withLoop, readParcels_withLoop]

end

/-- Where nothing was replayed for a position, buffers that hold what was fetched there change nothing of what it reads. -/
theorem fetchWord_withLoop {s : State} {c : Nat} {b : LoopBuf} {p : Pos} {w : Nat} (hnew : replayed s c p = none)
    (hw : fetchWord s c p = .ok w) (hb : ∀ r ∈ b.recs, r.at_ = parcelAt p → r.w = w) :
    fetchWord (withLoop s c b) c p = fetchWord s c p := by
  cases ht : replayed (withLoop s c b) c p with
  | none => rw [fetchWord_fetches ht, fetchWord_fetches hnew, readParcels_withLoop, readInstr_withLoop]
  | some v =>
    obtain ⟨r, hr, hat, hv⟩ := replayed_recorded (b := b) (by rw [withLoop_core_self]) ht
    rw [fetchWord_of_replayed ht, hw, ← hv, hb r hr hat]

/-- The buffers that core c has for the block at p: its own, or empty ones where it has recorded another block. -/
def bufferAt (s : State) (c : Nat) (p : Pos) : LoopBuf :=
  match (s.core c).loop with
  | some b => if b.hdr = blockAt p then b else { hdr := blockAt p }
  | none => { hdr := blockAt p }

/-- The buffers once they have taken, or had no room for, the parcels w at place n of share q. -/
def recorded (b : LoopBuf) (n w : Nat) (q : Option VQ) : LoopBuf :=
  let recs := { at_ := n, w := w, share := q } :: b.recs
  if shareFits recs q then { b with recs := recs }
  else { b with recs := b.recs.filter (fun r => r.share != q), missed := q :: b.missed }

theorem bufferAt_new {s : State} {c : Nat} {p : Pos} (h : replayed s c p = none) : ∀ r ∈ (bufferAt s c p).recs, r.at_ ≠ parcelAt p := by
  unfold bufferAt
  split
  · next b hb =>
    split
    · next hhdr => exact replayed_eq_none_iff.mp h b hb hhdr
    · exact fun r hr => nomatch hr
  · exact fun r hr => nomatch hr

theorem recorded_word {b : LoopBuf} {n w : Nat} {q : Option VQ} (hnew : ∀ r ∈ b.recs, r.at_ ≠ n) :
    ∀ r ∈ (recorded b n w q).recs, r.at_ = n → r.w = w := by
  intro r hr hat
  unfold recorded at hr
  dsimp only at hr
  split at hr
  · obtain rfl | hold := List.mem_cons.mp hr
    · rfl
    · exact absurd hat (hnew r hold)
  · exact absurd hat (hnew r (List.mem_filter.mp hr).1)

/-- Recording what was fetched: nothing where it was replayed, or where its share is closed. -/
theorem recordLoop_fetched {s : State} {c w : Nat} (i : Instr) (h : fetchWord s c (s.th c).pos = .ok w) :
    recordLoop s c i =
      let p := (s.th c).pos
      let q := (vspec i).map (fun x => x.1.queue)
      if (replayed s c p).isSome || (bufferAt s c p).last || (bufferAt s c p).missed.contains q then s
      else withLoop s c (recorded (bufferAt s c p) (parcelAt p) w q) := by
  unfold recordLoop
  simp only [h]
  rfl

theorem recordLoop_unfetched {s : State} {c : Nat} (i : Instr) (h : ∀ w, fetchWord s c (s.th c).pos ≠ .ok w) : recordLoop s c i = s := by
  unfold recordLoop
  dsimp only
  split
  · next w hw => exact absurd hw (h w)
  · rfl

/-- Recording leaves the state, or puts what was fetched, where nothing was replayed, into the core's loop buffers. -/
theorem recordLoop_cases (s : State) (c : Nat) (i : Instr) : recordLoop s c i = s ∨ ∃ b w,
    recordLoop s c i = withLoop s c b ∧ replayed s c (s.th c).pos = none ∧ fetchWord s c (s.th c).pos = .ok w ∧
      ∀ r ∈ b.recs, r.at_ = parcelAt (s.th c).pos → r.w = w := by
  by_cases h : ∃ w, fetchWord s c (s.th c).pos = .ok w
  case neg => exact .inl (recordLoop_unfetched i (not_exists.mp h))
  obtain ⟨w, hw⟩ := h
  rw [recordLoop_fetched i hw]
  dsimp only
  split
  · exact .inl rfl
  · next hrec =>
    simp only [Bool.or_eq_true, not_or, Bool.not_eq_true, Option.isSome_eq_false_iff, Option.isNone_iff_eq_none] at hrec
    obtain ⟨⟨hnew, -⟩, -⟩ := hrec
    exact .inr ⟨_, w, rfl, hnew, hw, recorded_word (bufferAt_new hnew)⟩

/-- Recording changes nothing that runs: no thread, no memory, no other core, and not what the position reads. -/
theorem recordLoop_frame (s : State) (c : Nat) (i : Instr) :
    let t := recordLoop s c i
    t.th c = s.th c ∧ t.mem = s.mem ∧ SameOutside s t ∧ SameOthers s t c ∧ fetchWord t c (s.th c).pos = fetchWord s c (s.th c).pos := by
  dsimp only
  obtain h | ⟨b, w, h, hnew, hw, hb⟩ := recordLoop_cases s c i
  · rw [h]; exact ⟨rfl, rfl, rfl, fun _ _ => rfl, rfl⟩
  · rw [h]
    exact ⟨withLoop_at_th_self s c b, rfl, State.setCore_outside s c _, fun _ hj => State.setCore_core_ne s hj _,
      fetchWord_withLoop hnew hw hb⟩

/-! ### Strands (R84, R100, R112) -/

theorem step_strand {s : State} {ms : List Move} {c : Nat} (hsched : s.sched = .strand c :: ms) (hc : c < 512) :
    step s = settled (moving s ms c) (runFetched (strandMove (moving s ms c) c)) := by
  simp [step, hsched, moveStep, moving, Nat.not_le.mpr hc]

theorem passTested_at_th (s : State) (c : Nat) :
    (passTested s c).th c = { s.th c with pos := { (s.th c).pos with passStart := false } } := by
  unfold passTested
  dsimp only
  exact State.setTh_th_self _ c _

theorem fetchInstr_inBlock {s : State} {c w : Nat} {i : Instr} (hodd : (s.th c).pos.pc.getLsbD 0 = false)
    (hhdr : (s.th c).pos.atHdr = false) (hw : fetchWord s c (s.th c).pos = .ok w) (hpast : pastBlock (s.th c).pos w = false)
    (hi : decodeTollum (BitVec.ofNat 32 w) (BitVec.ofNat 32 (w / 2 ^ 32)) = some i) : fetchInstr s c = .instr i := by
  unfold fetchInstr
  simp only [hodd, hhdr, hw, hpast, hi, Bool.false_eq_true, if_false]

theorem fetchInstr_header {s : State} {c w : Nat} {i : Instr} (hodd : (s.th c).pos.pc.getLsbD 0 = false)
    (hhdr : (s.th c).pos.atHdr = true) (hw : fetchWord s c (s.th c).pos = .ok w) (his : isHeader w = true)
    (hi : decodeTollum (BitVec.ofNat 32 w) 0 = some i) : fetchInstr s c = .instr i := by
  unfold fetchInstr
  simp only [hodd, hhdr, hw, his, hi, Bool.false_eq_true, if_false, if_true, Bool.not_true]

/-- A strand that nothing stands before runs what it fetches, recorded in its loop buffers. -/
theorem strandMove_fetches {s : State} {c : Nat} {i : Instr} (hrun : (s.th c).job.run ≠ .idle) (hpark : (s.th c).job.park = .run)
    (hcode : (s.th c).job.code = .idle) (hfw : (s.th c).pos.fw = false) (hbad : badFetch (s.th c) = none)
    (hbefore : beforeInstr s c = none) (hfetch : fetchInstr (passTested s c) c = .instr i)
    (hecc : eccInstr (passTested s c) c i = false) :
    strandMove s c = (.instr i, recordLoop (passTested s c) c i) := by
  have hgate : eccGate (passTested s c) c (.instr i) = .instr i := by simp [eccGate, hecc]
  unfold strandMove
  simp only [hpark, hcode, hfw, hbad, hbefore, hfetch, hgate, Bool.false_eq_true, if_false]

/-! ### Queues, arrays, engines, walkers, frames and events -/

theorem step_queue {s : State} {ms : List Move} {c : Nat} {v : VQ} {e : QEntry} (hsched : s.sched = .queue c v :: ms) (hc : c < 512)
    (hhead : ((s.th c).q.get v).held.head? = some e) :
    step s = settled { s with sched := ms, agent := .queue c v } (exec e.ins { s with sched := ms, agent := .queue c v }) := by
  obtain ⟨es, hheld⟩ := List.head?_eq_some_iff.mp hhead
  have hrun : queueStep { s with sched := ms, agent := .queue c v } c v = exec e.ins { s with sched := ms, agent := .queue c v } := by
    unfold queueStep
    simp only [show (({ s with sched := ms, agent := .queue c v } : State).th c) = s.th c from rfl, hheld]
  simp [step, hsched, moveStep, Nat.not_le.mpr hc, hrun]

theorem step_array {s : State} {ms : List Move} {d n q : Nat} {i : Instr} (hsched : s.sched = .array d n :: ms) (hd : d < 8) (hn : n < 16) :
    let m : State := { s with sched := ms, agent := .array d n }
    let c := quadCore (d * 16 + n) q
    (m.array (d * 16 + n)).lease = some q → (m.array (d * 16 + n)).exec = none → (m.core c).ring.begun = none → eligible m c = true →
    killedStrand m c = none → commandHeld m c = false → recordFault m c = none →
    decodeCommand (ringRecord m c (m.core c).ring.rd.toNat) = some i → step s = settled m (exec i m) := by
  intro m c hlease hexec hbegun helig hkill hheld hfault hi
  have hnow : recordNow m c = ringRecord m c (m.core c).ring.rd.toNat := by rw [recordNow, hbegun, Option.getD_none]
  have hmove : arrayMove m (d * 16 + n) = (some i, m) := by
    unfold arrayMove
    simp only [hlease, hexec]
    change (if _ then _ else _) = _
    simp [← show c = quadCore (d * 16 + n) q from rfl, hbegun, helig, hkill, hheld, hfault, hnow, hi]
  simp only [step, hsched, moveStep, Nat.not_le.mpr hd, Nat.not_le.mpr hn, or_self, if_false]
  change settled m (runMove (arrayMove m (d * 16 + n))) = _
  rw [hmove]
  rfl

/-- A byte that is written is no longer poisoned, and no other becomes so. -/
theorem poisoned_setByte {m : Mem} {key a l : Nat} {b : Byte} (h : m.poisoned a l = false) : (m.setByte key b).poisoned a l = false := by
  rw [Mem.poisoned, List.any_eq_false] at h ⊢
  exact fun k hk => h k (List.mem_filter.mp hk).1

theorem poisoned_setNat (n : Nat) {m : Mem} {key x a l : Nat} (h : m.poisoned a l = false) : (m.setNat key n x).poisoned a l = false := by
  induction n generalizing m key x with
  | zero => exact h
  | succ n ih => exact ih (poisoned_setByte h)

theorem poisoned_putHdr {s : State} {q : QRec} {off n v a l : Nat} (h : s.mem.poisoned a l = false) :
    (putHdr s q off n v).mem.poisoned a l = false := by
  rw [putHdr, sendStamp_mem]
  exact poisoned_setNat n h

/-- The engine of a queue without a packet takes a sound one that decodes. -/
theorem takePacket_sound {m : State} {l k : Nat} {q : QRec} {i : Instr} :
    let raw := BitVec.ofNat 512 (m.mem.readNat (qslotKey l q k) 64)
    let t := takeStamps m q.die [q.atDie, q.slotDie l k]
    let p := wFPkt raw
    let r : PRun := { ins := .flstmp p, slot := k, claim := q.claims.find? (fun c => c.slot == k) }
    let u := putHdr t q 8 8 (k + 1)
    let y : PRun := { r with ins := i, pins := packetPins u l p }
    stampBad t l r p.stamp = false → m.mem.poisoned (qslotKey l q k) 64 = false → decodePacket raw = some i →
    takePacket m l q k = (some i, u.setRun l (takeSpans u l y p)) := by
  intro raw t p r u y hstamp hsound hi
  have hu : u.mem.poisoned (qslotKey l q k) 64 = false := poisoned_putHdr (by rw [takeStamps_mem]; exact hsound)
  have hraw : BitVec.ofNat 512 (t.mem.readNat (qslotKey l q k) 64) = raw := by rw [takeStamps_mem]
  unfold takePacket
  simp only [show takeStamps m q.die [q.atDie, q.slotDie l k] = t from rfl, hraw]
  simp only [show stampBad t l { ins := .flstmp (wFPkt raw), slot := k, claim := q.claims.find? (fun c => c.slot == k) } (wFPkt raw).stamp
    = false from hstamp, show putHdr t q 8 8 (k + 1) = u from rfl, hu, hi, Bool.false_eq_true, if_false]
  rfl

theorem step_flume {s : State} {ms : List Move} {l : Nat} (hsched : s.sched = .flume l :: ms) :
    step s = settled { s with sched := ms, agent := .flume l }
      (runMove (flumeMove { s with sched := ms, agent := .flume l } l)) := by
  simp only [step, hsched, moveStep]

/-- An engine takes the packet at its queue's read index, where that is sound, tagged and decodes. -/
theorem flumeMove_takes {m : State} {l : Nat} {q : QRec} {i : Instr} :
    let k := ridxOf m q
    let t := takeStamps m q.die [q.atDie, q.slotDie l k]
    let p := wFPkt (packetRaw m l q)
    let r : PRun := { ins := .flstmp p, slot := k, claim := q.claims.find? (fun c => c.slot == k) }
    let u := putHdr t q 8 8 (k + 1)
    let y : PRun := { r with ins := i, pins := packetPins u l p }
    m.queue l = some q → m.run l = none → q.kind = .flume → q.stopped = false → queueLine m l q k = none → tagOf m l q k = k →
    stampBad t l r p.stamp = false → m.mem.poisoned (qslotKey l q k) 64 = false → decodePacket (packetRaw m l q) = some i →
    flumeMove m l = (some i, u.setRun l (takeSpans u l y p)) := by
  intro k t p r u y hq hr hkind hstop hline htag hstamp hsound hi
  have hidle : ¬(q.kind ≠ .flume ∨ q.stopped = true) := by simp [hkind, hstop]
  unfold flumeMove
  simp only [hq, hr]
  simp only [if_neg hidle, show queueLine m l q (ridxOf m q) = none from hline, if_pos (show tagOf m l q (ridxOf m q) = ridxOf m q from htag)]
  exact takePacket_sound hstamp hsound hi

/-- An engine that forms its packet's layouts or ranges goes on with it. -/
theorem flumeMove_resumes {m : State} {l : Nat} {q : QRec} {r : PRun} (hq : m.queue l = some q) (hr : m.run l = some r)
    (hphase : r.phase = .form ∨ r.phase = .ranges) : flumeMove m l = (some r.ins, m) := by
  unfold flumeMove
  simp only [hq, hr, if_pos hphase]

theorem fetchRecord_decodes {m : State} {w : Walker} {v : Nat} {i : Instr}
    (hread : seqRead m (walkCtx m w) (walkDie m w) 32 1 (walkPc m w) = .ok v) (hi : decodeRecord (BitVec.ofNat 256 v) = some i) :
    fetchRecord m w = (some i, m) := by
  unfold fetchRecord
  simp only [hread, hi]

theorem walkerMove_fetches {m : State} {l : Nat} (hwalk : walking (m.launch l) = true)
    (hrun : (m.launch l).walk = .run ∨ (m.launch l).walk = .keepDone) (hpark : (m.launch l).park = .run)
    (hscope : scopeDead m (m.launch l).die (m.launch l).pkt.scope = false) (hboard : boardFull m { l := l, f := none } = false) :
    walkerMove m l = fetchRecord m { l := l, f := none } := by
  unfold walkerMove
  obtain h | h := hrun <;> simp [hwalk, h, hpark, hscope, hboard]

theorem frameMove_fetches {m : State} {f : Nat} {x : Frame} (hx : m.frame f = some x) (hpushed : x.pushed = true)
    (hwalk : x.walk = .run) (hpark : x.park = .run) : frameMove m f = fetchRecord m { l := x.launch, f := some f } := by
  unfold frameMove
  simp only [hx, hpushed, hwalk, hpark, Bool.not_true, Bool.false_eq_true, if_false]

theorem step_event {s : State} {ms : List Move} {i : Instr} (hsched : s.sched = .event i :: ms) (hi : encode i = none) :
    step s = settled { s with sched := ms, agent := .event i } (exec i { s with sched := ms, agent := .event i }) := by
  simp only [step, hsched, moveStep, isEvent, hi, Option.isNone_none, if_true]

/-- The strand's conjunct of O55: the fetched instruction runs, in a block and at its header. -/
theorem step_strand_fetched {s : State} {ms : List Move} {c w : Nat} {i : Instr} (hsched : s.sched = .strand c :: ms) (hc : c < 512) :
    let m := moving s ms c
    let t := m.th c
    t.job.run ≠ .idle → t.job.park = .run → t.job.code = .idle → t.pos.fw = false → badFetch t = none → beforeInstr m c = none →
    t.pos.pc.getLsbD 0 = false →
    let p := passTested m c
    fetchWord p c (p.th c).pos = .ok w → eccInstr p c i = false →
    ((t.pos.atHdr = false → pastBlock (p.th c).pos w = false →
      decodeTollum (BitVec.ofNat 32 w) (BitVec.ofNat 32 (w / 2 ^ 32)) = some i →
      step s = settled m (exec i (recordLoop p c i))) ∧
    (t.pos.atHdr = true → isHeader w = true → decodeTollum (BitVec.ofNat 32 w) 0 = some i →
      step s = settled m (exec i (recordLoop p c i)))) := by
  intro m t hrun hpark hcode hfw hbad hbefore hodd p hw hecc
  have hpos : (p.th c).pos = { t.pos with passStart := false } := by rw [passTested_at_th]
  have hruns (hfetch : fetchInstr p c = .instr i) : step s = settled m (exec i (recordLoop p c i)) := by
    rw [step_strand hsched hc, strandMove_fetches hrun hpark hcode hfw hbad hbefore hfetch hecc]
    rfl
  refine ⟨fun hhdr hpast hi => hruns (fetchInstr_inBlock ?_ ?_ hw hpast hi), fun hhdr his hi => hruns (fetchInstr_header ?_ ?_ hw his hi)⟩
  · rw [hpos]; exact hodd
  · rw [hpos]; exact hhdr
  · rw [hpos]; exact hodd
  · rw [hpos]; exact hhdr

/-- Settles O55: for each agent the conditions name the one branch of its move that hands the decoded instruction to `exec`. -/
theorem stepRunsDecoded : Obligations.StepRunsDecoded := by
  unfold Obligations.StepRunsDecoded
  refine ⟨fun s ms c w i hsched hc => step_strand_fetched hsched hc,
    fun s c p => ⟨fun b r => fetchWord_replays, fun h => fetchWord_fetches (replayed_eq_none_iff.mpr h)⟩, recordLoop_frame,
    fun s ms c v e hsched hc hhead => step_queue hsched hc hhead, fun s ms d n q i hsched hd hn => step_array hsched hd hn,
    fun s ms l i q hsched => ?flumeTakes, fun s ms l q r hsched => ?flumeResumes, fun s ms l v i hsched => ?walker,
    fun s ms f v i x hsched => ?frame, fun s ms i hsched hi => step_event hsched hi⟩
  case flumeTakes =>
    intro m k t p r hq hr hkind hstop hline htag hstamp hsound hi
    rw [step_flume hsched, show flumeMove _ l = _ from flumeMove_takes hq hr hkind hstop hline htag hstamp hsound hi]
    rfl
  case flumeResumes =>
    intro m hq hr hphase
    rw [step_flume hsched, show flumeMove _ l = _ from flumeMove_resumes hq hr hphase]
    rfl
  case walker =>
    intro m x w hwalk hrun hpark hscope hboard hread hi
    have hmove : walkerMove m l = (some i, m) :=
      (walkerMove_fetches hwalk hrun hpark hscope hboard).trans (fetchRecord_decodes hread hi)
    simp only [step, hsched, moveStep]
    exact congrArg (fun y => settled m (runMove y)) hmove
  case frame =>
    intro m w hx hpushed hwalk hpark hread hi
    have hmove : frameMove m f = (some i, m) := (frameMove_fetches hx hpushed hwalk hpark).trans (fetchRecord_decodes hread hi)
    simp only [step, hsched, moveStep]
    exact congrArg (fun y => settled m (runMove y)) hmove

end Sys2Proof.Machine

/-! ## Encodings: the fields of a word, a record and a packet (R101, Tables 2-3, 5-1, 5-9, 5-11) -/

namespace Sys2Proof.Machine
open Sys2Proof

/-! ### Reading a field of words put together -/

@[simp] theorem fld_append_low {w v : Nat} (x : BitVec w) (y : BitVec v) {lo n : Nat} (h : lo + n ≤ v) :
    fld (no_index (x ++ y)) lo n = fld y lo n :=
  BitVec.extractLsb'_append_eq_of_add_le h

@[simp] theorem fld_append_high {w v : Nat} (x : BitVec w) (y : BitVec v) {lo n : Nat} (h : v ≤ lo) :
    fld (no_index (x ++ y)) lo n = fld x (lo - v) n :=
  BitVec.extractLsb'_append_eq_of_le h

@[simp] theorem fld_all {w : Nat} (x : BitVec w) : fld x 0 w = x := BitVec.extractLsb'_eq_self

@[simp] theorem fld_ofNat (w x lo n : Nat) : fld (BitVec.ofNat w x) lo n = BitVec.ofNat n (x % 2 ^ w / 2 ^ lo) := by
  apply BitVec.eq_of_toNat_eq
  simp [fld, Nat.shiftRight_eq_div_pow]

theorem fld_eq_zero_iff {w : Nat} (x : BitVec w) (lo n : Nat) : fld x lo n = 0#n ↔ ∀ i < n, x.getLsbD (lo + i) = false := by
  constructor
  · intro h i hi
    have := congrArg (fun y => y.getLsbD i) h
    simpa [fld, hi] using this
  · intro h
    refine BitVec.eq_of_getLsbD_eq fun i hi => ?_
    simp [fld, h i hi]

/-- A field that lies in both parts is zero when its part in each is. -/
theorem fld_append_eq_zero {w v : Nat} (x : BitVec w) (y : BitVec v) {lo n : Nat} (hlo : lo ≤ v) (hhi : v ≤ lo + n) :
    fld (no_index (x ++ y)) lo n = 0#n ↔ fld x 0 (lo + n - v) = 0 ∧ fld y lo (v - lo) = 0 := by
  simp only [fld_eq_zero_iff, BitVec.getLsbD_append, BitVec.ofNat_eq_ofNat]
  constructor
  · intro h
    refine ⟨fun i hi => ?_, fun i hi => ?_⟩
    · have := h (v - lo + i) (by omega)
      rw [if_neg (by omega)] at this
      rwa [show 0 + i = lo + (v - lo + i) - v by omega]
    · have := h i (by omega)
      rwa [if_pos (by omega)] at this
  · rintro ⟨hx, hy⟩ i hi
    split
    · next h => exact hy i (by omega)
    · next h => simpa [show 0 + (lo + i - v) = lo + i - v by omega] using hx (lo + i - v) (by omega)

/-- A field cut in two. -/
theorem fld_cut {w : Nat} (x : BitVec w) (lo m n : Nat) : fld x lo (m + n) = fld x (lo + n) m ++ fld x lo n := by
  refine BitVec.eq_of_getLsbD_eq fun i hi => ?_
  simp only [fld, BitVec.getLsbD_append, BitVec.getLsbD_extractLsb', hi]
  split
  · next h => simp [h]
  · next h => simp [show i - n < m by omega, show lo + n + (i - n) = lo + i by omega]

theorem fld_append_fld {m n : Nat} (x : BitVec (m + n)) : fld x n m ++ fld x 0 n = x := by
  simpa [fld_all] using (fld_cut x 0 m n).symm

theorem bitVec2_cases (x : BitVec 2) : x = 0#2 ∨ x = 1#2 ∨ x = 2#2 ∨ x = 3#2 := by
  revert x; decide

@[simp] theorem ofBool_eq_one (b : Bool) : (BitVec.ofBool b = 1#1) = (b = true) := by cases b <;> simp

/-! ### The fields of each format (Table 5-1) -/

@[simp] theorem encSR_fields (op : BitVec 6) (rd ra rb : BitVec 5) (fn : BitVec 8) :
    let w := encSR op rd ra rb fn
    fld w 0 1 = 1#1 ∧ fld w 30 2 = 0#2 ∧ fld w 24 6 = op ∧ fld w 19 5 = rd ∧ fld w 14 5 = ra ∧ fld w 9 5 = rb ∧
      ∀ lo n, lo + n ≤ 8 → fld w (lo + 1) n = fld fn lo n := by
  simp +contextual [encSR]

@[simp] theorem encXR_fields (op : BitVec 6) (rd ra rb : BitVec 5) (fn : BitVec 8) :
    let w := encXR op rd ra rb fn
    fld w 0 1 = 1#1 ∧ fld w 30 2 = 3#2 ∧ fld w 24 6 = op ∧ fld w 19 5 = rd ∧ fld w 14 5 = ra ∧ fld w 9 5 = rb ∧
      ∀ lo n, lo + n ≤ 8 → fld w (lo + 1) n = fld fn lo n := by
  simp +contextual [encXR]

/-- Unused fields of an X word that the decoder reads as one. -/
@[simp] theorem encXR_unused (op : BitVec 6) (rd : BitVec 5) (fn : BitVec 8) : fld (encXR op rd 0#5 0#5 fn) 9 10 = 0#10 := by
  simp [encXR, fld_append_eq_zero]

@[simp] theorem encXR_only_fn (op : BitVec 6) (fn : BitVec 8) :
    let w := encXR op 0#5 0#5 0#5 fn
    fld w 9 15 = 0#15 ∧ (fn = 0#8 → fld w 1 23 = 0#23) ∧ (fld fn 3 5 = 0#5 → fld w 4 20 = 0#20) := by
  simp +contextual [encXR, fld_append_eq_zero]

@[simp] theorem encSI_fields (op : BitVec 6) (rd ra : BitVec 5) (imm : BitVec 13) :
    let w := encSI op rd ra imm
    fld w 0 1 = 1#1 ∧ fld w 30 2 = 0#2 ∧ fld w 24 6 = op ∧ fld w 19 5 = rd ∧ fld w 14 5 = ra ∧ fld w 1 13 = imm := by
  simp [encSI]

@[simp] theorem encSI_subfields (op : BitVec 6) (rd ra : BitVec 5) (imm : BitVec 13) (lo n : Nat) :
    (lo + n ≤ 5 → fld (encSI op rd ra imm) (lo + 14) n = fld ra lo n) ∧
      (lo + n ≤ 13 → fld (encSI op rd ra imm) (lo + 1) n = fld imm lo n) := by
  constructor
  · intro h
    simp [encSI, h]
  · intro h
    simp [encSI, h]

@[simp] theorem encSI_zero (op : BitVec 6) (imm : BitVec 13) : fld (encSI op 0#5 0#5 imm) 14 10 = 0#10 := by
  simp [encSI, fld_append_eq_zero]

@[simp] theorem encSU_fields (op : BitVec 4) (rd : BitVec 5) (imm : BitVec 20) :
    let w := encSU op rd imm
    fld w 0 1 = 1#1 ∧ fld w 30 2 = 0#2 ∧ fld w 21 5 = rd ∧ fld w 1 20 = imm := by
  simp [encSU]

/-- The six bits of opcode of an SU word: its own four and the high two of rd. -/
@[simp] theorem encSU_op (op : BitVec 4) (rd : BitVec 5) (imm : BitVec 20) : fld (encSU op rd imm) 24 6 = op ++ fld rd 3 2 := by
  rw [fld_cut _ 24 4 2]
  simp [encSU]

@[simp] theorem encSJ_fields (link : BitVec 1) (off : BitVec 20) :
    let w := encSJ link off
    fld w 0 1 = 1#1 ∧ fld w 30 2 = 0#2 ∧ fld w 24 6 = 0x26#6 ∧ fld w 23 1 = link ∧ fld w 21 2 = 0#2 ∧ fld w 1 20 = off := by
  simp [encSJ]

@[simp] theorem encV3_fields (cls : BitVec 2) (op : BitVec 5) (f : V3) :
    let w := encV3 cls op f
    fld w 0 1 = 1#1 ∧ fld w 30 2 = cls ∧ fld w 25 5 = op ∧ ∀ lit, wV3 w lit = { f with lit := lit } := by
  simp [encV3, wV3]

@[simp] theorem encXB_fields (len : BitVec 10) (rpt : BitVec 11) :
    let w := encXB len rpt
    fld w 0 1 = 1#1 ∧ fld w 30 2 = 3#2 ∧ fld w 24 6 = 0x3F#6 ∧ fld w 22 2 = 0#2 ∧ fld w 12 10 = len ∧ fld w 1 11 = rpt := by
  simp [encXB]

@[simp] theorem encS16_fields (b : BitVec 7) (a : BitVec 5) (op : BitVec 3) :
    let w := encS16 b a op
    fld w 0 1 = 0#1 ∧ fld w 30 2 = 0#2 ∧ fld w 1 3 = op ∧ fld w 4 5 = a ∧ fld w 9 7 = b ∧
      fld w 9 5 = fld b 0 5 ∧ fld w 9 6 = fld b 0 6 ∧ fld w 14 2 = fld b 5 2 ∧ fld w 15 1 = fld b 6 1 := by
  simp [encS16]

/-! ### Which decoder reads a word (R100) -/

/-- A word read without the test that the tables assign it. -/
def readWord (w next : BitVec 32) : Option Instr := if fld w 0 1 = 0#1 then decodeShort w else decodeLong w next

theorem keepWf_eq_some {i j : Instr} : keepWf i = some j ↔ i = j ∧ j.WellFormed := by
  unfold keepWf Instr.WellFormed
  rw [Option.ite_none_right_eq_some, Option.some.injEq, and_comm]
  exact and_congr_right fun h => by rw [h]

/-- A word decodes to what it reads as, where that is well-formed. -/
theorem decodeTollum_eq_some {w next : BitVec 32} {i : Instr} :
    decodeTollum w next = some i ↔ readWord w next = some i ∧ i.WellFormed := by
  unfold decodeTollum
  change (match readWord w next with | some i => keepWf i | none => none) = some i ↔ _
  cases readWord w next with
  | none => simp
  | some j => exact keepWf_eq_some.trans (and_congr_left fun _ => Option.some_inj.symm)

@[simp] theorem readWord_short {w next : BitVec 32} (h : fld w 0 1 = 0#1) : readWord w next = decodeShort w := by
  rw [readWord, if_pos h]

theorem readWord_long {w next : BitVec 32} (h : fld w 0 1 = 1#1) : readWord w next = decodeLong w next := by
  rw [readWord, if_neg (by rw [h]; decide)]

@[simp] theorem readWord_S {w next : BitVec 32} (h : fld w 0 1 = 1#1) (hcls : fld w 30 2 = 0#2) : readWord w next = decodeS w := by
  rw [readWord_long h, decodeLong, hcls]; rfl

@[simp] theorem readWord_X {w next : BitVec 32} (h : fld w 0 1 = 1#1) (hcls : fld w 30 2 = 3#2) : readWord w next = decodeX w := by
  rw [readWord_long h, decodeLong, hcls]; rfl

/-- The groups of class S that have a table of their own (Tables 5-3 to 5-5, R106, R107). -/
@[simp] theorem decodeS_group {w : BitVec 32} :
    (fld w 24 6 = 0#6 → decodeS w = decodeAlu w) ∧ (fld w 24 6 = 0x0A#6 → decodeS w = decodeFpu w) ∧
      (fld w 24 6 = 0x0C#6 → decodeS w = decodeCsr w) ∧ (fld w 24 6 = 0x1C#6 → decodeS w = decodeAmo w) := by
  refine ⟨?_, ?_, ?_, ?_⟩ <;> intro h <;> rw [decodeS, h] <;> rfl

/-! ### Vector instructions: the literal word is read where the instruction needs it (R100) -/

theorem wf_of_vspec {i : Instr} {t : VSpec} {f : V3} (h : vspec i = some (t, f)) : i.wf = t.ok f := by
  unfold vspec at h
  split at h <;> cases h <;> rfl

theorem literal_of_vspec {i : Instr} {t : VSpec} {f : V3} (h : vspec i = some (t, f)) : i.literal = f.lit := by
  rw [Instr.literal, h]

/-- The checks of a V3 encoding, one by one (R82, R108). -/
theorem VSpec.ok_iff {t : VSpec} {f : V3} : t.ok f = true ↔ t.a.ok t.queue f.a = true ∧ t.b.ok t.queue f.b = true ∧
    t.c.ok t.queue f.c = true ∧ tokOk t.queue f.tok = true ∧ (t.ps = true ∨ f.ps = 0#2) ∧
    (t.needsLit f = true ∨ f.lit = 0#32) := by
  simp [VSpec.ok, and_assoc]

/-- An instruction is the same with its literal word and without, where it does not need one. -/
theorem literal_choice {t : VSpec} {f : V3} (h : t.ok f = true) (C : V3 → Instr) :
    (if t.needsLit { f with lit := 0#32 } = true then some (C f) else some (C { f with lit := 0#32 })) = some (C f) := by
  obtain ⟨-, -, -, -, -, hlit⟩ := VSpec.ok_iff.mp h
  change (if t.needsLit f = true then _ else _) = _
  split
  · rfl
  · next hno => rw [← hlit.resolve_left hno]

section
variable {op : BitVec 5} {f : V3} {C : V3 → Instr} {t : VSpec} (hspec : ∀ g, vspec (C g) = some (t, g)) (hwf : (C f).WellFormed)
include hspec hwf

theorem readWord_VA (hdec : ∀ lit, decodeVA (encV3 1 op f) lit = C { f with lit := lit }) :
    readWord (encV3 1 op f) (C f).literal = some (C f) := by
  obtain ⟨hlong, hcls, -, -⟩ := encV3_fields 1 op f
  rw [readWord_long hlong, decodeLong, hcls, literal_of_vspec (hspec f)]
  simp only [hdec, hspec]
  exact literal_choice ((wf_of_vspec (hspec f)).symm.trans hwf) C

theorem readWord_VM (hdec : ∀ lit, decodeVM (encV3 2 op f) lit = some (C { f with lit := lit })) :
    readWord (encV3 2 op f) (C f).literal = some (C f) := by
  obtain ⟨hlong, hcls, -, -⟩ := encV3_fields 2 op f
  rw [readWord_long hlong, decodeLong, hcls, literal_of_vspec (hspec f)]
  simp only [hdec, hspec]
  exact literal_choice ((wf_of_vspec (hspec f)).symm.trans hwf) C

end

/-- CBADV's third field tells its two forms apart (R167). -/
theorem cbadv_field {f : V3} :
    ((Instr.cbadvRptr f).WellFormed → f.c = 0#6) ∧ ((Instr.cbadvWptr f).WellFormed → f.c ≠ 0#6) := by
  constructor
  · intro h
    obtain ⟨-, -, hc, -⟩ := VSpec.ok_iff.mp (show specCbadvRptr.ok f = true from h)
    have hle : f.c.toNat ≤ 0 := by simpa [specCbadvRptr, Role.ok] using hc
    exact BitVec.eq_of_toNat_eq (Nat.le_zero.mp hle)
  · rintro h hzero
    obtain ⟨-, -, hc, -⟩ := VSpec.ok_iff.mp (show specCbadvWptr.ok f = true from h)
    simp [specCbadvWptr, Role.ok, hzero] at hc

/-! ### Every encoding reads as its instruction -/

/-- The rows of Tables 5-6 and 5-7; a word of another class is of another table. -/
theorem readWord_encode_vector {i : Instr} {w : BitVec 32} (hcls : fld w 30 2 = 1#2 ∨ fld w 30 2 = 2#2)
    (hwf : i.WellFormed) (h : encodeTollum i = some w) : readWord w i.literal = some i := by
  cases i with
  | vadd | vsub | vmul | vmad | vfma | vmadk | vmads | vadds | vmuls | vmin | vmax | vand | vor | vxor | vshl | vshr | vfsh | vceq
  | vclt | vcle | vsel | vcvt | vred | vscan | vperm | vslide | vsfu | vbits | vcbx | vqnt | vmov | vun =>
    cases h
    exact readWord_VA (fun _ => rfl) hwf fun lit => by simp [decodeVA]
  | vld | vst | vlds | vstm | vldx | vstx | vldc | vstc | spush | spop | sbal | pset | pand | por | pxor | pnot | pcnt | vbcast
  | vextr | vins | vpark | vunpark | vldb | vldst | vstst =>
    cases h
    exact readWord_VM (fun _ => rfl) hwf fun lit => by simp [decodeVM]
  | cbadvRptr =>
    cases h
    exact readWord_VM (fun _ => rfl) hwf fun lit => by simp [decodeVM, cbadv_field.1 hwf]
  | cbadvWptr =>
    cases h
    exact readWord_VM (fun _ => rfl) hwf fun lit => by simp [decodeVM, cbadv_field.2 hwf]
  | _ => cases h <;> simp at hcls

/-- The rows of Table 5-8. -/
theorem readWord_encode_X {i : Instr} {w next : BitVec 32} (hcls : fld w 30 2 = 3#2) (h : encodeTollum i = some w) :
    readWord w next = some i := by
  cases i with
  | sems | bari | mcmd | cpyq | mwait | toksend | hops | hopsMd | launch | semw | bariClr | bar | mringCfg | mringPost | kld
  | tokwait | timewait | vdie | cwait | scopenew | cancel | scopewait | tqry | mringStat | timer | banksync | nop | isync | taskend
  | yield | tret | ownf | ownfAuto | stcfg | cbcfg | fence | lfence | safept | trap | blk =>
    cases h
    simp [decodeX, wR3, wR2]
  | _ => cases h <;> simp at hcls

/-- The rows of Tables 5-2 to 5-5 and of the CSR and AMO groups (R106, R107): the opcode picks the row, the fields are the operands. -/
theorem readWord_encode_scalar {i : Instr} {w next : BitVec 32} (hcls : fld w 30 2 = 0#2) (h : encodeTollum i = some w) :
    readWord w next = some i := by
  cases i with
  | add | sub | and | or | xor | sll | srl | sra | slt | sltu | min | max | minu | maxu | mul | mulh | mulhu | div | divu | rem
  | remu | clz | ctz | popc | fshr =>
    cases h
    simp [decodeAlu, wR3, wR2]
  | fadd | fsub | fmul | fdiv | fsqrt | fcvtws | fcvtus | fcvtsw | fcvtsu | fmin | fmax | feq | flt | fle | fabs | fneg =>
    cases h
    simp [decodeFpu, wR3, wR2]
  | csrr | csrw | csrs | csrc =>
    cases h
    simp [decodeCsr, wR2]
  | aadd | aswp | acas | aand | aor | axor | amin | amax | aminu | amaxu | afadd | ldaq | strl =>
    cases h
    simp [decodeAmo, wR3, wR2]
  | addi | andi | ori | xori | slti | sltiu | ldb | ldbu | ldh | ldhu | ldw | ldwu | ldd | lds | stb | sth | stw | std | jalr =>
    cases h
    simp [decodeS, wRI]
  | beq | bne | blt | bge | bltu | bgeu =>
    cases h
    simp [decodeS, wRB]
  | slli | srli | srai | vmode | fma | jal | loopr | bp =>
    cases h
    simp [decodeS, wR3, wR2]
  | chkd =>
    cases h
    simpa [decodeS] using fld_append_fld (m := 1) (n := 5) _
  | liu rd imm | fli rd imm =>
    cases h
    obtain hr | hr | hr | hr := bitVec2_cases (fld rd 3 2) <;> simp [decodeS, hr]
  | cMv | cLi | cAddi | cAdd | cSub | cSlli | cLdd | cStd =>
    cases h
    simp [decodeShort]
  | _ => cases h <;> simp at hcls

theorem readWord_encodeTollum {i : Instr} {w : BitVec 32} (hwf : i.WellFormed) (h : encodeTollum i = some w) :
    readWord w i.literal = some i := by
  obtain hcls | hcls | hcls | hcls := bitVec2_cases (fld w 30 2)
  · exact readWord_encode_scalar hcls h
  · exact readWord_encode_vector (.inl hcls) hwf h
  · exact readWord_encode_vector (.inr hcls) hwf h
  · exact readWord_encode_X hcls h

/-! ### Records, commands and packets (Tables 2-3, 5-9 and 5-11) -/

/-- Each sequencer record is read back, as every bit that its row does not name is zero (R33). -/
theorem decodeRecord_encodeRecord {i : Instr} {r : BitVec 256} (h : encodeRecord i = some r) : decodeRecord r = some i := by
  cases i with
  | opr | xfer | ifc | whl | jmp | sync | tnew | tdel | tpin | sigh | cncl | seqEnd =>
    cases h
    simp [decodeRecord]
  | _ => cases h

theorem encMCmd_fields (op : BitVec 8) (m : MCmd) :
    let r := encMCmd op m
    wMCmd r = m ∧ fld r 0 8 = op ∧ fld r 122 6 = 0#6 ∧ fld r 91 5 = 0#5 ∧ fld r 32 16 = 0#16 ∧ fld r 21 3 = 0#3 := by
  simp [encMCmd, wMCmd]

theorem encFPkt_fields (kind : BitVec 8) (p : FPkt) :
    let r := encFPkt kind p
    wFPkt r = p ∧ fld r 0 8 = kind ∧ fld r 36 28 = 0#28 ∧ fld r 13 3 = 0#3 := by
  simp [encFPkt, wFPkt]

theorem decodeCommand_encodeCommand {i : Instr} {r : BitVec 128} (hwf : i.WellFormed) (h : encodeCommand i = some r) :
    decodeCommand r = some i := by
  cases i with
  | mzero m | mma m | mconv m | mout m | macc m =>
    cases h
    simp [decodeCommand, encMCmd_fields, keepWf_eq_some, hwf]
  | _ => cases h

theorem decodePacket_encodePacket {i : Instr} {r : BitVec 512} (hwf : i.WellFormed) (h : encodePacket i = some r) :
    decodePacket r = some i := by
  cases i with
  | flcopy p | flfill p | flred p | flstmp p | flcoll p =>
    cases h
    simp [decodePacket, encFPkt_fields, keepWf_eq_some, hwf]
  | _ => cases h

/-- Settles O57: a word is read through its class and row, a record, a command or a packet through its opcode; the fields put into each are
the fields taken out of it. -/
theorem roundTrip : Obligations.RoundTrip := by
  unfold Obligations.RoundTrip
  intro i hwf
  exact ⟨fun w h => decodeTollum_eq_some.mpr ⟨readWord_encodeTollum hwf h, hwf⟩, fun r h => decodeRecord_encodeRecord h,
    fun r h => decodeCommand_encodeCommand hwf h, fun r h => decodePacket_encodePacket hwf h⟩

/-! ### What the decoders answer is well-formed -/

/-- A sequencer record has no field with a reserved value: its decoder refuses bits only that no row names (R33). -/
theorem wellFormed_of_decodeRecord {r : BitVec 256} {i : Instr} (h : decodeRecord r = some i) : i.WellFormed := by
  unfold decodeRecord at h
  split at h
  case h_1 => cases h; rfl
  case h_13 => cases h
  all_goals
    obtain ⟨-, h⟩ := Option.ite_none_right_eq_some.mp h
    cases h
    rfl

theorem wellFormed_of_decodeCommand {r : BitVec 128} {i : Instr} (h : decodeCommand r = some i) : i.WellFormed := by
  unfold decodeCommand at h
  split at h
  · split at h
    case h_6 => cases h
    all_goals exact (keepWf_eq_some.mp h).2
  · cases h

theorem wellFormed_of_decodePacket {r : BitVec 512} {i : Instr} (h : decodePacket r = some i) : i.WellFormed := by
  unfold decodePacket at h
  split at h
  · split at h
    case h_6 => cases h
    all_goals exact (keepWf_eq_some.mp h).2
  · cases h

/-- Settles O58: words, commands and packets are kept only where well-formed, and every sequencer record is. -/
theorem decodedWellFormed : Obligations.DecodedWellFormed :=
  ⟨fun _ _ _ h => (decodeTollum_eq_some.mp h).2, fun _ _ h => wellFormed_of_decodeRecord h, fun _ _ h => wellFormed_of_decodeCommand h,
    fun _ _ h => wellFormed_of_decodePacket h⟩

/-- The words written out from the tables are the encodings of their instructions, all of them well-formed and without a literal word. -/
theorem encode_encodings :
    ∀ p ∈ Ob.encodings, encodeTollum p.2 = some p.1 ∧ p.2.WellFormed ∧ p.2.literal = 0 := by
  unfold Instr.WellFormed
  decide

/-- Settles O56: each instruction encodes as its word, by evaluation, so the word decodes to it. -/
theorem decodeWords : Obligations.DecodeWords := by
  unfold Obligations.DecodeWords
  intro p hp
  obtain ⟨hword, hwf, hlit⟩ := encode_encodings p hp
  obtain ⟨hdecode, -⟩ := roundTrip p.2 hwf
  exact ⟨hlit ▸ hdecode p.1 hword, hword⟩

end Sys2Proof.Machine

/-! ## A Flume packet at its form, its scope and its not-before time (R359, R76, R116) -/

namespace Sys2Proof.Machine
open Sys2Proof Sys2Proof.Ob

/-! ### The tests of a packet's form -/

theorem exec_packet {p : (FPkt → Instr) × (State → Nat → PRun → FPkt → PTest)} (hp : p ∈ packetForms) (k : FPkt) (s : State) :
    exec (p.1 k) s = packetTests (p.1 k) k p.2 s := by
  simp only [packetForms, List.mem_cons, List.not_mem_nil, or_false] at hp
  obtain rfl | rfl | rfl | rfl | rfl := hp <;> rfl

/-- What becomes of a packet with the answer of the test of its form: only where it passes do its partners' ends matter (R218). -/
def formAnswer (s : State) (q : Nat) (r : PRun) (k : FPkt) : PTest → Out
  | .pass r => match collEnded s q r with
    | some st => .next (endPacket s q r st)
    | none => .next (scopeTime s q r k)
  | .stop st => .next (cutPacket s q r st)
  | .park va => .next (parkPacket s q r va .read)
  | .wait s => .next s
  | .ask va n => .next (s.setRun q { r with host := .sent va n })

/-- A packet that the engine moves at its form meets its scope's state and context, then the test of its form. -/
theorem packetTests_form {s : State} {q : Nat} {r : PRun} (h : engine s q r = true) (i : Instr) (k : FPkt)
    (form : State → Nat → PRun → FPkt → PTest) : packetTests i k form s =
      if (s.scope k.scope.toNat).st = .free ∨ (s.scope k.scope.toNat).ctx ≠ qCtx s q then
        .next (cutPacket s q { r with ins := i } 3)
      else formAnswer s q { r with ins := i } k (form s q { r with ins := i } k) := by
  simp only [engine, Bool.and_eq_true, decide_eq_true_eq] at h
  obtain ⟨⟨⟨⟨hagent, hrun⟩, hphase⟩, hpark⟩, hans⟩ := h
  obtain hhost | ⟨va, n, hhost⟩ := answered_cases hans <;> simp only [packetTests, hagent, hrun, hphase, hpark, hhost] <;> rfl

theorem packetLive_iff {s : State} {q : Nat} {k : FPkt} :
    packetLive s q k = true ↔ (s.scope k.scope.toNat).st = .live ∧ (s.scope k.scope.toNat).ctx = qCtx s q := by
  simp [packetLive]

section
variable {p : (FPkt → Instr) × (State → Nat → PRun → FPkt → PTest)} {k : FPkt} {s : State} {q : Nat} {r r' : PRun}
  (hp : p ∈ packetForms) (hengine : engine s q r = true)
include hp hengine

theorem exec_packet_badScope (hscope : (s.scope k.scope.toNat).st = .free ∨ (s.scope k.scope.toNat).ctx ≠ qCtx s q) :
    exec (p.1 k) s = .next (cutPacket s q { r with ins := p.1 k } 3) := by
  rw [exec_packet hp, packetTests_form hengine, if_pos hscope]

theorem exec_packet_form (hst : (s.scope k.scope.toNat).st ≠ .free) (hctx : (s.scope k.scope.toNat).ctx = qCtx s q) :
    exec (p.1 k) s = formAnswer s q { r with ins := p.1 k } k (p.2 s q { r with ins := p.1 k } k) := by
  rw [exec_packet hp, packetTests_form hengine, if_neg (by simp [hst, hctx])]

theorem exec_packet_passes (hlive : packetLive s q k = true) (hpass : p.2 s q { r with ins := p.1 k } k = .pass r')
    (hended : collEnded s q r' = none) : exec (p.1 k) s = .next (scopeTime s q r' k) := by
  obtain ⟨hst, hctx⟩ := packetLive_iff.mp hlive
  rw [exec_packet_form hp hengine (by rw [hst]; decide) hctx, hpass]
  simp only [formAnswer, hended]

end

/-! ### The not-before time (R76) -/

theorem scopeTime_live {s : State} {q : Nat} {r : PRun} {k : FPkt} (hlive : packetLive s q k = true) (hreset : r.reset = false) :
    scopeTime s q r k = if (s.gtime (qDie s q)).toNat < k.nbt.toNat then s.setRun q { r with phase := .nbt }
      else afterTime s q r k := by
  obtain ⟨hst, -⟩ := packetLive_iff.mp hlive
  simp [scopeTime, hst, hreset]

/-- A packet that passes its form under a LIVE scope waits for its time, or goes on where it has come. -/
theorem exec_packet_time {p : (FPkt → Instr) × (State → Nat → PRun → FPkt → PTest)} (hp : p ∈ packetForms) {k : FPkt}
    {s : State} {q : Nat} {r r' : PRun} (hengine : engine s q r = true) (hlive : packetLive s q k = true)
    (hpass : p.2 s q { r with ins := p.1 k } k = .pass r') (hreset : r'.reset = false) (hended : collEnded s q r' = none) :
    ((s.gtime (qDie s q)).toNat < k.nbt.toNat → exec (p.1 k) s = .next (s.setRun q { r' with phase := .nbt })) ∧
    (k.nbt.toNat ≤ (s.gtime (qDie s q)).toNat → exec (p.1 k) s = .next (afterTime s q r' k)) := by
  rw [exec_packet_passes hp hengine hlive hpass hended, scopeTime_live hlive hreset]
  exact ⟨fun hearly => by rw [if_pos hearly], fun hcome => by rw [if_neg (Nat.not_lt.mpr hcome)]⟩

/-! ### FLSTMP (R116) -/

theorem flstmp_mem_packetForms : (Instr.flstmp, fun _ _ r _ => PTest.pass r) ∈ packetForms := by simp [packetForms]

/-- An FLSTMP has no range to test; where no handle holds it, it ends DONE. -/
theorem afterTime_flstmp {s : State} {q : Nat} {r : PRun} {k : FPkt} (hdc : k.dc = false)
    (htests : tensorTests s q { r with ins := .flstmp k } k = .pass { r with ins := .flstmp k }) :
    afterTime s q { r with ins := .flstmp k } k = endPacket s q { r with ins := .flstmp k, req := none } 1 := by
  simp [afterTime, rangesTest, rangeSides, readSides, writtenSides, htests, hdc]

theorem endPacket_run (s : State) (q : Nat) (r : PRun) (st : BitVec 8) :
    ∃ y, (endPacket s q r st).run q = some y ∧ y.phase = .complete ∧ y.status = st :=
  ⟨_, State.setRun_run_self _ q _, rfl, rfl⟩

theorem exec_flstmp_done {k : FPkt} {s : State} {q : Nat} {r : PRun} (hengine : engine s q r = true) (hreset : r.reset = false)
    (hlive : packetLive s q k = true) (hcome : k.nbt.toNat ≤ (s.gtime (qDie s q)).toNat) (hdc : k.dc = false)
    (htests : tensorTests s q { r with ins := .flstmp k } k = .pass { r with ins := .flstmp k }) :
    ∃ t y, exec (.flstmp k) s = .next t ∧ t.run q = some y ∧ y.phase = .complete ∧ y.status = 1 ∧ t.mem = s.mem := by
  obtain ⟨-, hgoes⟩ := exec_packet_time flstmp_mem_packetForms (r' := { r with ins := .flstmp k }) hengine hlive rfl hreset rfl
  rw [afterTime_flstmp hdc htests] at hgoes
  obtain ⟨y, hrun, hphase, hstatus⟩ := endPacket_run s q { r with ins := .flstmp k, req := none } 1
  exact ⟨_, y, hgoes hcome, hrun, hphase, hstatus, endPacket_keeps State.mem (fun _ _ _ => rfl) (fun _ _ _ => rfl) _ _ _ _⟩

/-- Settles O42: a packet's scope, its form, its partners and its time are met in this order, each answer one equation of the packet's
tests at its form. -/
theorem packetResult : Obligations.PacketResult := by
  unfold Obligations.PacketResult
  refine ⟨fun p hp k s q r r' hengine _ hlive hpass hreset hended => exec_packet_time hp hengine hlive hpass hreset hended,
    fun p hp k s q r hengine hscope => exec_packet_badScope hp hengine hscope, fun p hp k s q r r' st hengine hst hctx => ⟨?_, ?_⟩,
    fun k s q r hengine hreset hlive hcome hdc htests => exec_flstmp_done hengine hreset hlive hcome hdc htests⟩
  · intro hstop
    rw [exec_packet_form hp hengine hst hctx, hstop, formAnswer]
  · intro hpass hended
    rw [exec_packet_form hp hengine hst hctx, hpass]
    simp only [formAnswer, hended]

end Sys2Proof.Machine

/-! ## Circular buffers, conditional streams and load-blocks (R159, R160, R162, R167, R209) -/

namespace Sys2Proof.Machine
open Sys2Proof Sys2Proof.Ob

/-! ### A head whose effect is made -/

/-- A sound head that begins completes with the effect that performing it has (R82). -/
theorem completes_of_performs {i : Instr} {spec : VSpec} {f : V3} (hspec : vspec i = some (spec, f)) {s t : State} {c : Nat}
    {v : VQ} {e : QEntry} (h : begins s c v e = true) (hsound : sound i s e = true) {x : RouteRule}
    {perform : QEntry → State → VOut} (hdone : perform e s = .done t) :
    completes (vexec i spec f x perform s) c v e t := by
  rw [vexec_of_begins hspec h hsound, hdone]
  rfl

/-- The entry that begins is the first its queue holds, which moves, and its pops are there. -/
theorem head_of_begins {s : State} {c : Nat} {v : VQ} {e : QEntry} (h : begins s c v e = true) :
    ((s.th c).q.get v).held.head? = some e ∧ ((s.th c).q.get v).halted = false ∧ e.done = false ∧
      (e.popped = true ∨ (s.th c).q.canPop v e.f.tok = true) := by
  simp only [begins, Bool.and_eq_true, Bool.or_eq_true, decide_eq_true_eq, Bool.not_eq_true'] at h
  obtain ⟨⟨⟨⟨⟨⟨⟨-, hhead⟩, hhalted⟩, hdone⟩, -⟩, -⟩, -⟩, hpop⟩ := h
  exact ⟨hhead, hhalted, hdone, hpop⟩

/-! ### Circular buffers and conditional streams (R159, R160, R167) -/

theorem performCbadv_ready {e : QEntry} {s : State} {c : Nat} (hme : s.me = c) (hready : (s.th c).strm.slotsReady e = true)
    (adv : CBuf → BitVec 16 → CBuf) : performCbadv adv e s = .done (s.setTh c { s.th c with
      strm := (s.th c).strm.setCb e.f.a.toNat (adv ((s.th c).strm.cbAt e.f.a.toNat) (e.f.b.zeroExtend 16)) }) := by
  subst hme
  simp only [performCbadv, hready, Bool.not_true, Bool.false_eq_true, if_false]

/-- What a SPUSH appends: its active elements. -/
theorem performSpush_room {e : QEntry} {s : State} {c : Nat} (hme : s.me = c) {old new : List Byte}
    (hold : (s.th c).strm.cqAt e.f.a.toNat = old)
    (hnew : (activeList e (srcsOf s c e)).flatMap (fun i => leBytes e.et.width (elemOf (srcsOf s c e).b.val.toNat e.et.width i)) = new)
    (hd : (srcsOf s c e).b.d = false) (hroom : old.length + new.length ≤ 1024) :
    performSpush e s = .done (s.setTh c { s.th c with strm := (s.th c).strm.setCq e.f.a.toNat (old ++ new) }) := by
  subst hme
  simp only [performSpush, hold, hnew, hd, Bool.false_eq_true, if_false, if_neg (Nat.not_lt.mpr hroom)]

/-- A SPOP takes whole elements, as many as there are and the vector holds. -/
theorem performSpop_takes {e : QEntry} {s : State} {c : Nat} (hme : s.me = c) {n : Nat}
    (hn : Nat.min (elemCount e.et.width) (((s.th c).strm.cqAt e.f.b.toNat).length / e.et.width) * e.et.width = n) :
    performSpop e s = .done (s.setTh c { s.th c with
      regs := ((s.th c).regs.wrV e.pa { val := BitVec.ofNat 2048 (leNat (((s.th c).strm.cqAt e.f.b.toNat).take n)) }).wrP
        (e.pc.truncate 5) { val := BitVec.ofNat 256 (2 ^ n - 1) }
      strm := (s.th c).strm.setCq e.f.b.toNat (((s.th c).strm.cqAt e.f.b.toNat).drop n) }) := by
  subst hme hn
  rfl

theorem cqAt_setCq_self (r : Streams) {n : Nat} (hn : n < 8) (l : List Byte) : (r.setCq n l).cqAt n = l := by
  simp [Streams.cqAt, Streams.setCq, hn]

/-! ### The chunks of a sequence (R162) -/

theorem length_chunks {n : Nat} {l : List Byte} (h : l.length ≤ 256 * n) : (chunks n l).length = (l.length + 255) / 256 := by
  induction n generalizing l with
  | zero => simp only [chunks, List.length_nil]; omega
  | succ n ih =>
    cases l with
    | nil => rfl
    | cons b bs =>
      rw [chunks, List.isEmpty_cons, if_neg Bool.false_ne_true, List.length_cons, ih (by rw [List.length_drop]; omega),
        List.length_drop]
      simp only [List.length_cons] at h ⊢
      omega

theorem getD_chunks {n : Nat} {l : List Byte} (h : l.length ≤ 256 * n) (j : Nat) :
    (chunks n l).getD j [] = (l.drop (256 * j)).take 256 := by
  induction n generalizing l j with
  | zero =>
    obtain rfl := List.eq_nil_of_length_eq_zero (Nat.le_zero.mp h)
    simp [chunks]
  | succ n ih =>
    cases l with
    | nil => simp [chunks]
    | cons b bs =>
      rw [chunks, List.isEmpty_cons, if_neg Bool.false_ne_true]
      cases j with
      | zero => rfl
      | succ j => rw [List.getD_cons_succ, ih (by rw [List.length_drop]; omega), List.drop_drop, Nat.mul_add_one, Nat.add_comm]

/-- Dealing chunks out gives each participant its share of the sequence. -/
theorem dealt_chunks {n : Nat} {l : List Byte} (h : l.length ≤ 256 * n) (p i : Nat) : dealt p i (chunks n l) = dealTo p i l := by
  simp only [dealt, dealTo, length_chunks h, getD_chunks h]

/-! ### The participants of SBAL (R86, R162) -/

theorem sbalCores_nodup (s : State) (c : Nat) : (sbalCores s c).Nodup := by
  refine List.Nodup.filterMap (fun q r p hq hr => ?_) (by decide)
  simp only [Option.mem_def, Option.ite_none_right_eq_some, Option.some.injEq] at hq hr
  obtain ⟨-, rfl⟩ := hq
  obtain ⟨-, hr⟩ := hr
  omega

theorem sbalCores_length (s : State) (c : Nat) : (sbalCores s c).length ≤ 4 := List.length_filterMap_le _ _

theorem sbalHead_eq_some {s : State} {n k c : Nat} {e : QEntry} (h : sbalHead s n k c = some e) :
    (s.th c).q.va.held.head? = some e ∧ (s.th c).strm.sbals.toList.getD n 0 = k := by
  unfold sbalHead at h
  dsimp only at h
  split at h
  · next hheld =>
    split at h
    · split at h
      · next hready =>
        obtain ⟨-, -, -, hcount, -⟩ := hready
        cases h
        exact ⟨by rw [hheld]; rfl, hcount⟩
      · cases h
    · cases h
  · cases h

/-- An SBAL that begins is its core's matching SBAL. -/
theorem sbalHead_of_begins {f : V3} {s : State} {c : Nat} {e : QEntry} (h : begins s c .va e = true) (hins : e.ins = .sbal f)
    (hf : e.f = f) : sbalHead s f.a.toNat ((s.th c).strm.sbals.toList.getD f.a.toNat 0) c = some e := by
  obtain ⟨hhead, hhalted, hdone, hpop⟩ := head_of_begins h
  obtain ⟨r, hheld⟩ := List.head?_eq_some_iff.mp hhead
  rw [hf] at hpop
  simp only [Queues.get] at hheld hhalted
  simp [sbalHead, hheld, hins, hdone, hhalted, hpop]

theorem performSbal_alone {f : V3} {s : State} {c k : Nat} {e : QEntry} (h : begins s c .va e = true) (hins : e.ins = .sbal f)
    (hf : e.f = f) (hk : (s.th c).strm.sbals.toList.getD f.a.toNat 0 = k) (hcores : sbalCores s c = [c]) :
    performSbal e s = .done (s.setTh c { s.th c with
      strm := { (s.th c).strm with sbals := (s.th c).strm.sbals.setIfInBounds f.a.toNat (k + 1) } }) := by
  have hhead := sbalHead_of_begins h hins hf
  obtain rfl := me_of_queue (agent_of_begins h)
  subst hf hk
  simp only [performSbal, hcores, List.all_cons, List.all_nil, hhead, Option.isSome_some, Bool.and_self, List.length_singleton,
    le_refl, if_true]

/-! ### The deal, one participant after another (R162) -/

/-- The turn of participant i at core c: its share, and its head's end where it is not the issuer. -/
def sbalTurn (s : State) (me n p : Nat) (cs : List (List Byte)) (i c : Nat) : State :=
  match (s.th c).q.va.held.head? with
  | some e => if c = me then sbalShare s n p cs i c else completeHead (sbalShare s n p cs i c) c .va e
  | none => sbalShare s n p cs i c

theorem sbalDeal_cons (s : State) (me n p : Nat) (cs : List (List Byte)) (i c : Nat) (rest : List Nat) :
    sbalDeal s me n p cs i (c :: rest) = sbalDeal (sbalTurn s me n p cs i c) me n p cs (i + 1) rest := rfl

theorem completeHead_th_ne (s : State) {c j : Nat} (h : j ≠ c) (v : VQ) (e : QEntry) : (completeHead s c v e).th j = s.th j :=
  State.setTh_th_ne s h _

/-- A head that completes changes its strand's queues, and looks at nothing else. -/
theorem completeHead_th (s u : State) {c : Nat} (h : (u.th c).q = (s.th c).q) (v : VQ) (e : QEntry) :
    (completeHead u c v e).th c = { u.th c with q := ((completeHead s c v e).th c).q } := by
  simp only [completeHead, State.setTh_th_self, h]

section
variable (s : State) (me n p : Nat) (cs : List (List Byte)) (i : Nat)

/-- The strand of a core that has had its turn: the share, the count, and the queues where its head has ended. -/
theorem sbalTurn_th (c : Nat) : ∃ q,
    (sbalTurn s me n p cs i c).th c = { s.th c with
      q := q
      strm := { (s.th c).strm.setCq n (dealt p i cs) with
        sbals := (s.th c).strm.sbals.setIfInBounds n ((s.th c).strm.sbals.toList.getD n 0 + 1) } } ∧
    (c ≠ me → ∀ x, (s.th c).q.va.held.head? = some x → q = ((completeHead s c .va x).th c).q) := by
  unfold sbalTurn
  split
  · next e hhead =>
    split
    · next hc => exact ⟨(s.th c).q, State.setTh_th_self s c _, fun hne => absurd hc hne⟩
    · refine ⟨((completeHead s c .va e).th c).q, ?_, fun _ x hx => by cases hhead.symm.trans hx; rfl⟩
      rw [completeHead_th s _ (by rw [sbalShare, State.setTh_th_self]), sbalShare, State.setTh_th_self]
  · next hhead => exact ⟨(s.th c).q, State.setTh_th_self s c _, fun _ x hx => by cases hhead.symm.trans hx⟩

theorem sbalTurn_th_ne {c j : Nat} (h : j ≠ c) : (sbalTurn s me n p cs i c).th j = s.th j := by
  have hshare : (sbalShare s n p cs i c).th j = s.th j := State.setTh_th_ne s h _
  unfold sbalTurn
  split
  · split
    · exact hshare
    · rw [completeHead_th_ne _ h, hshare]
  · exact hshare

theorem sbalTurn_mem (c : Nat) : (sbalTurn s me n p cs i c).mem = s.mem := by
  unfold sbalTurn
  split <;> [split; skip] <;> rfl

theorem sbalDeal_mem (ps : List Nat) : (sbalDeal s me n p cs i ps).mem = s.mem := by
  induction ps generalizing s i with
  | nil => rfl
  | cons c rest ih => rw [sbalDeal_cons, ih, sbalTurn_mem]

theorem sbalDeal_th_of_not_mem {ps : List Nat} {j : Nat} (h : j ∉ ps) : (sbalDeal s me n p cs i ps).th j = s.th j := by
  induction ps generalizing s i with
  | nil => rfl
  | cons c rest ih =>
    obtain ⟨hne, hrest⟩ := not_or.mp (mt List.mem_cons.mpr h)
    rw [sbalDeal_cons, ih _ _ hrest, sbalTurn_th_ne _ _ _ _ _ _ hne]

end

/-- What the deal makes of participant i at core c (R162). -/
structure Dealt (s t : State) (me n p : Nat) (cs : List (List Byte)) (i c : Nat) : Prop where
  share : (t.th c).strm.cqAt n = dealt p i cs
  count : (t.th c).strm.sbals.toList.getD n 0 = (s.th c).strm.sbals.toList.getD n 0 + 1
  regs : (t.th c).regs = (s.th c).regs
  queues : c ≠ me → ∀ x, (s.th c).q.va.held.head? = some x → (t.th c).q = ((completeHead s c .va x).th c).q

theorem sbalTurn_dealt (s : State) (me : Nat) {n : Nat} (hn : n < 8) (p : Nat) (cs : List (List Byte)) (i c : Nat) :
    Dealt s (sbalTurn s me n p cs i c) me n p cs i c := by
  obtain ⟨q, hth, hq⟩ := sbalTurn_th s me n p cs i c
  refine ⟨?_, ?_, ?_, fun hne x hx => ?_⟩ <;> rw [hth]
  · exact cqAt_setCq_self _ hn _
  · simp [hn]
  · exact hq hne x hx

/-- What a turn makes of a participant speaks of that core's strand alone. -/
theorem Dealt.congr {s s' t t' : State} {me n p : Nat} {cs : List (List Byte)} {i c : Nat} (h : Dealt s t me n p cs i c)
    (hs : s'.th c = s.th c) (ht : t'.th c = t.th c) : Dealt s' t' me n p cs i c := by
  obtain ⟨hshare, hcount, hregs, hqueues⟩ := h
  refine ⟨by rw [ht, hshare], by rw [ht, hs, hcount], by rw [ht, hs, hregs], fun hne x hx => ?_⟩
  rw [ht, completeHead_th s s' (by rw [hs])]
  exact hqueues hne x (hs ▸ hx)

/-- Each participant of a deal has its turn, and no other turn touches it. -/
theorem sbalDeal_dealt {ps : List Nat} (hnodup : ps.Nodup) {me n : Nat} (hn : n < 8) (p : Nat) (cs : List (List Byte)) (s : State)
    (i : Nat) {j c : Nat} (hj : ps[j]? = some c) : Dealt s (sbalDeal s me n p cs i ps) me n p cs (i + j) c := by
  induction ps generalizing s i j with
  | nil => cases hj
  | cons d rest ih =>
    obtain ⟨hd, hrest⟩ := List.nodup_cons.mp hnodup
    rw [sbalDeal_cons]
    cases j with
    | zero =>
      cases hj
      exact (sbalTurn_dealt s me hn p cs i c).congr rfl (sbalDeal_th_of_not_mem _ _ _ _ _ _ hd)
    | succ j =>
      rw [List.getElem?_cons_succ] at hj
      have hne : c ≠ d := fun heq => hd (heq ▸ List.mem_of_getElem? hj)
      rw [show i + (j + 1) = i + 1 + j by omega]
      exact (ih hrest _ _ hj).congr (sbalTurn_th_ne s me n p cs i hne).symm rfl

/-- The buffers of a quad are 4 KiB at most, so that 17 chunks hold them. -/
theorem joined_length {s : State} {c n : Nat} (h : ∀ p ∈ sbalCores s c, ((s.th p).strm.cqAt n).length ≤ 1024) :
    ((sbalCores s c).flatMap (fun p => (s.th p).strm.cqAt n)).length ≤ 256 * 17 := by
  rw [List.length_flatMap]
  have hsum := List.sum_le_card_nsmul ((sbalCores s c).map fun p => ((s.th p).strm.cqAt n).length) 1024 (by simpa using h)
  have hfour := sbalCores_length s c
  simp only [List.length_map, smul_eq_mul] at hsum
  omega

/-- With partners, all at their matching SBAL, each participant is dealt its share of the joined bytes (R162). -/
theorem performSbal_partners {s : State} {c n k : Nat} {e : QEntry} {all : List Byte} (hme : s.me = c) (he : e.f.a.toNat = n)
    (hn : n < 8) (hk : (s.th c).strm.sbals.toList.getD n 0 = k)
    (hall : (sbalCores s c).flatMap (fun p => (s.th p).strm.cqAt n) = all) (hmany : 1 < (sbalCores s c).length)
    (hheads : ∀ p ∈ sbalCores s c, (sbalHead s n k p).isSome = true) : ∃ t, performSbal e s = .done t ∧ t.mem = s.mem ∧
      ∀ i p, (sbalCores s c)[i]? = some p → Dealt s t c n (sbalCores s c).length (chunks 17 all) i p := by
  refine ⟨sbalDeal s c n (sbalCores s c).length (chunks 17 all) 0 (sbalCores s c), ?_, sbalDeal_mem _ _ _ _ _ _ _, fun i p hp => ?_⟩
  · subst hme he hk hall
    simp only [performSbal, if_pos (List.all_eq_true.mpr hheads), if_neg (Nat.not_le.mpr hmany)]
  · have hdealt := sbalDeal_dealt (me := c) (sbalCores_nodup s c) hn (sbalCores s c).length (chunks 17 all) s 0 hp
    rwa [Nat.zero_add] at hdealt

/-! ### Load-blocks (R209) -/

/-- The oldest blocks are evicted first. -/
theorem evict_suffix (cap n : Nat) (bs : List LoadBlock) : evict cap n bs <:+ bs := by
  induction bs with
  | nil => exact List.suffix_rfl
  | cons b bs ih =>
    rw [evict]
    split
    · exact List.suffix_rfl
    · exact ih.trans (List.suffix_cons b bs)

theorem inWindow_below {a : Nat} (h : a < windowBase) : inWindow a = false := by
  unfold windowBase at h
  rw [inWindow, decide_eq_false (by omega), Bool.false_and]

/-- The block that a VLDB makes. -/
def loadBlockOf (e : QEntry) : LoadBlock := { va := e.sb.val, lines := e.f.c.toNat + 1, sem := e.f.a.truncate 5 }

theorem performVldb_places {e : QEntry} {s : State} {c a n : Nat} (hme : s.me = c) (ha : e.sb.val.toNat = a)
    (hn : e.f.c.toNat + 1 = n) (haligned : a % 128 = 0) (hbelow : a + 128 * n ≤ windowBase)
    (hlayer : a / 2 ^ 30 = (a + 128 * n - 1) / 2 ^ 30) : ∃ kept, kept <:+ (s.core c).banks.blocks ∧
      performVldb e s = .done (s.setCore c { s.core c with
        banks := { (s.core c).banks with blocks := kept ++ [loadBlockOf e] } }) := by
  have hfirst : inWindow a = false := inWindow_below (by omega)
  have hlast : inWindow (a + 128 * n - 1) = false := inWindow_below (by omega)
  refine ⟨_, evict_suffix (obufLines (s.core c).banks.roleF) n _, ?_⟩
  subst hme ha hn
  simp only [performVldb, aligned, haligned, hfirst, hlast, hlayer, ne_eq, not_true_eq_false, decide_true, decide_false,
    Bool.not_true, Bool.or_self, Bool.false_eq_true, if_false, loadBlockOf]

/-- Settles O24: each instruction's performance is one equation; the deal of SBAL is a turn of each participant, which no other
turn touches, and its chunks are those of the joined bytes. -/
theorem streamQueueResult : Obligations.StreamQueueResult := by
  refine ⟨?_, ?_, ?_, ?_, ?_, ?_⟩
  · intro f s c e v h hready n b k put
    have hme := me_of_queue (agent_of_begins h)
    exact ⟨fun hsound => completes_of_performs rfl h hsound (performCbadv_ready hme hready CBuf.advRd),
      fun hsound => completes_of_performs rfl h hsound (performCbadv_ready hme hready CBuf.advWr)⟩
  · intro f s c e h hsound x w old new hd hroom
    exact completes_of_performs rfl h hsound (performSpush_room (me_of_queue (agent_of_begins h)) rfl rfl hd hroom)
  · intro f s c e h hsound w old n
    exact completes_of_performs rfl h hsound (performSpop_takes (me_of_queue (agent_of_begins h)) rfl)
  · intro f s c e h hsound hins hf hcores k
    exact completes_of_performs rfl h hsound (performSbal_alone h hins hf rfl hcores)
  · intro f s c e h hsound hins hf hn n k ps all _ hmany hheads
    obtain ⟨t, hdone, hmem, hdealt⟩ := performSbal_partners (me_of_queue (agent_of_begins h))
      (congrArg (fun g : V3 => g.a.toNat) hf) hn rfl rfl hmany fun p hp => (hheads p hp).1
    refine ⟨t, completes_of_performs rfl h hsound hdone, hmem, fun i p hp => ?_⟩
    obtain ⟨hready, -⟩ := hheads p (List.mem_of_getElem? hp)
    obtain ⟨y, hy⟩ := Option.isSome_iff_exists.mp hready
    obtain ⟨-, hold⟩ := sbalHead_eq_some hy
    obtain ⟨hshare, hcount, hregs, hqueues⟩ := hdealt i p hp
    rw [dealt_chunks (joined_length fun p hp => (hheads p hp).2)] at hshare
    exact ⟨hshare, hold ▸ hcount, hregs, fun hne x hx => hqueues hne x (sbalHead_eq_some hx).1⟩
  · intro f s c e v h hsound a n haligned hbelow hlayer
    obtain ⟨kept, hkept, hdone⟩ := performVldb_places (me_of_queue (agent_of_begins h)) rfl rfl haligned hbelow hlayer
    refine ⟨_, kept, completes_of_performs rfl h hsound hdone, rfl, ?_, ?_, hkept⟩
    · rw [State.setCore_th_self]
      rfl
    · rw [State.setCore_core_self]
      rfl

end Sys2Proof.Machine

/-! ## The command ring and the descriptors of streams and buffers (R165, R171, R183, R184, R257) -/

namespace Sys2Proof.Machine
open Sys2Proof Sys2Proof.Ob

/-! ### Answers and tests of the ring's instructions -/

@[simp] theorem setRing_core_self (s : State) (c : Nat) (r : Ring) : (setRing s c r).core c = { s.core c with ring := r } :=
  State.setCore_core_self s c _

@[simp] theorem setRing_mem (s : State) (c : Nat) (r : Ring) : (setRing s c r).mem = s.mem := rfl

/-- Without a ring fault, and with D clear in the operands, an instruction on the ring runs (R189, R289, R306). -/
theorem ringPoint_run {s : State} (h : ringOk s = true) (k : State → Out) : ringPoint s k = k s :=
  if_neg (by simpa [ringOk] using h)

theorem ringPoint_guardD_run {s : State} {rs : List (BitVec 5)} (hok : ringOk s = true) (hd : noD s rs = true) (k : State → Out) :
    ringPoint s (fun s => guardD s rs k) = k s := by rw [ringPoint_run hok, guardD_of_noD hd]

/-- Records that are posted change at most the strand's restart bit (R42). -/
theorem postRestart_cases (s : State) (c i n : Nat) : postRestart s c i n = s ∨
    postRestart s c i n = s.setTh c (clearRestart (s.th c)) := by
  unfold postRestart
  split
  · exact .inl rfl
  · exact .inr rfl

/-- The answer of a posting: rd, with the ring and memory as they stand. -/
theorem result_postRestart (s : State) (c i n : Nat) (rd : BitVec 5) (v : Word) :
    ∃ t, result (postRestart s c i n) c rd v = .next t ∧ t.mem = s.mem ∧ (t.core c).ring = (s.core c).ring ∧
      (rd ≠ 0 → ((t.th c).rdS rd).val = v) := by
  obtain ⟨t, ht, hrd, hmem, -⟩ := result_next (postRestart s c i n) c rd v
  cases ht
  refine ⟨_, rfl, ?_, ?_, hrd⟩ <;> rcases postRestart_cases s c i n with h | h <;> simp [h]

/-! ### MCMD and MRING (R183, R184) -/

theorem exec_mcmd_unconfigured {f : R3} {s : State} (hok : ringOk s = true) (hd : noD s [f.ra, f.rb] = true)
    (hcfg : (s.core s.me).ring.cfg = false) : exec (.mcmd f) s = .next (wrote s f.rd rBaddesc false 2) := by
  change execMcmd f s = _
  rw [execMcmd, ringPoint_guardD_run hok hd]
  simp [hcfg, result, wrote]

theorem exec_mcmd_full {f : R3} {s : State} (hok : ringOk s = true) (hd : noD s [f.ra, f.rb] = true)
    (hcfg : (s.core s.me).ring.cfg = true)
    (hfull : ((s.core s.me).ring.wr - (s.core s.me).ring.rd).toNat = 2 ^ (s.core s.me).ring.logn.toNat) :
    exec (.mcmd f) s = .next (wrote s f.rd rBusy false 2) := by
  change execMcmd f s = _
  rw [execMcmd, ringPoint_guardD_run hok hd]
  simp [hcfg, hfull, result, wrote]

theorem exec_mringStat {rd : BitVec 5} {s : State} (hok : ringOk s = true) : exec (.mringStat rd) s = .next (wrote s rd
    ((s.core s.me).ring.rd.extractLsb' 0 32 ++ (s.core s.me).ring.wr.extractLsb' 0 32) false 2) := by
  change execMringStat rd s = _
  rw [execMringStat, ringPoint_run hok]
  rfl

/-- The record that MCMD posts (R184). -/
def commandWord (f : R3) (s : State) : BitVec 128 := reg s f.rb ++ reg s f.ra

/-- Local order holds the record of an MCMD back behind earlier accesses (R251). -/
def commandLate (s : State) : Bool :=
  heldBack s s.me (s.th s.me).q.seq (slotAddr (ringKey s.me (s.core s.me).ring (s.core s.me).ring.wr.toNat)) 16

/-- What MCMD makes of the ring: the record is posted, and waits where it is late (R184). -/
def postedRing (f : R3) (s : State) : Ring :=
  let r := (s.core s.me).ring
  { r with
    wr := r.wr + 1
    holds := r.holds ++ [{ idx := r.wr.toNat, seq := (s.th s.me).q.seq,
                           late := if commandLate s then some (commandWord f s) else none }] }

/-- What MCMD makes of memory: a record that is not late is written (R184). -/
def postedMem (f : R3) (s : State) : Mem :=
  let r := (s.core s.me).ring
  if commandLate s then s.mem else s.mem.writeNat (ringKey s.me r r.wr.toNat) 16 (commandWord f s).toNat

theorem exec_mcmd_posts {f : R3} {s : State} (hok : ringOk s = true) (hd : noD s [f.ra, f.rb] = true)
    (hcfg : (s.core s.me).ring.cfg = true)
    (hroom : ((s.core s.me).ring.wr - (s.core s.me).ring.rd).toNat ≠ 2 ^ (s.core s.me).ring.logn.toNat) :
    exec (.mcmd f) s = result (postRestart (setRing { s with mem := postedMem f s } s.me (postedRing f s)) s.me
      (s.core s.me).ring.wr.toNat 1) s.me f.rd (s.core s.me).ring.wr := by
  change execMcmd f s = _
  rw [execMcmd, ringPoint_guardD_run hok hd, if_neg (by simp [hcfg]), if_neg hroom]
  have hmem : { s with mem := postedMem f s } = if commandLate s then s else
      { s with mem := s.mem.writeNat (ringKey s.me (s.core s.me).ring (s.core s.me).ring.wr.toNat) 16 (commandWord f s).toNat } := by
    unfold postedMem; split <;> rfl
  rw [hmem]
  rfl

theorem exec_mringCfg {f : R2} {s : State} (hok : ringOk s = true) (hd : noD s [f.ra] = true) (hdrained : ringDrained s s.me = true) :
    exec (.mringCfg f) s = .next (match ringCfg s s.me (reg s f.ra) with
      | none => wrote s f.rd rBaddesc false 2
      | some r => wrote (setRing s s.me r) f.rd (ringWord (s.core s.me).ring) false 2) := by
  change execMringCfg f s = _
  rw [execMringCfg, ringPoint_guardD_run hok hd, if_neg (by simp [hdrained])]
  unfold reg
  cases ringCfg s s.me ((s.th s.me).rdS f.ra).val <;> rfl

theorem exec_mringPost {f : R2} {s : State} (hok : ringOk s = true) (hd : noD s [f.ra] = true) (hdone : accessesDone s s.me = true)
    (hcfg : (s.core s.me).ring.cfg = true) (hlow : (s.core s.me).ring.wr.toNat ≤ (reg s f.ra).toNat)
    (htop : (reg s f.ra).toNat ≤ (s.core s.me).ring.rd.toNat + 2 ^ (s.core s.me).ring.logn.toNat) :
    exec (.mringPost f) s = result (postRestart (setRing s s.me { (s.core s.me).ring with wr := reg s f.ra }) s.me
      (s.core s.me).ring.wr.toNat ((reg s f.ra).toNat - (s.core s.me).ring.wr.toNat)) s.me f.rd (s.core s.me).ring.wr := by
  change execMringPost f s = _
  unfold reg at hlow htop ⊢
  rw [execMringPost, ringPoint_guardD_run hok hd, if_neg (by simp [hcfg, hlow, htop]), if_neg (by simp [hdone])]
  simp

theorem ringResult_holds : ringResult := by
  refine ⟨fun f s hok hd => ⟨fun hcfg => exec_mcmd_unconfigured hok hd hcfg, fun hcfg hfull => exec_mcmd_full hok hd hcfg hfull,
      fun hcfg hroom => ?mcmd⟩,
    fun f s hok hd hdrained => exec_mringCfg hok hd hdrained,
    fun f s hok hd hdone hcfg hlow htop => ?post,
    fun rd s hok => exec_mringStat hok⟩
  case mcmd =>
    rw [exec_mcmd_posts hok hd hcfg hroom]
    obtain ⟨t, ht, hmem, hring, hrd⟩ := result_postRestart (setRing { s with mem := postedMem f s } s.me (postedRing f s)) s.me
      (s.core s.me).ring.wr.toNat 1 f.rd (s.core s.me).ring.wr
    exact ⟨t, ht, hmem, by rw [hring, setRing_core_self]; rfl, hrd⟩
  case post =>
    rw [exec_mringPost hok hd hdone hcfg hlow htop]
    obtain ⟨t, ht, hmem, hring, hrd⟩ := result_postRestart (setRing s s.me { (s.core s.me).ring with wr := reg s f.ra }) s.me
      (s.core s.me).ring.wr.toNat ((reg s f.ra).toNat - (s.core s.me).ring.wr.toNat) f.rd (s.core s.me).ring.wr
    exact ⟨t, ht, by rw [hring, setRing_core_self], hrd, hmem⟩

/-! ### STCFG and CBCFG (R165, R171) -/

/-- Where no queue is to be waited for, none is halted in the way (R295). -/
theorem qfaultFirst_nil (s : State) (c : Nat) (k : State → Out) : qfaultFirst s c [] k = k s := rfl

theorem exec_stcfg {f : R2} {n : BitVec 4} {s : State} {key : Nat} {cls : Option Cls} (hfresh : fresh s = true)
    (hd : noD s [f.ra] = true) (hqueues : (s.th s.me).q.holding (QEntry.namesStream n.toNat) = [])
    (hring : ringNames s s.me (fun _ l => l.contains n) = false) (hread : letThrough s .read false (reg s f.ra) 64 key cls = true) :
    let raw := s.mem.readNat key 64
    let t := s.th s.me
    exec (.stcfg f n) s = .next (if streamBad raw then wrote s f.rd rBaddesc false 2
      else if f.rd ≠ 0 ∧ (5, n.toNat) ∈ t.marks then takeTrap s s.me cEcc 0
      else wrote (s.setTh s.me { t with strm := t.strm.setSt n.toNat (streamOf raw), marks := t.marks.filter (· != (5, n.toNat)) }) f.rd
        ((t.strm.stAt n.toNat).posr ++ (t.strm.stAt n.toNat).posc) false 2) := by
  change execStcfg f n s = _
  rw [execStcfg, hqueues, qfaultFirst_nil, guardD_of_noD hd]
  simp only [hqueues, hring, Bool.false_eq_true, if_false]
  rw [show ((s.th s.me).rdS f.ra).val = reg s f.ra from rfl, coreAccess_of_letThrough hfresh hread]
  simp only [Bool.and_eq_true, decide_eq_true_eq, List.contains_iff_mem]
  split
  · rfl
  · split <;> rfl

theorem exec_cbcfg {f : R2} {n : BitVec 4} {s : State} {key : Nat} {cls : Option Cls} (hfresh : fresh s = true)
    (hd : noD s [f.ra] = true) (hqueues : (s.th s.me).q.holding (QEntry.namesBuf n.toNat) = [])
    (hread : letThrough s .read false (reg s f.ra) 32 key cls = true) :
    let raw := s.mem.readNat key 32
    let t := s.th s.me
    let old := t.strm.cbAt n.toNat
    exec (.cbcfg f n) s = .next (if cbufBad (s.core s.me).banks.roleF raw then wrote s f.rd rBaddesc false 2
      else if f.rd ≠ 0 ∧ (6, n.toNat) ∈ t.marks then takeTrap s s.me cEcc 0
      else wrote (s.tick.2.setTh s.me { t with strm := t.strm.setCb n.toNat (cbufOf raw (s.fresh + 1)),
                                               marks := t.marks.filter (· != (6, n.toNat)) }) f.rd
        (0#32 ++ old.filled ++ old.free) false 2) := by
  change execCbcfg f n s = _
  rw [execCbcfg, hqueues, qfaultFirst_nil, guardD_of_noD hd]
  simp only [hqueues]
  rw [show ((s.th s.me).rdS f.ra).val = reg s f.ra from rfl, coreAccess_of_letThrough hfresh hread]
  cases hbad : cbufBad (s.core s.me).banks.roleF (s.mem.readNat key 32)
  · simp only [Bool.not_false, Bool.and_true, Bool.and_eq_true, decide_eq_true_eq, List.contains_iff_mem, Bool.false_eq_true,
      if_false]
    split <;> rfl
  · simp [result, wrote]

theorem descriptorResult_holds : descriptorResult :=
  ⟨fun _ _ _ _ _ hfresh hd hqueues hring hread => exec_stcfg hfresh hd hqueues hring hread,
    fun _ _ _ _ _ hfresh hd hqueues hread => exec_cbcfg hfresh hd hqueues hread⟩

/-- Settles O30: each instruction's answer is one equation once its tests pass; a posting touches the ring, its record and the
restart bit. -/
theorem ringAndDescriptorResult : Obligations.RingAndDescriptorResult := ⟨ringResult_holds, descriptorResult_holds⟩

end Sys2Proof.Machine

/-! ## Beginning and completion of matrix commands, leases and halving (R179, R182, R186 to R189, R195, R273) -/

namespace Sys2Proof.Machine
open Sys2Proof Sys2Proof.Ob

/-! ### The cores of a quad (R10, R86) -/

/-- The cores that share array a. -/
def quadCores (a : Nat) : List Nat := (List.range 4).map (quadCore a)

theorem quadCore_inj {a q r : Nat} (hq : q < 4) (hr : r < 4) (h : quadCore a q = quadCore a r) : q = r := by
  unfold quadCore at h; omega

theorem quadCores_nodup (a : Nat) : (quadCores a).Nodup :=
  List.Nodup.map_on (fun _ hq _ hr h => quadCore_inj (List.mem_range.mp hq) (List.mem_range.mp hr) h) List.nodup_range

theorem quadCore_mem_quadCores (a : Nat) {q : Nat} (hq : q < 4) : quadCore a q ∈ quadCores a :=
  List.mem_map_of_mem (List.mem_range.mpr hq)

theorem arrayOf_quadCore (a : Nat) {q : Nat} (hq : q < 4) : arrayOf (quadCore a q) = a := by
  have hdie : quadCore a q / 64 = a / 16 := by unfold quadCore; omega
  have hrow : quadCore a q / 16 = a / 16 * 4 + a % 16 / 4 := by unfold quadCore; omega
  have hcol : quadCore a q / 2 % 4 = a % 4 := by unfold quadCore; omega
  rw [arrayOf, hdie, hrow, hcol]; omega

/-- A fold that rewrites each core of a list once rewrites these cores and no other. -/
theorem foldl_setCore_core (f : Core → Core) {cs : List Nat} (h : cs.Nodup) (s : State) (j : Nat) :
    (cs.foldl (fun s c => s.setCore c (f (s.core c))) s).core j = if j ∈ cs then f (s.core j) else s.core j := by
  induction cs generalizing s with
  | nil => rfl
  | cons c cs ih =>
    obtain ⟨hc, hcs⟩ := List.nodup_cons.mp h
    rw [List.foldl_cons, ih hcs]
    by_cases hj : j = c
    · subst hj; simp [hc]
    · simp [hj, State.setCore_core_ne s hj]

/-! ### Halving (R187) -/

/-- A core whose lease charge is shifted right by k places. -/
def Core.chargeShifted (x : Core) (k : Nat) : Core := { x with lease := { x.lease with charge := x.lease.charge >>> k } }

/-- The charges of array a's quad are shifted right by k places. -/
def shiftCharges (s : State) (a k : Nat) : State :=
  (quadCores a).foldl (fun s c => s.setCore c ((s.core c).chargeShifted k)) s

theorem shiftCharges_core (s : State) (a k j : Nat) :
    (shiftCharges s a k).core j = if j ∈ quadCores a then (s.core j).chargeShifted k else s.core j :=
  foldl_setCore_core (fun x => x.chargeShifted k) (quadCores_nodup a) s j

theorem shiftCharges_keeps {γ : Type} (g : State → γ) (hcore : ∀ s c k, g (State.setCore s c k) = g s) (s : State) (a k : Nat) :
    g (shiftCharges s a k) = g s :=
  foldl_keeps g (fun s c => hcore s c _) _ s

/-- The halvings of array a that are due, as one shift of its quad's charges. -/
def shiftDue (s : State) (a : Nat) : Nat := Nat.min (dueHalvings s a) 32

theorem halveDue_eq (s : State) (a : Nat) : halveDue s a = if dueHalvings s a = 0 then s else
    (shiftCharges s a (shiftDue s a)).setArray a { s.array a with halved := (s.array a).halved + dueHalvings s a } := rfl

theorem exec_leaseChargeHalve_due {s : State} {d n : Nat} (h : (s.array (d * 16 + n)).halved < (s.die d).time.gtime.toNat / 16000) :
    exec (.leaseChargeHalve d n) s = .next ((shiftCharges s (d * 16 + n) 1).setArray (d * 16 + n)
      { s.array (d * 16 + n) with halved := (s.array (d * 16 + n)).halved + 1 }) := by
  change execLeaseChargeHalve d n s = _
  rw [execLeaseChargeHalve, if_pos h]
  rfl

/-- Halving touches the leases of cores only. -/
theorem halveDue_core (s : State) (a j : Nat) : ∃ l, (halveDue s a).core j = { s.core j with lease := l } := by
  rw [halveDue_eq]
  split
  · exact ⟨_, rfl⟩
  · rw [State.setArray_at_core, shiftCharges_core]
    split <;> exact ⟨_, rfl⟩

theorem halveDue_mem (s : State) (a : Nat) : (halveDue s a).mem = s.mem := by
  rw [halveDue_eq]
  split
  · rfl
  · exact shiftCharges_keeps State.mem (fun _ _ _ => rfl) s a (shiftDue s a)

/-- After the due halvings a core of the quad has its charge of now (R187). -/
theorem halveDue_charge (s : State) (a : Nat) {q : Nat} (hq : q < 4) :
    ((halveDue s a).core (quadCore a q)).lease.charge = chargeNow s (quadCore a q) := by
  rw [chargeNow, arrayOf_quadCore a hq, halveDue_eq]
  split
  case isTrue h => simp [h]
  case isFalse h =>
    rw [State.setArray_at_core, shiftCharges_core, if_pos (quadCore_mem_quadCores a hq)]
    rfl

/-! ### A command begins (R182, R189, R273) -/

theorem recordNow_congr {s t : State} {c : Nat} (hring : (t.core c).ring = (s.core c).ring) (hmem : t.mem = s.mem) :
    recordNow t c = recordNow s c := by
  unfold recordNow ringRecord
  rw [hring, hmem]

theorem semOf_setSemOf_self (s : State) (c : Nat) {n : Nat} (hn : n < 32) (v : BitVec 16) : semOf (setSemOf s c n v) c n = v := by
  simp [semOf, setSemOf, Streams.semAt, Streams.setSem, List.getD_eq_getElem?_getD, hn]

theorem awaitOf_lt (s : State) (c : Nat) : awaitOf s c < 32 := (wMCmd (recordNow s c)).await.isLt

/-- The AWAIT of core c's command at RD is consumed, unless it was with the command's first request to the host (R189, R273). -/
def awaitTaken (s : State) (c : Nat) : State := if (s.core c).ring.begun.isSome then s else takeAwait s c

theorem awaitTaken_begun {s : State} {c : Nat} (h : (s.core c).ring.begun ≠ none) : awaitTaken s c = s :=
  if_pos (Option.isSome_iff_ne_none.mpr h)

theorem awaitTaken_sem {s : State} {c : Nat} (h : (s.core c).ring.begun = none) (haw : awaitOf s c ≠ 31) :
    semOf (awaitTaken s c) c (awaitOf s c) = semOf s c (awaitOf s c) - 1 := by
  have hnew : awaitTaken s c = setSemOf s c (awaitOf s c) (semOf s c (awaitOf s c) - 1) := by
    simp [awaitTaken, takeAwait, h, haw]
  rw [hnew, semOf_setSemOf_self s c (awaitOf_lt s c)]

/-- Consuming AWAIT touches the strand's semaphores only. -/
theorem awaitTaken_keeps {γ : Type} (g : State → γ) (s : State) (c : Nat)
    (hstrm : ∀ x, g (s.setTh c { s.th c with strm := x }) = g s) : g (awaitTaken s c) = g s := by
  unfold awaitTaken takeAwait
  dsimp only
  split
  · rfl
  · split
    · rfl
    · exact hstrm _

theorem awaitTaken_ring (s : State) (c : Nat) : ((awaitTaken s c).core c).ring = (s.core c).ring :=
  awaitTaken_keeps (fun s => (s.core c).ring) s c (fun _ => by simp)

theorem awaitTaken_lease (s : State) (c : Nat) : ((awaitTaken s c).core c).lease = (s.core c).lease :=
  awaitTaken_keeps (fun s => (s.core c).lease) s c (fun _ => by simp)

theorem awaitTaken_job (s : State) (c : Nat) : ((awaitTaken s c).th c).job = (s.th c).job :=
  awaitTaken_keeps (fun s => (s.th c).job) s c (fun _ => by simp)

theorem awaitTaken_mem (s : State) (c : Nat) : (awaitTaken s c).mem = s.mem := awaitTaken_keeps State.mem s c (fun _ => rfl)

/-! ### The request of a command to the host (R190, R273) -/

theorem askCommand_eq (s : State) (c : Nat) (va : Word) (n : Nat) : askCommand s c va n = setRing (awaitTaken s c) c
    { (s.core c).ring with begun := some (recordNow s c), host := .sent va n } := by
  rw [← awaitTaken_ring s c]; rfl

theorem askCommand_sem (s : State) (c n j : Nat) (va : Word) : semOf (askCommand s c va n) c j = semOf (awaitTaken s c) c j := by
  rw [askCommand_eq, semOf, setRing_at_th, semOf]

/-! ### The effect of a command (R182, R187, R189, R195) -/

/-- The state in which a command has its effect: the due halvings done, its writes' stamps on their way. -/
def effectState (s : State) (a : Nat) (outs : List Nat) : State := outs.foldl (fun s d => sendStamp s (a / 16) d) (halveDue s a)

/-- Stamps change the dies only (R253). -/
theorem effectState_keeps {γ : Type} (g : State → γ) (hdie : ∀ s d x, g (State.setDie s d x) = g s) (s : State) (a : Nat)
    (outs : List Nat) : g (effectState s a outs) = g (halveDue s a) :=
  foldl_keeps g (fun s d => sendStamp_keeps g hdie s (a / 16) d) outs _

theorem effectState_core (s : State) (a : Nat) (outs : List Nat) (c : Nat) : (effectState s a outs).core c = (halveDue s a).core c :=
  effectState_keeps (fun s => s.core c) (fun _ _ _ => rfl) s a outs

theorem effectState_mem (s : State) (a : Nat) (outs : List Nat) : (effectState s a outs).mem = s.mem :=
  (effectState_keeps State.mem (fun _ _ _ => rfl) s a outs).trans (halveDue_mem s a)

theorem effectState_ring (s : State) (a : Nat) (outs : List Nat) (c : Nat) :
    ((effectState s a outs).core c).ring = (s.core c).ring := by
  obtain ⟨l, h⟩ := halveDue_core s a c
  rw [effectState_core, h]

theorem effectState_th (s : State) (a : Nat) (outs : List Nat) (c : Nat) : (effectState s a outs).th c = (s.th c) := by
  obtain ⟨l, h⟩ := halveDue_core s a c
  rw [State.th, effectState_core, h]; rfl

theorem effectState_semOf (s : State) (a : Nat) (outs : List Nat) (c j : Nat) : semOf (effectState s a outs) c j = semOf s c j := by
  rw [semOf, effectState_th, semOf]

theorem effectState_awaitOf (s : State) (a : Nat) (outs : List Nat) (c : Nat) : awaitOf (effectState s a outs) c = awaitOf s c := by
  rw [awaitOf, recordNow_congr (effectState_ring s a outs c) (effectState_mem s a outs), awaitOf]

/-- The state of a command's effect, its AWAIT consumed. -/
def effectAwaited (s : State) (a c : Nat) (e : MEff) : State := awaitTaken (effectState s a e.outs) c

theorem effectAwaited_ring (s : State) (a c : Nat) (e : MEff) : ((effectAwaited s a c e).core c).ring = (s.core c).ring := by
  rw [effectAwaited, awaitTaken_ring, effectState_ring]

theorem effectAwaited_lease (s : State) (a c : Nat) (e : MEff) :
    ((effectAwaited s a c e).core c).lease = ((halveDue s a).core c).lease := by
  rw [effectAwaited, awaitTaken_lease, effectState_core]

/-- A command's charge is added to its core's, up to 2^32 - 1, and shown as the last (R187). -/
def Lease.charged (l : Lease) : Option Nat → Lease
  | none => l
  | some x => { l with last := BitVec.ofNat 32 x, charge := BitVec.ofNat 32 (Nat.min (2 ^ 32 - 1) (l.charge.toNat + x)) }

/-- The ring of a core whose command at RD has its effect (R182). -/
def Ring.passed (r : Ring) : Ring :=
  { r with rd := r.rd + 1, park := .run, holds := r.holds.filter (fun x => x.idx != r.rd.toNat), begun := none, host := .idle }

section
variable (s : State) (a c : Nat) (m : MCmd) (strms : List (BitVec 4)) (e : MEff)

theorem mcmdDone_core : (mcmdDone s a c m strms e).core c = { (effectAwaited s a c e).core c with
    ring := (s.core c).ring.passed, lease := ((halveDue s a).core c).lease.charged e.charge } := by
  rw [← effectAwaited_ring s a c e, ← effectAwaited_lease s a c e]
  exact State.setCore_core_self _ c _

theorem mcmdDone_sem (j : Nat) : semOf (mcmdDone s a c m strms e) c j = semOf (effectAwaited s a c e) c j := by
  rw [semOf, State.th, mcmdDone_core]; rfl

theorem mcmdDone_array : ∃ lease begun, (mcmdDone s a c m strms e).array a = { (effectAwaited s a c e).array a with
      tiles := e.tiles
      exec := some { core := c, osc := (s.th c).job.osc, raise := m.raise, acc := m.acc, strms := strms, word := recordNow s c }
      lease := lease
      begun := begun } ∧
    ((s.core c).ring.rd + 1 = (s.core c).ring.wr → lease = none) := by
  rw [← effectAwaited_ring s a c e, ← effectState_th s a e.outs c, ← awaitTaken_job]
  exact ⟨_, _, State.setArray_array_self _ a _, fun h => if_pos ((Bool.or_eq_true _ _).mpr (.inr (decide_eq_true h)))⟩

end

/-! ### Leases and completion (R179, R188, R189) -/

/-- Pass-over counts touch the cores only. -/
theorem passOver_keeps {γ : Type} (g : State → γ) (hcore : ∀ s c k, g (State.setCore s c k) = g s) (s : State) (a q n : Nat) :
    g (passOver s a q n) = g s := by
  induction n with
  | zero => rfl
  | succ n ih => exact (hcore _ _ _).trans ih

theorem exec_leaseGrant_grants {s : State} {d n q : Nat} (hfree : (s.array (d * 16 + n)).lease = none)
    (hq : grantee s (d * 16 + n) = some q) : exec (.leaseGrant d n) s =
      .next ((passOver s (d * 16 + n) q 4).setArray (d * 16 + n)
        { s.array (d * 16 + n) with lease := some q, begun := 0, lastGrant := q }) := by
  change execLeaseGrant d n s = _
  rw [← passOver_keeps (fun s => s.array (d * 16 + n)) (fun _ _ _ => rfl) s (d * 16 + n) q 4]
  simp [execLeaseGrant, hfree, hq]

theorem exec_matrixCommandComplete {s : State} {d n : Nat} {x : CmdRun} (hx : (s.array (d * 16 + n)).exec = some x) :
    let idle := fun (s : State) => s.setArray (d * 16 + n) { s.array (d * 16 + n) with exec := none }
    exec (.matrixCommandComplete d n) s = .next (if x.raise.toNat = 31 then idle s
      else if semOf s x.core x.raise.toNat = 0xFFFF then s
      else idle (setSemOf s x.core x.raise.toNat (semOf s x.core x.raise.toNat + 1))) := by
  change execMatrixCommandComplete d n s = _
  simp only [execMatrixCommandComplete, hx]
  split
  · rfl
  · split <;> rfl

/-- Settles O39: a command's first move consumes AWAIT and its effect passes RD and adds its charge to the halved one; the events of
leases and completion are one equation each. -/
theorem matrixEvents : Obligations.MatrixEvents := by
  refine ⟨fun s a c m strms e => ?done, fun s c n va => ?asks, fun s a q m strms e x _ hq hx => ?charge, fun d n q s hfree hq => ?grant,
    fun d n s x hx => ?complete, fun d n s hdue _ => ?halve⟩
  case done =>
    obtain ⟨lease, begun, harray, hlease⟩ := mcmdDone_array s a c m strms e
    have hsem := mcmdDone_sem s a c m strms e
    refine ⟨by rw [mcmdDone_core]; rfl, by rw [mcmdDone_core]; rfl, rfl, by rw [harray], by rw [harray], fun hnew haw => ?_,
      fun hbegun j => ?_, fun h => by rw [harray]; exact hlease h⟩
    · rw [← effectState_ring s a e.outs c] at hnew
      rw [← effectState_awaitOf s a e.outs c] at haw ⊢
      rw [hsem, effectAwaited, awaitTaken_sem hnew haw, effectState_semOf]
    · rw [← effectState_ring s a e.outs c] at hbegun
      rw [hsem, effectAwaited, awaitTaken_begun hbegun, effectState_semOf]
  case asks =>
    have hsem := fun j => askCommand_sem s c n j va
    have hring : ((askCommand s c va n).core c).ring = { (s.core c).ring with begun := some (recordNow s c), host := .sent va n } := by
      rw [askCommand_eq, setRing_core_self]
    refine ⟨by rw [hring], by rw [hring], by rw [hring], by rw [askCommand_eq, setRing_mem, awaitTaken_mem],
      fun hnew haw => by rw [hsem, awaitTaken_sem hnew haw], fun hbegun j => by rw [hsem, awaitTaken_begun hbegun]⟩
  case charge =>
    rw [← halveDue_charge s a hq]
    refine ⟨?_, ?_⟩ <;> rw [mcmdDone_core, hx] <;> rfl
  case grant =>
    rw [exec_leaseGrant_grants hfree hq]
    exact ⟨_, rfl, by simp, by simp, by simp, passOver_keeps State.mem (fun _ _ _ => rfl) s _ q 4⟩
  case complete =>
    rw [exec_matrixCommandComplete hx]
    exact ⟨fun h => by rw [if_pos h], fun hne hfull => by rw [if_neg hne, if_pos hfull],
      fun hne hroom => by rw [if_neg hne, if_neg hroom]⟩
  case halve =>
    rw [exec_leaseChargeHalve_due hdue]
    refine ⟨_, rfl, by simp, fun q hq => ?_⟩
    rw [State.setArray_at_core, shiftCharges_core, if_pos (quadCore_mem_quadCores _ hq)]
    rfl

end Sys2Proof.Machine

/-! ## Matrix commands at the head of the ring (R189 to R193, R273) -/

namespace Sys2Proof.Machine
open Sys2Proof Sys2Proof.Ob

/-! ### What reads come to -/

/-- What is made of a value that was read asks the host for what the read asks. -/
@[simp] theorem MRd.bind_ok_value {α β : Type} (x : α) (asks : List Word) (g : α → β) :
    (MRd.ok x asks).bind (fun x => .ok (g x) []) = .ok (g x) asks := by simp [MRd.bind]

/-- A value found without the host goes on. -/
@[simp] theorem MRd.bind_ok_nil {α β : Type} (x : α) (f : α → MRd β) : (MRd.ok x []).bind f = f x := by
  cases h : f x <;> simp [MRd.bind, h]

/-! ### The command at the head of the ring -/

/-- What a command that begins or goes on comes to, after its rules (R189, R190, R273). -/
theorem matrixCommand_runs {m : MCmd} {strms : List (BitVec 4)} {rule : State → Nat → Option (BitVec 8)}
    {body : State → Nat → Nat → MRd MEff} {kind : AccKind} {s : State} {d n q : Nat} {e : MEff} {asks : List Word}
    (h : arrayBegins s d n q m strms = true ∨ arrayGoesOn s d n q m strms = true)
    (hrule : rule s (quadCore (d * 16 + n) q) = none) (hbody : body s (d * 16 + n) (quadCore (d * 16 + n) q) = .ok e asks) :
    matrixCommand m strms rule body kind s = .next (commandAsks s (d * 16 + n) (quadCore (d * 16 + n) q) asks
      (fun s => mcmdDone s (d * 16 + n) (quadCore (d * 16 + n) q) m strms e)) := by
  rcases h with h | h
  · simp only [arrayBegins, Bool.and_eq_true, decide_eq_true_eq, Bool.not_eq_true', Option.isNone_iff_eq_none] at h
    obtain ⟨⟨⟨⟨⟨⟨⟨⟨⟨hagent, hlease⟩, hexec⟩, hnew⟩, heligible⟩, halive⟩, hheld⟩, hbad⟩, hpark⟩, htile⟩ := h
    simp [matrixCommand, hagent, Agent.arrayOf, hlease, hexec, hnew, heligible, halive, hheld, hpark, hbad, htile, hrule, hbody]
  · simp only [arrayGoesOn, Bool.and_eq_true, decide_eq_true_eq, Bool.not_eq_true', Option.isNone_iff_eq_none] at h
    obtain ⟨⟨⟨⟨⟨⟨hagent, hlease⟩, hexec⟩, hbegun⟩, hbad⟩, hpark⟩, htile⟩ := h
    simp [matrixCommand, hagent, Agent.arrayOf, hlease, hexec, hbegun, hpark, hbad, htile, hrule, hbody]

/-- A command that begins and asks the host nothing has its effect. -/
theorem matrixCommand_effect {m : MCmd} {strms : List (BitVec 4)} {rule : State → Nat → Option (BitVec 8)}
    {body : State → Nat → Nat → MRd MEff} {kind : AccKind} {s : State} {d n q : Nat} {e : MEff}
    (h : arrayBegins s d n q m strms = true) (hrule : rule s (quadCore (d * 16 + n) q) = none)
    (hbody : body s (d * 16 + n) (quadCore (d * 16 + n) q) = .ok e []) :
    matrixCommand m strms rule body kind s = .next (mcmdDone s (d * 16 + n) (quadCore (d * 16 + n) q) m strms e) :=
  matrixCommand_runs (.inl h) hrule hbody

theorem commandAsks_nil (s : State) (a c : Nat) (go : State → State) : commandAsks s a c [] go = go s := rfl

theorem commandAsks_first {s : State} {c : Nat} (h : (s.core c).ring.host = .idle) (a : Nat) (va : Word) (vs : List Word)
    (go : State → State) : commandAsks s a c (va :: vs) go = askCommand s c va 0 := by
  simp only [commandAsks, h]

theorem commandAsks_refused {s : State} {c k : Nat} {w : Word} (h : (s.core c).ring.host = .answered w k false) (a : Nat) (va : Word)
    (vs : List Word) (go : State → State) : commandAsks s a c (va :: vs) go = ringStop s a c cPageFault w := by
  simp [commandAsks, h]

theorem commandAsks_next {s : State} {c k : Nat} {w va' : Word} {vs : List Word} (h : (s.core c).ring.host = .answered w k true)
    (hnext : vs[k]? = some va') (a : Nat) (va : Word) (go : State → State) :
    commandAsks s a c (va :: vs) go = askCommand s c va' (k + 1) := by simp [commandAsks, h, hnext]

theorem commandAsks_last {s : State} {c : Nat} {w : Word} {vs : List Word} (h : (s.core c).ring.host = .answered w vs.length true)
    (a : Nat) (va : Word) (go : State → State) : commandAsks s a c (va :: vs) go = go s := by simp [commandAsks, h]

/-! ### MZERO -/

/-- The words of a tile lie within its 16,384. -/
theorem tileKey_mem_tile {t r c : Nat} (hr : r < 128) (hc : c < 128) :
    tileKey t 0 0 ≤ tileKey t r c ∧ tileKey t r c < tileKey t 0 0 + 16384 := by
  unfold tileKey; omega

/-- What MZERO does (R192). -/
def zeroEff (s : State) (a : Nat) (m : MCmd) : MEff :=
  let lo := tileKey m.acc.toNat 0 0
  { tiles := (s.array a).tiles.filter (fun x => !(decide (lo ≤ x.1) && decide (x.1 < lo + 16384))), mem := cleanWords s.mem a lo 128 128 }

theorem zeroEff_tile (s : State) (a : Nat) (m : MCmd) {r c : Nat} (hr : r < 128) (hc : c < 128) :
    smGet 0 (tileKey m.acc.toNat r c) (zeroEff s a m).tiles = 0 := by
  rw [zeroEff, smGet_filter 0 (fun k => !(decide (tileKey m.acc.toNat 0 0 ≤ k) && decide (k < tileKey m.acc.toNat 0 0 + 16384)))]
  exact if_neg (by simp [tileKey_mem_tile hr hc])

theorem exec_mzero {m : MCmd} {s : State} {d n q : Nat} (h : arrayBegins s d n q m [] = true) : exec (.mzero m) s =
    .next (mcmdDone s (d * 16 + n) (quadCore (d * 16 + n) q) m [] (zeroEff s (d * 16 + n) m)) := by
  change execMzero m s = _
  rw [execMzero]
  exact matrixCommand_effect h rfl rfl

/-! ### MOUT -/

theorem outWords_eq_outMem (et : Et) (m : Mem) (xs : List (Nat × Nat)) : outWords et m xs = outMem et m xs := by
  induction xs generalizing m with
  | nil => rfl
  | cons x xs ih => exact ih _

/-- The members of a list with their positions, as pairs in either order. -/
theorem map_zip_range {α β : Type} (f : Nat × α → β) (l : List α) :
    (List.zip (List.range l.length) l).map f = l.zipIdx.map (fun p => f (p.2, p.1)) := by
  rw [List.range_eq_range', ← List.zip_swap, ← List.zipIdx_eq_zip_range', List.map_map]
  rfl

theorem outPairs_eq_wordsAt (g : Sys2Proof.Machine.Array) (t : Nat) (keys : List (List Nat)) :
    outPairs g t keys = wordsAt g t keys := by
  simp only [outPairs, wordsAt, map_zip_range, List.flatMap_def]
  rfl

/-- The places that an MOUT writes, row by row, with what the host is asked (R192, R273). -/
def outPlaces (s : State) (c : Nat) (m : MCmd) : MRd (List (List Nat)) :=
  let x := strA s c m
  MRd.list (fun r => outRow s (whoArray s c) x (Nat.min (m.nm1.toNat + 1) x.ext0.toNat) r) (Nat.min (m.mm1.toNat + 1) x.rows) 0

/-- What an MOUT does at its places (R192). -/
def outEff (s : State) (a c : Nat) (m : MCmd) (keys : List (List Nat)) : MEff :=
  let x := strA s c m
  { tiles := (s.array a).tiles, mem := outMem x.et s.mem (wordsAt (s.array a) m.acc.toNat keys), outs := outDies s (whoArray s c) x keys }

/-- A MOUT whose rules pass has its effect once the host is asked what its places ask (R192, R273). -/
theorem exec_mout {m : MCmd} {s : State} {d n q : Nat} {keys : List (List Nat)} {asks : List Word}
    (h : arrayBegins s d n q m [m.sta] = true ∨ arrayGoesOn s d n q m [m.sta] = true) :
    let a := d * 16 + n
    let c := quadCore a q
    let x := strA s c m
    plainRule m s c = none →
    tileEcc s a m.acc.toNat (Nat.min (m.mm1.toNat + 1) x.rows) (Nat.min (m.nm1.toNat + 1) x.ext0.toNat) = false →
    outPlaces s c m = .ok keys asks →
    exec (.mout m) s = .next (commandAsks s a c asks (fun s' => mcmdDone s' a c m [m.sta] (outEff s a c m keys))) := by
  dsimp only [outPlaces]
  intro hrule hecc hkeys
  change execMout m s = _
  rw [execMout]
  refine matrixCommand_runs h hrule ?_
  simp [hecc, hkeys, outEff, outWords_eq_outMem, outPairs_eq_wordsAt]

/-- Settles O38: a command whose rules and reads pass has its effect; a MOUT first asks the host for each of its HOST-U places. -/
theorem matrixResult : Obligations.MatrixResult := by
  refine ⟨fun m s d n q h => ?zero, fun m s d n q rows brows scales h => ?mma, fun m s d n q rows brows h => ?mconv,
    fun m s d n q h => ?begins, fun m s d n q keys va w vs k ok h => ?goesOn⟩
  case zero => exact ⟨_, exec_mzero h, rfl, rfl, fun r c hr hc => zeroEff_tile s _ m hr hc⟩
  case mma =>
    dsimp only [found]
    intro hrule hecc hrows hbrows hscales
    change execMma m s = _
    rw [execMma]
    refine matrixCommand_effect h hrule ?_
    simp [hecc, hrows, hbrows, hscales, productOf]
  case mconv =>
    dsimp only [found]
    intro hrule hecc hrows hbrows
    change execMconv m s = _
    rw [execMconv]
    refine matrixCommand_effect h hrule ?_
    simp [hecc, hrows, hbrows, productOf]
  case begins =>
    dsimp only [found]
    intro hrule
    refine ⟨fun keys hecc hkeys => ?_, fun keys va vs hecc hkeys hidle => ?_, fun rows hrows => ?macc⟩
    · rw [exec_mout (.inl h) hrule hecc hkeys, commandAsks_nil]; rfl
    · rw [exec_mout (.inl h) hrule hecc hkeys, commandAsks_first hidle]
    case macc =>
      change execMacc m s = _
      rw [execMacc]
      exact matrixCommand_effect h hrule (by simp [hrows])
  case goesOn =>
    intro a c x hrule hecc hkeys hhost
    rw [exec_mout (.inr h) hrule hecc hkeys]
    refine ⟨fun hok hk => ?_, fun va' hok hnext => ?_, fun hok => ?_⟩
    · subst hok hk; rw [commandAsks_last hhost]; rfl
    · subst hok; rw [commandAsks_next hhost hnext]
    · subst hok; rw [commandAsks_refused hhost]; rfl

end Sys2Proof.Machine

/-! ## Owner tiles and bank roles (R203, R207) -/

namespace Sys2Proof.Machine
open Sys2Proof Sys2Proof.Ob

/-! ### OWNF and OWNF.AUTO (R207) -/

/-- Tiles that are all free of their old owners' work change hands, and OWNF.AUTO marks them; that its mark
replaces one still pending is the model's choice (log entry 70). -/
theorem ownf_gives {f : R3} {owner : BitVec 2} {auto : Bool} {s : State} {w : BitVec 1024} (hd : noD s [f.ra, f.rb] = true)
    (hflume : auto = true → owner = 2) (htop : (reg s f.ra).toNat < 2 ^ 21) (hpage : (reg s f.ra).toNat % 4096 = 0)
    (hone : 1 ≤ (reg s f.rb).toNat) (hspan : (reg s f.ra).toNat / 4096 + (reg s f.rb).toNat ≤ 512)
    (hspad : allBetween (bankIsSpad (s.core s.me).banks.roleF) ((reg s f.ra).toNat / 2 ^ 16)
      (((reg s f.ra).toNat + 4096 * (reg s f.rb).toNat - 1) / 2 ^ 16) = true)
    (hdone : accessesDone s s.me = true)
    (htiles : ownTiles s s.me owner ((reg s f.ra).toNat / 4096) (reg s f.rb).toNat (s.core s.me).banks.owners = (w, true)) :
    ownf f owner auto s = .next (wrote (s.setCore s.me { s.core s.me with banks :=
      { (s.core s.me).banks with
        owners := w
        auto := if auto then some ((reg s f.ra).toNat / 4096, (reg s f.rb).toNat) else (s.core s.me).banks.auto } })
      f.rd 0 false 2) := by
  have hauto : (auto && owner != 2#2) = false := by
    cases auto
    · rfl
    · simp [hflume rfl]
  unfold reg at *
  rw [ownf, guardD_of_noD hd, if_neg (by simp only [hauto, hspad]; simp; omega), if_neg (by simp [hdone])]
  simp only [htiles, if_true]
  cases auto <;> rfl

/-- OWNF.AUTO gives tiles to Flume alone. -/
theorem exec_ownfAuto_refused {f : R3} {owner : BitVec 2} {s : State} (hd : noD s [f.ra, f.rb] = true) (howner : owner ≠ 2) :
    exec (.ownfAuto f owner) s = .next (wrote s f.rd rBaddesc false 2) := by
  have hauto : (true && owner != 2#2) = true := by simpa using howner
  change ownf f owner true s = _
  rw [ownf, guardD_of_noD hd, if_pos (by simp [hauto])]
  rfl

/-! ### BANKSYNC (R203) -/

theorem quiet_iff {s : State} : quiet s = true ↔ (s.th s.me).q.haltedQ = none ∧ (s.th s.me).q.busy = false := by
  simp [quiet]

/-- A fence with nothing to wait for goes on at once (R255, R295). -/
theorem fenceWait_run {s : State} (h : quiet s = true) (k : State → Out) : fenceWait s s.me k = k s := by
  obtain ⟨hhalted, hbusy⟩ := quiet_iff.mp h
  simp [fenceWait, emptyQueues, hhalted, hbusy]

/-- Banks that enter the scratchpad role leave the roles and everything of the core but its tiles' owners. -/
theorem freshBank_core (c : Nat) (js : List Nat) (s : State) :
    ∃ w, (freshBank c js s).core c = { s.core c with banks := { (s.core c).banks with owners := w } } := by
  induction js generalizing s with
  | nil => exact ⟨_, rfl⟩
  | cons j js ih =>
    obtain ⟨w, h⟩ := ih _
    exact ⟨w, h.trans (by simp)⟩

/-- A byte that reads as zero still does once banks have entered the scratchpad role. -/
theorem freshBank_keeps_zero {c key : Nat} (js : List Nat) {s : State} (h : s.mem.readByte key = 0) :
    (freshBank c js s).mem.readByte key = 0 := by
  induction js generalizing s with
  | nil => exact h
  | cons j js ih =>
    refine ih ?_
    rw [State.setCore_mem, Mem.readByte_clear]
    split
    · rfl
    · exact h

/-- Every byte of a bank that enters the scratchpad role reads as zero (R203). -/
theorem freshBank_zero {c j k : Nat} {js : List Nat} (s : State) (hj : j ∈ js) (hk : k < 65536) :
    (freshBank c js s).mem.readByte (spadKey c (j * 65536 + k)) = 0 := by
  induction js generalizing s with
  | nil => cases hj
  | cons i js ih =>
    rcases List.mem_cons.mp hj with rfl | hj
    · refine freshBank_keeps_zero js ?_
      rw [State.setCore_mem, Mem.readByte_clear, if_pos (by simp only [spadKey]; omega)]
      rfl
    · exact ih _ hj

/-- Role 0 is the scratchpad's (R201). -/
theorem bankIsSpad_iff {role : BitVec 64} {j : Nat} : bankIsSpad role j = true ↔ role.extractLsb' (2 * j) 2 = 0#2 := by
  rw [bankIsSpad, decide_eq_true_iff, BitVec.toNat_eq, BitVec.extractLsb'_toNat]
  rfl

theorem applyRoles_roleF (s : State) (c : Nat) : ((applyRoles s c).core c).banks.roleF = (s.core c).banks.roleP := by
  obtain ⟨w, h⟩ := freshBank_core c _ _
  exact (congrArg (fun k : Core => k.banks.roleF) h).trans (by simp)

/-- A bank newly in the scratchpad role is zero (R203). -/
theorem applyRoles_zero {s : State} {c j k : Nat} (hj : j < 32) (henters : bankIsSpad (s.core c).banks.roleP j = true)
    (hnew : bankIsSpad (s.core c).banks.roleF j = false) (hk : k < 65536) :
    (applyRoles s c).mem.readByte (spadKey c (j * 65536 + k)) = 0 := by
  rw [← Bool.not_eq_true, bankIsSpad_iff] at hnew
  exact freshBank_zero _ (by simp [hj, bankIsSpad_iff.mp henters, hnew]) hk

theorem exec_banksync {rd : BitVec 5} {s : State} (hquiet : quiet s = true)
    (hfree : (leaving (s.core s.me).banks (fun r => decide (r = 0))).all (fun j => !bankHeld s s.me j) = true) :
    exec (.banksync rd) s = result (applyRoles s s.me) s.me rd (s.core s.me).banks.roleF := by
  have hheld : (leaving (s.core s.me).banks (fun r => decide (r = 0))).any (bankHeld s s.me) = false := by
    simpa using hfree
  obtain ⟨hhalted, -⟩ := quiet_iff.mp hquiet
  change execBanksync rd s = _
  simp only [execBanksync, hhalted, hheld, Bool.false_eq_true, if_false]
  exact fenceWait_run hquiet _

/-- Settles O31: OWNF and OWNF.AUTO by one account of the tiles they give, BANKSYNC by what the entering banks become. -/
theorem tileAndBankResult : Obligations.TileAndBankResult := by
  refine ⟨fun f owner s w hd htop hpage hone hspan hspad hdone htiles => ⟨?own, fun hflume => ?auto⟩,
    fun f owner s hd howner => exec_ownfAuto_refused hd howner, fun rd s hquiet hfree => ?sync⟩
  case own => exact ownf_gives (auto := false) hd (by simp) htop hpage hone hspan hspad hdone htiles
  case auto => exact ownf_gives (auto := true) hd (fun _ => hflume) htop hpage hone hspan hspad hdone htiles
  case sync =>
    rw [exec_banksync hquiet hfree]
    obtain ⟨t, ht, hrd, hmem, -⟩ := result_next (applyRoles s s.me) s.me rd (s.core s.me).banks.roleF
    refine ⟨t, ht, ?_, hrd, fun j hj henters hnew k hk => ?_⟩
    · cases ht
      rw [State.setTh_core_self]
      exact applyRoles_roleF s s.me
    · rw [hmem]
      exact applyRoles_zero hj henters hnew hk

end Sys2Proof.Machine

/-! ## MWAIT (R228, R325) -/

namespace Sys2Proof.Machine
open Sys2Proof Sys2Proof.Ob

/-! ### A read that is let through has met no error (R304) -/

/-- The bytes that a check let through are tested for an uncorrectable error (R304). -/
def Acc.tested (m : Mem) (va : Word) (n : Nat) : Acc → Acc
  | .ok key cls => if m.poisoned key n then .fault cEcc va else .ok key cls
  | r => r

theorem Acc.tested_ok {m : Mem} {va : Word} {n key : Nat} {cls : Option Cls} {r : Acc} (h : r.tested m va n = .ok key cls) :
    r = .ok key cls ∧ m.poisoned key n = false := by
  cases r with
  | ok key' cls' =>
    simp only [Acc.tested] at h
    split at h
    · cases h
    · next hclean => cases h; exact ⟨rfl, by simpa using hclean⟩
  | fault => cases h
  | absent => cases h
  | held => cases h

theorem checkWindow_read (s : State) (w : Who) (a n : Nat) :
    checkWindow s w .read a n = (checkWindow s w .part a n).tested s.mem (BitVec.ofNat 64 a) n := by
  unfold checkWindow
  split
  · rfl
  · simp only [AccKind.meets]
    split_ifs <;> simp_all [Acc.tested]

theorem checkVirtual_read (s : State) (w : Who) (a n : Nat) :
    checkVirtual s w .read a n = (checkVirtual s w .part a n).tested s.mem (BitVec.ofNat 64 a) n := by
  unfold checkVirtual
  rw [show ∀ r : TRes, r.permit .read = r.permit .part from fun r => by cases r <;> rfl]
  split
  case h_5 l hl =>
    simp only [AccKind.meets]
    split
    · rfl
    · split <;> simp [Acc.tested]
  all_goals rfl

/-- A read is an access that tests its bytes for itself, with the test made of them all (R91, R304). -/
theorem checkAccess_read (s : State) (w : Who) (a : Word) (n : Nat) :
    checkAccess s w .read a n = (checkAccess s w .part a n).tested s.mem a n := by
  simp only [checkAccess, checkWindow_read, checkVirtual_read, BitVec.ofNat_toNat, BitVec.setWidth_eq]
  split
  · rfl
  · split
    · rfl
    · split <;> rfl

/-! ### What a re-read finds (R325) -/

/-- The place of a monitored word is still the strand's: no check of the local window refuses it (R206, R325). -/
def monitorHeld (s : State) (c : Nat) (va : Word) : Prop :=
  inWindow va.toNat = true → ∀ cause a, checkAccess s (s.whoThread c) .part va 8 ≠ .fault cause a

theorem mwaitRead_of_held {s : State} {c key : Nat} {va ref : Word} (hheld : monitorHeld s c va)
    (hclean : s.mem.poisoned key 8 = false) : mwaitRead s c va key ref =
      if BitVec.ofNat 64 (s.mem.readNat key 8) = ref then .none else .value (BitVec.ofNat 64 (s.mem.readNat key 8)) := by
  unfold mwaitRead
  simp only [hclean, Bool.false_eq_true, if_false]
  split
  · next cause a hfault =>
    split at hfault
    · next hwin => exact absurd hfault (hheld hwin cause a)
    · cases hfault
  · rfl

theorem mwaitRead_of_fault {s : State} {c key : Nat} {va ref a : Word} {cause : BitVec 8} (hwin : inWindow va.toNat = true)
    (hfault : checkAccess s (s.whoThread c) .part va 8 = .fault cause a) : mwaitRead s c va key ref = .bad cause := by
  simp only [mwaitRead, hwin, if_true, hfault]

/-- What a read that is let through finds of the word. -/
theorem mwaitRead_of_letThrough {s : State} {key : Nat} {cls : Option Cls} {rel : Bool} {va ref : Word}
    (h : letThrough s .read rel va 8 key cls = true) : mwaitRead s s.me va key ref =
      if BitVec.ofNat 64 (s.mem.readNat key 8) = ref then .none else .value (BitVec.ofNat 64 (s.mem.readNat key 8)) := by
  simp only [letThrough, checkAccess_read, Bool.and_eq_true, decide_eq_true_eq] at h
  obtain ⟨⟨⟨⟨-, hcheck⟩, -⟩, -⟩, -⟩ := h
  obtain ⟨hpart, hclean⟩ := Acc.tested_ok hcheck
  exact mwaitRead_of_held (fun _ cause a => by simp [hpart]) hclean

/-! ### MWAIT -/

@[simp] theorem unwait_me (s : State) (c : Nat) : (unwait s c).me = s.me := rfl

@[simp] theorem spendHost_me (s : State) (c : Nat) : (spendHost s c).me = s.me := by
  unfold spendHost; split <;> rfl

theorem spendHost_idle {s : State} {c : Nat} (h : (s.th c).job.host = .idle) : spendHost s c = s := by
  simp only [spendHost, h]

/-- The first move of MWAIT reads the word: it differs, and MWAIT ends, or the monitor is armed (R228). -/
theorem exec_mwait_first {f : R3} {s : State} {key : Nat} {cls : Option Cls} (hfresh : fresh s = true)
    (hd : noD s [f.ra, f.rb] = true) (hread : letThrough s .read false (reg s f.ra) 8 key cls = true) :
    exec (.mwait f) s = if BitVec.ofNat 64 (s.mem.readNat key 8) = reg s f.rb
      then .next (setWait s s.me (.mwait (reg s f.ra) key (reg s f.rb) (cls == some .hostU) (gtimeOf s s.me) .none))
      else mwaitEnd s s.me f.rd (BitVec.ofNat 64 (s.mem.readNat key 8)) := by
  have hwait : (s.th s.me).job.wait = .none := by
    simp only [fresh, freshPoint, Bool.and_eq_true, decide_eq_true_eq] at hfresh
    obtain ⟨⟨hwait, -⟩, -⟩ := hfresh
    exact hwait
  change execMwait f s = _
  simp only [execMwait, hwait, guardD_of_noD hd]
  rw [show ((s.th s.me).rdS f.ra).val = reg s f.ra from rfl, show ((s.th s.me).rdS f.rb).val = reg s f.rb from rfl,
    coreAccess_of_letThrough hfresh hread, mwaitRead_of_letThrough hread]
  by_cases h : BitVec.ofNat 64 (s.mem.readNat key 8) = reg s f.rb <;> simp only [h, if_true, if_false]

/-! A strand that waits at its MWAIT moves by what it sees of the word (R325). -/

section
variable {f : R3} {s : State} {key : Nat} {va ref last : Word} {u : Bool} {hit : Reread}
  (hwait : (s.th s.me).job.wait = .mwait va key ref u last hit)
include hwait

theorem exec_mwait_value {v : Word} (hsees : mwaitSees s s.me va key ref hit = .value v) :
    exec (.mwait f) s = mwaitEnd (spendHost s s.me) s.me f.rd v := by
  change execMwait f s = _
  simp only [execMwait, hwait, hsees]

theorem exec_mwait_bad {cause : BitVec 8} (hsees : mwaitSees s s.me va key ref hit = .bad cause) :
    exec (.mwait f) s = mwaitTrap s s.me cause va := by
  change execMwait f s = _
  simp only [execMwait, hwait, hsees]

theorem exec_mwait_same (hsees : mwaitSees s s.me va key ref hit = .none) (halive : alive s = true) :
    exec (.mwait f) s = .next (setWait (spendHost s s.me) s.me (.mwait va key ref u last .none)) := by
  change execMwait f s = _
  simp only [execMwait, hwait, hsees]
  exact killPoint_run (by simpa [alive] using halive) _

end

theorem mwaitSees_idle {s : State} {c key : Nat} {va ref : Word} (hidle : (s.th c).job.host = .idle)
    (hown : hostWord key = false) : mwaitSees s c va key ref .none = mwaitRead s c va key ref := by
  simp only [mwaitSees, hidle, hown, Bool.false_eq_true, if_false]

theorem mwaitEnd_wrote {s : State} {c : Nat} (hme : s.me = c) (rd : BitVec 5) (v : Word) :
    mwaitEnd s c rd v = .next (wrote (acquireAll (unwait s c) c) rd v false 2) := by
  subst hme
  simp [mwaitEnd, result, wrote]

@[simp] theorem setWait_mem (s : State) (c : Nat) (w : WaitSt) : (setWait s c w).mem = s.mem := rfl

/-- Settles O33: MWAIT's first move, and its moves while its monitor is armed, by what a read of the word finds. -/
theorem monitorWait : Obligations.MonitorWait := by
  refine ⟨fun f s key cls hfresh hd hread => ⟨fun hne => ?ends, fun heq => ?arms⟩,
    fun f s key va ref last v u hwait => ?value,
    fun f s key va ref last u cause hwait => exec_mwait_bad hwait rfl,
    fun f s key va ref last u hwait hidle hown hclean hheld => ⟨fun hne => ?differs, fun heq halive => ?stays⟩,
    fun f s key va ref last a u cause hwait hidle hown hwin hfault => ?taken⟩
  case ends => rw [exec_mwait_first hfresh hd hread, if_neg hne, mwaitEnd_wrote rfl]
  case arms =>
    have hcls : (cls == some .hostU) = false := by
      simp only [letThrough, Bool.and_eq_true, decide_eq_true_eq] at hread
      obtain ⟨⟨⟨-, hcls⟩, -⟩, -⟩ := hread
      simpa using hcls
    rw [exec_mwait_first hfresh hd hread, if_pos heq]
    refine ⟨_, rfl, ?_⟩
    simp [hcls, heq, setWait, gtimeOf, dieOfCore]
  case value =>
    rw [exec_mwait_value hwait rfl, mwaitEnd_wrote (spendHost_me s s.me)]
  case differs =>
    rw [exec_mwait_value hwait (by rw [mwaitSees_idle hidle hown, mwaitRead_of_held hheld hclean, if_neg hne]),
      spendHost_idle hidle, mwaitEnd_wrote rfl]
  case stays =>
    rw [exec_mwait_same hwait (by rw [mwaitSees_idle hidle hown, mwaitRead_of_held hheld hclean, if_pos heq]) halive,
      spendHost_idle hidle]
    exact ⟨_, rfl, by simp [← hwait]⟩
  case taken =>
    exact exec_mwait_bad hwait ((mwaitSees_idle hidle hown).trans (mwaitRead_of_fault hwin hfault))

end Sys2Proof.Machine

/-! ## The Weir: service of requests, ends of frames, moves and probes (R233, R234, R238, R240, R241, R243) -/

namespace Sys2Proof.Machine
open Sys2Proof Sys2Proof.Ob

/-! ### What the Weir's operations leave unchanged -/

/-- An end of waiting changes the requests only (R233, R354). -/
theorem readyReqs_keeps {γ : Type} (g : State → γ) (hreq : ∀ s r x, g (State.setReq s r x) = g s) (s : State) (t : Nat) :
    g (readyReqs s t) = g s := by
  unfold readyReqs
  exact foldl_keeps g (fun s _ => hreq s _ _) _ s

/-- The new address of a tensor is the only field of its record that changes. -/
theorem newLoc_tensor_self {s : State} {t : Nat} {x : Tensor} (h : s.tensor t = some x) :
    ∃ loc, (newLoc s t).tensor t = some { x with loc := loc } := by
  obtain rfl : tensorAt s t = x := by rw [tensorAt, h]; rfl
  exact ⟨_, State.setTensor_tensor_self _ _ _⟩

@[simp] theorem newLoc_mem (s : State) (t : Nat) : (newLoc s t).mem = s.mem := rfl

@[simp] theorem newLoc_at_frame (s : State) (t f : Nat) : (newLoc s t).frame f = s.frame f := rfl

/-! ### The service of a request (R240, R241, R243) -/

section
variable {s : State} {r : Nat} {x : WReq} (hreq : s.req r = some x) (hpending : x.st = .pending) (hfirst : xferBehind s x = false)
  (hfresh : xferStale s x = false) (hlive : scopeDead s (homeDie x.t) x.scope = false) (hwalks : walking (s.launch x.launch) = true)
include hreq hpending hfirst hfresh hlive hwalks

/-- A request that names no tier is ready where the tensor has storage, or is no more (R240). -/
theorem exec_recipeFramePush_present (hst : (tensorAt s x.t).st ≠ .dropped) (hplace : x.place = none) :
    exec (.recipeFramePush r) s = .next (s.setReq r { x with st := .ready }) := by
  change execRecipeFramePush r s = _
  simp only [execRecipeFramePush, hreq, hpending, hfirst, hfresh, hlive, hwalks, hplace, reduceCtorEq, ne_eq, not_true_eq_false,
    Bool.not_true, Bool.false_eq_true, or_self, if_false]
  split
  case h_1 => rfl
  case h_2 hdropped => exact absurd hdropped hst
  case h_3 htier _ _ => cases htier
  case h_4 => rfl

/-- A request for a DROPPED tensor that its own frame does not rebuild asks for a re-issue (R241). -/
theorem exec_recipeFramePush_dropped (hst : (tensorAt s x.t).st = .dropped) (hown : xferOwn s r x = none) :
    exec (.recipeFramePush r) s = .next (serveDropped s r x) := by
  change execRecipeFramePush r s = _
  simp only [execRecipeFramePush, hreq, hpending, hfirst, hfresh, hlive, hwalks, hst, hown, reduceCtorEq, ne_eq, not_true_eq_false,
    Bool.not_true, Bool.false_eq_true, or_self, if_false, Option.getD_none]

end

/-- Below a scope that is CANCELLING a re-issue waits for the token (log entry 69). -/
theorem serveDropped_cancelling {s : State} {x : WReq} (h : (s.scope x.scope.toNat).st = .cancelling) (r : Nat) :
    serveDropped s r x = s := if_pos h

theorem serveDropped_cyclic {s : State} {x : WReq} (hscope : (s.scope x.scope.toNat).st ≠ .cancelling) (hcyclic : cyclic s x = true)
    (r : Nat) : serveDropped s r x = reportReq s r x cRecipeDepth := by
  rw [serveDropped, if_neg hscope, if_pos hcyclic]

theorem serveDropped_deep {s : State} {x : WReq} (hscope : (s.scope x.scope.toNat).st ≠ .cancelling) (hcyclic : cyclic s x = false)
    (hframe : frameFor s x.t = none) (hdeep : weirReg s (tensorAt s x.t).ctx 4 < x.depth + 1) (r : Nat) :
    serveDropped s r x = reportReq s r x cRecipeDepth := by
  simp only [serveDropped, hscope, hcyclic, hframe, hdeep, Option.isSome_none, Bool.false_eq_true, if_false, if_true]

/-! ### The end of a frame (R241, R53) -/

theorem uncancelled_iff {s : State} {n : BitVec 16} :
    uncancelled s n = true ↔ (s.scope n.toNat).st = .live ∨ (s.scope n.toNat).st = .free := by
  simp [uncancelled]

/-- The state in which a frame that ends has gone and its tensor lies in the tier of its storage. -/
def frameEnded (s : State) (f : Nat) (x : Frame) : State :=
  (s.delFrame f).setTensor x.t { tensorAt s x.t with st := x.tier, probe := true }

theorem frameEnded_frame_self (s : State) (f : Nat) (x : Frame) : (frameEnded s f x).frame f = none := smFind_smDel_self _ _

theorem frameEnded_tensor_self (s : State) (f : Nat) (x : Frame) :
    (frameEnded s f x).tensor x.t = some { tensorAt s x.t with st := x.tier, probe := true } := State.setTensor_tensor_self _ _ _

theorem exec_frameComplete {s : State} {f : Nat} {x : Frame} (hframe : s.frame f = some x) (hwalk : x.walk = .ended)
    (hscope : uncancelled s x.scope = true) (hdone : s.work.ops.all (fun o => !(o.2.frame == some f)) = true) :
    exec (.frameComplete f) s = .next (reapScopes (readyReqs (newLoc (frameEnded s f x) x.t) x.t)) := by
  have hops : s.work.ops.any (fun o => o.2.frame == some f) = false := by
    rw [← Bool.not_eq_true', List.not_any_eq_all_not]
    exact hdone
  change execFrameComplete f s = _
  simp only [execFrameComplete, hframe, hwalk, hscope, hops, ne_eq, not_true_eq_false, Bool.not_true, Bool.false_eq_true, or_self,
    if_false]
  rfl

theorem frameComplete_gives {s : State} {f : Nat} {x : Frame} (hframe : s.frame f = some x) (hwalk : x.walk = .ended)
    (hscope : uncancelled s x.scope = true) (hdone : s.work.ops.all (fun o => !(o.2.frame == some f)) = true) :
    ∃ t y, exec (.frameComplete f) s = .next t ∧ t.frame f = none ∧ t.tensor x.t = some y ∧ y.st = x.tier ∧ y.probe = true ∧
      t.mem = s.mem := by
  have hkeeps {γ : Type} (g : State → γ) (hsetScope : ∀ s n x, g (State.setScope s n x) = g s)
      (hsetReq : ∀ s r x, g (State.setReq s r x) = g s) (u : State) : g (reapScopes (readyReqs u x.t)) = g u :=
    (reapScopes_keeps g hsetScope _).trans (readyReqs_keeps g hsetReq u x.t)
  obtain ⟨loc, hrec⟩ := newLoc_tensor_self (frameEnded_tensor_self s f x)
  have htensor := (hkeeps (fun s => s.tensor x.t) (fun _ _ _ => rfl) (fun _ _ _ => rfl) _).trans hrec
  refine ⟨_, _, exec_frameComplete hframe hwalk hscope hdone, ?_, htensor, rfl, rfl, ?_⟩
  · rw [hkeeps (fun s => s.frame f) (fun _ _ _ => rfl) fun _ _ _ => rfl]
    exact frameEnded_frame_self s f x
  · exact hkeeps State.mem (fun _ _ _ => rfl) (fun _ _ _ => rfl) _

/-! ### The service token (R241, R253) -/

theorem exec_requesterRelease {s : State} {r : Nat} {x : WReq} (hreq : s.req r = some x) (hready : x.st = .ready) :
    exec (.requesterRelease r) s = .next (endReq (sendStamp s (homeDie x.t) (askerDie s x)) r x) := by
  change execRequesterRelease r s = _
  simp only [execRequesterRelease, hreq, hready, ne_eq, not_true_eq_false, if_false]

/-- The walker that waited for a request walks on when it ends. -/
theorem endReq_walker {s : State} {r l : Nat} {x : WReq} (hby : x.by_ = .walker l) (hwaits : (s.launch l).walk = .home r) :
    ((endReq s r x).launch l).walk = .run := by
  have hwalk : ((dropReq s r x.t).launch l).walk = .home r := by
    rw [dropReq_keeps (fun s => s.launch l) (fun _ _ _ => rfl) (fun _ _ => rfl), hwaits]
  simp only [endReq, hby, hwalk, if_true, State.setLaunch_launch_self]

theorem requesterRelease_walker {s : State} {r l : Nat} {x : WReq} (hreq : s.req r = some x) (hready : x.st = .ready)
    (hby : x.by_ = .walker l) (hwaits : (s.launch l).walk = .home r) :
    ∃ t, exec (.requesterRelease r) s = .next t ∧ (t.launch l).walk = .run ∧ t.mem = s.mem := by
  refine ⟨_, exec_requesterRelease hreq hready, endReq_walker hby ?_, ?_⟩
  · rw [sendStamp_keeps (fun s => s.launch l) (fun _ _ _ => rfl), hwaits]
  · rw [endReq_keeps State.mem (fun _ _ _ => rfl) (fun _ _ => rfl) (fun _ _ _ => rfl) fun _ _ _ => rfl, sendStamp_mem]

/-! ### The end of a move, and the probe (R234, R358) -/

/-- Pages that a tensor takes in the state to which it moves. -/
def movedPages (s : State) (n : Nat) (d : TSt) : Nat :=
  if d.compressed then (if (tensorAt s n).st.compressed then (tensorAt s n).pages else formPages s n (tensorAt s n))
  else (tensorAt s n).full

/-- The state in which a tensor lies where it moved. -/
def movedState (s : State) (n : Nat) (d : TSt) : State :=
  newLoc (s.setTensor n { tensorAt s n with st := d, move := none, pages := movedPages s n d }) n

theorem movedState_tensor_self (s : State) (n : Nat) (d : TSt) : ∃ loc, (movedState s n d).tensor n =
    some { tensorAt s n with st := d, move := none, pages := movedPages s n d, loc := loc } :=
  newLoc_tensor_self (State.setTensor_tensor_self _ _ _)

theorem exec_victimMoveComplete {s : State} {n : Nat} {d : TSt} (hmove : (tensorAt s n).move = some d)
    (hroom : tierUsed s (homeDie n) (d.tier.getD .cis) false ≤ tierCap s (d.tier.getD .cis)) :
    exec (.victimMoveComplete n) s = .next (readyReqs ((tierDies (movedState s n d) n).foldl
      (fun s die => sendStamp s (homeDie n) die) (movedState s n d)) n) := by
  change execVictimMoveComplete n s = _
  simp only [execVictimMoveComplete, hmove, Nat.not_lt.mpr hroom, if_false]
  rfl

theorem victimMoveComplete_moves {s : State} {n : Nat} {d : TSt} (hmove : (tensorAt s n).move = some d)
    (hroom : tierUsed s (homeDie n) (d.tier.getD .cis) false ≤ tierCap s (d.tier.getD .cis)) :
    ∃ t y, exec (.victimMoveComplete n) s = .next t ∧ t.tensor n = some y ∧ y.st = d ∧ y.move = none := by
  obtain ⟨loc, hrec⟩ := movedState_tensor_self s n d
  have hstamps := foldl_keeps (fun s => s.tensor n)
    (fun s die => sendStamp_keeps (fun s => s.tensor n) (fun _ _ _ => rfl) s (homeDie n) die)
    (tierDies (movedState s n d) n) (movedState s n d)
  exact ⟨_, _, exec_victimMoveComplete hmove hroom,
    ((readyReqs_keeps (fun s => s.tensor n) (fun _ _ _ => rfl) _ n).trans hstamps).trans hrec, rfl, rfl⟩

theorem exec_tensorProbe {s : State} {n : Nat} (hprobe : (tensorAt s n).probe = true) (htier : (tensorAt s n).st.tier ≠ none)
    (hmove : (tensorAt s n).move = none) (hsize : (tensorAt s n).size ≠ 0)
    (hdone : s.work.ops.all (fun o => !(opOuts s o.2).contains n) = true) (hframe : frameFor s n = none) :
    exec (.tensorProbe n) s = .next (s.setTensor n
      { tensorAt s n with cr := BitVec.ofNat 8 (probeCr s n (tensorAt s n)), probe := false }) := by
  have hwriters : s.work.ops.any (fun o => (opOuts s o.2).contains n) = false := by
    rw [← Bool.not_eq_true', List.not_any_eq_all_not]
    exact hdone
  change execTensorProbe n s = _
  simp only [execTensorProbe, hprobe, htier, hmove, hsize, hwriters, hframe, Option.isSome_none, Bool.not_true, Bool.false_eq_true,
    or_self, if_false]

/-- Settles O53: each event of the Weir is one equation once its tests pass; the request's, the record's and the requester's part of
the state it gives are kept by what follows. -/
theorem weirEvents : Obligations.WeirEvents := by
  refine ⟨fun s r x hreq hpending hfirst hfresh hlive hwalks hst hplace =>
      exec_recipeFramePush_present hreq hpending hfirst hfresh hlive hwalks hst hplace,
    fun s r x hreq hpending hfirst hfresh hlive hwalks hst hown => ?dropped,
    fun s f x hframe hwalk hscope hdone => frameComplete_gives hframe hwalk (uncancelled_iff.mpr hscope) hdone,
    fun s r l x hreq hready hby hwaits => requesterRelease_walker hreq hready hby hwaits,
    fun s n d hmove hroom => victimMoveComplete_moves hmove hroom,
    fun s n hprobe htier hmove hsize hdone hframe =>
      ⟨_, _, exec_tensorProbe hprobe htier hmove hsize hdone hframe, State.setTensor_tensor_self _ _ _, rfl, rfl, rfl⟩⟩
  case dropped =>
    have hexec := exec_recipeFramePush_dropped hreq hpending hfirst hfresh hlive hwalks hst hown
    refine ⟨hexec, fun hcancelling => ?_, fun hscope hcyclic => ?_, fun hscope hcyclic hframe hdeep => ?_⟩
    · rw [hexec, serveDropped_cancelling hcancelling]
    · rw [hexec, serveDropped_cyclic hscope hcyclic]
    · rw [hexec, serveDropped_deep hscope hcyclic hframe hdeep]

end Sys2Proof.Machine

/-! ## Barriers: BARI, BARI.CLR and BAR (R258, R259, R260) -/

namespace Sys2Proof.Machine
open Sys2Proof Sys2Proof.Ob

/-! ### Results and stamps -/

/-- The result of an instruction of the strand that moves is a write of rd (R55, R306). -/
theorem result_wrote {s : State} {c : Nat} (hme : s.me = c) (rd : BitVec 5) (v : Word) :
    result s c rd v = .next (wrote s rd v false 2) := by
  subst hme; rfl

/-- An acquire leaves every barrier as it is. -/
@[simp] theorem acquireAll_at_bar (s : State) (c key : Nat) : (acquireAll s c).bar key = s.bar key :=
  takeStamps_keeps (fun s => s.bar key) (fun _ _ _ => rfl) (drainFifo s c) _ _

/-- A stamp on its way leaves every barrier as it is. -/
@[simp] theorem sendStamp_at_bar (s : State) (src dst key : Nat) : (sendStamp s src dst).bar key = s.bar key :=
  sendStamp_keeps (fun s => s.bar key) (fun _ _ _ => rfl) s src dst

/-! ### BARI and BARI.CLR (R259) -/

theorem exec_bari_adds {f : R3} {s : State} {key : Nat} {e : BarEntry} (hd : noD s [f.ra, f.rb] = true)
    (hkey : barKey s s.me (reg s f.ra) = some key) (hentry : bariEntry s s.me (reg s f.rb) = some e)
    (hidle : (s.bar key).pending = false) (hroom : (s.bar key).entries.length < 8)
    (hnew : (s.bar key).entries.all (fun x => x.scope != e.scope) = true) : exec (.bari f) s =
      .next (wrote (s.setBar key { s.bar key with entries := (s.bar key).entries ++ [e] }) f.rd 0 false 2) := by
  have hfirst : (s.bar key).entries.any (fun x => x.scope == e.scope) = false := by
    rw [← Bool.not_eq_true', List.not_any_eq_all_not]
    exact hnew
  change execBari f s = _
  unfold reg at hkey hentry
  rw [execBari, guardD_of_noD hd]
  simp only [hkey, hentry, hidle, hfirst, Nat.not_le.mpr hroom, decide_false, Bool.or_self, Bool.false_eq_true, if_false]
  rfl

theorem exec_bariClr {f : R2} {s : State} {key : Nat} (hd : noD s [f.ra] = true)
    (hkey : barKey s s.me (reg s f.ra) = some key) : exec (.bariClr f) s =
      .next (if (s.bar key).pending then wrote s f.rd rBusy false 2
        else wrote (s.setBar key { s.bar key with entries := [], reduced := false }) f.rd 0 false 2) := by
  change execBariClr f s = _
  unfold reg at hkey
  rw [execBariClr, guardD_of_noD hd]
  simp only [hkey]
  cases (s.bar key).pending <;> rfl

/-! ### The release of a barrier's waiters -/

/-- A map of values that fixes the default maps what is read. -/
theorem smGet_map {α : Type} {d : α} {g : α → α} (hd : g d = d) (k : Nat) (m : SMap α) :
    smGet d k (m.map fun x => (x.1, g x.2)) = g (smGet d k m) := by
  induction m with
  | nil => exact hd.symm
  | cons x m ih =>
    simp only [List.map_cons, smGet, ih]
    split <;> rfl

/-- A core whose strand waits at barrier `key` under a SCOPE that satisfies `p` has its strand released with a word. -/
def releasedCore (key : Nat) (p : BitVec 16 → Bool) (v : Word) (x : Core) : Core :=
  match x.th.job.wait with
  | .bar k sc => if k = key ∧ p sc then { x with th := { x.th with job := { x.th.job with wait := .barDone v } } } else x
  | _ => x

theorem releasedCore_waiting {key : Nat} {p : BitVec 16 → Bool} {v : Word} {x : Core} {sc : BitVec 16}
    (hwait : x.th.job.wait = .bar key sc) (hp : p sc = true) : (releasedCore key p v x).th.job.wait = .barDone v := by
  simp [releasedCore, hwait, hp]

theorem releasedCore_not_waiting {key : Nat} {p : BitVec 16 → Bool} {v : Word} {x : Core}
    (hother : ∀ k sc, x.th.job.wait ≠ .bar k sc) : releasedCore key p v x = x := by
  unfold releasedCore
  split
  · next k sc hwait => exact absurd hwait (hother k sc)
  · rfl

/-- A release acts on each core by itself. -/
theorem releaseBar_at_core (s : State) (key : Nat) (p : BitVec 16 → Bool) (v : Word) (c : Nat) :
    (releaseBar s key p v).core c = releasedCore key p v (s.core c) := by
  rw [State.core, State.core, ← smGet_map (g := releasedCore key p v) rfl]
  refine congrArg (smGet ({} : Core) c) (List.map_congr_left fun x _ => ?_)
  split
  · next k sc hwait =>
    simp only [releasedCore, hwait]
    split <;> rfl
  · next hother => rw [releasedCore_not_waiting hother]

/-! ### The completion of a barrier (R258) -/

theorem completeBar_mem (s : State) (key : Nat) : (completeBar s key).mem = s.mem := by
  simp only [completeBar]
  split <;> rfl

theorem completeBar_bar_self {s : State} {key : Nat} (hall : (s.bar key).complete = true) : (completeBar s key).bar key =
    { s.bar key with phase := (s.bar key).phase + 1, reduced := false,
                     entries := (s.bar key).entries.map (fun e => { e with left := e.count }) } := by
  rw [completeBar, if_pos hall, State.setBar_bar_self]

/-- Completion releases a strand that waits under an entry that is not broken with PHASE + 1 (R260). -/
theorem completeBar_releases {s : State} {key c : Nat} {sc : BitVec 16} (hall : (s.bar key).complete = true)
    (hwait : (s.th c).job.wait = .bar key sc)
    (hwhole : (s.bar key).entries.any (fun e => e.scope == sc && e.broken) = false) :
    ((completeBar s key).th c).job.wait = .barDone (barWord ((s.bar key).phase + 1) false (s.bar key).reduced) := by
  rw [completeBar, if_pos hall, State.setBar_at_th, State.th, releaseBar_at_core]
  exact releasedCore_waiting hwait (by rw [hwhole]; rfl)

/-! ### An arrival (R260) -/

/-- The barrier when a strand has arrived at its entry `e`. -/
def Barrier.arrived (b : Barrier) (e : BarEntry) : Barrier :=
  { b with entries := b.entries.map (fun x => if x.scope = e.scope then { x with left := x.left - 1 } else x) }

/-- The state in which the strand of core c has arrived at entry `e` and waits, before the barrier is tested. -/
def arrivedState (s : State) (c key : Nat) (e : BarEntry) : State :=
  let s := sendStamp s (dieOfCore c) (key / 256)
  setWait (s.setBar key ((s.bar key).arrived e)) c (.bar key e.scope)

@[simp] theorem arrivedState_mem (s : State) (c key : Nat) (e : BarEntry) : (arrivedState s c key e).mem = s.mem :=
  sendStamp_mem s _ _

@[simp] theorem arrivedState_bar_self (s : State) (c key : Nat) (e : BarEntry) :
    (arrivedState s c key e).bar key = (s.bar key).arrived e := by
  rw [← sendStamp_at_bar s (dieOfCore c) (key / 256) key]
  exact State.setBar_bar_self _ key _

theorem arrivedState_waits (s : State) (c key : Nat) (e : BarEntry) :
    ((arrivedState s c key e).th c).job.wait = .bar key e.scope := by
  rw [arrivedState, setWait_th_self]

/-- The arrival that completes the barrier, at an entry that is not broken, goes on with PHASE + 1. -/
theorem arrive_completes {s : State} {c key : Nat} {e : BarEntry} (rd : BitVec 5)
    (hall : ((s.bar key).arrived e).complete = true)
    (hwhole : ((s.bar key).arrived e).entries.any (fun x => x.scope == e.scope && x.broken) = false) :
    arrive s c key e rd = result (acquireAll (unwait (completeBar (arrivedState s c key e) key) c) c) c rd
      (barWord ((s.bar key).phase + 1) false (s.bar key).reduced) := by
  rw [← arrivedState_bar_self s c key e] at hall hwhole
  have hdone := completeBar_releases hall (arrivedState_waits s c key e) hwhole
  rw [arrivedState_bar_self] at hdone
  simp only [arrive]
  split
  · next v hv =>
    cases hv.symm.trans hdone
    rfl
  · next hnot => exact absurd hdone (hnot _)

/-- The state after the arrival that completes the barrier: the barrier's next phase, memory as it was, the word in rd. -/
theorem arrive_completes_state {s : State} {c key : Nat} {e : BarEntry} (rd : BitVec 5)
    (hall : ((s.bar key).arrived e).complete = true)
    (hwhole : ((s.bar key).arrived e).entries.any (fun x => x.scope == e.scope && x.broken) = false) :
    ∃ t, arrive s c key e rd = .next t ∧ t.mem = s.mem ∧
      t.bar key = { s.bar key with phase := (s.bar key).phase + 1, reduced := false,
                                   entries := ((s.bar key).arrived e).entries.map (fun x => { x with left := x.count }) } ∧
      (rd ≠ 0 → ((t.th c).rdS rd).val = barWord ((s.bar key).phase + 1) false (s.bar key).reduced) := by
  rw [← arrivedState_bar_self s c key e] at hall
  have hbar := completeBar_bar_self hall
  rw [arrivedState_bar_self] at hall hbar
  refine ⟨_, arrive_completes rd hall hwhole, ?_, ?_, fun hrd => ?_⟩
  · rw [State.setTh_mem, acquireAll_mem]
    exact (completeBar_mem _ key).trans (arrivedState_mem s c key e)
  · rw [State.setTh_at_bar, acquireAll_at_bar]
    exact hbar
  · rw [State.setTh_th_self, Thread.rdS_advance, Thread.rdS_wrS_self _ hrd]

/-! ### An entry by itself, with one strand to come -/

theorem arrived_entries_of_sole {b : Barrier} {e : BarEntry} (hsole : b.entries = [e]) :
    (b.arrived e).entries = [{ e with left := e.left - 1 }] := by simp [Barrier.arrived, hsole]

theorem arrived_complete_of_sole {b : Barrier} {e : BarEntry} (hsole : b.entries = [e]) (hwhole : e.broken = false)
    (hlast : e.left = 1) : (b.arrived e).complete = true := by
  simp [Barrier.complete, arrived_entries_of_sole hsole, hwhole, hlast]

/-! ### BAR (R260) -/

theorem exec_bar_released {f : R2} {s : State} {v : Word} (hwait : (s.th s.me).job.wait = .barDone v) :
    exec (.bar f) s = .next (wrote (acquireAll (unwait s s.me) s.me) f.rd v false 2) := by
  change execBar f s = _
  simp only [execBar, hwait]
  exact result_wrote (acquireAll_me _ _) f.rd v

/-- A BAR that matches an entry and waits for no access sees its entry after the release. -/
theorem exec_bar_matched {f : R2} {s : State} {key : Nat} {e : BarEntry} (hwait : (s.th s.me).job.wait = .none)
    (hd : noD s [f.ra] = true) (hkey : barKey s s.me (reg s f.ra) = some key)
    (hmatch : (s.bar key).matching s (s.th s.me).job.osc.toNat = some e) (hdone : accessesDone s s.me = true) :
    exec (.bar f) s =
      if e.broken then result (acquireAll (drainFifo s s.me) s.me) s.me f.rd (barWord (s.bar key).phase true true)
      else if e.left = 0 then result (drainFifo s s.me) s.me f.rd rBadbar
      else arrive (drainFifo s s.me) s.me key e f.rd := by
  change execBar f s = _
  unfold reg at hkey
  simp only [execBar, hwait, guardD_of_noD hd, hkey, hmatch, releaseWait_run hdone]

theorem exec_bar_completes {f : R2} {s : State} {key : Nat} {e : BarEntry} (hwait : (s.th s.me).job.wait = .none)
    (hd : noD s [f.ra] = true) (hkey : barKey s s.me (reg s f.ra) = some key) (hsole : (s.bar key).entries = [e])
    (hmatch : (s.bar key).matching s (s.th s.me).job.osc.toNat = some e) (hdone : accessesDone s s.me = true)
    (hwhole : e.broken = false) (hlast : e.left = 1) : ∃ t, exec (.bar f) s = .next t ∧
      (t.bar key).phase = (s.bar key).phase + 1 ∧ (t.bar key).reduced = false ∧
      (t.bar key).entries = [{ e with left := e.count }] ∧ t.mem = s.mem ∧
      (f.rd ≠ 0 → ((t.th s.me).rdS f.rd).val = barWord ((s.bar key).phase + 1) false (s.bar key).reduced) := by
  have hsole' : ((drainFifo s s.me).bar key).entries = [e] := hsole
  have hexec : exec (.bar f) s = arrive (drainFifo s s.me) s.me key e f.rd := by
    rw [exec_bar_matched hwait hd hkey hmatch hdone, if_neg (by simp [hwhole]), if_neg (by simp [hlast])]
  obtain ⟨t, hnext, hmem, hbar, hword⟩ := arrive_completes_state (c := s.me) f.rd
    (arrived_complete_of_sole hsole' hwhole hlast) (by simp [arrived_entries_of_sole hsole', hwhole])
  rw [arrived_entries_of_sole hsole'] at hbar
  exact ⟨t, hexec.trans hnext, by rw [hbar]; rfl, by rw [hbar], by rw [hbar]; rfl, hmem, hword⟩

theorem exec_bar_broken {f : R2} {s : State} {key : Nat} {e : BarEntry} (hwait : (s.th s.me).job.wait = .none)
    (hd : noD s [f.ra] = true) (hkey : barKey s s.me (reg s f.ra) = some key)
    (hmatch : (s.bar key).matching s (s.th s.me).job.osc.toNat = some e) (hdone : accessesDone s s.me = true)
    (hbroken : e.broken = true) : exec (.bar f) s =
      .next (wrote (acquireAll (drainFifo s s.me) s.me) f.rd (barWord (s.bar key).phase true true) false 2) := by
  rw [exec_bar_matched hwait hd hkey hmatch hdone, if_pos hbroken]
  exact result_wrote (acquireAll_me _ _) f.rd _

/-- Settles O28: BARI and BARI.CLR on the unit, and BAR as it is released, completes its barrier, or finds its entry broken. -/
theorem barrierResult : Obligations.BarrierResult :=
  ⟨fun _ _ _ _ hd hkey hentry hidle hroom hnew => exec_bari_adds hd hkey hentry hidle hroom hnew,
    fun _ _ _ hd hkey => exec_bariClr hd hkey,
    fun _ _ _ hwait => exec_bar_released hwait,
    fun _ _ _ _ hwait hd hkey hsole hmatch hdone hwhole hlast =>
      exec_bar_completes hwait hd hkey (of_decide_eq_true hsole) hmatch hdone hwhole hlast,
    fun _ _ _ _ hwait hd hkey hmatch hdone hbroken => exec_bar_broken hwait hd hkey hmatch hdone hbroken⟩

end Sys2Proof.Machine

/-! ## Every step goes on, and keeps memory in its canonical form (O59, O60) -/

namespace Sys2Proof.Machine
open Sys2Proof

/-! ### The form of memory, kept where it is asked for, and the operations of a strand -/

/-- Memory has its canonical form where P holds: one statement both of states that have the form (P true) and of all (P false). -/
def FormIf (P : Prop) (m : Mem) : Prop := P → memWf m

/-- A move goes on, to a state whose memory has its form where P holds. -/
def Safe (P : Prop) (o : Out) : Prop := ∃ t, o = .next t ∧ FormIf P t.mem

/-- The same of the performance of a head: of the state that it hands on. -/
def SafeHead (P : Prop) : VOut → Prop
  | .wait t | .done t => FormIf P t.mem
  | _ => True

section
variable {P : Prop} {m : Mem}
/-- Only the bytes bear on the form. -/
@[simp] theorem formIf_mk (m : Mem) (h p l : List Nat) (sn ow : List (Nat × Agent)) (x : Vector Expander 2) :
    FormIf P ⟨m.bytes, h, p, l, sn, ow, x⟩ ↔ FormIf P m := Iff.rfl

theorem FormIf.imp {m' : Mem} (h : FormIf P m) (hm : memWf m → memWf m') : FormIf P m' := fun p => hm (h p)

@[simp] theorem formIf_writeNat (h : FormIf P m) (k n x : Nat) : FormIf P (m.writeNat k n x) := h.imp (memWf_writeNat n · k x)

@[simp] theorem formIf_setNat (h : FormIf P m) (k n x : Nat) : FormIf P (m.setNat k n x) := h.imp (memWf_setNat n · k x)

@[simp] theorem formIf_writeBytes (h : FormIf P m) (k : Nat) (bs : List Byte) : FormIf P (m.writeBytes k bs) :=
  h.imp (memWf_writeBytes bs · k)

@[simp] theorem formIf_writeKeys (h : FormIf P m) (xs : List (Nat × Byte)) : FormIf P (writeKeys m xs) :=
  h.imp (memWf_writeKeys xs)

@[simp] theorem formIf_outWords (h : FormIf P m) (et : Et) (xs : List (Nat × Nat)) : FormIf P (outWords et m xs) :=
  h.imp (memWf_outWords et xs)

@[simp] theorem formIf_clear (h : FormIf P m) (k n : Nat) : FormIf P (m.clear k n) := h.imp (memWf_clear · k n)

@[simp] theorem formIf_copy (h : FormIf P m) (src dst n : Nat) : FormIf P (m.copy src dst n) := h.imp (memWf_copy · src dst n)

@[simp] theorem formIf_cleanWords (h : FormIf P m) (a k n x : Nat) : FormIf P (cleanWords m a k n x) := by
  simpa [cleanWords] using h

@[simp] theorem formIf_setHead (h : FormIf P m) (k : Nat) (on : Bool) : FormIf P (m.setHead k on) := h

@[simp] theorem formIf_writeFault (h : FormIf P m) (k : Nat) (f : FaultRec) (t : Word) : FormIf P (writeFault m k f t) :=
  h.imp (memWf_foldl _ (fun _ _ hm => memWf_writeNat _ hm _ _) _)

/-- Each step of a fold keeps the form, so the fold does. -/
theorem formIf_foldl {β : Type} {f : State → β → State} (hf : ∀ s x, FormIf P s.mem → FormIf P (f s x).mem) (xs : List β)
    {s : State} (h : FormIf P s.mem) : FormIf P (xs.foldl f s).mem := by
  induction xs generalizing s with
  | nil => exact h
  | cons x xs ih => exact ih (hf _ _ h)

/-- A fold of steps that leave memory as it is does. -/
theorem foldl_mem {β : Type} {f : State → β → State} (hf : ∀ s x, (f s x).mem = s.mem) (xs : List β) (s : State) :
    (xs.foldl f s).mem = s.mem := by
  induction xs generalizing s with
  | nil => rfl
  | cons x xs ih => exact (ih _).trans (hf _ _)

@[simp] theorem safe_next (t : State) : Safe P (.next t) ↔ FormIf P t.mem := by
  constructor
  · rintro ⟨t', ht, h⟩
    cases ht
    exact h
  · exact fun h => ⟨t, rfl, h⟩

@[simp] theorem safe_ite {c : Prop} [Decidable c] (a b : Out) :
    Safe P (if c then a else b) ↔ (c → Safe P a) ∧ (¬c → Safe P b) := by
  split <;> simp [*]

@[simp] theorem formIf_ite {c : Prop} [Decidable c] (s t : State) :
    FormIf P (if c then s else t).mem ↔ (c → FormIf P s.mem) ∧ (¬c → FormIf P t.mem) := by
  split <;> simp [*]

/-- What goes on with memory as it was is safe. -/
theorem safe_of_next {s : State} {o : Out} (h : FormIf P s.mem) (ho : ∃ t, o = .next t ∧ t.mem = s.mem) : Safe P o := by
  obtain ⟨t, rfl, ht⟩ := ho
  simpa [ht] using h

@[simp] theorem safeHead_wait (t : State) : SafeHead P (.wait t) ↔ FormIf P t.mem := Iff.rfl

@[simp] theorem safeHead_done (t : State) : SafeHead P (.done t) ↔ FormIf P t.mem := Iff.rfl

@[simp] theorem safeHead_fault (cause : BitVec 8) (a : Word) : SafeHead P (.fault cause a) ↔ True := Iff.rfl

@[simp] theorem safeHead_park (a : Word) (k : AccKind) : SafeHead P (.park a k) ↔ True := Iff.rfl

@[simp] theorem safeHead_subn (n : Nat) (x : Srcs) : SafeHead P (.subn n x) ↔ True := Iff.rfl

end

/-! ### The shared operations of a strand -/

section
variable {P : Prop} {s : State} (h : FormIf P s.mem)
include h

@[simp] theorem guardD_safe (rs : List (BitVec 5)) {k : State → Out} (hk : Safe P (k s)) : Safe P (guardD s rs k) := by
  rcases guardD_cases s rs k with ⟨n, -, hg⟩ | ⟨-, hg⟩ <;> rw [hg]
  · simpa using h
  · exact hk

@[simp] theorem awaitQueues_safe (c : Nat) (vs : List VQ) (r : Bool) : Safe P (awaitQueues s c vs r) :=
  safe_of_next h (awaitQueues_next s c vs r)

@[simp] theorem heldBy_safe (c : Nat) (vs : List VQ) (r : Bool) : Safe P (heldBy s c vs r) :=
  safe_of_next h (heldBy_next s c vs r)

@[simp] theorem orderWait_safe (c : Nat) (vs : List VQ) : Safe P (orderWait s c vs) := safe_of_next h (orderWait_next s c vs)

@[simp] theorem qfaultFirst_safe (c : Nat) (vs : List VQ) {k : State → Out} (hk : Safe P (k s)) :
    Safe P (qfaultFirst s c vs k) := by
  unfold qfaultFirst
  split
  · simpa using h
  · exact hk

@[simp] theorem waitQueues_safe (c : Nat) (p : QEntry → Bool) {k : State → Out} (hk : Safe P (k s)) :
    Safe P (waitQueues s c p k) := by
  rcases waitQueues_cases s c p k with hw | ⟨-, hw⟩ <;> rw [hw]
  · exact heldBy_safe h c _ _
  · exact hk

@[simp] theorem killPoint_safe (c : Nat) {k : State → Out} (hk : Safe P (k s)) : Safe P (killPoint s c k) := by
  rcases killPoint_cases s c k with ⟨n, -, hg⟩ | ⟨-, hg⟩ <;> rw [hg]
  · simpa using h
  · exact hk

@[simp] theorem releaseWait_safe (c : Nat) {k : State → Out} (hk : Safe P (k (drainFifo s c))) : Safe P (releaseWait s c k) := by
  rcases releaseWait_cases s c k with ⟨-, hg⟩ | ⟨-, hg⟩ <;> rw [hg]
  · exact hk
  · exact orderWait_safe h c _

@[simp] theorem illegal_safe (i : Instr) : Safe P (illegal s i) := by simpa [illegal] using h

@[simp] theorem accessWait_safe (c : Nat) (rel : Bool) (a : Word) (w : Nat) : Safe P (accessWait s c rel a w) :=
  orderWait_safe h c _

end

@[simp] theorem sendSnoop_form {P : Prop} {s : State} (h : FormIf P s.mem) (line : Nat) : FormIf P (sendSnoop s line).mem := by
  simp only [sendSnoop]
  split <;> simpa using h

@[simp] theorem unowe_form {P : Prop} {s : State} (h : FormIf P s.mem) (a : Agent) : FormIf P (s.unowe a).mem := by
  unfold State.unowe
  split <;> simpa using h

/-- The check of an access hands on a state of the same bytes. -/
theorem coreCheck_form {P : Prop} {s : State} (h : FormIf P s.mem) {c : Nat} {k : AccKind} {rel : Bool} {a : Word} {w : Nat}
    {t : State}
    (hc : coreCheck s c k rel a w = .wait t ∨ ∃ key cls, coreCheck s c k rel a w = .ok key cls t) : FormIf P t.mem := by
  rcases hc with hc | ⟨key, cls, hc⟩
  · simp only [coreCheck] at hc
    repeat' split at hc
    all_goals cases hc
    all_goals simp -implicitDefEqProofs [h]
  · rw [coreCheck_ok_mem hc]; exact h

/-- An access of the control core is safe where what follows its check is. -/
@[simp] theorem coreAccess_safe {P : Prop} {s : State} (h : FormIf P s.mem) (c : Nat) (k : AccKind) (rel : Bool) (a : Word)
    (w : Nat)
    {go : Nat → Option Cls → State → Out} (hgo : ∀ key cls t, FormIf P t.mem → Safe P (go key cls t)) :
    Safe P (coreAccess s c k rel a w go) := by
  rcases coreAccess_cases s c k rel a w go with ⟨key, cls, t, hc, ho⟩ | ⟨cause, va, t, ho, ht⟩ | ⟨va, ho⟩ | ⟨t, hc, ho⟩ | ⟨hc, t, ho, ht⟩ | ho
  · rw [ho]; exact hgo key cls t (coreCheck_form h (.inr ⟨key, cls, hc⟩))
  · rw [ho]; simpa [ht] using h
  · rw [ho]; simpa using h
  · rw [ho]; simpa using coreCheck_form h (.inl hc)
  · rw [ho]; simpa [ht] using h
  · rw [ho]; exact killPoint_safe h c (by simpa using h)

/-! ### The state's accessors, access checks and traps -/

@[simp] theorem awaitAccesses_safe {P : Prop} {s : State} (h : FormIf P s.mem) (c : Nat) : Safe P (awaitAccesses s c) := by
  simp -implicitDefEqProofs [awaitAccesses, h]

@[simp] theorem storeOut_form {P : Prop} {s : State} (h : FormIf P s.mem) (c : Nat) (a : Word) (key : Nat) (cls : Option Cls)
    (bs : List Byte) :
    FormIf P (storeOut s c a key cls bs).mem := by
  simp -implicitDefEqProofs [storeOut, h]

@[simp] theorem alu3_safe {P : Prop} {s : State} (h : FormIf P s.mem) (f : R3) (g : Word → Word → Word) :
    Safe P (alu3 f g s) := by
  simp -implicitDefEqProofs [alu3, h]

@[simp] theorem alu2_safe {P : Prop} {s : State} (h : FormIf P s.mem) (n : Nat) (rd ra : BitVec 5) (g : Word → Word) :
    Safe P (alu2 n rd ra g s) := by
  simp -implicitDefEqProofs [alu2, h]

@[simp] theorem aluConst_safe {P : Prop} {s : State} (h : FormIf P s.mem) (rd : BitVec 5) (v : Word) :
    Safe P (aluConst rd v s) := by
  simp -implicitDefEqProofs [aluConst, h]

@[simp] theorem short3_safe {P : Prop} {s : State} (h : FormIf P s.mem) (rd ra rb : BitVec 5) (g : Word → Word → Word) :
    Safe P (short3 rd ra rb g s) := by
  simp -implicitDefEqProofs [short3, h]

@[simp] theorem fpWrite_safe {P : Prop} {s : State} (h : FormIf P s.mem) (rd : BitVec 5) (d : Bool) (r : FRes) :
    Safe P (fpWrite rd d r s) := by
  simp only [fpWrite]
  split <;> simp -implicitDefEqProofs [h]

@[simp] theorem fpu3_safe {P : Prop} {s : State} (h : FormIf P s.mem) (f : R3) (g : Nat → Nat → FRes) : Safe P (fpu3 f g s) := by
  simp -implicitDefEqProofs [fpu3, h]

@[simp] theorem fpu2_safe {P : Prop} {s : State} (h : FormIf P s.mem) (f : R2) (g : Nat → Word × Flags) :
    Safe P (fpu2 f g s) := by
  simp -implicitDefEqProofs [fpu2, h]

@[simp] theorem ordered_mem (s : State) (c : Nat) (order : BitVec 2) : (ordered s c order).mem = s.mem := by
  simp only [ordered]
  (repeat' split) <;> simp

@[simp] theorem amo_safe {P : Prop} {s : State} (h : FormIf P s.mem) (op : AmoOp) (f : R3) (order : BitVec 2) (dbl : Bool) :
    Safe P (amo op f order dbl s) := by
  simp only [amo]
  generalize (if dbl = true then 8 else 4) = w
  refine guardD_safe h _ ?_
  split
  · simpa using h
  · refine coreAccess_safe h _ _ _ _ _ fun key cls t ht => ?_
    split <;> split <;> simp -implicitDefEqProofs [ht]

@[simp] theorem execLdaq_safe {P : Prop} {s : State} (h : FormIf P s.mem) (f : R2) (dbl : Bool) : Safe P (execLdaq f dbl s) := by
  simp only [execLdaq]
  generalize (if dbl = true then 8 else 4) = w
  exact guardD_safe h _ (coreAccess_safe h _ _ _ _ _ fun key cls t ht => by simp -implicitDefEqProofs [ht])

@[simp] theorem execStrl_safe {P : Prop} {s : State} (h : FormIf P s.mem) (ra rb : BitVec 5) (dbl : Bool) :
    Safe P (execStrl ra rb dbl s) := by
  simp only [execStrl]
  generalize (if dbl = true then 8 else 4) = w
  exact guardD_safe h _ (coreAccess_safe h _ _ _ _ _ fun key cls t ht => by simp -implicitDefEqProofs [ht])

@[simp] theorem condBranch_safe {P : Prop} {s : State} (h : FormIf P s.mem) (f : RB) (cond : Word → Word → Bool) :
    Safe P (condBranch f cond s) := by
  simp -implicitDefEqProofs [condBranch, h]

@[simp] theorem chkdBranch_safe {P : Prop} {s : State} (h : FormIf P s.mem) (c : Nat) (d : Bool) (off : BitVec 13) :
    Safe P (chkdBranch s c d off) := by
  simp -implicitDefEqProofs [chkdBranch, h]

@[simp] theorem execChkd_safe {P : Prop} {s : State} (h : FormIf P s.mem) (cls : BitVec 2) (n : BitVec 6) (off : BitVec 13) :
    Safe P (execChkd cls n off s) := by
  simp only [execChkd]
  split <;> simp -implicitDefEqProofs [h]

/-! ### Scalar instructions -/

@[simp] theorem result_safe {P : Prop} {s : State} (h : FormIf P s.mem) (c : Nat) (rd : BitVec 5) (v : Word) :
    Safe P (result s c rd v) := by
  simp -implicitDefEqProofs [result, h]

@[simp] theorem unwait_mem (s : State) (c : Nat) : (unwait s c).mem = s.mem := (rfl)

@[simp] theorem execScopenew_safe {P : Prop} {s : State} (h : FormIf P s.mem) (f : R2) : Safe P (execScopenew f s) := by
  simp only [execScopenew]
  refine guardD_safe h _ ?_
  split
  · simp -implicitDefEqProofs [h]
  · split <;> simp -implicitDefEqProofs [h]

@[simp] theorem execCancel_safe {P : Prop} {s : State} (h : FormIf P s.mem) (f : R2) : Safe P (execCancel f s) := by
  simp only [execCancel]
  split
  · simp -implicitDefEqProofs [h]
  · simpa using h
  · refine guardD_safe h _ ?_
    split
    · simp -implicitDefEqProofs [h]
    · exact releaseWait_safe h _ (by simp -implicitDefEqProofs [h, State.tick])

@[simp] theorem execScopewait_safe {P : Prop} {s : State} (h : FormIf P s.mem) (f : R2) : Safe P (execScopewait f s) := by
  simp only [execScopewait]
  refine guardD_safe h _ ?_
  split <;> simp -implicitDefEqProofs [h]

@[simp] theorem discardLines_mem (s : State) (c : Nat) (p : FetchLine → Bool) : (discardLines s c p).mem = s.mem := by
  simp only [discardLines]
  (repeat' split) <;> simp

@[simp] theorem fetchAhead_mem (s : State) (c line : Nat) (answered : optParam Bool false) :
    (fetchAhead s c line answered).mem = s.mem := by
  unfold fetchAhead
  split <;> simp

@[simp] theorem askCode_mem (s : State) (c : Nat) (va : Word) : (askCode s c va).mem = s.mem := by
  simp only [askCode]
  split <;> simp

@[simp] theorem execIsync_safe {P : Prop} {s : State} (h : FormIf P s.mem) : Safe P (execIsync s) := by
  simp only [execIsync]
  split <;> simp -implicitDefEqProofs [h, foldl_mem]

@[simp] theorem setSemOf_mem (s : State) (c n : Nat) (v : BitVec 16) : (setSemOf s c n v).mem = s.mem := (rfl)

@[simp] theorem execSems_safe {P : Prop} {s : State} (h : FormIf P s.mem) (f : R3) : Safe P (execSems f s) := by
  simp only [execSems]
  refine guardD_safe h _ ?_
  split
  · simp -implicitDefEqProofs [h]
  · split <;> simp -implicitDefEqProofs [h, State.tick]

@[simp] theorem execBari_safe {P : Prop} {s : State} (h : FormIf P s.mem) (f : R3) : Safe P (execBari f s) := by
  simp only [execBari]
  refine guardD_safe h _ ?_
  split <;> simp -implicitDefEqProofs [h]

@[simp] theorem execBariClr_safe {P : Prop} {s : State} (h : FormIf P s.mem) (f : R2) : Safe P (execBariClr f s) := by
  simp only [execBariClr]
  refine guardD_safe h _ ?_
  split <;> simp -implicitDefEqProofs [h]

@[simp] theorem releaseBar_mem (s : State) (key : Nat) (p : BitVec 16 → Bool) (v : Word) : (releaseBar s key p v).mem = s.mem :=
  (rfl)

@[simp] theorem arrive_safe {P : Prop} {s : State} (h : FormIf P s.mem) (c key : Nat) (e : BarEntry) (rd : BitVec 5) :
    Safe P (arrive s c key e rd) := by
  simp only [arrive]
  split <;> simp -implicitDefEqProofs [h, completeBar_mem]

@[simp] theorem execBar_safe {P : Prop} {s : State} (h : FormIf P s.mem) (f : R2) : Safe P (execBar f s) := by
  simp only [execBar]
  split
  · simp -implicitDefEqProofs [h]
  · simp -implicitDefEqProofs [h]
  · refine guardD_safe h _ ?_
    split
    · simp -implicitDefEqProofs [h]
    · split
      · simp -implicitDefEqProofs [h]
      · exact releaseWait_safe h _ (by simp -implicitDefEqProofs [h])

/-- A wait until the queues are empty is QFAULT, or holds, or goes on. -/
theorem emptyQueues_safe {P : Prop} {s : State} (h : FormIf P s.mem) {held : State → Nat → List VQ → Bool → Out} {c : Nat}
    {k : State → Out}
    (hheld : ∀ vs r, Safe P (held s c vs r)) (hk : Safe P (k s)) : Safe P (emptyQueues held s c k) := by
  simp only [emptyQueues]
  split
  · simpa using h
  · simp [hheld, hk]

@[simp] theorem fenceWait_safe {P : Prop} {s : State} (h : FormIf P s.mem) (c : Nat) {k : State → Out} (hk : Safe P (k s)) :
    Safe P (fenceWait s c k) := emptyQueues_safe h (awaitQueues_safe h c) hk

@[simp] theorem taskWait_safe {P : Prop} {s : State} (h : FormIf P s.mem) (c : Nat) {k : State → Out} (hk : Safe P (k s)) :
    Safe P (taskWait s c k) := emptyQueues_safe h (heldBy_safe h c) hk

@[simp] theorem execFence_safe {P : Prop} {s : State} (h : FormIf P s.mem) (scope : BitVec 3) : Safe P (execFence scope s) :=
  fenceWait_safe h _ (by split <;> simp -implicitDefEqProofs [h])

@[simp] theorem execLfence_safe {P : Prop} {s : State} (h : FormIf P s.mem) (before after : BitVec 4) :
    Safe P (execLfence before after s) :=
  fenceWait_safe h _ (by simp -implicitDefEqProofs [h])

@[simp] theorem execToksend_safe {P : Prop} {s : State} (h : FormIf P s.mem) (f : R3) : Safe P (execToksend f s) := by
  simp only [execToksend]
  refine guardD_safe h _ ?_
  split
  · simp -implicitDefEqProofs [h]
  · split
    · simp -implicitDefEqProofs [h]
    · exact releaseWait_safe h _ (by simp -implicitDefEqProofs [h])

@[simp] theorem execTokwait_safe {P : Prop} {s : State} (h : FormIf P s.mem) (f : R2) : Safe P (execTokwait f s) := by
  simp only [execTokwait]
  refine guardD_safe h _ ?_
  split
  · simp -implicitDefEqProofs [h]
  · split <;> simp -implicitDefEqProofs [h]

@[simp] theorem execTimewait_safe {P : Prop} {s : State} (h : FormIf P s.mem) (f : R2) : Safe P (execTimewait f s) := by
  simp only [execTimewait]
  (repeat' split) <;> simp -implicitDefEqProofs [h]

@[simp] theorem execVdie_safe {P : Prop} {s : State} (h : FormIf P s.mem) (f : R2) : Safe P (execVdie f s) := by
  simp only [execVdie]
  refine guardD_safe h _ ?_
  split <;> simp -implicitDefEqProofs [h]

@[simp] theorem execHops_safe {P : Prop} {s : State} (h : FormIf P s.mem) (f : R3) : Safe P (execHops f s) := by
  simp only [execHops]
  refine guardD_safe h _ ?_
  split <;> simp -implicitDefEqProofs [h]

@[simp] theorem execHopsMd_safe {P : Prop} {s : State} (h : FormIf P s.mem) (f : R3) : Safe P (execHopsMd f s) := by
  simp only [execHopsMd]
  refine guardD_safe h _ ?_
  split <;> simp -implicitDefEqProofs [h]

@[simp] theorem csrWait_safe {P : Prop} {s : State} (h : FormIf P s.mem) (c n : Nat) (writes : Bool) (v : Word) {k : State → Out}
    (hk : Safe P (k s)) : Safe P (csrWait s c n writes v k) := by
  simp only [csrWait]
  (repeat' split) <;> simp -implicitDefEqProofs [h, hk]

@[simp] theorem csrOp_safe {P : Prop} {s : State} (h : FormIf P s.mem) (i : Instr) (rd ra : BitVec 5) (csr : BitVec 11)
    (writes : Bool)
    (val : Word → Word → Word) : Safe P (csrOp i rd ra csr writes val s) := by
  simp only [csrOp]
  split
  · simp -implicitDefEqProofs [h]
  · exact qfaultFirst_safe h _ _ (guardD_safe h _ (csrWait_safe h _ _ _ _ (by split <;> simp -implicitDefEqProofs [h])))

@[simp] theorem vroute_safe {P : Prop} {s : State} (h : FormIf P s.mem) (i : Instr) (spec : VSpec) (f : V3) (x : RouteRule) :
    Safe P (vroute i spec f x s) := safe_of_next h (vroute_next i spec f x s)

@[simp] theorem waitHead_mem (s : State) (c : Nat) (v : VQ) (e : QEntry) : (waitHead s c v e).mem = s.mem := by
  unfold waitHead
  split <;> simp

/-- A move of a queue is safe where the performance of its head is. -/
theorem queueMove_safe {P : Prop} {s : State} (h : FormIf P s.mem) (c : Nat) (v : VQ) {perform : QEntry → State → VOut}
    (hp : ∀ e, SafeHead P (perform e s)) : Safe P (queueMove s c v perform) := by
  rcases queueMove_cases s c v perform with ⟨e, r, -, ho⟩ | ho
  · rw [ho, safe_next]
    have hpe := hp e
    cases hv : perform e s with
    | wait t => rw [hv] at hpe; simpa [headOutcome] using hpe
    | done t => rw [hv] at hpe; simpa [headOutcome] using hpe
    | fault cause a => simpa [headOutcome] using h
    | park a k => simpa [headOutcome] using h
    | subn n x => simpa [headOutcome] using h
  · exact safe_of_next h ho

@[simp] theorem vwaitStep_safe {P : Prop} {s : State} (h : FormIf P s.mem) (c : Nat) (w : VWait) (i : Instr) :
    Safe P (vwaitStep s c w i) :=
  safe_of_next h (vwaitStep_next s c w i)

/-- A vector instruction is safe where the performance of its head is. -/
@[simp] theorem vexec_safe {P : Prop} {s : State} (h : FormIf P s.mem) (i : Instr) (spec : VSpec) (f : V3) (x : RouteRule)
    {perform : QEntry → State → VOut} (hp : ∀ e, SafeHead P (perform e s)) : Safe P (vexec i spec f x perform s) := by
  unfold vexec
  split
  · exact queueMove_safe h _ _ fun e => by split <;> simp [hp]
  · split <;> simp -implicitDefEqProofs [h]

@[simp] theorem finishVA_mem (s : State) (c : Nat) (e : QEntry) (val : Nat) (d : Bool) (fl : Flags) :
    (finishVA s c e val d fl).mem = s.mem :=
  (rfl)

@[simp] theorem finishP_mem (s : State) (c : Nat) (n : BitVec 6) (val : Nat) (d : Bool) (fl : Flags) :
    (finishP s c n val d fl).mem = s.mem :=
  (rfl)

@[simp] theorem finishS_mem (s : State) (c : Nat) (e : QEntry) (val : Word) (d : Bool) : (finishS s c e val d).mem = s.mem := by
  simp only [finishS]
  (repeat' split) <;> simp

@[simp] theorem performVA_safe {P : Prop} {s : State} (h : FormIf P s.mem) (val : ElMode → QEntry → Srcs → VAcc)
    (d : QEntry → Srcs → Bool)
    (e : QEntry) : SafeHead P (performVA val d e s) := by
  simp only [performVA]
  split <;> simp -implicitDefEqProofs [h]

@[simp] theorem performCmp_safe {P : Prop} {s : State} (h : FormIf P s.mem) (op : ElCmp) (e : QEntry) :
    SafeHead P (performCmp op e s) := by
  simp -implicitDefEqProofs [performCmp, h]

@[simp] theorem performP2_safe {P : Prop} {s : State} (h : FormIf P s.mem) (g : PReg → PReg → PReg) (e : QEntry) :
    SafeHead P (performP2 g e s) := by
  simp -implicitDefEqProofs [performP2, h]

@[simp] theorem performPnot_safe {P : Prop} {s : State} (h : FormIf P s.mem) (e : QEntry) : SafeHead P (performPnot e s) := by
  simp -implicitDefEqProofs [performPnot, h]

@[simp] theorem performPset_safe {P : Prop} {s : State} (h : FormIf P s.mem) (e : QEntry) : SafeHead P (performPset e s) := by
  simp -implicitDefEqProofs [performPset, h]

@[simp] theorem performPcnt_safe {P : Prop} {s : State} (h : FormIf P s.mem) (e : QEntry) : SafeHead P (performPcnt e s) := by
  simp -implicitDefEqProofs [performPcnt, h]

@[simp] theorem performVextr_safe {P : Prop} {s : State} (h : FormIf P s.mem) (e : QEntry) : SafeHead P (performVextr e s) := by
  simp -implicitDefEqProofs [performVextr, h]

@[simp] theorem performVpark_safe {P : Prop} {s : State} (h : FormIf P s.mem) (e : QEntry) : SafeHead P (performVpark e s) := by
  simp [performVpark, h]

@[simp] theorem performVunpark_safe {P : Prop} {s : State} (h : FormIf P s.mem) (e : QEntry) :
    SafeHead P (performVunpark e s) := by
  simp only [performVunpark]
  split <;> simp -implicitDefEqProofs [h]

/-! ### Vector instructions: issue, operands and results -/

@[simp] theorem setHost_mem (s : State) (c : Nat) (v : VQ) (h : HostSt) : (setHost s c v h).mem = s.mem := (rfl)

@[simp] theorem sendHost_mem (s : State) (c : Nat) (v : VQ) (k : AccKind) (va : Word) (n : Nat) :
    (sendHost s c v k va n).mem = s.mem := by
  unfold sendHost
  split <;> simp

@[simp] theorem sendStamps_mem (s : State) (c : Nat) (ps : List (Word × Nat)) (ks : Places) :
    (sendStamps s c ps ks).mem = s.mem := by
  simp [sendStamps, foldl_mem]

@[simp] theorem meetFill_mem (s : State) (c : Nat) (e : QEntry) (hit : List LoadBlock) : (meetFill s c e hit).mem = s.mem := (rfl)

/-- An access of a queue is safe where what follows its checks is. -/
theorem queueAccess_safe {P : Prop} {s : State} (h : FormIf P s.mem) (c : Nat) (v : VQ) (e : QEntry) (k : AccKind)
    (ps : List (Word × Nat))
    {go : Places → State → VOut} (hgo : ∀ ks t, FormIf P t.mem → SafeHead P (go ks t)) : SafeHead P (queueAccess s c v e k ps go) := by
  have hpieces : ∀ ks, SafeHead P (performPieces (setHost s c v .idle) c k ps ks go) := fun ks =>
    hgo ks _ (by split <;> simp -implicitDefEqProofs [h])
  simp only [queueAccess]
  (repeat' split) <;> simp -implicitDefEqProofs [h, hpieces]

@[simp] theorem finishVL_mem (s : State) (c : Nat) (e : QEntry) (val : Nat) (d : Bool) (fl : Flags) :
    (finishVL s c e val d fl).mem = s.mem :=
  (rfl)

@[simp] theorem storeEls_form {P : Prop} {s : State} (h : FormIf P s.mem) (c w v : Nat) (active : Nat → Bool) (addr : Nat → Word)
    (place : Nat → Nat × Option Cls) (n i : Nat) : FormIf P (storeEls c w v active addr place n i s).mem := by
  induction n generalizing s i with
  | zero => exact h
  | succ n ih => exact ih (by split <;> simp [h]) _

@[simp] theorem loadVec_safe {P : Prop} {s : State} (h : FormIf P s.mem) (e : QEntry) (x : Srcs) (a : Word) :
    SafeHead P (loadVec e x a s) :=
  queueAccess_safe h _ _ _ _ _ fun ks t ht => by
    simp only
    split <;> simp -implicitDefEqProofs [ht]

@[simp] theorem performVld_safe {P : Prop} {s : State} (h : FormIf P s.mem) (e : QEntry) : SafeHead P (performVld e s) := by
  simp only [performVld]
  split <;> simp -implicitDefEqProofs [h]

@[simp] theorem performVlds_safe {P : Prop} {s : State} (h : FormIf P s.mem) (e : QEntry) : SafeHead P (performVlds e s) := by
  simp only [performVlds]
  (repeat' split) <;> simp -implicitDefEqProofs [h]

@[simp] theorem performVst_safe {P : Prop} {s : State} (h : FormIf P s.mem) (e : QEntry) : SafeHead P (performVst e s) := by
  simp only [performVst]
  split
  · simp [dfaultV]
  · split
    · simp
    · exact queueAccess_safe h _ _ _ _ _ fun ks t ht => by simp [ht]

@[simp] theorem storeMask_form {P : Prop} {s : State} (h : FormIf P s.mem) (c : Nat) (a : Word) (v : Nat) (m : PReg)
    (place : Nat → Nat × Option Cls) (n j : Nat) : FormIf P (storeMask c a v m place n j s).mem := by
  induction n generalizing s j with
  | zero => exact h
  | succ n ih => exact ih (by split <;> simp [h]) _

@[simp] theorem performVstm_safe {P : Prop} {s : State} (h : FormIf P s.mem) (e : QEntry) : SafeHead P (performVstm e s) := by
  simp only [performVstm]
  split
  · simp [dfaultV]
  · split
    · simp
    · split
      · split
        · simp
        · split
          · simp
          · simp
          · exact queueAccess_safe h _ _ _ _ _ fun ks t ht => by simp [ht]
      · simpa using h

@[simp] theorem performVldx_safe {P : Prop} {s : State} (h : FormIf P s.mem) (e : QEntry) : SafeHead P (performVldx e s) := by
  simp only [performVldx]
  split
  · simp [dfaultV]
  · split
    · simp
    · exact queueAccess_safe h _ _ _ _ _ fun ks t ht => by simp [ht]

@[simp] theorem performVstx_safe {P : Prop} {s : State} (h : FormIf P s.mem) (e : QEntry) : SafeHead P (performVstx e s) := by
  simp only [performVstx]
  split
  · simp [dfaultV]
  · split
    · simp [dfaultV]
    · split
      · simp
      · exact queueAccess_safe h _ _ _ _ _ fun ks t ht => by simp [ht]

@[simp] theorem performVldc_safe {P : Prop} {s : State} (h : FormIf P s.mem) (e : QEntry) : SafeHead P (performVldc e s) := by
  simp only [performVldc]
  (repeat' split) <;> simp -implicitDefEqProofs [h]

@[simp] theorem performVstc_safe {P : Prop} {s : State} (h : FormIf P s.mem) (e : QEntry) : SafeHead P (performVstc e s) := by
  simp only [performVstc]
  (repeat' split) <;> simp -implicitDefEqProofs [h, dfaultV]

@[simp] theorem performCbadv_safe {P : Prop} {s : State} (h : FormIf P s.mem) (adv : CBuf → BitVec 16 → CBuf) (e : QEntry) :
    SafeHead P (performCbadv adv e s) := by
  simp only [performCbadv]
  split <;> simp -implicitDefEqProofs [h]

@[simp] theorem performSpush_safe {P : Prop} {s : State} (h : FormIf P s.mem) (e : QEntry) : SafeHead P (performSpush e s) := by
  simp only [performSpush]
  (repeat' split) <;> simp -implicitDefEqProofs [h, dfaultV]

@[simp] theorem performSpop_safe {P : Prop} {s : State} (h : FormIf P s.mem) (e : QEntry) : SafeHead P (performSpop e s) := by
  simp -implicitDefEqProofs [performSpop, h]

@[simp] theorem performSbal_safe {P : Prop} {s : State} (h : FormIf P s.mem) (e : QEntry) : SafeHead P (performSbal e s) := by
  simp only [performSbal]
  (repeat' split) <;> simp -implicitDefEqProofs [h, sbalDeal_mem]

@[simp] theorem performVldst_safe {P : Prop} {s : State} (h : FormIf P s.mem) (e : QEntry) : SafeHead P (performVldst e s) := by
  simp only [performVldst]
  split
  · simp
  · exact queueAccess_safe h _ _ _ _ _ fun ks t ht => by simp -implicitDefEqProofs [ht]

@[simp] theorem storeStream_form {P : Prop} {s : State} (h : FormIf P s.mem) (c : Nat) (st : Stream) (bits : Nat → Nat)
    (is : List Nat)
    (ks : Places) (js : List Nat) : FormIf P (storeStream c st bits is ks js s).mem := by
  induction js generalizing s with
  | nil => exact h
  | cons i rest ih => exact ih (by simp [h])

@[simp] theorem performVstst_safe {P : Prop} {s : State} (h : FormIf P s.mem) (e : QEntry) : SafeHead P (performVstst e s) := by
  simp only [performVstst]
  split
  · simp [dfaultV]
  · split
    · simp
    · exact queueAccess_safe h _ _ _ _ _ fun ks t ht => by simp -implicitDefEqProofs [ht]

@[simp] theorem performVldb_safe {P : Prop} {s : State} (h : FormIf P s.mem) (e : QEntry) : SafeHead P (performVldb e s) := by
  simp only [performVldb]
  (repeat' split) <;> simp -implicitDefEqProofs [h]

/-! ### The ring, semaphores and the queues' heads -/

@[simp] theorem ringPoint_safe {P : Prop} {s : State} (h : FormIf P s.mem) {k : State → Out} (hk : Safe P (k s)) :
    Safe P (ringPoint s k) := by
  simp only [ringPoint]
  split <;> simp -implicitDefEqProofs [h, hk]

@[simp] theorem postRestart_mem (s : State) (c i n : Nat) : (postRestart s c i n).mem = s.mem := by
  unfold postRestart
  split <;> simp

@[simp] theorem execMcmd_safe {P : Prop} {s : State} (h : FormIf P s.mem) (f : R3) : Safe P (execMcmd f s) := by
  simp only [execMcmd]
  refine ringPoint_safe h (guardD_safe h _ ?_)
  split
  · simp -implicitDefEqProofs [h]
  · split
    · simp -implicitDefEqProofs [h]
    · split <;> simp -implicitDefEqProofs [h]

@[simp] theorem writeLate_form {P : Prop} {s : State} (h : FormIf P s.mem) (c : Nat) : FormIf P (writeLate s c).mem := by
  simp only [writeLate]
  refine formIf_foldl (fun t x ht => ?_) _ h
  split
  · exact ht
  · split <;> simp -implicitDefEqProofs [ht]

@[simp] theorem execMringCfg_safe {P : Prop} {s : State} (h : FormIf P s.mem) (f : R2) : Safe P (execMringCfg f s) := by
  simp only [execMringCfg]
  refine ringPoint_safe h (guardD_safe h _ ?_)
  (repeat' split) <;> simp -implicitDefEqProofs [h]

@[simp] theorem execMringPost_safe {P : Prop} {s : State} (h : FormIf P s.mem) (f : R2) : Safe P (execMringPost f s) := by
  simp only [execMringPost]
  refine ringPoint_safe h (guardD_safe h _ ?_)
  (repeat' split) <;> simp -implicitDefEqProofs [h]

@[simp] theorem execStcfg_safe {P : Prop} {s : State} (h : FormIf P s.mem) (f : R2) (n : BitVec 4) :
    Safe P (execStcfg f n s) := by
  simp only [execStcfg]
  refine qfaultFirst_safe h _ _ (guardD_safe h _ ?_)
  split
  · exact awaitQueues_safe h _ _ _
  · split
    · simp -implicitDefEqProofs [h]
    · refine coreAccess_safe h _ _ _ _ _ fun key cls t ht => ?_
      (repeat' split) <;> simp -implicitDefEqProofs [ht]

@[simp] theorem execCbcfg_safe {P : Prop} {s : State} (h : FormIf P s.mem) (f : R2) (n : BitVec 4) :
    Safe P (execCbcfg f n s) := by
  simp only [execCbcfg]
  refine qfaultFirst_safe h _ _ (guardD_safe h _ ?_)
  split
  · exact awaitQueues_safe h _ _ _
  · refine coreAccess_safe h _ _ _ _ _ fun key cls t ht => ?_
    (repeat' split) <;> simp -implicitDefEqProofs [ht, State.tick]

@[simp] theorem ownf_safe {P : Prop} {s : State} (h : FormIf P s.mem) (f : R3) (owner : BitVec 2) (auto : Bool) :
    Safe P (ownf f owner auto s) := by
  simp -implicitDefEqProofs [ownf, h]

@[simp] theorem freshBank_form {P : Prop} {s : State} (h : FormIf P s.mem) (c : Nat) (js : List Nat) :
    FormIf P (freshBank c js s).mem := by
  induction js generalizing s with
  | nil => exact h
  | cons j js ih => exact ih (by simp -implicitDefEqProofs [h])

@[simp] theorem applyRoles_form {P : Prop} {s : State} (h : FormIf P s.mem) (c : Nat) : FormIf P (applyRoles s c).mem := by
  simp -implicitDefEqProofs [applyRoles, h]

@[simp] theorem execBanksync_safe {P : Prop} {s : State} (h : FormIf P s.mem) (rd : BitVec 5) : Safe P (execBanksync rd s) := by
  simp only [execBanksync]
  split
  · simp -implicitDefEqProofs [h]
  · split
    · simp -implicitDefEqProofs [h]
    · exact fenceWait_safe h _ (by simp -implicitDefEqProofs [h])

@[simp] theorem execTqry_safe {P : Prop} {s : State} (h : FormIf P s.mem) (f : R2) : Safe P (execTqry f s) := by
  simp only [execTqry]
  refine guardD_safe h _ ?_
  split <;> simp -implicitDefEqProofs [h]

@[simp] theorem mwaitEnd_safe {P : Prop} {s : State} (h : FormIf P s.mem) (c : Nat) (rd : BitVec 5) (v : Word) :
    Safe P (mwaitEnd s c rd v) := by
  simp -implicitDefEqProofs [mwaitEnd, h]

@[simp] theorem mwaitTrap_safe {P : Prop} {s : State} (h : FormIf P s.mem) (c : Nat) (cause : BitVec 8) (va : Word) :
    Safe P (mwaitTrap s c cause va) := by
  simp -implicitDefEqProofs [mwaitTrap, h]

@[simp] theorem spendHost_mem (s : State) (c : Nat) : (spendHost s c).mem = s.mem := by
  unfold spendHost
  split <;> simp

@[simp] theorem execMwait_safe {P : Prop} {s : State} (h : FormIf P s.mem) (f : R3) : Safe P (execMwait f s) := by
  simp only [execMwait]
  split
  · split <;> simp -implicitDefEqProofs [h]
  · refine guardD_safe h _ (coreAccess_safe h _ _ _ _ _ fun key cls t ht => ?_)
    split <;> simp -implicitDefEqProofs [ht]

@[simp] theorem monitorRead_mem (s : State) (c : Nat) (va : Word) (key : Nat) (ref : Word) (u : Bool) (last : Word) :
    (monitorRead s c va key ref u last).mem = s.mem :=
  (rfl)

@[simp] theorem monitorPoll_mem (s : State) (c : Nat) (va : Word) (key : Nat) (ref now : Word) :
    (monitorPoll s c va key ref now).mem = s.mem :=
  (rfl)

@[simp] theorem putHdr_form {P : Prop} {s : State} (h : FormIf P s.mem) (q : QRec) (off n v : Nat) :
    FormIf P (putHdr s q off n v).mem := by
  simp -implicitDefEqProofs [putHdr, h]

/-- A slot is placed by writes. -/
@[simp] theorem formIf_slotPlaced {P : Prop} {m : Mem} (h : FormIf P m) (qk : Nat) (q : QRec) (bytes : List Byte) (k : Nat) :
    FormIf P (slotPlaced m qk q bytes k) :=
  formIf_writeNat (formIf_writeBytes (formIf_writeNat h _ _ _) _ _) _ _ _

@[simp] theorem slotRead_safe {P : Prop} {s : State} (h : FormIf P s.mem) (c : Nat) (a : Word)
    {go : Nat → Option Cls → State → Out}
    (hgo : ∀ key cls t, FormIf P t.mem → Safe P (go key cls t)) : Safe P (slotRead s c a go) := coreAccess_safe h _ _ _ _ _ hgo

@[simp] theorem setNest_mem (s : State) (l : Nat) (b : Bool) : (setNest s l b).mem = s.mem := (rfl)

@[simp] theorem execLaunch_safe {P : Prop} {s : State} (h : FormIf P s.mem) (f : R3) : Safe P (execLaunch f s) := by
  simp only [execLaunch]
  refine guardD_safe h _ ?_
  split
  · simpa using h
  · split
    · simp -implicitDefEqProofs [h]
    · split
      · simp -implicitDefEqProofs [h]
      · split
        · simp -implicitDefEqProofs [h]
        · refine slotRead_safe h _ _ fun key cls t ht => ?_
          split <;> simp -implicitDefEqProofs [ht]

@[simp] theorem execCpyq_safe {P : Prop} {s : State} (h : FormIf P s.mem) (f : R3) : Safe P (execCpyq f s) := by
  simp only [execCpyq]
  refine guardD_safe h _ ?_
  split
  · simpa using h
  · split
    · simp -implicitDefEqProofs [h]
    · split
      · simp -implicitDefEqProofs [h]
      · split
        · simp -implicitDefEqProofs [h]
        · exact slotRead_safe h _ _ fun key cls t ht => by simp -implicitDefEqProofs [ht]

@[simp] theorem execTrap_safe {P : Prop} {s : State} (h : FormIf P s.mem) (n : BitVec 8) : Safe P (execTrap n s) := by
  simp only [execTrap]
  (repeat' split) <;> simp -implicitDefEqProofs [h]

@[simp] theorem actDiscard_mem (s : State) (c : Nat) (v : VQ) : (actDiscard s c v).mem = s.mem := (rfl)

@[simp] theorem actRetry_mem (s : State) (c : Nat) (v : VQ) : (actRetry s c v).mem = s.mem := (rfl)

@[simp] theorem actSkip_mem (s : State) (c : Nat) (v : VQ) : (actSkip s c v).mem = s.mem := by
  simp only [actSkip]
  split <;> simp

@[simp] theorem actQueue_mem (s : State) (c : Nat) (v : VQ) (act : BitVec 2) : (actQueue s c v act).mem = s.mem := by
  unfold actQueue
  split <;> simp

@[simp] theorem actRing_mem (s : State) (c : Nat) (act : BitVec 2) : (actRing s c act).mem = s.mem := by
  simp only [actRing]
  (repeat' split) <;> simp

@[simp] theorem applyAct_mem (s : State) (c : Nat) (shown : Option QFault) : (applyAct s c shown).mem = s.mem := by
  simp only [applyAct]
  (repeat' split) <;> simp

@[simp] theorem tret_mem (s : State) (c : Nat) : (tret s c).mem = s.mem := by simp [tret]

@[simp] theorem assistScalar_mem (s : State) (c : Nat) (i : Instr) : (assistScalar s c i).mem = s.mem := by
  simp only [assistScalar]
  split <;> simp

@[simp] theorem assistWrite_mem (s : State) (c : Nat) (e : QEntry) (x : VCell) (fl : Flags) :
    (assistWrite s c e x fl).mem = s.mem := by
  simp [assistWrite]

@[simp] theorem assistVector_mem (s : State) (c : Nat) : (assistVector s c).mem = s.mem := by
  simp only [assistVector]
  (repeat' split) <;> simp

@[simp] theorem firmwareFhe_mem (s : State) (c : Nat) : (firmwareFhe s c).mem = s.mem := by
  simp only [firmwareFhe]
  (repeat' split) <;> simp

/-! ### Scopes, tasks, pre-emption and the move of a strand -/

@[simp] theorem putPark_mem (s : State) (c j : Nat) (xs : List VCell) : (putPark s c j xs).mem = s.mem := by
  induction xs generalizing s j with
  | nil => rfl
  | cons x xs ih => exact ih _ _

@[simp] theorem stampFrame_mem (s : State) (die ctx base : Nat) : (stampFrame s die ctx base).mem = s.mem :=
  foldl_mem (fun s d => sendStamp_mem s die d) _ s

@[simp] theorem putFields_form {P : Prop} {s : State} (h : FormIf P s.mem) (ctx base : Nat) (fs : List SaveField) :
    FormIf P (putFields s ctx base fs).mem := by
  induction fs generalizing s with
  | nil => exact h
  | cons f fs ih => exact ih (by split <;> simp [h])

@[simp] theorem bankPages_form {P : Prop} {s : State} (h : FormIf P s.mem) (c ctx base : Nat) (role : BitVec 64) (save : Bool) :
    FormIf P (bankPages s c ctx base role save).mem := by
  refine formIf_foldl (fun t j ht => ?_) _ h
  (repeat' split) <;> simp [ht]

@[simp] theorem unbindPre_mem (s : State) (l c : Nat) : (unbindPre s l c).mem = s.mem := by
  simp only [unbindPre]
  split <;> simp

@[simp] theorem dropSuspended_mem (s : State) (t : Job) : (dropSuspended s t).mem = s.mem := by
  unfold dropSuspended
  split <;> simp

@[simp] theorem keepStrand_form {P : Prop} {s : State} (h : FormIf P s.mem) (c : Nat) {keep : State → State}
    (hk : FormIf P (keep s).mem) :
    FormIf P (keepStrand s c keep).mem := by
  unfold keepStrand
  split <;> simp -implicitDefEqProofs [h, hk]

/-- A frame that is stamped and then written keeps the form. -/
@[simp] theorem savedFrame_form {P : Prop} {s : State} (h : FormIf P s.mem) (die c ctx base : Nat) (role : BitVec 64)
    (save : Bool)
    (fs : List SaveField) : FormIf P (putFields (bankPages (stampFrame s die ctx base) c ctx base role save) ctx base fs).mem :=
  putFields_form (bankPages_form (by simpa using h) _ _ _ _ _) _ _ _

@[simp] theorem saveStrand_form {P : Prop} {s : State} (h : FormIf P s.mem) (c map : Nat) (p : Pos) :
    FormIf P (saveStrand s c map p).mem := by
  simp only [saveStrand, unbindPre_mem, State.setCore_mem, formIf_ite, failLaunch_mem]
  have hkeep : ∀ fs l x, FormIf P (keepStrand (putFields (bankPages (stampFrame s (dieOfCore c) (s.launch (s.th c).job.launch).ctx
      (frameBase s (s.th c).job.launch c)) c (s.launch (s.th c).job.launch).ctx (frameBase s (s.th c).job.launch c)
      (s.core c).banks.roleF true) (s.launch (s.th c).job.launch).ctx (frameBase s (s.th c).job.launch c) fs) c
      (fun s => s.setLaunch l x)).mem := fun fs l x => keepStrand_form (savedFrame_form h _ _ _ _ _ _ _) c (savedFrame_form h _ _ _ _ _ _ _)
  exact ⟨fun _ => hkeep _ _ _, fun _ => hkeep _ _ _⟩

@[simp] theorem snoopFor_form {P : Prop} {s : State} (h : FormIf P s.mem) (i : Instr) (line : Nat) :
    FormIf P (snoopFor s i line).mem := by
  simp -implicitDefEqProofs [snoopFor, h]

@[simp] theorem saveBare_form {P : Prop} {s : State} (h : FormIf P s.mem) (l c : Nat) : FormIf P (saveBare s l c).mem := by
  simp only [saveBare]
  split
  · simp -implicitDefEqProofs [h]
  · have hs : FormIf P (stampFrame (drainFifo (s.unowe (.event (.preemptFallback c))) c) (dieOfCore c) (s.launch l).ctx (frameBase s l c)).mem := by
      simpa using unowe_form h _
    have hput := putFields_form (bankPages_form hs c (s.launch l).ctx (frameBase s l c) (s.core c).banks.roleF true)
      (s.launch l).ctx (frameBase s l c) (bareFields (s.core c).banks)
    split <;> simpa using hput

@[simp] theorem settlePre_form {P : Prop} {s : State} (h : FormIf P s.mem) (l : Nat) : FormIf P (settlePre s l).mem := by
  unfold settlePre
  split
  · exact formIf_foldl (fun t c ht => saveBare_form ht l c) _ h
  · exact h

@[simp] theorem discardStopped_form {P : Prop} {s : State} (h : FormIf P s.mem) (c : Nat) :
    FormIf P (discardStopped s c).mem := by
  simp -implicitDefEqProofs [discardStopped, h]

@[simp] theorem lendStrand_mem (s : State) (c child : Nat) (p : Pos) : (lendStrand s c child p).mem = s.mem := by
  simp only [lendStrand]
  split <;> simp

@[simp] theorem stopAt_form {P : Prop} {s : State} (h : FormIf P s.mem) (c map : Nat) : FormIf P (stopAt s c map).mem := by
  simp only [stopAt]
  (repeat' split) <;> simp -implicitDefEqProofs [h]

@[simp] theorem safePoint_safe {P : Prop} {s : State} (h : FormIf P s.mem) (c map : Nat) {go : State → Out}
    (hgo : Safe P (go s)) :
    Safe P (safePoint s c map go) := by
  simp only [safePoint]
  (repeat' split) <;> simp -implicitDefEqProofs [h, hgo]

@[simp] theorem goOn_mem (s : State) (c : Nat) : (goOn s c).mem = s.mem := by
  simp only [goOn]
  split <;> simp

@[simp] theorem safeInstr_safe {P : Prop} {s : State} (h : FormIf P s.mem) (map : Nat) : Safe P (safeInstr s map) := by
  simp only [safeInstr]
  split
  · simp -implicitDefEqProofs [h]
  · (repeat' split) <;> simp -implicitDefEqProofs [h]

@[simp] theorem restoreBanks_form {P : Prop} {s : State} (h : FormIf P s.mem) (c ctx base : Nat) :
    FormIf P (restoreBanks s c ctx base).mem := by
  simp -implicitDefEqProofs [restoreBanks, h]

@[simp] theorem restoreStrand_mem (s : State) (c ctx base : Nat) (x : SavedStrand) :
    (restoreStrand s c ctx base x).mem = s.mem := by
  simp -implicitDefEqProofs only [restoreStrand, putPark_mem, State.setCore_mem, discardLines_mem]

@[simp] theorem restoreCore_form {P : Prop} {s : State} (h : FormIf P s.mem) (l c : Nat) : FormIf P (restoreCore s l c).mem := by
  simp only [restoreCore]
  (repeat' split) <;> simp -implicitDefEqProofs [h]

@[simp] theorem returnStrand_mem (s : State) (c : Nat) (f : LendFrame) : (returnStrand s c f).mem = s.mem := by
  simp -implicitDefEqProofs only [returnStrand, putPark_mem, State.setCore_mem, discardLines_mem]

@[simp] theorem restartSrc_mem (s : State) (l : Nat) (src : HSrc) : (restartSrc s l src).mem = s.mem := by
  simp only [restartSrc]
  (repeat' split) <;> simp

@[simp] theorem finishStep_form {P : Prop} {s : State} (h : FormIf P s.mem) (c : Nat) : FormIf P (finishStep s c).mem := by
  simp -implicitDefEqProofs [finishStep, h]

@[simp] theorem execTaskend_safe {P : Prop} {s : State} (h : FormIf P s.mem) : Safe P (execTaskend s) := by
  simp only [execTaskend]
  refine ringPoint_safe h (taskWait_safe h _ ?_)
  split
  · simpa using h
  · rw [safe_next]
    refine finishStep_form ?_ _
    split
    · split <;> simp -implicitDefEqProofs [h]
    · simpa using h

@[simp] theorem beginLend_mem (s : State) (child : Nat) : (beginLend s child).mem = s.mem := by
  simp -implicitDefEqProofs [beginLend, foldl_mem, apply_ite State.mem]

@[simp] theorem cwaitLent_safe {P : Prop} {s : State} (h : FormIf P s.mem) (c child : Nat) : Safe P (cwaitLent s c child) := by
  simp -implicitDefEqProofs [cwaitLent, h]

@[simp] theorem cwaitWait_safe {P : Prop} {s : State} (h : FormIf P s.mem) (c : Nat) (a : Word) : Safe P (cwaitWait s c a) := by
  simp only [cwaitWait]
  refine killPoint_safe h _ ?_
  (repeat' split) <;> simp -implicitDefEqProofs [h]

@[simp] theorem execCwait_safe {P : Prop} {s : State} (h : FormIf P s.mem) (f : R2) : Safe P (execCwait f s) := by
  simp only [execCwait]
  refine guardD_safe h _ ?_
  split
  · simpa using h
  · refine coreAccess_safe h _ _ _ _ _ fun key cls t ht => ?_
    split <;> simp -implicitDefEqProofs [ht]

@[simp] theorem recordLoop_mem (s : State) (c : Nat) (i : Instr) : (recordLoop s c i).mem = s.mem := by
  simp only [recordLoop]
  (repeat' split) <;> simp

@[simp] theorem badTarget_mem (s : State) (c : Nat) (p : Pos) : (badTarget s c p).mem = s.mem := by simp [badTarget]

@[simp] theorem spendLine_mem (s : State) (c : Nat) (a : Word) : (spendLine s c a).mem = s.mem := by
  simp only [spendLine]
  split <;> simp

@[simp] theorem codeAnswer_mem (s : State) (c : Nat) (va : Word) (ok : Bool) : (codeAnswer s c va ok).mem = s.mem := by
  simp only [codeAnswer]
  (repeat' split) <;> simp

@[simp] theorem fetchFail_form {P : Prop} {s : State} (h : FormIf P s.mem) (c : Nat) (r : Parcel) :
    FormIf P (fetchFail s c r).mem := by
  simp only [fetchFail]
  split <;> simp -implicitDefEqProofs [h]

@[simp] theorem illegalWord_mem (s : State) (c w : Nat) : (illegalWord s c w).mem = s.mem := by simp [illegalWord]

/-- A fetch is safe where the state of a move of the strand's own is. -/
def SafeFetch (P : Prop) : Fetched → Prop
  | .move t => FormIf P t.mem
  | .instr _ => True

@[simp] theorem safeFetch_move {P : Prop} (t : State) : SafeFetch P (.move t) ↔ FormIf P t.mem := Iff.rfl

@[simp] theorem safeFetch_instr {P : Prop} (i : Instr) : SafeFetch P (.instr i) ↔ True := Iff.rfl

theorem fetchInstr_safe {P : Prop} {s : State} (h : FormIf P s.mem) (c : Nat) : SafeFetch P (fetchInstr s c) := by
  simp only [fetchInstr]
  (repeat' split) <;> simp -implicitDefEqProofs [h]

@[simp] theorem firmwareMove_form {P : Prop} {s : State} (h : FormIf P s.mem) (c : Nat) : FormIf P (firmwareMove s c).mem := by
  simp only [firmwareMove]
  (repeat' split) <;> simp -implicitDefEqProofs [h]

/-- What a strand does before it fetches changes no byte. -/
theorem beforeInstr_mem {s t : State} {c : Nat} (ht : beforeInstr s c = some t) : t.mem = s.mem := by
  simp only [beforeInstr] at ht
  (repeat' split at ht) <;> cases ht <;> simp

@[simp] theorem passEnded_mem (s : State) (c : Nat) : (passEnded s c).mem = s.mem := by
  simp only [passEnded]
  split <;> simp

@[simp] theorem passTested_mem (s : State) (c : Nat) : (passTested s c).mem = s.mem := by
  simp only [passTested]
  split <;> simp

/-- The move of a strand: what it does itself keeps the form, and so does the state in which its instruction is executed. -/
theorem strandMove_safe {P : Prop} {s : State} (h : FormIf P s.mem) (c : Nat) :
    SafeFetch P (strandMove s c).1 ∧ FormIf P (strandMove s c).2.mem := by
  simp only [strandMove]
  split
  · exact ⟨h, h⟩
  · split <;> exact ⟨by simpa using h, h⟩
  · split
    · exact ⟨by simpa using h, h⟩
    · split
      · exact ⟨firmwareMove_form h c, h⟩
      · split
        · exact ⟨by simpa using h, h⟩
        · next hb => exact ⟨by simpa [beforeInstr_mem hb] using h, h⟩
        · have hp : FormIf P (passTested s c).mem := by simpa using h
          split
          · refine ⟨?_, by simpa using hp⟩
            unfold eccGate
            split
            · split <;> simp -implicitDefEqProofs [h]
            · simp_all
          · exact ⟨fetchInstr_safe hp c, hp⟩

@[simp] theorem loadAt_safe {P : Prop} {s : State} (h : FormIf P s.mem) (n : Nat) (rd ra : BitVec 5) (off : Word) (w : Nat)
    (signed : Bool) :
    Safe P (loadAt n rd ra off w signed s) := by
  simp -implicitDefEqProofs [loadAt, h]

@[simp] theorem storeAt_safe {P : Prop} {s : State} (h : FormIf P s.mem) (n : Nat) (rd ra : BitVec 5) (off : Word) (w : Nat) :
    Safe P (storeAt n rd ra off w s) := by
  simp only [storeAt]
  exact guardD_safe h _ (coreAccess_safe h _ _ _ _ _ fun key cls t ht => by simp -implicitDefEqProofs [ht])

@[simp] theorem deferLoad_safe {P : Prop} {s : State} (h : FormIf P s.mem) (rd : BitVec 5) : Safe P (deferLoad rd s) := by
  simp -implicitDefEqProofs [deferLoad, h]

@[simp] theorem loadSpec_safe {P : Prop} {s : State} (h : FormIf P s.mem) (rd ra : BitVec 5) (off : Word) :
    Safe P (loadSpec rd ra off s) := by
  simp only [loadSpec]
  split
  · simp -implicitDefEqProofs [h]
  · split
    · simp -implicitDefEqProofs [h]
    · simp -implicitDefEqProofs [h]
    · next hc => simpa using coreCheck_form h (.inl hc)
    · simp -implicitDefEqProofs [h]
    · next hc => simpa using coreCheck_form h (.inr ⟨_, _, hc⟩)

/-! ### Matrix commands and cancellation -/

@[simp] theorem endLease_mem (s : State) (a : Nat) : (endLease s a).mem = s.mem := (rfl)

@[simp] theorem passOver_mem (s : State) (a q n : Nat) : (passOver s a q n).mem = s.mem := by
  induction n with
  | zero => rfl
  | succ n ih => exact ih

@[simp] theorem execLeaseGrant_safe {P : Prop} {s : State} (h : FormIf P s.mem) (die arr : Nat) :
    Safe P (execLeaseGrant die arr s) := by
  simp only [execLeaseGrant]
  split <;> simp -implicitDefEqProofs [h]

@[simp] theorem execLeaseChargeHalve_safe {P : Prop} {s : State} (h : FormIf P s.mem) (die arr : Nat) :
    Safe P (execLeaseChargeHalve die arr s) := by
  simp only [execLeaseChargeHalve]
  split
  · rw [safe_next, State.setArray_mem, foldl_mem]
    · exact h
    · intros; rfl
  · simpa using h

@[simp] theorem takeAwait_mem (s : State) (c : Nat) : (takeAwait s c).mem = s.mem := by
  simp only [takeAwait]
  split <;> simp

@[simp] theorem returnAwait_mem (s : State) (c : Nat) : (returnAwait s c).mem = s.mem := by
  simp only [returnAwait]
  (repeat' split) <;> simp

@[simp] theorem ringStop_mem (s : State) (a c : Nat) (cause : BitVec 8) (va : Word) : (ringStop s a c cause va).mem = s.mem := by
  simp [ringStop]

@[simp] theorem ringPark_mem (s : State) (a c : Nat) (va : Word) (k : AccKind) : (ringPark s a c va k).mem = s.mem := by
  simp [ringPark]

@[simp] theorem ringRefuse_mem (s : State) (a c : Nat) (cause : BitVec 8) : (ringRefuse s a c cause).mem = s.mem := by
  simp [ringRefuse]

@[simp] theorem askCommand_mem (s : State) (c : Nat) (va : Word) (n : Nat) : (askCommand s c va n).mem = s.mem := by
  unfold askCommand
  split <;> simp

@[simp] theorem snoopRing_form {P : Prop} {s : State} (h : FormIf P s.mem) (c line : Nat) :
    FormIf P (snoopRing s c line).mem := by
  simp -implicitDefEqProofs [snoopRing, h]

/-- A command that asks the host has the form where what follows its answers has. -/
theorem commandAsks_form {P : Prop} {s : State} (h : FormIf P s.mem) (a c : Nat) (asks : List Word) {go : State → State}
    (hgo : FormIf P (go s).mem) : FormIf P (commandAsks s a c asks go).mem := by
  unfold commandAsks
  (repeat' split) <;> simp -implicitDefEqProofs [h, hgo]

/-- A matrix command is safe where each effect of its body keeps the form. -/
theorem matrixCommand_safe {P : Prop} {s : State} (h : FormIf P s.mem) (m : MCmd) (strms : List (BitVec 4))
    (rule : State → Nat → Option (BitVec 8)) {body : State → Nat → Nat → MRd MEff} (kind : AccKind)
    (hbody : ∀ a c e asks, body s a c = .ok e asks → FormIf P e.mem) : Safe P (matrixCommand m strms rule body kind s) := by
  simp only [matrixCommand]
  (repeat' split) <;> try simp -implicitDefEqProofs [h]
  next he => exact commandAsks_form h _ _ _ (hbody _ _ _ _ he)

/-- What a chain of reads answers, its last part does. -/
theorem MRd.bind_ok {α β : Type} {x : MRd α} {f : α → MRd β} {b : β} {asks : List Word} (hb : x.bind f = .ok b asks) :
    ∃ a ys, f a = .ok b ys := by
  cases x with
  | ok a xs =>
    simp only [MRd.bind] at hb
    split at hb
    · next b' ys hf => cases hb; exact ⟨a, ys, hf⟩
    · exact ⟨a, asks, hb⟩
  | fault | absent | held => cases hb

@[simp] theorem execMzero_safe {P : Prop} {s : State} (h : FormIf P s.mem) (m : MCmd) : Safe P (execMzero m s) :=
  matrixCommand_safe h _ _ _ _ fun a c e asks he => by cases he; exact formIf_cleanWords h _ _ _ _

@[simp] theorem execMma_safe {P : Prop} {s : State} (h : FormIf P s.mem) (m : MCmd) : Safe P (execMma m s) :=
  matrixCommand_safe h _ _ _ _ fun a c e asks he => by
    simp only at he
    split at he
    · cases he
    · obtain ⟨rows, _, he⟩ := MRd.bind_ok he
      obtain ⟨brows, _, he⟩ := MRd.bind_ok he
      obtain ⟨scales, _, he⟩ := MRd.bind_ok he
      cases he
      exact h

@[simp] theorem execMconv_safe {P : Prop} {s : State} (h : FormIf P s.mem) (m : MCmd) : Safe P (execMconv m s) :=
  matrixCommand_safe h _ _ _ _ fun a c e asks he => by
    simp only at he
    split at he
    · cases he
    · obtain ⟨rows, _, he⟩ := MRd.bind_ok he
      obtain ⟨brows, _, he⟩ := MRd.bind_ok he
      cases he
      exact h

@[simp] theorem execMout_safe {P : Prop} {s : State} (h : FormIf P s.mem) (m : MCmd) : Safe P (execMout m s) :=
  matrixCommand_safe h _ _ _ _ fun a c e asks he => by
    simp only at he
    split at he
    · cases he
    · obtain ⟨keys, _, he⟩ := MRd.bind_ok he
      cases he
      exact formIf_outWords h _ _

@[simp] theorem execMacc_safe {P : Prop} {s : State} (h : FormIf P s.mem) (m : MCmd) : Safe P (execMacc m s) :=
  matrixCommand_safe h _ _ _ _ fun a c e asks he => by
    obtain ⟨rows, _, he⟩ := MRd.bind_ok he
    cases he
    exact formIf_cleanWords h _ _ _ _

@[simp] theorem execMatrixCommandComplete_safe {P : Prop} {s : State} (h : FormIf P s.mem) (die arr : Nat) :
    Safe P (execMatrixCommandComplete die arr s) := by
  simp only [execMatrixCommandComplete]
  split <;> simp -implicitDefEqProofs [h]

/-- What an array does before it hands its command on changes no byte. -/
@[simp] theorem arrayMove_mem (s : State) (a : Nat) : (arrayMove s a).2.mem = s.mem := by
  simp only [arrayMove]
  (repeat' split) <;> simp

@[simp] theorem raiseVector_mem (s : State) (ctx : Nat) : (raiseVector s ctx).mem = s.mem := (rfl)

@[simp] theorem freeScope_mem (s : State) (n : Nat) : (freeScope s n).mem = s.mem := (rfl)

@[simp] theorem driverFree_mem (s : State) (n : Nat) : (driverFree s n).mem = s.mem := by
  simp [driverFree, foldl_mem, apply_ite State.mem]

@[simp] theorem unbindCore_mem (s : State) (c : Nat) : (unbindCore s c).mem = s.mem := (rfl)

@[simp] theorem unbindLaunch_mem (s : State) (l : Nat) : (unbindLaunch s l).mem = s.mem := by
  simp [unbindLaunch, foldl_mem]

@[simp] theorem freeShares_mem (s : State) (l : Nat) : (freeShares s l).mem = s.mem := by
  simp only [freeShares]
  split <;> simp

@[simp] theorem cancelLaunch_mem (s : State) (l : Nat) : (cancelLaunch s l).mem = s.mem := by
  simp only [cancelLaunch, State.setLaunch_mem]
  rw [foldl_mem]
  · (repeat' split) <;> simp
  · intros; rfl

@[simp] theorem markScope_mem (s : State) (n : Nat) : (markScope s n).mem = s.mem := by
  simp -implicitDefEqProofs [markScope, foldl_mem]

@[simp] theorem serveCancel_mem (s : State) (r : CancelReq) : (serveCancel s r).mem = s.mem := by
  simp only [serveCancel]
  (repeat' split) <;> simp [replyCancel_mem]

@[simp] theorem execCancelMark_safe {P : Prop} {s : State} (h : FormIf P s.mem) (home : Nat) :
    Safe P (execCancelMark home s) := by
  simp only [execCancelMark]
  split <;> simp -implicitDefEqProofs [h]

@[simp] theorem cancelBarrier_mem (s : State) (marked : List Nat) (root ticket key : Nat) :
    (cancelBarrier s marked root ticket key).mem = s.mem := by
  simp only [cancelBarrier]
  split <;> simp [completeBar_mem]

@[simp] theorem cancelBarriers_mem (s : State) (die ctx : Nat) (marked : List Nat) (root ticket : Nat) :
    (cancelBarriers s die ctx marked root ticket).mem = s.mem := by
  simp [cancelBarriers, foldl_mem]

@[simp] theorem discardSteps_mem (s : State) (die ticket o : Nat) (x : Op) : (discardSteps s die ticket o x).mem = s.mem := by
  simp [discardSteps]

@[simp] theorem dropOp_mem (s : State) (o : Nat) (x : Op) : (dropOp s o x).mem = s.mem := (rfl)

@[simp] theorem cancelOps_mem (s : State) (die ticket : Nat) (marked : List Nat) :
    (cancelOps s die ticket marked).mem = s.mem := by
  simp [cancelOps, foldl_mem, apply_ite State.mem]

@[simp] theorem abandonTensor_mem (s : State) (t : Nat) : (abandonTensor s t).mem = s.mem := by
  unfold abandonTensor
  split <;> simp

@[simp] theorem releaseSteps_mem (s : State) (t : Nat) : (releaseSteps s t).mem = s.mem := by
  simp [releaseSteps, foldl_mem, apply_ite State.mem]

@[simp] theorem dropReq_mem (s : State) (r t : Nat) : (dropReq s r t).mem = s.mem := by
  simp only [dropReq]
  split <;> simp

@[simp] theorem discardFrame_mem (s : State) (marked : List Nat) (f : Nat) (x : Frame) :
    (discardFrame s marked f x).mem = s.mem := by
  simp -implicitDefEqProofs [discardFrame, foldl_mem, apply_ite State.mem]

@[simp] theorem cancelFrames_mem (s : State) (die ticket : Nat) (marked : List Nat) :
    (cancelFrames s die ticket marked).mem = s.mem := by
  simp [cancelFrames, foldl_mem]

@[simp] theorem cancelSaved_mem (s : State) (die : Nat) (marked : List Nat) : (cancelSaved s die marked).mem = s.mem := by
  simp [cancelSaved, foldl_mem, apply_ite State.mem]

@[simp] theorem cancelLent_mem (s : State) (die : Nat) (marked : List Nat) : (cancelLent s die marked).mem = s.mem := by
  simp [cancelLent, foldl_mem]

@[simp] theorem cancelOne_mem (s : State) (ticket l : Nat) (x : Launch) : (cancelOne s ticket l x).mem = s.mem := by
  unfold cancelOne
  split <;> simp

@[simp] theorem cancelLaunches_mem (s : State) (die ticket : Nat) (marked : List Nat) :
    (cancelLaunches s die ticket marked).mem = s.mem := by
  simp [cancelLaunches, foldl_mem]

@[simp] theorem execCancelToken_safe {P : Prop} {s : State} (h : FormIf P s.mem) (die : Nat) (ticket : Word) :
    Safe P (execCancelToken die ticket s) := by
  simp only [execCancelToken]
  split <;> simp -implicitDefEqProofs [h]

@[simp] theorem execCancelAck_safe {P : Prop} {s : State} (h : FormIf P s.mem) (die : Nat) (ticket : Word) :
    Safe P (execCancelAck die ticket s) := by
  simp only [execCancelAck]
  split <;> simp -implicitDefEqProofs [h]

@[simp] theorem writeCancel_form {P : Prop} {s : State} (h : FormIf P s.mem) (v : Word) (x : Cancel) :
    FormIf P (writeCancel s v x).mem := by
  simp only [writeCancel]
  split
  · exact h
  · split
    · simp only [sendStamp_mem]
      exact h.imp (memWf_foldl _ (fun _ _ hm => memWf_writeNat _ hm _ _) _)
    · exact h

@[simp] theorem doneLaunches_mem (s : State) (v : Nat) (marked : List Nat) : (doneLaunches s v marked).mem = s.mem := by
  simp -implicitDefEqProofs [doneLaunches, foldl_mem, apply_ite State.mem]

@[simp] theorem doneScopes_mem (s : State) (x : Cancel) : (doneScopes s x).mem = s.mem := by
  simp -implicitDefEqProofs [doneScopes, foldl_mem, apply_ite State.mem]

@[simp] theorem execCancelDone_safe {P : Prop} {s : State} (h : FormIf P s.mem) (ticket : Word) :
    Safe P (execCancelDone ticket s) := by
  simp only [execCancelDone]
  (repeat' split) <;> simp -implicitDefEqProofs [h]

@[simp] theorem execTokenDeliver_safe {P : Prop} {s : State} (h : FormIf P s.mem) (i : Nat) : Safe P (execTokenDeliver i s) := by
  simp only [execTokenDeliver]
  split <;> simp -implicitDefEqProofs [h]

/-! ### Tensors, requests and the walkers -/

@[simp] theorem tick_mem (s : State) : s.tick.2.mem = s.mem := (rfl)

@[simp] theorem freeTensor_form {P : Prop} {s : State} (h : FormIf P s.mem) (t : Nat) : FormIf P (freeTensor s t).mem := by
  simp -implicitDefEqProofs [freeTensor, h]

@[simp] theorem dropTensor_form {P : Prop} {s : State} (h : FormIf P s.mem) (t : Nat) : FormIf P (dropTensor s t).mem := by
  simp -implicitDefEqProofs [dropTensor, h]

@[simp] theorem refreshUses_form {P : Prop} {s : State} (h : FormIf P s.mem) (cs : List Nat) :
    FormIf P (refreshUses s cs).mem := by
  refine formIf_foldl (fun t x ht => ?_) _ h
  simp only
  split
  · exact freeTensor_form ht x
  · exact ht

mutual
theorem makeRoom_form {P : Prop} (n : Nat) {s : State} (h : FormIf P s.mem) (die : Nat) (tier : TSt) (need : Nat)
    (out : List Nat) :
    FormIf P (makeRoom n s die tier need out).1.mem := by
  cases n with
  | zero => rw [makeRoom]; exact h
  | succ n =>
    have hr := refreshUses_form h (candidates s die tier out)
    simp only [makeRoom]
    repeat' split
    · exact h
    · exact hr
    · exact hr
    · exact makeRoom_form n (victimise_form n hr _ _) _ _ _ _
theorem victimise_form {P : Prop} (n : Nat) {s : State} (h : FormIf P s.mem) (v : Nat) (as : List Victim) :
    FormIf P (victimise n s v as).mem := by
  cases n with
  | zero => rw [victimise]; exact h
  | succ n =>
    cases as with
    | nil => simpa [victimise] using h
    | cons a as =>
      cases a with
      | compress => simpa [victimise] using h
      | drop => simpa [victimise] using dropTensor_form h v
      | move =>
        simp only [victimise]
        split
        · exact victimise_form n h v as
        · split
          · simpa using makeRoom_form n h _ _ _ _
          · exact victimise_form n (makeRoom_form n h _ _ _ _) v as

end

/-- Where storage came to lie, in a state whose memory has its form where P holds. -/
def SafePlaced (P : Prop) : Placed → Prop
  | .at_ _ t | .wait t | .none t => FormIf P t.mem

@[simp] theorem safePlaced_at {P : Prop} (tier : TSt) (t : State) : SafePlaced P (.at_ tier t) ↔ FormIf P t.mem := Iff.rfl

@[simp] theorem safePlaced_wait {P : Prop} (t : State) : SafePlaced P (.wait t) ↔ FormIf P t.mem := Iff.rfl

@[simp] theorem safePlaced_none {P : Prop} (t : State) : SafePlaced P (.none t) ↔ FormIf P t.mem := Iff.rfl

theorem placeIn_safe {P : Prop} {s : State} (h : FormIf P s.mem) (die : Nat) (tier : TSt) (need : Nat) (out : List Nat) :
    SafePlaced P (placeIn s die tier need out) := by
  have hr := makeRoom_form (roomFuel s) h die tier need out
  simp only [placeIn]
  (repeat' split) <;> simp -implicitDefEqProofs [hr, h]

theorem placeNew_safe {P : Prop} {s : State} (h : FormIf P s.mem) (die : Nat) (tier : TSt) (need : Nat) :
    SafePlaced P (placeNew s die tier need) := by
  have h1 := placeIn_safe h die tier need []
  unfold placeNew
  split
  · next t ht =>
    rw [ht] at h1
    have h2 := placeIn_safe h1 die .hbm need []
    split
    · next u hu =>
      rw [hu] at h2
      exact placeIn_safe h2 die .t2 need []
    · exact h2
  · exact h1

@[simp] theorem reportFault_mem (s : State) (l : Nat) (cause : BitVec 8) (tval : Word) (src : HSrc) :
    (reportFault s l cause tval src).mem = s.mem := by
  simp only [reportFault]
  split <;> simp

@[simp] theorem reportReq_mem (s : State) (r : Nat) (x : WReq) (cause : BitVec 8) : (reportReq s r x cause).mem = s.mem := by
  simp [reportReq]

@[simp] theorem addReq_mem (s : State) (x : WReq) : (addReq s x).2.mem = s.mem := by simp [addReq]

@[simp] theorem serveMove_form {P : Prop} {s : State} (h : FormIf P s.mem) (r : Nat) (x : WReq) (place : TSt) :
    FormIf P (serveMove s r x place).mem := by
  have hp := placeIn_safe h (homeDie x.t) (wantTier (tensorAt s x.t) x place) (tensorAt s x.t).full [x.t]
  simp only [serveMove]
  split
  · exact h
  · split
    · simpa using h
    · split <;> next ht => simpa [ht] using hp

@[simp] theorem pushFrame_mem (s : State) (f : Nat) : (pushFrame s f).mem = s.mem := by
  simp only [pushFrame]
  (repeat' split) <;> simp

@[simp] theorem startFrame_form {P : Prop} {s : State} (h : FormIf P s.mem) (r : Nat) (x : WReq) (tier : TSt) (n : Nat) :
    FormIf P (startFrame s r x tier n).mem := by
  simp -implicitDefEqProofs [startFrame, h]

@[simp] theorem serveDropped_form {P : Prop} {s : State} (h : FormIf P s.mem) (r : Nat) (x : WReq) :
    FormIf P (serveDropped s r x).mem := by
  have hp := placeNew_safe h (homeDie x.t) .cis (tensorAt s x.t).full
  simp only [serveDropped]
  split
  · exact h
  split
  · simpa using h
  split
  · simpa using h
  split
  · simpa using h
  split
  · next ht => simpa [ht] using hp
  · next ht => simpa [ht] using hp
  · next ht =>
    rw [ht] at hp
    split
    · simpa using hp
    · exact startFrame_form hp _ _ _ _

theorem xferOwn_form {P : Prop} {s : State} (h : FormIf P s.mem) (r : Nat) (x : WReq) {t : State} (ht : xferOwn s r x = some t) :
    FormIf P t.mem := by
  unfold xferOwn at ht
  split at ht
  · next f tier _ _ _ =>
    have hp := placeIn_safe h (homeDie x.t) tier (tensorAt s x.t).full [x.t]
    split at ht
    · cases ht
    · obtain ⟨g, _, rfl⟩ := Option.map_eq_some_iff.mp ht
      split
      · simpa using h
      · split <;> next hu => simpa [hu] using hp
  · cases ht

@[simp] theorem execRecipeFramePush_safe {P : Prop} {s : State} (h : FormIf P s.mem) (r : Nat) :
    Safe P (execRecipeFramePush r s) := by
  have hx : ∀ x, FormIf P ((xferOwn s r x).getD (serveDropped s r x)).mem := fun x => by
    cases hx : xferOwn s r x with
    | none => exact serveDropped_form h r x
    | some t => exact xferOwn_form h r x hx
  simp only [execRecipeFramePush]
  (repeat' split) <;> simp -implicitDefEqProofs [h, hx]

@[simp] theorem readyReqs_mem (s : State) (t : Nat) : (readyReqs s t).mem = s.mem := by
  simp -implicitDefEqProofs [readyReqs, foldl_mem]

@[simp] theorem execFrameComplete_safe {P : Prop} {s : State} (h : FormIf P s.mem) (f : Nat) :
    Safe P (execFrameComplete f s) := by
  simp only [execFrameComplete]
  split <;> simp -implicitDefEqProofs [h]

@[simp] theorem endReq_mem (s : State) (r : Nat) (x : WReq) : (endReq s r x).mem = s.mem := by
  simp only [endReq]
  (repeat' split) <;> simp

@[simp] theorem execRequesterRelease_safe {P : Prop} {s : State} (h : FormIf P s.mem) (r : Nat) :
    Safe P (execRequesterRelease r s) := by
  simp only [execRequesterRelease]
  split <;> simp -implicitDefEqProofs [h]

@[simp] theorem execVictimMoveComplete_safe {P : Prop} {s : State} (h : FormIf P s.mem) (t : Nat) :
    Safe P (execVictimMoveComplete t s) := by
  simp only [execVictimMoveComplete]
  split
  · simpa using h
  · split <;> simp -implicitDefEqProofs [h, foldl_mem]

@[simp] theorem clearReaders_mem (s : State) (t : Nat) : (clearReaders s t).mem = s.mem := by
  simp -implicitDefEqProofs [clearReaders, foldl_mem]

@[simp] theorem setWalk_mem (s : State) (w : Walker) (x : WalkSt) : (setWalk s w x).mem = s.mem := by
  simp only [setWalk]
  (repeat' split) <;> simp

@[simp] theorem setWalkPark_mem (s : State) (w : Walker) (x : ParkSt) : (setWalkPark s w x).mem = s.mem := by
  simp only [setWalkPark]
  (repeat' split) <;> simp

@[simp] theorem goTo_mem (s : State) (w : Walker) (pc : Word) : (goTo s w pc).mem = s.mem := by
  simp only [goTo]
  (repeat' split) <;> simp

@[simp] theorem nextRec_mem (s : State) (w : Walker) : (nextRec s w).mem = s.mem := by simp [nextRec]

@[simp] theorem streamFault_mem (s : State) (w : Walker) : (streamFault s w).mem = s.mem := by simp [streamFault]

@[simp] theorem walkPark_mem (s : State) (w : Walker) (va : Word) : (walkPark s w va).mem = s.mem := by simp [walkPark]

@[simp] theorem walkRead_safe {P : Prop} {s : State} (h : FormIf P s.mem) (w : Walker) (r : SRd) {k : Nat → Out}
    (hk : ∀ v, Safe P (k v)) : Safe P (walkRead s w r k) := by
  unfold walkRead
  split <;> simp -implicitDefEqProofs [h, hk]

@[simp] theorem keepWait_safe {P : Prop} {s : State} (h : FormIf P s.mem) (w : Walker) (keep : BitVec 8) {k : Out}
    (hk : Safe P k) :
    Safe P (keepWait s w keep k) := by
  simp -implicitDefEqProofs [keepWait, h, hk]

@[simp] theorem execKeepWaitEnd_safe {P : Prop} {s : State} (h : FormIf P s.mem) (l : Nat) : Safe P (execKeepWaitEnd l s) := by
  simp only [execKeepWaitEnd]
  split <;> simp -implicitDefEqProofs [h]

@[simp] theorem streamOnly_safe {P : Prop} {s : State} (h : FormIf P s.mem) {k : Walker → Out} (hk : ∀ w, Safe P (k w)) :
    Safe P (streamOnly s k) := by
  unfold streamOnly
  split <;> simp -implicitDefEqProofs [h, hk]

@[simp] theorem anyStream_safe {P : Prop} {s : State} (h : FormIf P s.mem) {k : Walker → Out} (hk : ∀ w, Safe P (k w)) :
    Safe P (anyStream s k) := by
  unfold anyStream
  split <;> simp -implicitDefEqProofs [h, hk]

@[simp] theorem execJmp_safe {P : Prop} {s : State} (h : FormIf P s.mem) (off : BitVec 32) : Safe P (execJmp off s) :=
  streamOnly_safe h fun w => by simpa using h

@[simp] theorem execSync_safe {P : Prop} {s : State} (h : FormIf P s.mem) (keep : BitVec 8) : Safe P (execSync keep s) :=
  anyStream_safe h fun w => keepWait_safe h w keep (by simpa using h)

@[simp] theorem execSeqEnd_safe {P : Prop} {s : State} (h : FormIf P s.mem) : Safe P (execSeqEnd s) :=
  streamOnly_safe h fun w => by simpa using h

@[simp] theorem condAcquire_mem (s : State) (w : Walker) (cwi : BitVec 16) : (condAcquire s w cwi).mem = s.mem := by
  simp only [condAcquire]
  split <;> simp

@[simp] theorem execIfc_safe {P : Prop} {s : State} (h : FormIf P s.mem) (off : BitVec 32) (cwi : BitVec 16) (keep : BitVec 8) :
    Safe P (execIfc off cwi keep s) :=
  streamOnly_safe h fun w => keepWait_safe h w keep <| walkRead_safe h w _ fun v => by
    simp -implicitDefEqProofs [h]

@[simp] theorem execWhl_safe {P : Prop} {s : State} (h : FormIf P s.mem) (off : BitVec 32) (cwi : BitVec 16) (keep : BitVec 8)
    (bound : BitVec 32) : Safe P (execWhl off cwi keep bound s) :=
  streamOnly_safe h fun w => by
    split
    · simpa using h
    · exact keepWait_safe h w keep <| walkRead_safe h w _ fun v => by
        simp -implicitDefEqProofs [h]

/-- A posted event is what it writes in the queue, and counters. -/
theorem postEvent_form {P : Prop} {s : State} (h : FormIf P s.mem) {ctx : Nat} {value : Word} {slot queue kind die : Nat}
    {t : State}
    (ht : postEvent s ctx value slot queue kind die = some t) : FormIf P t.mem := by
  simp only [postEvent] at ht
  split at ht
  · cases ht
  · split at ht
    · cases ht
    · cases ht
      simp only [raiseVector_mem, State.setCtx_mem, sendStamp_mem]
      iterate 6 refine formIf_writeNat ?_ _ _ _
      exact h

@[simp] theorem execSigh_safe {P : Prop} {s : State} (h : FormIf P s.mem) (keep : BitVec 8) (value : Word) :
    Safe P (execSigh keep value s) := 
  streamOnly_safe h fun w => keepWait_safe h w keep <| by
    simp only
    split
    · simpa using h
    · next t ht => simpa using postEvent_form h ht

@[simp] theorem execCncl_safe {P : Prop} {s : State} (h : FormIf P s.mem) (scope : BitVec 16) (wait : Bool) :
    Safe P (execCncl scope wait s) :=
  streamOnly_safe h fun w => by simp -implicitDefEqProofs [h]

@[simp] theorem enterOp_mem (s : State) (w : Walker) (x : Op) (opr : Bool) : (enterOp s w x opr).mem = s.mem := by
  simp only [enterOp, nextRec_mem]
  (repeat' split) <;> simp

@[simp] theorem execOpr_safe {P : Prop} {s : State} (h : FormIf P s.mem) (r : OprRec) : Safe P (execOpr r s) :=
  anyStream_safe h fun w => by
    simp only
    split
    · simpa using h
    split
    · simpa using h
    split
    · simpa using h
    refine walkRead_safe h w _ fun v => ?_
    split
    · simpa using h
    · split <;> simpa using h

@[simp] theorem leaveXfer_mem (s : State) (w : Walker) : (leaveXfer s w).mem = s.mem := by simp [leaveXfer]

@[simp] theorem execXfer_safe {P : Prop} {s : State} (h : FormIf P s.mem) (prio : BitVec 5) (tier : BitVec 3) (scope : BitVec 16)
    (x : BitVec 32) : Safe P (execXfer prio tier scope x s) :=
  anyStream_safe h fun w => by
    simp only
    (repeat' split) <;> simpa using h

@[simp] theorem createTensor_safe {P : Prop} {s : State} (h : FormIf P s.mem) (w : Walker) (t : Nat) (u : BitVec 32) (x : Tensor)
    (v : Nat) : Safe P (createTensor s w t u x v) := by
  have hp := placeNew_safe h (homeDie t) (tierOf (nbits v 8 2)) x.full
  simp only [createTensor]
  split
  · simpa using h
  split
  · next hu => simpa [hu] using hp
  · next hu => simpa [hu] using hp
  · next hu =>
    rw [hu, safePlaced_at] at hp
    simp -implicitDefEqProofs [hp]

@[simp] theorem execTnew_safe {P : Prop} {s : State} (h : FormIf P s.mem) (u : BitVec 32) (desc : Word) :
    Safe P (execTnew u desc s) :=
  streamOnly_safe h fun w => by
    simp only
    split
    · simpa using h
    split
    · simpa using h
    refine walkRead_safe h w _ fun v => ?_
    split
    · simpa using h
    · exact walkRead_safe h w _ fun rs => createTensor_safe h _ _ _ _ _

theorem loadOne_safe {P : Prop} {s : State} (h : FormIf P s.mem) (ctx : Nat) (x : LoadRec) : SafePlaced P (loadOne s ctx x) := by
  simp only [loadOne]
  split
  · exact h
  split
  · simpa using h
  next t _ _ =>
  have hp := placeNew_safe h (homeDie t) .cis
    ({ descTensor ctx x.h x.desc x.fields.toNat x.inputs 0 with refl := none, byLoader := true } : Tensor).full
  split
  · next hu =>
    rw [hu, safePlaced_at] at hp
    simp -implicitDefEqProofs [hp]
  · exact hp

theorem loadEach_safe {P : Prop} (ctx : Nat) (xs : List LoadRec) {s : State} (h : FormIf P s.mem) :
    SafePlaced P (loadEach ctx xs s) := by
  induction xs generalizing s with
  | nil => exact h
  | cons x xs ih =>
    have ho := loadOne_safe h ctx x
    rw [loadEach]
    split
    · next hu =>
      rw [hu] at ho
      exact ih ho
    · exact ho

@[simp] theorem undoLoad_form {P : Prop} (before : State) {s : State} (h : FormIf P s.mem) (ctx : Nat) (recs : List LoadRec) :
    FormIf P (undoLoad before s ctx recs).mem := by
  refine formIf_foldl (fun t k ht => ?_) _ h
  split
  · exact ht
  · exact formIf_clear ht _ _

@[simp] theorem loadImage_form {P : Prop} {s : State} (h : FormIf P s.mem) (ctx : Nat) (recs : List LoadRec) :
    FormIf P (loadImage s ctx recs).mem := by
  have hl := loadEach_safe ctx recs h
  unfold loadImage
  split
  · exact h
  split
  · next hu => simpa [hu] using hl
  · next hu =>
    rw [hu] at hl
    exact undoLoad_form s hl ctx recs
  · simpa using h

@[simp] theorem askAll_mem (s : State) (mk : Nat → WReq) (ts : List Nat) : (askAll s mk ts).mem = s.mem := by
  simp [askAll, foldl_mem, apply_ite State.mem]

@[simp] theorem execTdel_safe {P : Prop} {s : State} (h : FormIf P s.mem) (u : BitVec 32) : Safe P (execTdel u s) :=
  streamOnly_safe h fun w => by
    (repeat' split) <;> simp -implicitDefEqProofs [h]

@[simp] theorem execTpin_safe {P : Prop} {s : State} (h : FormIf P s.mem) (u : BitVec 32) (pin : Bool) :
    Safe P (execTpin u pin s) :=
  streamOnly_safe h fun w => by
    (repeat' split) <;> simp -implicitDefEqProofs [h]

@[simp] theorem fetchRecord_form {P : Prop} {s : State} (h : FormIf P s.mem) (w : Walker) : FormIf P (fetchRecord s w).2.mem := by
  unfold fetchRecord
  split
  · split <;> simpa using h
  all_goals simp -implicitDefEqProofs [h]

@[simp] theorem walkerMove_form {P : Prop} {s : State} (h : FormIf P s.mem) (l : Nat) : FormIf P (walkerMove s l).2.mem := by
  unfold walkerMove
  extract_lets x w
  generalize x.walk = k, x.park = p
  split
  · exact h
  · cases k <;> cases p <;> simp -implicitDefEqProofs [h, apply_ite Prod.snd]

@[simp] theorem frameMove_form {P : Prop} {s : State} (h : FormIf P s.mem) (f : Nat) : FormIf P (frameMove s f).2.mem := by
  unfold frameMove
  (repeat' split) <;> simp -implicitDefEqProofs [h]

/-! ### The sequencers -/

@[simp] theorem countRefused_form {P : Prop} {s : State} (h : FormIf P s.mem) (q : QRec) : FormIf P (countRefused s q).mem := by
  simp -implicitDefEqProofs [countRefused, h]

@[simp] theorem stopQueue_form {P : Prop} {s : State} (h : FormIf P s.mem) (qk : Nat) (q : QRec) (k code : Nat) :
    FormIf P (stopQueue s qk q k code).mem := by
  simp -implicitDefEqProofs [stopQueue, h]

@[simp] theorem startTaken_mem (s : State) (x : Launch) (inside : Bool) : (startTaken s x inside).mem = s.mem := by
  simp only [startTaken]
  (repeat' split) <;> simp

@[simp] theorem takeLaunch_form {P : Prop} {s : State} (h : FormIf P s.mem) (qk : Nat) (q : QRec) (k : Nat)
    (claim : Option Claim) :
    FormIf P (takeLaunch s qk q k claim).mem := by
  simp only [takeLaunch]
  (repeat' split) <;> simp -implicitDefEqProofs [h]

@[simp] theorem execLaunchPacketTake_safe {P : Prop} {s : State} (h : FormIf P s.mem) (qk : Nat) :
    Safe P (execLaunchPacketTake qk s) := by
  simp only [execLaunchPacketTake]
  (repeat' split) <;> simp -implicitDefEqProofs [h]

@[simp] theorem clearCore_form {P : Prop} {s : State} (h : FormIf P s.mem) (c ctx : Nat) : FormIf P (clearCore s c ctx).mem := by
  simp -implicitDefEqProofs [clearCore, h]

@[simp] theorem readyNow_mem (s : State) (l c : Nat) : (readyNow s l c).mem = s.mem := by
  simp [readyNow, foldl_mem, apply_ite State.mem]

@[simp] theorem bindCore_form {P : Prop} {s : State} (h : FormIf P s.mem) (l c : Nat) : FormIf P (bindCore s l c).mem := by
  simp -implicitDefEqProofs [bindCore, h]

@[simp] theorem startLaunch_form {P : Prop} {s : State} (h : FormIf P s.mem) (l : Nat) : FormIf P (startLaunch s l).mem := by
  simp only [startLaunch]
  split
  · exact formIf_foldl (fun t c ht => restoreCore_form ht l c) _ (by simpa using h)
  · simpa using h

@[simp] theorem execGangBind_safe {P : Prop} {s : State} (h : FormIf P s.mem) (l die : Nat) : Safe P (execGangBind l die s) := by
  have hb := formIf_foldl (P := P) (f := fun t c => bindCore t l c) (fun t c ht => bindCore_form ht l c) (shareOf s l die) h
  simp only [execGangBind]
  split
  · simpa using h
  split
  · split <;> simpa using h
  split
  · simpa using h
  split
  · simpa using sendSnoop_form h _
  · split <;> simp -implicitDefEqProofs [hb]

@[simp] theorem clearRv_mem (s : State) (x : Op) : (clearRv s x).mem = s.mem := by simp [clearRv, foldl_mem, apply_ite State.mem]

@[simp] theorem issueOp_mem (s : State) (o : Nat) (x : Op) : (issueOp s o x).mem = s.mem := by
  simp [issueOp, foldl_mem, apply_ite State.mem]

@[simp] theorem execOperatorIssue_safe {P : Prop} {s : State} (h : FormIf P s.mem) (o : Nat) :
    Safe P (execOperatorIssue o s) := by
  simp only [execOperatorIssue]
  (repeat' split) <;> simp -implicitDefEqProofs [h]

@[simp] theorem execOperatorComplete_safe {P : Prop} {s : State} (h : FormIf P s.mem) (o : Nat) :
    Safe P (execOperatorComplete o s) := by
  simp only [execOperatorComplete]
  split
  · simpa using h
  split
  · simpa using h
  · simp only [safe_next, reapScopes_mem, State.delOp_mem]
    rw [foldl_mem]
    · exact h
    · intro t x
      split <;> simp

@[simp] theorem execXferComplete_safe {P : Prop} {s : State} (h : FormIf P s.mem) (o : Nat) : Safe P (execXferComplete o s) := by
  simp only [execXferComplete]
  (repeat' split) <;> simp -implicitDefEqProofs [h, foldl_mem]

@[simp] theorem atDispatch_mem (s : State) (c : Nat) : (atDispatch s c).mem = s.mem := by simp [atDispatch]

@[simp] theorem dispatchStep_mem (s : State) (c l o n : Nat) (x : Op) (rank : Rank) :
    (dispatchStep s c l o n x rank).mem = s.mem := by
  simp [dispatchStep]

@[simp] theorem dispatchHandler_mem (s : State) (c l : Nat) (h : Handler) : (dispatchHandler s c l h).mem = s.mem := by
  simp [dispatchHandler]

@[simp] theorem passReady_mem (s : State) (c l : Nat) : (passReady s c l).mem = s.mem := by
  simp [passReady, foldl_mem, apply_ite State.mem]

@[simp] theorem takeStep_mem (s : State) (c : Nat) (r : Ready) : (takeStep s c r).mem = s.mem := by simp [takeStep]

@[simp] theorem execStepDispatch_safe {P : Prop} {s : State} (h : FormIf P s.mem) (c : Nat) : Safe P (execStepDispatch c s) := by
  simp only [execStepDispatch]
  (repeat' split) <;> simp -implicitDefEqProofs [h]

@[simp] theorem updRank_mem (s : State) (o n : Nat) (f : Op → Nat → Rank → Rank) : (updRank s o n f).mem = s.mem := by
  unfold updRank
  split <;> simp

@[simp] theorem preemptLaunch_form {P : Prop} {s : State} (h : FormIf P s.mem) (m : Nat) : FormIf P (preemptLaunch s m).mem := by
  simp only [preemptLaunch]
  split
  · simpa using h
  split
  · exact h
  · refine settlePre_form ?_ m
    rw [foldl_mem]
    · exact h
    · intros
      rfl

@[simp] theorem execPreemptRequest_safe {P : Prop} {s : State} (h : FormIf P s.mem) (q : Nat) :
    Safe P (execPreemptRequest q s) := by
  have hp := fun bs => formIf_foldl (P := P) (fun t m ht => preemptLaunch_form ht m) bs h
  simp only [execPreemptRequest]
  (repeat' split) <;> simp -implicitDefEqProofs [h, hp]

@[simp] theorem execPreemptFallback_safe {P : Prop} {s : State} (h : FormIf P s.mem) (c : Nat) :
    Safe P (execPreemptFallback c s) := by
  simp only [execPreemptFallback]
  split <;> simp -implicitDefEqProofs [h]

@[simp] theorem unlend_mem (s : State) (child : Nat) : (unlend s child).mem = s.mem := by
  simp -implicitDefEqProofs [unlend, foldl_mem]

@[simp] theorem startParked_mem (s : State) (l : Nat) : (startParked s l).mem = s.mem := by
  simp -implicitDefEqProofs [startParked, foldl_mem]

@[simp] theorem closeLaunch_mem (s : State) (l : Nat) (status : BitVec 8) : (closeLaunch s l status).mem = s.mem := by
  simp only [closeLaunch]
  split <;> simp

@[simp] theorem stampLaunch_form {P : Prop} {s : State} (h : FormIf P s.mem) (l : Nat) : FormIf P (stampLaunch s l).mem := by
  simp only [stampLaunch]
  (repeat' split) <;> simp -implicitDefEqProofs [h]

@[simp] theorem execLaunchComplete_safe {P : Prop} {s : State} (h : FormIf P s.mem) (l : Nat) :
    Safe P (execLaunchComplete l s) := by
  simp only [execLaunchComplete]
  (repeat' split) <;> simp -implicitDefEqProofs [h]

@[simp] theorem returnCore_mem (s : State) (l p c : Nat) : (returnCore s l p c).mem = s.mem := by
  simp only [returnCore]
  (repeat' split) <;> simp

@[simp] theorem execLendReturn_safe {P : Prop} {s : State} (h : FormIf P s.mem) (l : Nat) : Safe P (execLendReturn l s) := by
  simp only [execLendReturn]
  split
  · split
    · simpa using h
    · split <;> simp -implicitDefEqProofs [h, foldl_mem]
  · simpa using h

/-! ### The engines -/

@[simp] theorem noteColl_mem (s : State) (c : Claim) (p : FPkt) (status : BitVec 8) : (noteColl s c p status).mem = s.mem := (rfl)

@[simp] theorem endPacket_mem (s : State) (q : Nat) (r : PRun) (status : BitVec 8) : (endPacket s q r status).mem = s.mem := by
  unfold endPacket
  split <;> simp

@[simp] theorem parkPacket_mem (s : State) (q : Nat) (r : PRun) (va : Word) (k : AccKind) : (parkPacket s q r va k).mem = s.mem :=
  (rfl)

@[simp] theorem stopFlume_form {P : Prop} {s : State} (h : FormIf P s.mem) (qk : Nat) (q : QRec) (k code : Nat) :
    FormIf P (stopFlume s qk q k code).mem := by
  simp -implicitDefEqProofs [stopFlume, h, formIf_foldl]

@[simp] theorem endColl_mem (s : State) (q : Nat) (r : PRun) (status : BitVec 8) : (endColl s q r status).mem = s.mem := by
  unfold endColl
  split
  · rw [foldl_mem]
    · simp
    · intro t x
      (repeat' split) <;> simp
  · simp

@[simp] theorem cutPacket_mem (s : State) (q : Nat) (r : PRun) (status : BitVec 8) : (cutPacket s q r status).mem = s.mem := by
  unfold cutPacket
  split <;> simp

@[simp] theorem packetPoint_safe {P : Prop} {s : State} (h : FormIf P s.mem) (q : Nat) (r : PRun) {k : PRun → Out}
    (hk : Safe P (k r)) : Safe P (packetPoint s q r k) := by
  unfold packetPoint
  (repeat' split) <;> simp -implicitDefEqProofs [h, hk]

@[simp] theorem unitPoint_safe {P : Prop} {s : State} (h : FormIf P s.mem) (q : Nat) (r : PRun) {k : PRun → Out}
    (hk : Safe P (k r)) : Safe P (unitPoint s q r k) := by
  unfold unitPoint
  split
  · exact hk
  · exact packetPoint_safe h q r hk

@[simp] theorem hostPoint_safe {P : Prop} {s : State} (h : FormIf P s.mem) (q : Nat) (r : PRun) {k : PRun → Out}
    (hk : Safe P (k r)) : Safe P (hostPoint s q r k) := by
  unfold hostPoint
  (repeat' split) <;> simp -implicitDefEqProofs [h, hk]

/-- A test of a packet that makes it wait does so in a state whose memory has its form where P holds. -/
def SafeTest (P : Prop) : PTest → Prop
  | .wait t => FormIf P t.mem
  | _ => True

@[simp] theorem safeTest_wait {P : Prop} (t : State) : SafeTest P (.wait t) ↔ FormIf P t.mem := Iff.rfl

@[simp] theorem safeTest_pass {P : Prop} (r : PRun) : SafeTest P (.pass r) ↔ True := Iff.rfl

@[simp] theorem safeTest_stop {P : Prop} (status : BitVec 8) : SafeTest P (.stop status) ↔ True := Iff.rfl

@[simp] theorem safeTest_park {P : Prop} (va : Word) : SafeTest P (.park va) ↔ True := Iff.rfl

@[simp] theorem safeTest_ask {P : Prop} (va : Word) (n : Nat) : SafeTest P (.ask va n) ↔ True := Iff.rfl

@[simp] theorem afterAsks_safe {P : Prop} (r : PRun) (asks : List Word) {k : PTest} (hk : SafeTest P k) :
    SafeTest P (afterAsks r asks k) := by
  unfold afterAsks
  split <;> simp [hk]

@[simp] theorem withIndex_safe {P : Prop} {s : State} (h : FormIf P s.mem) (q : Nat) (x : Layout) {k : Layout → PTest}
    (hk : ∀ y, SafeTest P (k y)) : SafeTest P (withIndex s q x k) := by
  unfold withIndex
  (repeat' split) <;> simp -implicitDefEqProofs [h, hk]

@[simp] theorem formSides_safe {P : Prop} (s : State) (q : Nat) (r : PRun) (p : FPkt) (a b : Layout) :
    SafeTest P (formSides s q r p a b) := by
  simp only [formSides]
  (repeat' split) <;> simp

@[simp] theorem formTest_safe {P : Prop} {s : State} (h : FormIf P s.mem) (q : Nat) (r : PRun) (p : FPkt) :
    SafeTest P (formTest s q r p) := by
  simp only [formTest]
  split
  · split <;> simp
  split
  · simp
  · simp
  · simp -implicitDefEqProofs [h]
  · refine afterAsks_safe r _ ?_
    split
    · exact withIndex_safe h q _ fun x => withIndex_safe h q _ fun y => by simp
    · simp

@[simp] theorem collForm_safe {P : Prop} (s : State) (q : Nat) (r : PRun) (p : FPkt) : SafeTest P (collForm s q r p) := by
  unfold collForm
  split
  · simp
  · extract_lets
    split <;> simp

@[simp] theorem meetDropped_mem (s : State) (r : PRun) (t : Nat) : (meetDropped s r t).mem = s.mem := by
  simp only [meetDropped]
  (repeat' split) <;> simp

theorem askShard_safe {P : Prop} {s : State} (h : FormIf P s.mem) (q : Nat) (r : PRun) (p : FPkt) (t : Nat) (place : Option TSt) :
    SafeTest P (askShard s q r p t place) := by
  unfold askShard
  split <;> simp -implicitDefEqProofs [h]

theorem expandAlone_safe {P : Prop} {s : State} (h : FormIf P s.mem) (q : Nat) (r : PRun) (t : Nat) (tier : TSt) :
    SafeTest P (expandAlone s q r t tier) := by
  have hp := placeIn_safe h (homeDie t) tier (tensorAt s t).full [t]
  simp only [expandAlone]
  split <;> next hu => simpa [hu] using hp

theorem tensorTest_safe {P : Prop} {s : State} (h : FormIf P s.mem) (q : Nat) (r : PRun) (p : FPkt) (t : Nat) (written : Bool) :
    SafeTest P (tensorTest s q r p t written) := by
  simp only [tensorTest]
  split
  · simpa using h
  split
  · split
    · simp
    · exact askShard_safe (by simpa using h) ..
  split
  · simpa using h
  split
  · simp
  · split
    · exact askShard_safe h ..
    · exact expandAlone_safe h ..

theorem tensorTests_safe {P : Prop} {s : State} (h : FormIf P s.mem) (q : Nat) (r : PRun) (p : FPkt) :
    SafeTest P (tensorTests s q r p) := by
  have hd : SafeTest P (match r.dst.tensor with
      | some t => tensorTest s q r p t true
      | none => .pass r) := by
    split
    · exact tensorTest_safe h ..
    · simp
  simp only [tensorTests]
  split
  · next t _ =>
    have hs := tensorTest_safe h q r p t false
    split
    · exact hd
    · exact hs
  · exact hd

@[simp] theorem putKeys_form {P : Prop} {s : State} (h : FormIf P s.mem) (ks : Option (List Nat)) (bs : List Byte) :
    FormIf P (putKeys s ks bs).mem := by
  cases ks with
  | none => exact h
  | some ks => exact formIf_writeKeys h _

/-- An element that was moved left memory in its form where P holds. -/
def SafeMoved (P : Prop) : MoveRes → Prop
  | .ok t => FormIf P t.mem
  | _ => True

theorem kRd_bind_safe {P : Prop} (x : KRd) {k : Option (List Nat) → List Word → MoveRes}
    (hk : ∀ ks asks, SafeMoved P (k ks asks)) :
    SafeMoved P (x.bind k) := by
  cases x with
  | ok ks asks => exact hk ks asks
  | _ => trivial

theorem moveEl_safe {P : Prop} {s : State} (h : FormIf P s.mem) (q : Nat) (r : PRun) : SafeMoved P (moveEl s q r) := by
  unfold moveEl
  extract_lets n w src old
  refine kRd_bind_safe src fun a ha => kRd_bind_safe old fun b hb => kRd_bind_safe _ fun d hd => ?_
  split
  · trivial
  · show FormIf P _
    split <;> simp -implicitDefEqProofs [h]

@[simp] theorem endUnits_mem (s : State) (q : Nat) (r : PRun) : (endUnits s q r).mem = s.mem := by simp [endUnits]

@[simp] theorem moveEls_form {P : Prop} (n : Nat) {s : State} (h : FormIf P s.mem) (q : Nat) (r : PRun) :
    FormIf P (moveEls n s q r).mem := by
  induction n generalizing s r with
  | zero =>
    unfold moveEls
    split <;> simpa using h
  | succ n ih =>
    have hm := moveEl_safe h q r
    unfold moveEls
    split
    · simpa using h
    split
    · next ht =>
      rw [ht] at hm
      exact ih hm _
    all_goals simp -implicitDefEqProofs [h]

@[simp] theorem moveUnit_form {P : Prop} {s : State} (h : FormIf P s.mem) (q : Nat) (r : PRun) : FormIf P (moveUnit s q r).mem :=
  moveEls_form _ h q _

@[simp] theorem rangesTest_form {P : Prop} {s : State} (h : FormIf P s.mem) (q : Nat) (r : PRun) (p : FPkt) :
    FormIf P (rangesTest s q r p).mem := by
  have ht := tensorTests_safe h q r p
  unfold rangesTest
  split
  · simpa using h
  split
  · simpa using h
  · simpa using h
  · next hu => simpa [hu] using ht
  · simpa using h
  · simp only
    (repeat' split) <;> simp -implicitDefEqProofs [h]

@[simp] theorem afterTime_form {P : Prop} {s : State} (h : FormIf P s.mem) (q : Nat) (r : PRun) (p : FPkt) :
    FormIf P (afterTime s q r p).mem := by
  unfold afterTime
  split <;> simp -implicitDefEqProofs [h]

@[simp] theorem scopeTime_form {P : Prop} {s : State} (h : FormIf P s.mem) (q : Nat) (r : PRun) (p : FPkt) :
    FormIf P (scopeTime s q r p).mem := by
  simp only [scopeTime]
  (repeat' split) <;> simp -implicitDefEqProofs [h]

/-- The tests of a packet are safe where the test of its form is. -/
theorem packetTests_safe {P : Prop} {s : State} (h : FormIf P s.mem) (i : Instr) (p : FPkt)
    {form : State → Nat → PRun → FPkt → PTest} (hf : ∀ q r, SafeTest P (form s q r p)) : Safe P (packetTests i p form s) := by
  unfold packetTests
  split
  · split
    · simpa using h
    · next q _ _ r _ =>
      have hq := hf q { r with ins := i }
      simp only
      split
      · split
        · simpa using h
        · simpa using h
        · split
          · simpa using h
          · split
            · split <;> simp -implicitDefEqProofs [h]
            · simpa using h
            · simpa using h
            · next hu => simpa [hu] using hq
            · simpa using h
        · exact packetPoint_safe h q _ (by simpa using h)
      · exact packetPoint_safe h q _ (by simp -implicitDefEqProofs [h])
      · simpa using h
  · simpa using h

@[simp] theorem execFlcopy_safe {P : Prop} {s : State} (h : FormIf P s.mem) (p : FPkt) : Safe P (execFlcopy p s) :=
  packetTests_safe h _ p fun q r => formTest_safe h q r p

@[simp] theorem execFlfill_safe {P : Prop} {s : State} (h : FormIf P s.mem) (p : FPkt) : Safe P (execFlfill p s) :=
  packetTests_safe h _ p fun q r => formTest_safe h q r p

@[simp] theorem execFlred_safe {P : Prop} {s : State} (h : FormIf P s.mem) (p : FPkt) : Safe P (execFlred p s) :=
  packetTests_safe h _ p fun q r => formTest_safe h q r p

@[simp] theorem execFlstmp_safe {P : Prop} {s : State} (h : FormIf P s.mem) (p : FPkt) : Safe P (execFlstmp p s) :=
  packetTests_safe h _ p fun _ _ => trivial

@[simp] theorem execFlcoll_safe {P : Prop} {s : State} (h : FormIf P s.mem) (p : FPkt) : Safe P (execFlcoll p s) :=
  packetTests_safe h _ p fun q r => collForm_safe s q r p

@[simp] theorem execNotBeforeExpiry_safe {P : Prop} {s : State} (h : FormIf P s.mem) (q : Nat) :
    Safe P (execNotBeforeExpiry q s) := by
  unfold execNotBeforeExpiry
  split
  · simpa using h
  · split
    · exact packetPoint_safe h q _ (by simp -implicitDefEqProofs [h])
    · simpa using h

theorem slotEls_safe {P : Prop} (s : State) (q : Nat) (r : PRun) (m n : Nat) (old acc : List Byte) (asks : List Word)
    {k : List Byte → List Word → MoveRes} (hk : ∀ bs asks, SafeMoved P (k bs asks)) :
    SafeMoved P (slotEls s q r m n old acc asks k) := by
  induction m generalizing n old acc asks with
  | zero => exact hk acc asks
  | succ m ih => exact kRd_bind_safe _ fun ks hs => ih _ _ _ _

@[simp] theorem execCbSlotDeliver_safe {P : Prop} {s : State} (h : FormIf P s.mem) (q : Nat) :
    Safe P (execCbSlotDeliver q s) := by
  unfold execCbSlotDeliver
  split
  · simpa using h
  split
  · split
    · simpa using h
    next r _ _ _ _ p _ _ =>
    refine hostPoint_safe h q r ?_
    split
    · simpa using h
    split
    · simpa using h
    extract_lets n b els key r' put
    split
    · simpa using h
    split
    · simpa using h
    have hput : ∀ bs asks, SafeMoved P (put bs asks) := fun bs asks => by
      simp only [put]
      split
      · trivial
      · show FormIf P _
        split <;> simp -implicitDefEqProofs [h]
    have hs := slotEls_safe s q r els r.next (s.mem.readBytes key b.slotBytes) [] [] hput
    split
    · simpa using h
    split
    · next hu =>
      rw [hu] at hs
      exact (safe_next _).mpr hs
    all_goals simp -implicitDefEqProofs [h]
  · simpa using h

@[simp] theorem execCollectiveForm_safe {P : Prop} {s : State} (h : FormIf P s.mem) (q : Nat) :
    Safe P (execCollectiveForm q s) := by
  unfold execCollectiveForm
  split
  · simpa using h
  split
  · refine packetPoint_safe h q _ ?_
    split
    · simpa using h
    · simpa using h
    split
    · simpa using h
    split
    · simpa using h
    · extract_lets srcs
      rw [safe_next, foldl_mem]
      · exact h
      · intro t m
        split <;> simp
  · simpa using h

@[simp] theorem addWords_form {P : Prop} (n : Nat) {s : State} (h : FormIf P s.mem) (q : Nat) (r : PRun) (p : FPkt) :
    FormIf P (addWords n s q r p).mem := by
  induction n generalizing s r with
  | zero => simpa [addWords] using h
  | succ n ih =>
    simp only [addWords]
    split
    · simpa using h
    split
    · exact ih (formIf_writeNat (by simpa using h) _ _ _) _
    all_goals simp -implicitDefEqProofs [h]

@[simp] theorem collUnit_form {P : Prop} {s : State} (h : FormIf P s.mem) (q : Nat) (r : PRun) (p : FPkt) :
    FormIf P (collUnit s q r p).mem := by
  simp only [collUnit]
  split
  · exact h
  split
  · exact h
  split
  · split
    · exact addWords_form _ h q r p
    · split <;> simpa using h
  · split <;> simp -implicitDefEqProofs [h]

@[simp] theorem execPacketUnitDone_safe {P : Prop} {s : State} (h : FormIf P s.mem) (q : Nat) :
    Safe P (execPacketUnitDone q s) := by
  unfold execPacketUnitDone
  split
  · simpa using h
  split
  · exact unitPoint_safe h q _ (by simp -implicitDefEqProofs [h])
  · split
    · simpa using h
    · exact hostPoint_safe h q _ (by simp -implicitDefEqProofs [h])
  · simpa using h

@[simp] theorem dropQueue_form {P : Prop} {s : State} (h : FormIf P s.mem) (qk : Nat) (q : QRec) :
    FormIf P (dropQueue s qk q).mem := by
  simp -implicitDefEqProofs [dropQueue, h]

@[simp] theorem resetHeader_form {P : Prop} {s : State} (h : FormIf P s.mem) (qk : Nat) (q : QRec) :
    FormIf P (resetHeader s qk q).mem := by
  simp only [resetHeader, State.setQueue_mem, stampSlots_mem]
  exact (formIf_setHead (formIf_setNat (formIf_clear h _ _) _ _ _) _ _).imp
    (memWf_foldl _ (fun _ _ hm => memWf_writeNat _ hm _ _) _)

@[simp] theorem resetQueue_form {P : Prop} {s : State} (h : FormIf P s.mem) (qk : Nat) (q : QRec) :
    FormIf P (resetQueue s qk q).mem := by
  simp -implicitDefEqProofs [resetQueue, h, formIf_foldl]

@[simp] theorem countCancelled_mem (s : State) (r : PRun) : (countCancelled s r).mem = s.mem := by
  simp only [countCancelled]
  (repeat' split) <;> simp

@[simp] theorem closePacket_form {P : Prop} {s : State} (h : FormIf P s.mem) (q : Nat) (r : PRun) (x : QRec) :
    FormIf P (closePacket s q r x).mem := by
  simp -implicitDefEqProofs [closePacket, h]

@[simp] theorem stampFails_form {P : Prop} {s : State} (h : FormIf P s.mem) (q : Nat) (r : PRun) (x : QRec) :
    FormIf P (stampFails s q r x).mem := by
  simp only [stampFails]
  split <;> simp -implicitDefEqProofs [h]

@[simp] theorem execPacketComplete_safe {P : Prop} {s : State} (h : FormIf P s.mem) (q : Nat) :
    Safe P (execPacketComplete q s) := by
  unfold execPacketComplete
  split
  · split
    · extract_lets bad t
      have ht : FormIf P t.mem := by
        simp only [t]
        split <;> simp -implicitDefEqProofs [h]
      have hb : Safe P (bad s) := by simp -implicitDefEqProofs [bad, h]
      split
      · simpa using h
      · exact hb
      split
      · split
        · simpa using h
        · extract_lets m u
          have hm : FormIf P m := formIf_writeNat (formIf_writeNat ht _ _ _) _ _ _
          exact (safe_next _).mpr (closePacket_form (by simpa [u] using hm) q _ _)
      · simpa using h
      · simpa using h
      · simp -implicitDefEqProofs [h]
      · simp -implicitDefEqProofs [h]
      · exact hb
    · simp -implicitDefEqProofs [h]
    · simpa using h
  · simpa using h

@[simp] theorem takePacket_form {P : Prop} {s : State} (h : FormIf P s.mem) (qk : Nat) (q : QRec) (k : Nat) :
    FormIf P (takePacket s qk q k).2.mem := by
  simp only [takePacket]
  split
  · simp -implicitDefEqProofs [h]
  split
  · split
    · split <;> simp -implicitDefEqProofs [h]
    · simp -implicitDefEqProofs [h]
  · simp -implicitDefEqProofs [h]

@[simp] theorem flumeMove_form {P : Prop} {s : State} (h : FormIf P s.mem) (qk : Nat) : FormIf P (flumeMove s qk).2.mem := by
  simp only [flumeMove]
  (repeat' split) <;> simp -implicitDefEqProofs [h]

/-! ### Time, clocks, load-blocks and context pages -/

@[simp] theorem execTimewaitExpiry_safe {P : Prop} {s : State} (h : FormIf P s.mem) (core : Nat) :
    Safe P (execTimewaitExpiry core s) := by
  simp only [execTimewaitExpiry]
  split <;> simp -implicitDefEqProofs [h]

@[simp] theorem execMwaitPoll_safe {P : Prop} {s : State} (h : FormIf P s.mem) (core : Nat) : Safe P (execMwaitPoll core s) := by
  simp only [execMwaitPoll]
  split <;> simp -implicitDefEqProofs [h]

@[simp] theorem execMwaitWake_safe {P : Prop} {s : State} (h : FormIf P s.mem) (core : Nat) : Safe P (execMwaitWake core s) := by
  simp only [execMwaitWake]
  split <;> simp -implicitDefEqProofs [h]

@[simp] theorem execCxlCacheSnoop_safe {P : Prop} {s : State} (h : FormIf P s.mem) (core line : Nat) :
    Safe P (execCxlCacheSnoop core line s) := by
  simp only [execCxlCacheSnoop]
  split <;> simp -implicitDefEqProofs [h]

@[simp] theorem keepTime_form {P : Prop} {s t : State} (hs : FormIf P s.mem) (ht : FormIf P t.mem) :
    FormIf P (keepTime s t).mem := by
  unfold keepTime
  split
  · exact ht
  · exact hs

@[simp] theorem postLoss_form {P : Prop} {s : State} (h : FormIf P s.mem) (value : Word) (die ctx : Nat) :
    FormIf P (postLoss s value die ctx).mem := by
  unfold postLoss
  split
  · next ht => exact postEvent_form h ht
  · simpa using h

@[simp] theorem execSyncErrTick_safe {P : Prop} {s : State} (h : FormIf P s.mem) (die : Nat) :
    Safe P (execSyncErrTick die s) := by
  simp only [execSyncErrTick]
  split
  · simpa using h
  split
  · exact (safe_next _).mpr (formIf_foldl (fun t c ht => postLoss_form ht _ _ _) _ (by simpa using h))
  · simpa using h

@[simp] theorem execTimeRecordWrite_safe {P : Prop} {s : State} (h : FormIf P s.mem) (port : Port) (ptm : Word) :
    Safe P (execTimeRecordWrite port ptm s) := by
  unfold execTimeRecordWrite
  extract_lets a now
  split
  · simpa using h
  · simp only [safe_next]
    iterate 3 refine formIf_writeNat ?_ _ _ _
    exact h

@[simp] theorem execSensorSample_safe {P : Prop} {s : State} (h : FormIf P s.mem) (die : Nat) (temps : List Int)
    (powers : List Nat) : Safe P (execSensorSample die temps powers s) := by
  unfold execSensorSample
  extract_lets d n t e ss found ss' u
  split
  · simpa using h
  · rw [safe_next, foldl_mem]
    · simpa [u, t] using h
    · intros
      rfl

@[simp] theorem dieClock_mem (s : State) (die top : Nat) (x : ClockSet) : (dieClock s die top x).mem = s.mem := by
  simp only [dieClock]
  split <;> simp

@[simp] theorem execClockChange_safe {P : Prop} {s : State} (h : FormIf P s.mem) (b : Block) (x : ClockSet) :
    Safe P (execClockChange b x s) := by
  simp only [execClockChange]
  split <;> simp -implicitDefEqProofs [h]

@[simp] theorem dieClockDone_mem (s : State) (die : Nat) : (dieClockDone s die).mem = s.mem := by
  simp only [dieClockDone]
  split <;> simp

@[simp] theorem execClockChangeDone_safe {P : Prop} {s : State} (h : FormIf P s.mem) (b : Block) :
    Safe P (execClockChangeDone b s) := by
  simp only [execClockChangeDone]
  (repeat' split) <;> simp -implicitDefEqProofs [h]

@[simp] theorem setBlock_mem (s : State) (c i : Nat) (b : LoadBlock) : (setBlock s c i b).mem = s.mem := (rfl)

@[simp] theorem failBlock_mem (s : State) (c i : Nat) (b : LoadBlock) (cause : BitVec 8) (va : Word) :
    (failBlock s c i b cause va).mem = s.mem :=
  (rfl)

@[simp] theorem raiseBlock_mem (s : State) (c i : Nat) (b : LoadBlock) : (raiseBlock s c i b).mem = s.mem := by
  simp only [raiseBlock]
  (repeat' split) <;> simp

@[simp] theorem fillBlock_form {P : Prop} {s : State} (h : FormIf P s.mem) (c i : Nat) (b : LoadBlock) :
    FormIf P (fillBlock s c i b).mem := by
  simp only [fillBlock]
  (repeat' split) <;> simp -implicitDefEqProofs [h]

@[simp] theorem execLoadblockFillDone_safe {P : Prop} {s : State} (h : FormIf P s.mem) (core i : Nat) :
    Safe P (execLoadblockFillDone core i s) := by
  simp only [execLoadblockFillDone]
  split <;> simp -implicitDefEqProofs [h]

@[simp] theorem execFaultRecordPost_safe {P : Prop} {s : State} (h : FormIf P s.mem) (die : Nat) :
    Safe P (execFaultRecordPost die s) := by
  simp only [execFaultRecordPost]
  (repeat' split) <;> simp -implicitDefEqProofs [h]

@[simp] theorem settleCore_mem (s : State) (c fid : Nat) (bad : Option Word) : (settleCore s c fid bad).mem = s.mem := (rfl)

@[simp] theorem settleAgent_mem (s : State) (x : FaultRec) (bad : Option Word) : (settleAgent s x bad).mem = s.mem := by
  simp only [settleAgent]
  (repeat' split) <;> simp

@[simp] theorem refusedVerdict_mem (s : State) (port : Port) : (refusedVerdict s port).mem = s.mem := by
  unfold refusedVerdict
  split <;> simp

@[simp] theorem verdict_safe {P : Prop} {s : State} (h : FormIf P s.mem) (port : Port) (ctx : Nat) (fid : BitVec 32)
    (retry : Bool) :
    Safe P (verdict port ctx fid retry s) := by
  simp only [verdict]
  (repeat' split) <;> simp -implicitDefEqProofs [h]

@[simp] theorem rearm_mem (s : State) (ctx : Nat) (v : Word) : (rearm s ctx v).mem = s.mem := by
  unfold rearm
  rw [foldl_mem]
  intro t x
  simp only
  (repeat' split) <;> simp

@[simp] theorem execInvalidationAck_safe {P : Prop} {s : State} (h : FormIf P s.mem) (ctx : Nat) :
    Safe P (execInvalidationAck ctx s) := by
  simp only [execInvalidationAck]
  split <;> simp -implicitDefEqProofs [h]

@[simp] theorem scopeRes_safe {P : Prop} {s : State} (h : FormIf P s.mem) (ctx : Nat) (v : Word) : Safe P (scopeRes s ctx v) := by
  simp -implicitDefEqProofs [scopeRes, h]

@[simp] theorem driverScope_safe {P : Prop} {s : State} (h : FormIf P s.mem) (ctx : Nat) (parent : Option Nat) (home : Nat) :
    Safe P (driverScope s ctx parent home) := by
  simp only [driverScope]
  split <;> simp -implicitDefEqProofs [h]

@[simp] theorem queueRes_safe {P : Prop} {s : State} (h : FormIf P s.mem) (ctx : Nat) (v : Word) : Safe P (queueRes s ctx v) := by
  simp -implicitDefEqProofs [queueRes, h]

@[simp] theorem createQueue_safe {P : Prop} {s : State} (h : FormIf P s.mem) (kind : QKind) (ctx logcap die : Nat) :
    Safe P (createQueue kind ctx logcap die s) := by
  simp only [createQueue]
  (repeat' split) <;> simp -implicitDefEqProofs [h]

@[simp] theorem cutRun_mem (s : State) (q : Nat) (r : PRun) : (cutRun s q r).mem = s.mem := (rfl)

@[simp] theorem deleteQueue_form {P : Prop} {s : State} (h : FormIf P s.mem) (q : Nat) (x : QRec) :
    FormIf P (deleteQueue s q x).mem := by
  simp -implicitDefEqProofs [deleteQueue, h, formIf_foldl]

@[simp] theorem execQcmdDestroy_safe {P : Prop} {s : State} (h : FormIf P s.mem) (ctx q : Nat) :
    Safe P (execQcmdDestroy ctx q s) := by
  simp only [execQcmdDestroy]
  (repeat' split) <;> simp -implicitDefEqProofs [h]

@[simp] theorem execQcmdReset_safe {P : Prop} {s : State} (h : FormIf P s.mem) (ctx q : Nat) :
    Safe P (execQcmdReset ctx q s) := by
  simp only [execQcmdReset]
  (repeat' split) <;> simp -implicitDefEqProofs [h]

/-! ### The management page, the host and upkeep -/

@[simp] theorem setMgmt_mem (s : State) (m : Mgmt) : (setMgmt s m).mem = s.mem := (rfl)

@[simp] theorem setOwnerPort_mem (s : State) (p : Option Port) : (setOwnerPort s p).mem = s.mem := (rfl)

@[simp] theorem mgmtErr_mem (s : State) (code : BitVec 8) : (mgmtErr s code).mem = s.mem := (rfl)

@[simp] theorem exclWrite_safe {P : Prop} {s : State} (h : FormIf P s.mem) (port : Port) {k : Out} (hk : Safe P k) :
    Safe P (exclWrite s port k) := by
  simp -implicitDefEqProofs [exclWrite, h, hk]

@[simp] theorem execCtxcmdDestroy_safe {P : Prop} {s : State} (h : FormIf P s.mem) (port : Port) (ctx : Nat) :
    Safe P (execCtxcmdDestroy port ctx s) :=
  exclWrite_safe h port (by simp -implicitDefEqProofs [h, foldl_mem])

@[simp] theorem freeCtx_form {P : Prop} {s : State} (h : FormIf P s.mem) (ctx : Nat) : FormIf P (freeCtx s ctx).mem := by
  unfold freeCtx
  extract_lets t mine u v gone dies w
  have ht : FormIf P t.mem := by
    simp only [t]
    rwa [foldl_mem]
    intros
    simp
  have hu : FormIf P u.mem := by
    refine formIf_foldl (fun r x hr => dropQueue_form ?_ _ _) _ ht
    rw [foldl_mem]
    · simpa using hr
    · intros
      simp
  have hv : FormIf P v.mem := formIf_foldl (fun r x hr => freeTensor_form hr _) _ hu
  exact hv

@[simp] theorem fwRes_safe {P : Prop} {s : State} (h : FormIf P s.mem) (code : BitVec 8) : Safe P (fwRes s code) := by
  simp -implicitDefEqProofs [fwRes, h]

@[simp] theorem fwActs_safe {P : Prop} {s : State} (h : FormIf P s.mem) {k : Out} (hk : Safe P k) : Safe P (fwActs s k) := by
  simp -implicitDefEqProofs [fwActs, h, hk]

@[simp] theorem execFwcmdActivate_safe {P : Prop} {s : State} (h : FormIf P s.mem) (port : Port) :
    Safe P (execFwcmdActivate port s) :=
  exclWrite_safe h port (fwActs_safe h (by simp -implicitDefEqProofs [h]))

@[simp] theorem setMaint_mem (s : State) (on : Bool) (st : DevSt) : (setMaint s on st).mem = s.mem := by
  simp only [setMaint]

@[simp] theorem execFwcmdEnterMaint_safe {P : Prop} {s : State} (h : FormIf P s.mem) (port : Port) :
    Safe P (execFwcmdEnterMaint port s) :=
  exclWrite_safe h port (fwActs_safe h (by simp -implicitDefEqProofs [h]))

@[simp] theorem execFwcmdLeaveMaint_safe {P : Prop} {s : State} (h : FormIf P s.mem) (port : Port) :
    Safe P (execFwcmdLeaveMaint port s) :=
  exclWrite_safe h port (fwActs_safe h (by simp -implicitDefEqProofs [h]))

@[simp] theorem otherWrite_safe {P : Prop} {s : State} (h : FormIf P s.mem) (port : Port) (off : Nat) (val : Word) :
    Safe P (otherWrite port off val s) := by
  simp -implicitDefEqProofs [otherWrite, h]

@[simp] theorem pageWrite_safe {P : Prop} {s : State} (h : FormIf P s.mem) (port : Port) (ctx : Nat) (f : Context → Context) :
    Safe P (pageWrite s port ctx f) := by
  simp -implicitDefEqProofs [pageWrite, h]

@[simp] theorem execHostRegisterWrite_safe {P : Prop} {s : State} (h : FormIf P s.mem) (port : Port) (reg : HostReg)
    (val : Word) :
    Safe P (execHostRegisterWrite port reg val s) := by
  simp only [execHostRegisterWrite]
  split <;> simp -implicitDefEqProofs [h]

@[simp] theorem doeAnswer_safe {P : Prop} {s : State} (h : FormIf P s.mem) (port : Port) (a : Spdm) :
    Safe P (doeAnswer s port a) := by
  simp -implicitDefEqProofs [doeAnswer, h]

@[simp] theorem cdatAnswer_mem (s : State) (port : Port) : (cdatAnswer s port).mem = s.mem := by
  simp only [cdatAnswer]
  split <;> simp

@[simp] theorem prefetch_mem (s : State) (core va : Nat) : (prefetch s core va).mem = s.mem := by
  simp only [prefetch]
  (repeat' split) <;> simp

@[simp] theorem execBirsp_safe {P : Prop} {s : State} (h : FormIf P s.mem) (line : Nat) (dirty : Option (List (BitVec 8))) :
    Safe P (execBirsp line dirty s) := by
  simp only [execBirsp]
  (repeat' split) <;> simp -implicitDefEqProofs [h]

@[simp] theorem execHostAtomicopIo_safe {P : Prop} {s : State} (h : FormIf P s.mem) (port : Port) :
    Safe P (execHostAtomicopIo port s) := (safe_next _).mpr h

@[simp] theorem dropRings_form {P : Prop} {s : State} (h : FormIf P s.mem) : FormIf P (dropRings s).mem := by
  simp -implicitDefEqProofs [dropRings, h]

@[simp] theorem endMove_form {P : Prop} {old s : State} (h : FormIf P s.mem) : FormIf P (endMove old s).mem := by
  unfold endMove
  refine writeLate_form (dropRings_form ?_) _
  split
  · exact h
  · exact unowe_form h _

@[simp] theorem hostWrite_form {P : Prop} {s : State} (h : FormIf P s.mem) (key : Nat) (bs : List Byte) :
    FormIf P (hostWrite s key bs).mem := by
  simp -implicitDefEqProofs [hostWrite, h]

@[simp] theorem execPackageReset_safe {P : Prop} {s : State} (h : FormIf P s.mem) : Safe P (execPackageReset s) :=
  (safe_next _).mpr (h.imp memWf_hostBytes)

@[simp] theorem setExpander_form {P : Prop} {s : State} (h : FormIf P s.mem) (p : Port) (x : Expander) :
    FormIf P (setExpander s p x).mem := by
  simp only [setExpander]
  split <;> simp -implicitDefEqProofs [h]

@[simp] theorem execPortTrain_safe {P : Prop} {s : State} (h : FormIf P s.mem) (port : Port) (partner : Partner) :
    Safe P (execPortTrain port partner s) := by
  unfold execPortTrain
  split <;> simp -implicitDefEqProofs [h, linkDown_mem]

@[simp] theorem execPortLinkDown_safe {P : Prop} {s : State} (h : FormIf P s.mem) (port : Port) :
    Safe P (execPortLinkDown port s) := by
  simpa [execPortLinkDown, linkDown_mem] using h

@[simp] theorem execExpanderRemoval_safe {P : Prop} {s : State} (h : FormIf P s.mem) (port : Port) :
    Safe P (execExpanderRemoval port s) := by
  simp only [execExpanderRemoval]
  split <;> simp -implicitDefEqProofs [h]

@[simp] theorem poisonEntry_mem (s : State) (c n : Nat) (v : VQ) : (poisonEntry s c n v).mem = s.mem := (rfl)

@[simp] theorem poisonReg_mem (s : State) (c cls n : Nat) : (poisonReg s c cls n).mem = s.mem := by
  simp only [poisonReg]
  (repeat' split) <;> simp

/-! ### Moves and steps -/

/-- What each instruction and event does goes on, and keeps the form where P holds; the short ones are unfolded here. -/
theorem exec_safe {P : Prop} {s : State} (h : FormIf P s.mem) (i : Instr) : Safe P (exec i s) := by
  cases i
  all_goals
    simp only [exec]
    simp -implicitDefEqProofs [h,
      execAdd, execSub, execAnd, execOr, execXor, execSll, execSrl, execSra, execSlt, execSltu, execMin, execMax, execMinu,
      execMaxu, execMul, execMulh, execMulhu, execDiv, execDivu, execRem, execRemu, execClz, execCtz, execPopc, execFshr,
      execAddi, execAndi, execOri, execXori, execSlti, execSltiu, execSlli, execSrli, execSrai, execLiu, execFli, execCMv,
      execCLi, execCAddi, execCAdd, execCSub, execCSlli, execFadd, execFsub, execFmul, execFdiv, execFsqrt, execFmin, execFmax,
      execFeq, execFlt, execFle, execFcvtws, execFcvtus, execFcvtsw, execFcvtsu, execFabs, execFneg, execFma, execAadd,
      execAswp, execAcas, execAand, execAor, execAxor, execAmin, execAmax, execAminu, execAmaxu, execAfadd, execBeq, execBne,
      execBlt, execBge, execBltu, execBgeu, execJal, execJalr, execLoopr, execBp, execNop, execSemw, execTimer, execCsrr,
      execCsrw, execCsrs, execCsrc, execVmode, execVadd, execVsub, execVmul, execVmin, execVmax, execVand, execVor, execVxor,
      execVshl, execVshr, execVadds, execVmuls, execVmad, execVfma, execVmadk, execVmads, execVfsh, execVceq, execVclt,
      execVcle, execVsel, execVcvt, execVred, execVscan, execVperm, execVslide, execVsfu, execVbits, execVcbx, execVqnt,
      execVmov, execVun, execPset, execPand, execPor, execPxor, execPnot, execPcnt, execVbcast, execVextr, execVins, execVpark,
      execVunpark, execVld, execVst, execVlds, execVstm, execVldx, execVstx, execVldc, execVstc, execCbadvRptr, execCbadvWptr,
      execSpush, execSpop, execSbal, execVldb, execVldst, execVstst, execMringStat, execOwnf, execOwnfAuto, execTret,
      execSafept, execYield, execBlk, execLdb, execLdbu, execLdh, execLdhu, execLdw, execLdwu, execLdd, execLds, execStb,
      execSth, execStw, execStd, execCLdd, execCStd, execKld, execTensorProbe, execFitTimeout, execPassoverRaise,
      execGtimeExchange, execHeadroomRefresh, execVerdictRetry, execVerdictUnresolvable, execInval, execScopecmdCreateRoot,
      execScopecmdCreateChild, execScopecmdFree, execQcmdCreateLaunchQueue, execQcmdCreateFlumeQueue, execTrh,
      execMgmtSemAcquire, execMgmtSemRelease, execCtxcmdCreate, execCtxcmdSetVdmap, execContextDestroyDone, execAssignBarrier,
      execAssignTokenChannel, execAssignRelease, execFwcmdStage, execGetVersion, execGetCapabilities, execNegotiateAlgorithms,
      execGetDigests, execGetCertificate, execChallenge, execGetMeasurements, execHostCxlMemRequest, execCxlIoCompletion,
      execStartUpReady, execEccCorrected, execEccUncorrectable, execHbmScrub]

theorem settled_safe {P : Prop} (old : State) {x : Out} (h : Safe P x) : Safe P (settled old x) := by
  obtain ⟨t, rfl, ht⟩ := h
  exact (safe_next _).mpr (endMove_form ht)

theorem runFetched_safe {P : Prop} {x : Fetched × State} (h1 : SafeFetch P x.1) (h2 : FormIf P x.2.mem) :
    Safe P (runFetched x) := by
  unfold runFetched
  split
  · exact exec_safe h2 _
  · next ht => exact (safe_next _).mpr (by simpa [ht] using h1)

theorem runMove_safe {P : Prop} {x : Option Instr × State} (h : FormIf P x.2.mem) : Safe P (runMove x) := by
  unfold runMove
  split
  · exact exec_safe h _
  · exact (safe_next _).mpr h

theorem queueStep_safe {P : Prop} {s : State} (h : FormIf P s.mem) (c : Nat) (v : VQ) : Safe P (queueStep s c v) := by
  unfold queueStep
  split
  · exact (safe_next _).mpr h
  · exact exec_safe h _

@[simp] theorem passTime_form {P : Prop} {s : State} (h : FormIf P s.mem) (xs : List (Nat × Nat)) :
    FormIf P (passTime s xs).mem := by
  refine keepTime_form h ?_
  rw [foldl_mem]
  · exact h
  · intros
    rfl

@[simp] theorem fillCached_mem (s : State) (die ctx va : Nat) : (fillCached s die ctx va).mem = s.mem := by
  unfold fillCached
  (repeat' split) <;> rfl

@[simp] theorem dropCached_mem (s : State) (die ctx va : Nat) : (dropCached s die ctx va).mem = s.mem := (rfl)

/-- A move of a unit of the package is safe. -/
theorem moveStep_safe {P : Prop} {s : State} (h : FormIf P s.mem) {m : Move} (hm : m.unitOk = true) : Safe P (moveStep m s) := by
  cases m with
  | strand c =>
    have hc : ¬512 ≤ c := by simpa [Move.unitOk] using hm
    obtain ⟨h1, h2⟩ := strandMove_safe (s := { s with agent := .strand c, cur := c }) h c
    simp only [moveStep, if_neg hc]
    exact settled_safe _ (runFetched_safe h1 h2)
  | queue c v =>
    have hc : ¬512 ≤ c := by simpa [Move.unitOk] using hm
    simp only [moveStep, if_neg hc]
    exact settled_safe _ (queueStep_safe (by exact h) c v)
  | array die n =>
    have hc : ¬(8 ≤ die ∨ 16 ≤ n) := by
      simp only [Move.unitOk, Bool.and_eq_true, decide_eq_true_eq] at hm
      omega
    simp only [moveStep, if_neg hc]
    exact settled_safe _ (runMove_safe (by rw [arrayMove_mem]; exact h))
  | flume q => exact settled_safe _ (runMove_safe (flumeMove_form (by exact h) q))
  | walker l => exact settled_safe _ (runMove_safe (walkerMove_form (by exact h) l))
  | frame f => exact settled_safe _ (runMove_safe (frameMove_form (by exact h) f))
  | time xs =>
    have hx : ¬xs.any (fun x => decide (18 ≤ x.1)) = true := by
      simpa [Move.unitOk] using hm
    simp only [moveStep, if_neg hx]
    exact (safe_next _).mpr (passTime_form (by exact h) xs)
  | cycles c n =>
    have hc : ¬512 ≤ c := by simpa [Move.unitOk] using hm
    simp only [moveStep, if_neg hc]
    exact (safe_next _).mpr h
  | event i =>
    simp only [moveStep]
    split
    · exact settled_safe _ (exec_safe (by exact h) i)
    · exact (safe_next _).mpr h
  | cache die ctx va =>
    have hc : ¬8 ≤ die := by simpa [Move.unitOk] using hm
    simp only [moveStep, if_neg hc]
    simpa using h
  | evict die ctx va =>
    have hc : ¬8 ≤ die := by simpa [Move.unitOk] using hm
    simp only [moveStep, if_neg hc]
    simpa using h
  | prefetch c va =>
    have hc : ¬512 ≤ c := by simpa [Move.unitOk] using hm
    simp only [moveStep, if_neg hc]
    simpa using h
  | dropLine c va =>
    have hc : ¬512 ≤ c := by simpa [Move.unitOk] using hm
    simp only [moveStep, if_neg hc]
    simpa using h
  | live x =>
    simp only [moveStep, addLive]
    split <;> exact (safe_next _).mpr h
  | load ctx recs => exact settled_safe _ ((safe_next _).mpr (loadImage_form (by exact h) ctx recs))
  | cdat port => simpa [moveStep] using h
  | hostWrite key bs => exact (safe_next _).mpr (hostWrite_form (by exact h) key bs)

/-- A move that goes on names a unit of the package. -/
theorem unitOk_of_moveStep {s t : State} {m : Move} (h : moveStep m s = .next t) : m.unitOk = true := by
  cases m <;> simp only [moveStep] at h <;> simp only [Move.unitOk] <;> grind

/-- A move that goes on keeps the form. -/
theorem moveStep_keeps {s t : State} {m : Move} (hs : memWf s.mem) (h : moveStep m s = .next t) : memWf t.mem := by
  obtain ⟨u, hu, hf⟩ := moveStep_safe (P := True) (fun _ => hs) (unitOk_of_moveStep h)
  cases hu.symm.trans h
  exact hf trivial

/-- Settles O59: what goes on named units of the package, and such a move keeps the form. -/
theorem stepKeepsMemory : Obligations.StepKeepsMemory := by
  intro s t hs ht
  unfold step at ht
  split at ht
  · exact moveStep_keeps hs ht
  · exact moveStep_keeps (by exact hs) ht

/-- Settles O60: the move that a schedule of units of the package names is safe, whatever the form of memory. -/
theorem stepAlwaysGoes : Obligations.StepAlwaysGoes := by
  intro s hs
  obtain ⟨hall, hcur⟩ := Bool.and_eq_true_iff.mp hs
  suffices hm : Safe False (step s) by
    obtain ⟨t, ht, -⟩ := hm
    exact ⟨t, ht⟩
  unfold step
  split
  · exact moveStep_safe False.elim (by simpa [Move.unitOk] using hcur)
  · next m ms hms =>
    refine moveStep_safe False.elim ?_
    rw [hms] at hall
    exact (Bool.and_eq_true_iff.mp (List.all_cons ▸ hall)).1

end Sys2Proof.Machine

/-! ## The scalar arithmetic groups (R102, R139, R308, R309, R323) -/

namespace Sys2Proof.Machine
open Sys2Proof Sys2Proof.Ob

/-! ### The counts of Table 14-2 -/

theorem popN_eq (n x : Nat) : popN n x = ((List.range n).filter (fun j => x.testBit j)).length := by
  induction n generalizing x with
  | zero => rfl
  | succ n ih =>
    have hbit : x % 2 = (if x.testBit 0 then 1 else 0) := by
      rcases Nat.mod_two_eq_zero_or_one x with h | h <;> simp [Nat.testBit_zero, h]
    rw [popN, ih, hbit, List.range_succ_eq_map, List.filter_cons, List.filter_map, apply_ite List.length]
    simp only [List.length_cons, List.length_map, Function.comp_def, Nat.testBit_succ]
    split <;> omega

theorem ctzN_eq (n x : Nat) : ctzN n x = ((List.range n).takeWhile (fun j => !x.testBit j)).length := by
  induction n generalizing x with
  | zero => rfl
  | succ n ih =>
    rw [ctzN, ih, List.range_succ_eq_map, List.takeWhile_cons, List.takeWhile_map]
    simp only [Function.comp_def, Nat.testBit_succ, Nat.testBit_zero]
    rcases Nat.mod_two_eq_zero_or_one x with h | h <;> simp [h, Nat.add_comm]

/-- The zeros above the highest bit set of n bits. -/
theorem clzN_eq (n : Nat) {x : Nat} (hx : x < 2 ^ n) :
    clzN n x = ((List.range n).takeWhile (fun j => !x.testBit (n - 1 - j))).length := by
  induction n with
  | zero =>
    have : x = 0 := by simpa using hx
    subst this
    rfl
  | succ n ih =>
    have hshift : ((fun j => !x.testBit (n + 1 - 1 - j)) ∘ Nat.succ) = fun j => !x.testBit (n - 1 - j) := by
      funext j
      simp only [Function.comp_def]
      congr 2
      omega
    rw [List.range_succ_eq_map, List.takeWhile_cons, List.takeWhile_map, hshift]
    by_cases hlow : x < 2 ^ n
    · have hrest := ih hlow
      simp only [Nat.add_sub_cancel, Nat.sub_zero, Nat.testBit_lt_two_pow hlow, Bool.not_false, if_true, List.length_cons,
        List.length_map, ← hrest]
      unfold clzN
      split
      · rfl
      · next hne =>
        have := (Nat.log2_lt hne).mpr hlow
        omega
    · have hne : x ≠ 0 := by
        rintro rfl
        exact hlow (Nat.two_pow_pos n)
      have hlog : x.log2 = n :=
        Nat.le_antisymm (Nat.le_of_lt_succ ((Nat.log2_lt hne).mpr hx)) ((Nat.le_log2 hne).mpr (Nat.le_of_not_lt hlow))
      have htop : x.testBit n = true := hlog ▸ Nat.testBit_log2 hne
      simp [htop, clzN, hne, hlog]

theorem aluPopc_eq (a : Word) : aluPopc a = BitVec.ofNat 64 (setBits a) := by
  rw [aluPopc, popN_eq]
  rfl

theorem aluCtz_eq (a : Word) : aluCtz a = BitVec.ofNat 64 (trailing a) := by
  rw [aluCtz, ctzN_eq]
  rfl

theorem aluClz_eq (a : Word) : aluClz a = BitVec.ofNat 64 (leading a) := by
  rw [aluClz, clzN_eq 64 a.isLt]
  rfl

/-! ### Products and comparisons -/

theorem aluMul_eq (a b : Word) : aluMul a b = BitVec.ofInt 64 (a.toInt * b.toInt) := by
  rw [BitVec.ofInt_mul, BitVec.ofInt_toInt, BitVec.ofInt_toInt, aluMul]

/-- Bits 127 to 64 of a number, as two widths write them. -/
theorem highWord_ofInt (x : Int) : ((BitVec.ofInt 128 x) >>> 64).truncate 64 = BitVec.ofInt 64 (x / 2 ^ 64) := by
  apply BitVec.eq_of_toNat_eq
  simp only [BitVec.truncate_eq_setWidth, BitVec.toNat_setWidth, BitVec.toNat_ushiftRight, BitVec.toNat_ofInt,
    Nat.shiftRight_eq_div_pow]
  omega

theorem aluMulh_eq (a b : Word) : aluMulh a b = BitVec.ofInt 64 (a.toInt * b.toInt / 2 ^ 64) := by
  rw [← highWord_ofInt, BitVec.ofInt_mul, ← BitVec.signExtend, ← BitVec.signExtend, aluMulh]

theorem aluMulhu_eq (a b : Word) : aluMulhu a b = BitVec.ofNat 64 (a.toNat * b.toNat / 2 ^ 64) := by
  have hprod : a.toNat * b.toNat < 2 ^ 128 := by
    calc a.toNat * b.toNat < 2 ^ 64 * 2 ^ 64 := Nat.mul_lt_mul'' a.isLt b.isLt
      _ = 2 ^ 128 := by norm_num
  apply BitVec.eq_of_toNat_eq
  simp only [aluMulhu, BitVec.truncate_eq_setWidth, BitVec.toNat_setWidth, BitVec.toNat_ushiftRight, BitVec.toNat_mul,
    BitVec.toNat_ofNat, Nat.shiftRight_eq_div_pow]
  rw [Nat.mod_eq_of_lt (a.isLt.trans (by norm_num)), Nat.mod_eq_of_lt (b.isLt.trans (by norm_num)), Nat.mod_eq_of_lt hprod]

theorem aluFshr_eq (n : BitVec 6) (a b : Word) :
    aluFshr n a b = BitVec.ofNat 64 ((a.toNat * 2 ^ 64 + b.toNat) / 2 ^ n.toNat) := by
  apply BitVec.eq_of_toNat_eq
  simp only [aluFshr, BitVec.truncate_eq_setWidth, BitVec.toNat_setWidth, BitVec.toNat_ushiftRight, BitVec.toNat_append,
    BitVec.toNat_ofNat, Nat.shiftRight_eq_div_pow]
  rw [← Nat.shiftLeft_add_eq_or_of_lt b.isLt, Nat.shiftLeft_eq]

theorem aluSlt_eq (a b : Word) : aluSlt a b = if a.toInt < b.toInt then 1 else 0 := by simp [aluSlt, BitVec.slt]

theorem aluSltu_eq (a b : Word) : aluSltu a b = if a.toNat < b.toNat then 1 else 0 := by simp [aluSltu, BitVec.ult]

theorem aluMin_eq (a b : Word) : aluMin a b = if a.toInt < b.toInt then a else b := by simp [aluMin, BitVec.slt]

theorem aluMax_eq (a b : Word) : aluMax a b = if a.toInt < b.toInt then b else a := by simp [aluMax, BitVec.slt]

theorem aluMinu_eq (a b : Word) : aluMinu a b = if a.toNat < b.toNat then a else b := by simp [aluMinu, BitVec.ult]

theorem aluMaxu_eq (a b : Word) : aluMaxu a b = if a.toNat < b.toNat then b else a := by simp [aluMaxu, BitVec.ult]

/-! ### What the shared forms write -/

theorem alu3_wrote (f : R3) (g : Word → Word → Word) (s : State) :
    alu3 f g s = .next (wrote s f.rd (g (reg s f.ra) (reg s f.rb)) (regD s f.ra || regD s f.rb) 2) := rfl

theorem alu2_wrote (n : Nat) (rd ra : BitVec 5) (g : Word → Word) (s : State) :
    alu2 n rd ra g s = .next (wrote s rd (g (reg s ra)) (regD s ra) n) := rfl

theorem short3_wrote (rd ra rb : BitVec 5) (g : Word → Word → Word) (s : State) :
    short3 rd ra rb g s = .next (wrote s rd (g (reg s ra) (reg s rb)) (regD s ra || regD s rb) 1) := rfl

/-- s0 reads as 0 with D clear (R86). -/
theorem reg_zero (s : State) : reg s 0 = 0 ∧ regD s 0 = false := registerZero_holds.1 s

theorem alu3_congr {g h : Word → Word → Word} (e : ∀ a b, g a b = h a b) (f : R3) (s : State) : alu3 f g s = alu3 f h s :=
  congrArg (alu3 f · s) (funext₂ e)

theorem alu2_congr {g h : Word → Word} (e : ∀ a, g a = h a) (n : Nat) (rd ra : BitVec 5) (s : State) :
    alu2 n rd ra g s = alu2 n rd ra h s := congrArg (alu2 n rd ra · s) (funext e)

/-- Table 14-2 is what the operations of two registers compute. -/
theorem exec_regOps : ∀ p ∈ regOps, ∀ (f : R3) (s : State), exec (p.1 f) s = alu3 f p.2 s := by
  simp only [regOps, List.forall_mem_cons, List.not_mem_nil, false_implies, implies_true, and_true]
  exact ⟨fun _ _ => rfl, fun _ _ => rfl, fun _ _ => rfl, fun _ _ => rfl, fun _ _ => rfl, fun _ _ => rfl, fun _ _ => rfl,
    fun _ _ => rfl, alu3_congr aluSlt_eq, alu3_congr aluSltu_eq, alu3_congr aluMin_eq, alu3_congr aluMax_eq,
    alu3_congr aluMinu_eq, alu3_congr aluMaxu_eq, alu3_congr aluMul_eq, alu3_congr aluMulh_eq, alu3_congr aluMulhu_eq,
    fun _ _ => rfl, fun _ _ => rfl, fun _ _ => rfl, fun _ _ => rfl⟩

/-- The counts are what the operations of one register compute (Table 14-2). -/
theorem exec_unOps : ∀ p ∈ unOps, ∀ (f : R2) (s : State), exec (p.1 f) s = alu2 2 f.rd f.ra p.2 s := by
  simp only [unOps, List.forall_mem_cons, List.not_mem_nil, false_implies, implies_true, and_true]
  exact ⟨fun _ => alu2_congr aluClz_eq _ _ _, fun _ => alu2_congr aluCtz_eq _ _ _, fun _ => alu2_congr aluPopc_eq _ _ _⟩

/-- Table 14-3 is what the immediate operations compute. -/
theorem exec_immOps : ∀ p ∈ immOps, ∀ (f : RI) (s : State),
    exec (p.1 f) s = alu2 2 f.rd f.ra (p.2 · (f.imm.signExtend 64)) s := by
  simp only [immOps, List.forall_mem_cons, List.not_mem_nil, false_implies, implies_true, and_true]
  exact ⟨fun _ _ => rfl, fun _ _ => rfl, fun _ _ => rfl, fun _ _ => rfl,
    fun _ => alu2_congr (fun a => aluSlt_eq a _) _ _ _, fun _ => alu2_congr (fun a => aluSltu_eq a _) _ _ _⟩

theorem exec_shiftOps : ∀ p ∈ shiftOps, ∀ (f : R2) (n : BitVec 6) (s : State),
    exec (p.1 f n) s = alu2 2 f.rd f.ra (p.2 · n.toNat) s := by
  simp only [shiftOps, List.forall_mem_cons, List.not_mem_nil, false_implies, implies_true, and_true]
  exact ⟨fun _ _ _ => rfl, fun _ _ _ => rfl, fun _ _ _ => rfl⟩

/-- Settles O1: each operation is one of the two shared forms, with the function of Table 14-2. -/
theorem scalarRegisterResult : Obligations.ScalarRegisterResult :=
  ⟨fun p hp f s => (exec_regOps p hp f s).trans (alu3_wrote ..), fun p hp f s => (exec_unOps p hp f s).trans (alu2_wrote ..),
    fun f n s => (alu3_congr (aluFshr_eq n) f s).trans (alu3_wrote ..)⟩

/-- A shift count whose high seven bits are not clear is no count of six bits. -/
theorem fld_high_ne_zero {imm : BitVec 13} (h : 64 ≤ imm.toNat) : fld imm 6 7 ≠ 0#7 := by
  intro hz
  have := congrArg BitVec.toNat hz
  have := imm.isLt
  simp only [fld, BitVec.extractLsb'_toNat, Nat.shiftRight_eq_div_pow, BitVec.toNat_ofNat] at *
  omega

/-- A shift by a constant of 64 or more is no instruction (R309). -/
theorem decodeTollum_shift_none {op : BitVec 6} (hop : op ∈ ([5, 6, 7] : List (BitVec 6))) (rd ra : BitVec 5) {imm : BitVec 13}
    (h : 64 ≤ imm.toNat) (next : BitVec 32) : decodeTollum (encSI op rd ra imm) next = none := by
  obtain ⟨hlong, hcls, hgroup, -⟩ := encSI_fields op rd ra imm
  have hcount : fld (encSI op rd ra imm) 7 7 ≠ 0#7 :=
    ((encSI_subfields op rd ra imm 6 7).2 (by omega)).trans_ne (fld_high_ne_zero h)
  have hnone : readWord (encSI op rd ra imm) next = none := by
    rw [readWord_S hlong hcls, decodeS, hgroup]
    fin_cases hop <;> exact if_neg hcount
  exact Option.eq_none_iff_forall_ne_some.mpr fun i hi => by
    rw [decodeTollum_eq_some, hnone] at hi
    exact nomatch hi.1

theorem scalarImmediateResult_holds : scalarImmediateResult :=
  ⟨fun p hp f s => (exec_immOps p hp f s).trans (alu2_wrote ..),
    fun p hp f n s => (exec_shiftOps p hp f n s).trans (alu2_wrote ..),
    fun _ hop rd ra _ next h => decodeTollum_shift_none hop rd ra h next⟩

theorem aluAdd_zero (a : Word) : aluAdd 0 a = a := zero_add a

theorem scalarConstantAndShortForms_holds : scalarConstantAndShortForms := by
  refine ⟨fun rd imm s => ⟨rfl, rfl⟩, fun ra rb s => ⟨?_, rfl, rfl⟩, fun ra imm n s => ⟨?_, rfl, rfl⟩⟩
  · obtain ⟨hval, hd⟩ := reg_zero s
    exact (short3_wrote ra 0 rb aluAdd s).trans (by rw [hval, hd, aluAdd_zero, Bool.false_or])
  · obtain ⟨hval, hd⟩ := reg_zero s
    exact (alu2_wrote 1 ra 0 (aluAdd · (imm.signExtend 64)) s).trans (by rw [hval, hd, aluAdd_zero])

/-- Settles O2: each operation is one of the shared forms, and a longer shift count has bits that its encoding must not have. -/
theorem scalarConstantResult : Obligations.ScalarConstantResult :=
  ⟨scalarImmediateResult_holds, scalarConstantAndShortForms_holds⟩

end Sys2Proof.Machine

/-! ## The scalar floating-point group (R132, R135, R140, R314, R316) -/

namespace Sys2Proof.Machine
open Sys2Proof Sys2Proof.Ob

section
variable {rd : BitVec 5} {d : Bool} {r : FRes} {s : State}

theorem fpWrite_rounded (h : r.tiny = false) :
    fpWrite rd d r s = .next (wroteF s rd (BitVec.ofNat 64 r.bits) r.flags d) := by
  simp only [fpWrite, fpDeliver, h, Bool.false_eq_true, if_false]
  rfl

theorem fpWrite_flushed (h : r.tiny = true) (hf : (s.th s.me).csr.ftz = true ∨ (s.th s.me).pos.mode = .h) :
    fpWrite rd d r s =
      .next (wroteF s rd (BitVec.ofNat 64 (r.flush fmtFP32).bits) (r.flush fmtFP32).flags d) := by
  have hflush : flushing (s.th s.me).pos.mode (s.th s.me).csr.ftz = true := by
    rcases hf with h | h <;> simp [flushing, h]
  simp only [fpWrite, fpDeliver, h, hflush, if_true]
  rfl

/-- A tiny result in K mode without FTZ takes SUBN at the instruction (R135). -/
theorem fpWrite_subn (h : r.tiny = true) (hftz : (s.th s.me).csr.ftz = false) (hk : (s.th s.me).pos.mode = .k) :
    fpWrite rd d r s = .next (s.setTh s.me
      (trapThread (s.th s.me) (s.core s.me).tvec (s.th s.me).pos cSubn 0 false noQueue)) := by
  simp only [fpWrite, fpDeliver, flushing, h, hftz, hk, if_true]
  exact congrArg Host.Outcome.next (takeTrapAt_k hk _ _ _ _ _)

end

/-- The FPU group with rounding is the shared form, whose result may be tiny. -/
theorem exec_fpOps : ∀ p ∈ fpOps, ∀ (f : R3) (rm : BitVec 2) (s : State),
    exec (p.1 f rm) s = fpWrite f.rd (regD s f.ra || regD s f.rb) (p.2 (Rm.ofBits rm) (fbits s f.ra) (fbits s f.rb)) s := by
  simp only [fpOps, List.forall_mem_cons, List.not_mem_nil, false_implies, implies_true, and_true]
  exact ⟨fun _ _ _ => rfl, fun _ _ _ => rfl, fun _ _ _ => rfl, fun _ _ _ => rfl⟩

theorem fpuRoundedResult_holds : fpuRoundedResult := by
  refine ⟨fun p hp f rm s => ?_, fun f rm s => ⟨fpWrite_rounded, fpWrite_flushed⟩, fun f rm s => ⟨fpWrite_rounded, fpWrite_flushed⟩⟩
  rw [exec_fpOps p hp f rm s]
  exact ⟨fpWrite_rounded, fpWrite_flushed⟩

theorem fpuTinyTakesSubn_holds : fpuTinyTakesSubn := by
  intro p hp f rm s htiny hftz hk
  refine ⟨_, (exec_fpOps p hp f rm s).trans (fpWrite_subn htiny hftz hk), ?_⟩
  rw [State.setTh_th_self]
  exact ⟨rfl, rfl, rfl, rfl, rfl, rfl⟩

/-- Settles O4: the delivery of a result is written, flushed or asks for the assist, by whether it is tiny. -/
theorem fpuRoundingResult : Obligations.FpuRoundingResult := ⟨fpuRoundedResult_holds, fpuTinyTakesSubn_holds⟩

/-- Settles O5: a minimum or a comparison is never tiny, and the others deliver without the test. -/
theorem fpuExactResult : Obligations.FpuExactResult := by
  refine ⟨fun p hp f s => ?_, ?_, ?_⟩
  · obtain ⟨htiny, hexec⟩ := exec_fpSelOps hp
    exact (hexec f s).trans (fpWrite_rounded (htiny _ _))
  · simp only [fpUnOps, List.forall_mem_cons, List.not_mem_nil, false_implies, implies_true, and_true]
    exact ⟨fun _ _ => rfl, fun _ _ => rfl⟩
  · simp only [fpCvtOps, List.forall_mem_cons, List.not_mem_nil, false_implies, implies_true, and_true]
    exact ⟨fun _ _ _ => rfl, fun _ _ _ => rfl, fun _ _ _ => rfl, fun _ _ _ => rfl⟩

end Sys2Proof.Machine

/-! ## Branches and jumps (R310, R318, R319) -/

namespace Sys2Proof.Machine
open Sys2Proof Sys2Proof.Ob

theorem condBranch_eq {f : RB} {s : State} (hd : noD s [f.ra, f.rb] = true) (cond : Word → Word → Bool) :
    condBranch f cond s = if cond (reg s f.ra) (reg s f.rb) then
      .next (s.setTh s.me ((s.th s.me).branch ((s.th s.me).pos.pc + 2 * f.off.signExtend 64)))
    else .next (s.advance s.me 2) := by
  rw [condBranch, guardD_of_noD hd]
  simp only [target_eq]
  rfl

/-- Table 14-4 is what the branches test. -/
theorem exec_branchOps : ∀ p ∈ branchOps, ∀ (f : RB) (s : State), exec (p.1 f) s = condBranch f p.2 s := by
  have hcongr : ∀ {g h : Word → Word → Bool}, (∀ a b, g a b = h a b) → ∀ (f : RB) (s : State),
      condBranch f g s = condBranch f h s := fun e f s => congrArg (condBranch f · s) (funext₂ e)
  simp only [branchOps, List.forall_mem_cons, List.not_mem_nil, false_implies, implies_true, and_true]
  exact ⟨fun _ _ => rfl, hcongr fun a b => Bool.eq_iff_iff.mpr (by simp), fun _ _ => rfl, fun _ _ => rfl, fun _ _ => rfl, fun _ _ => rfl⟩

theorem branchResult_holds : branchResult := by
  intro p hp f s hd
  rw [exec_branchOps p hp f s, condBranch_eq hd]
  exact ⟨fun h => by rw [if_pos h], fun h => by rw [h]; rfl⟩

theorem exec_jalr {f : RI} {s : State} (hd : noD s [f.ra] = true) :
    exec (.jalr f) s = if (reg s f.ra + f.imm.signExtend 64).getLsbD 0 then
      .next (takeTrap s s.me cMisalign (reg s f.ra + f.imm.signExtend 64))
    else .next (s.setTh s.me (((s.th s.me).wrS f.rd (s.th s.me).pos.ret false).branch (reg s f.ra + f.imm.signExtend 64))) := by
  change execJalr f s = _
  rw [execJalr, guardD_of_noD hd]
  rfl

theorem jumpResult_holds : jumpResult := by
  refine ⟨fun off s => ?_, fun f s hd => ⟨fun heven => ?_, fun hodd => ?_⟩⟩
  · rw [← target_eq]
    exact ⟨rfl, rfl⟩
  · rw [exec_jalr hd, heven]
    rfl
  · rw [exec_jalr hd, if_pos hodd]
    rfl

/-- Settles O6: a branch tests what Table 14-4 states, and a jump's target is read before its link is written. -/
theorem branchAndJumpResult : Obligations.BranchAndJumpResult := ⟨branchResult_holds, jumpResult_holds⟩

end Sys2Proof.Machine

/-! ## Loads, stores and atomics of the control core (R92, R306, R307, R320-R322, R332) -/

namespace Sys2Proof.Machine
open Sys2Proof Sys2Proof.Ob

/-! ### What keeps the agent that moves -/

@[simp] theorem sendStamp_me (s : State) (src dst : Nat) : (sendStamp s src dst).me = s.me :=
  sendStamp_keeps State.me (fun _ _ _ => rfl) s src dst

@[simp] theorem drainFifo_me (s : State) (c : Nat) : (drainFifo s c).me = s.me := rfl

@[simp] theorem storeBytes_me (s : State) (c : Nat) (a : Word) (key : Nat) (cls : Option Cls) (bs : List Byte) :
    (storeBytes s c a key cls bs).me = s.me := rfl

@[simp] theorem storeOut_me (s : State) (c : Nat) (a : Word) (key : Nat) (cls : Option Cls) (bs : List Byte) :
    (storeOut s c a key cls bs).me = s.me := by simp [storeOut]

@[simp] theorem ordered_me (s : State) (c : Nat) (order : BitVec 2) : (ordered s c order).me = s.me := by
  unfold ordered
  split
  · rfl
  · split <;> simp

/-! ### A deferred load with an error in its base -/

/-- After reset, the strand of core 0 moving in context 0: s4 holds an address of its scratchpad. -/
def baseInSpad : State :=
  { State.reset with
    agent := .strand 0, ctxs := [(0, { live := true, vdmap := 0x8 })],
    cores := [(0, { th := ({} : Thread).wrS 4 0x00FFFF8000000000 false, bind := { ctx := some 0 } })] }

/-- The same with an uncorrectable error in s4 (R304), whose D bit is clear. -/
def baseInError : State := poisonReg baseInSpad 0 0 4

/-- LDS s6, 0(s4). -/
def ldsOfBase : RI := { rd := 6, ra := 4, imm := 0 }

/-- s6 has D set after the step. -/
def defers (o : Out) : Bool :=
  match o with
  | .next t => regD t 6
  | _ => false

/-- The access is let through, but LDS answers 0 with D set (R322). -/
theorem lds_of_baseInError :
    fresh baseInError = true ∧ noD baseInError [4] = true ∧
      letThrough baseInError .read false (reg baseInError 4 + (0 : BitVec 13).signExtend 64) 8 (spadKey 0 0) none = true ∧
      defers (exec (.lds ldsOfBase) baseInError) = true := by decide +kernel

/-- Refutes O8: a base with an uncorrectable error and D clear makes LDS defer, where the statement asks for the value
at its address. -/
theorem not_loadAndStoreResult : ¬ Obligations.LoadAndStoreResult := by
  rintro ⟨⟨hloads, -⟩, -⟩
  obtain ⟨hfresh, hd, hthrough, hdefers⟩ := lds_of_baseInError
  rw [hloads (.lds, 8, false) (by simp [loadOps]) ldsOfBase baseInError (spadKey 0 0) none hfresh hd hthrough] at hdefers
  have hclear : regD (wrote baseInError 6 (extend 8 false (baseInError.mem.readNat (spadKey 0 0) 8)) false 2) 6 = false := by
    decide +kernel
  exact Bool.false_ne_true (hclear.symm.trans hdefers)

/-! ### Atomics -/

/-- What is read lies below its width. -/
theorem Mem.readNat_lt (m : Mem) (key n : Nat) : m.readNat key n < 2 ^ (8 * n) := by
  induction n generalizing key with
  | zero => simp [Mem.readNat]
  | succ n ih =>
    have := ih (key + 1)
    have := (m.readByte key).isLt
    rw [Mem.readNat, show 8 * (n + 1) = 8 + 8 * n by omega, Nat.pow_add]
    omega

/-- A signed value of a width is the word of that width read as signed. -/
theorem toIntOf_eq {bits x : Nat} (hb : 0 < bits) (hx : x < 2 ^ bits) : toIntOf true bits x = (BitVec.ofNat bits x).toInt := by
  have hhalf : 2 ^ bits = 2 * 2 ^ (bits - 1) := by
    rw [← Nat.pow_succ']
    congr 1
    omega
  rw [BitVec.toInt_eq_toNat_cond, BitVec.toNat_ofNat, Nat.mod_eq_of_lt hx, toIntOf, Bool.true_and]
  by_cases h : 2 ^ (bits - 1) ≤ x
  · rw [if_pos (by simpa using h), if_neg (by omega)]
  · rw [if_neg (by simpa using h), if_pos (by omega)]

/-- An access that is let through is no access of HOST-U memory (R273). -/
theorem not_hostU_of_letThrough {s : State} {k : AccKind} {rel : Bool} {a : Word} {w key : Nat} {cls : Option Cls}
    (h : letThrough s k rel a w key cls = true) : cls ≠ some .hostU := by
  simp only [letThrough, Bool.and_eq_true, decide_eq_true_eq] at h
  exact h.1.1.2

theorem checkAccess_of_letThrough {s : State} {k : AccKind} {rel : Bool} {a : Word} {w key : Nat} {cls : Option Cls}
    (h : letThrough s k rel a w key cls = true) : checkAccess s (s.whoThread s.me) k a w = .ok key cls := by
  simp only [letThrough, Bool.and_eq_true, decide_eq_true_eq] at h
  exact h.1.1.1.2

/-- An access that passes the checks outside the local window finds the class of its leaf. -/
theorem cls_of_checkAccess {s : State} {w : Who} {k : AccKind} {a : Word} {n key : Nat} {cls : Option Cls} {l : Leaf}
    (h : checkAccess s w k a n = .ok key cls) (ha : a.toNat < 2 ^ 57) (hwin : inWindow a.toNat = false)
    (hl : (translateOn s w.ctx w.die a.toNat).permit k = .ok l) : cls = some l.cls := by
  simp only [checkAccess, if_neg (Nat.not_le.mpr ha), hwin, Bool.false_eq_true, if_false, checkVirtual, hl] at h
  repeat' split at h
  all_goals cases h
  rfl

/-- An atomic that is let through is not refused for its type (R272). -/
theorem atypeAt_of_letThrough {s : State} {rel : Bool} {a : Word} {w key : Nat} {cls : Option Cls}
    (h : letThrough s .atomic rel a w key cls = true) (op : AmoOp) : atypeAt s s.me op a w = false := by
  by_contra hat
  simp only [atypeAt, Bool.not_eq_false, Bool.and_eq_true, decide_eq_true_eq, Bool.not_eq_true'] at hat
  obtain ⟨⟨⟨-, ha⟩, hwin⟩, hleaf⟩ := hat
  split at hleaf
  · next l hl =>
    have hcls := cls_of_checkAccess (checkAccess_of_letThrough h) ha hwin hl
    exact not_hostU_of_letThrough h (hcls.trans (congrArg some (of_decide_eq_true hleaf)))
  · cases hleaf

/-- The state in which an atomic has been performed, with the value that it writes, if any (R307). -/
def performed (s : State) (a : Word) (order : BitVec 2) (w key : Nat) (cls : Option Cls) (v : Option Nat) : State :=
  match v with
  | some x => storeOut (ordered s s.me order) s.me a key (pastFifo cls) (leBytes w x)
  | none =>
    if ownSpad s.me key then ordered s s.me order
    else (ordered s s.me order).setTh s.me (clearRestart ((ordered s s.me order).th s.me))

@[simp] theorem performed_me (s : State) (a : Word) (order : BitVec 2) (w key : Nat) (cls : Option Cls) (v : Option Nat) :
    (performed s a order w key cls v).me = s.me := by
  unfold performed
  split
  · simp
  · split <;> simp

/-- The registers whose D bits an operation tests. -/
def AmoOp.tested (op : AmoOp) (f : R3) : List (BitVec 5) := if op = .cas then [f.rd, f.ra, f.rb] else [f.ra, f.rb]

/-- The bits of a register that an atomic of w bytes reads. -/
def lowBits (s : State) (w : Nat) (r : BitVec 5) : Nat := (reg s r).toNat % 2 ^ (8 * w)

/-- An atomic that is let through is performed, and rd takes the old value (R307). -/
theorem amo_performed {op : AmoOp} {f : R3} {order : BitVec 2} {dbl : Bool} {s : State} {key : Nat} {cls : Option Cls}
    (hfresh : fresh s = true) (hd : noD s (op.tested f) = true)
    (h : letThrough s .atomic (order.getLsbD 1) (reg s f.ra) (if dbl then 8 else 4) key cls = true) :
    amo op f order dbl s = .next (wrote (performed s (reg s f.ra) order (if dbl then 8 else 4) key cls
      (amoVal op (if dbl then 8 else 4) (s.mem.readNat key (if dbl then 8 else 4)) (lowBits s (if dbl then 8 else 4) f.rb)
        (lowBits s (if dbl then 8 else 4) f.rd))) f.rd (BitVec.ofNat 64 (s.mem.readNat key (if dbl then 8 else 4))) false 2) := by
  generalize hw : (if dbl = true then 8 else 4) = w at h ⊢
  simp only [amo, hw]
  rw [show (if op = AmoOp.cas then [f.rd, f.ra, f.rb] else [f.ra, f.rb]) = op.tested f from rfl, guardD_of_noD hd]
  simp only [show ((s.th s.me).rdS f.ra).val = reg s f.ra from rfl, atypeAt_of_letThrough h, Bool.and_false,
    Bool.false_eq_true, if_false, coreAccess_of_letThrough hfresh h, if_neg (not_hostU_of_letThrough h), ordered_mem]
  rw [wrote, performed_me]
  rfl

/-- What Table 14-1 writes is what the operations compute. -/
theorem exec_amoOps : ∀ p ∈ amoOps, ∃ op : AmoOp,
    (∀ (f : R3) (order : BitVec 2) (dbl : Bool) (s : State),
      exec (p.1 f order dbl) s = amo op f order dbl s ∧ amoRegs (p.1 f order dbl) f = op.tested f) ∧
    ∀ w old b c, 0 < w → old < 2 ^ (8 * w) → b < 2 ^ (8 * w) → amoVal op w old b c = p.2 w old b c := by
  have hsigned : ∀ {w old b : Nat}, 0 < w → old < 2 ^ (8 * w) → b < 2 ^ (8 * w) →
      toIntOf true (8 * w) old = (BitVec.ofNat (8 * w) old).toInt ∧ toIntOf true (8 * w) b = (BitVec.ofNat (8 * w) b).toInt :=
    fun hw ho hb => ⟨toIntOf_eq (by omega) ho, toIntOf_eq (by omega) hb⟩
  simp only [amoOps, List.forall_mem_cons, List.not_mem_nil, false_implies, implies_true, and_true]
  refine ⟨⟨.add, fun _ _ _ _ => ⟨rfl, rfl⟩, fun _ _ _ _ _ _ _ => rfl⟩, ⟨.swp, fun _ _ _ _ => ⟨rfl, rfl⟩, fun _ _ _ _ _ _ _ => rfl⟩,
    ⟨.cas, fun _ _ _ _ => ⟨rfl, rfl⟩, fun _ _ _ _ _ _ _ => rfl⟩, ⟨.and, fun _ _ _ _ => ⟨rfl, rfl⟩, fun _ _ _ _ _ _ _ => rfl⟩,
    ⟨.or, fun _ _ _ _ => ⟨rfl, rfl⟩, fun _ _ _ _ _ _ _ => rfl⟩, ⟨.xor, fun _ _ _ _ => ⟨rfl, rfl⟩, fun _ _ _ _ _ _ _ => rfl⟩,
    ⟨.min, fun _ _ _ _ => ⟨rfl, rfl⟩, fun w old b c hw ho hb => ?_⟩, ⟨.max, fun _ _ _ _ => ⟨rfl, rfl⟩, fun w old b c hw ho hb => ?_⟩,
    ⟨.minu, fun _ _ _ _ => ⟨rfl, rfl⟩, fun _ _ _ _ _ _ _ => rfl⟩, ⟨.maxu, fun _ _ _ _ => ⟨rfl, rfl⟩, fun _ _ _ _ _ _ _ => rfl⟩⟩
  all_goals
    obtain ⟨hold, hnew⟩ := hsigned hw ho hb
    simp only [amoVal, hold, hnew]

/-- Settles O9: every AMO is the one shared form, which reads, writes f(old, b, c) and answers the old value. -/
theorem amoResult : Obligations.AmoResult := by
  refine ⟨fun p hp f order dbl s key cls => ?_, fun f order s key cls hfresh hd h => ?_⟩
  · intro w lo hfresh hd h
    obtain ⟨op, hexec, hval⟩ := exec_amoOps p hp
    obtain ⟨hamo, hregs⟩ := hexec f order dbl s
    have hv := hval w (s.mem.readNat key w) (lowBits s w f.rb) (lowBits s w f.rd) (by cases dbl <;> decide) (Mem.readNat_lt ..)
      (Nat.mod_lt _ (Nat.two_pow_pos _))
    refine hamo.trans ((amo_performed hfresh (hregs ▸ hd) h).trans ?_)
    exact congrArg (fun v => Host.Outcome.next (wrote (performed s (reg s f.ra) order w key cls v) f.rd _ false 2)) hv
  · exact amo_performed (op := .fadd) (dbl := false) hfresh hd h

end Sys2Proof.Machine

/-! ## Traps of the scalar accesses (O15: R92, R306, R322, R332) -/

namespace Sys2Proof.Machine
open Sys2Proof Sys2Proof.Ob

/-! ### The end of a strand does not read what its core is put back as -/

theorem sendStamp_setCore (s : State) (c : Nat) (x : Core) (src dst : Nat) :
    sendStamp (s.setCore c x) src dst = (sendStamp s src dst).setCore c x := by
  unfold sendStamp
  split <;> rfl

theorem withdrawArrival_setCore (s : State) (c : Nat) (x : Core) (t : Thread) :
    withdrawArrival (s.setCore c x) t = (withdrawArrival s t).setCore c x := by
  unfold withdrawArrival
  split <;> rfl

theorem endJob_setCore (s : State) (c : Nat) (x : Core) (t : Thread) :
    endJob (s.setCore c x) t = (endJob s t).setCore c x := by
  unfold endJob
  split
  · rfl
  · rw [State.setCore_work]
    split <;> rfl

@[simp] theorem sendStamp_core (s : State) (src dst c : Nat) : (sendStamp s src dst).core c = s.core c :=
  sendStamp_keeps (fun s => s.core c) (fun _ _ _ => rfl) s src dst

@[simp] theorem withdrawArrival_core (s : State) (t : Thread) (c : Nat) : (withdrawArrival s t).core c = s.core c := by
  unfold withdrawArrival
  split <;> rfl

@[simp] theorem endJob_core (s : State) (t : Thread) (c : Nat) : (endJob s t).core c = s.core c := by
  unfold endJob
  split
  · rfl
  · split <;> rfl

theorem jobDie_setCore (s : State) (c : Nat) (x : Core) (t : Thread) : jobDie (s.setCore c x) t = jobDie s t := rfl

/-- The strand ends as it would before its core was written, where the core written holds the same strand. -/
theorem endStrand_setCore_self (s : State) (c : Nat) : endStrand (s.setCore c (s.core c)) c = endStrand s c := by
  unfold endStrand
  simp only [State.setCore_th_self, jobDie_setCore, sendStamp_setCore, withdrawArrival_setCore, endJob_setCore,
    State.setCore_core_self, State.setCore_setCore, endJob_core, withdrawArrival_core, sendStamp_core,
    sendStamp_at_th]
  rfl

/-- A trap that is taken is the same trap where the strand was written back first. -/
theorem takeTrap_setTh_self {s : State} {c : Nat} (h : (s.th c).pos.mode = .k ∨ (s.core c).sending = false)
    (cause : BitVec 8) (v : Word) : takeTrap (s.setTh c (s.th c)) c cause v = takeTrap s c cause v := by
  unfold takeTrap
  rw [State.setTh_th_self]
  cases hm : (s.th c).pos.mode with
  | k => rw [takeTrapAt_k hm, takeTrapAt_k (by rw [State.setTh_th_self, hm]), State.setTh_th_self, State.setTh_core_self,
      State.setTh_setCore]
  | h =>
    have hs : (s.core c).sending = false := h.resolve_left (by simp [hm])
    have hw : s.setTh c (s.th c) = s.setCore c (s.core c) := rfl
    rw [takeTrapAt_h hm, takeTrapAt_h (by rw [State.setTh_th_self, hm]), if_neg (by rw [hw, State.setCore_core_self, hs]; exact Bool.false_ne_true),
      if_neg (by rw [hs]; exact Bool.false_ne_true)]
    unfold doubleTrap
    rw [hw, endStrand_setCore_self, State.setCore_th_self]
    rfl

/-! ### A strand that stands at a fresh instruction -/

theorem fresh_park {s : State} (h : fresh s = true) : (s.th s.me).job.park = .run := by
  simp only [fresh, freshPoint, Bool.and_eq_true, decide_eq_true_eq] at h
  exact h.1.2

theorem clearHost_of_fresh {s : State} (h : fresh s = true) : clearHost s s.me = s.setTh s.me (s.th s.me) := by
  simp only [fresh, freshPoint, Bool.and_eq_true, decide_eq_true_eq] at h
  obtain ⟨⟨_, hp⟩, hh⟩ := h
  unfold clearHost
  rw [← hp, ← hh]

theorem takeTrap_clearHost {s : State} (h : fresh s = true) (hn : trapsNow s = true) (cause : BitVec 8) (v : Word) :
    takeTrap (clearHost s s.me) s.me cause v = takeTrap s s.me cause v := by
  rw [clearHost_of_fresh h]
  exact takeTrap_setTh_self (by simpa [trapsNow] using hn) cause v

/-- The first register of a list with D set takes DFAULT with its number (R92, R306). -/
theorem guardD_of_first {s : State} {rs : List (BitVec 5)} {n : Nat} (h : firstD (s.th s.me) rs = some n)
    (k : State → Out) : guardD s rs k = .next (takeTrap s s.me 0x07 (BitVec.ofNat 64 n)) := by
  unfold guardD dCode
  simp only [h, Nat.zero_mul, Nat.zero_add]
  rfl

/-! ### What the checks find -/

theorem coreCheck_misaligned {s : State} {c : Nat} {k : AccKind} {rel : Bool} {a : Word} {w : Nat} (h : a.toNat % w ≠ 0) :
    coreCheck s c k rel a w = .fault 0x04 a := by
  unfold coreCheck
  rw [if_pos (by simpa [aligned] using h)]
  rfl

theorem coreCheck_fault {s : State} {c : Nat} {k : AccKind} {rel : Bool} {a : Word} {w : Nat} (h : a.toNat % w = 0)
    {cause : BitVec 8} {va : Word} (hf : checkAccess s (s.whoThread c) k a w = .fault cause va) :
    coreCheck s c k rel a w = .fault cause va := by
  unfold coreCheck
  rw [if_neg (by simpa [aligned] using h), hf]

theorem coreCheck_absent {s : State} {c : Nat} {k : AccKind} {rel : Bool} {a : Word} {w : Nat} (h : a.toNat % w = 0)
    {va : Word} (hf : checkAccess s (s.whoThread c) k a w = .absent va) :
    coreCheck s c k rel a w = .absent va := by
  unfold coreCheck
  rw [if_neg (by simpa [aligned] using h), hf]

/-- An access at a fresh instruction takes the trap that its checks find. -/
theorem coreAccess_fault {s : State} {k : AccKind} {rel : Bool} {a : Word} {w : Nat} {cause : BitVec 8} {va : Word}
    (hfr : fresh s = true) (hn : trapsNow s = true) (hc : coreCheck s s.me k rel a w = .fault cause va)
    (go : Nat → Option Cls → State → Out) :
    coreAccess s s.me k rel a w go = .next (takeTrap s s.me cause va) := by
  unfold coreAccess
  simp only [fresh_park hfr, hc, takeTrap_clearHost hfr hn]

/-! ### The forms -/

/-- Every load but LDS is a load that takes its traps. -/
theorem exec_loadOps : ∀ p ∈ loadOps, ∀ f : RI, p.1 f ≠ .lds f →
    exec (p.1 f) = loadAt 2 f.rd f.ra (f.imm.signExtend 64) p.2.1 p.2.2 := by
  simp only [loadOps, List.forall_mem_cons, List.not_mem_nil, false_implies, implies_true, and_true]
  exact ⟨fun _ _ => rfl, fun _ _ => rfl, fun _ _ => rfl, fun _ _ => rfl, fun _ _ => rfl, fun _ _ => rfl, fun _ _ => rfl,
    fun _ h => absurd rfl h⟩

theorem exec_storeOps : ∀ p ∈ storeOps, ∀ f : RI, exec (p.1 f) = storeAt 2 f.rd f.ra (f.imm.signExtend 64) p.2 := by
  simp only [storeOps, List.forall_mem_cons, List.not_mem_nil, false_implies, implies_true, and_true]
  exact ⟨fun _ => rfl, fun _ => rfl, fun _ => rfl, fun _ => rfl⟩

theorem regD_eq (s : State) (r : BitVec 5) : ((s.th s.me).rdS r).d = regD s r := rfl
theorem reg_eq (s : State) (r : BitVec 5) : ((s.th s.me).rdS r).val = reg s r := rfl

section loadTraps
variable {s : State} {rd ra : BitVec 5} {off : Word} {n w : Nat} {sg : Bool}

theorem loadAt_dfault (h : regD s ra = true) :
    loadAt n rd ra off w sg s = .next (takeTrap s s.me 0x07 (BitVec.ofNat 64 ra.toNat)) :=
  guardD_of_first (by simp [firstD, regD_eq, h]) _

theorem loadAt_fault {cause : BitVec 8} {va : Word} (hfr : fresh s = true) (hn : trapsNow s = true) (h : regD s ra = false)
    (hc : coreCheck s s.me .read false (reg s ra + off) w = .fault cause va) :
    loadAt n rd ra off w sg s = .next (takeTrap s s.me cause va) := by
  unfold loadAt
  rw [guardD_of_noD (by simp [noD, h])]
  exact coreAccess_fault hfr hn hc _

theorem storeAt_dfault {r : BitVec 5} (h : firstD (s.th s.me) [rd, ra] = some r.toNat) :
    storeAt n rd ra off w s = .next (takeTrap s s.me 0x07 (BitVec.ofNat 64 r.toNat)) :=
  guardD_of_first h _

theorem storeAt_fault {cause : BitVec 8} {va : Word} (hfr : fresh s = true) (hn : trapsNow s = true)
    (h : noD s [rd, ra] = true) (hc : coreCheck s s.me .write false (reg s ra + off) w = .fault cause va) :
    storeAt n rd ra off w s = .next (takeTrap s s.me cause va) := by
  unfold storeAt
  rw [guardD_of_noD h]
  exact coreAccess_fault hfr hn hc _

end loadTraps

/-- A deferring load at a fresh instruction writes 0 with D set and goes on (R322). -/
theorem deferLoad_of_fresh {s : State} (h : fresh s = true) (rd : BitVec 5) :
    deferLoad rd s = .next (wrote s rd 0 true 2) := by
  unfold deferLoad wrote
  simp only [clearHost_of_fresh h, State.setTh_th_self, State.setTh_setTh]

/-- LDS defers a fault and a page that is not there. -/
theorem loadSpec_defers {s : State} {rd ra : BitVec 5} {off : Word}
    (h : regD s ra = true ∨ ((s.th s.me).rdS ra).ecc = true ∨
      (∃ cause va, coreCheck s s.me .read false (reg s ra + off) 8 = .fault cause va) ∨
      ∃ va, coreCheck s s.me .read false (reg s ra + off) 8 = .absent va) : loadSpec rd ra off s = deferLoad rd s := by
  unfold loadSpec
  simp only [regD_eq, reg_eq]
  rcases h with hd | he | ⟨cause, va, hc⟩ | ⟨va, hc⟩
  · simp only [hd, Bool.true_or, if_true]
  · simp only [he, Bool.or_true, if_true]
  · simp only [hc, ite_self]
  · simp only [hc, ite_self]

/-- Settles O15: each trap is what `guardD`, the alignment or the access check finds first; LDS defers them all. -/
theorem accessTraps : Obligations.AccessTraps := by
  unfold Obligations.AccessTraps
  refine ⟨fun p hp f s hl hfr hn => ?_, fun p hp f s hfr hn => ?_, fun f s hfr h => ?_⟩
  · rw [exec_loadOps p hp f hl]
    exact ⟨loadAt_dfault, fun hd hm => loadAt_fault hfr hn hd (coreCheck_misaligned hm),
      fun _ _ hd hm hf => loadAt_fault hfr hn hd (coreCheck_fault hm hf)⟩
  · rw [exec_storeOps p hp f]
    exact ⟨fun hd => storeAt_dfault (by simp [firstD, regD_eq, hd]),
      fun hd hb => storeAt_dfault (by simp [firstD, regD_eq, hd, hb]),
      fun hd hm => storeAt_fault hfr hn hd (coreCheck_misaligned hm),
      fun _ _ hd hm hf => storeAt_fault hfr hn hd (coreCheck_fault hm hf)⟩
  · have he : exec (.lds f) s = loadSpec f.rd f.ra (f.imm.signExtend 64) s := rfl
    rw [he, loadSpec_defers, deferLoad_of_fresh hfr]
    rcases Nat.eq_zero_or_pos ((reg s f.ra + f.imm.signExtend 64).toNat % 8) with hm | hm
    · rcases h with h | h | h | ⟨cause, va, h⟩ | ⟨va, h⟩
      · exact .inl h
      · exact .inr (.inl h)
      · exact absurd hm h
      · exact .inr (.inr (.inl ⟨cause, va, coreCheck_fault hm h⟩))
      · exact .inr (.inr (.inr ⟨va, coreCheck_absent hm h⟩))
    · exact .inr (.inr (.inl ⟨_, _, coreCheck_misaligned (by omega)⟩))

end Sys2Proof.Machine

/-! ## What the scalar accesses leave unchanged (O16) -/

namespace Sys2Proof.Machine
open Sys2Proof Sys2Proof.Ob

/-! ### A step of core c that leaves its registers and the other cores -/

/-- The registers, control registers and streams of core c, and every other core, are as before. -/
structure Leaves (s t : State) (c : Nat) : Prop where
  regs : (t.th c).regs = (s.th c).regs
  csr : (t.th c).csr = (s.th c).csr
  strm : (t.th c).strm = (s.th c).strm
  others : SameOthers s t c

theorem Leaves.trans {s t u : State} {c : Nat} (h : Leaves s t c) (h' : Leaves t u c) : Leaves s u c :=
  ⟨h'.regs.trans h.regs, h'.csr.trans h.csr, h'.strm.trans h.strm, fun j hj => (h'.others j hj).trans (h.others j hj)⟩

/-- Every core is as before. -/
theorem Leaves.of_core {s t : State} (c : Nat) (h : ∀ j, t.core j = s.core j) : Leaves s t c := by
  have ht : t.th c = s.th c := congrArg Core.th (h c)
  exact ⟨by rw [ht], by rw [ht], by rw [ht], fun j _ => h j⟩

theorem Leaves.refl (s : State) (c : Nat) : Leaves s s c := .of_core c fun _ => rfl

theorem Leaves.setCore {s : State} {c : Nat} {x : Core} (hr : x.th.regs = (s.th c).regs) (hc : x.th.csr = (s.th c).csr)
    (hs : x.th.strm = (s.th c).strm) : Leaves s (s.setCore c x) c :=
  ⟨by rw [State.setCore_th_self, hr], by rw [State.setCore_th_self, hc], by rw [State.setCore_th_self, hs],
    fun _ hj => State.setCore_core_ne s hj x⟩

theorem Leaves.setTh {s : State} {c : Nat} {x : Thread} (hr : x.regs = (s.th c).regs) (hc : x.csr = (s.th c).csr)
    (hs : x.strm = (s.th c).strm) : Leaves s (s.setTh c x) c := .setCore hr hc hs

/-! ### The ends and waits of an access -/

theorem vacate_leaves (s : State) (c : Nat) : Leaves s (s.setCore c (s.core c).vacate) c := .setCore rfl rfl rfl

theorem endStrand_leaves (s : State) (c : Nat) : Leaves s (endStrand s c) c :=
  .trans (.of_core c fun j =>
    ((endJob_core _ _ j).trans (withdrawArrival_core _ _ j)).trans (sendStamp_core s _ _ j)) (vacate_leaves _ c)

theorem askCancel_core (s : State) (die scope : Nat) (by_ : Asker) (ctx : Nat) (root : Option Nat) (j : Nat) :
    (askCancel s die scope by_ ctx root).core j = s.core j := sendStamp_core s _ _ j

theorem failLaunch_core (s : State) (l j : Nat) : (failLaunch s l).core j = s.core j := by
  unfold failLaunch
  rw [askCancel_core]
  rfl

theorem State.log_core (s : State) (l : List LogEv) (j : Nat) : ({ s with log := l } : State).core j = s.core j := rfl

theorem doubleTrap_leaves (s : State) (c : Nat) (cause : BitVec 8) (a : Word) : Leaves s (doubleTrap s c cause a) c := by
  unfold doubleTrap
  exact (endStrand_leaves s c).trans (.of_core c fun j => (State.log_core _ _ j).trans (failLaunch_core _ _ j))

theorem takeTrapAt_leaves (s : State) (c : Nat) (p : Pos) (cause : BitVec 8) (v : Word) (r : Bool) (q : BitVec 3) :
    Leaves s (takeTrapAt s c p cause v r q) c := by
  cases h : (s.th c).pos.mode with
  | k => rw [takeTrapAt_k h p cause v r q]; exact .setCore rfl rfl rfl
  | h =>
    rw [takeTrapAt_h h p cause v r q]
    split
    · exact .refl s c
    · exact doubleTrap_leaves s c cause _

theorem takeTrap_leaves (s : State) (c : Nat) (cause : BitVec 8) (v : Word) : Leaves s (takeTrap s c cause v) c :=
  takeTrapAt_leaves s c _ cause v false 0

@[simp] theorem State.updCancel_core (s : State) (k : Nat) (f : Cancel → Cancel) (j : Nat) :
    (s.updCancel k f).core j = s.core j := by
  unfold State.updCancel
  split <;> rfl

theorem killAt_leaves (s : State) (c ticket : Nat) : Leaves s (killAt s c ticket) c := by
  unfold killAt killStrand
  split
  · exact .refl s c
  · exact (endStrand_leaves s c).trans (.of_core c fun j => by simp)

theorem clearHost_leaves (s : State) (c : Nat) : Leaves s (clearHost s c) c := .setTh rfl rfl rfl

theorem parkStrand_leaves (s : State) (c : Nat) (va : Word) (k : AccKind) : Leaves s (parkStrand s c va k) c := by
  have h : Leaves s (postFault s (s.ctxOf c) va agStrand k (dieOfCore c) (BitVec.ofNat 16 (c % 64)) c 0).2 c :=
    .of_core c fun _ => rfl
  exact h.trans (.setTh rfl rfl rfl)

@[simp] theorem sendSnoop_core (s : State) (line j : Nat) : (sendSnoop s line).core j = s.core j := by
  simp only [sendSnoop]
  split <;> rfl

@[simp] theorem sendSnoop_bytes (s : State) (line : Nat) : (sendSnoop s line).mem.bytes = s.mem.bytes := by
  simp only [sendSnoop]
  split <;> rfl

/-- An answer at which the core keeps its registers and memory its bytes. -/
def Rests (s : State) (c : Nat) (o : Out) : Prop := ∃ t, o = .next t ∧ Leaves s t c ∧ t.mem.bytes = s.mem.bytes

theorem Rests.of_mem {s t : State} {c : Nat} (h : Leaves s t c) (hm : t.mem = s.mem) : Rests s c (.next t) :=
  ⟨t, rfl, h, by rw [hm]⟩

theorem orderWait_rests (s : State) (c : Nat) (vs : List VQ) : Rests s c (orderWait s c vs) := by
  rcases orderWait_cases s c vs with ⟨v, _, h⟩ | h
  · exact h ▸ .of_mem (takeTrapAt_leaves s c _ _ _ _ _) (by simp)
  · exact h ▸ .of_mem (.refl s c) rfl

theorem killPoint_rests (s : State) (c : Nat) : Rests s c (killPoint s c fun s => .next s) := by
  rcases killPoint_cases s c (fun s => .next s) with ⟨n, _, h⟩ | ⟨_, h⟩
  · exact h ▸ .of_mem (killAt_leaves s c n) (by simp)
  · exact h ▸ .of_mem (.refl s c) rfl

theorem guardD_rests (s : State) (n : Nat) : Rests s s.me (.next (takeTrap s s.me cDfault (dCode 0 n))) :=
  .of_mem (takeTrap_leaves s s.me _ _) (by simp)

/-- What the checks of an access at a come to: an access that waits, or is let through at the key that they find, leaves
the core and memory's bytes. -/
def ChkLeaves (s : State) (c : Nat) (k : AccKind) (a : Word) (w : Nat) : CoreChk → Prop
  | .wait s' => Leaves s s' c ∧ s'.mem.bytes = s.mem.bytes
  | .ok key cls s' => checkAccess s (s.whoThread c) k a w = .ok key cls ∧ Leaves s s' c ∧ s'.mem = s.mem
  | _ => True

theorem coreCheck_leaves (s : State) (c : Nat) (k : AccKind) (rel : Bool) (a : Word) (w : Nat) :
    ChkLeaves s c k a w (coreCheck s c k rel a w) := by
  simp only [coreCheck]
  split
  · trivial
  cases hc : checkAccess s (s.whoThread c) k a w with
  | fault cause va => trivial
  | absent va => trivial
  | held line => exact ⟨.of_core c fun j => sendSnoop_core s line j, sendSnoop_bytes s line⟩
  | ok key cls =>
    dsimp only
    split
    · trivial
    split
    · cases (s.th c).job.host with
      | idle => exact ⟨.setTh rfl rfl rfl, rfl⟩
      | sent b n => exact ⟨.refl s c, rfl⟩
      | answered b n ok =>
        cases ok with
        | true => exact ⟨hc, .setTh rfl rfl rfl, rfl⟩
        | false => trivial
    · exact ⟨hc, .refl s c, rfl⟩

/-- An access is performed at the key that its checks found, or rests. -/
theorem coreAccess_leaves (s : State) (c : Nat) (k : AccKind) (rel : Bool) (a : Word) (w : Nat)
    (go : Nat → Option Cls → State → Out) :
    (∃ key cls s', checkAccess s (s.whoThread c) k a w = .ok key cls ∧ Leaves s s' c ∧ s'.mem = s.mem ∧
      coreAccess s c k rel a w go = go key cls s') ∨ Rests s c (coreAccess s c k rel a w go) := by
  simp only [coreAccess]
  cases (s.th c).job.park with
  | wait n => exact .inr (killPoint_rests s c)
  | bad va =>
    have h : Leaves s (s.setTh c { s.th c with job := { (s.th c).job with park := .run } }) c := .setTh rfl rfl rfl
    exact .inr (.of_mem (h.trans (takeTrap_leaves _ c cPageFault va)) (by simp))
  | run =>
    have hc := coreCheck_leaves s c k rel a w
    generalize coreCheck s c k rel a w = x at hc ⊢
    cases x with
    | fault cause va => exact .inr (.of_mem ((clearHost_leaves s c).trans (takeTrap_leaves _ c _ _)) (by simp))
    | absent va => exact .inr (.of_mem (parkStrand_leaves s c va k) (by simp))
    | wait s' => exact .inr ⟨s', rfl, hc⟩
    | behind => exact .inr (orderWait_rests s c _)
    | ok key cls s' =>
      obtain ⟨hk, hl, hm⟩ := hc
      exact .inl ⟨key, cls, s', hk, hl, hm, rfl⟩

/-! ### Bytes -/

theorem sameMemory_of_bytes {s t : State} (h : t.mem.bytes = s.mem.bytes) (key n : Nat) : SameMemory s t key n := fun k _ => by
  unfold Mem.readByte
  rw [h]

theorem leBytes_length (w x : Nat) : (leBytes w x).length = w := by
  induction w generalizing x with
  | zero => rfl
  | succ n ih => simp [leBytes, ih]

@[simp] theorem Thread.clearRestart_regs (t : Thread) : (clearRestart t).regs = t.regs := rfl

theorem storeBytes_leaves (s : State) (c : Nat) (a : Word) (key : Nat) (cls : Option Cls) (bs : List Byte) :
    Leaves s (storeBytes s c a key cls bs) c := by
  have h : Leaves s { s with mem := s.mem.writeBytes key bs } c := .of_core c fun _ => rfl
  simp only [storeBytes]
  refine h.trans (Leaves.setCore ?_ ?_ ?_) <;> (dsimp only; split <;> rfl)

theorem storeOut_leaves (s : State) (c : Nat) (a : Word) (key : Nat) (cls : Option Cls) (bs : List Byte) :
    Leaves s (storeOut s c a key cls bs) c :=
  .trans (.of_core c fun j => sendStamp_core s _ _ j) (storeBytes_leaves _ c a key cls bs)

/-- A store writes its bytes at its key and no other byte. -/
theorem storeOut_sameMemory (s : State) (c : Nat) (a : Word) (key : Nat) (cls : Option Cls) (bs : List Byte) :
    SameMemory s (storeOut s c a key cls bs) key bs.length := fun k hk => by
  have hm : (storeOut s c a key cls bs).mem = s.mem.writeBytes key bs := by
    have h : (storeOut s c a key cls bs).mem =
      (sendStamp s (dieOfCore c) (targetDie s (s.whoThread c) a key)).mem.writeBytes key bs := rfl
    rw [h, sendStamp_mem]
  rw [hm]
  exact Mem.readByte_writeBytes_out bs s.mem key k hk

theorem SameMemory.congr_left {s s' t : State} {key n : Nat} (h : SameMemory s' t key n) (hm : s'.mem = s.mem) :
    SameMemory s t key n := fun k hk => hm ▸ h k hk

theorem advance_leaves (s : State) (c n : Nat) : Leaves s (s.advance c n) c := .setTh rfl rfl rfl

/-- What an access with its memory at a key comes to, from its answer. -/
def Framed (s : State) (k : AccKind) (a : Word) (w : Nat) (t : State) : Prop :=
  t.mem.bytes = s.mem.bytes ∨ ∃ key cls, checkAccess s (s.whoThread s.me) k a w = .ok key cls ∧ SameMemory s t key w

theorem Framed.at_key {s t : State} {k : AccKind} {a : Word} {w key : Nat} {cls : Option Cls} (h : Framed s k a w t)
    (hk : checkAccess s (s.whoThread s.me) k a w = .ok key cls) : SameMemory s t key w := by
  rcases h with h | ⟨key', cls', hk', h⟩
  · exact sameMemory_of_bytes h key w
  · rw [hk] at hk'
    injection hk' with h1 _
    exact h1 ▸ h

theorem Framed.nowhere {s t : State} {k : AccKind} {a : Word} {w : Nat} (h : Framed s k a w t)
    (hk : ∀ key cls, checkAccess s (s.whoThread s.me) k a w ≠ .ok key cls) : t.mem.bytes = s.mem.bytes :=
  h.resolve_right fun ⟨key, cls, hk', _⟩ => hk key cls hk'

theorem Rests.of_next {s t : State} {c : Nat} (h : Rests s c (.next t)) : Leaves s t c ∧ t.mem.bytes = s.mem.bytes := by
  obtain ⟨t', ht, hl, hb⟩ := h
  obtain rfl := Host.Outcome.next.inj ht
  exact ⟨hl, hb⟩

/-! ### Stores -/

/-- A store either rests, or has written its w bytes at the key of its address. -/
theorem storeAt_frame {n : Nat} {rd ra : BitVec 5} {off : Word} {w : Nat} {s t : State}
    (h : storeAt n rd ra off w s = .next t) : Leaves s t s.me ∧ Framed s .write (reg s ra + off) w t := by
  unfold storeAt at h
  rcases guardD_cases s [rd, ra] _ with ⟨n', _, hg⟩ | ⟨_, hg⟩
  · obtain ⟨hl, hb⟩ := Rests.of_next ((hg.symm.trans h) ▸ guardD_rests s n')
    exact ⟨hl, .inl hb⟩
  · rw [hg] at h
    rcases coreAccess_leaves s s.me .write false (reg s ra + off) w _ with ⟨key, cls, s', hk, hl, hm, hgo⟩ | hr
    · obtain rfl := Host.Outcome.next.inj (hgo.symm.trans h)
      refine ⟨(hl.trans (storeOut_leaves s' _ _ _ _ _)).trans (advance_leaves _ _ _), .inr ⟨key, cls, hk, ?_⟩⟩
      have hs := storeOut_sameMemory s' s.me (reg s ra + off) key cls (leBytes w (reg s rd).toNat)
      rw [leBytes_length] at hs
      exact SameMemory.congr_left hs hm
    · obtain ⟨hl, hb⟩ := Rests.of_next (h ▸ hr)
      exact ⟨hl, .inl hb⟩

theorem storeFrame : Sys2Proof.Ob.storeFrame := by
  intro p hp f s t h
  rw [exec_storeOps p hp f] at h
  obtain ⟨hl, hf⟩ := storeAt_frame h
  exact ⟨hl.regs, hl.csr, hl.strm, hl.others, fun _ _ hk => hf.at_key hk,
    fun hk => sameMemory_of_bytes (hf.nowhere hk) 0 0⟩

/-! ### A write to one scalar register -/

/-- As `Leaves`, but that the scalar register rd may differ. -/
structure LeavesBut (s t : State) (c : Nat) (rd : BitVec 5) : Prop where
  csr : (t.th c).csr = (s.th c).csr
  strm : (t.th c).strm = (s.th c).strm
  others : SameOthers s t c
  regs : (t.th c).regs = { (s.th c).regs with s := (t.th c).regs.s }
  rdS : ∀ r, r ≠ rd → (t.th c).rdS r = (s.th c).rdS r

theorem rdS_of_regs {t u : Thread} (h : t.regs = u.regs) (r : BitVec 5) : t.rdS r = u.rdS r := by
  unfold Thread.rdS
  rw [h]

theorem Leaves.but {s t : State} {c : Nat} (h : Leaves s t c) (rd : BitVec 5) : LeavesBut s t c rd :=
  ⟨h.csr, h.strm, h.others, by rw [h.regs], fun r _ => rdS_of_regs h.regs r⟩

theorem Leaves.write {s s' : State} {c : Nat} (h : Leaves s s' c) (rd : BitVec 5) (v : Word) (d : Bool) (n : Nat) :
    LeavesBut s (s'.setTh c (((s'.th c).wrS rd v d).advance n)) c rd where
  csr := by rw [State.setTh_th_self, Thread.advance_csr, Thread.wrS_csr, h.csr]
  strm := by rw [State.setTh_th_self, Thread.advance_strm, Thread.wrS_strm, h.strm]
  others := fun j hj => (State.setTh_core_ne s' hj _).trans (h.others j hj)
  regs := by rw [State.setTh_th_self, Thread.advance_regs, Thread.wrS_regs, h.regs]
  rdS := fun r hr => by
    rw [State.setTh_th_self, rdS_of_regs (Thread.advance_regs _ n), Thread.rdS_wrS_ne _ hr, rdS_of_regs h.regs]

/-! ### Loads -/

theorem loadAt_frame {n : Nat} {rd ra : BitVec 5} {off : Word} {w : Nat} {sg : Bool} {s t : State}
    (h : loadAt n rd ra off w sg s = .next t) : LeavesBut s t s.me rd ∧ t.mem.bytes = s.mem.bytes := by
  unfold loadAt at h
  rcases guardD_cases s [ra] _ with ⟨n', _, hg⟩ | ⟨_, hg⟩
  · obtain ⟨hl, hb⟩ := Rests.of_next ((hg.symm.trans h) ▸ guardD_rests s n')
    exact ⟨hl.but rd, hb⟩
  · rw [hg] at h
    rcases coreAccess_leaves s s.me .read false (reg s ra + off) w _ with ⟨key, cls, s', hk, hl, hm, hgo⟩ | hr
    · obtain rfl := Host.Outcome.next.inj (hgo.symm.trans h)
      exact ⟨hl.write rd _ _ _, congrArg Mem.bytes hm⟩
    · obtain ⟨hl, hb⟩ := Rests.of_next (h ▸ hr)
      exact ⟨hl.but rd, hb⟩

theorem deferLoad_frame {rd : BitVec 5} {s t : State} (h : deferLoad rd s = .next t) :
    LeavesBut s t s.me rd ∧ t.mem.bytes = s.mem.bytes := by
  obtain rfl := Host.Outcome.next.inj h
  exact ⟨(clearHost_leaves s s.me).write rd 0 true 2, rfl⟩

theorem loadSpec_frame {rd ra : BitVec 5} {off : Word} {s t : State} (h : loadSpec rd ra off s = .next t) :
    LeavesBut s t s.me rd ∧ t.mem.bytes = s.mem.bytes := by
  simp only [loadSpec] at h
  split at h
  · exact deferLoad_frame h
  have hc := coreCheck_leaves s s.me .read false (((s.th s.me).rdS ra).val + off) 8
  generalize coreCheck s s.me .read false (((s.th s.me).rdS ra).val + off) 8 = x at hc h
  cases x with
  | fault cause va => exact deferLoad_frame h
  | absent va => exact deferLoad_frame h
  | wait s' =>
    obtain rfl := Host.Outcome.next.inj h
    exact ⟨hc.1.but rd, hc.2⟩
  | behind =>
    have hr := orderWait_rests s s.me ([VQ.vl, VQ.vs].filter (fun v => heldBehind s s.me ((s.th s.me).pos.mode == .h)
      (s.th s.me).q.seq (((s.th s.me).rdS ra).val + off) 8 v || (false && accessHeld s s.me v)))
    obtain ⟨hl, hb⟩ := Rests.of_next (h.subst (motive := Rests s s.me) hr)
    exact ⟨hl.but rd, hb⟩
  | ok key cls s' =>
    obtain ⟨_, hl, hm⟩ := hc
    obtain rfl := Host.Outcome.next.inj h
    exact ⟨hl.write rd _ _ _, congrArg Mem.bytes hm⟩

theorem loadFrame : Sys2Proof.Ob.loadFrame := by
  intro p hp f s t h
  have hf : LeavesBut s t s.me f.rd ∧ t.mem.bytes = s.mem.bytes := by
    by_cases hl : p.1 f = .lds f
    · rw [hl] at h
      exact loadSpec_frame h
    · rw [exec_loadOps p hp f hl] at h
      exact loadAt_frame h
  obtain ⟨hl, hb⟩ := hf
  exact ⟨hb, hl.others, hl.csr, hl.strm, hl.regs, hl.rdS⟩

/-! ### Atomics -/

theorem ordered_leaves (s : State) (c : Nat) (order : BitVec 2) : Leaves s (ordered s c order) c := by
  have hdrain : Leaves s (drainFifo s c) c := .setCore rfl rfl rfl
  unfold ordered
  split
  · exact .refl s c
  split
  · refine hdrain.trans (.of_core c fun j => ?_)
    exact takeStamps_keeps (fun s => s.core j) (fun _ _ _ => rfl) _ _ _
  · exact hdrain

/-- An AMO's word takes the value that it writes, if any (R307). -/
def amoStored (s : State) (c : Nat) (a : Word) (key w : Nat) (cls : Option Cls) (v : Option Nat) : State :=
  match v with
  | some v => storeOut s c a key (pastFifo cls) (leBytes w v)
  | none => if ownSpad c key then s else s.setTh c (clearRestart (s.th c))

theorem amoStored_frame (s : State) (c : Nat) (a : Word) (key w : Nat) (cls : Option Cls) (v : Option Nat) :
    Leaves s (amoStored s c a key w cls v) c ∧ SameMemory s (amoStored s c a key w cls v) key w := by
  unfold amoStored
  split
  next v =>
    have hs := storeOut_sameMemory s c a key (pastFifo cls) (leBytes w v)
    rw [leBytes_length] at hs
    exact ⟨storeOut_leaves s c a key (pastFifo cls) (leBytes w v), hs⟩
  · split
    · exact ⟨.refl s c, fun _ _ => rfl⟩
    · exact ⟨.setTh rfl rfl rfl, fun _ _ => rfl⟩

/-- An AMO of s that the checks let through at a key, in the state s' that they leave. -/
def amoLet (op : AmoOp) (f : R3) (order : BitVec 2) (w : Nat) (s : State) (key : Nat) (cls : Option Cls) (s' : State) : Out :=
  let old := (ordered s' s.me order).mem.readNat key w
  let u := amoStored (ordered s' s.me order) s.me (reg s f.ra) key w cls
    (amoVal op w old (lowBits s w f.rb) (lowBits s w f.rd))
  match if cls = some .hostU then killedStrand s' s.me else none with
  | some ticket => .next ((u.advance s.me 2).updCancel ticket (fun x => { x with atomics := x.atomics + 1 }))
  | none => .next (u.setTh s.me (((u.th s.me).wrS f.rd (BitVec.ofNat 64 old) false).advance 2))

theorem amo_eq (op : AmoOp) (f : R3) (order : BitVec 2) (dbl : Bool) (s : State) :
    amo op f order dbl s = guardD s (op.tested f) fun s =>
      if decide ((s.th s.me).job.park = .run) && atypeAt s s.me op (reg s f.ra) (if dbl then 8 else 4)
      then .next (takeTrap s s.me cAtype (reg s f.ra))
      else coreAccess s s.me .atomic (order.getLsbD 1) (reg s f.ra) (if dbl then 8 else 4)
        (amoLet op f order (if dbl then 8 else 4) s) := rfl

theorem amoLet_frame {op : AmoOp} {f : R3} {order : BitVec 2} {w : Nat} {s s' t : State} {key : Nat} {cls : Option Cls}
    (hl : Leaves s s' s.me) (hm : s'.mem = s.mem) (h : amoLet op f order w s key cls s' = .next t) :
    LeavesBut s t s.me f.rd ∧ SameMemory s t key w := by
  simp only [amoLet] at h
  generalize amoVal op w _ _ _ = v at h
  generalize BitVec.ofNat 64 _ = old at h
  obtain ⟨hu, hs⟩ := amoStored_frame (ordered s' s.me order) s.me (reg s f.ra) key w cls v
  replace hu := (hl.trans (ordered_leaves s' s.me order)).trans hu
  replace hs := SameMemory.congr_left hs ((ordered_mem s' s.me order).trans hm)
  generalize amoStored (ordered s' s.me order) s.me (reg s f.ra) key w cls v = u at h hu hs
  split at h
  · obtain rfl := Host.Outcome.next.inj h
    refine ⟨((hu.trans (advance_leaves u s.me 2)).trans (.of_core s.me fun j => ?_)).but f.rd, fun k hk => ?_⟩
    · exact State.updCancel_core _ _ _ j
    · rw [updCancel_mem]
      exact hs k hk
  · obtain rfl := Host.Outcome.next.inj h
    exact ⟨hu.write f.rd old false 2, hs⟩

theorem amo_frame {op : AmoOp} {f : R3} {order : BitVec 2} {dbl : Bool} {s t : State}
    (h : amo op f order dbl s = .next t) :
    LeavesBut s t s.me f.rd ∧ Framed s .atomic (reg s f.ra) (if dbl then 8 else 4) t := by
  have rests (hr : Rests s s.me (.next t)) :
      LeavesBut s t s.me f.rd ∧ Framed s .atomic (reg s f.ra) (if dbl then 8 else 4) t := by
    obtain ⟨hl, hb⟩ := hr.of_next
    exact ⟨hl.but f.rd, .inl hb⟩
  rw [amo_eq] at h
  rcases guardD_cases s _ _ with ⟨n', _, hg⟩ | ⟨_, hg⟩
  · exact rests ((hg.symm.trans h) ▸ guardD_rests s n')
  rw [hg] at h
  generalize hw : (if dbl = true then 8 else 4) = w at h rests ⊢
  split at h
  · exact rests (h ▸ .of_mem (takeTrap_leaves s s.me _ _) (by simp))
  rcases coreAccess_leaves s s.me .atomic (order.getLsbD 1) (reg s f.ra) w _ with ⟨key, cls, s', hk, hl, hm, hgo⟩ | hr
  · obtain ⟨hb, hs⟩ := amoLet_frame hl hm (hgo.symm.trans h)
    exact ⟨hb, .inr ⟨key, cls, hk, hs⟩⟩
  · exact rests (h ▸ hr)

theorem amoFrame : Sys2Proof.Ob.amoFrame := by
  intro p hp f order dbl s t h
  obtain ⟨op, hop, _⟩ := exec_amoOps p hp
  rw [(hop f order dbl s).1] at h
  obtain ⟨hl, hf⟩ := amo_frame h
  exact ⟨hl.csr, hl.strm, hl.others, hl.regs, hl.rdS, fun _ _ hk => hf.at_key hk, hf.nowhere⟩

/-- Settles O16: an access rests with the core as it is, or moves its bytes at the key that its checks found. -/
theorem memoryFrame : Obligations.MemoryFrame := ⟨storeFrame, loadFrame, amoFrame⟩

end Sys2Proof.Machine

/-! ## Taking a trap and returning from one (O13, O14: R290, R292-R294) -/

namespace Sys2Proof.Machine
open Sys2Proof Sys2Proof.Ob

/-! ### A trap in K mode -/

/-- A write to the strand of core c that keeps its registers, streams, control registers and queues is as a trap. -/
theorem trapKeeps_setTh {s : State} {c : Nat} {x : Thread} (hr : x.regs = (s.th c).regs) (hs : x.strm = (s.th c).strm)
    (hc : x.csr = (s.th c).csr) (hq : x.q = (s.th c).q) : TrapKeeps s (s.setTh c x) c := by
  unfold TrapKeeps
  rw [State.setTh_th_self, State.setTh_core_self]
  exact ⟨State.setTh_outside s c x, fun j hj => State.setTh_core_ne s hj x, hr, hs, hc, hq, rfl, rfl, rfl, rfl, rfl, rfl, rfl, rfl⟩

theorem takeTrap_k {s : State} {c : Nat} (h : (s.th c).pos.mode = .k) (cause : BitVec 8) (v : Word) :
    takeTrap s c cause v = s.setTh c (trapThread (s.th c) (s.core c).tvec (s.th c).pos cause v false) :=
  takeTrapAt_k h _ cause v false

theorem trapThread_boff (t : Thread) (tvec : BitVec 57) (p : Pos) (cause : BitVec 8) (v : Word) :
    (trapThread t tvec p cause v false).trap.boff = (if p.atHdr then 0#10 else ((p.pc - p.hdr) >>> 1).truncate 10) ∧
    (trapThread t tvec p cause v false).trap.rptl = (if p.atHdr then 0 else p.rpt) := by
  unfold trapThread
  cases p.atHdr <;> exact ⟨rfl, rfl⟩

theorem trapEntry : Sys2Proof.Ob.trapEntry := by
  intro s c cause tval h
  obtain ⟨hb, hr⟩ := trapThread_boff (s.th c) (s.core c).tvec (s.th c).pos cause tval
  dsimp only
  rw [takeTrap_k h, State.setTh_th_self]
  exact ⟨rfl, rfl, rfl, rfl, rfl, rfl, hb, hr, rfl, rfl, rfl, trapKeeps_setTh rfl rfl rfl rfl⟩

/-! ### A trap in H mode -/

@[simp] theorem sendStamp_at_launch (s : State) (src dst l : Nat) : (sendStamp s src dst).launch l = s.launch l :=
  sendStamp_keeps (fun s => s.launch l) (fun _ _ _ => rfl) s src dst

@[simp] theorem sendStamp_log (s : State) (src dst : Nat) : (sendStamp s src dst).log = s.log :=
  sendStamp_keeps State.log (fun _ _ _ => rfl) s src dst

@[simp] theorem withdrawArrival_at_launch (s : State) (t : Thread) (l : Nat) : (withdrawArrival s t).launch l = s.launch l := by
  unfold withdrawArrival
  split <;> rfl

@[simp] theorem withdrawArrival_log (s : State) (t : Thread) : (withdrawArrival s t).log = s.log := by
  unfold withdrawArrival
  split <;> rfl

/-- The end of a strand keeps every launch's packet. -/
theorem endJob_pkt (s : State) (t : Thread) (l : Nat) : ((endJob s t).launch l).pkt = (s.launch l).pkt := by
  simp only [endJob]
  split
  · by_cases h : l = t.job.launch
    · subst h
      rw [State.setLaunch_launch_self]
    · rw [State.setLaunch_launch_ne _ h]
  · split <;> rfl

@[simp] theorem endJob_log (s : State) (t : Thread) : (endJob s t).log = s.log := by
  unfold endJob
  split
  · rfl
  · split <;> rfl

theorem endStrand_log (s : State) (c : Nat) : (endStrand s c).log = s.log := by simp [endStrand]

theorem endStrand_pkt (s : State) (c l : Nat) : ((endStrand s c).launch l).pkt = (s.launch l).pkt := by
  simp [endStrand, endJob_pkt]

/-- The core that a strand leaves is vacated. -/
theorem endStrand_core_self (s : State) (c : Nat) : (endStrand s c).core c = (s.core c).vacate := by simp [endStrand]

/-- The launch of an H-mode trap gets the status FAULT and its scope is to be cancelled (R292). -/
theorem failLaunch_result (s : State) (l : Nat) : ((failLaunch s l).launch l).status = some 0x03 ∧
    (∃ r ∈ (failLaunch s l).hg.reqs, r.scope = (s.launch l).pkt.scope.toNat ∧ r.by_ = .machine) ∧
    (failLaunch s l).log = s.log := by
  obtain ⟨ds, h⟩ := askCancel_outside (s.setLaunch l { s.launch l with status := some 0x03 }) (s.launch l).die
    (s.launch l).pkt.scope.toNat .machine (s.launch l).ctx none
  unfold failLaunch
  dsimp only
  rw [h]
  refine ⟨?_, ⟨_, List.mem_append_right _ (List.mem_singleton.mpr rfl), rfl, rfl⟩, rfl⟩
  exact congrArg Launch.status (State.setLaunch_launch_self s l _)

theorem takeTrap_h {s : State} {c : Nat} (hm : (s.th c).pos.mode = .h) (hs : (s.core c).sending = false) (cause : BitVec 8)
    (v : Word) : takeTrap s c cause v = doubleTrap s c cause (s.th c).pos.pc := by
  rw [takeTrap, takeTrapAt_h hm, if_neg (by rw [hs]; exact Bool.false_ne_true)]

/-- The core of a strand that an H-mode trap ended. -/
theorem doubleTrap_th (s : State) (c : Nat) (cause : BitVec 8) (a : Word) :
    (doubleTrap s c cause a).th c = (s.core c).vacate.th := by
  have h : (doubleTrap s c cause a).core c = (endStrand s c).core c := by
    unfold doubleTrap
    exact (State.log_core _ _ c).trans (failLaunch_core _ _ c)
  unfold State.th
  rw [h, endStrand_core_self]

theorem doubleTrap_log (s : State) (c : Nat) (cause : BitVec 8) (a : Word) : (doubleTrap s c cause a).log =
    s.log ++ [{ name := "HTRAP", args := [c / 64, cause.toNat, a.toNat] }] := by
  have h : (failLaunch (endStrand s c) (s.th c).job.launch).log = s.log :=
    (failLaunch_result _ _).2.2.trans (endStrand_log s c)
  simp only [doubleTrap, h]
  rfl

theorem State.log_launch (s : State) (x : List LogEv) (l : Nat) : ({ s with log := x } : State).launch l = s.launch l := rfl

theorem doubleTrap_launch (s : State) (c : Nat) (cause : BitVec 8) (a : Word) :
    ((doubleTrap s c cause a).launch (s.th c).job.launch).status = some 0x03 ∧
    ∃ r ∈ (doubleTrap s c cause a).hg.reqs, r.scope = (s.launch (s.th c).job.launch).pkt.scope.toNat ∧ r.by_ = .machine := by
  obtain ⟨hst, hreq, _⟩ := failLaunch_result (endStrand s c) (s.th c).job.launch
  rw [endStrand_pkt] at hreq
  unfold doubleTrap
  exact ⟨(congrArg Launch.status (State.log_launch _ _ _)).trans hst, hreq⟩

theorem doubleTrap_effect : Sys2Proof.Ob.doubleTrap := by
  refine ⟨fun s c cause tval hm hs => ?_, fun s c cause tval hm hs => ?_⟩
  · rw [takeTrap, takeTrapAt_h hm, if_pos hs]
  · obtain ⟨hst, hreq⟩ := doubleTrap_launch s c cause (s.th c).pos.pc
    dsimp only
    rw [takeTrap_h hm hs, doubleTrap_th]
    exact ⟨rfl, rfl, rfl, rfl, hst, hreq, doubleTrap_log s c cause _, by simp⟩

/-- Settles O13: a trap in K mode is one write of the strand; in H mode it is the end of the strand. -/
theorem trapTaking : Obligations.TrapTaking := ⟨trapEntry, doubleTrap_effect⟩

end Sys2Proof.Machine

/-! ## TRAP and TRET (O14: R293, R294) -/

namespace Sys2Proof.Machine
open Sys2Proof Sys2Proof.Ob

/-! ### TRAP -/

theorem trapInstruction : Sys2Proof.Ob.trapInstruction := by
  intro n s hm hq hr
  have he : exec (.trap n) s = .next (takeTrapAt s s.me ((s.th s.me).pos.follow 2) cTrap (n.zeroExtend 64) false) := by
    change execTrap n s = _
    simp only [execTrap, hm, hq, hr, Bool.false_eq_true, if_false]
  refine ⟨_, he, ?_⟩
  have ht := takeTrapAt_k hm ((s.th s.me).pos.follow 2) cTrap (n.zeroExtend 64) false
  change _ = s.setTh s.me _ at ht
  rw [ht, State.setTh_th_self]
  exact ⟨rfl, rfl, rfl, rfl, rfl, trapKeeps_setTh rfl rfl rfl rfl⟩

/-! ### The position that TPC names -/

/-- The end of the block that TPC lies in is TPC exactly at its length (R85). -/
theorem pc_eq_end_iff (pc : Word) (boff tlen : BitVec 10) :
    pc = pc - 2 * boff.zeroExtend 64 + 2 * tlen.zeroExtend 64 ↔ boff = tlen := by
  constructor
  · intro h
    bv_omega
  · rintro rfl
    bv_omega

theorem Pos.advance_zero (p : Pos) : p.advance 0 = if p.pc = p.ret then
    (if p.rpt = 0#11 then { p with atHdr := true }
      else { p with pc := p.hdr + 4, rpt := p.rpt - 1, passStart := true }) else p := by
  simp only [Pos.advance, Nat.mul_zero, show p.pc + BitVec.ofNat 64 0 = p.pc from BitVec.add_zero p.pc]

/-- Where a strand goes on from TPC, in its block: at the next pass or past the block where TPC is the block's end. -/
theorem tpcPos_result (r : TrapRegs) :
    let p := tpcPos r
    let pc := r.tpc.zeroExtend 64
    let hdr := pc - 2 * r.boff.zeroExtend 64
    p.mode = .k ∧ (r.boff.toNat < 2 → p.pc = pc ∧ p.atHdr = true) ∧
    (2 ≤ r.boff.toNat → p.hdr = hdr ∧
      (r.boff ≠ r.tlen → p.pc = pc ∧ p.atHdr = false ∧ p.rpt = r.rptl) ∧
      (r.boff = r.tlen → r.rptl = 0 → p.pc = pc ∧ p.atHdr = true) ∧
      (r.boff = r.tlen → r.rptl ≠ 0 → p.pc = hdr + 4 ∧ p.atHdr = false ∧ p.rpt = r.rptl - 1)) := by
  have hend := pc_eq_end_iff (r.tpc.zeroExtend 64) r.boff r.tlen
  simp only [tpcPos]
  by_cases hb : r.boff.toNat < 2
  · rw [if_pos hb]
    exact ⟨rfl, fun _ => ⟨rfl, rfl⟩, fun h => absurd hb (by omega)⟩
  rw [if_neg hb, Pos.advance_zero]
  simp only [Pos.ret, hend]
  by_cases ht : r.boff = r.tlen
  · rw [if_pos ht]
    by_cases hr : r.rptl = 0#11
    · rw [if_pos hr]
      exact ⟨rfl, fun h => absurd h hb, fun _ => ⟨rfl, fun h => absurd ht h, fun _ _ => ⟨rfl, rfl⟩, fun _ h => absurd hr h⟩⟩
    · rw [if_neg hr]
      exact ⟨rfl, fun h => absurd h hb, fun _ => ⟨rfl, fun h => absurd ht h, fun _ h => absurd h hr, fun _ _ => ⟨rfl, rfl, rfl⟩⟩⟩
  · rw [if_neg ht]
    exact ⟨rfl, fun h => absurd h hb, fun _ => ⟨rfl, fun _ => ⟨rfl, rfl, rfl⟩, fun h => absurd h ht, fun h => absurd h ht⟩⟩

/-! ### TRET -/

/-- A strand with no SUBN and no wait of its own comes back from its trap at TPC, else at the header there (MOVED). -/
theorem resumeThread_plain {t : Thread} (hc : t.trap.cause ≠ 0x08) (hr : t.trap.routed = false) (q : BitVec 3) :
    resumeThread t q = { t with trap := { t.trap with vw := none }, pos :=
      if t.trap.moved then ({ tpcPos t.trap with fw := false } : Pos).branch (t.trap.tpc.zeroExtend 64) else tpcPos t.trap } := by
  have hs : ¬ t.trap.cause = cSubn := hc
  simp only [resumeThread, hs, if_false, false_and, stillRouted, hr, Bool.false_eq_true]
  split <;> rfl

/-- The strand's queues and its trap registers where no fault is recorded: only QFSTAT is cleared. -/
def actDone (t : Thread) : Thread := { t with trap := { t.trap with act := 0, q := 0 } }

theorem shown_of_no_fault {t : Thread} (h : t.q.faults = []) : t.shown = none := by
  unfold Thread.shown
  rw [h]
  split <;> rfl

theorem applyAct_of_no_fault {s : State} {c : Nat} (h : (s.th c).q.faults = []) :
    applyAct s c (s.th c).shown = s.setTh c (actDone (s.th c)) := by
  rw [shown_of_no_fault h]
  simp only [applyAct, h, List.filter_nil, actDone]
  rw [← h]

theorem exec_tret_plain {s : State} (hm : (s.th s.me).pos.mode = .h) (hk : (s.th s.me).trap.kind ≠ 1)
    (h : (s.th s.me).q.faults = []) :
    exec .tret s = .next (s.setTh s.me (resumeThread (actDone (s.th s.me)) 0)) := by
  have hq : (s.th s.me).qfstatQ = 0 := by rw [Thread.qfstatQ, shown_of_no_fault h]; rfl
  have hill : ¬ ((s.th s.me).pos.mode = .k ∨ (s.th s.me).trap.kind = 1#2) := by
    rw [hm]
    exact fun h => h.elim (by decide) hk
  change execTret s = _
  simp only [execTret, tret]
  rw [if_neg hill, hq, applyAct_of_no_fault h, State.setTh_th_self, State.setTh_setTh]
  exact if_neg Bool.false_ne_true

theorem trapReturn : Sys2Proof.Ob.trapReturn := by
  refine ⟨fun s hm hk hf hc hr => ⟨_, exec_tret_plain hm hk hf, ?_⟩, fun s w h hw => ?_⟩
  · obtain ⟨hmode, hlow, hblock⟩ := tpcPos_result (s.th s.me).trap
    have hp : tpcPos (actDone (s.th s.me)).trap = tpcPos (s.th s.me).trap := rfl
    dsimp only
    rw [State.setTh_th_self, resumeThread_plain (t := actDone (s.th s.me)) hc hr 0, hp]
    refine ⟨?_, fun h => ?_, fun h => ?_, rfl, rfl, rfl, rfl, rfl, State.setTh_outside _ _ _,
      fun j hj => State.setTh_core_ne s hj _⟩
    · dsimp only
      split
      · exact hmode
      · exact hmode
    · dsimp only
      split
      · exact ⟨rfl, rfl⟩
      next hmv => exact hlow (h.resolve_left hmv)
    · have hmv : (actDone (s.th s.me)).trap.moved = false := h
      simp only [hmv, Bool.false_eq_true, if_false]
      exact hblock
  · rw [← illegal_of_encoded hw s]
    exact if_pos h

/-- Settles O14: TRAP is one write of the strand; TRET with no fault recorded only restores the position. -/
theorem trapAndReturnResult : Obligations.TrapAndReturnResult := ⟨trapInstruction, trapReturn⟩

end Sys2Proof.Machine

/-! ## The CSR instructions and VMODE (O11: R97, R313) -/

namespace Sys2Proof.Machine
open Sys2Proof Sys2Proof.Ob

/-- A ring that names nothing at all names nothing of a kind. -/
theorem ringNames_mono {s : State} {c : Nat} (h : ringNames s c (fun _ _ => true) = false)
    (p : BitVec 3 → List (BitVec 4) → Bool) : ringNames s c p = false := by
  simp only [ringNames, Bool.or_eq_false_iff, List.any_eq_false] at h ⊢
  obtain ⟨hring, hexec⟩ := h
  refine ⟨fun j hj => absurd trivial (hring j hj), ?_⟩
  cases hx : ringExec s c with
  | none => rfl
  | some x => exact absurd (hx ▸ hexec) (by simp)

/-- Where no wait of R81 or R94 holds it, an access goes on at once. -/
theorem csrWait_of_free {s : State} {csr : BitVec 11} (h : csrFree s csr = true) (writes : Bool) (v : Word) (k : State → Out) :
    csrWait s s.me csr.toNat writes v k = k s := by
  simp only [csrFree, Bool.and_eq_true, List.isEmpty_iff, Bool.or_eq_true, decide_eq_true_eq, Bool.not_eq_true'] at h
  obtain ⟨hq, hr⟩ := h
  unfold csrWait
  split
  · rw [hq]
  split
  next _ hn =>
    have hcsr : csr = 0x062 := BitVec.eq_of_toNat_eq (of_decide_eq_true (Bool.and_eq_true_iff.mp hn).1)
    have hnone := hr.resolve_left fun hne => hne hcsr
    simp only [ringNames_mono hnone, Bool.false_eq_true, if_false]
  · rfl

theorem qfaultFirst_of_free {s : State} {csr : BitVec 11} (h : csrFree s csr = true) (k : State → Out) :
    qfaultFirst s s.me (csrQueues (s.th s.me).q csr.toNat) k = k s := by
  simp only [csrFree, Bool.and_eq_true, List.isEmpty_iff] at h
  rw [h.1]
  rfl

theorem csrBad_of_allowed {s : State} {csr : BitVec 11} {old : Word} (ho : readCsr s s.me csr.toNat = some old)
    (ha : csrAllowed s csr = true) : csrBad s s.me csr.toNat = false := by
  simp only [csrAllowed, Bool.or_eq_true, decide_eq_true_eq, Bool.not_eq_true'] at ha
  rcases ha with h | h <;> simp [csrBad, ho, h]

@[simp] theorem writeCsr_me (s : State) (c n : Nat) (v : Word) : (writeCsr s c n v).me = s.me := by
  simp only [writeCsr]
  split
  · rfl
  · split
    case h_6 => split <;> rfl
    all_goals rfl

/-- A CSR access that nothing holds writes the old value to rd, and the CSR where it writes (R313). -/
theorem csrOp_performed {s : State} {csr : BitVec 11} {old : Word} (ho : readCsr s s.me csr.toNat = some old)
    (ha : csrAllowed s csr = true) (hf : csrFree s csr = true) (i : Instr) (rd ra : BitVec 5) {writes : Bool}
    (hd : writes = true → noD s [ra] = true) (val : Word → Word → Word) :
    csrOp i rd ra csr writes val s = .next (wrote
      (if writes then writeCsr s s.me csr.toNat (val old (reg s ra)) else s) rd old false 2) := by
  have hd' : noD s (if writes then [ra] else []) = true := by
    cases writes with
    | true => exact hd rfl
    | false => rfl
  simp only [csrOp, csrBad_of_allowed ho ha, Bool.false_eq_true, if_false, qfaultFirst_of_free hf, guardD_of_noD hd',
    csrWait_of_free hf, ho, Option.getD_some]
  cases writes with
  | true => simp only [wrote, if_true, writeCsr_me]; rfl
  | false => rfl

theorem csrResult : Sys2Proof.Ob.csrResult := by
  refine ⟨fun rd csr s old ho ha hf => csrOp_performed ho ha hf (.csrr rd csr) rd 0 (writes := false) nofun fun old _ => old, ?_⟩
  simp only [csrOps, List.forall_mem_cons, List.not_mem_nil, false_implies, implies_true, and_true]
  exact ⟨fun f csr s old ho ha hf hd => csrOp_performed ho ha hf (.csrw f csr) f.rd f.ra (fun _ => hd trivial) fun _ a => a,
    fun f csr s old ho ha hf hd => csrOp_performed ho ha hf (.csrs f csr) f.rd f.ra hd fun o a => o ||| a,
    fun f csr s old ho ha hf hd => csrOp_performed ho ha hf (.csrc f csr) f.rd f.ra hd fun o a => o &&& ~~~a⟩

theorem vmodeResult : Sys2Proof.Ob.vmodeResult := by
  intro f mask s hd
  have he : execVmode f mask s = _ := guardD_of_noD hd _
  refine ⟨_, he, ?_⟩
  dsimp only
  rw [State.setTh_th_self, Thread.advance_csr, Thread.wrS_csr]
  refine ⟨?_, vmodeWrite_fields _ _ mask⟩
  rw [rdS_of_regs (Thread.advance_regs _ 2), Thread.rdS_wrS]
  by_cases hrd : f.rd = 0
  · simp [hrd, Thread.rdS]
  · rw [if_pos ⟨rfl, hrd⟩, if_neg hrd]

/-- Settles O11: what is read before the write goes to rd; VMODE's fields are those of `vmodeWrite`. -/
theorem csrAndVmodeResult : Obligations.CsrAndVmodeResult := ⟨csrResult, vmodeResult⟩

end Sys2Proof.Machine

/-! ## ISYNC, the fences and the semaphores (O27: R125, R180, R181, R248, R255, R256, R295, R326) -/

namespace Sys2Proof.Machine
open Sys2Proof Sys2Proof.Ob

/-! ### The lines that ISYNC fetches -/

/-- Of core c only the lines it holds ahead differ, and nothing that the check of a fetch looks at. -/
structure SameButAhead (s t : State) (c : Nat) : Prop where
  mem : t.mem = s.mem
  tlb : t.tlb = s.tlb
  ctx : ∀ n, t.ctx n = s.ctx n
  others : SameOthers s t c
  core : t.core c = { s.core c with ahead := (t.core c).ahead }

theorem SameButAhead.trans {s t u : State} {c : Nat} (h : SameButAhead s t c) (h' : SameButAhead t u c) :
    SameButAhead s u c where
  mem := h'.mem.trans h.mem
  tlb := h'.tlb.trans h.tlb
  ctx := fun n => (h'.ctx n).trans (h.ctx n)
  others := fun j hj => (h'.others j hj).trans (h.others j hj)
  core := by rw [h'.core, h.core]

theorem SameButAhead.refl (s : State) (c : Nat) : SameButAhead s s c :=
  ⟨rfl, rfl, fun _ => rfl, fun _ _ => rfl, rfl⟩

theorem SameButAhead.of_setCore (s : State) (c : Nat) (xs : List FetchLine) :
    SameButAhead s (s.setCore c { s.core c with ahead := xs }) c :=
  ⟨rfl, rfl, fun _ => rfl, fun _ hj => State.setCore_core_ne s hj _, by simp⟩

theorem SameButAhead.th {s t : State} {c : Nat} (h : SameButAhead s t c) : t.th c = s.th c := by
  unfold State.th
  rw [h.core]

theorem SameButAhead.banks {s t : State} {c : Nat} (h : SameButAhead s t c) (j : Nat) : (t.core j).banks = (s.core j).banks := by
  by_cases hj : j = c
  · rw [hj, h.core]
  · rw [h.others j hj]

theorem SameButAhead.fetchLine {s t : State} {c : Nat} (h : SameButAhead s t c) (l : Nat) :
    fetchLine t c l = fetchLine s c l := by
  have hb : (t.core c).bind = (s.core c).bind := by rw [h.core]
  have hw : t.whoThread c = s.whoThread c := by simp only [State.whoThread, State.ctxOf, h.th, hb]
  simp only [Machine.fetchLine, hw, checkAccess_congr h.mem h.tlb h.ctx h.banks, h.mem]

theorem fetchLine_line {s : State} {c l : Nat} {b : Bool} {x : FetchLine} (h : fetchLine s c l b = some x) : x.line = l := by
  unfold fetchLine at h
  split at h
  · split at h
    · cases h
    · cases h; rfl
  · cases h; rfl
  · cases h

theorem heldLineAt_some {s : State} {c l : Nat} {x : FetchLine} (h : heldLineAt s c l = some x) :
    x ∈ (s.core c).ahead ∧ x.line = l :=
  ⟨List.mem_of_find?_eq_some h, eq_of_beq (List.find?_some (p := fun x : FetchLine => x.line == l) h)⟩

theorem fetchAhead_sameButAhead (s : State) (c l : Nat) : SameButAhead s (fetchAhead s c l) c := by
  unfold fetchAhead
  split
  · exact .of_setCore s c _
  · exact .refl s c

/-- What the core holds after one fetch ahead: what it held, and the line where it is fetched. -/
theorem fetchAhead_ahead (s : State) (c l : Nat) :
    (∀ x ∈ ((fetchAhead s c l).core c).ahead, x ∈ (s.core c).ahead ∨ fetchLine s c x.line = some x) ∧
    (∀ x ∈ (s.core c).ahead, x ∈ ((fetchAhead s c l).core c).ahead) ∧
    ((heldLineAt s c l).isSome ∨ (fetchLine s c l).isSome → ∃ x ∈ ((fetchAhead s c l).core c).ahead, x.line = l) := by
  unfold fetchAhead
  cases hh : heldLineAt s c l with
  | some y =>
    refine ⟨fun x hx => .inl hx, fun x hx => hx, fun _ => ⟨y, heldLineAt_some hh⟩⟩
  | none =>
    cases hf : fetchLine s c l with
    | none => exact ⟨fun x hx => .inl hx, fun x hx => hx, fun h => by simp at h⟩
    | some y =>
      have hy := fetchLine_line hf
      simp only [State.setCore_core_self]
      refine ⟨fun x hx => ?_, fun x hx => List.mem_cons_of_mem _ hx, fun _ => ⟨y, List.mem_cons_self, hy⟩⟩
      rcases List.mem_cons.mp hx with rfl | hx
      · exact .inr (hy.symm ▸ hf)
      · exact .inl hx

/-- What the core holds after fetching a list of lines ahead. -/
theorem fetchAll_ahead (c : Nat) (ls : List Nat) (s : State) :
    let t := ls.foldl (fun s l => fetchAhead s c l) s
    SameButAhead s t c ∧
    (∀ x ∈ (t.core c).ahead, x ∈ (s.core c).ahead ∨ fetchLine s c x.line = some x) ∧
    (∀ x ∈ (s.core c).ahead, x ∈ (t.core c).ahead) ∧
    ∀ l ∈ ls, (heldLineAt s c l).isSome ∨ (fetchLine s c l).isSome → ∃ x ∈ (t.core c).ahead, x.line = l := by
  induction ls generalizing s with
  | nil => exact ⟨.refl s c, fun x hx => .inl hx, fun x hx => hx, nofun⟩
  | cons l ls ih =>
    have hs := fetchAhead_sameButAhead s c l
    obtain ⟨hfrom, hkeep, hgot⟩ := fetchAhead_ahead s c l
    obtain ⟨hs', hfrom', hkeep', hgot'⟩ := ih (fetchAhead s c l)
    refine ⟨hs.trans hs', fun x hx => ?_, fun x hx => hkeep' x (hkeep x hx), fun l' hl' h => ?_⟩
    · rcases hfrom' x hx with h | h
      · exact hfrom x h
      · exact .inr (hs.fetchLine _ ▸ h)
    · rcases List.mem_cons.mp hl' with rfl | hl'
      · obtain ⟨x, hx, hxl⟩ := hgot h
        exact ⟨x, hkeep' x hx, hxl⟩
      · refine hgot' l' hl' (h.imp (fun h => ?_) fun h => (hs.fetchLine l').symm ▸ h)
        obtain ⟨y, hy⟩ := Option.isSome_iff_exists.mp h
        rw [heldLineAt, List.find?_isSome]
        exact ⟨y, hkeep y (heldLineAt_some hy).1, beq_iff_eq.mpr (heldLineAt_some hy).2⟩

/-- The lines that are discarded leave the core, and nothing else of it changes. -/
theorem discardLines_core (s : State) (c : Nat) (p : FetchLine → Bool) :
    (discardLines s c p).core c = { s.core c with ahead := (s.core c).ahead.filter (fun x => !p x) } := by
  simp only [discardLines]
  split
  next h =>
    have h' : (s.core c).ahead = [] := List.isEmpty_iff.mp h
    rw [h', List.filter_nil, ← h']
  · split
    · exact State.setCore_core_self s c _
    · exact State.setCore_core_self s c _

theorem discardLines_others (s : State) (c : Nat) (p : FetchLine → Bool) : SameOthers s (discardLines s c p) c := fun j hj => by
  simp only [discardLines]
  split
  · rfl
  · split
    · exact State.setCore_core_ne s hj _
    · exact State.setCore_core_ne s hj _

/-- The lines of the rest of the pass are marked as its last. -/
def markLast (s : State) (c : Nat) : State :=
  s.setCore c { s.core c with
    ahead := (s.core c).ahead.map (fun x => { x with last := true }),
    loop := (s.core c).loop.map (fun b => { b with last := true }) }

/-- The state in which ISYNC has fetched, and kept, the lines of a list alone. -/
def isyncKept (s : State) (c : Nat) (rest : List Nat) : State :=
  discardLines (rest.foldl (fun s l => fetchAhead s c l) s) c (fun x => !rest.contains x.line)

theorem exec_isync_goes {s : State} (h : (restOfPass (s.th s.me).pos).find? (lineAsks s s.me) = none) :
    exec .isync s = .next ((markLast (isyncKept s s.me (restOfPass (s.th s.me).pos)) s.me).advance s.me 2) := by
  change execIsync s = _
  simp only [execIsync, h]
  rfl

/-- What the core of s holds once ISYNC has kept the lines of a list alone. -/
theorem isyncKept_ahead (s : State) (c : Nat) (rest : List Nat) :
    (∃ xs, (isyncKept s c rest).core c = { s.core c with ahead := xs }) ∧ SameOthers s (isyncKept s c rest) c ∧
    (isyncKept s c rest).mem = s.mem ∧
    (∀ x ∈ ((isyncKept s c rest).core c).ahead, x.line ∈ rest ∧ (x ∈ (s.core c).ahead ∨ fetchLine s c x.line = some x)) ∧
    (∀ l ∈ rest, (heldLineAt s c l).isSome ∨ (fetchLine s c l).isSome →
      ∃ x ∈ ((isyncKept s c rest).core c).ahead, x.line = l) := by
  obtain ⟨hs, hfrom, _, hgot⟩ := fetchAll_ahead c rest s
  unfold isyncKept
  generalize rest.foldl (fun s l => fetchAhead s c l) s = t at hs hfrom hgot ⊢
  rw [discardLines_core, discardLines_mem]
  refine ⟨⟨_, by rw [hs.core]⟩, fun j hj => (discardLines_others t c _ j hj).trans (hs.others j hj), hs.mem, fun x hx => ?_,
    fun l hl h => ?_⟩
  · obtain ⟨hx, hr⟩ := List.mem_filter.mp hx
    exact ⟨by simpa using hr, hfrom x hx⟩
  · obtain ⟨x, hx, rfl⟩ := hgot l hl h
    exact ⟨x, List.mem_filter.mpr ⟨hx, by simpa using hl⟩, rfl⟩

theorem isync_goes {s : State} (h : (restOfPass (s.th s.me).pos).find? (lineAsks s s.me) = none) :
    ∃ t, exec .isync s = .next t ∧ t.th s.me = (s.th s.me).advance 2 ∧ t.mem = s.mem ∧ SameOthers s t s.me ∧
    (t.core s.me).loop = (s.core s.me).loop.map (fun b => { b with last := true }) ∧
    (∀ x ∈ (t.core s.me).ahead, x.last = true ∧ x.line ∈ restOfPass (s.th s.me).pos ∧
      ((∃ y ∈ (s.core s.me).ahead, x = { y with last := true }) ∨
        (∃ y, fetchLine s s.me x.line = some y ∧ x = { y with last := true }))) ∧
    (∀ l ∈ restOfPass (s.th s.me).pos, (heldLineAt s s.me l).isSome ∨ (fetchLine s s.me l).isSome →
      ∃ x ∈ (t.core s.me).ahead, x.line = l) := by
  refine ⟨_, exec_isync_goes h, ?_⟩
  obtain ⟨⟨xs, hcore⟩, hothers, hmem, hfrom, hgot⟩ := isyncKept_ahead s s.me (restOfPass (s.th s.me).pos)
  generalize isyncKept s s.me (restOfPass (s.th s.me).pos) = t at hcore hothers hmem hfrom hgot ⊢
  have hth : t.th s.me = s.th s.me := by unfold State.th; rw [hcore]
  have hloop : (t.core s.me).loop = (s.core s.me).loop := by rw [hcore]
  unfold State.advance markLast
  rw [State.setTh_core_self, State.setTh_th_self, State.setCore_core_self, State.setCore_th_self]
  refine ⟨congrArg (Thread.advance · 2) hth, hmem, fun j hj => ?_, by dsimp only; rw [hloop], fun x hx => ?_, fun l hl h => ?_⟩
  · rw [State.setTh_core_ne _ hj, State.setCore_core_ne _ hj, hothers j hj]
  · obtain ⟨y, hy, rfl⟩ := List.mem_map.mp hx
    obtain ⟨hr, hy⟩ := hfrom y hy
    exact ⟨rfl, hr, hy.imp (fun h => ⟨y, h, rfl⟩) fun h => ⟨y, h, rfl⟩⟩
  · obtain ⟨x, hx, rfl⟩ := hgot l hl h
    exact ⟨_, List.mem_map.mpr ⟨x, hx, rfl⟩, rfl⟩

/-! ### FENCE and LFENCE -/

section fences
variable {s : State}

theorem fenceWait_of_quiet (h : quiet s = true) (k : State → Out) : fenceWait s s.me k = k s := by
  simp only [quiet, Bool.and_eq_true, Option.isNone_iff_eq_none, Bool.not_eq_true'] at h
  simp only [fenceWait, emptyQueues, h.1, h.2, Bool.false_eq_true, if_false]

theorem fenceWait_of_halted {v : VQ} (h : (s.th s.me).q.haltedQ = some v) (k : State → Out) :
    fenceWait s s.me k = .next (takeQfault s s.me (qCode v) false) := by
  simp only [fenceWait, emptyQueues, h]

theorem fenceWait_of_busy (h : (s.th s.me).q.haltedQ = none) (hb : (s.th s.me).q.busy = true) (k : State → Out) :
    fenceWait s s.me k = .next s := by
  simp only [fenceWait, emptyQueues, h, hb, if_true, awaitQueues, blocker_none _ h]

/-- A fence goes on from the state, or rests in it. -/
theorem fenceWait_cases (s : State) (k : State → Out) : fenceWait s s.me k = k s ∨
    ∃ t, fenceWait s s.me k = .next t ∧ Leaves s t s.me ∧ t.mem = s.mem := by
  simp only [fenceWait, emptyQueues]
  split
  · exact .inr ⟨_, rfl, takeTrapAt_leaves s s.me _ _ _ _ _, by simp⟩
  · split
    · unfold awaitQueues
      split
      · exact .inr ⟨_, rfl, takeTrapAt_leaves s s.me _ _ _ _ _, by simp⟩
      · exact .inr ⟨_, rfl, .refl s s.me, rfl⟩
    · exact .inl rfl

end fences

theorem acquireAll_core (s : State) (c j : Nat) : (acquireAll s c).core j = (drainFifo s c).core j :=
  takeStamps_keeps (fun s => s.core j) (fun _ _ _ => rfl) (drainFifo s c) _ _

theorem acquireAll_leaves (s : State) (c : Nat) : Leaves s (acquireAll s c) c :=
  have hdrain : Leaves s (drainFifo s c) c := .setCore rfl rfl rfl
  hdrain.trans (.of_core c fun j => acquireAll_core s c j)

/-- A fence that does not wait goes on, above core scope as a release and an acquire (R248). -/
def fenceOn (scope : BitVec 3) (s : State) : State := (if scope = 0 then s else acquireAll s s.me).advance s.me 2

theorem exec_fence (scope : BitVec 3) (s : State) : exec (.fence scope) s = fenceWait s s.me fun s => .next (fenceOn scope s) := rfl

theorem exec_lfence (before after : BitVec 4) (s : State) :
    exec (.lfence before after) s = fenceWait s s.me fun s => .next (s.advance s.me 2) := rfl

/-- Whatever a FENCE comes to, memory and the registers are as before. -/
theorem fence_frame {scope : BitVec 3} {s t : State} (h : exec (.fence scope) s = .next t) :
    t.mem = s.mem ∧ (t.th s.me).regs = (s.th s.me).regs := by
  rw [exec_fence] at h
  rcases fenceWait_cases s fun s => .next (fenceOn scope s) with hk | hr
  · obtain rfl := Host.Outcome.next.inj (hk.symm.trans h)
    unfold fenceOn
    split
    · exact ⟨rfl, (advance_leaves s s.me 2).regs⟩
    · exact ⟨by rw [State.advance, State.setTh_mem, acquireAll_mem], ((acquireAll_leaves s s.me).trans (advance_leaves _ s.me 2)).regs⟩
  · obtain ⟨t', ht, hl, hm⟩ := hr
    obtain rfl := Host.Outcome.next.inj (ht.symm.trans h)
    exact ⟨hm, hl.regs⟩

theorem fenceResult : Sys2Proof.Ob.fenceResult := by
  refine ⟨fun s => rfl, fun s l h => ?_, fun s h => isync_goes h, fun scope before after s h => ?_,
    fun scope before after s v h => ?_, fun scope before after s h hb => ?_, fun scope s => ?_⟩
  · change execIsync s = _
    simp only [execIsync, h]
  · rw [exec_fence, exec_lfence, fenceWait_of_quiet h, fenceWait_of_quiet h]
    exact ⟨rfl, rfl⟩
  · rw [exec_fence, exec_lfence, fenceWait_of_halted h, fenceWait_of_halted h]
    exact ⟨rfl, rfl⟩
  · rw [exec_fence, exec_lfence, fenceWait_of_busy h hb, fenceWait_of_busy h hb]
    exact ⟨rfl, rfl⟩
  · refine ⟨?_, (acquireAll_leaves s s.me).others, fun t h => fence_frame h⟩
    rw [acquireAll_core]
    exact State.setCore_core_self s s.me _

/-! ### SEMW and SEMS -/

@[simp] theorem setSemOf_me (s : State) (c n : Nat) (v : BitVec 16) : (setSemOf s c n v).me = s.me := rfl

theorem killPoint_alive {s : State} (h : alive s = true) (k : State → Out) : killPoint s s.me k = k s := by
  unfold killPoint
  rw [Option.isNone_iff_eq_none.mp h]

theorem nbits_extract (a : Word) (lo n : Nat) : nbits a.toNat lo n = (a.extractLsb' lo n).toNat := by
  rw [BitVec.extractLsb'_toNat]
  rfl

section semaphores
variable {s : State}

theorem semw_result {f : R2} (hd : noD s [f.ra] = true) :
    exec (.semw f) s = if 32 ≤ (reg s f.ra).toNat then .next (wrote s f.rd rBadsem false 2)
      else if semBad s s.me (reg s f.ra).toNat then .next (takeTrap s s.me cEcc 0)
      else if semOf s s.me (reg s f.ra).toNat = 0 then killPoint s s.me (fun s => .next s)
      else .next (wrote (setSemOf s s.me (reg s f.ra).toNat (semOf s s.me (reg s f.ra).toNat - 1)) f.rd
        ((semOf s s.me (reg s f.ra).toNat).zeroExtend 64) false 2) := by
  change execSemw f s = _
  unfold execSemw
  rw [guardD_of_noD hd]
  rfl

/-- SEMS adds v to semaphore n of core p (R181). -/
def semsAdded (s : State) (p n v : Nat) : State :=
  if p = s.me then setSemOf s p n (BitVec.ofNat 16 ((semOf s p n).toNat + v))
  else (setSemOf s p n (BitVec.ofNat 16 ((semOf s p n).toNat + v))).setTh s.me
    (clearRestart ((setSemOf s p n (BitVec.ofNat 16 ((semOf s p n).toNat + v))).th s.me))

theorem semsAdded_me (s : State) (p n v : Nat) : (semsAdded s p n v).me = s.me := by
  unfold semsAdded
  split <;> rfl

/-- SEMS on the semaphore of core p, of the operand's number: what it may be refused for, and its count. -/
def semsAt (s : State) (f : R3) (p n v : Nat) : Out :=
  if semBad s p n then .next (takeTrap s s.me cEcc 0)
  else if 65535 < (semOf s p n).toNat + v then .next (wrote s f.rd rBusy false 2)
  else .next (wrote (semsAdded s p n v) f.rd 0 false 2)

/-- The count and the operand are ones that SEMS takes (R180). -/
def semsTakes (s : State) (f : R3) : Bool :=
  semsZero (reg s f.ra) && decide (1 ≤ (reg s f.rb).toNat) && decide ((reg s f.rb).toNat ≤ 65535)

theorem semsTakes_of {f : R3} (hz : reg s f.ra &&& ~~~0x0F1F011F = 0) (h1 : 1 ≤ (reg s f.rb).toNat)
    (hv : (reg s f.rb).toNat ≤ 65535) : semsTakes s f = true := by
  rw [semsTakes, semsZero, decide_eq_true h1, decide_eq_true hv]
  exact Bool.and_eq_true_iff.mpr ⟨Bool.and_eq_true_iff.mpr ⟨decide_eq_true hz, rfl⟩, rfl⟩

theorem semsTakes_false {f : R3} : semsTakes s f = false ↔
    (!semsZero (reg s f.ra) || decide ((reg s f.rb).toNat = 0) || decide (65535 < (reg s f.rb).toNat)) = true := by
  simp only [semsTakes, Bool.and_eq_false_iff, decide_eq_false_iff_not, Bool.or_eq_true, Bool.not_eq_true', decide_eq_true_eq,
    Nat.not_le, Nat.lt_one_iff]

theorem sems_refused {f : R3} (hd : noD s [f.ra, f.rb] = true) (h : semsTakes s f = false) :
    exec (.sems f) s = .next (wrote s f.rd rBadsem false 2) := by
  change execSems f s = _
  unfold execSems
  rw [guardD_of_noD hd]
  exact if_pos (semsTakes_false.mp h)

theorem sems_taken {f : R3} (hd : noD s [f.ra, f.rb] = true) (h : semsTakes s f = true) {p : Nat}
    (hp : (if (reg s f.ra).getLsbD 8 then peerOf s s.me ((reg s f.ra).extractLsb' 16 5).toNat ((reg s f.ra).extractLsb' 24 4).toNat
      else some s.me) = some p) :
    exec (.sems f) s = semsAt s f p ((reg s f.ra).toNat % 32) (reg s f.rb).toNat := by
  have hn : ¬ (!semsZero (reg s f.ra) || decide ((reg s f.rb).toNat = 0) || decide (65535 < (reg s f.rb).toNat)) = true :=
    fun hb => Bool.false_ne_true ((semsTakes_false.mpr hb).symm.trans h)
  rw [← nbits_extract, ← nbits_extract] at hp
  change (if ((s.th s.me).rdS f.ra).val.getLsbD 8 then peerOf s s.me (nbits ((s.th s.me).rdS f.ra).val.toNat 16 5)
    (nbits ((s.th s.me).rdS f.ra).val.toNat 24 4) else some s.me) = some p at hp
  change execSems f s = _
  unfold execSems
  rw [guardD_of_noD hd]
  refine (if_neg hn).trans ?_
  simp only [hp]
  rw [semsAt, ← result_wrote (semsAdded_me s p _ _)]
  rfl

end semaphores

theorem semwResult (f : R2) (s : State) (hd : noD s [f.ra] = true) :
    let n := (reg s f.ra).toNat
    (n < 32 → semBad s s.me n = true → exec (.semw f) s = .next (takeTrap s s.me cEcc 0)) ∧
    (n < 32 → semBad s s.me n = false → semOf s s.me n ≠ 0 → exec (.semw f) s = .next (wrote (setSemOf s s.me n (semOf s s.me n - 1)) f.rd
      ((semOf s s.me n).zeroExtend 64) false 2)) ∧
    (n < 32 → semBad s s.me n = false → semOf s s.me n = 0 → alive s = true → exec (.semw f) s = .next s) ∧
    (32 ≤ n → exec (.semw f) s = .next (wrote s f.rd rBadsem false 2)) := by
  rw [semw_result hd]
  refine ⟨fun hn hb => ?_, fun hn hb hz => ?_, fun hn hb hz ha => ?_, fun hn => if_pos hn⟩
  · rw [if_neg (by omega), if_pos hb]
  · rw [if_neg (by omega), if_neg (by simp [hb]), if_neg hz]
  · rw [if_neg (by omega), if_neg (by simp [hb]), if_pos hz, killPoint_alive ha]

/-- A count that SEMS adds to another core's semaphore (R181). -/
theorem semsAt_peer {s : State} {f : R3} {p n v : Nat} (hp : p ≠ s.me) (hn : n < 32) (hb : semBad s p n = false)
    (hv : (semOf s p n).toNat + v ≤ 65535) : ∃ t, semsAt s f p n v = .next t ∧
      semOf t p n = BitVec.ofNat 16 ((semOf s p n).toNat + v) ∧ (t.th s.me).rdS f.rd = {} ∧
      (t.th s.me).job.restart = false ∧ t.mem = s.mem := by
  unfold semsAt
  rw [if_neg (by simp [hb]), if_neg (by omega)]
  unfold wrote
  rw [semsAdded_me, semsAdded, if_neg hp]
  refine ⟨_, rfl, ?_, ?_, ?_, rfl⟩
  · rw [semOf, State.setTh_th_ne _ hp, State.setTh_th_ne _ hp]
    exact semOf_setSemOf_self s p hn _
  · rw [State.setTh_th_self, rdS_of_regs (Thread.advance_regs _ 2), Thread.rdS_wrS]
    by_cases hrd : f.rd = 0
    · simp [hrd, Thread.rdS]
    · rw [if_pos ⟨rfl, hrd⟩]
  · rw [State.setTh_th_self, Thread.advance_job, Thread.wrS_job, State.setTh_th_self]
    rfl

theorem semaphoreResult : Sys2Proof.Ob.semaphoreResult := by
  refine ⟨semwResult, fun f s hd => ⟨fun hz h1 hv hown hb hsum => ?_, fun p hz h1 hv hpeer hp => ?_, fun h => ?_⟩⟩
  · rw [sems_taken hd (semsTakes_of hz h1 hv) (p := s.me) (by rw [hown]; rfl), semsAt, if_neg (by simp [hb]),
      if_neg (by omega), semsAdded, if_pos rfl]
  · rw [sems_taken hd (semsTakes_of hz h1 hv) (p := p) (by rw [hpeer]; exact hp)]
    refine ⟨fun hb => ?_, fun hb hsum => ?_, fun hne hb hsum => ?_⟩
    · rw [semsAt, if_pos hb]
    · rw [semsAt, if_neg (by simp [hb]), if_pos hsum]
    · exact semsAt_peer hne (Nat.mod_lt _ (by decide)) hb hsum
  · refine sems_refused hd (semsTakes_false.mpr ?_)
    simpa [semsZero, or_assoc] using h

/-- Settles O27: ISYNC keeps the lines of the rest of its pass; the fences and the semaphores by their tests, in order. -/
theorem fenceAndSemaphoreResult : Obligations.FenceAndSemaphoreResult := ⟨fenceResult, semaphoreResult⟩

end Sys2Proof.Machine

/-! ## SAFEPT, YIELD and TASKEND (O37: R41, R43, R45, R296) -/

namespace Sys2Proof.Machine
open Sys2Proof Sys2Proof.Ob

/-! ### Safe points -/

section safePoints
variable {s : State}

theorem goOn_th (s : State) (c : Nat) : ∃ j, (goOn s c).th c = { s.th c with job := j } := by
  simp only [goOn]
  split
  · exact ⟨_, State.setTh_th_self s c _⟩
  · exact ⟨_, rfl⟩

/-- A safe point passes where nothing stops the strand there. -/
theorem safeInstr_passes (hgone : ¬ ((s.th s.me).job.run = .stopped ∧ (killedStrand s s.me).isSome)) (map : Nat)
    (h : (s.th s.me).pos.mode = .h ∨ ((s.th s.me).q.haltedQ = none ∧ ringOk s = true ∧ stopPending s s.me = false)) :
    safeInstr s map = .next ((goOn s s.me).advance s.me 2) := by
  obtain ⟨j, hth⟩ := goOn_th s s.me
  have hpos : ((goOn s s.me).th s.me).pos = (s.th s.me).pos := by rw [hth]
  have hq : ((goOn s s.me).th s.me).q = (s.th s.me).q := by rw [hth]
  simp only [safeInstr, if_neg hgone, hpos, hq]
  cases hm : (s.th s.me).pos.mode with
  | h => rfl
  | k =>
    obtain ⟨hh, hr, hp⟩ := h.resolve_left (by simp [hm])
    have hr' : (s.th s.me).q.ringFault = false := by simpa [ringOk] using hr
    simp only [hh, hr', hp, Bool.false_eq_true, if_false, Bool.not_false, if_true]

theorem killed_of_alive (h : alive s = true) : ¬ (killedStrand s s.me).isSome := by
  simpa [alive, Option.isNone_iff_eq_none] using h

/-- A strand whose pre-emption is pending stops at a safe point, with the rest of its launch still running (R45). -/
theorem safeInstr_stops {map : Nat} (hm : (s.th s.me).pos.mode = .k) (hq : quiet s = true) (hr : ringOk s = true)
    (hb : ringBusy s s.me = false) (hl : (s.core s.me).bind.lendTo = none) (hrun : (s.th s.me).job.run = .run)
    (hp : stopPending s s.me = true) (hs : saveFits s s.me map = true) :
    safeInstr s map = .next (stopAt s s.me map) := by
  have hgo : goOn s s.me = s := if_neg (by rw [hrun]; simp)
  have hr' : (s.th s.me).q.ringFault = false := by simpa [ringOk] using hr
  simp only [quiet, Bool.and_eq_true, Option.isNone_iff_eq_none, Bool.not_eq_true'] at hq
  obtain ⟨hh, hbusy⟩ := hq
  simp only [safeInstr, hrun, reduceCtorEq, false_and, if_false, hgo, hm, hh, hr', hp, Bool.false_eq_true, Bool.not_true,
    safePoint, hbusy, hb, hl, hs, if_true]

end safePoints

/-! ### TASKEND -/

/-- The source of a handler that ends goes on, where the strand is one. -/
def sourceRestarted (s : State) (l : Nat) (t : Thread) : State :=
  match (s.launch l).handlers with
  | h :: _ => if t.trap.kind = 1#2 then restartSrc s l h.src else s
  | [] => s

theorem restartSrc_keeps (s : State) (l : Nat) (src : HSrc) : (restartSrc s l src).cores = s.cores ∧
    (restartSrc s l src).mem = s.mem ∧ ∀ j, ((restartSrc s l src).launch j).st = (s.launch j).st := by
  cases src with
  | walker =>
    simp only [restartSrc]
    split
    · refine ⟨rfl, rfl, fun j => ?_⟩
      by_cases h : j = l
      · rw [h, State.setLaunch_launch_self]
      · rw [State.setLaunch_launch_ne s h]
    · exact ⟨rfl, rfl, fun _ => rfl⟩
  | frame f =>
    simp only [restartSrc]
    split
    · split <;> exact ⟨rfl, rfl, fun _ => rfl⟩
    · exact ⟨rfl, rfl, fun _ => rfl⟩
  | req q =>
    simp only [restartSrc]
    split
    · split <;> exact ⟨rfl, rfl, fun _ => rfl⟩
    · exact ⟨rfl, rfl, fun _ => rfl⟩

theorem sourceRestarted_keeps (s : State) (l : Nat) (t : Thread) : (sourceRestarted s l t).cores = s.cores ∧
    (sourceRestarted s l t).mem = s.mem ∧ ∀ j, ((sourceRestarted s l t).launch j).st = (s.launch j).st := by
  unfold sourceRestarted
  split
  · split
    · exact restartSrc_keeps s l _
    · exact ⟨rfl, rfl, fun _ => rfl⟩
  · exact ⟨rfl, rfl, fun _ => rfl⟩

theorem sourceRestarted_of_kind {t : Thread} (h : t.trap.kind ≠ 1#2) (s : State) (l : Nat) : sourceRestarted s l t = s := by
  unfold sourceRestarted
  split
  · exact if_neg h
  · rfl

/-- The end of a strand keeps every launch's state. -/
theorem endStrand_st (s : State) (c l : Nat) : ((endStrand s c).launch l).st = (s.launch l).st := by
  have hjob (u : State) (t : Thread) : ((endJob u t).launch l).st = (u.launch l).st := by
    simp only [endJob]
    split
    · by_cases h : l = t.job.launch
      · rw [h, State.setLaunch_launch_self]
      · rw [State.setLaunch_launch_ne _ h]
    · split <;> rfl
  simp [endStrand, hjob]

/-- The end of a strand that is no handler is one fewer of its operation's. -/
theorem endStrand_op {s : State} {c : Nat} {o : Op} (hk : (s.th c).trap.kind ≠ 1#2) (ho : s.op (s.th c).job.op = some o) :
    (endStrand s c).op (s.th c).job.op = some { o with left := o.left - 1 } := by
  have hw (u : State) (t : Thread) : (withdrawArrival u t).work = u.work := by
    unfold withdrawArrival
    split <;> rfl
  have hs (src dst : Nat) : (sendStamp s src dst).work = s.work := sendStamp_keeps State.work (fun _ _ _ => rfl) s src dst
  have ho' : smFind (s.th c).job.op s.work.ops = some o := ho
  simp only [endStrand, endJob, sendStamp_at_th, hk, if_false, hw, hs, ho', State.op, State.setCore_work]
  exact smFind_smPut_self _ _ _

theorem settlePre_of_st {s : State} {l : Nat} (h : (s.launch l).st ≠ .preempting) : settlePre s l = s := by
  have hp : preempting s l = false := by simp [preempting, h]
  simp only [settlePre, allStopped, hp, Bool.false_and, Bool.false_eq_true, if_false]

/-- TASKEND of a strand with nothing left to do: it ends in the state that its handler's source goes on in. -/
theorem exec_taskend {s : State} (hq : quiet s = true) (hr : ringOk s = true) (hc : commandsDone s s.me = true)
    (hp : packetsOpen s s.me = false) :
    exec .taskend s = .next (finishStep
      (sourceRestarted (drainFifo s s.me) (s.th s.me).job.launch (s.th s.me)) s.me) := by
  simp only [quiet, Bool.and_eq_true, Option.isNone_iff_eq_none, Bool.not_eq_true'] at hq
  obtain ⟨hh, hbusy⟩ := hq
  change execTaskend s = _
  unfold execTaskend
  rw [ringPoint_run hr]
  simp only [taskWait, emptyQueues, hh, hbusy, hc, hp, Bool.false_eq_true, if_false, Bool.not_true, Bool.or_false]
  rfl

/-- What TASKEND leaves of the strand and its core. -/
theorem finishStep_result {s u : State} {c : Nat} (hcores : u.cores = (drainFifo s c).cores) (hmem : u.mem = s.mem)
    (hst : (u.launch (s.th c).job.launch).st ≠ .preempting) :
    finishStep u c = endStrand u c ∧ (finishStep u c).core c = (drainFifo s c |>.core c).vacate ∧ (finishStep u c).mem = s.mem := by
  have hcore : u.core c = (drainFifo s c).core c := by
    simp only [State.core, hcores]
  have hth : u.th c = s.th c := by
    unfold State.th
    rw [hcore]
    simp [drainFifo]
  have hfin : finishStep u c = endStrand u c := by
    unfold finishStep
    rw [hth]
    exact settlePre_of_st (by rw [endStrand_st]; exact hst)
  rw [hfin]
  exact ⟨rfl, by rw [endStrand_core_self, hcore], by rw [endStrand_mem, hmem]⟩

theorem taskend_result {s : State} (hq : quiet s = true) (hr : ringOk s = true) (hc : commandsDone s s.me = true)
    (hp : packetsOpen s s.me = false) (hst : (s.launch (s.th s.me).job.launch).st ≠ .preempting) :
    ∃ t, exec .taskend s = .next t ∧ (t.th s.me).job.run = .idle ∧ (t.core s.me).banks.auto = none ∧
      (t.core s.me).banks.fifo = [] ∧ (t.th s.me).regs = (s.th s.me).regs ∧ t.mem = s.mem ∧
      ((s.th s.me).trap.kind ≠ 1 → ∀ o, s.op (s.th s.me).job.op = some o →
        t.op (s.th s.me).job.op = some { o with left := o.left - 1 }) := by
  obtain ⟨hcores, hmem, hsts⟩ := sourceRestarted_keeps (drainFifo s s.me) (s.th s.me).job.launch (s.th s.me)
  have hst' : (((sourceRestarted (drainFifo s s.me) (s.th s.me).job.launch (s.th s.me))).launch
      (s.th s.me).job.launch).st ≠ .preempting := by rw [hsts]; exact hst
  obtain ⟨hfin, hcore, hm⟩ := finishStep_result hcores hmem hst'
  refine ⟨_, exec_taskend hq hr hc hp, ?_, ?_, ?_, ?_, hm, fun hk o ho => ?_⟩
  · rw [State.th, hcore]; rfl
  · rw [hcore]; rfl
  · rw [hcore, drainFifo, State.setCore_core_self]; rfl
  · rw [State.th, hcore, drainFifo, State.setCore_core_self]; rfl
  · have hth : (drainFifo s s.me).th s.me = s.th s.me := State.setCore_th_self s s.me _
    rw [hfin, sourceRestarted_of_kind hk]
    have h := endStrand_op (s := drainFifo s s.me) (c := s.me) (o := o) (by rw [hth]; exact hk) (by rw [hth]; exact ho)
    rwa [hth] at h

/-- Settles O37: the tests of a safe point in order, and the end of a strand that has nothing left to do. -/
theorem taskResult : Obligations.TaskResult := by
  refine ⟨fun n s h => ⟨fun ha => ?_, fun ha => ?_⟩, fun n s hm hq hr hb hl hrun hp hs hstop => ?_,
    fun s hq hr hc hp hst => taskend_result hq hr hc hp hst⟩
  · refine safeInstr_passes (fun hg => ?_) _ h
    exact ha.elim (fun hne => hne hg.1) fun ha => killed_of_alive ha hg.2
  · have he : exec .yield s = killPoint s s.me fun s => safeInstr s yieldMap := rfl
    rw [he]
    rw [killPoint_alive ha]
    exact safeInstr_passes (fun hg => killed_of_alive ha hg.2) _ h
  · change safeInstr s n.toNat = _
    rw [safeInstr_stops hm hq hr hb hl hrun hp hs]
    simp only [stopAt, hstop, Bool.not_false, if_true]

end Sys2Proof.Machine

/-! ## VDIE, HOPS, HOPS.MD, TQRY and the result codes (O32: R200, R263, R267, R268) -/

namespace Sys2Proof.Machine
open Sys2Proof Sys2Proof.Ob

/-! ### Dies and links -/

theorem hops_eq (p q : Nat) : hops p q = ((p % 4 : Int) - q % 4).natAbs + ((p / 4 : Int) - q / 4).natAbs := by
  simp only [hops]
  omega

theorem dieResult : Sys2Proof.Ob.dieResult := by
  refine ⟨fun f s hd => ?_, fun f s p hd hp => ⟨fun q hq => ?_, fun hq => ?_, fun hq => ?_, fun hq => ?_⟩⟩
  · change execVdie f s = _
    unfold execVdie
    rw [guardD_of_noD hd]
    change (match vdieOf (s.ctx (myCtx s)).vdmap (reg s f.ra).toNat with | none => _ | some p => _) = _
    cases vdieOf (s.ctx (myCtx s)).vdmap (reg s f.ra).toNat <;> rfl
  all_goals
    have hv : vdieReg s s.me ((s.th s.me).rdS f.ra).val = some p := hp
  · change execHops f s = _
    unfold execHops
    have hw : vdieReg s s.me ((s.th s.me).rdS f.rb).val = some q := hq
    rw [guardD_of_noD hd, ← hops_eq]
    simp only [hv, hw]
    rfl
  · change execHops f s = _
    unfold execHops
    have hw : vdieReg s s.me ((s.th s.me).rdS f.rb).val = none := hq
    rw [guardD_of_noD hd]
    simp only [hv, hw]
    rfl
  · change execHopsMd f s = _
    unfold execHopsMd
    rw [guardD_of_noD hd]
    have hq' : ((s.th s.me).rdS f.rb).val.toNat < 8 := hq
    simp only [hv, if_pos hq']
    rfl
  · change execHopsMd f s = _
    unfold execHopsMd
    rw [guardD_of_noD hd]
    have hq' : ¬ ((s.th s.me).rdS f.rb).val.toNat < 8 := Nat.not_lt.mpr hq
    simp only [hv, if_neg hq']
    rfl

theorem resultCodes : Sys2Proof.Ob.resultCodes := by
  unfold Sys2Proof.Ob.resultCodes codes
  decide

/-! ### TQRY -/

theorem lt_of_inWindow {a : Nat} (h : inWindow a = true) : a < 2 ^ 57 := by
  simp only [inWindow, Bool.and_eq_true, decide_eq_true_eq] at h
  omega

/-- TQRY answers its word where no line of the table is held for its agent. -/
theorem exec_tqry {f : R2} {s : State} (hd : noD s [f.ra] = true)
    (h : inWindow (reg s f.ra).toNat = true ∨ ∀ l, translateOn s (myCtx s) (s.me / 64) (reg s f.ra).toNat ≠ .held l) :
    exec (.tqry f) s = .next (wrote s f.rd (tqryWord s s.me (reg s f.ra)) false 2) := by
  change execTqry f s = _
  unfold execTqry
  rw [guardD_of_noD hd]
  change (match translateOn s (myCtx s) (s.me / 64) (reg s f.ra).toNat with | .held l => _ | _ => _) = _
  split
  next l hl => exact if_pos (h.resolve_right fun hn => hn l hl)
  · rfl

/-- The word that TQRY gives for a leaf, field by field. -/
def leafWordOf (l : Leaf) : Word :=
  1#1 ++ BitVec.ofNat 3 l.home ++ BitVec.ofBool l.hint ++ 0#51 ++ BitVec.ofNat 2 l.size ++ l.cls.code ++
    BitVec.ofBool l.x ++ BitVec.ofBool l.w ++ 0#2

theorem leafWordOf_fields (l : Leaf) : (leafWordOf l).getLsbD 63 = true ∧
    (leafWordOf l).extractLsb' 60 3 = BitVec.ofNat 3 l.home ∧ (leafWordOf l).getLsbD 59 = l.hint ∧
    (leafWordOf l).getLsbD 2 = l.w ∧ (leafWordOf l).getLsbD 3 = l.x ∧ (leafWordOf l).extractLsb' 4 2 = l.cls.code ∧
    (leafWordOf l).extractLsb' 6 2 = BitVec.ofNat 2 l.size ∧ (leafWordOf l).extractLsb' 8 51 = 0 ∧
    (leafWordOf l).extractLsb' 0 2 = 0 := by
  have low {w₁ w₂ : Nat} {x : BitVec w₁} {y : BitVec w₂} : (x ++ y).extractLsb' 0 w₂ = y :=
    BitVec.extractLsb'_append_eq_right
  have up {w₁ w₂ j k : Nat} {x : BitVec w₁} {y : BitVec w₂} {f : BitVec k} := @extractLsb'_append_above w₁ w₂ j k x y f
  refine ⟨?_, ?_, ?_, ?_, ?_, ?_, ?_, ?_, low⟩
  all_goals unfold leafWordOf
  · simp only [BitVec.getLsbD_append]; simp
  · exact up (up (up (up (up (up (up low))))))
  · simp only [BitVec.getLsbD_append]; simp
  · simp only [BitVec.getLsbD_append]; simp
  · simp only [BitVec.getLsbD_append]; simp
  · exact up (up (up low))
  · exact up (up (up (up low)))
  · exact up (up (up (up (up low))))

theorem translationQuery : Sys2Proof.Ob.translationQuery := by
  intro f s hd
  refine ⟨fun hw => ?_, fun hb hn => ?_, fun hw ht => ?_, fun l hw hb ht => ?_⟩
  · rw [exec_tqry hd (.inl hw), tqryWord, if_neg (Nat.not_le.mpr (lt_of_inWindow hw)), if_pos hw]
  · rw [exec_tqry hd (.inr hn), tqryWord, if_pos hb]
  · rw [exec_tqry hd (.inr fun l hl => ht.elim (fun h => nomatch h.symm.trans hl) fun h => nomatch h.symm.trans hl)]
    have hw' : ¬ inWindow (reg s f.ra).toNat = true := Bool.eq_false_iff.mp hw
    rcases ht with h | h
    · have h' : translateOn s (s.ctxOf s.me) (dieOfCore s.me) (reg s f.ra).toNat = .absent := h
      simp only [tqryWord, if_neg hw', h', ite_self]
    · have h' : translateOn s (s.ctxOf s.me) (dieOfCore s.me) (reg s f.ra).toNat = .ecc := h
      simp only [tqryWord, if_neg hw', h', ite_self]
  · have hn : ∀ l', translateOn s (myCtx s) (s.me / 64) (reg s f.ra).toNat ≠ .held l' := fun l' hl => nomatch ht.symm.trans hl
    have ht' : translateOn s (s.ctxOf s.me) (dieOfCore s.me) (reg s f.ra).toNat = .ok l := ht
    have hv : tqryWord s s.me (reg s f.ra) = leafWordOf l := by
      rw [tqryWord, if_neg (Nat.not_le.mpr hb), if_neg (by simp [hw]), ht']
      rfl
    exact ⟨_, exec_tqry hd (.inr hn), hv ▸ leafWordOf_fields l⟩

/-- Settles O32: the die map, the links, the codes, and the leaf that a translation finds. -/
theorem queryResult : Obligations.QueryResult := ⟨dieResult, resultCodes, translationQuery⟩

end Sys2Proof.Machine

/-! ## Fault records, verdicts, invalidations and the contexts' registers (O45: R226, R227, R281-R283) -/

namespace Sys2Proof.Machine
open Sys2Proof Sys2Proof.Ob

/-! ### A fault record is posted (R282) -/

theorem setDie_faults_of_eq (s : State) {d : Nat} {x : Die} (h : x.faults = (s.die d).faults) (j : Nat) :
    ((s.setDie d x).die j).faults = (s.die j).faults := by
  by_cases hj : j = d
  · rw [hj, State.setDie_die_self, h]
  · rw [State.setDie_die_ne s hj]

theorem sendStamp_faults (s : State) (src dst j : Nat) : ((sendStamp s src dst).die j).faults = (s.die j).faults := by
  simp only [sendStamp]
  split
  · rfl
  · exact (setDie_faults_of_eq _ (by rfl) j).trans (setDie_faults_of_eq s (by rfl) j)

/-- The vector, the write pointer and the record of a post leave the dies. -/
theorem posted_die (u : State) (m : Mem) (w : Work) (ctx c d : Nat) (r : CtxRegs) :
    (raiseVector (setRegs { u with mem := m, work := w } ctx r) c).die d = u.die d := rfl

theorem faultRecordPost_posts {s : State} {d log : Nat} {f : FaultRec} {fs : List FaultRec} (hf : (s.die d).faults = f :: fs)
    (hlog : hostQueueLog (s.ctx f.ctx).regs.fqbase = some log)
    (hroom : ((s.ctx f.ctx).regs.fqwr - (s.ctx f.ctx).regs.fqrd).toNat < 2 ^ log) :
    ∃ t, exec (.faultRecordPost d) s = .next t ∧
      t.mem = writeFault s.mem (hostQueueKey (s.ctx f.ctx).regs.fqbase log (s.ctx f.ctx).regs.fqwr.toNat) f (s.gtime d) ∧
      (t.die d).faults = fs ∧ t.work.fids = s.work.fids ++ [f] ∧
      (t.ctx f.ctx).regs.fqwr = (s.ctx f.ctx).regs.fqwr + 1 := by
  have he : exec (.faultRecordPost d) s = execFaultRecordPost d s := rfl
  rw [he]
  simp only [execFaultRecordPost, hf, hlog, if_neg (Nat.not_le.mpr hroom)]
  refine ⟨_, rfl, ?_, ?_, ?_, ?_⟩
  · simp only [raiseVector, logEv, setRegs, State.setCtx_mem]
  · rw [posted_die, sendStamp_faults, State.setDie_die_self]
  · simp only [raiseVector, logEv, setRegs, State.setCtx_work]
    rfl
  · simp only [raiseVector, logEv, setRegs]
    exact congrArg (fun x => x.regs.fqwr) (State.setCtx_ctx_self _ _ _)

/-! ### Armed monitors translate again (R227) -/

/-- The core's strand waits at a monitor armed in a page of context ctx that an INVAL covers. -/
def monitorCovered (ctx : Nat) (v : Word) (k : Core) : Bool :=
  match k.th.job.wait with
  | .mwait va _ _ _ _ .none => k.bind.ctx == some ctx && !inWindow va.toNat && invalCovers v (va.toNat / 4096)
  | _ => false

theorem monitorCovered_of_not {ctx : Nat} {v : Word} {k : Core}
    (h : ∀ va key ref u last, k.th.job.wait = .mwait va key ref u last .none → False) : monitorCovered ctx v k = false := by
  unfold monitorCovered
  split
  next hw => exact (h _ _ _ _ _ hw).elim
  · rfl

/-- Such a strand's monitor is armed no more. -/
def rearmedCore (ctx : Nat) (v : Word) (k : Core) : Core :=
  if monitorCovered ctx v k then { k with th := { k.th with job := { k.th.job with wait := .none } } } else k

/-- One core of a re-arming. -/
def rearmStep (ctx : Nat) (v : Word) (s : State) (c : Nat) : State :=
  if monitorCovered ctx v (s.core c) then setWait s c .none else s

theorem rearm_eq (s : State) (ctx : Nat) (v : Word) : rearm s ctx v = s.cores.foldl (fun s x => rearmStep ctx v s x.1) s := by
  unfold rearm
  refine congrArg (fun f => List.foldl f s s.cores) (funext fun s => funext fun x => ?_)
  dsimp only
  unfold rearmStep
  split
  next h =>
    unfold monitorCovered
    simp only [h]
  next h => rw [monitorCovered_of_not h, if_neg Bool.false_ne_true]

theorem rearmStep_core_self (ctx : Nat) (v : Word) (s : State) (c : Nat) :
    (rearmStep ctx v s c).core c = rearmedCore ctx v (s.core c) := by
  unfold rearmStep rearmedCore
  split
  · exact State.setTh_core_self s c _
  · rfl

theorem rearmStep_core_ne (ctx : Nat) (v : Word) (s : State) {c j : Nat} (h : j ≠ c) :
    (rearmStep ctx v s c).core j = s.core j := by
  unfold rearmStep
  split
  · exact State.setTh_core_ne s h _
  · rfl

theorem rearmedCore_idem (ctx : Nat) (v : Word) (k : Core) :
    rearmedCore ctx v (rearmedCore ctx v k) = rearmedCore ctx v k := by
  by_cases h : monitorCovered ctx v k = true
  · have hr : rearmedCore ctx v k = { k with th := { k.th with job := { k.th.job with wait := .none } } } := if_pos h
    rw [hr]
    exact if_neg Bool.false_ne_true
  · have hr : rearmedCore ctx v k = k := if_neg h
    rw [hr, hr]

/-- A re-arming of a list of cores re-arms each of them. -/
theorem rearmAll_core (ctx : Nat) (v : Word) (c : Nat) (xs : List (Nat × Core)) (s : State) :
    (xs.foldl (fun s x => rearmStep ctx v s x.1) s).core c =
      if c ∈ xs.map Prod.fst then rearmedCore ctx v (s.core c) else s.core c := by
  induction xs generalizing s with
  | nil => rfl
  | cons x xs ih =>
    simp only [List.foldl_cons, ih, List.map_cons, List.mem_cons]
    by_cases hx : c = x.1
    · subst hx
      simp only [rearmStep_core_self, rearmedCore_idem, ite_self, true_or, if_true]
    · rw [rearmStep_core_ne ctx v s hx]
      simp only [hx, false_or]

theorem smGet_of_not_mem {α : Type} (d : α) (k : Nat) (m : SMap α) (h : k ∉ m.map Prod.fst) : smGet d k m = d := by
  induction m with
  | nil => rfl
  | cons p m ih =>
    rw [List.map_cons, List.mem_cons, not_or] at h
    simp only [smGet, if_neg (Ne.symm h.1)]
    exact ih h.2

theorem rearm_core (s : State) (ctx : Nat) (v : Word) (c : Nat) : (rearm s ctx v).core c = rearmedCore ctx v (s.core c) := by
  rw [rearm_eq, rearmAll_core]
  split
  · rfl
  next h =>
    have hd : s.core c = {} := by
      unfold State.core
      exact smGet_of_not_mem {} c s.cores h
    rw [hd]
    rfl

theorem rearm_keeps {γ : Type} (g : State → γ) (hcore : ∀ s c k, g (State.setCore s c k) = g s) (s : State) (ctx : Nat) (v : Word) :
    g (rearm s ctx v) = g s := by
  rw [rearm_eq]
  refine foldl_keeps g (fun s x => ?_) s.cores s
  unfold rearmStep
  split
  · exact hcore s x.1 _
  · rfl

/-- The wait of a strand whose armed monitor an INVAL may cover. -/
theorem rearmedCore_wait {ctx : Nat} {k : Core} {va : Word} {key : Nat} {ref last : Word} {u : Bool} (v : Word)
    (hw : k.th.job.wait = .mwait va key ref u last .none) (hc : k.bind.ctx = some ctx) :
    (rearmedCore ctx v k).th.job.wait = (if inWindow va.toNat = false ∧ invalCovers v (va.toNat / 4096) = true then .none
      else .mwait va key ref u last .none) := by
  have hm : monitorCovered ctx v k = (!inWindow va.toNat && invalCovers v (va.toNat / 4096)) := by
    simp [monitorCovered, hw, hc]
  unfold rearmedCore
  rw [hm]
  by_cases h : inWindow va.toNat = false ∧ invalCovers v (va.toNat / 4096) = true
  · rw [if_pos h, if_pos (by simp [h.1, h.2])]
  · rw [if_neg h, if_neg (by simpa using h), hw]

theorem rearmedCore_th (ctx : Nat) (v : Word) (k : Core) :
    (rearmedCore ctx v k).th.regs = k.th.regs ∧ (rearmedCore ctx v k).th.pos = k.th.pos := by
  unfold rearmedCore
  split <;> exact ⟨rfl, rfl⟩

/-! ### An invalidation is acknowledged -/

/-- An INVAL that no open request holds up is acknowledged (R227). -/
theorem invalidationAck_done {s : State} {ctx : Nat} {v : Word} {vs : List Word} (hv : (s.ctx ctx).invals = v :: vs)
    (ho : (openAsks s ctx).any (fun va => invalCovers v (va.toNat / 4096)) = false) :
    ∃ t, exec (.invalidationAck ctx) s = .next t ∧ (t.ctx ctx).invals = vs ∧
      (t.ctx ctx).regs.invdone = (s.ctx ctx).regs.invdone + 1 ∧ t.mem = s.mem ∧
      (∀ e ∈ t.tlb, e ∈ s.tlb ∧ (e.ctx = ctx → invalCovers v e.page = false)) ∧
      (∀ e ∈ s.tlb, e.ctx ≠ ctx → e ∈ t.tlb) ∧
      ∀ c, (t.th c).regs = (s.th c).regs ∧ (t.th c).pos = (s.th c).pos ∧
        ∀ va key ref u last, (s.th c).job.wait = .mwait va key ref u last .none → (s.core c).bind.ctx = some ctx →
          (t.th c).job.wait = (if inWindow va.toNat = false ∧ invalCovers v (va.toNat / 4096) = true then .none
            else .mwait va key ref u last .none) := by
  have he : exec (.invalidationAck ctx) s = execInvalidationAck ctx s := rfl
  rw [he]
  simp only [execInvalidationAck, hv, ho, Bool.false_eq_true, if_false]
  refine ⟨_, rfl, ?_, ?_, ?_, ?_, ?_, fun c => ?_⟩
  · rw [rearm_keeps (fun s => (s.ctx ctx).invals) (fun _ _ _ => rfl)]
    exact congrArg Context.invals (State.setCtx_ctx_self s ctx _)
  · rw [rearm_keeps (fun s => (s.ctx ctx).regs.invdone) (fun _ _ _ => rfl)]
    exact congrArg (fun x => x.regs.invdone) (State.setCtx_ctx_self s ctx _)
  · rw [rearm_mem]
    rfl
  · rw [rearm_keeps State.tlb (fun _ _ _ => rfl)]
    intro e he
    obtain ⟨he, hn⟩ := List.mem_filter.mp he
    refine ⟨he, fun hc => ?_⟩
    simpa [hc] using hn
  · rw [rearm_keeps State.tlb (fun _ _ _ => rfl)]
    exact fun e he hne => List.mem_filter.mpr ⟨he, by simp [hne]⟩
  · unfold State.th
    rw [rearm_core]
    obtain ⟨hr, hp⟩ := rearmedCore_th ctx v (s.core c)
    exact ⟨hr, hp, fun va key ref u last hw hc => rearmedCore_wait v hw hc⟩

/-! ### Verdicts and the registers of a context -/

theorem pageActs_write {s : State} {port : Port} {ctx : Nat} (hh : hostPort s port = true) (hp : pageActs s ctx = true)
    (f : Context → Context) : pageWrite s port ctx f = .next (s.setCtx ctx (f (s.ctx ctx))) := by
  unfold pageWrite
  rw [if_pos ⟨hh, hp⟩]

theorem verdict_open {s : State} {port : Port} {ctx : Nat} {fid : BitVec 32} {x : FaultRec}
    (ha : verdictActs s port ctx = true)
    (hx : s.work.fids.find? (fun y => y.ctx == ctx && BitVec.ofNat 32 y.fid == fid) = some x) (retry : Bool) :
    verdict port ctx fid retry s = .next (settleAgent
      { s with work := { s.work with fids := s.work.fids.filter (fun y => y.fid != x.fid) } } x
      (if retry then none else some x.va)) := by
  simp only [verdict, ha, Bool.not_true, Bool.false_eq_true, if_false, hx]

theorem verdict_unknown {s : State} {port : Port} {ctx : Nat} {fid : BitVec 32} (ha : verdictActs s port ctx = true)
    (hx : s.work.fids.find? (fun y => y.ctx == ctx && BitVec.ofNat 32 y.fid == fid) = none) (retry : Bool) :
    verdict port ctx fid retry s = .next (refusedVerdict s port) := by
  simp only [verdict, ha, Bool.not_true, Bool.false_eq_true, if_false, hx]

/-- Settles O45: the record posted, the agent settled, the translations dropped, and the registers written. -/
theorem faultEvents : Obligations.FaultEvents := by
  refine ⟨fun s d log f fs hf hlog hroom => faultRecordPost_posts hf hlog hroom,
    fun s port ctx fid x ha hx => ⟨verdict_open ha hx true, verdict_open ha hx false⟩,
    fun s ctx fid ha hx => ⟨_, verdict_unknown ha hx true, rfl, rfl⟩, fun s ctx val hp => ?_,
    fun s ctx v vs hv => ⟨fun ho => ?_, fun ho => invalidationAck_done hv ho⟩, fun s ctx h hp => ?_,
    fun s port ctx val hh hp => ⟨?_, ?_, fun ho => ?_⟩⟩
  · change execInval ctx val s = _
    simp only [execInval, hp, if_true]
  · change execInvalidationAck ctx s = _
    simp only [execInvalidationAck, hv, ho, if_true]
  · change execTrh ctx h s = _
    simp only [execTrh, hp, if_true]
  · exact pageActs_write hh hp fun x => { x with regs := { x.regs with crbase := val } }
  · exact pageActs_write hh hp fun x => { x with regs := { x.regs with fqrd := val } }
  · refine ⟨{ s with mgmt := { s.mgmt with timerec := val &&& ~~~7#64 } }, ?_, rfl, rfl⟩
    change exclWrite s port _ = _
    simp only [exclWrite, hh, ho, Bool.not_true, Bool.false_eq_true, if_false, if_true]
    rfl

end Sys2Proof.Machine

/-! ## The management semaphore, contexts and assignments (O47: R31, R264, R279, R280) -/

namespace Sys2Proof.Machine
open Sys2Proof Sys2Proof.Ob

/-! ### Commands of the port that holds the semaphore, and of one that does not (R279) -/

section exclusive
variable {s : State} {port : Port}

theorem exclWrite_owner (hh : hostPort s port = true) (ho : s.mgmt.owner = some port) (k : Out) : exclWrite s port k = k := by
  simp only [exclWrite, hh, ho, Bool.not_true, Bool.false_eq_true, if_false, if_true]

theorem exclWrite_noSem (hh : hostPort s port = true) (ho : s.mgmt.owner ≠ some port) (k : Out) :
    exclWrite s port k = .next { s with mgmt := { s.mgmt with last := 1 } } := by
  simp only [exclWrite, hh, ho, Bool.not_true, Bool.false_eq_true, if_false]
  rfl

theorem managementSemaphore (hh : hostPort s port = true) :
    (s.mgmt.owner = none → ∃ t, exec (.mgmtSemAcquire port) s = .next t ∧ t.mgmt.owner = some port ∧ t.mgmt.last = 0) ∧
    (∀ p, s.mgmt.owner = some p → exec (.mgmtSemAcquire port) s = .next s) ∧
    (s.mgmt.owner = some port → ∃ t, exec (.mgmtSemRelease port) s = .next t ∧ t.mgmt.owner = none) ∧
    (s.mgmt.owner ≠ some port → exec (.mgmtSemRelease port) s = .next s) := by
  have hacq : exec (.mgmtSemAcquire port) s = execMgmtSemAcquire port s := rfl
  have hrel : exec (.mgmtSemRelease port) s = execMgmtSemRelease port s := rfl
  rw [hacq, hrel]
  simp only [execMgmtSemAcquire, execMgmtSemRelease, hh, true_and, if_true, releaseSem]
  refine ⟨fun ho => ?_, fun p ho => ?_, fun ho => ?_, fun ho => ?_⟩
  · rw [if_pos ho]
    exact ⟨_, rfl, rfl, rfl⟩
  · rw [if_neg (by simp [ho])]
  · rw [if_pos ho]
    exact ⟨_, rfl, rfl⟩
  · rw [if_neg ho]

/-! ### Contexts (R280) -/

/-- Asking for a list of scopes to be cancelled leaves the contexts and memory. -/
theorem askCancels_keep {γ : Type} (g : State → γ) (hdie : ∀ s d x, g (State.setDie s d x) = g s)
    (hhg : ∀ (s : State) h, g { s with hg := h } = g s) (ctx : Nat) (xs : List (Nat × Scope)) (s : State) :
    g (xs.foldl (fun s y => askCancel s (hostDie s ctx) y.1 .machine ctx none) s) = g s :=
  foldl_keeps g (fun s _ => (hhg _ _).trans (sendStamp_keeps g hdie s _ _)) xs s

variable (hh : hostPort s port = true) (ho : s.mgmt.owner = some port) {ctx : Nat} {vdmap : BitVec 32}
include hh ho

theorem ctxcmdCreate_done {home : Port} (hc : ctx < 64) (hl : (s.ctx ctx).live = false)
    (hv : vdmapOk s.harvest vdmap = true) (hp : home = .a ∨ home = .b) :
    exec (.ctxcmdCreate port ctx home vdmap) s = .next (s.setCtx ctx { live := true, home := home, vdmap := vdmap }) := by
  refine (exclWrite_owner hh ho _).trans (if_neg ?_)
  rw [hl, hv]
  rintro (h | h | h | ⟨ha, hb⟩)
  · omega
  · cases h
  · cases h
  · exact hp.elim ha hb

theorem ctxcmdDestroy_begins (hl : (s.ctx ctx).live = true) (hd : (s.ctx ctx).dying = false) :
    ∃ t, exec (.ctxcmdDestroy port ctx) s = .next t ∧ (t.ctx ctx).dying = true ∧ (t.ctx ctx).live = true ∧ t.mem = s.mem := by
  have he : exec (.ctxcmdDestroy port ctx) s = exclWrite s port _ := rfl
  rw [he, exclWrite_owner hh ho]
  simp only [hl, hd, Bool.not_true, Bool.false_eq_true, if_false]
  refine ⟨_, rfl, ?_, ?_, ?_⟩
  · rw [askCancels_keep (fun s => (s.ctx ctx).dying) (fun _ _ _ => rfl) (fun _ _ => rfl), State.setCtx_ctx_self]
  · rw [askCancels_keep (fun s => (s.ctx ctx).live) (fun _ _ _ => rfl) (fun _ _ => rfl), State.setCtx_ctx_self]
  · exact askCancels_keep State.mem (fun _ _ _ => rfl) (fun _ _ => rfl) _ _ _

theorem ctxcmdSetVdmap_done (hl : (s.ctx ctx).live = true) (hv : vdmapOk s.harvest vdmap = true) (hu : ctxInUse s ctx = false)
    (hs : (ctxScopes s ctx).all (fun y => (selfDie vdmap y.2.home).isSome) = true) :
    exec (.ctxcmdSetVdmap port ctx vdmap) s = .next (s.setCtx ctx { s.ctx ctx with vdmap := vdmap }) := by
  refine (exclWrite_owner hh ho _).trans ((if_neg ?_).trans (if_neg ?_))
  · rw [hl, hv]
    simp
  · simp only [hu, Bool.false_eq_true, false_or, List.any_eq_true, not_exists, not_and]
    intro y hy hn
    have := List.all_eq_true.mp hs y hy
    rw [Option.isNone_iff_eq_none.mp hn] at this
    cases this

/-! ### Assignments (R264) -/

variable {die unit : Nat} (hd : die < 8) (hc : ctx < 64)
include hd hc

theorem assignBarrier_done (hu : unit < 256) (hn : (s.bar (die * 256 + unit)).ctx = none) :
    exec (.assignBarrier port die unit ctx) s = .next (s.setBar (die * 256 + unit) { ctx := some ctx }) := by
  refine (exclWrite_owner hh ho _).trans ((if_neg ?_).trans (if_neg ?_))
  · rw [hn]
    simp only [Option.isSome_none, Bool.false_eq_true, false_and, or_false]
    omega
  · simp [hn]

theorem assignTokenChannel_done (hu : unit < 64) (hn : (s.chan (die * 64 + unit)).ctx = none) :
    exec (.assignTokenChannel port die unit ctx) s = .next (s.setChan (die * 64 + unit) { ctx := some ctx }) := by
  refine (exclWrite_owner hh ho _).trans ((if_neg ?_).trans (if_neg ?_))
  · rw [hn]
    simp only [Option.isSome_none, Bool.false_eq_true, false_and, or_false]
    omega
  · simp [hn]

theorem assignRelease_done (hu : unit < 256) (hb : (s.bar (die * 256 + unit)).ctx = some ctx) :
    ∃ t, exec (.assignRelease port die unit ctx) s = .next t ∧ t.bar (die * 256 + unit) = {} := by
  have he : exec (.assignRelease port die unit ctx) s = exclWrite s port _ := rfl
  rw [he, exclWrite_owner hh ho]
  have hn : ¬ (8 ≤ die ∨ 256 ≤ unit ∨ 64 ≤ ctx) := by omega
  simp only [hb, ne_eq, not_true_eq_false, false_and, or_false, hn, if_false, if_true]
  have hbar (p : Prop) [Decidable p] : (if p then (s.setBar (die * 256 + unit) {}).setChan (die * 64 + unit) {}
      else s.setBar (die * 256 + unit) {}).bar (die * 256 + unit) = {} := by
    split <;> exact State.setBar_bar_self s _ _
  exact ⟨_, rfl, hbar _⟩

end exclusive

/-! ### The end of a context's destruction (R31, R280) -/

/-- A core bound to a context that is gone is bound to none. -/
def forgottenCore (ctx : Nat) (x : Core) : Core :=
  { x with bind := { x.bind with ctx := if x.bind.ctx = some ctx then none else x.bind.ctx } }

theorem forgetCtx_core (s : State) (ctx c : Nat) : (forgetCtx s ctx).core c = forgottenCore ctx (s.core c) :=
  smGet_map (d := ({} : Core)) (g := forgottenCore ctx) rfl c s.cores

theorem forgottenCore_ctx (ctx : Nat) (x : Core) : (forgottenCore ctx x).bind.ctx ≠ some ctx := by
  unfold forgottenCore
  dsimp only
  split
  · exact nofun
  · assumption

/-- What is left of a context's translations and bindings when it is freed. -/
theorem freeCtx_frees (s : State) (ctx : Nat) : (∀ e ∈ (freeCtx s ctx).tlb, e.ctx ≠ ctx) ∧
    ∀ c, ((freeCtx s ctx).core c).bind.ctx ≠ some ctx := by
  unfold freeCtx
  refine ⟨fun e he => by simpa using (List.mem_filter.mp he).2, fun c => ?_⟩
  exact forgetCtx_core _ ctx c ▸ forgottenCore_ctx ctx _

/-- Settles O47: the semaphore's tests, then each command's own, and what the end of a destruction frees. -/
theorem managementEvents : Obligations.ManagementEvents := by
  refine ⟨fun s port hh => managementSemaphore hh,
    fun s port ctx vdmap hh ho => ⟨exclWrite_noSem hh ho _, exclWrite_noSem hh ho _, exclWrite_noSem hh ho _⟩,
    fun s port home ctx vdmap hh ho => ⟨fun hc hl hv hp => ctxcmdCreate_done hh ho hc hl hv hp,
      fun hl hd => ctxcmdDestroy_begins hh ho hl hd, fun hl hv hu hs => ctxcmdSetVdmap_done hh ho hl hv hu hs⟩,
    fun s port die unit ctx hh ho hd hc => ⟨fun hu hn => assignBarrier_done hh ho hd hc hu hn,
      fun hu hn => assignTokenChannel_done hh ho hd hc hu hn, fun hu hb => assignRelease_done hh ho hd hc hu hb⟩,
    fun s ctx hl hd hdone => ?_⟩
  obtain ⟨htlb, hcore⟩ := freeCtx_frees s ctx
  refine ⟨(freeCtx s ctx).setCtx ctx {}, ?_, State.setCtx_ctx_self _ ctx _, htlb, hcore⟩
  change execContextDestroyDone ctx s = _
  simp only [execContextDestroyDone, hl, hd, hdone, and_self, if_true]

end Sys2Proof.Machine

/-! ## Firmware, package reset, start-up and attestation (O48: R300-R303) -/

namespace Sys2Proof.Machine
open Sys2Proof Sys2Proof.Ob

/-! ### FWCMD (R301, R302) -/

section firmware
variable {s : State} {port : Port} (hh : hostPort s port = true) (ho : s.mgmt.owner = some port)
include hh ho

theorem fwcmdStage_result (img : FwImage) : ∃ t, exec (.fwcmdStage port img) s = .next t ∧
    (img.sigOk = false → t.mgmt.fwres = 2 ∧ t.mgmt.slots = s.mgmt.slots) ∧
    (img.sigOk = true → img.version.toNat < s.mgmt.rollback.toNat → t.mgmt.fwres = 3 ∧ t.mgmt.slots = s.mgmt.slots) ∧
    (img.sigOk = true → s.mgmt.rollback.toNat ≤ img.version.toNat → t.mgmt.fwres = 1 ∧ t.mgmt.staged = true) := by
  have he : exec (.fwcmdStage port img) s = exclWrite s port _ := rfl
  rw [he, exclWrite_owner hh ho]
  dsimp only
  cases hs : img.sigOk with
  | false =>
    have hv : verifyImage s.mgmt img = 2 := by simp [verifyImage, hs]
    rw [hv]
    exact ⟨_, rfl, fun _ => ⟨rfl, rfl⟩, nofun, nofun⟩
  | true =>
    by_cases hr : img.version.toNat < s.mgmt.rollback.toNat
    · have hv : verifyImage s.mgmt img = 3 := by simp [verifyImage, hs, hr]
      rw [hv]
      exact ⟨_, rfl, nofun, fun _ _ => ⟨rfl, rfl⟩, fun _ h => absurd hr (Nat.not_lt.mpr h)⟩
    · have hv : verifyImage s.mgmt img = 1 := by simp [verifyImage, hs, hr]
      rw [hv]
      exact ⟨_, rfl, nofun, fun _ h => absurd h hr, fun _ _ => ⟨rfl, rfl⟩⟩

variable (hst : s.mgmt.st ≠ .recovery)
include hst

theorem fwcmd_acts (k : Out) : exclWrite s port (fwActs s k) = k := by
  rw [exclWrite_owner hh ho, fwActs, if_neg hst]

theorem fwcmdActivate_result : ∃ t, exec (.fwcmdActivate port) s = .next t ∧
    t.mgmt.fwres = (if s.mgmt.staged then 1 else 5) ∧ (s.mgmt.staged = true → t.mgmt.active = 1 - s.mgmt.slot) := by
  have he : exec (.fwcmdActivate port) s = exclWrite s port (fwActs s _) := rfl
  rw [he, fwcmd_acts hh ho hst]
  cases s.mgmt.staged with
  | true => exact ⟨_, rfl, rfl, fun _ => rfl⟩
  | false => exact ⟨_, rfl, rfl, nofun⟩

/-- Maintenance mode changes where no context lives and the package is ready or in maintenance. -/
theorem fwcmdMaint_done (hc : ctxstat s = 0) (hr : s.mgmt.st = .ready ∨ s.mgmt.st = .maint) :
    (∃ t, exec (.fwcmdEnterMaint port) s = .next t ∧ t.mgmt.st = .maint ∧ t.mgmt.fwres = 1) ∧
    ∃ t, exec (.fwcmdLeaveMaint port) s = .next t ∧ t.mgmt.st = .ready ∧ t.mgmt.fwres = 1 := by
  have he : exec (.fwcmdEnterMaint port) s = exclWrite s port (fwActs s _) := rfl
  have hl : exec (.fwcmdLeaveMaint port) s = exclWrite s port (fwActs s _) := rfl
  rw [he, hl, fwcmd_acts hh ho hst, fwcmd_acts hh ho hst]
  rw [if_neg (not_not.mpr hc), if_neg (not_not.mpr hc), if_pos hr, if_pos hr]
  exact ⟨⟨_, rfl, rfl, rfl⟩, ⟨_, rfl, rfl, rfl⟩⟩

theorem fwcmdMaint_refused (hc : ctxstat s ≠ 0) :
    (∃ t, exec (.fwcmdEnterMaint port) s = .next t ∧ t.mgmt.st = s.mgmt.st ∧ t.mgmt.fwres = 4) ∧
    ∃ t, exec (.fwcmdLeaveMaint port) s = .next t ∧ t.mgmt.st = s.mgmt.st ∧ t.mgmt.fwres = 4 := by
  have he : exec (.fwcmdEnterMaint port) s = exclWrite s port (fwActs s _) := rfl
  have hl : exec (.fwcmdLeaveMaint port) s = exclWrite s port (fwActs s _) := rfl
  rw [he, hl, fwcmd_acts hh ho hst, fwcmd_acts hh ho hst, if_pos hc, if_pos hc]
  exact ⟨⟨_, rfl, rfl, rfl⟩, ⟨_, rfl, rfl, rfl⟩⟩

end firmware

/-! ### Package reset (R300) -/

/-- Package reset keeps the bytes of the host's memory; every other byte reads 0. -/
theorem hostBytes_readByte (m : Mem) (k : Nat) :
    (2 ^ 56 ≤ k → k < 2 ^ 57 → ({ bytes := hostBytes m } : Mem).readByte k = m.readByte k) ∧
    (k < 2 ^ 56 ∨ 2 ^ 57 ≤ k → ({ bytes := hostBytes m } : Mem).readByte k = 0) := by
  have hk : ({ bytes := hostBytes m } : Mem).readByte k =
      if decide (2 ^ 56 ≤ k) && decide (k < 2 ^ 57) then m.readByte k else memDefault :=
    smGet_filter memDefault (fun k => decide (2 ^ 56 ≤ k) && decide (k < 2 ^ 57)) k m.bytes
  rw [hk]
  refine ⟨fun h1 h2 => if_pos (Bool.and_eq_true_iff.mpr ⟨decide_eq_true h1, decide_eq_true h2⟩), fun h => if_neg ?_⟩
  simp only [Bool.and_eq_true, decide_eq_true_eq]
  omega

/-- The management page that boot begins with: the flash as it was, in BOOT, or in RECOVERY where no image runs. -/
theorem bootMgmt_keeps (m : Mgmt) : (bootMgmt m).slots = m.slots ∧ (bootMgmt m).rollback = m.rollback ∧
    ((bootMgmt m).st = .boot ∨ (bootMgmt m).st = .recovery) := by
  simp only [bootMgmt]
  split
  · exact ⟨rfl, rfl, .inr rfl⟩
  · exact ⟨rfl, rfl, .inl rfl⟩

theorem packageReset_result (s : State) : ∃ t, exec .packageReset s = .next t ∧ t.cores = [] ∧ t.arrays = [] ∧ t.ctxs = [] ∧
    t.hg = {} ∧ t.mgmt.slots = s.mgmt.slots ∧ t.mgmt.rollback = s.mgmt.rollback ∧ (t.mgmt.st = .boot ∨ t.mgmt.st = .recovery) ∧
    (∀ k, (2 ^ 56 ≤ k → k < 2 ^ 57 → t.mem.readByte k = s.mem.readByte k) ∧
      (k < 2 ^ 56 ∨ 2 ^ 57 ≤ k → t.mem.readByte k = 0)) := by
  obtain ⟨hslots, hroll, hst⟩ := bootMgmt_keeps s.mgmt
  exact ⟨_, rfl, rfl, rfl, rfl, rfl, hslots, hroll, hst, hostBytes_readByte s.mem⟩

/-! ### Start-up and attestation (R300, R303) -/

theorem setMaint_mgmt (s : State) (on : Bool) (st : DevSt) : (setMaint s on st).mgmt = { s.mgmt with st := st } := rfl

theorem startUpReady_result {s : State} (hst : s.mgmt.st = .boot) (hl : allLocked s = true) (ha : s.portUp .a = true)
    (hb : s.portUp .b = true) : ∃ t, exec .startUpReady s = .next t ∧ t.mgmt.st = .ready ∧ t.mem = s.mem ∧
      (s.mgmt.firstBoot = true → s.mgmt.rollback.toNat < s.mgmt.fwver.toNat → t.mgmt.rollback = s.mgmt.fwver) ∧
      (s.mgmt.firstBoot = false → t.mgmt.rollback = s.mgmt.rollback) := by
  have he : exec .startUpReady s = execStartUpReady s := rfl
  rw [he]
  simp only [execStartUpReady, hst, hl, ha, hb, Bool.not_true, Bool.false_eq_true, or_self, if_false, ne_eq, not_true_eq_false]
  refine ⟨_, rfl, ?_⟩
  rw [setMaint_mgmt, setMaint_mem]
  refine ⟨rfl, rfl, fun hf hv => if_pos ⟨hf, hv⟩, fun hf => if_neg fun h => ?_⟩
  exact Bool.false_ne_true (hf.symm.trans h.1)

theorem doeAnswer_done {s : State} {port : Port} (hh : hostPort s port = true) (a : Spdm) : doeAnswer s port a =
    .next { s with mgmt := { s.mgmt with doe := s.mgmt.doe.setIfInBounds (portIdx port).val a } } := by
  unfold doeAnswer
  rw [if_pos hh]
  rfl

/-- Settles O48: FWCMD's answers, what package reset keeps, the end of start-up, and the DOE mailbox. -/
theorem firmwareEvents : Obligations.FirmwareEvents := by
  refine ⟨fun s port img hh ho => fwcmdStage_result hh ho img,
    fun s port hh ho hst => ⟨fwcmdActivate_result hh ho hst, fun hc hr => fwcmdMaint_done hh ho hst hc hr,
      fun hc => fwcmdMaint_refused hh ho hst hc⟩,
    packageReset_result, fun s hst hl ha hb => startUpReady_result hst hl ha hb, fun s port nonce hh => ?_⟩
  exact ⟨doeAnswer_done hh _, doeAnswer_done hh _, doeAnswer_done hh _, doeAnswer_done hh _, doeAnswer_done hh _,
    doeAnswer_done hh _, doeAnswer_done hh _, doeAnswer_done hh _⟩

end Sys2Proof.Machine

/-! ## The state right after package reset (O54: R52, R69, R279, R300) -/

namespace Sys2Proof.Machine
open Sys2Proof Sys2Proof.Ob

/-- The dies of the reset state hold no time yet (R69). -/
theorem reset_time : ∀ d < 18, ((State.reset).die d).time.gtime = 0 ∧ ((State.reset).die d).time.st = .free ∧
    ((State.reset).die d).time.err = 0xFFFF := by
  decide

/-- Settles O54: what is not listed is at its default; the dies are the listed ones. -/
theorem resetState : Obligations.ResetState := by
  refine ⟨⟨rfl, rfl⟩, rfl, rfl, rfl, rfl, rfl, fun c => ⟨rfl, rfl⟩, reset_time, fun x => rfl, fun n => rfl, fun b => rfl,
    fun k => rfl⟩

end Sys2Proof.Machine

/-! ## Vector results of VA (O18: R88, R133, R135, R334) -/

namespace Sys2Proof.Machine
open Sys2Proof Sys2Proof.Ob

/-! ### Vector results -/

theorem exec_vaRows {p : (V3 → Instr) × (ElMode → QEntry → Srcs → VAcc) × (QEntry → Srcs → Bool)} (hp : p ∈ vaRows)
    (f : V3) (s : State) : ∃ spec x, vspec (p.1 f) = some (spec, f) ∧
      exec (p.1 f) s = vexec (p.1 f) spec f x (performVA p.2.1 p.2.2) s := by
  fin_cases hp <;> exact ⟨_, _, rfl, rfl⟩

theorem exec_vnRows {p : (V3 → Instr) × (Nat → ElMode → QEntry → Srcs → VAcc)} (hp : p ∈ vnRows)
    (f : V3) (s : State) : ∃ spec x, vspec (p.1 f) = some (spec, f) ∧
      exec (p.1 f) s = vexec (p.1 f) spec f x (performVA (p.2 f.c.toNat) dB) s := by
  fin_cases hp <;> exact ⟨_, _, rfl, rfl⟩

/-- A head of VA with a vector result completes with it, or waits for the assist where an element is tiny. -/
theorem performVA_outcome {s : State} {c : Nat} {e : QEntry} (hme : s.me = c) (val : ElMode → QEntry → Srcs → VAcc)
    (d : QEntry → Srcs → Bool) :
    ((val e.mode e (srcsOf s c e)).tiny = none → headOutcome s c .va e (performVA val d e s) =
      completeHead (finishVA s c e (val e.mode e (srcsOf s c e)).val (d e (srcsOf s c e)) (val e.mode e (srcsOf s c e)).flags)
        c .va e) ∧
    ∀ low, (val e.mode e (srcsOf s c e)).tiny = some low → headOutcome s c .va e (performVA val d e s) =
      subnHead s c .va e low (srcsOf s c e) := by
  subst hme
  refine ⟨fun h => ?_, fun low h => ?_⟩ <;> simp only [performVA, h] <;> rfl

/-- Settles O18: each row is performed by `performVA`, whose outcome its queue takes. -/
theorem vectorResult : Obligations.VectorResult := by
  refine ⟨fun p hp f s c e hb hs => ?_, fun p hp f s c e _ hb hs => ?_⟩
  · obtain ⟨spec, x, hspec, hexec⟩ := exec_vaRows hp f s
    rw [hexec, vexec_of_begins hspec hb hs]
    obtain ⟨hdone, hsubn⟩ := performVA_outcome (me_of_queue (agent_of_begins hb)) (e := e) p.2.1 p.2.2
    exact ⟨fun h => congrArg _ (hdone h), fun low h => congrArg _ (hsubn low h)⟩
  · obtain ⟨spec, x, hspec, hexec⟩ := exec_vnRows hp f s
    rw [hexec, vexec_of_begins hspec hb hs]
    obtain ⟨hdone, hsubn⟩ := performVA_outcome (me_of_queue (agent_of_begins hb)) (e := e) (p.2 f.c.toNat) dB
    exact ⟨fun h => congrArg _ (hdone h), fun low h => congrArg _ (hsubn low h)⟩

end Sys2Proof.Machine

/-! ## Predicates and scalars of VA (O20: R88, R110, R328-R330, R338, R341) -/

namespace Sys2Proof.Machine
open Sys2Proof Sys2Proof.Ob

/-- What a head of VA that begins does once its instruction is performed with a result. -/
theorem completes_of_done {i : Instr} {spec : VSpec} {f : V3} (hspec : vspec i = some (spec, f)) {s : State} {c : Nat} {v : VQ}
    {e : QEntry} (hb : begins s c v e = true) (hs : sound i s e = true) {x : RouteRule} {perform : QEntry → State → VOut}
    (hexec : exec i s = vexec i spec f x perform s) {t : State} (ht : perform e s = .done t) : completes (exec i s) c v e t := by
  rw [completes, hexec, vexec_of_begins hspec hb hs, ht]
  rfl

theorem exec_cmpRows {p : (V3 → Instr) × ElCmp} (hp : p ∈ cmpRows) (f : V3) (s : State) :
    ∃ spec x, vspec (p.1 f) = some (spec, f) ∧ exec (p.1 f) s = vexec (p.1 f) spec f x (performCmp p.2) s := by
  fin_cases hp <;> exact ⟨_, _, rfl, rfl⟩

/-- The operation of a row of predicate logic, and the D bit of its result. -/
theorem exec_pRows {p : (V3 → Instr) × (PReg → PReg → PReg)} (hp : p ∈ pRows) (f : V3) (s : State) :
    ∃ spec x perform, vspec (p.1 f) = some (spec, f) ∧ exec (p.1 f) s = vexec (p.1 f) spec f x perform s ∧
      ∀ e, ∃ d, perform e s = .done (finishP s s.me e.pa
        (p.2 ((s.th s.me).regs.rdP (e.pb.truncate 5)).val ((s.th s.me).regs.rdP (e.pc.truncate 5)).val).toNat d {}) := by
  fin_cases hp <;> exact ⟨_, _, _, rfl, rfl, fun e => ⟨_, rfl⟩⟩

theorem predicateResult : Sys2Proof.Ob.predicateResult := by
  refine ⟨fun p hp f s c e hb hs => ?_, fun p hp f s c e hb hs => ?_, fun f s c e hb hs => ?_⟩
  · obtain rfl := me_of_queue (agent_of_begins hb)
    obtain ⟨spec, x, hspec, hexec⟩ := exec_cmpRows hp f s
    exact completes_of_done hspec hb hs hexec rfl
  · obtain rfl := me_of_queue (agent_of_begins hb)
    obtain ⟨spec, x, perform, hspec, hexec, hdone⟩ := exec_pRows hp f s
    obtain ⟨d, hd⟩ := hdone e
    exact ⟨d, completes_of_done hspec hb hs hexec hd⟩
  · obtain rfl := me_of_queue (agent_of_begins hb)
    exact completes_of_done (i := .pset f) rfl hb hs rfl rfl

theorem vexec_vwait {s : State} (hagent : s.agent = .strand s.me) {w : VWait} (hwait : (s.th s.me).job.wait = .vwait w)
    (i : Instr) (spec : VSpec) (f : V3) (x : RouteRule) (perform : QEntry → State → VOut) :
    vexec i spec f x perform s = vwaitStep s s.me w i := by
  unfold vexec
  rw [hagent, hwait]

/-- A strand whose wait holds the value writes it to rd and goes on. -/
theorem vwaitStep_of_value {w : VWait} {x : SReg} (h : w.value = some x) (s : State) (c : Nat) (i : Instr) :
    vwaitStep s c w i = .next (s.setTh c
      ((({ s.th c with job := { (s.th c).job with wait := .none } } : Thread).wrS w.rd x.val x.d).advance i.parcels)) := by
  simp only [vwaitStep, h]

theorem performVextr_eq (e : QEntry) (s : State) : performVextr e s = .done (finishS s s.me e
    (if elemCount e.et.width ≤ e.sc.val.toNat then 0
      else if e.et.isSigned then
        (BitVec.ofNat (8 * e.et.width) (elemOf (srcsOf s s.me e).b.val.toNat e.et.width e.sc.val.toNat)).signExtend 64
      else (BitVec.ofNat (8 * e.et.width) (elemOf (srcsOf s s.me e).b.val.toNat e.et.width e.sc.val.toNat)).zeroExtend 64)
    ((srcsOf s s.me e).b.d || e.sc.d)) := by
  by_cases h : e.sc.val.toNat < elemCount e.et.width
  · rw [if_neg (Nat.not_le.mpr h)]
    exact congrArg (fun v => VOut.done (finishS s s.me e v _)) (if_pos h)
  · rw [if_pos (Nat.not_lt.mp h)]
    exact congrArg (fun v => VOut.done (finishS s s.me e v _)) (if_neg h)

theorem scalarFromVector : Sys2Proof.Ob.scalarFromVector := by
  refine ⟨fun f s c e hb hs => ?_, fun f s c e hb hs => ?_, fun f s w x hagent hwait hx => ⟨?_, ?_⟩⟩
  · obtain rfl := me_of_queue (agent_of_begins hb)
    exact completes_of_done (i := .pcnt f) rfl hb hs rfl rfl
  · obtain rfl := me_of_queue (agent_of_begins hb)
    exact ⟨_, completes_of_done (i := .vextr f) rfl hb hs rfl (performVextr_eq e s)⟩
  · exact (vexec_vwait hagent hwait (.pcnt f) specPcnt f { scalar := true } performPcnt).trans
      (vwaitStep_of_value hx s s.me (.pcnt f))
  · exact (vexec_vwait hagent hwait (.vextr f) specVextr f { bad := etNow s == .gq4, reads := some f.b, scalar := true }
      performVextr).trans (vwaitStep_of_value hx s s.me (.vextr f))

/-- Settles O20: each form is performed with its result; the wait of the control core takes the value and goes on. -/
theorem predicateAndScalarResult : Obligations.PredicateAndScalarResult :=
  ⟨predicateResult, scalarFromVector⟩

end Sys2Proof.Machine

/-! ## Vector loads and stores (O22, O23, O26: R92, R174, R175, R251, R273, R295, R344-R346, R351) -/

namespace Sys2Proof.Machine
open Sys2Proof Sys2Proof.Ob

/-! ### The accesses of a queue -/

theorem fillingHit_isEmpty {bs : List LoadBlock} {m : Bool} {ps : List (Word × Nat)}
    (h : bs.any (fun b => (!b.full || (b.ecc && m)) && ps.any (fun p => !inWindow p.1.toNat && b.covers p.1 p.2)) = false) :
    ((bs.filter (fun b => !b.full)).filter
      (fun b => ps.any (fun p => !inWindow p.1.toNat && b.covers p.1 p.2))).isEmpty = true := by
  rw [List.isEmpty_iff, List.filter_filter, List.filter_eq_nil_iff]
  intro b hb hhit
  obtain ⟨hps, hfull⟩ := Bool.and_eq_true _ _ ▸ hhit
  have := List.any_eq_false.mp h b hb
  simp only [hps, hfull, Bool.true_or, Bool.and_self, not_true_eq_false] at this

theorem lostBlock_any {bs : List LoadBlock} {m : Bool} {ps : List (Word × Nat)}
    (h : bs.any (fun b => (!b.full || (b.ecc && m)) && ps.any (fun p => !inWindow p.1.toNat && b.covers p.1 p.2)) = false) :
    (m && ps.any (fun p => !inWindow p.1.toNat && bs.any (fun b => b.full && b.ecc && b.covers p.1 p.2))) = false := by
  cases m with
  | false => rfl
  | true =>
    rw [Bool.true_and, List.any_eq_false]
    intro p hp hbad
    obtain ⟨hwin, hbs⟩ := Bool.and_eq_true _ _ ▸ hbad
    obtain ⟨b, hb, hcov⟩ := List.any_eq_true.mp hbs
    obtain ⟨hfe, hc⟩ := Bool.and_eq_true _ _ ▸ hcov
    obtain ⟨-, hecc⟩ := Bool.and_eq_true _ _ ▸ hfe
    refine List.any_eq_false.mp h b hb ?_
    have hany : ps.any (fun p => !inWindow p.1.toNat && b.covers p.1 p.2) = true :=
      List.any_eq_true.mpr ⟨p, hp, by rw [hwin, hc]; rfl⟩
    rw [hany, hecc, Bool.and_true, Bool.and_true, Bool.or_true]

/-- An access that is placed waits for nothing: it is performed. -/
theorem queueAccess_of_placed {s : State} {c : Nat} {v : VQ} {e : QEntry} {k : AccKind} {ps : List (Word × Nat)} {ks : Places}
    (h : placed s c v e k ps ks = true) (go : Places → State → VOut) :
    queueAccess s c v e k ps go = performPieces (setHost s c v .idle) c k ps ks go := by
  simp only [placed, Bool.and_eq_true, decide_eq_true_eq, Bool.not_eq_true', Bool.or_eq_true, List.isEmpty_iff] at h
  obtain ⟨⟨⟨hchk, hblk⟩, hheld⟩, hhost⟩ := h
  have hhit : (decide (v = .vl) && !((((s.core c).banks.blocks.filter (fun b => !b.full)).filter
      (fun b => ps.any (fun p => !inWindow p.1.toNat && b.covers p.1 p.2))).isEmpty)) = false := by
    rcases hblk with hv | hb
    · rw [decide_eq_false hv, Bool.false_and]
    · rw [fillingHit_isEmpty hb, Bool.not_true, Bool.and_false]
  have hbad : (decide (v = .vl) && k.meets && ps.any (fun p => !inWindow p.1.toNat && (s.core c).banks.blocks.any (fun b =>
      b.full && b.ecc && b.covers p.1 p.2))) = false := by
    rcases hblk with hv | hb
    · rw [decide_eq_false hv, Bool.false_and, Bool.false_and]
    · rw [Bool.and_assoc, lostBlock_any hb, Bool.and_false]
  simp only [queueAccess, hchk, hhit, hbad, hheld, hhost, Bool.and_false, Bool.false_eq_true, if_false]

theorem checkPieces_one_fault {s : State} {w : Who} {k : AccKind} {a : Word} {n : Nat} {cause : BitVec 8} {va : Word}
    (h : checkAccess s w k a n = .fault cause va) : checkPieces s w k [(a, n)] = .fault cause va := by
  simp only [checkPieces, h]

theorem checkPieces_one_absent {s : State} {w : Who} {k : AccKind} {a : Word} {n : Nat} {va : Word}
    (h : checkAccess s w k a n = .absent va) : checkPieces s w k [(a, n)] = .absent va := by
  simp only [checkPieces, h]

theorem checkPieces_one_ok {s : State} {w : Who} {k : AccKind} {a : Word} {n key : Nat} {cls : Option Cls}
    (h : checkAccess s w k a n = .ok key cls) : checkPieces s w k [(a, n)] = .ok [(key, cls)] := by
  simp only [checkPieces, h]

theorem queueAccess_of_fault {s : State} {c : Nat} {v : VQ} {e : QEntry} {k : AccKind} {ps : List (Word × Nat)}
    {cause : BitVec 8} {va : Word} (h : checkPieces s (s.whoThread c) k ps = .fault cause va) (go : Places → State → VOut) :
    queueAccess s c v e k ps go = .fault cause va := by
  simp only [queueAccess, h]

theorem queueAccess_of_absent {s : State} {c : Nat} {v : VQ} {e : QEntry} {k : AccKind} {ps : List (Word × Nat)} {va : Word}
    (h : checkPieces s (s.whoThread c) k ps = .absent va) (go : Places → State → VOut) :
    queueAccess s c v e k ps go = .park va k := by
  simp only [queueAccess, h]

/-! ### What the request of a queue leaves -/

theorem setHost_banks (s : State) (c : Nat) (v : VQ) (h : HostSt) :
    ((setHost s c v h).core c).banks = (s.core c).banks := by
  rw [setHost, State.setTh_core_self]

theorem setHost_me (s : State) (c : Nat) (v : VQ) (h : HostSt) : (setHost s c v h).me = s.me := (rfl)

theorem activeBad_setHost (s : State) (e : QEntry) (x : Srcs) (a : Word) (key : Nat) (v : VQ) (h : HostSt) :
    activeBad (setHost s s.me v h) e x a key = activeBad s e x a key := by
  unfold activeBad
  rw [setHost_me, setHost_banks, setHost_mem]

/-! ### Vector loads -/

theorem aligned_of_mod {a : Word} {w : Nat} (h : a.toNat % w = 0) : (!aligned a w) = false := by
  rw [aligned, decide_eq_true h]
  rfl

theorem not_aligned_of_mod {a : Word} {w : Nat} (h : a.toNat % w ≠ 0) : (!aligned a w) = true := by
  rw [aligned, decide_eq_false h]
  rfl

theorem loadVec_placed {s : State} {e : QEntry} {a : Word} {key : Nat} {cls : Option Cls} (x : Srcs)
    (h : placed s s.me .vl e .part [(a, 256)] [(key, cls)] = true) : loadVec e x a s =
      if activeBad s e x a key then .fault cEcc a
      else .done (finishVL (setHost s s.me .vl .idle) s.me e
        (loadedVec e x (loadPiece (setHost s s.me .vl .idle) s.me (a, 256) (key, cls))) false {}) := by
  unfold loadVec
  rw [queueAccess_of_placed h, ← activeBad_setHost s e x a key .vl .idle]
  rfl

theorem loadVec_fault {s : State} {a : Word} {cause : BitVec 8} {va : Word}
    (h : checkAccess s (s.whoThread s.me) .part a 256 = .fault cause va) (e : QEntry) (x : Srcs) :
    loadVec e x a s = .fault cause va :=
  queueAccess_of_fault (checkPieces_one_fault h) _

theorem loadVec_absent {s : State} {a : Word} {va : Word}
    (h : checkAccess s (s.whoThread s.me) .part a 256 = .absent va) (e : QEntry) (x : Srcs) :
    loadVec e x a s = .park va .part :=
  queueAccess_of_absent (checkPieces_one_absent h) _

theorem performVld_aligned {e : QEntry} (h : (vldAddr e).toNat % 256 = 0) (s : State) :
    performVld e s = loadVec e (srcsOf s s.me e) (vldAddr e) s := by
  unfold performVld
  simp only [aligned_of_mod h, Bool.false_eq_true, if_false]

theorem performVld_misaligned {e : QEntry} (h : (vldAddr e).toNat % 256 ≠ 0) (s : State) :
    performVld e s = .fault cMisalign (vldAddr e) := by
  unfold performVld
  simp only [not_aligned_of_mod h, if_true]

/-- What VLDS does instead of a fault (R175). -/
def vldsDefers (e : QEntry) (s : State) : VOut :=
  .done (finishVL (setHost s s.me .vl .idle) s.me e (loadedVec e (srcsOf s s.me e) 0) true {})

/-- VLDS defers before it makes its access. -/
def vldsDefersFirst (e : QEntry) (s : State) : Bool :=
  e.sb.d || e.sb.ecc || eccHead specVlds e s || !aligned (vldAddr e) 256 || (s.core s.me).banks.blocks.any (fun b =>
    !b.full && b.bad.isSome && !inWindow (vldAddr e).toNat && b.covers (vldAddr e) 256)

theorem performVlds_eq (e : QEntry) (s : State) : performVlds e s =
    if vldsDefersFirst e s then vldsDefers e s
    else match loadVec e (srcsOf s s.me e) (vldAddr e) s with
      | .fault _ _ => vldsDefers e s
      | .park _ _ => vldsDefers e s
      | r => r := (rfl)

/-- VLDS defers where it tests first, and where its load faults or parks. -/
theorem performVlds_defers {e : QEntry} {s : State} (h : vldsDefersFirst e s = true ∨
    (∃ cause va, loadVec e (srcsOf s s.me e) (vldAddr e) s = .fault cause va) ∨
    ∃ va k, loadVec e (srcsOf s s.me e) (vldAddr e) s = .park va k) : performVlds e s = vldsDefers e s := by
  rw [performVlds_eq]
  by_cases hfirst : vldsDefersFirst e s = true
  · rw [if_pos hfirst]
  · rw [if_neg hfirst]
    rcases h with h | ⟨cause, va, h⟩ | ⟨va, k, h⟩
    · exact absurd h hfirst
    · rw [h]
    · rw [h]

/-- A load-block that is filling covers none of a placed access. -/
theorem fills_of_placed {s : State} {c : Nat} {e : QEntry} {k : AccKind} {a : Word} {n : Nat} {ks : Places}
    (h : placed s c .vl e k [(a, n)] ks = true) : (s.core c).banks.blocks.any (fun b =>
      !b.full && b.bad.isSome && !inWindow a.toNat && b.covers a n) = false := by
  simp only [placed, Bool.and_eq_true, ne_eq, not_true_eq_false, decide_false, Bool.false_or, Bool.not_eq_true'] at h
  obtain ⟨⟨⟨-, hblk⟩, -⟩, -⟩ := h
  rw [List.any_eq_false] at hblk ⊢
  intro b hb hfill
  simp only [Bool.and_eq_true, Bool.not_eq_true'] at hfill
  obtain ⟨⟨⟨hfull, -⟩, hwin⟩, hcov⟩ := hfill
  exact hblk b hb (by simp [hfull, hwin, hcov])

theorem performVlds_placed {s : State} {e : QEntry} {key : Nat} {cls : Option Cls} (hd : e.sb.d = false)
    (hecc : e.sb.ecc = false) (hhead : eccHead specVlds e s = false) (ha : (vldAddr e).toNat % 256 = 0)
    (h : placed s s.me .vl e .part [(vldAddr e, 256)] [(key, cls)] = true)
    (hbad : activeBad s e (srcsOf s s.me e) (vldAddr e) key = false) : performVlds e s =
      .done (finishVL (setHost s s.me .vl .idle) s.me e (loadedVec e (srcsOf s s.me e)
        (loadPiece (setHost s s.me .vl .idle) s.me (vldAddr e, 256) (key, cls))) false {}) := by
  have hfirst : vldsDefersFirst e s = false := by
    unfold vldsDefersFirst
    rw [hd, hecc, hhead, aligned_of_mod ha, fills_of_placed h]
    rfl
  rw [performVlds_eq, if_neg (by rw [hfirst]; decide), loadVec_placed _ h, if_neg (by rw [hbad]; decide)]

/-- What a head of a quiet form that begins does. -/
theorem exec_vlds_of_begins {s : State} {c : Nat} {e : QEntry} (hb : begins s c .vl e = true) (hecc : e.ecc = false) (f : V3) :
    exec (.vlds f) s = .next (headOutcome s c .vl e (performVlds e s)) := by
  refine (vexec_performs (agent_of_begins hb) (.vlds f) specVlds f { quiet := true } performVlds).trans ?_
  rw [queueMove_of_begins hb]
  simp only [hecc, Bool.not_true, Bool.false_and, Bool.or_self, Bool.false_eq_true, if_false]

theorem vldResult (f : V3) (s : State) (e : QEntry) (key : Nat) (cls : Option Cls) (hb : begins s s.me .vl e = true)
    (hs : sound (.vld f) s e = true) (ha : (vldAddr e).toNat % 256 = 0)
    (hp : placed s s.me .vl e .part [(vldAddr e, 256)] [(key, cls)] = true)
    (hbad : activeBad s e (srcsOf s s.me e) (vldAddr e) key = false) :
    completes (exec (.vld f) s) s.me .vl e (finishVL (setHost s s.me .vl .idle) s.me e (loadedVec e (srcsOf s s.me e)
      (loadPiece (setHost s s.me .vl .idle) s.me (vldAddr e, 256) (key, cls))) false {}) := by
  refine completes_of_done (i := .vld f) rfl hb hs rfl (perform := performVld) ?_
  rw [performVld_aligned ha, loadVec_placed _ hp, if_neg (by rw [hbad]; decide)]

theorem vldsResult (f : V3) (s : State) (e : QEntry) (key : Nat) (cls : Option Cls) (hb : begins s s.me .vl e = true)
    (hs : sound (.vlds f) s e = true) (ha : (vldAddr e).toNat % 256 = 0) (hd : e.sb.d = false) (hecc : e.sb.ecc = false)
    (hp : placed s s.me .vl e .part [(vldAddr e, 256)] [(key, cls)] = true)
    (hbad : activeBad s e (srcsOf s s.me e) (vldAddr e) key = false) :
    completes (exec (.vlds f) s) s.me .vl e (finishVL (setHost s s.me .vl .idle) s.me e (loadedVec e (srcsOf s s.me e)
      (loadPiece (setHost s s.me .vl .idle) s.me (vldAddr e, 256) (key, cls))) false {}) := by
  obtain ⟨-, hhead⟩ := eccHead_of_sound (i := .vlds f) rfl hs
  exact completes_of_done (i := .vlds f) rfl hb hs rfl (perform := performVlds)
    (performVlds_placed hd hecc hhead ha hp hbad)

theorem eccHead_of_not_sound {i : Instr} {spec : VSpec} {f : V3} (hspec : vspec i = some (spec, f)) {s : State} {e : QEntry}
    (h : sound i s e = false) : eccHead spec e s = true := by
  simpa only [sound, hspec, Bool.not_eq_false'] using h

theorem vldsDeferred (f : V3) (s : State) (e : QEntry) (hb : begins s s.me .vl e = true) (hecc : e.ecc = false)
    (h : e.sb.d = true ∨ e.sb.ecc = true ∨ sound (.vlds f) s e = false ∨ (vldAddr e).toNat % 256 ≠ 0 ∨
      (∃ cause va, checkAccess s (s.whoThread s.me) .part (vldAddr e) 256 = .fault cause va) ∨
      (∃ va, checkAccess s (s.whoThread s.me) .part (vldAddr e) 256 = .absent va) ∨
      (∃ key cls, placed s s.me .vl e .part [(vldAddr e, 256)] [(key, cls)] = true ∧
        activeBad s e (srcsOf s s.me e) (vldAddr e) key = true)) :
    completes (exec (.vlds f) s) s.me .vl e
      (finishVL (setHost s s.me .vl .idle) s.me e (loadedVec e (srcsOf s s.me e) 0) true {}) := by
  have hdefers : performVlds e s = vldsDefers e s := by
    refine performVlds_defers ?_
    rcases h with h | h | h | h | ⟨cause, va, h⟩ | ⟨va, h⟩ | ⟨key, cls, hp, hbad⟩
    · exact .inl (by simp [vldsDefersFirst, h])
    · exact .inl (by simp [vldsDefersFirst, h])
    · exact .inl (by simp [vldsDefersFirst, eccHead_of_not_sound (i := .vlds f) rfl h])
    · exact .inl (by simp [vldsDefersFirst, not_aligned_of_mod h])
    · exact .inr (.inl ⟨cause, va, loadVec_fault h e _⟩)
    · exact .inr (.inr ⟨va, _, loadVec_absent h e _⟩)
    · exact .inr (.inl ⟨_, _, (loadVec_placed _ hp).trans (if_pos hbad)⟩)
  rw [completes, exec_vlds_of_begins hb hecc, hdefers]
  rfl

theorem vldxResult (f : V3) (s : State) (e : QEntry) (ks : Places) (hb : begins s s.me .vl e = true)
    (hs : sound (.vldx f) s e = true) (hd : (srcsOf s s.me e).c.d = false) (ha : e.sb.val.toNat % e.et.width = 0)
    (hp : placed s s.me .vl e .read
      ((activeList e (srcsOf s s.me e)).map (fun i => (elAddr e (srcsOf s s.me e) i, e.et.width))) ks = true) :
    completes (exec (.vldx f) s) s.me .vl e (finishVL (setHost s s.me .vl .idle) s.me e
      (mapEl e.et.width (srcsOf s s.me e).a.val.toNat (activeAt e (srcsOf s s.me e).g e.et.width) (fun i =>
        { bits := loadPiece (setHost s s.me .vl .idle) s.me (elAddr e (srcsOf s s.me e) i, e.et.width)
            (placeOf (activeList e (srcsOf s s.me e)) ks i) })).val false {}) := by
  refine completes_of_done (i := .vldx f) rfl hb hs rfl (perform := performVldx) ?_
  unfold performVldx
  simp only [hd, aligned_of_mod ha, Bool.false_eq_true, if_false]
  rw [queueAccess_of_placed hp]
  rfl

theorem vldcResult (f : V3) (s : State) (e : QEntry) (hb : begins s s.me .vl e = true) (hs : sound (.vldc f) s e = true)
    (hready : (s.th s.me).strm.slotsReady e = true)
    (hheld : heldBack s s.me e.seq (slotAddr (slotKey s.me ((s.th s.me).strm.cbAt e.f.b.toNat)
      ((s.th s.me).strm.cbAt e.f.b.toNat).rd (e.f.c.toNat - 1))) 256 = false)
    (hbad : activeBad s e (srcsOf s s.me e) (slotAddr (slotKey s.me ((s.th s.me).strm.cbAt e.f.b.toNat)
      ((s.th s.me).strm.cbAt e.f.b.toNat).rd (e.f.c.toNat - 1))) (slotKey s.me ((s.th s.me).strm.cbAt e.f.b.toNat)
      ((s.th s.me).strm.cbAt e.f.b.toNat).rd (e.f.c.toNat - 1)) = false) :
    completes (exec (.vldc f) s) s.me .vl e (finishVL s s.me e (loadedVec e (srcsOf s s.me e)
      (s.mem.readNat (slotKey s.me ((s.th s.me).strm.cbAt e.f.b.toNat) ((s.th s.me).strm.cbAt e.f.b.toNat).rd
        (e.f.c.toNat - 1)) 256)) false {}) := by
  refine completes_of_done (i := .vldc f) rfl hb hs rfl (perform := performVldc) ?_
  unfold performVldc
  simp only [hready, hheld, hbad, Bool.not_true, Bool.false_eq_true, if_false]

/-- The stream that a head names (R173, R174). -/
def headStream (e : QEntry) (s : State) : Stream := (s.th s.me).strm.stAt e.f.b.toNat

/-- Where the elements of the head's stream cross into another layer, if they do. -/
def headSpan (e : QEntry) (s : State) : Option Word :=
  layerSpan (headStream e s) (headStream e s).posr.toNat
    ((insideList e (srcsOf s s.me e) (headStream e s)).map (fun i => (headStream e s).posc.toNat + i))

/-- What VLDST does with the places of its pieces (R173). -/
def vldstGo (e : QEntry) (s : State) (ks : Places) (u : State) : VOut :=
  let x := srcsOf s s.me e
  let st := headStream e s
  let is := insideList e x st
  let r := mapEl e.et.width x.a.val.toNat (activeAt e x.g e.et.width) (fun i =>
    if is.contains i then
      streamIn st e.mode st.posr.toNat (st.posc.toNat + i) (pieceVals u s.me st.per is (streamPieces e x st) ks i)
    else { bits := 0 })
  let t := finishVL u s.me e r.val false r.flags
  .done (t.setTh s.me { t.th s.me with strm := (t.th s.me).strm.setSt e.f.b.toNat (st.step (elemCount e.et.width)) })

theorem performVldst_eq (e : QEntry) (s : State) : performVldst e s =
    match headSpan e s with
    | some a => .fault cLayerSpan a
    | none => queueAccess s s.me .vl e .read (streamPieces e (srcsOf s s.me e) (headStream e s)) (vldstGo e s) := (rfl)

theorem performVldst_inside {e : QEntry} {s : State} (h : headSpan e s = none) : performVldst e s =
    queueAccess s s.me .vl e .read (streamPieces e (srcsOf s s.me e) (headStream e s)) (vldstGo e s) := by
  rw [performVldst_eq, h]

/-- Settles O22: an access that is placed is performed, and VLDS defers where VLD would not be. -/
theorem vectorLoadResult : Obligations.VectorLoadResult := by
  refine ⟨fun f s c e key cls hb hs ha hp hbad => ?_, fun f s c e hb hecc h => ?_, fun f s c e ks hb hs => ?_,
    fun f s c e hb hs => ?_, fun f s c e ks hb hs => ?_⟩
  · obtain rfl := me_of_queue (agent_of_begins hb)
    exact ⟨vldResult f s e key cls hb hs ha hp hbad, fun hd hecc hs' => vldsResult f s e key cls hb hs' ha hd hecc hp hbad⟩
  · obtain rfl := me_of_queue (agent_of_begins hb)
    exact vldsDeferred f s e hb hecc h
  · obtain rfl := me_of_queue (agent_of_begins hb)
    exact fun hd ha hp => vldxResult f s e ks hb hs hd ha hp
  · obtain rfl := me_of_queue (agent_of_begins hb)
    exact fun hready hheld hbad => vldcResult f s e hb hs hready hheld hbad
  · obtain rfl := me_of_queue (agent_of_begins hb)
    intro x st w is ps u r hspan hp
    exact completes_of_done (i := .vldst f) rfl hb hs rfl (perform := performVldst)
      ((performVldst_inside hspan).trans (queueAccess_of_placed hp (vldstGo e s)))

end Sys2Proof.Machine

/-! ### Vector stores (O23) -/

namespace Sys2Proof.Machine
open Sys2Proof Sys2Proof.Ob

/-- Stores that are placed are made once each die that they leave for has the causal stamp (R253). -/
theorem queueAccess_write {s : State} {c : Nat} {v : VQ} {e : QEntry} {ps : List (Word × Nat)} {ks : Places}
    (h : placed s c v e .write ps ks = true) (go : Places → State → VOut) :
    queueAccess s c v e .write ps go = go ks (writesOut s c v ps ks) :=
  queueAccess_of_placed h go

/-- A sound head that begins and faults halts its queue (R295). -/
theorem halts_of_fault {i : Instr} {spec : VSpec} {f : V3} (hspec : vspec i = some (spec, f)) {s : State} {c : Nat} {v : VQ}
    {e : QEntry} (hb : begins s c v e = true) (hs : sound i s e = true) {x : RouteRule} {perform : QEntry → State → VOut}
    (hexec : exec i s = vexec i spec f x perform s) {cause : BitVec 8} {addr : Word} (hf : perform e s = .fault cause addr) :
    exec i s = .next (haltQueue (keepSrcs s c v e) c v cause addr) := by
  rw [hexec, vexec_of_begins hspec hb hs, hf]
  rfl

theorem performVst_eq {e : QEntry} {s : State} (hd : (srcsOf s s.me e).a.d = false) (ha : (vldAddr e).toNat % 256 = 0) :
    performVst e s = queueAccess s s.me .vs e .write [(vldAddr e, 256)] (fun ks u => .done (storeEls s.me e.et.width
      (srcsOf s s.me e).a.val.toNat (activeAt e (srcsOf s s.me e).g e.et.width)
      (fun i => vldAddr e + BitVec.ofNat 64 (e.et.width * i))
      (fun i => ((ks.headD (0, none)).1 + e.et.width * i, (ks.headD (0, none)).2)) (elemCount e.et.width) 0 u)) := by
  unfold performVst
  simp only [hd, aligned_of_mod ha, Bool.false_eq_true, if_false]
  rfl

theorem performVstx_eq {e : QEntry} {s : State} (hd : (srcsOf s s.me e).a.d = false) (hx : (srcsOf s s.me e).c.d = false)
    (ha : e.sb.val.toNat % e.et.width = 0) : performVstx e s = queueAccess s s.me .vs e .write
      ((activeList e (srcsOf s s.me e)).map (fun i => (elAddr e (srcsOf s s.me e) i, e.et.width)))
      (fun ks u => .done (storeEls s.me e.et.width (srcsOf s s.me e).a.val.toNat (activeAt e (srcsOf s s.me e).g e.et.width)
        (elAddr e (srcsOf s s.me e)) (placeOf (activeList e (srcsOf s s.me e)) ks) (elemCount e.et.width) 0 u)) := by
  unfold performVstx
  simp only [hd, hx, aligned_of_mod ha, Bool.false_eq_true, if_false]
  rfl

theorem performVstc_ready {e : QEntry} {s : State} (hready : (s.th s.me).strm.slotsReady e = true)
    (hd : (srcsOf s s.me e).a.d = false)
    (hheld : heldBack s s.me e.seq (slotAddr (slotKey s.me ((s.th s.me).strm.cbAt e.f.b.toNat)
      ((s.th s.me).strm.cbAt e.f.b.toNat).wr (e.f.c.toNat - 1))) 256 = false) :
    performVstc e s = .done (storeEls s.me e.et.width (srcsOf s s.me e).a.val.toNat
      (activeAt e (srcsOf s s.me e).g e.et.width) (fun i => BitVec.ofNat 64 (windowBase + e.et.width * i))
      (fun i => (slotKey s.me ((s.th s.me).strm.cbAt e.f.b.toNat) ((s.th s.me).strm.cbAt e.f.b.toNat).wr
        (e.f.c.toNat - 1) + e.et.width * i, none)) (elemCount e.et.width) 0 s) := by
  unfold performVstc
  simp only [hready, hd, hheld, Bool.not_true, Bool.false_eq_true, if_false]
  rfl

/-! #### Masked stores -/

theorem lowSet_zero (n i : Nat) : lowSet 0 n i = none := by
  induction n generalizing i with
  | zero => rfl
  | succ n ih => exact (if_neg (by simp)).trans (ih (i + 1))

theorem performVstm_none {e : QEntry} {s : State} (hd : (srcsOf s s.me e).a.d = false)
    (hm : (srcsOf s s.me e).m.d = false) (h : (srcsOf s s.me e).m.val = 0) : performVstm e s = .done s := by
  unfold performVstm
  simp only [hd, hm, h, lowSet_zero, Bool.false_eq_true, if_false]

/-- VSTM gives its access's faults and pages the address of R351. -/
def maskOut (lo : Word) : VOut → VOut
  | .fault cause va => .fault cause (if inWindow lo.toNat then lo else pageAddr lo.toNat va)
  | .park va k => .park (pageAddr lo.toNat va) k
  | r => r

theorem performVstm_some {e : QEntry} {s : State} (hd : (srcsOf s s.me e).a.d = false)
    (hm : (srcsOf s s.me e).m.d = false) {jl jh : Nat} (hl : lowSet (srcsOf s s.me e).m.val 256 0 = some jl)
    (hh : highSet (srcsOf s s.me e).m.val 256 = some jh) (hlo : (e.sb.val + BitVec.ofNat 64 jl).toNat < 2 ^ 57)
    (hhi : (e.sb.val + BitVec.ofNat 64 jh).toNat < 2 ^ 57) :
    performVstm e s = maskOut (e.sb.val + BitVec.ofNat 64 jl) (queueAccess s s.me .vs e .write
      (maskPieces (srcsOf s s.me e).m.val e.sb.val jl jh) (fun ks u => .done (storeMask s.me e.sb.val
        (srcsOf s s.me e).a.val.toNat (srcsOf s s.me e).m.val
        (maskPlace e.sb.val (maskPieces (srcsOf s s.me e).m.val e.sb.val jl jh) ks) 256 0 u))) := by
  unfold performVstm
  have hin : ¬ (2 ^ 57 ≤ (e.sb.val + BitVec.ofNat 64 jl).toNat ∨ 2 ^ 57 ≤ (e.sb.val + BitVec.ofNat 64 jh).toNat) := by omega
  simp only [hd, hm, hl, hh, Bool.false_eq_true, if_false]
  refine (if_neg hin).trans ?_
  rfl

theorem performVstm_placed {e : QEntry} {s : State} (hd : (srcsOf s s.me e).a.d = false)
    (hm : (srcsOf s s.me e).m.d = false) {jl jh : Nat} (hl : lowSet (srcsOf s s.me e).m.val 256 0 = some jl)
    (hh : highSet (srcsOf s s.me e).m.val 256 = some jh) (hlo : (e.sb.val + BitVec.ofNat 64 jl).toNat < 2 ^ 57)
    (hhi : (e.sb.val + BitVec.ofNat 64 jh).toNat < 2 ^ 57) {ks : Places}
    (hp : placed s s.me .vs e .write (maskPieces (srcsOf s s.me e).m.val e.sb.val jl jh) ks = true) :
    performVstm e s = .done (storeMask s.me e.sb.val (srcsOf s s.me e).a.val.toNat (srcsOf s s.me e).m.val
      (maskPlace e.sb.val (maskPieces (srcsOf s s.me e).m.val e.sb.val jl jh) ks) 256 0
      (writesOut s s.me .vs (maskPieces (srcsOf s s.me e).m.val e.sb.val jl jh) ks)) := by
  rw [performVstm_some hd hm hl hh hlo hhi, queueAccess_write hp]
  rfl

/-! #### Stream stores -/

/-- The conversion of element i of a stream store (R174). -/
def headConv (e : QEntry) (s : State) (i : Nat) : FRes :=
  convertEl e.et (headStream e s).et (vmRm e.vmode) (vmSat e.vmode) (elemOf (srcsOf s s.me e).a.val.toNat e.et.width i)

/-- What VSTST does with the places of its pieces (R174). -/
def vststGo (e : QEntry) (s : State) (ks : Places) (u : State) : VOut :=
  let st := headStream e s
  let is := insideList e (srcsOf s s.me e) st
  let t := storeStream s.me st (fun i => (headConv e s i).bits) is ks is u
  .done (t.setTh s.me { t.th s.me with csr := (t.th s.me).csr.merge (flagsOf (headConv e s) is),
                                       strm := (t.th s.me).strm.setSt e.f.b.toNat (st.step (elemCount e.et.width)) })

theorem performVstst_eq (e : QEntry) (s : State) : performVstst e s =
    if (srcsOf s s.me e).a.d then dfaultV e.f.a
    else match headSpan e s with
    | some a => .fault cLayerSpan a
    | none => queueAccess s s.me .vs e .write (streamPieces e (srcsOf s s.me e) (headStream e s)) (vststGo e s) := (rfl)

theorem performVstst_inside {e : QEntry} {s : State} (hd : (srcsOf s s.me e).a.d = false) (h : headSpan e s = none) :
    performVstst e s =
      queueAccess s s.me .vs e .write (streamPieces e (srcsOf s s.me e) (headStream e s)) (vststGo e s) := by
  rw [performVstst_eq, if_neg (by rw [hd]; decide), h]

/-! #### D in the stored vector -/

/-- Each of these stores tests the D bit of what it stores before anything else (R92). -/
theorem exec_storeForms {p : V3 → Instr} (hp : p ∈ ([.vst, .vstm, .vstx, .vstst] : List (V3 → Instr))) (f : V3) (s : State) :
    ∃ spec x perform, vspec (p f) = some (spec, f) ∧ exec (p f) s = vexec (p f) spec f x perform s ∧
      ∀ e, (srcsOf s s.me e).a.d = true → perform e s = dfaultV e.f.a := by
  fin_cases hp
  · exact ⟨_, _, performVst, rfl, rfl, fun e hd => if_pos hd⟩
  · exact ⟨_, _, performVstm, rfl, rfl, fun e hd => if_pos hd⟩
  · exact ⟨_, _, performVstx, rfl, rfl, fun e hd => if_pos hd⟩
  · exact ⟨_, _, performVstst, rfl, rfl, fun e hd => if_pos hd⟩

/-- Settles O23: an access that is placed is performed, and D of what is stored comes before it. -/
theorem vectorStoreResult : Obligations.VectorStoreResult := by
  refine ⟨fun f s c e key cls hb hs => ?_, fun f s c e ks hb hs => ?_, fun f s c e hb hs => ?_, fun f s c e ks hb hs => ?_,
    fun f s c e ks hb hs => ?_, fun p hp f s c e hb hs hd => ?_⟩
  · obtain rfl := me_of_queue (agent_of_begins hb)
    exact fun hd ha hp => completes_of_done (i := .vst f) rfl hb hs rfl (perform := performVst)
      ((performVst_eq hd ha).trans (queueAccess_write hp _))
  · obtain rfl := me_of_queue (agent_of_begins hb)
    exact fun hd hx ha hp => completes_of_done (i := .vstx f) rfl hb hs rfl (perform := performVstx)
      ((performVstx_eq hd hx ha).trans (queueAccess_write hp _))
  · obtain rfl := me_of_queue (agent_of_begins hb)
    exact fun hready hd hheld => completes_of_done (i := .vstc f) rfl hb hs rfl (perform := performVstc)
      (performVstc_ready hready hd hheld)
  · obtain rfl := me_of_queue (agent_of_begins hb)
    refine fun hd hm => ⟨fun h => ?_, fun jl jh hl hh hlo hhi hp => ?_⟩
    · exact completes_of_done (i := .vstm f) rfl hb hs rfl (perform := performVstm) (performVstm_none hd hm h)
    · exact completes_of_done (i := .vstm f) rfl hb hs rfl (perform := performVstm)
        (performVstm_placed hd hm hl hh hlo hhi hp)
  · obtain rfl := me_of_queue (agent_of_begins hb)
    exact fun hd hspan hp => completes_of_done (i := .vstst f) rfl hb hs rfl (perform := performVstst)
      ((performVstst_inside hd hspan).trans (queueAccess_write hp (vststGo e s)))
  · obtain rfl := me_of_queue (agent_of_begins hb)
    obtain ⟨spec, x, perform, hspec, hexec, hdefault⟩ := exec_storeForms hp f s
    exact halts_of_fault hspec hb hs hexec (hdefault e hd)

end Sys2Proof.Machine

/-! ### A head that faults halts its queue (O26: R295) -/

namespace Sys2Proof.Machine
open Sys2Proof Sys2Proof.Ob

/-- From s to t nothing changes but the queues of core c, which are q in t. -/
structure QueuesOnly (s t : State) (c : Nat) (q : Queues) : Prop where
  outside : SameOutside s t
  others : SameOthers s t c
  th : t.th c = { s.th c with q := q }

theorem queuesOnly_refl (s : State) (c : Nat) : QueuesOnly s s c (s.th c).q := ⟨rfl, fun _ _ => rfl, rfl⟩

theorem queuesOnly_setTh (s : State) (c : Nat) (q : Queues) : QueuesOnly s (s.setTh c { s.th c with q := q }) c q :=
  ⟨State.setTh_outside s c _, fun _ hj => State.setTh_core_ne s hj _, State.setTh_th_self s c _⟩

theorem QueuesOnly.trans {s t u : State} {c : Nat} {q q' : Queues} (h : QueuesOnly s t c q) (h' : QueuesOnly t u c q') :
    QueuesOnly s u c q' := by
  obtain ⟨hout, hothers, hth⟩ := h
  obtain ⟨hout', hothers', hth'⟩ := h'
  refine ⟨sameOutside_trans hout hout', fun j hj => (hothers' j hj).trans (hothers j hj), ?_⟩
  rw [hth', hth]

theorem Queues.get_pop (q : Queues) (u v : VQ) (tok : BitVec 4) : (q.pop u tok).get v = q.get v := by
  cases u <;> simp only [Queues.pop] <;> (repeat' split) <;> cases v <;> rfl

theorem Queues.faults_pop (q : Queues) (u : VQ) (tok : BitVec 4) : (q.pop u tok).faults = q.faults := by
  cases u <;> simp only [Queues.pop] <;> (repeat' split) <;> rfl

theorem Queues.faults_set (q : Queues) (v : VQ) (x : VQueue) : (q.set v x).faults = q.faults := by
  cases v <;> rfl

theorem Queues.get_with_faults (q : Queues) (l : List QFault) (v : VQ) : ({ q with faults := l } : Queues).get v = q.get v := by
  cases v <;> rfl

/-- Taking its pops changes the head of the queue and the tokens only (R82). -/
theorem takePops_queues (s : State) (c : Nat) (v : VQ) (e : QEntry) : ∃ q, QueuesOnly s (takePops s c v e) c q ∧
    q.faults = (s.th c).q.faults ∧ (q.get v).held.tail = ((s.th c).q.get v).held.tail := by
  unfold takePops
  dsimp only
  split
  · exact ⟨_, queuesOnly_refl s c, rfl, rfl⟩
  · refine ⟨_, queuesOnly_setTh s c _, ?_, ?_⟩
    · rw [Queues.faults_set, Queues.faults_pop]
    · rw [Queues.get_set_self, List.tail_cons, Queues.get_pop]

/-- The halted head keeps the sources it read and its pops (R82, R295). -/
theorem keepSrcs_queues (s : State) (c : Nat) (v : VQ) (e : QEntry) : ∃ q pop, QueuesOnly s (keepSrcs s c v e) c q ∧
    q.faults = (s.th c).q.faults ∧
    (q.get v).held = { e with kept := some (srcsOf s c e), popped := pop } :: ((s.th c).q.get v).held.tail := by
  obtain ⟨q, hq, hfaults, htail⟩ := takePops_queues s c v e
  obtain ⟨-, -, hth⟩ := id hq
  refine ⟨_, e.popped || ((takePops s c v e).th c).q.headPopped v, hq.trans (queuesOnly_setTh _ c _), ?_, ?_⟩
  · rw [Queues.faults_set, hth]
    exact hfaults
  · rw [Queues.get_set_self, hth, ← htail]

theorem haltQueue_queues {s : State} {c : Nat} {v : VQ} {x : QEntry} {r : List QEntry} (h : ((s.th c).q.get v).held = x :: r)
    (cause : BitVec 8) (addr : Word) : ∃ q, QueuesOnly s (haltQueue s c v cause addr) c q ∧
    (q.get v).halted = true ∧ (q.get v).held = x :: r ∧
    q.faults = (s.th c).q.faults ++ [{ q := qCode v, cause := cause, index := x.idx, addr := addr }] := by
  refine ⟨_, queuesOnly_setTh s c _, ?_, ?_, ?_⟩
  · rw [Queues.get_with_faults, Queues.get_set_self]
  · rw [Queues.get_with_faults, Queues.get_set_self]
    exact h
  · rw [h]

/-- The head's fault as the outcome of a move. -/
def Halts (s : State) (c : Nat) (v : VQ) (e : QEntry) (cause : BitVec 8) (addr : Word) (o : Out) : Prop :=
  ∃ t pop, o = .next t ∧ ((t.th c).q.get v).halted = true ∧
    ((t.th c).q.get v).held = { e with kept := some (srcsOf s c e), popped := pop } :: ((s.th c).q.get v).held.tail ∧
    (t.th c).q.faults = (s.th c).q.faults ++ [{ q := qCode v, cause := cause, index := e.idx, addr := addr }] ∧
    (t.th c).regs = (s.th c).regs ∧ (t.th c).strm = (s.th c).strm ∧ (t.th c).csr = (s.th c).csr ∧ SameOutside s t ∧
    SameOthers s t c

theorem halts_of_halt {s : State} {c : Nat} {v : VQ} {e : QEntry} {cause : BitVec 8} {addr : Word} {o : Out}
    (h : o = .next (haltQueue (keepSrcs s c v e) c v cause addr)) : Halts s c v e cause addr o := by
  obtain ⟨q, pop, hq, hfaults, hheld⟩ := keepSrcs_queues s c v e
  obtain ⟨-, -, hth⟩ := id hq
  have hkept : (((keepSrcs s c v e).th c).q.get v).held =
      { e with kept := some (srcsOf s c e), popped := pop } :: ((s.th c).q.get v).held.tail := by rw [hth]; exact hheld
  obtain ⟨q', hq', hhalted', hheld', hfaults'⟩ := haltQueue_queues hkept cause addr
  obtain ⟨hout, hothers, hth'⟩ := hq.trans hq'
  refine ⟨_, pop, h, ?_, ?_, ?_, ?_, ?_, ?_, hout, hothers⟩ <;> rw [hth']
  · exact hhalted'
  · exact hheld'
  · rw [hfaults', hth]
    exact congrArg (· ++ _) hfaults

/-- A sound head that begins and faults halts its queue (R295). -/
theorem halts_of_begins {i : Instr} {spec : VSpec} {f : V3} (hspec : vspec i = some (spec, f)) {s : State} {c : Nat} {v : VQ}
    {e : QEntry} (hb : begins s c v e = true) (hs : sound i s e = true) {x : RouteRule} {perform : QEntry → State → VOut}
    (hexec : exec i s = vexec i spec f x perform s) {cause : BitVec 8} {addr : Word} (hf : perform e s = .fault cause addr) :
    Halts s c v e cause addr (exec i s) :=
  halts_of_halt (halts_of_fault hspec hb hs hexec hf)

/-! #### The causes -/

/-- A form whose head meets an uncorrectable error in what it reads (R304). -/
theorem halts_of_ecc {i : Instr} {spec : VSpec} {f : V3} (hspec : vspec i = some (spec, f)) {s : State} {c : Nat} {v : VQ}
    {e : QEntry} (hb : begins s c v e = true) (hs : sound i s e = false) {x : RouteRule} (hquiet : x.quiet = false)
    {perform : QEntry → State → VOut} (hexec : exec i s = vexec i spec f x perform s) :
    Halts s c v e 0x0F 0 (exec i s) := by
  refine halts_of_halt ?_
  rw [hexec, vexec_performs (agent_of_begins hb), queueMove_of_begins hb]
  simp only [hquiet, eccHead_of_not_sound hspec hs, Bool.not_false, Bool.and_self, Bool.or_true, if_true]
  rfl

theorem exec_readingForms {p : V3 → Instr}
    (hp : p ∈ ([.vadd, .vsub, .vmul, .vfma, .vred, .vsel, .pand, .vld, .vst, .vldx, .vstx, .spush] : List (V3 → Instr)))
    (f : V3) (s : State) : ∃ spec x perform, vspec (p f) = some (spec, f) ∧ x.quiet = false ∧
      exec (p f) s = vexec (p f) spec f x perform s := by
  fin_cases hp <;> exact ⟨_, _, _, rfl, rfl, rfl⟩

theorem exec_pagedForms {p : (V3 → Instr) × VQ}
    (hp : p ∈ ([(.vld, .vl), (.vst, .vs), (.vldx, .vl), (.vstx, .vs), (.vldst, .vl), (.vstst, .vs), (.vstm, .vs)] :
      List ((V3 → Instr) × VQ))) (f : V3) (s : State) : ∃ spec x perform,
      exec (p.1 f) s = vexec (p.1 f) spec f x perform s := by
  fin_cases hp <;> exact ⟨_, _, _, rfl⟩

/-- The page of a parked head that the host refuses (R226). -/
theorem queueMove_of_bad {s : State} {c : Nat} {v : VQ} {e : QEntry} {va : Word}
    (hhead : ((s.th c).q.get v).held.head? = some e) (hhalted : ((s.th c).q.get v).halted = false) (hdone : e.done = false)
    (hkill : killedStrand s c = none) (hbad : ((s.th c).q.get v).park = .bad va) (perform : QEntry → State → VOut) :
    queueMove s c v perform = .next (haltQueue (keepSrcs s c v e) c v cPageFault va) := by
  obtain ⟨r, hheld⟩ := List.head?_eq_some_iff.mp hhead
  simp only [queueMove, hheld, hhalted, hdone, hkill, hbad, Option.isSome_none, Bool.false_and, Bool.false_eq_true, if_false]

theorem performVst_misaligned {e : QEntry} {s : State} (hd : (srcsOf s s.me e).a.d = false)
    (ha : (vldAddr e).toNat % 256 ≠ 0) : performVst e s = .fault cMisalign (vldAddr e) := by
  unfold performVst
  simp only [hd, not_aligned_of_mod ha, Bool.false_eq_true, if_false, if_true]

/-- A store whose page lies at the host meets the refusal of its request (R273). -/
theorem queueAccess_refused {s : State} {c : Nat} {v : VQ} {e : QEntry} {k : AccKind} {a : Word} {n key : Nat} {va : Word}
    {m : Nat} (hv : v ≠ .vl) (hchk : checkPieces s (s.whoThread c) k [(a, n)] = .ok [(key, some .hostU)])
    (hheld : heldBack s c e.seq a n = false) (hhost : ((s.th c).q.get v).host = .answered va m false)
    (go : Places → State → VOut) : queueAccess s c v e k [(a, n)] go = .fault cPageFault va := by
  have hpieces : hostPieces [(a, n)] [(key, some .hostU)] = [a] := rfl
  simp only [queueAccess, hchk, hpieces, hhost, hheld, decide_eq_false hv, List.any_cons, List.any_nil, Bool.or_false,
    Bool.and_false, Bool.false_and, Bool.false_eq_true, if_false, Bool.not_false, if_true]

theorem performSpush_full {e : QEntry} {s : State} (hd : (srcsOf s s.me e).b.d = false)
    (hfull : 1024 < ((s.th s.me).strm.cqAt e.f.a.toNat).length + ((activeList e (srcsOf s s.me e)).flatMap
      (fun i => leBytes e.et.width (elemOf (srcsOf s s.me e).b.val.toNat e.et.width i))).length) :
    performSpush e s = .fault cCqFull (BitVec.ofNat 64 e.f.a.toNat) := by
  unfold performSpush
  simp only [hd, Bool.false_eq_true, if_false]
  exact if_pos hfull

theorem performVldb_misaligned {e : QEntry} (ha : e.sb.val.toNat % 128 ≠ 0) (s : State) :
    performVldb e s = .fault cMisalign e.sb.val := by
  unfold performVldb
  simp only [not_aligned_of_mod ha, if_true]

/-- A load-block across layers (R209). -/
theorem performVldb_spans {e : QEntry} (ha : e.sb.val.toNat % 128 = 0)
    (h : inWindow e.sb.val.toNat = true ∨ inWindow (e.sb.val.toNat + 128 * (e.f.c.toNat + 1) - 1) = true ∨
      e.sb.val.toNat / 2 ^ 30 ≠ (e.sb.val.toNat + 128 * (e.f.c.toNat + 1) - 1) / 2 ^ 30) (s : State) :
    performVldb e s = .fault cLayerSpan e.sb.val := by
  unfold performVldb
  simp only [aligned_of_mod ha, Bool.false_eq_true, if_false]
  refine if_pos ?_
  rw [Bool.or_eq_true, Bool.or_eq_true, decide_eq_true_eq, or_assoc]
  exact h

theorem vldHalts (f : V3) (s : State) (e : QEntry) (hb : begins s s.me .vl e = true) (hs : sound (.vld f) s e = true) :
    ((vldAddr e).toNat % 256 ≠ 0 → Halts s s.me .vl e 0x04 (vldAddr e) (exec (.vld f) s)) ∧
    (∀ cause va, (vldAddr e).toNat % 256 = 0 → checkAccess s (s.whoThread s.me) .part (vldAddr e) 256 = .fault cause va →
      Halts s s.me .vl e cause va (exec (.vld f) s)) ∧
    ∀ key cls, (vldAddr e).toNat % 256 = 0 → placed s s.me .vl e .part [(vldAddr e, 256)] [(key, cls)] = true →
      activeBad s e (srcsOf s s.me e) (vldAddr e) key = true → Halts s s.me .vl e 0x0F (vldAddr e) (exec (.vld f) s) := by
  have hhalt {cause : BitVec 8} {addr : Word} (h : performVld e s = .fault cause addr) :=
    halts_of_begins (i := .vld f) rfl hb hs rfl h
  refine ⟨fun ha => hhalt (performVld_misaligned ha s), fun cause va ha h => hhalt ?_, fun key cls ha hp hbad => hhalt ?_⟩
  · exact (performVld_aligned ha s).trans (loadVec_fault h e _)
  · exact (performVld_aligned ha s).trans ((loadVec_placed _ hp).trans (if_pos hbad))

theorem vstHalts (f : V3) (s : State) (e : QEntry) (hb : begins s s.me .vs e = true) (hs : sound (.vst f) s e = true) :
    ((srcsOf s s.me e).a.d = true → Halts s s.me .vs e 0x07 (BitVec.ofNat 64 (64 + e.f.a.toNat)) (exec (.vst f) s)) ∧
    ((srcsOf s s.me e).a.d = false → (vldAddr e).toNat % 256 ≠ 0 →
      Halts s s.me .vs e 0x04 (vldAddr e) (exec (.vst f) s)) ∧
    (∀ cause va, (srcsOf s s.me e).a.d = false → (vldAddr e).toNat % 256 = 0 →
      checkAccess s (s.whoThread s.me) .write (vldAddr e) 256 = .fault cause va →
      Halts s s.me .vs e cause va (exec (.vst f) s)) ∧
    ∀ key va, (srcsOf s s.me e).a.d = false → (vldAddr e).toNat % 256 = 0 →
      checkAccess s (s.whoThread s.me) .write (vldAddr e) 256 = .ok key (some .hostU) →
      (s.th s.me).q.vs.host = .answered va 0 false → heldBack s s.me e.seq (vldAddr e) 256 = false →
      Halts s s.me .vs e 0x05 va (exec (.vst f) s) := by
  have hhalt {cause : BitVec 8} {addr : Word} (h : performVst e s = .fault cause addr) :=
    halts_of_begins (i := .vst f) rfl hb hs rfl h
  refine ⟨fun hd => hhalt (if_pos hd), fun hd ha => hhalt (performVst_misaligned hd ha), fun cause va hd ha h => hhalt ?_,
    fun key va hd ha h hhost hheld => hhalt ?_⟩
  · exact (performVst_eq hd ha).trans (queueAccess_of_fault (checkPieces_one_fault h) _)
  · exact (performVst_eq hd ha).trans (queueAccess_refused (v := .vs) (by decide) (checkPieces_one_ok h) hheld hhost _)

/-- Settles O26: in each case the performed head faults, and its fault halts the queue. -/
theorem queueFaultHalts : Obligations.QueueFaultHalts := by
  refine ⟨fun p hp f s c v e hb hs => ?_, fun f s c e hb hs => ?_, fun f s c e hb hs => ?_,
    fun p hp f s c e va hagent hhead hhalted hdone hkill hbad => ?_, fun f s c e hb hs => ?_, fun f s c e hb hs => ?_,
    fun f s c e a hb hs => ?_, fun f s c e hb hs hbad => ?_⟩
  · obtain ⟨spec, x, perform, hspec, hquiet, hexec⟩ := exec_readingForms hp f s
    exact halts_of_ecc hspec hb hs hquiet hexec
  · obtain rfl := me_of_queue (agent_of_begins hb)
    exact vldHalts f s e hb hs
  · obtain rfl := me_of_queue (agent_of_begins hb)
    exact vstHalts f s e hb hs
  · obtain ⟨spec, x, perform, hexec⟩ := exec_pagedForms hp f s
    refine halts_of_halt ?_
    rw [hexec, vexec_performs hagent, queueMove_of_bad hhead hhalted hdone hkill hbad]
    rfl
  · obtain rfl := me_of_queue (agent_of_begins hb)
    exact fun hd hfull => halts_of_begins (i := .spush f) rfl hb hs rfl (performSpush_full hd hfull)
  · obtain rfl := me_of_queue (agent_of_begins hb)
    exact ⟨fun ha => halts_of_begins (i := .vldb f) rfl hb hs rfl (performVldb_misaligned ha s),
      fun ha h => halts_of_begins (i := .vldb f) rfl hb hs rfl (performVldb_spans ha h s)⟩
  · obtain rfl := me_of_queue (agent_of_begins hb)
    intro x st hspan
    refine halts_of_begins (i := .vldst f) rfl hb hs rfl (perform := performVldst) ?_
    rw [performVldst_eq, show headSpan e s = some a from hspan]
    rfl
  · obtain rfl := me_of_queue (agent_of_begins hb)
    exact halts_of_begins (i := .vunpark f) rfl hb hs rfl (perform := performVunpark) (if_pos hbad)

end Sys2Proof.Machine
